-- ==== Sys2Proof/Word.lean ====
section
/-! DEFINITION. Word.lean: the word types of the Polod and their plainest arithmetic (R6).
Bits are numbered from 0, the least significant; a range is written high:low. -/

namespace Sys2Proof

/-- One byte (R6). -/
abbrev Byte := BitVec 8
/-- A 32-bit vector register's contents (Table 2-3). -/
abbrev Word := BitVec 32
/-- A 64-bit uniform register's contents (Table 2-3). -/
abbrev DWord := BitVec 64
/-- A 96-bit instruction slot (R44). -/
abbrev Slot := BitVec 96
/-- A mask with one bit per thread slot of a group (R19). -/
abbrev Mask := BitVec 64

/-- Bits hi:lo of a word, as a natural number. -/
def bitsNat {w : Nat} (x : BitVec w) (hi lo : Nat) : Nat := (x.toNat >>> lo) % 2 ^ (hi + 1 - lo)

/-- Bits hi:lo of a natural number. -/
def natBits (x hi lo : Nat) : Nat := (x >>> lo) % 2 ^ (hi + 1 - lo)

/-- x read as a w-bit two's-complement integer (helper Signed of R111). -/
def signedNat (w x : Nat) : Int :=
  let y := x % 2 ^ w
  if y < 2 ^ (w - 1) then (y : Int) else (y : Int) - (2 ^ w : Nat)

/-- The low w bits of an integer in two's complement (helper Bits of R111). -/
def intBits (w : Nat) (x : Int) : Nat := (x % ((2 ^ w : Nat) : Int)).toNat

end Sys2Proof
end

