-- ==== Sys2Proof/Machine/Fp.lean ====
section
/-! DEFINITION. Fp.lean: floating-point values, rounding and flags (04_number_formats), and the bit-exact approximations of
05 (R139 to R141). Exact reals are fractions; no intermediate is rounded. -/

namespace Sys2Proof

/-- An exact real number num / den; den is never 0. -/
structure Exact where
  num : Int
  den : Nat
  deriving DecidableEq, Repr

/-- 2^e as a fraction. -/
def Exact.pow2 (e : Int) : Exact := if 0 ≤ e then ⟨((2 ^ e.toNat : Nat) : Int), 1⟩ else ⟨1, 2 ^ (-e).toNat⟩
def Exact.ofInt (n : Int) : Exact := ⟨n, 1⟩
def Exact.add (x y : Exact) : Exact :=
  if x.den = y.den then ⟨x.num + y.num, x.den⟩ else ⟨x.num * y.den + y.num * x.den, x.den * y.den⟩
def Exact.mul (x y : Exact) : Exact := ⟨x.num * y.num, x.den * y.den⟩
def Exact.neg (x : Exact) : Exact := ⟨-x.num, x.den⟩
def Exact.sub (x y : Exact) : Exact := x.add y.neg
def Exact.abs (x : Exact) : Exact := ⟨x.num.natAbs, x.den⟩
/-- x / y for y not 0. -/
def Exact.div (x y : Exact) : Exact :=
  if y.num < 0 then ⟨-(x.num * y.den), x.den * y.num.natAbs⟩ else ⟨x.num * y.den, x.den * y.num.natAbs⟩
def Exact.lt (x y : Exact) : Bool := x.num * y.den < y.num * x.den
def Exact.le (x y : Exact) : Bool := x.num * y.den ≤ y.num * x.den
def Exact.eq (x y : Exact) : Bool := x.num * y.den = y.num * x.den
def Exact.isNeg (x : Exact) : Bool := x.num < 0
def Exact.isZero (x : Exact) : Bool := x.num = 0
def Exact.floor (x : Exact) : Int := x.num / (x.den : Int)
/-- x · 2^e. -/
def Exact.scale (x : Exact) (e : Int) : Exact := x.mul (Exact.pow2 e)
/-- floor(log2 |x|) for x not 0. -/
def Exact.log2 (x : Exact) : Int :=
  let k := (Nat.log2 x.num.natAbs : Int) - (Nat.log2 x.den : Int)
  if Exact.le (Exact.pow2 k) x.abs then k else k - 1

/-- A floating-point format: width, fraction bits F, bias, exponent of the largest finite value, its significand in units
of the last place, and whether all exponents but the top NaN are finite (e4m3) (Table 4-1). -/
structure Fmt where
  w : Nat
  fb : Nat
  bias : Nat
  emax : Nat
  umax : Nat
  e4 : Bool
  f8 : Bool
  deriving DecidableEq, Repr

/-- The format of a type code (Table 3-4, Table 4-1); e5m2 for code 13 and anything else. -/
def fmtOf (t : Nat) : Fmt :=
  match t with
  | 8 => ⟨16, 10, 15, 15, 2047, false, false⟩
  | 9 => ⟨16, 7, 127, 127, 255, false, false⟩
  | 10 => ⟨32, 23, 127, 127, 16777215, false, false⟩
  | 11 => ⟨64, 52, 1023, 1023, 9007199254740991, false, false⟩
  | 12 => ⟨8, 3, 7, 8, 14, true, true⟩
  | _ => ⟨8, 2, 15, 15, 7, false, true⟩

/-- The all-ones exponent field. -/
def Fmt.emask (f : Fmt) : Nat := 2 ^ (f.w - 1 - f.fb) - 1
def Fmt.signBit (f : Fmt) : Nat := 2 ^ (f.w - 1)
/-- The canonical NaN (Table 4-1). -/
def Fmt.nan (f : Fmt) : Nat := if f.e4 then 0x7F else f.emask * 2 ^ f.fb + 2 ^ (f.fb - 1)
/-- +∞; e4m3 has none and gives its canonical NaN. -/
def Fmt.inf (f : Fmt) : Nat := if f.e4 then 0x7F else f.emask * 2 ^ f.fb
def Fmt.maxF (f : Fmt) : Nat := (f.emax + f.bias) * 2 ^ f.fb + (f.umax - 2 ^ f.fb)

/-- A floating-point value (R83). `fin x` has x not 0. -/
inductive FVal where
  | nan (sig : Bool)
  | inf (neg : Bool)
  | zero (neg : Bool)
  | fin (x : Exact)
  deriving DecidableEq, Repr

/-- Flags: nv 1, dz 2, of 4, uf 8, nx 16 (Table 4-6). -/
abbrev Flags := Nat
def fNV : Flags := 1
def fDZ : Flags := 2
def fOF : Flags := 4
def fUF : Flags := 8
def fNX : Flags := 16

/-- The value of an encoding (R83). -/
def fpDecode (f : Fmt) (bits : Nat) : FVal :=
  let b := bits % 2 ^ f.w
  let s := b / 2 ^ (f.w - 1) = 1
  let e := b / 2 ^ f.fb % (f.emask + 1)
  let m := b % 2 ^ f.fb
  let sg : Int := if s then -1 else 1
  if e = 0 then
    (if m = 0 then .zero s else .fin ((Exact.ofInt (sg * m)).scale (1 - (f.bias : Int) - f.fb)))
  else if e = f.emask && !(f.e4 && m ≠ 2 ^ f.fb - 1) then
    (if f.e4 then .nan false else if m = 0 then .inf s else .nan (!f.f8 && m / 2 ^ (f.fb - 1) = 0))
  else .fin ((Exact.ofInt (sg * (m + 2 ^ f.fb))).scale ((e : Int) - f.bias - f.fb))

/-- Round the nonnegative fraction n / d to an integer by a mode of Table 3-5, the sign of the value given (R87). -/
def roundUnits (mode : Nat) (neg : Bool) (n d : Nat) : Nat :=
  let lo := n / d
  let r := n % d
  if r = 0 then lo
  else match mode with
    | 1 => if 2 * r < d then lo else if d < 2 * r then lo + 1 else if lo % 2 = 0 then lo else lo + 1
    | 5 => if 2 * r < d then lo else lo + 1
    | 2 => lo
    | 3 => if neg then lo else lo + 1
    | 4 => if neg then lo + 1 else lo
    | _ => if lo % 2 = 1 then lo else lo + 1

/-- |x| in units of 2^k, as a fraction. -/
def Exact.units (x : Exact) (k : Int) : Nat × Nat :=
  if 0 ≤ k then (x.num.natAbs, x.den * 2 ^ k.toNat) else (x.num.natAbs * 2 ^ (-k).toNat, x.den)

/-- Whether an overflow goes to infinity (Table 4-3). -/
def overflowsToInf (mode : Nat) (neg : Bool) : Bool :=
  mode = 1 || mode = 5 || (mode = 3 && !neg) || (mode = 4 && neg)

/-- The result on overflow (Table 4-3, R88): e4m3 has the canonical NaN for an infinity. -/
def fpOverflow (f : Fmt) (neg : Bool) (mode : Nat) : Nat :=
  if overflowsToInf mode neg then (if f.e4 then 0x7F else f.inf + if neg then f.signBit else 0)
  else f.maxF + if neg then f.signBit else 0

/-- RoundTo of R87 on a finite nonzero x: bits and flags; `sat` takes the sat = 1 column of Table 4-7 on overflow. -/
def roundFin (f : Fmt) (mode : Nat) (sat : Bool) (x : Exact) : Nat × Flags :=
  let neg := x.isNeg
  let sb := if neg then f.signBit else 0
  let emin : Int := 1 - (f.bias : Int)
  let fl := x.log2
  let e := max fl emin
  let nd := x.units (e - f.fb)
  let u := roundUnits mode neg nd.1 nd.2
  let inexact := nd.1 % nd.2 ≠ 0
  -- renormalise a carry out of the significand
  let eu : Int × Nat := if u = 2 ^ (f.fb + 1) then (e + 1, 2 ^ f.fb) else (e, u)
  if (f.emax : Int) < eu.1 || (eu.1 = f.emax && f.umax < eu.2) then
    ((if sat then f.maxF + sb else fpOverflow f neg mode), fOF + fNX)
  else
    let nd2 := x.units (fl - f.fb)
    let tiny := fl < emin && !(fl + 1 = emin && roundUnits mode neg nd2.1 nd2.2 = 2 ^ (f.fb + 1))
    let bits := if eu.2 < 2 ^ f.fb then eu.2 else (eu.1 + f.bias).toNat * 2 ^ f.fb + (eu.2 - 2 ^ f.fb)
    (bits + sb, if inexact then (if tiny then fNX + fUF else fNX) else 0)

/-- RoundTo of R87: the encoding of a value in a format, and the flags raised. -/
def roundTo (f : Fmt) (mode : Nat) (v : FVal) : Nat × Flags :=
  match v with
  | .nan _ => (f.nan, 0)
  | .inf neg => (if f.e4 then 0x7F else f.inf + if neg then f.signBit else 0, 0)
  | .zero neg => (if neg then f.signBit else 0, 0)
  | .fin x => if x.isZero then (0, 0) else roundFin f mode false x

/-- A conversion to e4m3 or e5m2 (Table 4-7); other formats round by R87. A signalling NaN raises nv. -/
def convertTo (f : Fmt) (mode : Nat) (sat : Bool) (v : FVal) : Nat × Flags :=
  match v with
  | .nan sig => (f.nan, if sig then fNV else 0)
  | .inf neg =>
    if f.f8 && sat then (f.maxF + (if neg then f.signBit else 0), 0)
    else if f.e4 then (0x7F, fNV) else roundTo f mode v
  | .zero _ => roundTo f mode v
  | .fin x => roundFin f mode (f.f8 && sat) x

/-! ### Exact results before rounding: the value and the flags nv, dz -/

def FVal.isNan : FVal → Bool
  | .nan _ => true
  | _ => false
def FVal.isSig : FVal → Bool
  | .nan s => s
  | _ => false
def FVal.isNegative : FVal → Bool
  | .nan _ => false
  | .inf n => n
  | .zero n => n
  | .fin x => x.isNeg
/-- nv when any of the operands is a signalling NaN (R84). -/
def sigFlag (vs : List FVal) : Flags := if vs.any FVal.isSig then fNV else 0
def finOr (neg : Bool) (x : Exact) : FVal := if x.isZero then .zero neg else .fin x
def FVal.exact : FVal → Exact
  | .fin x => x
  | _ => ⟨0, 1⟩
def FVal.neg : FVal → FVal
  | .nan s => .nan s
  | .inf n => .inf (!n)
  | .zero n => .zero (!n)
  | .fin x => .fin x.neg

/-- The exact sum of several terms; an exact zero takes its sign by R85. -/
def fpSum (mode : Nat) (vs : List FVal) : FVal × Flags :=
  if vs.any FVal.isNan then (.nan false, sigFlag vs)
  else if vs.any (· = .inf true) && vs.any (· = .inf false) then (.nan false, fNV)
  else if vs.any (· = .inf true) then (.inf true, 0)
  else if vs.any (· = .inf false) then (.inf false, 0)
  else if vs.all (· = .zero true) then (.zero true, 0)
  else if vs.all (· = .zero false) then (.zero false, 0)
  else
    let s := vs.foldl (fun acc v => acc.add v.exact) ⟨0, 1⟩
    (finOr (mode = 4) s, 0)

/-- The exact product (R84, R85). -/
def fpMul (a b : FVal) : FVal × Flags :=
  let n := a.isNegative != b.isNegative
  match a, b with
  | .nan s, .nan r => (.nan false, if s || r then fNV else 0)
  | .nan s, _ => (.nan false, if s then fNV else 0)
  | _, .nan s => (.nan false, if s then fNV else 0)
  | .inf _, .zero _ => (.nan false, fNV)
  | .zero _, .inf _ => (.nan false, fNV)
  | .inf _, _ => (.inf n, 0)
  | _, .inf _ => (.inf n, 0)
  | .fin x, .fin y => (.fin (x.mul y), 0)
  | _, _ => (.zero n, 0)

/-- The exact fused sum of products and a last term: nv if any product or the sum is invalid (R134, R142). -/
def fpDot (mode : Nat) (ps : List (FVal × FVal)) (c : FVal) : FVal × Flags :=
  let prods := ps.map fun p => fpMul p.1 p.2
  let r := fpSum mode (prods.map (·.1) ++ [c])
  (r.1, (prods.foldl (fun f p => f ||| p.2) r.2) ||| sigFlag [c])

/-- The exact quotient (R134). -/
def fpDiv (a b : FVal) : FVal × Flags :=
  let n := a.isNegative != b.isNegative
  match a, b with
  | .nan s, .nan r => (.nan false, if s || r then fNV else 0)
  | .nan s, _ => (.nan false, if s then fNV else 0)
  | _, .nan s => (.nan false, if s then fNV else 0)
  | .inf _, .inf _ => (.nan false, fNV)
  | .zero _, .zero _ => (.nan false, fNV)
  | .inf _, _ => (.inf n, 0)
  | _, .inf _ => (.zero n, 0)
  | .zero _, _ => (.zero n, 0)
  | .fin _, .zero _ => (.inf n, fDZ)
  | .fin x, .fin y => (.fin (x.div y), 0)

/-- floor(sqrt n) by one bit a step, from 2^k down. -/
def isqrtGo : Nat → Nat → Nat → Nat
  | 0, _, r => r
  | k + 1, n, r => isqrtGo k n (if (r + 2 ^ k) * (r + 2 ^ k) ≤ n then r + 2 ^ k else r)
def isqrt (n : Nat) : Nat := isqrtGo (Nat.log2 n / 2 + 1) n 0

/-- √x for x > 0 to 66 bits with a sticky bit below, which rounds as the exact root does at every format's precision. -/
def sqrtSticky (x : Exact) : Exact :=
  let sh : Int := 66 - x.log2 / 2
  let nd := x.units (-2 * sh)
  let r := isqrt (nd.1 / nd.2)
  let exact := r * r * nd.2 = nd.1
  (Exact.ofInt (2 * r + if exact then 0 else 1)).scale (-sh - 1)

def fpSqrt (a : FVal) : FVal × Flags :=
  match a with
  | .nan s => (.nan false, if s then fNV else 0)
  | .zero n => (.zero n, 0)
  | .inf false => (.inf false, 0)
  | .inf true => (.nan false, fNV)
  | .fin x => if x.isNeg then (.nan false, fNV) else (.fin (sqrtSticky x), 0)

/-- Order of R84: numbers with −0 below +0; only for values that are no NaN. -/
def fpLe (a b : FVal) : Bool :=
  match a, b with
  | .inf true, _ => true
  | _, .inf false => true
  | .inf false, _ => false
  | _, .inf true => false
  | .zero n, .zero m => n || !m
  | x, y => Exact.le x.exact y.exact
/-- Numeric comparison: −0 equals +0; only for values that are no NaN. -/
def fpEq (a b : FVal) : Bool :=
  match a, b with
  | .inf n, .inf m => n == m
  | .inf _, _ => false
  | _, .inf _ => false
  | x, y => Exact.eq x.exact y.exact
def fpLt (a b : FVal) : Bool := fpLe a b && !fpEq a b

/-- minimumNumber (mx = false) and maximumNumber (mx = true) (R84). -/
def fpMinMax (mx : Bool) (a b : FVal) : FVal × Flags :=
  let v := match a, b with
    | .nan _, .nan _ => .nan false
    | .nan _, y => y
    | x, .nan _ => x
    | x, y => if fpLe x y then (if mx then y else x) else (if mx then x else y)
  (v, sigFlag [a, b])

/-- The middle of three in the order of R84 (R138). -/
def fpMed3 (a b c : FVal) : FVal × Flags :=
  if [a, b, c].any FVal.isNan then (.nan false, sigFlag [a, b, c])
  else
    let lo := (fpMinMax false a b).1
    let hi := (fpMinMax true a b).1
    ((fpMinMax true lo (fpMinMax false hi c).1).1, 0)

/-- FCLAMP (R138). -/
def fpClamp (a b c : FVal) : FVal × Flags :=
  if a.isNan then (.nan false, sigFlag [a, b, c])
  else ((fpMinMax false (fpMinMax true a b).1 c).1, sigFlag [a, b, c])

/-- The FCMP condition of Table 5-7 and nv. -/
def fpCompare (cc : Nat) (u : Bool) (a b : FVal) : Bool × Flags :=
  let un := a.isNan || b.isNan
  let nv := sigFlag [a, b]
  let r := match cc with
    | 0 => if un then u else fpEq a b
    | 1 => if un then u else !fpEq a b
    | 2 => if un then u else fpLt a b
    | 3 => if un then u else fpLt a b || fpEq a b
    | 4 => if un then u else fpLt b a
    | 5 => if un then u else fpLt b a || fpEq a b
    | 6 => !un
    | _ => un
  (r, if un && 2 ≤ cc && cc ≤ 5 && !u then fNV else nv)

/-- The integer nearest x in a mode, and whether x was no integer (R137, R146). -/
def roundInt (mode : Nat) (x : Exact) : Int × Bool :=
  let u := roundUnits mode x.isNeg x.num.natAbs x.den
  (if x.isNeg then -(u : Int) else u, x.num.natAbs % x.den ≠ 0)

/-- FRND (R137): the value stays in its format; nx only with `x`. -/
def fpRnd (mode : Nat) (x : Bool) (a : FVal) : FVal × Flags :=
  match a with
  | .nan s => (.nan false, if s then fNV else 0)
  | .fin v =>
    let r := roundInt mode v
    (finOr v.isNeg (Exact.ofInt r.1), if x && r.2 then fNX else 0)
  | v => (v, 0)

/-- a · 2^n (R134). Beyond ±3000 every format has already overflowed or underflowed, so n is taken at that bound. -/
def fpScale (a : FVal) (n : Int) : FVal × Flags :=
  match a with
  | .nan s => (.nan false, if s then fNV else 0)
  | .fin x => (.fin (x.scale (max (-3000) (min 3000 n))), 0)
  | v => (v, 0)

/-- FGETM (R136). -/
def fpGetM (a : FVal) : FVal × Flags :=
  match a with
  | .nan s => (.nan false, if s then fNV else 0)
  | .fin x => (.fin (x.scale (-x.log2)), 0)
  | v => (v, 0)
/-- FGETE (R136): an s32. -/
def fpGetE (a : FVal) : Int × Flags :=
  match a with
  | .nan s => (2 ^ 31 - 1, if s then fNV else 0)
  | .inf _ => (2 ^ 31 - 1, 0)
  | .zero _ => (-2 ^ 31, 0)
  | .fin x => (x.log2, 0)
/-- FCLASS (R135) of an encoding. -/
def fpClass (f : Fmt) (bits : Nat) : Nat :=
  let e := bits / 2 ^ f.fb % (f.emask + 1)
  match fpDecode f bits with
  | .nan true => 1
  | .nan false => 2
  | .inf true => 4
  | .inf false => 512
  | .zero true => 32
  | .zero false => 64
  | .fin x => if x.isNeg then (if e = 0 then 16 else 8) else (if e = 0 then 128 else 256)

/-! ### Approximations (R139 to R141) -/

/-- FixRound(n / d, k): in units of 2^−k, ties to even (R139). -/
def fixRound (n d k : Nat) : Nat := roundUnits 1 false (n * 2 ^ k) d
/-- Approx(T, y): truncated, no flag, infinity above MaxF (R139); the magnitude tested against MaxF is the rounded one (DEDUCED, log
88). -/
def approxTo (f : Fmt) (y : Exact) : Nat :=
  if y.isZero then 0
  else
    let r := roundFin f 2 false y
    if r.2 &&& fOF ≠ 0 then f.inf + (if y.isNeg then f.signBit else 0) else r.1
def Exact.ofFix (n k : Nat) : Exact := ⟨n, 2 ^ k⟩

/-- FRCPA (R139). -/
def fpRcpa (f : Fmt) (a : FVal) : Nat × Flags :=
  match a with
  | .nan s => (f.nan, if s then fNV else 0)
  | .zero n => (f.inf + (if n then f.signBit else 0), fDZ)
  | .inf n => (if n then f.signBit else 0, 0)
  | .fin x =>
    let e := x.log2
    let m := x.abs.scale (-e)
    let i := ((m.sub (Exact.ofInt 1)).scale 8).floor.toNat
    let y0 := Exact.ofFix (fixRound 512 (512 + 2 * i + 1) 16) 16
    let y1 := y0.mul ((Exact.ofInt 2).sub (m.mul y0))
    let y := y1.scale (-e)
    (approxTo f (if x.isNeg then y.neg else y), 0)

/-- FRSQA (R140). FixRound(1 / sqrt(q), 16) for q = (257 + 2i) / 256 is the integer nearest 2^16 / sqrt(q). -/
def fpRsqa (f : Fmt) (a : FVal) : Nat × Flags :=
  match a with
  | .nan s => (f.nan, if s then fNV else 0)
  | .zero n => (f.inf + (if n then f.signBit else 0), fDZ)
  | .inf false => (0, 0)
  | .inf true => (f.nan, fNV)
  | .fin x =>
    if x.isNeg then (f.nan, fNV)
    else
      let e := x.log2
      let ee := if e % 2 = 0 then e else e - 1
      let m := x.scale (-ee)
      let i := ((m.scale 7).floor - 128).toNat
      let y0 := Exact.ofFix ((isqrt (2 ^ 42 / (257 + 2 * i)) + 1) / 2) 16
      let y1 := (y0.mul ((Exact.ofInt 3).sub (m.mul (y0.mul y0)))).scale (-1)
      (approxTo f (y1.scale (-(ee / 2))), 0)

/-- FixRound(2^(i/64), 30) for i from 0 to 63 (R141). -/
def exp2Table : List Nat :=
  [1073741824, 1085434106, 1097253708, 1109202018, 1121280436, 1133490379, 1145833280, 1158310587] ++
  [1170923762, 1183674286, 1196563654, 1209593378, 1222764986, 1236080024, 1249540052, 1263146652] ++
  [1276901417, 1290805962, 1304861917, 1319070932, 1333434672, 1347954824, 1362633090, 1377471191] ++
  [1392470869, 1407633882, 1422962010, 1438457051, 1454120821, 1469955159, 1485961921, 1502142985] ++
  [1518500250, 1535035634, 1551751076, 1568648537, 1585730000, 1602997467, 1620452965, 1638098541] ++
  [1655936265, 1673968228, 1692196547, 1710623359, 1729250827, 1748081133, 1767116489, 1786359126] ++
  [1805811301, 1825475297, 1845353420, 1865448001, 1885761398, 1906295993, 1927054196, 1948038440] ++
  [1969251188, 1990694927, 2012372174, 2034285470, 2056437387, 2078830522, 2101467502, 2124350982]
/-- FixRound(log2(1 + i/64), 30) for i from 0 to 63 (R141). -/
def log2Table : List Nat :=
  [0, 24017256, 47667823, 70962728, 93912511, 116527248, 138816582, 160789745] ++
  [182455581, 203822568, 224898839, 245692198, 266210141, 286459867, 306448299, 326182095] ++
  [345667660, 364911162, 383918542, 402695523, 421247625, 439580170, 457698295, 475606957] ++
  [493310944, 510814882, 528123241, 545240343, 562170370, 578917365, 595485245, 611877800] ++
  [628098702, 644151509, 660039669, 675766525, 691335320, 706749198, 722011213, 737124328] ++
  [752091421, 766915285, 781598637, 796144114, 810554283, 824831638, 838978604, 852997541] ++
  [866890747, 880660455, 894308843, 907838029, 921250079, 934547002, 947730758, 960803257] ++
  [973766362, 986621888, 999371606, 1012017244, 1024560487, 1037002979, 1049346328, 1061592099]
/-- FixRound(sin(2·pi·i/256), 30) for i from 0 to 64 (R141); the other quadrants follow by symmetry. -/
def sinTable : List Nat :=
  [0, 26350943, 52686014, 78989349, 105245103, 131437462, 157550647, 183568930] ++
  [209476638, 235258165, 260897982, 286380643, 311690799, 336813204, 361732726, 386434353] ++
  [410903207, 435124548, 459083786, 482766489, 506158392, 529245404, 552013618, 574449320] ++
  [596538995, 618269338, 639627258, 660599890, 681174602, 701339000, 721080937, 740388522] ++
  [759250125, 777654384, 795590213, 813046808, 830013654, 846480531, 862437520, 877875009] ++
  [892783698, 907154608, 920979082, 934248793, 946955747, 959092290, 970651112, 981625251] ++
  [992008094, 1001793390, 1010975242, 1019548121, 1027506862, 1034846671, 1041563127, 1047652185] ++
  [1053110176, 1057933813, 1062120190, 1065666786, 1068571464, 1070832474, 1072448455, 1073418433] ++
  [1073741824]
/-- FixRound(sin(2·pi·i/256), 30) for any i. -/
def sinFix (i : Nat) : Int :=
  let j := i % 256
  if j ≤ 64 then sinTable.getD j 0
  else if j ≤ 128 then sinTable.getD (128 - j) 0
  else if j ≤ 192 then -(sinTable.getD (j - 128) 0 : Int)
  else -(sinTable.getD (256 - j) 0 : Int)

/-- FixRound(ln 2, 30). -/
def ln2Fix : Nat := 744261118
/-- FixRound(1 / ln 2, 30). -/
def rln2Fix : Nat := 1549082005
/-- FixRound(1 / (2·pi), 72). -/
def r2piFix : Nat := 751587968840192313983
/-- FixRound(2·pi, 30). -/
def twoPiFix : Nat := 6746518852

/-- x^n / k. -/
def Exact.term (x : Exact) (n k : Nat) : Exact := ⟨x.num ^ n, x.den ^ n * k⟩
def Exact.sumL (l : List Exact) : Exact := l.foldl Exact.add ⟨0, 1⟩

/-- FEX2 (R141). -/
def fpEx2 (a : FVal) : Nat × Flags :=
  let f := fmtOf 10
  match a with
  | .nan s => (f.nan, if s then fNV else 0)
  | .inf n => (if n then 0 else f.inf, 0)
  | .zero _ => (0x3F800000, 0)
  | .fin x =>
    if Exact.le (Exact.ofInt 128) x then (f.inf, 0)
    else if Exact.lt x (Exact.ofInt (-150)) then (0, 0)
    else
      let n := x.floor
      let fr := x.sub (Exact.ofInt n)
      let i := (fr.scale 6).floor.toNat
      let g := (fr.sub (Exact.ofFix i 6)).mul (Exact.ofFix ln2Fix 30)
      let p := Exact.sumL [Exact.ofInt 1, g, g.term 2 2, g.term 3 6, g.term 4 24]
      (approxTo f (((Exact.ofFix (exp2Table.getD i 0) 30).mul p).scale n), 0)

/-- FLG2 (R141). -/
def fpLg2 (a : FVal) : Nat × Flags :=
  let f := fmtOf 10
  match a with
  | .nan s => (f.nan, if s then fNV else 0)
  | .zero _ => (f.inf + f.signBit, fDZ)
  | .inf n => if n then (f.nan, fNV) else (f.inf, 0)
  | .fin x =>
    if x.isNeg then (f.nan, fNV)
    else
      let e := x.log2
      let m := x.scale (-e)
      let i := ((m.sub (Exact.ofInt 1)).scale 6).floor.toNat
      let z := (m.mul (Exact.ofFix (fixRound 64 (64 + i) 30) 30)).sub (Exact.ofInt 1)
      let p := (Exact.ofFix rln2Fix 30).mul
        (Exact.sumL [z, (z.term 2 2).neg, z.term 3 3, (z.term 4 4).neg, z.term 5 5])
      (approxTo f (Exact.sumL [Exact.ofInt e, Exact.ofFix (log2Table.getD i 0) 30, p]), 0)

/-- FSIN and FCOS (R141). -/
def fpSinCos (cos : Bool) (a : FVal) : Nat × Flags :=
  let f := fmtOf 10
  match a with
  | .nan s => (f.nan, if s then fNV else 0)
  | .inf _ => (f.nan, fNV)
  | .zero n => (if cos then 0x3F800000 else if n then f.signBit else 0, 0)
  | .fin x =>
    let q := x.mul (Exact.ofFix r2piFix 72)
    let t := q.sub (Exact.ofInt q.floor)
    let i := (t.scale 8).floor.toNat
    let h := (Exact.ofFix twoPiFix 30).mul (t.sub (Exact.ofFix i 8))
    let sn : Exact := ⟨sinFix i, 2 ^ 30⟩
    let cn : Exact := ⟨sinFix (i + 64), 2 ^ 30⟩
    let sh := Exact.sumL [h, (h.term 3 6).neg, h.term 5 120]
    let ch := Exact.sumL [Exact.ofInt 1, (h.term 2 2).neg, h.term 4 24, (h.term 6 720).neg]
    (approxTo f (if cos then (cn.mul ch).sub (sn.mul sh) else (sn.mul ch).add (cn.mul sh)), 0)

end Sys2Proof
end

