-- ==== Sys2Proof/Config.lean ====
section
/-! DEFINITION. Config.lean: what an implementation fixes and the free values of the model.
Every constant here is opaque: nothing in Lean can evaluate it or prove a value of it, so a statement about it
holds whatever it is (assumption log 10 and 13). -/

namespace Sys2Proof.Config

/-- A fresh value for each use: the step reads and advances State.free (log 10). -/
opaque freeValue : Nat → Nat
/-- The choice among agents that may move when the agenda is empty (log 1). -/
opaque choice : Nat → Nat
/-- The set of an L1 and of an L2 slice that a line falls in, and the way of a set that gives a line up where the manual names no
order (log 7). -/
opaque l1Set : Nat → Nat
opaque l2Set : Nat → Nat
/-- RDTIME's skew of a die, in ns; R417 bounds the difference of two dies by 20 ns, so it is used modulo 21. -/
opaque timeSkew : Nat → Nat
/-- The device serial number (R394, R396). -/
opaque serial : BitVec 64
/-- SHA-384 over a string of bytes (R393). -/
opaque sha384 : List Byte → BitVec 384
/-- Whether both signatures of a firmware image verify (R393). -/
opaque firmwareVerifies : List Byte → Bool
/-- The images in the boot store, one for each firmware stage, of which there are at most 8 (R393, log 13). -/
opaque bootStages : List (List Byte)
/-- The RSA-3072 signature of an attestation body, 384 bytes (R394). -/
opaque rsaSign : List Byte → BitVec 3072
/-- The SLH-DSA-SHA2-256s signature of an attestation body, 29,792 bytes (R394). -/
opaque slhSign : List Byte → BitVec 238336

end Sys2Proof.Config
end

