-- ==== Sys2Proof/Syntax.lean ====
section
/-! DEFINITION. Syntax.lean: the instruction formats of 03_encoding (R52, R63 to R69) and the ONE inductive Instr:
one constructor per row of spec/opcode_table.json, instructions first, then the events of the other agents. -/

namespace Sys2Proof

/-- The common header, bits 95:73 less the opcode (R52, Table 3-3). -/
structure Hdr where
  n : Bool
  pg : BitVec 3
  u : Bool
  s : Bool
  l : BitVec 2
  rm : BitVec 3
  t : BitVec 4
  deriving DecidableEq, Repr

/-- Format A (R63): arithmetic, logic, move, compare, floating point, conversion. `w` is imm32 when `i`, else func. -/
structure FmtA where
  h : Hdr
  d : BitVec 10
  a : BitVec 10
  b : BitVec 10
  c : BitVec 10
  i : Bool
  w : BitVec 32
  deriving DecidableEq, Repr

/-- Format M (R65): loads, stores, cache operations, atomics and fences. -/
structure FmtM where
  h : Hdr
  d : BitVec 10
  a : BitVec 10
  b : BitVec 10
  c : BitVec 10
  space : BitVec 2
  order : BitVec 2
  scope : BitVec 3
  hint : BitVec 2
  off : BitVec 24
  deriving DecidableEq, Repr

/-- Format C (R66): control instructions and barriers. -/
structure FmtC where
  h : Hdr
  tline : BitVec 24
  tslot : BitVec 3
  cline : BitVec 24
  cslot : BitVec 3
  hint : Bool
  a : BitVec 10
  cfn : BitVec 8
  deriving DecidableEq, Repr

/-- Format E (R67): engine issue. The parameter words of an inline form stand in the line, not here (R48, R69). -/
structure FmtE where
  h : Hdr
  k : BitVec 10
  a : BitVec 10
  efn : BitVec 53
  deriving DecidableEq, Repr

/-- Format S (R68): control registers and the control core's instructions. -/
structure FmtS where
  h : Hdr
  d : BitVec 10
  a : BitVec 10
  csr : BitVec 12
  sfn : BitVec 41
  deriving DecidableEq, Repr

/-- One RLP frame as it arrives at a port: the header of Table 15-7 and its payload (R395).
`port` is the die that carries the Ethernet port, `src` the frame's source address and UDP port, `dport` the UDP port that a
frame to the device names (R389). -/
structure Frame where
  port : Nat
  src : Nat
  dport : Nat := 47120
  magic : BitVec 16
  ver : BitVec 8
  kind : BitVec 8
  flags : BitVec 16
  len : BitVec 16
  sid : BitVec 32
  seq : BitVec 32
  key : BitVec 64
  ackb : BitVec 32
  zero : BitVec 32
  ackm : BitVec 64
  payload : List Byte
  deriving DecidableEq, Repr

/-- One constructor per row of spec/opcode_table.json. Instructions carry their encoding's fields; an event carries
the name of the agent or work item it happens to. -/
inductive Instr where
  /-- R328. -/
  | nop
  /-- R331. -/
  | bra (o : FmtC)
  /-- R333. -/
  | brx (o : FmtC)
  /-- R335. -/
  | call (o : FmtC)
  /-- R335. -/
  | callInd (o : FmtC)
  /-- R335. -/
  | ret (o : FmtC)
  /-- R332. -/
  | join (o : FmtC)
  /-- R334. -/
  | exit (o : FmtC)
  /-- R340. -/
  | sleep (o : FmtC)
  /-- R340. -/
  | sleepTok (o : FmtC)
  /-- R341. -/
  | yield (o : FmtC)
  /-- R337. -/
  | pln (o : FmtC)
  /-- R337. -/
  | plng (o : FmtC)
  /-- R342. -/
  | trap (o : FmtC)
  /-- R342. -/
  | brk (o : FmtC)
  /-- R336. -/
  | loop (o : FmtC)
  /-- R117. -/
  | add (o : FmtA)
  /-- R117. -/
  | sub (o : FmtA)
  /-- R117. -/
  | mul (o : FmtA)
  /-- R117. -/
  | mulhi (o : FmtA)
  /-- R117. -/
  | mad (o : FmtA)
  /-- R117. -/
  | madhi (o : FmtA)
  /-- R117. -/
  | addc (o : FmtA)
  /-- R117. -/
  | subb (o : FmtA)
  /-- R117. -/
  | min (o : FmtA)
  /-- R117. -/
  | max (o : FmtA)
  /-- R117. -/
  | abs (o : FmtA)
  /-- R117. -/
  | neg (o : FmtA)
  /-- R118. -/
  | idiv (o : FmtA)
  /-- R118. -/
  | irem (o : FmtA)
  /-- R117. -/
  | sad (o : FmtA)
  /-- R119. -/
  | lea (o : FmtA)
  /-- R120. -/
  | and (o : FmtA)
  /-- R120. -/
  | or (o : FmtA)
  /-- R120. -/
  | xor (o : FmtA)
  /-- R120. -/
  | andn (o : FmtA)
  /-- R120. -/
  | not (o : FmtA)
  /-- R120. -/
  | logt (o : FmtA)
  /-- R121. -/
  | shl (o : FmtA)
  /-- R121. -/
  | shr (o : FmtA)
  /-- R121. -/
  | shra (o : FmtA)
  /-- R121. -/
  | rot (o : FmtA)
  /-- R121. -/
  | fshf (o : FmtA)
  /-- R122. -/
  | bfx (o : FmtA)
  /-- R122. -/
  | bfi (o : FmtA)
  /-- R120. -/
  | popc (o : FmtA)
  /-- R120. -/
  | clz (o : FmtA)
  /-- R120. -/
  | ctz (o : FmtA)
  /-- R120. -/
  | brev (o : FmtA)
  /-- R124. -/
  | mov (o : FmtA)
  /-- R123. -/
  | movi (o : FmtA)
  /-- R123. -/
  | movh (o : FmtA)
  /-- R123. -/
  | sel (o : FmtA)
  /-- R125. -/
  | bshuf (o : FmtA)
  /-- R123. -/
  | clamp (o : FmtA)
  /-- R126. -/
  | cmp (o : FmtA)
  /-- R127. -/
  | fcmp (o : FmtA)
  /-- R126. -/
  | plop (o : FmtA)
  /-- R128. -/
  | pmov (o : FmtA)
  /-- R130. -/
  | poll (o : FmtA)
  /-- R131. -/
  | lxch (o : FmtA)
  /-- R132. -/
  | gred (o : FmtA)
  /-- R132. -/
  | gscan (o : FmtA)
  /-- R133. -/
  | fadd (o : FmtA)
  /-- R133. -/
  | fsub (o : FmtA)
  /-- R133. -/
  | fmul (o : FmtA)
  /-- R134. -/
  | ffma (o : FmtA)
  /-- R84. -/
  | fmin (o : FmtA)
  /-- R84. -/
  | fmax (o : FmtA)
  /-- R133. -/
  | fabs (o : FmtA)
  /-- R133. -/
  | fneg (o : FmtA)
  /-- R134. -/
  | fdiv (o : FmtA)
  /-- R134. -/
  | fsqrt (o : FmtA)
  /-- R139. -/
  | frcpa (o : FmtA)
  /-- R140. -/
  | frsqa (o : FmtA)
  /-- R135. -/
  | fclass (o : FmtA)
  /-- R134. -/
  | fscale (o : FmtA)
  /-- R136. -/
  | fgete (o : FmtA)
  /-- R136. -/
  | fgetm (o : FmtA)
  /-- R133. -/
  | fcopys (o : FmtA)
  /-- R137. -/
  | frnd (o : FmtA)
  /-- R138. -/
  | fmed3 (o : FmtA)
  /-- R138. -/
  | fclamp (o : FmtA)
  /-- R141. -/
  | fex2 (o : FmtA)
  /-- R141. -/
  | flg2 (o : FmtA)
  /-- R141. -/
  | fsin (o : FmtA)
  /-- R141. -/
  | fcos (o : FmtA)
  /-- R142. -/
  | fdot2 (o : FmtA)
  /-- R142. -/
  | fadd2 (o : FmtA)
  /-- R142. -/
  | fmul2 (o : FmtA)
  /-- R142. -/
  | ffma2 (o : FmtA)
  /-- R144. -/
  | cvt (o : FmtA)
  /-- R145. -/
  | i2f (o : FmtA)
  /-- R145. -/
  | f2i (o : FmtA)
  /-- R146. -/
  | mxq (o : FmtA)
  /-- R147. -/
  | mxdq (o : FmtA)
  /-- R146. -/
  | bfpq (o : FmtA)
  /-- R148. -/
  | pack (o : FmtA)
  /-- R148. -/
  | unpk (o : FmtA)
  /-- R243. -/
  | ld (o : FmtM)
  /-- R243. -/
  | st (o : FmtM)
  /-- R244. -/
  | ldw (o : FmtM)
  /-- R245. -/
  | pref (o : FmtM)
  /-- R246. -/
  | cresize (o : FmtM)
  /-- R247. -/
  | cflush (o : FmtM)
  /-- R247. -/
  | cinv (o : FmtM)
  /-- R248. -/
  | femark (o : FmtM)
  /-- R249. -/
  | fetest (o : FmtM)
  /-- R270. -/
  | atom (o : FmtM)
  /-- R270. -/
  | cas (o : FmtM)
  /-- R261. -/
  | atomsc (o : FmtM)
  /-- R263. -/
  | faddw (o : FmtM)
  /-- R271. -/
  | wread (o : FmtM)
  /-- R271. -/
  | wflush (o : FmtM)
  /-- R272. -/
  | fence (o : FmtM)
  /-- R273. -/
  | opfence (o : FmtM)
  /-- R274. -/
  | recfence (o : FmtM)
  /-- R344. -/
  | bara (o : FmtC)
  /-- R344. -/
  | barw (o : FmtC)
  /-- R344. -/
  | barx (o : FmtC)
  /-- R344. -/
  | bari (o : FmtC)
  /-- R275. -/
  | tokwait (o : FmtM)
  /-- R266. -/
  | tokpass (o : FmtM)
  /-- R276. -/
  | redix (o : FmtM)
  /-- R293. -/
  | cpy (o : FmtE)
  /-- R296. -/
  | cpyi (o : FmtE)
  /-- R293. -/
  | cpyg (o : FmtE)
  /-- R293. -/
  | cpys (o : FmtE)
  /-- R297. -/
  | cpyq (o : FmtE)
  /-- R297. -/
  | cpyqTest (o : FmtE)
  /-- R297. -/
  | cpyqAll (o : FmtE)
  /-- R297. -/
  | cpyqStat (o : FmtE)
  /-- R298. -/
  | cpyx (o : FmtE)
  /-- R325. -/
  | wsstage (o : FmtE)
  /-- R325. -/
  | wsdrop (o : FmtE)
  /-- R178. -/
  | mms (o : FmtE)
  /-- R178. -/
  | mmx (o : FmtE)
  /-- R178. -/
  | mmi (o : FmtE)
  /-- R180. -/
  | acz (o : FmtE)
  /-- R181. -/
  | acld (o : FmtE)
  /-- R182. -/
  | acst (o : FmtE)
  /-- R189. -/
  | acrd (o : FmtE)
  /-- R187. -/
  | mwait (o : FmtE)
  /-- R187. -/
  | mwaitTest (o : FmtE)
  /-- R187. -/
  | mwaitAll (o : FmtE)
  /-- R188. -/
  | mstatr (o : FmtE)
  /-- R407. -/
  | mdrain (o : FmtE)
  /-- R407. -/
  | mrestore (o : FmtE)
  /-- R422. -/
  | mresumeMatrix (o : FmtE)
  /-- R422. -/
  | mresumeCopy (o : FmtE)
  /-- R422. -/
  | mresumeQuery (o : FmtE)
  /-- R190. -/
  | slice (o : FmtE)
  /-- R215. -/
  | rq (o : FmtE)
  /-- R215. -/
  | bq (o : FmtE)
  /-- R209. -/
  | rqr (o : FmtE)
  /-- R216. -/
  | hacc (o : FmtE)
  /-- R216. -/
  | hrej (o : FmtE)
  /-- R217. -/
  | spcfg (o : FmtE)
  /-- R211. -/
  | cover (o : FmtE)
  /-- R210. -/
  | triem (o : FmtE)
  /-- R217. -/
  | bvhref (o : FmtE)
  /-- R350. -/
  | rclaim (o : FmtE)
  /-- R350. -/
  | rcommit (o : FmtE)
  /-- R350. -/
  | rawaitTake (o : FmtE)
  /-- R350. -/
  | rawaitAt (o : FmtE)
  /-- R350. -/
  | rretire (o : FmtE)
  /-- R356. -/
  | enq (o : FmtE)
  /-- R356. -/
  | deq (o : FmtE)
  /-- R358. -/
  | cont (o : FmtE)
  /-- R368. -/
  | launch (o : FmtE)
  /-- R368. -/
  | launchGraph (o : FmtE)
  /-- R364. -/
  | signal (o : FmtE)
  /-- R364. -/
  | publish (o : FmtE)
  /-- R371. -/
  | send (o : FmtE)
  /-- R370. -/
  | recvp (o : FmtE)
  /-- R377. -/
  | recvw (o : FmtE)
  /-- R377. -/
  | probe (o : FmtE)
  /-- R377. -/
  | probeTok (o : FmtE)
  /-- R367. -/
  | itrep (o : FmtE)
  /-- R416. -/
  | csrr (o : FmtS)
  /-- R416. -/
  | csrw (o : FmtS)
  /-- R416. -/
  | csrwSet (o : FmtS)
  /-- R416. -/
  | csrwClr (o : FmtS)
  /-- R417. -/
  | rdclk (o : FmtS)
  /-- R417. -/
  | rdtime (o : FmtS)
  /-- R418. -/
  | gstatr (o : FmtS)
  /-- R418. -/
  | gstatw (o : FmtS)
  /-- R419. -/
  | gresume (o : FmtS)
  /-- R404. -/
  | gresumeReplay (o : FmtS)
  /-- R419. -/
  | halt (o : FmtS)
  /-- R419. -/
  | haltBlk (o : FmtS)
  /-- R420. -/
  | svc (o : FmtS)
  /-- R421. -/
  | eret (o : FmtS)
  /-- R326. -/
  | proghint (o : FmtS)
  /-- R423. -/
  | invalid (bits : BitVec 88)
  /-- R50, event. -/
  | lineExecution (g : Nat)
  /-- R243, event. -/
  | loadDataArrival (load : Nat)
  /-- R256, event. -/
  | writePerformed (write : Nat)
  /-- R402, event. -/
  | trapDispatch (quad : Nat)
  /-- R413, event. -/
  | machineCheck (die : Nat)
  /-- R305, event. -/
  | admission (die : Nat)
  /-- R313, event. -/
  | blockPlacement (die : Nat)
  /-- R309, event. -/
  | staging (die launch bid range : Nat)
  /-- R309, event. -/
  | stagingLineLand (job : Nat)
  /-- R310, event. -/
  | dispatchTimeout (block : Nat)
  /-- R315, event. -/
  | quantum (core half : Nat)
  /-- R340, event. -/
  | sleepWake (g : Nat)
  /-- R304, event. -/
  | launchCompletion (launch : Nat)
  /-- R317, event. -/
  | preemptionRequest (die launch : Nat)
  /-- R406, event. -/
  | blockSave (block : Nat)
  /-- R406, event. -/
  | blockRestore (die : Nat)
  /-- R151, event. -/
  | passGrant (quad : Nat)
  /-- R155, event. -/
  | kStepCommit (op : Nat)
  /-- R172, event. -/
  | transferComplete (op : Nat)
  /-- R293, event. -/
  | copyRowLand (copy row : Nat)
  /-- R288, event. -/
  | promiseMissed (copy : Nat)
  /-- R200, event. -/
  | queryTraversal (query : Nat)
  /-- R206, event. -/
  | queryHeldResume (query : Nat)
  /-- R207, event. -/
  | queryComplete (query : Nat)
  /-- R205, event. -/
  | spawnGroupTimeout (block bind : Nat)
  /-- R206, event. -/
  | spawnGroupPlace (die : Nat)
  /-- R352, event. -/
  | waiterReissue (waiter : Nat)
  /-- R351, event. -/
  | parkReissue (g : Nat)
  /-- R361, event. -/
  | continuationRelease (cont : Nat)
  /-- R362, event. -/
  | continuationResume (die : Nat)
  /-- R366, event. -/
  | graphLaunchNode (path : Nat)
  /-- R366, event. -/
  | graphCondNode (path : Nat)
  /-- R366, event. -/
  | graphWhileNode (path : Nat)
  /-- R366, event. -/
  | graphJoinNode (path : Nat)
  /-- R366, event. -/
  | graphSignalNode (path : Nat)
  /-- R414, event. -/
  | deadline (launch : Nat)
  /-- R370, event. -/
  | messageArrival (packet : Nat)
  /-- R373, event. -/
  | ringHop (packet : Nat)
  /-- R395, event. -/
  | ackTimer (sid : Nat)
  /-- R395, event. -/
  | retransmit (sid seq : Nat)
  /-- R395, event. -/
  | sessionTimeout (sid : Nat)
  /-- R357, event. -/
  | pavaneDeqQuantum (die slice : Nat)
  /-- R240, event. -/
  | wsRefreshWindow (die : Nat)
  /-- R391, event. -/
  | powerLimitThrottle (watts : Nat)
  /-- R392, event. -/
  | regionPowerWindow (die ctx region watts : Nat)
  /-- R392, event. -/
  | thermalThrottle (outside : Bool)
  /-- R393, event. -/
  | reset (die : Nat)
  /-- R389, event. -/
  | rlpHello (f : Frame)
  /-- R260, event. -/
  | rlpWrite (f : Frame)
  /-- R396, event. -/
  | rlpRead (f : Frame)
  /-- R396, event. -/
  | rlpAtomic (f : Frame)
  /-- R260, event. -/
  | rlpLaunch (f : Frame)
  /-- R395, event. -/
  | rlpAck (f : Frame)
  /-- R381, event. -/
  | mgmtCtxtab (f : Frame)
  /-- R390, event. -/
  | mgmtKey (f : Frame)
  /-- R387, event. -/
  | mgmtInval (f : Frame)
  /-- R384, event. -/
  | mgmtResume (f : Frame)
  /-- R384, event. -/
  | mgmtHalt (f : Frame)
  /-- R384, event. -/
  | mgmtKill (f : Frame)
  /-- R317, event. -/
  | mgmtPreempt (f : Frame)
  /-- R398, event. -/
  | mgmtCsrr (f : Frame)
  /-- R398, event. -/
  | mgmtCsrw (f : Frame)
  /-- R394, event. -/
  | mgmtAttest (f : Frame)
  /-- R393, event. -/
  | mgmtFwload (f : Frame)
  /-- R406, event. -/
  | mgmtSavepool (f : Frame)
  /-- R389, event. -/
  | mgmtPort (f : Frame)
  /-- R398, event. -/
  | mgmtStatus (f : Frame)
  /-- R398, event. -/
  | mgmtPhysw (f : Frame)
  /-- R398, event. -/
  | mgmtPhysr (f : Frame)
  /-- R383, event. -/
  | mgmtCharges (f : Frame)
  /-- R413, event. -/
  | mgmtReset (f : Frame)
  /-- R90, event. -/
  | modeWrite (g : Nat) (v : DWord)
  /-- R236, event. -/
  | rwaysWrite (die : Nat) (v : DWord)
  /-- R240, event. -/
  | refcalWrite (die : Nat) (v : DWord)
  /-- R324, event. -/
  | pavaneWrite (die : Nat) (v : DWord)
  /-- R374, event. -/
  | ringpoolWrite (die : Nat) (v : DWord)
  /-- R412, event. -/
  | errcntWrite (die : Nat) (v : DWord)
  /-- R416, event. -/
  | csrWrite (at_ : Nat) (csr : Nat) (v : DWord)
  /-- R398, event. -/
  | unknownMgmtOperation (f : Frame)
  deriving DecidableEq, Repr

end Sys2Proof
end

