-- ==== Sys2Proof/WellFormed.lean ====
section
/-! DEFINITION. WellFormed.lean: the static field rules of every instruction (R54, R58 to R70, R110 to R113,
Tables 5-x, 7-x, 8-9, 8-10, 9-7, 10-4, 11-6, 11-7, 12-7, 13-1, 14-10, 14-11, 16-9): what R70 checks that needs
nothing but the slot. The checks that need the launch (.regs, .uregs, tiles, barriers) are made at issue. -/

namespace Sys2Proof

/-- Width in bits of a type code (Table 3-4); 0 for the reserved codes. -/
def tyWidth (t : Nat) : Nat :=
  match t with
  | 0 => 8 | 1 => 16 | 2 => 32 | 3 => 64 | 4 => 8 | 5 => 16 | 6 => 32 | 7 => 64
  | 8 => 16 | 9 => 16 | 10 => 32 | 11 => 64 | 12 => 8 | 13 => 8 | _ => 0

namespace WF

def isV (f : BitVec 10) : Bool := f.toNat < 0x100
def isK (f : BitVec 10) : Bool := 0x100 ≤ f.toNat && f.toNat < 0x140
def isLatch (f : BitVec 10) : Bool := 0x140 ≤ f.toNat && f.toNat < 0x144
def isConst (f : BitVec 10) : Bool := 0x148 ≤ f.toNat && f.toNat < 0x150
def isSpecial (f : BitVec 10) : Bool := 0x150 ≤ f.toNat && f.toNat < 0x15E
def isImm (f : BitVec 10) : Bool := 0x200 ≤ f.toNat
/-- The signed 9-bit immediate of a field from 0x200 up (R60). -/
def immVal (f : BitVec 10) : Int := signedNat 9 f.toNat
/-- An immediate field whose value lies in lo..hi. -/
def immIn (f : BitVec 10) (lo hi : Int) : Bool := isImm f && lo ≤ immVal f && immVal f ≤ hi
def isPred (f : BitVec 10) : Bool := f.toNat < 8

/-- Whether an 8-bit format with `sig` significand bits and largest finite `mx` holds the integer n exactly (R60). -/
def fp8Exact (sig : Nat) (mx : Nat) (n : Int) : Bool :=
  let m := n.natAbs
  m ≤ mx && ((List.range 9).any fun k => m % 2 ^ k = 0 && m / 2 ^ k < 2 ^ sig)

/-- Constants legal under a type (Table 3-8). -/
def constOk (t : Nat) (f : BitVec 10) : Bool :=
  if t < 8 then f.toNat ∉ [0x14B, 0x14D, 0x14E] else if t = 12 then f.toNat ≠ 0x14D else true

/-- A source field is legal for an operand of type code t, in a uniform (u) or lane instruction (Table 3-7, R29, R58 to R61). -/
def srcOk (u : Bool) (t : Nat) (f : BitVec 10) : Bool :=
  if isV f then !u && (tyWidth t ≠ 64 || f.toNat % 2 = 0)
  else if isK f then true
  else if isLatch f then !u
  else if isConst f then constOk t f
  else if isSpecial f then true
  else if isImm f then
    (if t = 12 then fp8Exact 4 448 (immVal f) else if t = 13 then fp8Exact 3 57344 (immVal f) else true)
  else false

/-- A register destination of a lane (v) or uniform (k) instruction (R61); `wide` asks for an even v register (R29). -/
def dstOk (u wide : Bool) (f : BitVec 10) : Bool :=
  if u then isK f else isV f && (!wide || f.toNat % 2 = 0)

/-- imm32 is legal for the type (R63): zero where zero is required. -/
def imm32Ok (t : Nat) (pair : Bool) (w : BitVec 32) : Bool :=
  if t = 8 || t = 9 then pair || w.toNat < 0x10000 else if t = 12 || t = 13 then w.toNat < 0x100 else true

/-- How an operand field is read, which fixes its legal values. -/
inductive Opd where
  | none   -- the field must be 0x000
  | ty     -- at the instruction's type
  | src    -- at the source type in fn bits 3:0
  | s32    -- as an s32 count (FSCALE)
  | f32    -- as f32
  | raw    -- the low 32 bits of one register
  | wide   -- as a destination: 64 bits
  | pair   -- a packed pair
  | pred   -- a predicate field
  | free   -- checked by the entry itself
  deriving DecidableEq, Repr

/-- Use of rm (R54). -/
inductive RmUse where
  | zero | round | sub (max : Nat)
  deriving DecidableEq, Repr

/-- One row of the Format A tables (R110). -/
structure AEnt where
  ty : List Nat
  u : Bool
  imm : Nat
  rm : RmUse
  fn : Nat
  q : Bool
  d : Opd
  a : Opd
  b : Opd
  c : Opd
  deriving DecidableEq, Repr

def intTy : List Nat := [0, 1, 2, 3, 4, 5, 6, 7]
def bitTy : List Nat := [0, 1, 2, 3]
def sgnTy : List Nat := [4, 5, 6, 7]
def fltTy : List Nat := [8, 9, 10, 11]
def allTy : List Nat := [0, 1, 2, 3, 4, 5, 6, 7, 8, 9, 10, 11, 12, 13]

def opdOk (e : Opd) (o : FmtA) (f : BitVec 10) : Bool :=
  match e with
  | .none => f.toNat = 0
  | .ty => srcOk o.h.u o.h.t.toNat f
  | .src => srcOk o.h.u (bitsNat o.w 3 0) f
  | .s32 => srcOk o.h.u 6 f
  | .f32 => srcOk o.h.u 10 f
  | .raw => srcOk o.h.u 2 f
  | .wide => srcOk o.h.u 3 f
  | .pair => (if isV f then !o.h.u else srcOk o.h.u o.h.t.toNat f)
  | .pred => isPred f
  | .free => true

def rmOk (r : RmUse) (rm : BitVec 3) : Bool :=
  match r with
  | .zero => rm.toNat = 0
  | .round => rm.toNat ≤ 6
  | .sub m => rm.toNat ≤ m

/-- Function fields under I = 1 read as zero (R63, R112). -/
def fnv (o : FmtA) : BitVec 32 := if o.i then 0 else o.w
def pdc (o : FmtA) : Bool := (fnv o).getLsbD 31
def qv (o : FmtA) : Bool := (fnv o).getLsbD 27

/-- Whether the instruction writes a predicate through D or q (R113). -/
def writesPred (e : AEnt) (o : FmtA) : Bool := e.d = .pred || (e.q && qv o)

/-- The checks common to every Format A row (R110 to R113). -/
def aOk (e : AEnt) (o : FmtA) : Bool :=
  e.ty.contains o.h.t.toNat && (e.u || !o.h.u) && rmOk e.rm o.h.rm
  && (if o.i then e.imm ≠ 0 && (e.b = .s32 || imm32Ok o.h.t.toNat (e.b = .pair) o.w)
      else e.imm ≠ 2 && ((o.w.toNat &&& (0xFFFFFFFF - (e.fn ||| (if e.q then 0x78000000 else 0) ||| 0x80000000))) = 0))
  && (pdc o = (writesPred e o && o.h.u))
  && opdOk e.a o o.a && (o.i || opdOk e.b o o.b) && opdOk e.c o o.c
  && (match e.d with
      | .none => o.d.toNat = 0
      | .pred => o.h.s || isPred o.d
      | .free => true
      | .raw => o.h.s || dstOk o.h.u false o.d
      | .pair => o.h.s || dstOk o.h.u false o.d
      | .f32 => o.h.s || dstOk o.h.u false o.d
      | .s32 => o.h.s || dstOk o.h.u false o.d
      | .wide => o.h.s || dstOk o.h.u true o.d
      | .src => true
      | .ty => o.h.s || dstOk o.h.u (tyWidth o.h.t.toNat = 64) o.d)

/-- cg has a meaning for a lane form only, so a uniform SEL or CMP with cg = 1 is illegal (R64, R126; for SEL, R123, DEDUCED, log
86). -/
def cgOk (bit : Nat) (o : FmtA) : Bool := !(o.h.u && (fnv o).getLsbD bit)

/-- GRED and GSCAN: the operation, its types and its rounding (R129). -/
def redOk (o : FmtA) : Bool :=
  let op := bitsNat (fnv o) 2 0
  let t := o.h.t.toNat
  if t < 8 then op ≤ 5 && (op < 3 || t < 4) && o.h.rm.toNat = 0
  else op ≤ 2 && (op = 0 || o.h.rm.toNat = 0)

/-- CVT: FP to FP with rounding, or integer to integer; sat only for F8 and integer destinations (R143, R144). -/
def cvtOk (o : FmtA) : Bool :=
  let s := bitsNat (fnv o) 3 0
  if o.h.t.toNat < 8 then s < 8 && o.h.rm.toNat = 0
  else 8 ≤ s && s < 14 && (12 ≤ o.h.t.toNat || !(fnv o).getLsbD 26)

/-- POLL: mode, type and destination class (R129, R130). -/
def pollOk (o : FmtA) : Bool :=
  let m := o.h.rm.toNat
  let g := o.w.getLsbD 31
  !o.h.u && !o.i && m ≤ 4 && o.w.toNat % 2 ^ 31 = 0 && isPred o.a && o.b.toNat = 0 && o.c.toNat = 0
  && (if m ≤ 2 then o.h.t.toNat = 0 && (o.h.s || isPred o.d)
      else (o.h.t.toNat = if m = 3 then 3 else 2) && !g && (o.h.s || isK o.d || dstOk false (m = 3) o.d))

/-- The rows of Tables 5-3 to 5-6, 5-8, 5-9, 5-11 and 5-12 by opcode (POLL has its own check). DEDUCED (log 87): B of LXCH, LEA and
the shifts is read as 32 bits (R121, R131), so it is no 64-bit operand of R29 and R111 whatever T. -/
def aEnt (op : Nat) : Option AEnt :=
  match op with
  | 0x10 => some ⟨intTy, true, 1, .zero, 0x4000000, true, .ty, .ty, .ty, .none⟩
  | 0x11 => some ⟨intTy, true, 1, .zero, 0x4000000, true, .ty, .ty, .ty, .none⟩
  | 0x12 => some ⟨intTy, true, 1, .zero, 0, false, .ty, .ty, .ty, .none⟩
  | 0x13 => some ⟨intTy, true, 1, .zero, 0, false, .ty, .ty, .ty, .none⟩
  | 0x14 => some ⟨intTy, true, 0, .zero, 0x4000000, false, .ty, .ty, .ty, .ty⟩
  | 0x15 => some ⟨intTy, true, 0, .zero, 0, false, .ty, .ty, .ty, .ty⟩
  | 0x16 => some ⟨bitTy, true, 1, .zero, 0, true, .ty, .ty, .ty, .pred⟩
  | 0x17 => some ⟨bitTy, true, 1, .zero, 0, true, .ty, .ty, .ty, .pred⟩
  | 0x18 => some ⟨intTy, true, 1, .zero, 0, false, .ty, .ty, .ty, .none⟩
  | 0x19 => some ⟨intTy, true, 1, .zero, 0, false, .ty, .ty, .ty, .none⟩
  | 0x1A => some ⟨sgnTy, true, 0, .zero, 0x4000000, false, .ty, .ty, .none, .none⟩
  | 0x1B => some ⟨sgnTy, true, 0, .zero, 0x4000000, false, .ty, .ty, .none, .none⟩
  | 0x1C => some ⟨intTy, false, 1, .zero, 0, false, .ty, .ty, .ty, .none⟩
  | 0x1D => some ⟨intTy, false, 1, .zero, 0, false, .ty, .ty, .ty, .none⟩
  | 0x1E => some ⟨intTy, true, 0, .zero, 0, false, .ty, .ty, .ty, .ty⟩
  | 0x1F => some ⟨[2, 3], true, 1, .zero, 0x7F, false, .ty, .ty, .raw, .none⟩
  | 0x20 => some ⟨bitTy, true, 1, .zero, 0, false, .ty, .ty, .ty, .none⟩
  | 0x21 => some ⟨bitTy, true, 1, .zero, 0, false, .ty, .ty, .ty, .none⟩
  | 0x22 => some ⟨bitTy, true, 1, .zero, 0, false, .ty, .ty, .ty, .none⟩
  | 0x23 => some ⟨bitTy, true, 1, .zero, 0, false, .ty, .ty, .ty, .none⟩
  | 0x24 => some ⟨bitTy, true, 0, .zero, 0, false, .ty, .ty, .none, .none⟩
  | 0x25 => some ⟨bitTy, true, 0, .zero, 0xFF, true, .ty, .ty, .ty, .ty⟩
  | 0x26 => some ⟨bitTy, true, 1, .zero, 1, false, .ty, .ty, .raw, .none⟩
  | 0x27 => some ⟨bitTy, true, 1, .zero, 1, false, .ty, .ty, .raw, .none⟩
  | 0x28 => some ⟨sgnTy, true, 1, .zero, 1, false, .ty, .ty, .raw, .none⟩
  | 0x29 => some ⟨bitTy, true, 1, .zero, 1, false, .ty, .ty, .raw, .none⟩
  | 0x2A => some ⟨[2, 3], true, 0, .zero, 3, false, .ty, .ty, .ty, .raw⟩
  | 0x2B => some ⟨intTy, true, 1, .zero, 0, false, .ty, .ty, .raw, .none⟩
  | 0x2C => some ⟨bitTy, true, 1, .zero, 0, false, .ty, .ty, .ty, .raw⟩
  | 0x2D => some ⟨bitTy, true, 0, .zero, 0, false, .raw, .ty, .none, .none⟩
  | 0x2E => some ⟨bitTy, true, 0, .zero, 0, false, .raw, .ty, .none, .none⟩
  | 0x2F => some ⟨bitTy, true, 0, .zero, 0, false, .raw, .ty, .none, .none⟩
  | 0x30 => some ⟨bitTy, true, 0, .zero, 0, false, .ty, .ty, .none, .none⟩
  | 0x31 => some ⟨allTy, true, 0, .zero, 0x3F, false, .ty, .free, .none, .none⟩
  | 0x32 => some ⟨allTy, true, 2, .zero, 0, false, .ty, .none, .none, .none⟩
  | 0x33 => some ⟨[3], true, 2, .zero, 0, false, .free, .none, .none, .none⟩
  | 0x34 => some ⟨allTy, true, 1, .zero, 1, false, .ty, .ty, .ty, .pred⟩
  | 0x35 => some ⟨[2], true, 1, .zero, 0, false, .ty, .ty, .ty, .ty⟩
  | 0x36 => some ⟨intTy, true, 1, .zero, 0, false, .ty, .ty, .ty, .ty⟩
  | 0x40 => some ⟨intTy, true, 1, .sub 5, 0x38, true, .pred, .ty, .ty, .free⟩
  | 0x41 => some ⟨fltTy, true, 1, .sub 7, 0xF, true, .pred, .ty, .ty, .free⟩
  | 0x42 => some ⟨[0], true, 0, .zero, 0x7FFFF, true, .pred, .pred, .pred, .pred⟩
  | 0x43 => some ⟨[2], true, 0, .zero, 0xFF, false, .free, .free, .none, .none⟩
  | 0x45 => some ⟨[2, 3], false, 1, .sub 4, 7, true, .ty, .ty, .raw, .none⟩
  | 0x46 => some ⟨(intTy ++ [10, 11]), false, 0, .round, 7, false, .free, .ty, .none, .none⟩
  | 0x47 => some ⟨(intTy ++ [10, 11]), false, 0, .round, 15, false, .ty, .ty, .none, .none⟩
  | 0x50 => some ⟨fltTy, true, 1, .round, 0, false, .ty, .ty, .ty, .none⟩
  | 0x51 => some ⟨fltTy, true, 1, .round, 0, false, .ty, .ty, .ty, .none⟩
  | 0x52 => some ⟨fltTy, true, 1, .round, 0, false, .ty, .ty, .ty, .none⟩
  | 0x53 => some ⟨fltTy, true, 1, .round, 0, false, .ty, .ty, .ty, .ty⟩
  | 0x54 => some ⟨fltTy, true, 1, .zero, 0, false, .ty, .ty, .ty, .none⟩
  | 0x55 => some ⟨fltTy, true, 1, .zero, 0, false, .ty, .ty, .ty, .none⟩
  | 0x56 => some ⟨fltTy, true, 0, .zero, 0, false, .ty, .ty, .none, .none⟩
  | 0x57 => some ⟨fltTy, true, 0, .zero, 0, false, .ty, .ty, .none, .none⟩
  | 0x58 => some ⟨[10, 11], false, 1, .round, 0, false, .ty, .ty, .ty, .none⟩
  | 0x59 => some ⟨[10, 11], false, 0, .round, 0, false, .ty, .ty, .none, .none⟩
  | 0x5A => some ⟨[10, 11], false, 0, .zero, 0, false, .ty, .ty, .none, .none⟩
  | 0x5B => some ⟨[10, 11], false, 0, .zero, 0, false, .ty, .ty, .none, .none⟩
  | 0x5C => some ⟨(fltTy ++ [12, 13]), true, 0, .zero, 0, false, .raw, .ty, .none, .none⟩
  | 0x5D => some ⟨fltTy, true, 1, .round, 0, false, .ty, .ty, .s32, .none⟩
  | 0x5E => some ⟨fltTy, true, 0, .zero, 0, false, .raw, .ty, .none, .none⟩
  | 0x5F => some ⟨fltTy, true, 0, .zero, 0, false, .ty, .ty, .none, .none⟩
  | 0x60 => some ⟨fltTy, true, 1, .zero, 0, false, .ty, .ty, .ty, .none⟩
  | 0x61 => some ⟨fltTy, true, 0, .round, 1, false, .ty, .ty, .none, .none⟩
  | 0x62 => some ⟨fltTy, true, 0, .zero, 0, false, .ty, .ty, .ty, .ty⟩
  | 0x63 => some ⟨fltTy, true, 1, .zero, 0, false, .ty, .ty, .ty, .ty⟩
  | 0x64 => some ⟨[10], false, 0, .zero, 0, false, .ty, .ty, .none, .none⟩
  | 0x65 => some ⟨[10], false, 0, .zero, 0, false, .ty, .ty, .none, .none⟩
  | 0x66 => some ⟨[10], false, 0, .zero, 0, false, .ty, .ty, .none, .none⟩
  | 0x67 => some ⟨[10], false, 0, .zero, 0, false, .ty, .ty, .none, .none⟩
  | 0x68 => some ⟨[8, 9], false, 1, .round, 0, false, .raw, .pair, .pair, .f32⟩
  | 0x69 => some ⟨[8, 9], false, 1, .round, 0, false, .raw, .pair, .pair, .none⟩
  | 0x6A => some ⟨[8, 9], false, 1, .round, 0, false, .raw, .pair, .pair, .none⟩
  | 0x6B => some ⟨[8, 9], false, 1, .round, 0, false, .raw, .pair, .pair, .pair⟩
  | 0x80 => some ⟨allTy, true, 0, .round, 0x400000F, false, .ty, .src, .none, .none⟩
  | 0x81 => some ⟨(fltTy ++ [12, 13]), true, 0, .round, 0x400000F, false, .ty, .src, .none, .none⟩
  | 0x82 => some ⟨intTy, true, 0, .round, 0xF, false, .ty, .src, .none, .none⟩
  | 0x83 => some ⟨[12, 13, 4], false, 0, .round, 0xF, false, .raw, .src, .none, .none⟩
  | 0x84 => some ⟨fltTy, false, 0, .round, 0xF, false, .ty, .raw, .none, .none⟩
  | 0x85 => some ⟨[0], false, 0, .round, 0xFF, false, .raw, .src, .none, .none⟩
  | 0x86 => some ⟨[8, 9, 1], true, 0, .round, 0xF, false, .raw, .src, .src, .none⟩
  | 0x87 => some ⟨[8, 9, 1, 5], true, 0, .zero, 0, false, .wide, .pair, .none, .none⟩
  | _ => none

/-- A Format A instruction of the given opcode passes the checks of its row. -/
def wfA (op : Nat) (o : FmtA) : Bool :=
  (match aEnt op with
   | some e => aOk e o
   | none => false)

/-! ### Format M (R65, R225, R242, R269) -/

/-- Base register of a Format M access (R225). -/
def baseOk (o : FmtM) : Bool :=
  (isV o.a && !o.h.u && (o.space.toNat ≠ 0 || o.a.toNat % 2 = 0)) || isK o.a || o.a.toNat = 0x148
/-- Index of a Format M access; a uniform access takes a k register or 0x148 only (R225). -/
def indexOk (o : FmtM) : Bool :=
  ((isV o.b || isImm o.b) && !o.h.u) || isK o.b || o.b.toNat = 0x148
def un (f : BitVec 10) : Bool := f.toNat = 0x148
/-- Order and scope: rlx takes scope 0 (R242, R269), codes 6 and 7 are illegal (R57). -/
def ordOk (o : FmtM) (orders : List Nat) : Bool :=
  orders.contains o.order.toNat && o.scope.toNat ≤ 5 && (o.order.toNat ≠ 0 || o.scope.toNat = 0)
def vcOf (o : FmtM) : Nat := bitsNat o.h.rm 1 0
def bit79 (o : FmtM) : Bool := o.h.rm.getLsbD 2
/-- The operation code of an atomic: bit 79, then the hint field (R269). -/
def aop (o : FmtM) : Nat := (if bit79 o then 4 else 0) + o.hint.toNat
/-- Registers a load or store operand spans: width times count over 32, at least 1. -/
def spanRegs (o : FmtM) : Nat := max 1 (tyWidth o.h.t.toNat * 2 ^ vcOf o / 32)
def dataOk (o : FmtM) : Bool :=
  if o.h.u then isK o.d else isV o.d && o.d.toNat % spanRegs o = 0
def countOk (f : BitVec 10) : Bool := isK f || isImm f
def memHead (o : FmtM) (ty : List Nat) (u : Option Bool) : Bool :=
  ty.contains o.h.t.toNat && (match u with | some b => o.h.u = b | none => true) && o.space.toNat ≠ 3

def wfLd (o : FmtM) (store : Bool) : Bool :=
  memHead o (if store then [0, 1, 2, 3] else [0, 1, 4, 5, 2, 3]) none && !bit79 o && vcOf o ≤ 2
  && (vcOf o = 0 || (!o.h.u && (o.h.t.toNat = 2 || o.h.t.toNat = 3)))
  && ((!store && o.h.s) || dataOk o) && baseOk o && indexOk o && un o.c
  && ordOk o (if store then [0, 2] else [0, 1]) && (o.space.toNat ≠ 1 || o.hint.toNat = 0)
def wfLdw (o : FmtM) : Bool :=
  memHead o [3] (some true) && !bit79 o && vcOf o ≤ 2
  && (o.h.s || (isK o.d && (o.d.toNat - 0x100) % 2 ^ (vcOf o + 1) = 0)) && baseOk o && indexOk o && un o.c
  && ordOk o [0, 1] && (o.space.toNat ≠ 1 || o.hint.toNat = 0)
def wfPref (o : FmtM) : Bool :=
  memHead o [0] none && o.h.rm.toNat = 0 && o.d.toNat = 0 && baseOk o && indexOk o && un o.c
  && o.space.toNat ≠ 1 && ordOk o [0]
def wfCresize (o : FmtM) : Bool :=
  memHead o [0] (some true) && o.h.rm.toNat = 0 && (o.h.s || isK o.d)
  && (isK o.a || isImm o.a || (isConst o.a && constOk 7 o.a)) && un o.b && un o.c
  && o.space.toNat = 0 && ordOk o [0] && o.hint.toNat = 0
def wfFlush (o : FmtM) : Bool :=
  memHead o [0] (some true) && vcOf o = 0 && o.d.toNat = 0 && un o.c && o.space.toNat ≠ 1 && ordOk o [0] && o.hint.toNat = 0
  && (if bit79 o then un o.a && un o.b && o.off.toNat = 0 else baseOk o && countOk o.b)
def wfFemark (o : FmtM) : Bool :=
  memHead o [0] (some true) && vcOf o = 0 && o.d.toNat = 0 && un o.c && o.space.toNat = 1 && ordOk o [0] && o.hint.toNat = 0
  && baseOk o && countOk o.b
def wfFetest (o : FmtM) : Bool :=
  memHead o [0] none && o.h.rm.toNat = 0 && (o.h.s || isPred o.d) && un o.c && o.space.toNat = 1 && ordOk o [0]
  && o.hint.toNat = 0 && baseOk o && (if o.h.u then countOk o.b else un o.b)
/-- The fields all atomics, welt operations and REDIX share; `orders` are the legal orders. -/
def atomHead (o : FmtM) (ty : List Nat) (sp : Bool) (orders : List Nat) : Bool :=
  memHead o ty none && vcOf o = 0 && baseOk o && o.space.toNat ≠ 2 && (sp || o.space.toNat = 0) && ordOk o orders
def regDst (o : FmtM) : Bool := o.h.s || dstOk o.h.u (tyWidth o.h.t.toNat = 64) o.d
def dataSrc (o : FmtM) (f : BitVec 10) : Bool := srcOk o.h.u o.h.t.toNat f
def bitwiseOk (o : FmtM) : Bool := !(3 ≤ aop o && aop o ≤ 5) || o.h.t.toNat < 4
def wfAtom (o : FmtM) : Bool :=
  atomHead o [2, 3, 6, 7] true [0, 1, 2, 3] && aop o ≤ 6 && bitwiseOk o && regDst o && dataSrc o o.b && un o.c
def wfCas (o : FmtM) : Bool :=
  atomHead o [2, 3] true [0, 1, 2, 3] && aop o = 0 && regDst o && dataSrc o o.b && dataSrc o o.c
def wfAtomsc (o : FmtM) : Bool :=
  atomHead o [2, 3, 6, 7] false [3] && bitwiseOk o && regDst o && (if aop o = 7 then un o.b else dataSrc o o.b) && un o.c
  && (o.scope.toNat = 3 || o.scope.toNat = 4)
def wfFaddw (o : FmtM) : Bool :=
  atomHead o [10, 11] false [0, 2] && aop o = 0 && o.d.toNat = 0 && dataSrc o o.b && un o.c
def wfWread (o : FmtM) : Bool :=
  atomHead o [10, 11] false [0, 1] && aop o = 0 && regDst o && un o.b && un o.c
def wfWflush (o : FmtM) : Bool :=
  atomHead o [10, 11] false [0, 2, 3] && aop o = 0 && regDst o && un o.b && un o.c
/-- FENCE, OPFENCE, TOKWAIT, TOKPASS: no operand at all. -/
def bareM (o : FmtM) (orders : List Nat) : Bool :=
  memHead o [0] (some true) && o.h.rm.toNat = 0 && o.d.toNat = 0 && un o.a && un o.b && un o.c && o.space.toNat = 0
  && ordOk o orders && o.hint.toNat = 0 && o.off.toNat = 0
def wfRecfence (o : FmtM) : Bool :=
  memHead o [0] (some true) && o.h.rm.toNat = 0 && o.d.toNat = 0 && un o.b && un o.c && o.space.toNat = 0
  && ordOk o [0] && o.hint.toNat = 0 && (isK o.a || (un o.a && o.off.toNat = 0))
def wfRedix (o : FmtM) : Bool :=
  atomHead o [10, 11, 6, 7, 2, 3] false [0, 2] && aop o = 0 && (o.h.s || dstOk o.h.u false o.d)
  && dataSrc o o.b && srcOk o.h.u 2 o.c

/-! ### Format C (R66, R328, Table 13-1) -/

def cHead (o : FmtC) (u : Option Bool) : Bool :=
  o.h.t.toNat = 0 && o.h.rm.toNat = 0 && (match u with | some b => o.h.u = b | none => true)
def noT (o : FmtC) : Bool := o.tline.toNat = 0 && o.tslot.toNat = 0
def noC (o : FmtC) : Bool := o.cline.toNat = 0 && o.cslot.toNat = 0
def kImm (f : BitVec 10) : Bool := isK f || immIn f 0 255
def wfBra (o : FmtC) : Bool :=
  cHead o none && o.cfn.toNat ≤ 1 && o.a.toNat = 0 && (o.cfn.toNat = 1 || noC o) && (!o.h.u || o.cfn.toNat = 0)
def wfBrx (o : FmtC) : Bool :=
  cHead o none && o.cfn.toNat ≤ 1 && noT o && (o.cfn.toNat = 1 || noC o) && (isK o.a || (!o.h.u && isV o.a))
def wfCall (o : FmtC) : Bool :=
  cHead o (some false) && noC o && !o.hint && o.cfn.toNat = 0 && o.a.toNat = 0
def wfCallInd (o : FmtC) : Bool :=
  cHead o (some false) && noC o && !o.hint && o.cfn.toNat = 2 && noT o && isK o.a
/-- No target, no reconvergence target, no hint. -/
def plainC (o : FmtC) (u : Option Bool) : Bool := cHead o u && noT o && noC o && !o.hint
def wfRet (o : FmtC) : Bool := plainC o (some false) && o.a.toNat = 0 && o.cfn.toNat = 0
def wfJoin (o : FmtC) : Bool := wfRet o && o.h.pg.toNat = 7 && !o.h.n
def wfSleep (o : FmtC) : Bool := plainC o (some true) && kImm o.a && o.cfn.toNat = 0
def wfSleepTok (o : FmtC) : Bool := plainC o (some true) && isK o.a && o.cfn.toNat = 1
def wfYield (o : FmtC) : Bool := plainC o (some true) && o.a.toNat = 0 && o.cfn.toNat = 0
def wfPln (o : FmtC) : Bool :=
  plainC o (some false) && o.cfn.toNat = 0 && (isV o.a || isK o.a || (isConst o.a && constOk 2 o.a) || immIn o.a 0 7)
def wfPlng (o : FmtC) : Bool := plainC o (some true) && kImm o.a && o.cfn.toNat = 0
def wfTrap (o : FmtC) : Bool := plainC o none && o.a.toNat = 0
def wfLoop (o : FmtC) : Bool := cHead o (some true) && noC o && isK o.a && o.cfn.toNat = 0 && !o.h.s
def wfBar (o : FmtC) : Bool := plainC o (some true) && o.a.toNat = 0 && o.cfn.toNat ≤ 15
def wfBari (o : FmtC) : Bool := plainC o (some true) && kImm o.a && o.cfn.toNat ≤ 31

/-! ### Format E (R67) -/

def ef (o : FmtE) (hi lo : Nat) : Nat := bitsNat o.efn hi lo
/-- A 10-bit field of efn from bit lo. -/
def efF (o : FmtE) (lo : Nat) : BitVec 10 := o.efn.extractLsb' lo 10
def eHead (o : FmtE) (u : Option Bool) (t : Nat) : Bool :=
  o.h.t.toNat = t && (match u with | some b => o.h.u = b | none => true)
def rm0 (o : FmtE) : Bool := o.h.rm.toNat = 0
/-- K names a k register for the result, or S is set (R169, R291). -/
def kTok (o : FmtE) : Bool := o.h.s || isK o.k
def kNone (o : FmtE) : Bool := o.k.toNat = 0
def adrOk (u : Bool) (f : BitVec 10) : Bool := isK f || (!u && isV f && f.toNat % 2 = 0)
def kImmIn (f : BitVec 10) (lo hi : Int) : Bool := isK f || immIn f lo hi

def wfMm (inl : Bool) (o : FmtE) (sliced : Bool) : Bool :=
  eHead o (some true) (if sliced then 11 else 0) && rm0 o && kTok o && isK (efF o 43) && ef o 11 10 ≠ 3 && ef o 9 8 ≠ 3
  && ef o 7 0 = 0
  && (if inl then o.a.toNat = 0 && isK (efF o 33) && ef o 32 12 = 0
      else isK o.a && ef o 37 34 ≤ (if sliced then 10 else 0) && (sliced || ef o 33 33 = 0) && kImmIn (efF o 22) 0 255
        && (if sliced && ef o 37 34 = 0 then isK (efF o 12) else ef o 21 12 = 0))
def wfAcz (o : FmtE) : Bool :=
  eHead o (some true) 0 && rm0 o && kTok o && o.a.toNat = 0 && ef o 36 0 = 0
  && (if ef o 47 47 = 1 then isK (efF o 37) || isImm (efF o 37) else ef o 46 37 = 0 && ef o 52 48 % 4 = 0)
def wfAcld (o : FmtE) : Bool :=
  eHead o (some true) 0 && rm0 o && kTok o && isK o.a && ef o 46 34 = 0 && ef o 33 32 ≠ 3 && ef o 31 0 = 0
  && (ef o 47 47 = 1 || ef o 52 48 % 4 = 0)
def wfAcst (inl : Bool) (o : FmtE) : Bool :=
  let fmt := ef o 36 34
  eHead o (some true) 0 && kTok o && fmt ≠ 7 && ef o 47 37 = 0 && ef o 33 32 ≠ 3 && ef o 21 0 = 0
  && (if fmt = 1 || 5 ≤ fmt then rm0 o else o.h.rm.toNat ≤ 6)
  && (if inl then o.a.toNat = 0 && isK (efF o 22) && fmt ≠ 5 else isK o.a && ef o 31 22 = 0)
def wfAcrd (o : FmtE) : Bool :=
  !o.h.u && !o.h.s && o.a.toNat = 0 && [11, 10, 3, 2].contains o.h.t.toNat
  && (if o.h.t.toNat ≥ 10 then o.h.rm.toNat ≤ 6 else rm0 o) && isV o.k && (o.h.t.toNat = 10 || o.k.toNat % 2 = 0)
  && srcOk false 2 (efF o 38) && isK (efF o 28) && ef o 27 0 = 0
/-- The wait instructions: MWAIT and CPYQ (R187, R297). -/
def wfWait (o : FmtE) : Bool := eHead o (some true) 0 && rm0 o && kNone o && isK o.a && o.efn.toNat = 0
def wfWaitTest (o : FmtE) : Bool :=
  eHead o (some true) 0 && rm0 o && kNone o && isK o.a && ef o 52 4 = 0 && ef o 3 3 = 1
def wfWaitAll (o : FmtE) : Bool := eHead o (some true) 0 && rm0 o && kNone o && o.a.toNat = 0 && o.efn.toNat = 16
def wfCpyqStat (o : FmtE) : Bool := eHead o (some true) 0 && rm0 o && kTok o && isK o.a && o.efn.toNat = 32
def wfMstatr (o : FmtE) : Bool :=
  eHead o (some true) 0 && rm0 o && kTok o && o.a.toNat = 0 && isK (efF o 38) && isK (efF o 28) && ef o 27 0 = 0
def wfSlice (o : FmtE) : Bool :=
  eHead o none 11 && o.h.rm.toNat ≤ 2 && (o.h.s || dstOk o.h.u (o.h.rm.toNat ≠ 0) o.k) && srcOk o.h.u 11 o.a
  && srcOk o.h.u 6 (efF o 43) && ef o 38 0 = 0
  && (if o.h.rm.toNat = 0 then ef o 42 39 ≤ 9 else 1 ≤ ef o 42 39 && ef o 42 39 ≤ 10)
def vEven (f : BitVec 10) : Bool := isV f && f.toNat % 2 = 0
def wfRq (o : FmtE) : Bool :=
  eHead o (some false) 0 && o.h.rm.toNat ≤ 1 && (o.h.s || vEven o.k) && adrOk false o.a && ef o 37 0 = 0
  && (if ef o 48 48 = 1 then adrOk false (efF o 38) else un (efF o 38))
def wfBq (o : FmtE) : Bool :=
  eHead o (some false) 0 && rm0 o && (o.h.s || isV o.k) && adrOk false o.a && adrOk false (efF o 28) && ef o 27 0 = 0
  && (if ef o 48 48 = 1 then adrOk false (efF o 38) else un (efF o 38))
def wfRqr (o : FmtE) : Bool :=
  eHead o (some false) 0 && o.h.rm.toNat ≤ 1 && adrOk false o.a && ef o 49 38 = 0 && ef o 27 0 = 0
  && (if o.h.rm.toNat = 1 then (o.h.s || isV o.k) && adrOk false (efF o 28) else (o.h.s || vEven o.k) && un (efF o 28))
def wfHacc (o : FmtE) : Bool :=
  eHead o (some false) 0 && rm0 o && kNone o && adrOk false o.a && ef o 32 0 = 0
  && (vEven (efF o 43) || isK (efF o 43) || isLatch (efF o 43)) && srcOk false 2 (efF o 33)
def wfHrej (o : FmtE) : Bool := eHead o (some false) 0 && rm0 o && kNone o && adrOk false o.a && o.efn.toNat = 0
/-- SPCFG and BVHREF: a binding and a k address. -/
def wfBind (o : FmtE) : Bool := eHead o (some true) 0 && rm0 o && kNone o && isK o.a && ef o 49 0 = 0
def wfCover (o : FmtE) : Bool :=
  eHead o (some true) 0 && rm0 o && kTok o && isK o.a && ef o 49 38 = 0 && ef o 17 0 = 0
  && kImmIn (efF o 28) 0 255 && kImmIn (efF o 18) 0 255
def wfTriem (o : FmtE) : Bool :=
  eHead o (some false) 0 && rm0 o && (o.h.s || isV o.k) && adrOk false o.a && isV (efF o 43) && srcOk false 2 (efF o 33)
  && ef o 32 0 = 0
def scOk (o : FmtE) : Bool := ef o 22 20 ≤ 5
def wfRclaim (o : FmtE) : Bool :=
  eHead o (some true) 0 && rm0 o && kTok o && isK o.a && kImmIn (efF o 43) 1 64 && ef o 42 23 = 0 && scOk o && ef o 19 0 = 0
def wfSettle (o : FmtE) : Bool :=
  eHead o (some true) 0 && rm0 o && kTok o && isK o.a && isK (efF o 43) && kImmIn (efF o 33) 1 64 && ef o 32 23 = 0 && scOk o
  && ef o 19 0 = 0
def wfRawaitTake (o : FmtE) : Bool := wfRclaim o
def wfRawaitAt (o : FmtE) : Bool :=
  eHead o (some true) 0 && rm0 o && kNone o && isK o.a && isK (efF o 43) && ef o 42 23 = 0 && scOk o && ef o 18 0 = 0
  && ef o 19 19 = 1
def wfEnq (o : FmtE) : Bool :=
  eHead o none 0 && rm0 o && (o.h.s || dstOk o.h.u false o.k) && adrOk o.h.u o.a && srcOk o.h.u 3 (efF o 43)
  && srcOk o.h.u 3 (efF o 33) && ef o 32 23 = 0 && scOk o && ef o 19 0 = 0
def wfDeq (o : FmtE) : Bool :=
  eHead o none 0 && rm0 o && (o.h.s || (if o.h.u then isK o.k && o.k.toNat % 2 = 0 else vEven o.k)) && adrOk o.h.u o.a
  && ef o 52 23 = 0 && scOk o && ef o 15 0 = 0
def wfCont (o : FmtE) : Bool :=
  eHead o (some true) 0 && rm0 o && kNone o && isK o.a && isK (efF o 43) && ef o 26 23 ≤ 8 && ef o 20 20 = 0 && ef o 11 7 ≤ 16
  && ef o 6 0 = 0 && (if ef o 22 21 = 0 then un (efF o 33) else isK (efF o 33) && (efF o 33).toNat < 0x13F)
def wfLaunch (o : FmtE) : Bool :=
  eHead o (some true) 0 && rm0 o && kTok o && isK o.a && o.efn.toNat = 0
def wfLaunchGraph (o : FmtE) : Bool :=
  eHead o (some true) 0 && rm0 o && kTok o && isK o.a && (isK (efF o 43) || ef o 52 43 = 0) && ef o 42 20 = 0
  && ef o 19 19 = 1 && ef o 18 0 = 0
def wfSignal (o : FmtE) : Bool :=
  eHead o none 0 && rm0 o && kNone o && adrOk o.h.u o.a && ((!o.h.u && isV (efF o 43)) || kImmIn (efF o 43) 1 255)
  && ef o 42 23 = 0 && scOk o && ef o 19 0 = 0
def wfPublish (o : FmtE) : Bool :=
  eHead o (some true) 0 && rm0 o && kNone o && isK o.a && (isK (efF o 43) || isImm (efF o 43)) && ef o 42 23 = 0 && scOk o
  && ef o 19 0 = 0
def wfSend (o : FmtE) : Bool :=
  eHead o (some true) 0 && rm0 o && kNone o && isK o.a && isK (efF o 43) && (isK (efF o 33) || un (efF o 33))
  && kImmIn (efF o 23) 0 224 && scOk o && ef o 19 0 = 0
def wfRecvp (o : FmtE) : Bool :=
  eHead o (some true) 0 && rm0 o && kTok o && isK o.a && kImmIn (efF o 43) 0 63 && isK (efF o 33) && isK (efF o 23)
  && ef o 22 20 = 0 && kImmIn (efF o 10) 0 224 && ef o 9 0 = 0
def wfRecvw (o : FmtE) : Bool :=
  eHead o (some true) 0 && rm0 o && kTok o && isK o.a && ef o 52 23 = 0 && scOk o && ef o 19 0 = 0
def wfProbe (o : FmtE) : Bool :=
  eHead o (some true) 0 && rm0 o && kTok o && o.a.toNat = 0 && kImmIn (efF o 43) 0 63 && isK (efF o 33) && isK (efF o 23)
  && ef o 22 19 = 0 && ef o 15 0 = 0
def wfProbeTok (o : FmtE) : Bool :=
  eHead o (some true) 0 && rm0 o && kTok o && isK o.a && ef o 52 20 = 0 && ef o 19 19 = 1 && ef o 15 0 = 0
def wfItrep (o : FmtE) : Bool :=
  eHead o none 0 && rm0 o && kNone o && adrOk o.h.u o.a && srcOk o.h.u 11 (efF o 43) && srcOk o.h.u 3 (efF o 33)
  && ef o 32 23 = 0 && scOk o && ef o 19 0 = 0
/-- CPY, CPYG, CPYS (Table 11-7); `dir` is the direction an entry fixes. -/
def wfCpy (inl : Bool) (o : FmtE) (dir : Option Nat) : Bool :=
  eHead o (some true) 0 && rm0 o && kTok o && (match dir with | some d => ef o 52 52 = d | none => true)
  && ef o 51 50 % 2 = 0 && (ef o 49 49 = 1 || ef o 48 45 = 0) && ef o 44 44 = 0 && ef o 33 0 = 0
  && (if inl then o.a.toNat = 0 && isK (efF o 34) else isK o.a && ef o 43 34 = 0)
def wfCpyi (o : FmtE) : Bool :=
  eHead o (some true) 0 && rm0 o && kTok o && ef o 51 50 % 2 = 0 && (ef o 49 49 = 1 || ef o 48 45 = 0) && ef o 44 34 = 0
  && isK o.a && (isK (efF o 24) || isImm (efF o 24)) && (isK (efF o 14) || isImm (efF o 14)) && ef o 13 0 = 0
def wfWs (o : FmtE) (stage : Bool) : Bool :=
  eHead o (some true) 0 && rm0 o && kNone o && isK o.a && kImmIn (efF o 43) 0 255 && ef o 33 0 = 0 && (stage || ef o 34 34 = 0)
/-- MDRAIN, MRESTORE and MRESUME (R422); `eng` is the engine code of MRESUME. -/
def wfCtl (o : FmtE) (eng : Nat) : Bool :=
  eHead o (some true) 0 && rm0 o && kTok o && isK o.a && isK (efF o 43) && ef o 42 41 = eng && ef o 40 0 = 0

/-! ### Format S (R68, R326, R415) -/

def sHead (o : FmtS) : Bool := o.h.u && o.h.t.toNat = 0 && o.h.rm.toNat = 0
/-- The registers of Table 16-10. -/
def csrKnown (n : Nat) : Bool := n ≤ 2 || n = 0x100 || (0x300 ≤ n && n ≤ 0x306) || (0x400 ≤ n && n ≤ 0x40B)
def kDst (o : FmtS) : Bool := o.h.s || isK o.d
/-- The selectors of Table 16-4. -/
def selOk (sfn : BitVec 41) : Bool :=
  let c := bitsNat sfn 40 37
  let i := bitsNat sfn 36 29
  let t := bitsNat sfn 28 23
  let hi := bitsNat sfn 22 22
  bitsNat sfn 21 0 = 0 && (c = 4 || t = 0) && (c = 3 || hi = 0)
  && (match c with
      | 0 => i = 0 | 1 => i ≤ 2 | 2 => i ≤ 1 | 3 => i ≤ 64 | 4 => true | 5 => i ≤ 63 | 6 => i ≤ 8 | 7 => i ≤ 4 | 8 => i = 0
      | _ => false)
def wfCsrr (o : FmtS) : Bool := sHead o && kDst o && o.a.toNat = 0 && csrKnown o.csr.toNat && o.sfn.toNat = 0
def wfCsrw (o : FmtS) (op : Nat) : Bool :=
  sHead o && (o.h.s || isK o.d || o.d.toNat = 0) && (isK o.a || isImm o.a) && csrKnown o.csr.toNat && o.sfn.toNat = op
def wfRd (o : FmtS) : Bool := sHead o && kDst o && o.a.toNat = 0 && o.csr.toNat = 0 && o.sfn.toNat = 0
def wfGstatr (o : FmtS) : Bool := sHead o && kDst o && isK o.a && o.csr.toNat = 0 && selOk o.sfn
def wfGstatw (o : FmtS) : Bool := sHead o && isK o.d && isK o.a && o.csr.toNat = 0 && selOk o.sfn
def wfHandle (o : FmtS) (bit : Nat) : Bool := sHead o && o.d.toNat = 0 && isK o.a && o.csr.toNat = 0 && o.sfn.toNat = bit
def wfSvc (o : FmtS) : Bool := sHead o && o.d.toNat = 0 && (isK o.a || isImm o.a) && o.csr.toNat = 0 && bitsNat o.sfn 40 8 = 0
def wfEret (o : FmtS) : Bool := sHead o && o.d.toNat = 0 && o.a.toNat = 0 && o.csr.toNat = 0 && o.sfn.toNat = 0
def wfProghint (o : FmtS) : Bool := sHead o && o.d.toNat = 0 && kImm o.a && o.csr.toNat = 0 && o.sfn.toNat = 0

end WF

open WF in
/-- The static check of every row: `inl` is the line's inl bit for an instruction in slot 0 (R48). Events have no fields. -/
def wellFormed (inl : Bool) (i : Instr) : Bool :=
  match i with
  | .nop => !inl
  | .bra o => wfBra o
  | .brx o => wfBrx o
  | .call o => wfCall o
  | .callInd o => wfCallInd o
  | .ret o => wfRet o
  | .join o => wfJoin o
  | .exit o => wfRet o
  | .sleep o => wfSleep o
  | .sleepTok o => wfSleepTok o
  | .yield o => wfYield o
  | .pln o => wfPln o
  | .plng o => wfPlng o
  | .trap o => wfTrap o
  | .brk o => wfTrap o
  | .loop o => wfLoop o
  | .add o => wfA 0x10 o
  | .sub o => wfA 0x11 o
  | .mul o => wfA 0x12 o
  | .mulhi o => wfA 0x13 o
  | .mad o => wfA 0x14 o
  | .madhi o => wfA 0x15 o
  | .addc o => wfA 0x16 o
  | .subb o => wfA 0x17 o
  | .min o => wfA 0x18 o
  | .max o => wfA 0x19 o
  | .abs o => wfA 0x1A o
  | .neg o => wfA 0x1B o
  | .idiv o => wfA 0x1C o
  | .irem o => wfA 0x1D o
  | .sad o => wfA 0x1E o
  | .lea o => wfA 0x1F o && (bitsNat (fnv o) 5 0 < tyWidth o.h.t.toNat && (o.h.t.toNat = 3 || !(fnv o).getLsbD 6))
  | .and o => wfA 0x20 o
  | .or o => wfA 0x21 o
  | .xor o => wfA 0x22 o
  | .andn o => wfA 0x23 o
  | .not o => wfA 0x24 o
  | .logt o => wfA 0x25 o
  | .shl o => wfA 0x26 o
  | .shr o => wfA 0x27 o
  | .shra o => wfA 0x28 o
  | .rot o => wfA 0x29 o
  | .fshf o => wfA 0x2A o
  | .bfx o => wfA 0x2B o
  | .bfi o => wfA 0x2C o
  | .popc o => wfA 0x2D o
  | .clz o => wfA 0x2E o
  | .ctz o => wfA 0x2F o
  | .brev o => wfA 0x30 o
  | .mov o => wfA 0x31 o && ((if o.h.u && isV o.a then (tyWidth o.h.t.toNat ≠ 64 || o.a.toNat % 2 = 0) else opdOk .ty o o.a && bitsNat (fnv o) 5 0 = 0))
  | .movi o => wfA 0x32 o && (o.b.toNat = 0)
  | .movh o => wfA 0x33 o && (o.b.toNat = 0 && dstOk o.h.u true o.d)
  | .sel o => wfA 0x34 o && (cgOk 0 o)
  | .bshuf o => wfA 0x35 o
  | .clamp o => wfA 0x36 o
  | .cmp o => wfA 0x40 o && ((if bitsNat (fnv o) 4 3 = 0 then o.c.toNat = 0 else isPred o.c) && cgOk 5 o)
  | .fcmp o => wfA 0x41 o && ((if bitsNat (fnv o) 2 1 = 0 then o.c.toNat = 0 else isPred o.c) && cgOk 3 o && (o.h.rm.toNat < 6 || !(fnv o).getLsbD 0))
  | .plop o => wfA 0x42 o && (cgOk 16 o && cgOk 17 o && cgOk 18 o)
  | .pmov o => wfA 0x43 o && ((if (fnv o).getLsbD 0 then o.d.toNat = 0 && srcOk o.h.u 2 o.a else bitsNat (fnv o) 7 1 = 0 && o.a.toNat = 0 && (o.h.s || dstOk o.h.u false o.d)))
  | .poll o => pollOk o
  | .lxch o => wfA 0x45 o && (bitsNat (fnv o) 2 0 < 7)
  | .gred o => wfA 0x46 o && (redOk o && (o.h.s || isK o.d || dstOk false (tyWidth o.h.t.toNat = 64) o.d))
  | .gscan o => wfA 0x47 o && (redOk o)
  | .fadd o => wfA 0x50 o
  | .fsub o => wfA 0x51 o
  | .fmul o => wfA 0x52 o
  | .ffma o => wfA 0x53 o
  | .fmin o => wfA 0x54 o
  | .fmax o => wfA 0x55 o
  | .fabs o => wfA 0x56 o
  | .fneg o => wfA 0x57 o
  | .fdiv o => wfA 0x58 o
  | .fsqrt o => wfA 0x59 o
  | .frcpa o => wfA 0x5A o
  | .frsqa o => wfA 0x5B o
  | .fclass o => wfA 0x5C o
  | .fscale o => wfA 0x5D o
  | .fgete o => wfA 0x5E o
  | .fgetm o => wfA 0x5F o
  | .fcopys o => wfA 0x60 o
  | .frnd o => wfA 0x61 o
  | .fmed3 o => wfA 0x62 o
  | .fclamp o => wfA 0x63 o
  | .fex2 o => wfA 0x64 o
  | .flg2 o => wfA 0x65 o
  | .fsin o => wfA 0x66 o
  | .fcos o => wfA 0x67 o
  | .fdot2 o => wfA 0x68 o
  | .fadd2 o => wfA 0x69 o
  | .fmul2 o => wfA 0x6A o
  | .ffma2 o => wfA 0x6B o
  | .cvt o => wfA 0x80 o && (cvtOk o)
  | .i2f o => wfA 0x81 o && (bitsNat (fnv o) 3 0 < 8 && (12 ≤ o.h.t.toNat || !(fnv o).getLsbD 26))
  | .f2i o => wfA 0x82 o && (8 ≤ bitsNat (fnv o) 3 0 && bitsNat (fnv o) 3 0 < 14)
  | .mxq o => wfA 0x83 o && (fltTy.contains (bitsNat (fnv o) 3 0))
  | .mxdq o => wfA 0x84 o && ([12, 13, 4].contains (bitsNat (fnv o) 3 0))
  | .bfpq o => wfA 0x85 o && (fltTy.contains (bitsNat (fnv o) 3 0) && 2 ≤ bitsNat (fnv o) 7 4 && bitsNat (fnv o) 7 4 ≤ 8)
  | .pack o => wfA 0x86 o && ((if o.h.t.toNat = 1 then bitsNat (fnv o) 3 0 = 2 && o.h.rm.toNat = 0 else bitsNat (fnv o) 3 0 = 10))
  | .unpk o => wfA 0x87 o
  | .ld o => wfLd o false
  | .st o => wfLd o true
  | .ldw o => wfLdw o
  | .pref o => wfPref o
  | .cresize o => wfCresize o
  | .cflush o => wfFlush o
  | .cinv o => wfFlush o
  | .femark o => wfFemark o
  | .fetest o => wfFetest o
  | .atom o => wfAtom o
  | .cas o => wfCas o
  | .atomsc o => wfAtomsc o
  | .faddw o => wfFaddw o
  | .wread o => wfWread o
  | .wflush o => wfWflush o
  | .fence o => bareM o [1, 2, 3]
  | .opfence o => bareM o [0]
  | .recfence o => wfRecfence o
  | .bara o => wfBar o
  | .barw o => wfBar o
  | .barx o => wfBar o
  | .bari o => wfBari o
  | .tokwait o => bareM o [0]
  | .tokpass o => bareM o [0]
  | .redix o => wfRedix o
  | .cpy o => wfCpy inl o none
  | .cpyi o => wfCpyi o
  | .cpyg o => wfCpy inl o (some 0)
  | .cpys o => wfCpy inl o (some 1)
  | .cpyq o => wfWait o
  | .cpyqTest o => wfWaitTest o
  | .cpyqAll o => wfWaitAll o
  | .cpyqStat o => wfCpyqStat o
  | .cpyx o => wfWait o
  | .wsstage o => wfWs o true
  | .wsdrop o => wfWs o false
  | .mms o => wfMm inl o true
  | .mmx o => wfMm inl o false
  | .mmi o => wfMm inl o false
  | .acz o => wfAcz o
  | .acld o => wfAcld o
  | .acst o => wfAcst inl o
  | .acrd o => wfAcrd o
  | .mwait o => wfWait o
  | .mwaitTest o => wfWaitTest o
  | .mwaitAll o => wfWaitAll o
  | .mstatr o => wfMstatr o
  | .mdrain o => wfCtl o 0
  | .mrestore o => wfCtl o 0
  | .mresumeMatrix o => wfCtl o 0
  | .mresumeCopy o => wfCtl o 1
  | .mresumeQuery o => wfCtl o 2
  | .slice o => wfSlice o
  | .rq o => wfRq o
  | .bq o => wfBq o
  | .rqr o => wfRqr o
  | .hacc o => wfHacc o
  | .hrej o => wfHrej o
  | .spcfg o => wfBind o
  | .cover o => wfCover o
  | .triem o => wfTriem o
  | .bvhref o => wfBind o
  | .rclaim o => wfRclaim o
  | .rcommit o => wfSettle o
  | .rawaitTake o => wfRawaitTake o
  | .rawaitAt o => wfRawaitAt o
  | .rretire o => wfSettle o
  | .enq o => wfEnq o
  | .deq o => wfDeq o
  | .cont o => wfCont o
  | .launch o => wfLaunch o
  | .launchGraph o => wfLaunchGraph o
  | .signal o => wfSignal o
  | .publish o => wfPublish o
  | .send o => wfSend o
  | .recvp o => wfRecvp o
  | .recvw o => wfRecvw o
  | .probe o => wfProbe o
  | .probeTok o => wfProbeTok o
  | .itrep o => wfItrep o
  | .csrr o => wfCsrr o
  | .csrw o => wfCsrw o 0
  | .csrwSet o => wfCsrw o 1
  | .csrwClr o => wfCsrw o 2
  | .rdclk o => wfRd o
  | .rdtime o => wfRd o
  | .gstatr o => wfGstatr o
  | .gstatw o => wfGstatw o
  | .gresume o => wfHandle o 0
  | .gresumeReplay o => wfHandle o 1
  | .halt o => wfHandle o 0
  | .haltBlk o => wfHandle o 1
  | .svc o => wfSvc o
  | .eret o => wfEret o
  | .proghint o => wfProghint o
  | .invalid _ => true
  | .lineExecution _ => true
  | .loadDataArrival _ => true
  | .writePerformed _ => true
  | .trapDispatch _ => true
  | .machineCheck _ => true
  | .admission _ => true
  | .blockPlacement _ => true
  | .staging _ _ _ _ => true
  | .stagingLineLand _ => true
  | .dispatchTimeout _ => true
  | .quantum _ _ => true
  | .sleepWake _ => true
  | .launchCompletion _ => true
  | .preemptionRequest _ _ => true
  | .blockSave _ => true
  | .blockRestore _ => true
  | .passGrant _ => true
  | .kStepCommit _ => true
  | .transferComplete _ => true
  | .copyRowLand _ _ => true
  | .promiseMissed _ => true
  | .queryTraversal _ => true
  | .queryHeldResume _ => true
  | .queryComplete _ => true
  | .spawnGroupTimeout _ _ => true
  | .spawnGroupPlace _ => true
  | .waiterReissue _ => true
  | .parkReissue _ => true
  | .continuationRelease _ => true
  | .continuationResume _ => true
  | .graphLaunchNode _ => true
  | .graphCondNode _ => true
  | .graphWhileNode _ => true
  | .graphJoinNode _ => true
  | .graphSignalNode _ => true
  | .deadline _ => true
  | .messageArrival _ => true
  | .ringHop _ => true
  | .wsRefreshWindow _ => true
  | .powerLimitThrottle _ => true
  | .regionPowerWindow _ _ _ _ => true
  | .thermalThrottle _ => true
  | .reset _ => true
  | .rlpHello _ => true
  | .rlpWrite _ => true
  | .rlpRead _ => true
  | .rlpAtomic _ => true
  | .rlpLaunch _ => true
  | .rlpAck _ => true
  | .ackTimer _ => true
  | .retransmit _ _ => true
  | .sessionTimeout _ => true
  | .mgmtCtxtab _ => true
  | .mgmtKey _ => true
  | .mgmtInval _ => true
  | .mgmtResume _ => true
  | .mgmtHalt _ => true
  | .mgmtKill _ => true
  | .mgmtPreempt _ => true
  | .mgmtCsrr _ => true
  | .mgmtCsrw _ => true
  | .mgmtAttest _ => true
  | .mgmtFwload _ => true
  | .mgmtSavepool _ => true
  | .mgmtPort _ => true
  | .mgmtStatus _ => true
  | .mgmtPhysw _ => true
  | .mgmtPhysr _ => true
  | .mgmtCharges _ => true
  | .mgmtReset _ => true
  | .modeWrite _ _ => true
  | .rwaysWrite _ _ => true
  | .refcalWrite _ _ => true
  | .pavaneWrite _ _ => true
  | .ringpoolWrite _ _ => true
  | .errcntWrite _ _ => true
  | .csrWrite _ _ _ => true
  | .pavaneDeqQuantum _ _ => true
  | .unknownMgmtOperation _ => true

end Sys2Proof
end

