-- ==== Sys2Proof/Decode.lean ====
section
/-! DEFINITION. Decode.lean: fetch lines (R44 to R49), the decoder of a 96-bit slot (R44 to R71), total on any bits and
rejecting by name, and after it the encoder. -/

namespace Sys2Proof

/-- Why a slot is no instruction (R70 step 1, R71). Fields that an entry calls illegal are `illegalField`. -/
inductive DecodeError where
  | unassigned (op : Nat)
  | nonzeroNop
  | illegalField
  deriving DecidableEq, Repr

/-! ### Fetch lines -/

/-- A fetch line: 64 bytes, little-endian, so byte 0 is bits 7:0 (R44). -/
abbrev Line := BitVec 512

/-- The line whose byte i is entry i of the list. -/
def lineOfBytes (bs : List Byte) : Line := BitVec.ofNat 512 (bs.foldr (fun b n => b.toNat + 256 * n) 0)
/-- Slot n of a line, bits 96n+95:96n (R44). -/
def lineSlot (l : Line) (n : Nat) : Slot := l.extractLsb' (96 * n) 96
/-- The line word, bits 511:480 (Table 3-1). -/
def lineWord (l : Line) : Word := l.extractLsb' 480 32
def lineTgt (l : Line) (slot : Nat) : Bool := (lineWord l).getLsbD slot
def linePair (l : Line) (slot : Nat) : Bool := slot < 4 && (lineWord l).getLsbD (5 + slot)
def lineInl (l : Line) : Bool := (lineWord l).getLsbD 9
def lineVer (l : Line) : Nat := bitsNat (lineWord l) 31 26

/-- Whether n is a power of two. -/
def isPow2 (n : Nat) : Bool := n ≠ 0 && n &&& (n - 1) = 0
/-- The position after p that is not a power of two (R49). -/
def nextPosition (p : Nat) : Nat := if isPow2 (p + 1) then p + 2 else p + 1
/-- XOR of Position(n) over the set bits among the low `k` bits of x; the first bit has position p (R49). -/
def positionXor : Nat → Nat → Nat → Nat → Nat
  | 0, _, _, acc => acc
  | k + 1, x, p, acc => positionXor k (x / 2) (nextPosition p) (if x % 2 = 1 then acc ^^^ p else acc)
/-- Parity of the low k bits of x. -/
def parityNat : Nat → Nat → Bool
  | 0, _ => false
  | k + 1, x => (x % 2 = 1) != parityNat k (x / 2)
/-- The 496 data bits of a line: line bits 479:0, then line word bits 15:0 (R49). -/
def lineData (l : Line) : Nat := l.toNat % 2 ^ 480 + (bitsNat (lineWord l) 15 0) * 2 ^ 480
/-- LineCheck of R49: the 10-bit chk field. -/
def lineCheck (l : Line) : Nat :=
  let c := positionXor 496 (lineData l) 3 0
  let o := (parityNat 496 (lineData l)) != (parityNat 9 c)
  (if o then 512 else 0) + c
/-- The data bit whose position is s, if any. -/
def dataBitAt : Nat → Nat → Nat → Nat → Option Nat
  | 0, _, _, _ => none
  | k + 1, n, p, s => if p = s then some n else dataBitAt k (n + 1) (nextPosition p) s
/-- The fate of a fetched line's check code (R49): `none` where the error is uncorrectable, else the line as used and
whether an error was corrected. -/
def lineCorrect (l : Line) : Option (Line × Bool) :=
  let chk := bitsNat (lineWord l) 25 16
  let s := positionXor 496 (lineData l) 3 0 ^^^ (chk % 512)
  let q := (parityNat 496 (lineData l)) != (parityNat 10 chk)
  if !q then (if s = 0 then some (l, false) else none)
  else if s = 0 then some (l ^^^ (1#512 <<< 505), true)
  else if isPow2 s then some (l ^^^ (1#512 <<< (496 + Nat.log2 s)), true)
  else match dataBitAt 496 0 3 s with
    | some n => some (l ^^^ (1#512 <<< n), true)
    | none => none

/-! ### Fields of a slot (R52, R63 to R68) -/

def opOf (s : Slot) : Nat := (s.extractLsb' 88 8).toNat
def hdrOf (s : Slot) : Hdr :=
  { n := s.getLsbD 87, pg := s.extractLsb' 84 3, u := s.getLsbD 83, s := s.getLsbD 82,
    l := s.extractLsb' 80 2, rm := s.extractLsb' 77 3, t := s.extractLsb' 73 4 }
def fieldsA (s : Slot) : FmtA :=
  { h := hdrOf s, d := s.extractLsb' 63 10, a := s.extractLsb' 53 10, b := s.extractLsb' 43 10,
    c := s.extractLsb' 33 10, i := s.getLsbD 32, w := s.extractLsb' 0 32 }
def fieldsM (s : Slot) : FmtM :=
  { h := hdrOf s, d := s.extractLsb' 63 10, a := s.extractLsb' 53 10, b := s.extractLsb' 43 10,
    c := s.extractLsb' 33 10, space := s.extractLsb' 31 2, order := s.extractLsb' 29 2, scope := s.extractLsb' 26 3,
    hint := s.extractLsb' 24 2, off := s.extractLsb' 0 24 }
def fieldsC (s : Slot) : FmtC :=
  { h := hdrOf s, tline := s.extractLsb' 49 24, tslot := s.extractLsb' 46 3, cline := s.extractLsb' 22 24,
    cslot := s.extractLsb' 19 3, hint := s.getLsbD 18, a := s.extractLsb' 8 10, cfn := s.extractLsb' 0 8 }
def fieldsE (s : Slot) : FmtE :=
  { h := hdrOf s, k := s.extractLsb' 63 10, a := s.extractLsb' 53 10, efn := s.extractLsb' 0 53 }
def fieldsS (s : Slot) : FmtS :=
  { h := hdrOf s, d := s.extractLsb' 63 10, a := s.extractLsb' 53 10, csr := s.extractLsb' 41 12,
    sfn := s.extractLsb' 0 41 }

/-! ### The opcode map (R71, Table 3-10) -/

/-- Row 0_ of Table 3-10. -/
def decodeRow0 (s : Slot) : Except DecodeError Instr :=
  match opOf s with
  | 0x00 => if s = 0 then .ok .nop else .error .nonzeroNop
  | 0x01 => .ok (.bra (fieldsC s))
  | 0x02 => .ok (.brx (fieldsC s))
  | 0x03 => let o := fieldsC s
    if !o.cfn.getLsbD 1 then .ok (.call o) else .ok (.callInd o)
  | 0x04 => .ok (.ret (fieldsC s))
  | 0x05 => .ok (.join (fieldsC s))
  | 0x06 => .ok (.exit (fieldsC s))
  | 0x07 => let o := fieldsC s
    if !o.cfn.getLsbD 0 then .ok (.sleep o) else .ok (.sleepTok o)
  | 0x08 => .ok (.yield (fieldsC s))
  | 0x09 => .ok (.pln (fieldsC s))
  | 0x0A => .ok (.plng (fieldsC s))
  | 0x0B => .ok (.trap (fieldsC s))
  | 0x0C => .ok (.brk (fieldsC s))
  | 0x0D => .ok (.loop (fieldsC s))
  | op => .error (.unassigned op)

/-- Row 1_ of Table 3-10. -/
def decodeRow1 (s : Slot) : Except DecodeError Instr :=
  match opOf s with
  | 0x10 => .ok (.add (fieldsA s))
  | 0x11 => .ok (.sub (fieldsA s))
  | 0x12 => .ok (.mul (fieldsA s))
  | 0x13 => .ok (.mulhi (fieldsA s))
  | 0x14 => .ok (.mad (fieldsA s))
  | 0x15 => .ok (.madhi (fieldsA s))
  | 0x16 => .ok (.addc (fieldsA s))
  | 0x17 => .ok (.subb (fieldsA s))
  | 0x18 => .ok (.min (fieldsA s))
  | 0x19 => .ok (.max (fieldsA s))
  | 0x1A => .ok (.abs (fieldsA s))
  | 0x1B => .ok (.neg (fieldsA s))
  | 0x1C => .ok (.idiv (fieldsA s))
  | 0x1D => .ok (.irem (fieldsA s))
  | 0x1E => .ok (.sad (fieldsA s))
  | 0x1F => .ok (.lea (fieldsA s))
  | op => .error (.unassigned op)

/-- Row 2_ of Table 3-10. -/
def decodeRow2 (s : Slot) : Except DecodeError Instr :=
  match opOf s with
  | 0x20 => .ok (.and (fieldsA s))
  | 0x21 => .ok (.or (fieldsA s))
  | 0x22 => .ok (.xor (fieldsA s))
  | 0x23 => .ok (.andn (fieldsA s))
  | 0x24 => .ok (.not (fieldsA s))
  | 0x25 => .ok (.logt (fieldsA s))
  | 0x26 => .ok (.shl (fieldsA s))
  | 0x27 => .ok (.shr (fieldsA s))
  | 0x28 => .ok (.shra (fieldsA s))
  | 0x29 => .ok (.rot (fieldsA s))
  | 0x2A => .ok (.fshf (fieldsA s))
  | 0x2B => .ok (.bfx (fieldsA s))
  | 0x2C => .ok (.bfi (fieldsA s))
  | 0x2D => .ok (.popc (fieldsA s))
  | 0x2E => .ok (.clz (fieldsA s))
  | 0x2F => .ok (.ctz (fieldsA s))
  | op => .error (.unassigned op)

/-- Row 3_ of Table 3-10. -/
def decodeRow3 (s : Slot) : Except DecodeError Instr :=
  match opOf s with
  | 0x30 => .ok (.brev (fieldsA s))
  | 0x31 => .ok (.mov (fieldsA s))
  | 0x32 => .ok (.movi (fieldsA s))
  | 0x33 => .ok (.movh (fieldsA s))
  | 0x34 => .ok (.sel (fieldsA s))
  | 0x35 => .ok (.bshuf (fieldsA s))
  | 0x36 => .ok (.clamp (fieldsA s))
  | op => .error (.unassigned op)

/-- Row 4_ of Table 3-10. -/
def decodeRow4 (s : Slot) : Except DecodeError Instr :=
  match opOf s with
  | 0x40 => .ok (.cmp (fieldsA s))
  | 0x41 => .ok (.fcmp (fieldsA s))
  | 0x42 => .ok (.plop (fieldsA s))
  | 0x43 => .ok (.pmov (fieldsA s))
  | 0x44 => .ok (.poll (fieldsA s))
  | 0x45 => .ok (.lxch (fieldsA s))
  | 0x46 => .ok (.gred (fieldsA s))
  | 0x47 => .ok (.gscan (fieldsA s))
  | op => .error (.unassigned op)

/-- Row 5_ of Table 3-10. -/
def decodeRow5 (s : Slot) : Except DecodeError Instr :=
  match opOf s with
  | 0x50 => .ok (.fadd (fieldsA s))
  | 0x51 => .ok (.fsub (fieldsA s))
  | 0x52 => .ok (.fmul (fieldsA s))
  | 0x53 => .ok (.ffma (fieldsA s))
  | 0x54 => .ok (.fmin (fieldsA s))
  | 0x55 => .ok (.fmax (fieldsA s))
  | 0x56 => .ok (.fabs (fieldsA s))
  | 0x57 => .ok (.fneg (fieldsA s))
  | 0x58 => .ok (.fdiv (fieldsA s))
  | 0x59 => .ok (.fsqrt (fieldsA s))
  | 0x5A => .ok (.frcpa (fieldsA s))
  | 0x5B => .ok (.frsqa (fieldsA s))
  | 0x5C => .ok (.fclass (fieldsA s))
  | 0x5D => .ok (.fscale (fieldsA s))
  | 0x5E => .ok (.fgete (fieldsA s))
  | 0x5F => .ok (.fgetm (fieldsA s))
  | op => .error (.unassigned op)

/-- Row 6_ of Table 3-10. -/
def decodeRow6 (s : Slot) : Except DecodeError Instr :=
  match opOf s with
  | 0x60 => .ok (.fcopys (fieldsA s))
  | 0x61 => .ok (.frnd (fieldsA s))
  | 0x62 => .ok (.fmed3 (fieldsA s))
  | 0x63 => .ok (.fclamp (fieldsA s))
  | 0x64 => .ok (.fex2 (fieldsA s))
  | 0x65 => .ok (.flg2 (fieldsA s))
  | 0x66 => .ok (.fsin (fieldsA s))
  | 0x67 => .ok (.fcos (fieldsA s))
  | 0x68 => .ok (.fdot2 (fieldsA s))
  | 0x69 => .ok (.fadd2 (fieldsA s))
  | 0x6A => .ok (.fmul2 (fieldsA s))
  | 0x6B => .ok (.ffma2 (fieldsA s))
  | op => .error (.unassigned op)

/-- Row 8_ of Table 3-10. -/
def decodeRow8 (s : Slot) : Except DecodeError Instr :=
  match opOf s with
  | 0x80 => .ok (.cvt (fieldsA s))
  | 0x81 => .ok (.i2f (fieldsA s))
  | 0x82 => .ok (.f2i (fieldsA s))
  | 0x83 => .ok (.mxq (fieldsA s))
  | 0x84 => .ok (.mxdq (fieldsA s))
  | 0x85 => .ok (.bfpq (fieldsA s))
  | 0x86 => .ok (.pack (fieldsA s))
  | 0x87 => .ok (.unpk (fieldsA s))
  | op => .error (.unassigned op)

/-- Row 9_ of Table 3-10. -/
def decodeRow9 (s : Slot) : Except DecodeError Instr :=
  match opOf s with
  | 0x90 => .ok (.ld (fieldsM s))
  | 0x91 => .ok (.st (fieldsM s))
  | 0x92 => .ok (.ldw (fieldsM s))
  | 0x93 => .ok (.pref (fieldsM s))
  | 0x94 => .ok (.cresize (fieldsM s))
  | 0x95 => .ok (.cflush (fieldsM s))
  | 0x96 => .ok (.cinv (fieldsM s))
  | 0x97 => .ok (.femark (fieldsM s))
  | 0x98 => .ok (.fetest (fieldsM s))
  | op => .error (.unassigned op)

/-- Row A_ of Table 3-10. -/
def decodeRowA (s : Slot) : Except DecodeError Instr :=
  match opOf s with
  | 0xA0 => .ok (.atom (fieldsM s))
  | 0xA1 => .ok (.cas (fieldsM s))
  | 0xA2 => .ok (.atomsc (fieldsM s))
  | 0xA3 => .ok (.faddw (fieldsM s))
  | 0xA4 => .ok (.wread (fieldsM s))
  | 0xA5 => .ok (.wflush (fieldsM s))
  | 0xA6 => .ok (.fence (fieldsM s))
  | 0xA7 => .ok (.opfence (fieldsM s))
  | 0xA8 => .ok (.recfence (fieldsM s))
  | 0xA9 => .ok (.bara (fieldsC s))
  | 0xAA => .ok (.barw (fieldsC s))
  | 0xAB => .ok (.barx (fieldsC s))
  | 0xAC => .ok (.bari (fieldsC s))
  | 0xAD => .ok (.tokwait (fieldsM s))
  | 0xAE => .ok (.tokpass (fieldsM s))
  | 0xAF => .ok (.redix (fieldsM s))
  | op => .error (.unassigned op)

/-- Row B_ of Table 3-10. -/
def decodeRowB (s : Slot) : Except DecodeError Instr :=
  match opOf s with
  | 0xB0 => .ok (.cpy (fieldsE s))
  | 0xB1 => .ok (.cpyi (fieldsE s))
  | 0xB2 => .ok (.cpyg (fieldsE s))
  | 0xB3 => .ok (.cpys (fieldsE s))
  | 0xB4 => let o := fieldsE s
    if o.efn.getLsbD 5 then .ok (.cpyqStat o) else if o.efn.getLsbD 4 then .ok (.cpyqAll o) else if o.efn.getLsbD 3 then .ok (.cpyqTest o) else .ok (.cpyq o)
  | 0xB5 => .ok (.cpyx (fieldsE s))
  | 0xB6 => .ok (.wsstage (fieldsE s))
  | 0xB7 => .ok (.wsdrop (fieldsE s))
  | op => .error (.unassigned op)

/-- Row C_ of Table 3-10. -/
def decodeRowC (s : Slot) : Except DecodeError Instr :=
  match opOf s with
  | 0xC0 => .ok (.mms (fieldsE s))
  | 0xC1 => .ok (.mmx (fieldsE s))
  | 0xC2 => .ok (.mmi (fieldsE s))
  | 0xC3 => .ok (.acz (fieldsE s))
  | 0xC4 => .ok (.acld (fieldsE s))
  | 0xC5 => .ok (.acst (fieldsE s))
  | 0xC6 => .ok (.acrd (fieldsE s))
  | 0xC7 => let o := fieldsE s
    if o.efn.getLsbD 4 then .ok (.mwaitAll o) else if o.efn.getLsbD 3 then .ok (.mwaitTest o) else .ok (.mwait o)
  | 0xC8 => .ok (.mstatr (fieldsE s))
  | 0xC9 => .ok (.mdrain (fieldsE s))
  | 0xCA => .ok (.mrestore (fieldsE s))
  | 0xCB => let o := fieldsE s
    if bitsNat o.efn 42 41 == 0 then .ok (.mresumeMatrix o) else if bitsNat o.efn 42 41 == 1 then .ok (.mresumeCopy o) else .ok (.mresumeQuery o)
  | 0xCC => .ok (.slice (fieldsE s))
  | op => .error (.unassigned op)

/-- Row D_ of Table 3-10. -/
def decodeRowD (s : Slot) : Except DecodeError Instr :=
  match opOf s with
  | 0xD0 => .ok (.rq (fieldsE s))
  | 0xD1 => .ok (.bq (fieldsE s))
  | 0xD2 => .ok (.rqr (fieldsE s))
  | 0xD3 => .ok (.hacc (fieldsE s))
  | 0xD4 => .ok (.hrej (fieldsE s))
  | 0xD5 => .ok (.spcfg (fieldsE s))
  | 0xD6 => .ok (.cover (fieldsE s))
  | 0xD7 => .ok (.triem (fieldsE s))
  | 0xD8 => .ok (.bvhref (fieldsE s))
  | op => .error (.unassigned op)

/-- Row E_ of Table 3-10. -/
def decodeRowE (s : Slot) : Except DecodeError Instr :=
  match opOf s with
  | 0xE0 => .ok (.rclaim (fieldsE s))
  | 0xE1 => .ok (.rcommit (fieldsE s))
  | 0xE2 => let o := fieldsE s
    if o.efn.getLsbD 19 then .ok (.rawaitAt o) else .ok (.rawaitTake o)
  | 0xE3 => .ok (.rretire (fieldsE s))
  | 0xE4 => .ok (.enq (fieldsE s))
  | 0xE5 => .ok (.deq (fieldsE s))
  | 0xE6 => .ok (.cont (fieldsE s))
  | 0xE7 => let o := fieldsE s
    if o.efn.getLsbD 19 then .ok (.launchGraph o) else .ok (.launch o)
  | 0xE8 => .ok (.signal (fieldsE s))
  | 0xE9 => .ok (.publish (fieldsE s))
  | 0xEA => .ok (.send (fieldsE s))
  | 0xEB => .ok (.recvp (fieldsE s))
  | 0xEC => .ok (.recvw (fieldsE s))
  | 0xED => let o := fieldsE s
    if o.efn.getLsbD 19 then .ok (.probeTok o) else .ok (.probe o)
  | 0xEE => .ok (.itrep (fieldsE s))
  | op => .error (.unassigned op)

/-- Row F_ of Table 3-10. -/
def decodeRowF (s : Slot) : Except DecodeError Instr :=
  match opOf s with
  | 0xF0 => .ok (.csrr (fieldsS s))
  | 0xF1 => let o := fieldsS s
    if bitsNat o.sfn 1 0 == 1 then .ok (.csrwSet o) else if bitsNat o.sfn 1 0 == 2 then .ok (.csrwClr o) else .ok (.csrw o)
  | 0xF2 => .ok (.rdclk (fieldsS s))
  | 0xF3 => .ok (.rdtime (fieldsS s))
  | 0xF4 => .ok (.gstatr (fieldsS s))
  | 0xF5 => .ok (.gstatw (fieldsS s))
  | 0xF6 => let o := fieldsS s
    if o.sfn.getLsbD 0 then .ok (.gresumeReplay o) else .ok (.gresume o)
  | 0xF7 => let o := fieldsS s
    if o.sfn.getLsbD 0 then .ok (.haltBlk o) else .ok (.halt o)
  | 0xF8 => .ok (.svc (fieldsS s))
  | 0xF9 => .ok (.eret (fieldsS s))
  | 0xFA => .ok (.proghint (fieldsS s))
  | 0xFF => .ok (.invalid (s.extractLsb' 0 88))
  | op => .error (.unassigned op)

/-- The instruction a slot's opcode and form bits name, with its fields as they stand (R71). -/
def decodeRaw (s : Slot) : Except DecodeError Instr :=
  match opOf s / 16 with
  | 0x0 => decodeRow0 s
  | 0x1 => decodeRow1 s
  | 0x2 => decodeRow2 s
  | 0x3 => decodeRow3 s
  | 0x4 => decodeRow4 s
  | 0x5 => decodeRow5 s
  | 0x6 => decodeRow6 s
  | 0x8 => decodeRow8 s
  | 0x9 => decodeRow9 s
  | 0xA => decodeRowA s
  | 0xB => decodeRowB s
  | 0xC => decodeRowC s
  | 0xD => decodeRowD s
  | 0xE => decodeRowE s
  | 0xF => decodeRowF s
  | _ => .error (.unassigned (opOf s))

/-- The decoder (R70): the instruction of a slot, or why it is none. `inl` is the line's inl bit for slot 0 (R48). -/
def decodeSlot (inl : Bool) (s : Slot) : Except DecodeError Instr :=
  match decodeRaw s with
  | .ok i => if wellFormed inl i then .ok i else .error .illegalField
  | .error e => .error e

/-- The decoder on a slot given by a number of nbits bits, bit 0 the least significant of the first word. -/
def decodeTableWord (nbits w : Nat) : Option Instr :=
  match decodeSlot false (BitVec.ofNat 96 (w % 2 ^ nbits)) with
  | .ok i => some i
  | .error _ => none

/-! ### The encoder -/

def encHdr (op : BitVec 8) (h : Hdr) : BitVec 23 :=
  op ++ (BitVec.ofBool h.n ++ (h.pg ++ (BitVec.ofBool h.u ++ (BitVec.ofBool h.s ++ (h.l ++ (h.rm ++ h.t))))))
def encA (op : BitVec 8) (o : FmtA) : Slot :=
  encHdr op o.h ++ (o.d ++ (o.a ++ (o.b ++ (o.c ++ (BitVec.ofBool o.i ++ o.w)))))
def encM (op : BitVec 8) (o : FmtM) : Slot :=
  encHdr op o.h ++ (o.d ++ (o.a ++ (o.b ++ (o.c ++ (o.space ++ (o.order ++ (o.scope ++ (o.hint ++ o.off))))))))
def encC (op : BitVec 8) (o : FmtC) : Slot :=
  encHdr op o.h ++ (o.tline ++ (o.tslot ++ (o.cline ++ (o.cslot ++ (BitVec.ofBool o.hint ++ (o.a ++ o.cfn))))))
def encE (op : BitVec 8) (o : FmtE) : Slot := encHdr op o.h ++ (o.k ++ (o.a ++ o.efn))
def encS (op : BitVec 8) (o : FmtS) : Slot := encHdr op o.h ++ (o.d ++ (o.a ++ (o.csr ++ o.sfn)))

/-- The slot of an instruction; an event of another agent has no encoding. -/
def encode (i : Instr) : Option Slot :=
  match i with
  | .nop => some 0
  | .bra o => some (encC 0x01#8 o)
  | .brx o => some (encC 0x02#8 o)
  | .call o => some (encC 0x03#8 o)
  | .callInd o => some (encC 0x03#8 o)
  | .ret o => some (encC 0x04#8 o)
  | .join o => some (encC 0x05#8 o)
  | .exit o => some (encC 0x06#8 o)
  | .sleep o => some (encC 0x07#8 o)
  | .sleepTok o => some (encC 0x07#8 o)
  | .yield o => some (encC 0x08#8 o)
  | .pln o => some (encC 0x09#8 o)
  | .plng o => some (encC 0x0A#8 o)
  | .trap o => some (encC 0x0B#8 o)
  | .brk o => some (encC 0x0C#8 o)
  | .loop o => some (encC 0x0D#8 o)
  | .add o => some (encA 0x10#8 o)
  | .sub o => some (encA 0x11#8 o)
  | .mul o => some (encA 0x12#8 o)
  | .mulhi o => some (encA 0x13#8 o)
  | .mad o => some (encA 0x14#8 o)
  | .madhi o => some (encA 0x15#8 o)
  | .addc o => some (encA 0x16#8 o)
  | .subb o => some (encA 0x17#8 o)
  | .min o => some (encA 0x18#8 o)
  | .max o => some (encA 0x19#8 o)
  | .abs o => some (encA 0x1A#8 o)
  | .neg o => some (encA 0x1B#8 o)
  | .idiv o => some (encA 0x1C#8 o)
  | .irem o => some (encA 0x1D#8 o)
  | .sad o => some (encA 0x1E#8 o)
  | .lea o => some (encA 0x1F#8 o)
  | .and o => some (encA 0x20#8 o)
  | .or o => some (encA 0x21#8 o)
  | .xor o => some (encA 0x22#8 o)
  | .andn o => some (encA 0x23#8 o)
  | .not o => some (encA 0x24#8 o)
  | .logt o => some (encA 0x25#8 o)
  | .shl o => some (encA 0x26#8 o)
  | .shr o => some (encA 0x27#8 o)
  | .shra o => some (encA 0x28#8 o)
  | .rot o => some (encA 0x29#8 o)
  | .fshf o => some (encA 0x2A#8 o)
  | .bfx o => some (encA 0x2B#8 o)
  | .bfi o => some (encA 0x2C#8 o)
  | .popc o => some (encA 0x2D#8 o)
  | .clz o => some (encA 0x2E#8 o)
  | .ctz o => some (encA 0x2F#8 o)
  | .brev o => some (encA 0x30#8 o)
  | .mov o => some (encA 0x31#8 o)
  | .movi o => some (encA 0x32#8 o)
  | .movh o => some (encA 0x33#8 o)
  | .sel o => some (encA 0x34#8 o)
  | .bshuf o => some (encA 0x35#8 o)
  | .clamp o => some (encA 0x36#8 o)
  | .cmp o => some (encA 0x40#8 o)
  | .fcmp o => some (encA 0x41#8 o)
  | .plop o => some (encA 0x42#8 o)
  | .pmov o => some (encA 0x43#8 o)
  | .poll o => some (encA 0x44#8 o)
  | .lxch o => some (encA 0x45#8 o)
  | .gred o => some (encA 0x46#8 o)
  | .gscan o => some (encA 0x47#8 o)
  | .fadd o => some (encA 0x50#8 o)
  | .fsub o => some (encA 0x51#8 o)
  | .fmul o => some (encA 0x52#8 o)
  | .ffma o => some (encA 0x53#8 o)
  | .fmin o => some (encA 0x54#8 o)
  | .fmax o => some (encA 0x55#8 o)
  | .fabs o => some (encA 0x56#8 o)
  | .fneg o => some (encA 0x57#8 o)
  | .fdiv o => some (encA 0x58#8 o)
  | .fsqrt o => some (encA 0x59#8 o)
  | .frcpa o => some (encA 0x5A#8 o)
  | .frsqa o => some (encA 0x5B#8 o)
  | .fclass o => some (encA 0x5C#8 o)
  | .fscale o => some (encA 0x5D#8 o)
  | .fgete o => some (encA 0x5E#8 o)
  | .fgetm o => some (encA 0x5F#8 o)
  | .fcopys o => some (encA 0x60#8 o)
  | .frnd o => some (encA 0x61#8 o)
  | .fmed3 o => some (encA 0x62#8 o)
  | .fclamp o => some (encA 0x63#8 o)
  | .fex2 o => some (encA 0x64#8 o)
  | .flg2 o => some (encA 0x65#8 o)
  | .fsin o => some (encA 0x66#8 o)
  | .fcos o => some (encA 0x67#8 o)
  | .fdot2 o => some (encA 0x68#8 o)
  | .fadd2 o => some (encA 0x69#8 o)
  | .fmul2 o => some (encA 0x6A#8 o)
  | .ffma2 o => some (encA 0x6B#8 o)
  | .cvt o => some (encA 0x80#8 o)
  | .i2f o => some (encA 0x81#8 o)
  | .f2i o => some (encA 0x82#8 o)
  | .mxq o => some (encA 0x83#8 o)
  | .mxdq o => some (encA 0x84#8 o)
  | .bfpq o => some (encA 0x85#8 o)
  | .pack o => some (encA 0x86#8 o)
  | .unpk o => some (encA 0x87#8 o)
  | .ld o => some (encM 0x90#8 o)
  | .st o => some (encM 0x91#8 o)
  | .ldw o => some (encM 0x92#8 o)
  | .pref o => some (encM 0x93#8 o)
  | .cresize o => some (encM 0x94#8 o)
  | .cflush o => some (encM 0x95#8 o)
  | .cinv o => some (encM 0x96#8 o)
  | .femark o => some (encM 0x97#8 o)
  | .fetest o => some (encM 0x98#8 o)
  | .atom o => some (encM 0xA0#8 o)
  | .cas o => some (encM 0xA1#8 o)
  | .atomsc o => some (encM 0xA2#8 o)
  | .faddw o => some (encM 0xA3#8 o)
  | .wread o => some (encM 0xA4#8 o)
  | .wflush o => some (encM 0xA5#8 o)
  | .fence o => some (encM 0xA6#8 o)
  | .opfence o => some (encM 0xA7#8 o)
  | .recfence o => some (encM 0xA8#8 o)
  | .bara o => some (encC 0xA9#8 o)
  | .barw o => some (encC 0xAA#8 o)
  | .barx o => some (encC 0xAB#8 o)
  | .bari o => some (encC 0xAC#8 o)
  | .tokwait o => some (encM 0xAD#8 o)
  | .tokpass o => some (encM 0xAE#8 o)
  | .redix o => some (encM 0xAF#8 o)
  | .cpy o => some (encE 0xB0#8 o)
  | .cpyi o => some (encE 0xB1#8 o)
  | .cpyg o => some (encE 0xB2#8 o)
  | .cpys o => some (encE 0xB3#8 o)
  | .cpyq o => some (encE 0xB4#8 o)
  | .cpyqTest o => some (encE 0xB4#8 o)
  | .cpyqAll o => some (encE 0xB4#8 o)
  | .cpyqStat o => some (encE 0xB4#8 o)
  | .cpyx o => some (encE 0xB5#8 o)
  | .wsstage o => some (encE 0xB6#8 o)
  | .wsdrop o => some (encE 0xB7#8 o)
  | .mms o => some (encE 0xC0#8 o)
  | .mmx o => some (encE 0xC1#8 o)
  | .mmi o => some (encE 0xC2#8 o)
  | .acz o => some (encE 0xC3#8 o)
  | .acld o => some (encE 0xC4#8 o)
  | .acst o => some (encE 0xC5#8 o)
  | .acrd o => some (encE 0xC6#8 o)
  | .mwait o => some (encE 0xC7#8 o)
  | .mwaitTest o => some (encE 0xC7#8 o)
  | .mwaitAll o => some (encE 0xC7#8 o)
  | .mstatr o => some (encE 0xC8#8 o)
  | .mdrain o => some (encE 0xC9#8 o)
  | .mrestore o => some (encE 0xCA#8 o)
  | .mresumeMatrix o => some (encE 0xCB#8 o)
  | .mresumeCopy o => some (encE 0xCB#8 o)
  | .mresumeQuery o => some (encE 0xCB#8 o)
  | .slice o => some (encE 0xCC#8 o)
  | .rq o => some (encE 0xD0#8 o)
  | .bq o => some (encE 0xD1#8 o)
  | .rqr o => some (encE 0xD2#8 o)
  | .hacc o => some (encE 0xD3#8 o)
  | .hrej o => some (encE 0xD4#8 o)
  | .spcfg o => some (encE 0xD5#8 o)
  | .cover o => some (encE 0xD6#8 o)
  | .triem o => some (encE 0xD7#8 o)
  | .bvhref o => some (encE 0xD8#8 o)
  | .rclaim o => some (encE 0xE0#8 o)
  | .rcommit o => some (encE 0xE1#8 o)
  | .rawaitTake o => some (encE 0xE2#8 o)
  | .rawaitAt o => some (encE 0xE2#8 o)
  | .rretire o => some (encE 0xE3#8 o)
  | .enq o => some (encE 0xE4#8 o)
  | .deq o => some (encE 0xE5#8 o)
  | .cont o => some (encE 0xE6#8 o)
  | .launch o => some (encE 0xE7#8 o)
  | .launchGraph o => some (encE 0xE7#8 o)
  | .signal o => some (encE 0xE8#8 o)
  | .publish o => some (encE 0xE9#8 o)
  | .send o => some (encE 0xEA#8 o)
  | .recvp o => some (encE 0xEB#8 o)
  | .recvw o => some (encE 0xEC#8 o)
  | .probe o => some (encE 0xED#8 o)
  | .probeTok o => some (encE 0xED#8 o)
  | .itrep o => some (encE 0xEE#8 o)
  | .csrr o => some (encS 0xF0#8 o)
  | .csrw o => some (encS 0xF1#8 o)
  | .csrwSet o => some (encS 0xF1#8 o)
  | .csrwClr o => some (encS 0xF1#8 o)
  | .rdclk o => some (encS 0xF2#8 o)
  | .rdtime o => some (encS 0xF3#8 o)
  | .gstatr o => some (encS 0xF4#8 o)
  | .gstatw o => some (encS 0xF5#8 o)
  | .gresume o => some (encS 0xF6#8 o)
  | .gresumeReplay o => some (encS 0xF6#8 o)
  | .halt o => some (encS 0xF7#8 o)
  | .haltBlk o => some (encS 0xF7#8 o)
  | .svc o => some (encS 0xF8#8 o)
  | .eret o => some (encS 0xF9#8 o)
  | .proghint o => some (encS 0xFA#8 o)
  | .invalid bits => some (0xFF#8 ++ bits)
  | .lineExecution _ => none
  | .loadDataArrival _ => none
  | .writePerformed _ => none
  | .trapDispatch _ => none
  | .machineCheck _ => none
  | .admission _ => none
  | .blockPlacement _ => none
  | .staging _ _ _ _ => none
  | .stagingLineLand _ => none
  | .dispatchTimeout _ => none
  | .quantum _ _ => none
  | .sleepWake _ => none
  | .launchCompletion _ => none
  | .preemptionRequest _ _ => none
  | .blockSave _ => none
  | .blockRestore _ => none
  | .passGrant _ => none
  | .kStepCommit _ => none
  | .transferComplete _ => none
  | .copyRowLand _ _ => none
  | .promiseMissed _ => none
  | .queryTraversal _ => none
  | .queryHeldResume _ => none
  | .queryComplete _ => none
  | .spawnGroupTimeout _ _ => none
  | .spawnGroupPlace _ => none
  | .waiterReissue _ => none
  | .parkReissue _ => none
  | .continuationRelease _ => none
  | .continuationResume _ => none
  | .graphLaunchNode _ => none
  | .graphCondNode _ => none
  | .graphWhileNode _ => none
  | .graphJoinNode _ => none
  | .graphSignalNode _ => none
  | .deadline _ => none
  | .messageArrival _ => none
  | .ringHop _ => none
  | .wsRefreshWindow _ => none
  | .powerLimitThrottle _ => none
  | .regionPowerWindow _ _ _ _ => none
  | .thermalThrottle _ => none
  | .reset _ => none
  | .rlpHello _ => none
  | .rlpWrite _ => none
  | .rlpRead _ => none
  | .rlpAtomic _ => none
  | .rlpLaunch _ => none
  | .rlpAck _ => none
  | .ackTimer _ => none
  | .retransmit _ _ => none
  | .sessionTimeout _ => none
  | .mgmtCtxtab _ => none
  | .mgmtKey _ => none
  | .mgmtInval _ => none
  | .mgmtResume _ => none
  | .mgmtHalt _ => none
  | .mgmtKill _ => none
  | .mgmtPreempt _ => none
  | .mgmtCsrr _ => none
  | .mgmtCsrw _ => none
  | .mgmtAttest _ => none
  | .mgmtFwload _ => none
  | .mgmtSavepool _ => none
  | .mgmtPort _ => none
  | .mgmtStatus _ => none
  | .mgmtPhysw _ => none
  | .mgmtPhysr _ => none
  | .mgmtCharges _ => none
  | .mgmtReset _ => none
  | .modeWrite _ _ => none
  | .rwaysWrite _ _ => none
  | .refcalWrite _ _ => none
  | .pavaneWrite _ _ => none
  | .ringpoolWrite _ _ => none
  | .errcntWrite _ _ => none
  | .csrWrite _ _ _ => none
  | .pavaneDeqQuantum _ _ => none
  | .unknownMgmtOperation _ => none

end Sys2Proof
end

