-- ==== Sys2Proof/Machine/Sparse.lean ====
section
/-! DEFINITION. Sparse.lean: finite maps as lists of (key, value) pairs in one canonical form: keys strictly rising, and no
entry equal to the default an unlisted key reads as. Memory, register files and tables are all held this way. -/

namespace Sys2Proof

/-- The value listed at key k, or d. -/
def spGet {α : Type} (d : α) : List (Nat × α) → Nat → α
  | [], _ => d
  | (i, v) :: r, k => if i = k then v else spGet d r k

/-- The value listed at key k, if any. -/
def spFind {α : Type} : List (Nat × α) → Nat → Option α
  | [], _ => none
  | (i, v) :: r, k => if i = k then some v else spFind r k

/-- Put v at key k, in ascending order of keys. -/
def spPut {α : Type} : List (Nat × α) → Nat → α → List (Nat × α)
  | [], k, v => [(k, v)]
  | (i, w) :: r, k, v =>
    if k < i then (k, v) :: (i, w) :: r else if k = i then (k, v) :: r else (i, w) :: spPut r k v

/-- Remove key k. -/
def spDel {α : Type} : List (Nat × α) → Nat → List (Nat × α)
  | [], _ => []
  | (i, w) :: r, k => if i = k then spDel r k else (i, w) :: spDel r k

/-- Write v at key k, keeping the canonical form for default d. -/
def spSet {α : Type} [DecidableEq α] (d : α) (m : List (Nat × α)) (k : Nat) (v : α) : List (Nat × α) :=
  if v = d then spDel m k else spPut m k v

/-- Keys strictly rising, from a lower bound. -/
def spSorted {α : Type} : Nat → List (Nat × α) → Bool
  | _, [] => true
  | lo, (i, _) :: r => lo ≤ i && spSorted (i + 1) r

/-- The canonical form for default d. -/
def spWf {α : Type} [DecidableEq α] (d : α) (m : List (Nat × α)) : Bool :=
  spSorted 0 m && m.all fun e => e.2 ≠ d

/-- The keys listed. -/
def spKeys {α : Type} (m : List (Nat × α)) : List Nat := m.map (·.1)

/-- A key above every key listed: names for new work items. -/
def spFresh {α : Type} (m : List (Nat × α)) : Nat := m.foldl (fun n e => max n (e.1 + 1)) 0

/-- Memory: listed bytes by address; an unlisted address reads `memDefault` (log 4). -/
abbrev Memory := List Host.Cell

/-- What a byte of memory nothing has written reads as. DESIGN CHOICE 0 (log 4). -/
def memDefault : Byte := 0

def memGet (m : Memory) (a : Nat) : Byte := spGet memDefault m a
def memSet (m : Memory) (a : Nat) (b : Byte) : Memory := spSet memDefault m a b

/-- The canonical form of memory. -/
abbrev Memory.wf (m : Memory) : Bool := spWf memDefault m

/-- Read n bytes from address a, lowest first (R6). -/
def memBytes (m : Memory) (a : Nat) : Nat → List Byte
  | 0 => []
  | n + 1 => memGet m a :: memBytes m (a + 1) n
/-- Write bytes from address a up. -/
def memPut (m : Memory) (a : Nat) : List Byte → Memory
  | [] => m
  | b :: r => memPut (memSet m a b) (a + 1) r

/-- The little-endian number of a list of bytes (R6). -/
def bytesNat : List Byte → Nat
  | [] => 0
  | b :: r => b.toNat + 256 * bytesNat r
/-- The n little-endian bytes of a number (R6). -/
def natBytes : Nat → Nat → List Byte
  | 0, _ => []
  | n + 1, x => BitVec.ofNat 8 x :: natBytes n (x / 256)

/-- Insert into a sorted list, after equals. -/
def insertBy {α : Type} (le : α → α → Bool) (x : α) : List α → List α
  | [] => [x]
  | y :: r => if le y x then y :: insertBy le x r else x :: y :: r
/-- A stable sort. -/
def sortBy {α : Type} (le : α → α → Bool) (l : List α) : List α := l.foldl (fun r x => insertBy le x r) []

/-- Sum of a list of natural numbers. -/
def sumNat (l : List Nat) : Nat := l.foldl (· + ·) 0

/-- Thread numbers 0 to 63. -/
def tids : List Nat := List.range 64

/-- The mask of the threads for which f holds. -/
def maskOf (f : Nat → Bool) : Mask :=
  BitVec.ofNat 64 (tids.foldl (fun n t => if f t then n + 2 ^ t else n) 0)

/-- The threads of a mask in ascending TID. -/
def maskTids (m : Mask) : List Nat := tids.filter fun t => m.getLsbD t

/-- Threads counted in a mask. -/
def maskCount (m : Mask) : Nat := (maskTids m).length

/-- The lowest thread of a mask, 0 if it is empty. -/
def maskLow (m : Mask) : Nat := ((maskTids m).head?).getD 0

end Sys2Proof
end

