-- ==== Sys2Proof/Machine/State.lean ====
section
/-! DEFINITION. State.lean: everything the spec gives the machine, as plain data, and its value after reset.
Names: a core is numbered die·64 + CORE (0 to 47), a control core die·64 + 48 + quadrille (R16); a group place is
core·64 + slot; a quadrille is die·12 + QUAD; a slice is die·32 + slice. -/

namespace Sys2Proof.Machine

/-! ### Reasons a step can stop -/

/-- No step of this model ends in a fault: the spec makes every failure a trap, a report or a dropped frame, which are
next states. The type has one constructor, raised by nobody (safe). -/
inductive Fault where
  /-- Raised by no instruction (safe). -/
  | none
  deriving DecidableEq, Repr

/-- Why an instruction has no meaning. -/
inductive Refusal where
  /-- An instruction whose arm of Dispatch has no meaning yet; raised by that arm (safe). -/
  | notModelled (mnemonic : String)
  deriving DecidableEq, Repr

/-! ### Traps (16_recovery) -/

/-- What a trap enters in the trap queue: the values of the trap registers of Table 16-2. -/
structure Trap where
  cause : Nat
  code : Nat := 0
  defer : Bool := false
  wait : Bool := false
  dom : Bool := false
  addr : Nat := 0
  rec_ : Nat := 0
  prog : Nat := 0
  mask : Mask := 0
  tok : Nat := 0
  /-- TPC and its plane where they differ from the instruction being issued. -/
  pc : Option (Nat × Nat) := none
  /-- TIPC and its plane where they differ from TPC. -/
  ipc : Option (Nat × Nat) := none
  /-- The staging job whose stopped range it reports (R309). -/
  stage : Option Nat := none
  /-- Lines corrected by their check word on the way to this trap (R49). -/
  ecc : Nat := 0
  deriving DecidableEq, Repr

/-- The trap registers of a control core, and the ones that are no part of a trap (Table 16-2). -/
structure TrapRegs where
  tcause : DWord := 0
  tpc : DWord := 0
  taddr : DWord := 0
  trec : DWord := 0
  tprog : DWord := 0
  tmask : DWord := 0
  tgroup : DWord := 0
  ttok : DWord := 0
  tipc : DWord := 0
  tvec : DWord := 0
  mcpc : DWord := 0
  deriving DecidableEq, Repr

/-- One entry of a trap queue (R402): the group place, or with TCAUSE.dom set the context and region of the fault domain, and
the register values. -/
structure TrapEntry where
  group : Option Nat
  regs : TrapRegs
  dom : Option (Nat × Nat) := none
  deriving DecidableEq, Repr

/-! ### Groups (02_execution_model, 13_control_flow) -/

/-- Kinds of a reconvergence stack entry (Table 13-2). -/
inductive EntryKind where
  | rejoin | deferred | call
  deriving DecidableEq, Repr

/-- A reconvergence stack entry (Table 13-2). -/
structure StackEntry where
  offset : Nat
  kind : EntryKind
  mask : Mask
  deriving DecidableEq, Repr

/-- The blocking event of R27 that holds a group, with what its wait needs (R406, Table 16-5). -/
inductive Wait where
  | none
  | barrier (n target : Nat)
  | sleep (until_ : Nat)
  | sleepTurns (turns : Nat)
  | sleepTok (tok : Nat)
  | deq
  | recv (tok : Nat)
  | rawait
  | tokwait
  | fullEmpty (line : Nat)
  | fullLog
  deriving DecidableEq, Repr

/-- The blk code of Table 16-5. -/
def Wait.code : Wait → Nat
  | .none => 0 | .barrier _ _ => 1 | .sleep _ => 2 | .sleepTurns _ => 2 | .sleepTok _ => 2 | .deq => 3 | .recv _ => 3
  | .rawait => 4 | .tokwait => 5 | .fullEmpty _ => 6 | .fullLog => 7

/-- The threads of an instruction that is held at one of its threads (R232, R268) which have done their accesses, with the value
each got (none: poisoned); `off` and `plane` name the instruction. -/
structure Held where
  off : Nat
  plane : Nat
  got : List (Nat × Option Nat)
  deriving DecidableEq, Repr

/-- A group (Table 2-6, Tables 16-4 and 16-5). Registers are sparse maps with default 0: a vector register's key is
register·64 + TID, a latch's is latch·64 + TID. -/
structure Group where
  /-- A name of its own: places are used again after a group retires. -/
  uid : Nat := 0
  block : Nat := 0
  gidx : Nat := 0
  regs : Nat := 256
  uregs : Nat := 64
  np : Nat := 1
  code : Nat := 0
  vr : List (Nat × Word) := []
  kr : List (Nat × DWord) := []
  pr : List (Nat × Mask) := []
  gp : BitVec 8 := 0
  lat : List (Nat × DWord) := []
  latOk : List (Nat × Mask) := []
  plane : List (Nat × Nat) := []
  live : Mask := 0
  resident : Mask := 0
  /-- Top of the stack first. -/
  stack : List StackEntry := []
  pc : Nat := 0
  mode : DWord := 1
  fstat : DWord := 0
  late : DWord := 0
  /-- Poisoned vector registers (key as vr) and uniform registers (R411). -/
  poisonV : List (Nat × Bool) := []
  poisonK : List (Nat × Bool) := []
  /-- The line execution under way: line number, and its image per occupied plane (R33, R50). -/
  line : Option Nat := none
  images : List (Nat × Line) := []
  /-- The line's images of the planes that no active thread occupies, for R37's test of any plane. -/
  others : List (Nat × Line) := []
  /-- Line executions begun: tells a latch's line execution from a later one. -/
  lx : Nat := 0
  /-- The next fetch is the entry of a launch, spawn program or graph node, or a resumed continuation (R46). -/
  entering : Bool := false
  track : Option Nat := none
  /-- Core cycles of track tenure, counted by R21. -/
  tenure : Nat := 0
  /-- Swaps that passed this group over, and since when it is ready (R315). -/
  passed : Nat := 0
  readyAt : Nat := 0
  prio : Nat := 0
  /-- Retired slots (R322). -/
  retired : Nat := 0
  wait : Wait := .none
  halt : Bool := false
  byhalt : Bool := false
  cause : Nat := 0
  /-- Pending causes: bit 0 poison, 1 engine fault, 2 promise missed, 3 deadline, 4 budget (Table 16-5 bits 15:11). -/
  pend : Nat := 0
  /-- Pending traps that raised while the group was halted, earliest first (R400, R411). -/
  pendTraps : List Trap := []
  /-- Phase value at the latest arrival, and the pending bit, per barrier (R343). -/
  ap : List (Nat × Nat) := []
  pendBar : List (Nat × Bool) := []
  /-- The word of a refused FADDW (R265). -/
  refused : Option Nat := none
  /-- An operation found its slice's park full, at `parkAt`: the group waits on its track for the reissue (R351). -/
  parkWait : Bool := false
  parkAt : Nat := 0
  held : Option Held := none
  deriving DecidableEq, Repr

/-- Barrier state (Table 13-4). -/
structure Bar where
  mode : Bool := false
  e : Nat := 1
  b : Nat := 0
  arr : Nat := 0
  bytes : Nat := 0
  phase : Nat := 0
  deriving DecidableEq, Repr

/-- An accumulator tile with its side array (R100 to R103, R155, R167). Element keys are 128·i + j. Unlisted elements have
W = 0, tag 0 and bound `bound0`; unlisted row and column anchors are −32,768 (R155). `anc` is a Welt-64 tile's anchor. -/
structure Tile where
  w64 : Bool := false
  w : List (Nat × Int) := []
  ar : List (Nat × Int) := []
  ac : List (Nat × Int) := []
  anc : Int := 0
  tags : List (Nat × Nat) := []
  bounds : List (Nat × Nat) := []
  bound0 : Nat := 0
  sticky : Nat := 0
  status : Nat := 0
  /-- Poisoned elements (R410). -/
  bad : List (Nat × Bool) := []
  deriving DecidableEq, Repr

/-- A BVH descriptor (Table 8-3). -/
structure Bvh where
  nodes : Nat
  tris : Nat
  custom : Nat
  root : Nat
  nnode : Nat
  ntri : Nat
  ncus : Nat
  deriving DecidableEq, Repr

/-- A spawn configuration (R217) and the core its reservation holds (R206). -/
structure SpawnCfg where
  entry : Nat
  regs : Nat
  uregs : Nat
  planes : Nat
  sp : Nat
  ring : Nat
  param : Nat
  core : Nat
  deriving DecidableEq, Repr

/-- One of a block's eight bindings (R212). -/
structure Binding where
  bvh : Option Bvh := none
  spawn : Option SpawnCfg := none
  serial : Nat := 0
  deriving DecidableEq, Repr

/-- A launch record (Table 12-2). -/
structure LaunchRec where
  code : Nat := 0
  entry : Nat := 0
  regs : Nat := 8
  uregs : Nat := 8
  planes : Nat := 1
  sp : Nat := 0
  acc : Nat := 0
  barriers : Nat := 0
  groups : Nat := 1
  prio : Nat := 0
  gx : Nat := 1
  gy : Nat := 1
  gz : Nat := 1
  region : Nat := 0
  dmask : Nat := 0
  flags : Nat := 0
  vcores : Nat := 0
  wsdecl : Nat := 0
  param : Nat := 0
  done : Nat := 0
  bound : Nat := 0
  deriving DecidableEq, Repr

/-- A block's life: placed but not dispatched, running, leaving its core (groups gone, work outstanding), held by an affine
continuation, saved. -/
inductive BlockState where
  | placed | running | leaving | affine | saved
  deriving DecidableEq, Repr

/-- A spawn group's records by thread, their addresses, and the configuration of the queries that wrote them (R205). -/
structure SpawnOf where
  block : Nat
  bind : Nat
  recs : List Nat
  vas : List Nat
  cfg : SpawnCfg
  /-- Priority of the group whose queries wrote the records (R315). -/
  prio : Nat := 0
  deriving DecidableEq, Repr

/-- A saved group or affine group place and its state, kept with a saved block (R406). -/
structure SavedGroup where
  place : Nat
  group : Group
  deriving DecidableEq, Repr

/-- What a waiter at a home slice waits for (R352, R361). -/
inductive WaitFor where
  | take (g uid n : Nat) (o : FmtE)
  | at_ (g uid n : Nat) (o : FmtE)
  | deq (g uid : Nat) (tids : List Nat) (o : FmtE)
  | watch (cont : Nat)
  deriving DecidableEq, Repr

/-- A block (R25, R302, R313). Scratchpad bytes default to 0; a line listed in `empty` is empty and holds the copy that last
marked it, plus one, or 0 for a mark by FEMARK or staging (R232, R284). A line listed in `filling` is one that the copy listed,
plus one, marked and has not yet set full (R248). -/
structure Block where
  launch : Nat := 2 ^ 64
  bid : Nat := 0
  die : Nat := 0
  core : Nat := 0
  place : Nat := 0
  ngroups : Nat := 1
  /-- .regs and .uregs of its groups. -/
  regs : Nat := 256
  uregs : Nat := 64
  state : BlockState := .running
  spSize : Nat := 0
  sp : List (Nat × Byte) := []
  /-- Poisoned scratchpad words of four bytes (R410). -/
  spBad : List (Nat × Bool) := []
  empty : List (Nat × Nat) := []
  filling : List (Nat × Nat) := []
  acc : Nat := 0
  accBase : Nat := 0
  tiles : List (Nat × Tile) := []
  nbar : Nat := 0
  bars : List (Nat × Bar) := []
  binds : List (Nat × Binding) := []
  copySeq : Nat := 0
  matSeq : Nat := 0
  hint : Nat := 0xFFFFFFFF
  hintAt : Nat := 0
  placedAt : Nat := 0
  vcore : Nat := 0xFFFFFFFF
  spawnOf : Option SpawnOf := none
  saved : List SavedGroup := []
  /-- A drain, or a save, was chosen for this block (R318). -/
  draining : Bool := false
  saving : Bool := false
  /-- It stops to be flushed, not saved. -/
  flushing : Bool := false
  /-- Groups that the save halted, by uid; what else the save image holds (R406): traps queued again, requests at home slices
  made again by header, the core's turn and count of turns. -/
  stopped : List Nat := []
  savedTraps : List (Nat × TrapRegs) := []
  savedWaits : List (Nat × WaitFor) := []
  savedTurn : Nat × Nat := (0, 0)
  deriving DecidableEq, Repr

/-- A region's effective fields (Table 15-2). -/
structure Region where
  prio : Nat := 7
  policy : Nat := 1
  dmask : Nat := 0xFFFF
  cores : Nat := 48
  spawn : Nat := 0
  groups : Nat := 3072
  sp : Nat := 25165824
  acc : Nat := 1536
  wsbase : Nat := 0
  wsbanks : Nat := 0
  hbm : Nat := 25
  bound : Nat := 100000
  power : Nat := 0
  spill : Nat := 0
  spillsz : Nat := 0
  deriving DecidableEq, Repr

/-- A die's share of a launch: the next BID to place and the end (R312); of a pavane launch, one per virtual core (R320).
`since` is when it became its queue's head, or last had a block placed (R305); `adm`: it is admitted. -/
structure Share where
  die : Nat
  next : Nat
  stop : Nat
  since : Option Nat := none
  adm : Bool := false
  deriving DecidableEq, Repr

inductive LaunchState where
  | queued | running | completed | refused | killed
  deriving DecidableEq, Repr

/-- A launch (R302 to R307). Launches are named in order of arrival. -/
structure Launch where
  lr : LaunchRec := {}
  va : Nat := 0
  ctx : Nat := 0
  serial : Nat := 0
  lead : Nat := 0
  state : LaunchState := .queued
  shares : List Share := []
  retired : Nat := 0
  /-- BIDs of flushed blocks to place again (R318) and of retired blocks (R266). -/
  again : List Nat := []
  retiredBids : List Nat := []
  /-- Promenade token holder (R266). -/
  token : Nat := 0
  /-- The graph path that submitted it, if any, and its deadline (R366). -/
  path : Option Nat := none
  deadline : Nat := 0
  reason : Nat := 0
  /-- Its region's fault domain is halted (R384, policy 0). -/
  halted : Bool := false
  /-- The core of each virtual core (R320). -/
  vmap : List Nat := []
  /-- Its region and that region's ancestors up to the root with their effective fields, as the latest admission of its context
  read them (R383); none before its own. -/
  chain : List (Nat × Region) := []
  /-- Its completion word is written, or there is none to write (R304). -/
  wrote : Bool := false
  deriving DecidableEq, Repr

/-! ### Memory-side structures (09, 10, 11) -/

/-- A shape record (Table 11-1). -/
structure Shape where
  kind : Nat := 0
  etype : Nat := 0
  rank : Nat := 1
  bmode : Nat := 0
  swz : Nat := 0
  fill : Nat := 0
  dim : List Nat := []
  box : List Nat := []
  stride : List Int := []
  base : Nat := 0
  orig : List Int := []
  spdst : Nat := 0
  sppitch : Nat := 0
  mxptr : Nat := 0
  idxptr : Nat := 0
  deriving DecidableEq, Repr

/-- One line of a core's L1 (R229 to R231): which bytes are valid, which are dirty, which are poisoned (R410), the bytes, the way of
its set that holds it, and its place in the eviction order: `keep` after every line without it, `first` (.stream) before every
other. -/
structure L1Line where
  valid : BitVec 128 := 0
  dirty : BitVec 128 := 0
  bad : BitVec 128 := 0
  data : BitVec 1024 := 0
  keep : Bool := false
  first : Bool := false
  way : Nat := 0
  deriving DecidableEq, Repr

/-- A replica that an L2 slice keeps of a line homed on another die, and the reserved way that holds it (R236). -/
structure Replica where
  data : BitVec 1024
  way : Nat := 0
  deriving DecidableEq, Repr

/-- A write on its way to its home slice, or written there and awaiting the acknowledgements of its invalidations from the dies
`invs` (R237, R256). `bad`: it carries poison (R410). -/
structure PostedWrite where
  core : Nat
  line : Nat
  mask : BitVec 128
  data : BitVec 1024
  bad : Bool := false
  written : Bool := false
  invs : List Nat := []
  deriving DecidableEq, Repr

/-- One participant of a Format M access: thread, effective address, data operands (R404). -/
structure Part where
  tid : Nat
  ea : Nat
  b : Nat := 0
  c : Nat := 0
  deriving DecidableEq, Repr

/-- A load in flight: one instruction's participants with the bytes each has sampled (`none` until then) (R243, R411). -/
structure Load where
  g : Nat
  uid : Nat
  off : Nat
  plane : Nat
  lx : Nat
  o : FmtM
  wide : Bool
  parts : List (Part × Option (List Byte × Bool))
  deriving DecidableEq, Repr

/-- An instruction in a core's operand log (R404). -/
structure LogEntry where
  core : Nat
  g : Nat
  uid : Nat
  off : Nat
  plane : Nat
  lx : Nat
  instr : Instr
  parts : List Part
  deriving DecidableEq, Repr

/-- A welt entry at a home slice (R263 to R265): the exact sum in units of 2^−1074. `negZero`: the initial value and every
addend were −0. `spilled`: the address of its 320 bytes in its region's spill area. -/
structure Welt where
  f64 : Bool
  sum : Int
  tag : Nat
  negZero : Bool
  ctx : Nat
  region : Nat
  spilled : Option Nat := none
  used : Nat := 0
  deriving DecidableEq, Repr

/-- A parked ring range (R350): slice, header PA, counter (true: tail), first granule, count. -/
structure RingPark where
  slice : Nat
  header : Nat
  tail : Bool
  s : Nat
  n : Nat
  deriving DecidableEq, Repr

/-- A parked signal (R364) with its group's fault domain. -/
structure SigPark where
  slice : Nat
  record : Nat
  n : Nat
  ctx : Nat
  region : Nat
  deriving DecidableEq, Repr

/-- A parked REDIX contribution (R268). -/
structure RedPark where
  slice : Nat
  slot : Nat
  t : Nat
  index : Nat
  value : Nat
  deriving DecidableEq, Repr

/-- An entry of a slice's waiter table, or a request returned to its core to be reissued (`parked = false`) (R352). -/
structure Waiter where
  slice : Nat
  header : Nat
  parked : Bool
  since : Nat
  what : WaitFor
  /-- A request of a pavane group gathered for its launch's quantum (R357): the launch, and its place in that order. -/
  gather : Option (Nat × Nat) := none
  deriving DecidableEq, Repr

/-- A copy (R281 to R298): its record as it stood at issue with the index list, and its progress. -/
structure Copy where
  block : Nat
  g : Nat
  uid : Nat
  core : Nat
  ctx : Nat
  kind : Nat
  toMem : Bool
  ws : Bool
  bar : Option Nat
  shape : Shape
  idx : List Int
  linear : Bool
  trec : Nat
  ipc : Nat × Nat
  token : Nat
  promise : Nat
  pavane : Bool
  /-- Rows landed, with their bytes; rows complete, all their lines being written; the physical lines written. -/
  landed : List (Nat × List Byte)
  whole : List Nat := []
  out : List Nat := []
  done : Bool := false
  fault : Option Trap := none
  cancel : Bool := false
  late : Bool := false
  ptrapped : Bool := false
  deriving DecidableEq, Repr

/-- A matrix operation or transfer (R151, R167, R172, R176 to R184): kind 1 MMS, 2 MMX, 3 MMI, 4 ACZ, 5 ACLD, 6 ACST. `slot`,
`par` and `regs` are the instruction's slot, its parameter words and the register values it read, in field order. -/
structure MatOp where
  kind : Nat
  block : Nat
  core : Nat
  g : Nat
  uid : Nat
  ctx : Nat := 0
  tile : Nat
  /-- The tile it names is a Welt-64 tile. -/
  w64 : Bool := false
  seq : Nat := 0
  token : Nat := 0
  ipc : Nat × Nat := (0, 0)
  slot : Slot := 0
  par : List Slot := []
  regs : List Nat := []
  /-- The A and B records; for ACST the output record in `a`. -/
  a : Shape := {}
  b : Shape := {}
  aspc : Nat := 0
  bspc : Nat := 0
  /-- The addresses of the A and B records, or of the image or output record. -/
  arec : Nat := 0
  brec : Nat := 0
  /-- Row and column origins; for ACST drow and dcol. -/
  arow : Nat := 0
  akp : Nat := 0
  bcol : Nat := 0
  bkp : Nat := 0
  n : Nat := 0
  s : Nat := 0
  short : Bool := false
  full : Bool := false
  urg : Bool := false
  /-- K-steps committed, fetch row reached, passes granted to the current K-step, the arbiter's count w, and the order of entry
  into the reservation table (R151). -/
  kstep : Nat := 0
  row : Nat := 0
  passes : Nat := 0
  w : Nat := 0
  entered : Nat := 0
  /-- The operand buffer (R165): rows of the current K-step's panels that are fetched, 0 to 127 of A and 128 to 255 of B: the bytes
  of the elements, and of the scales. -/
  buf : List (Nat × (List Byte × List Byte)) := []
  /-- ACST: the element, or part of a raw image, that it has reached, and whether it waits there for the assist (R161). -/
  elem : Nat := 0
  assist : Bool := false
  /-- ACZ's anchor; ACST's output code and rounding mode. -/
  anc : Int := 0
  fmt : Nat := 0
  mode : Nat := 1
  /-- MDRAIN has frozen it (R166, R407). -/
  frozen : Bool := false
  fault : Option Trap := none
  deriving DecidableEq, Repr

/-! ### Queries (08) -/

/-- A sample of a query: a fine ray as f64 bits (R195), its current limit, its closest accepted hit, its hit count. -/
structure Sample where
  o : List Nat
  d : List Nat
  tmin : Nat
  tmax : Nat
  tcur : Nat
  dead : Bool
  hit : Option (Nat × Nat × Nat × Nat × Nat × Bool) := none
  count : Nat := 0
  deriving DecidableEq, Repr

/-- Traversal work still to do, next first (R200): visit a node with a sub-beam; reclassify a child for a sub-beam; process a
leaf for the samples listed; replay a log entry; cover one triangle. Sub-beam: columns a0..a1, rows b0..b1. -/
inductive Work where
  | node (n depth inst : Nat) (a0 a1 b0 b1 : Nat)
  | child (cw depth inst : Nat) (box : List Nat) (a0 a1 b0 b1 : Nat)
  | leaf (cw inst : Nat) (box : List Nat) (samples : List Nat)
  | tri (i inst sample stop : Nat)
  | call (c inst sample : Nat)
  | replay (entry : Nat)
  | cover (tri : Nat)
  | frag (tri pix : Nat)
  | finish
  deriving DecidableEq, Repr

inductive QueryKind where
  | ray | beam | replay | cover
  deriving DecidableEq, Repr

inductive QueryState where
  | running | held | ended | stopped | complete
  deriving DecidableEq, Repr

/-- A split record the engine wrote (R204, R207, R216): where, for which query and sample, and what HACC needs of it. -/
structure Split where
  ctx : Nat
  va : Nat
  ring : Nat
  granule : Nat
  query : Nat
  sample : Nat
  frag : Bool
  prim : Nat := 0
  inst : Nat := 0
  cidx : Nat := 0
  tlo : Nat := 0
  thi : Nat := 0
  o : List Nat := []
  d : List Nat := []
  /-- Declared box of its custom entry (R198). -/
  box : List Nat := []
  finished : Bool := false
  /-- Taken into a spawn group (R205): the group's uid and thread once placed. -/
  taken : Bool := false
  owner : Option (Nat × Nat) := none
  /-- When it was written. -/
  at_ : Nat := 0
  deriving DecidableEq, Repr

/-- A query (R192 to R220). -/
structure Query where
  kind : QueryKind
  g : Nat
  uid : Nat
  tid : Nat
  block : Nat
  die : Nat
  core : Nat
  ctx : Nat
  /-- Priority of the issuing group (R315). -/
  prio : Nat := 0
  bind : Nat
  serial : Nat
  bvh : Option Bvh
  spawn : Option SpawnCfg
  rec_ : Nat
  coarse : Bool
  occ : Bool
  beamForm : Bool
  user : Nat
  w : Nat
  h : Nat
  samples : List Sample
  work : List Work
  state : QueryState := .running
  visits : Nat := 0
  /-- Log segment address, capacity, entries written, overflow (R208). -/
  log : Option (Nat × Nat × Nat × Bool) := none
  dest : Nat
  array : Option Nat := none
  /-- Split records written and not finished (R207). -/
  open_ : Nat := 0
  fragsAccepted : Nat := 0
  stream : Nat := 0
  tx : Nat := 0
  ty : Nat := 0
  ipc : Nat × Nat
  /-- Line execution of its issue, latch xL of its result, and whether the result goes to the latch only (R32). -/
  lx : Nat := 0
  lat : Nat := 0
  latchOnly : Bool := false
  /-- Split records made and not yet in the ring, in call order (R205): their bytes with them. -/
  kept : List (Split × List Byte) := []
  /-- Bytes of the structure that it reads next, fetched before (R164). -/
  look : Option (Nat × List Byte) := none
  flag2 : Bool := false
  /-- The fault that stopped it; the fault of a write of its hit array or log, told once it has completed (R219). -/
  fault : Option Trap := none
  wfault : Option Trap := none
  /-- The issuing group has taken the engine-fault trap of this query (R219). -/
  told : Bool := false
  deriving DecidableEq, Repr

/-- A spawn group formed and waiting to be placed (R206). -/
structure SpawnGroup where
  die : Nat
  block : Nat
  bind : Nat
  ctx : Nat
  region : Nat
  prio : Nat
  cfg : SpawnCfg
  code : Nat
  launch : Nat
  /-- Its records, and their addresses. -/
  recs : List Nat
  vas : List Nat
  deriving DecidableEq, Repr

/-! ### Tasks, graphs, messages (14) -/

/-- A continuation record waiting or released (R358 to R362). -/
structure Cont where
  va : Nat
  ctx : Nat
  region : Nat
  launch : Nat
  die : Nat
  core : Nat
  block : Option Nat
  queue : Nat
  wk : Nat
  /-- The watched physical address, for wk 1 to 3; `wk` becomes 0 when the event has happened. -/
  waddr : Nat
  wval : Nat
  affine : Bool := false
  released : Bool := false
  /-- The group's uid, under which it resumes, and what a spawn group's block was made for (R205). -/
  uid : Nat := 0
  spawnOf : Option SpawnOf := none
  deriving DecidableEq, Repr

/-- A walk of a graph (R366). -/
structure Walk where
  die : Nat
  ctx : Nat
  region : Nat
  done : Nat
  launches : Nat := 0
  failed : Bool := false
  deriving DecidableEq, Repr

/-- An active path of a walk: the node it stands at, or the launch it waits for and the node to walk then. -/
structure Path where
  walk : Nat
  node : Nat
  waiting : Option Nat := none
  deriving DecidableEq, Repr

/-- A posted receive (R370). `status` is 0 until it completes (Table 14-7). -/
structure Recv where
  seq : Nat
  block : Nat
  ctx : Nat
  buf : Nat
  cap : Nat
  tag : Nat
  mask : Nat
  status : Nat := 0
  deriving DecidableEq, Repr

/-- A message (R369): sender, tag and payload. -/
structure Msg where
  die : Nat
  core : Nat
  tag : Nat
  data : List Byte
  deriving DecidableEq, Repr

/-- A port of a context on a die (R369, R370). -/
structure Port where
  recvs : List Recv := []
  overflow : List Msg := []
  seq : Nat := 0
  deriving DecidableEq, Repr

/-- Flits of a packet behind its head: the die and pool whose slots hold them. -/
structure Leg where
  die : Nat
  pool : Nat
  n : Nat
  deriving DecidableEq, Repr

/-- A packet on its way: `at_` is the die its head is at, `pool` where that stands there: 4 not yet sent, or in an input port slot of
pool 0 (shared), 1 (VC0), 2 (VC1), 3 (VC3); `tail` holds the flits that an escape channel has not yet advanced to there, nearest
first (R373). `dest` is the destination word. -/
structure Packet where
  ctx : Nat
  region : Nat
  uid : Nat
  msg : Msg
  src : Nat
  dst : Nat
  port : Nat
  cls : Nat
  cw : Bool
  at_ : Nat
  pool : Nat := 4
  tail : List Leg := []
  dest : Nat
  deriving DecidableEq, Repr

/-- A staging job (R309, R325): the lines still to land. -/
structure Stage where
  die : Nat
  block : Option Nat
  launch : Nat
  bid : Nat
  range : Nat
  ctx : Nat
  region : Nat
  va : Nat
  left : Nat
  landed : Nat
  sp : Option Nat
  l2 : Bool
  demand : Bool := false
  stopped : Bool := false
  /-- The engine-fault trap of a stopped range is taken (R309). -/
  told : Bool := false
  deriving DecidableEq, Repr

/-! ### RLP (15) -/

/-- A frame the device sent, and when and how often (R395). -/
structure Sent where
  frame : Frame
  at_ : Nat
  times : Nat := 1
  deriving DecidableEq, Repr

/-- A session (R390, R395). -/
structure Session where
  port : Nat
  src : Nat
  ctx : Nat
  key : BitVec 64
  ver : Nat
  window : Nat
  inSeq : Nat := 0
  held : List Frame := []
  outSeq : Nat := 0
  unacked : List Sent := []
  queued : List Frame := []
  /-- Since when a received frame is unacknowledged; when the last valid frame came. -/
  ackDue : Option Nat := none
  heard : Nat := 0
  deriving DecidableEq, Repr

/-! ### Dies and cores -/

/-- Die registers and errors (Tables 9-5, 9-6, 12-6, 14-9, 16-7, 16-8, 16-11). -/
structure Die where
  rways : Nat := 2
  refcal : Nat := 0
  pavaneEn : Bool := true
  ringpool : Nat := 32
  /-- The n that each input port, clockwise and counterclockwise, had when RINGPOOL was last written (R374). -/
  poolWas : Nat × Nat := (32, 32)
  errcnt : DWord := 0
  errlog : DWord := 0
  mcheck : Bool := false
  /-- It is in recovery; its boot ROM has run since its reset (R393). -/
  recovery : Bool := false
  booted : Bool := false
  resetAt : Nat := 0
  ticket : Nat := 0
  /-- Die 0's: the package sequencer's count (R14, R261). -/
  pkgTicket : Nat := 0
  drops : Nat := 0
  lost : Nat := 0
  /-- EVENT payloads kept while no session is open (R397): context and payload. -/
  kept : List (Nat × List Byte) := []
  /-- Queue headers that CONTs of resident launches have named: (launch, VA) (R361). -/
  resumeQueues : List (Nat × Nat) := []
  deriving DecidableEq, Repr

/-- A translation that a TLB holds (R387): bytes base to base + len − 1 of a context lie at base + off onwards; attr as in Table 15-3
(bits r, w, x, prom). `tlb` is a core, or die·64 + 63 for the die's; `page`: it came from a page table, not from a range entry. -/
structure TlbEntry where
  tlb : Nat
  ctx : Nat
  page : Bool
  base : Nat
  len : Nat
  off : Int
  attr : Nat
  deriving DecidableEq, Repr

/-- Core state shared by its groups (R229, R230, R281, R321). Rising keys: L1 lines by physical line. -/
structure Core where
  ways : Nat := 0
  l1 : List (Nat × L1Line) := []
  /-- Record cache: (context, VA) to the cached bytes (R281). -/
  records : List (Nat × Nat × List Byte) := []
  /-- Next turn position of a pavane block: half·8 + track (R321), and turns completed (R340). -/
  turn : Nat := 0
  turns : Nat := 0
  deriving DecidableEq, Repr

/-- A control core's handler: whether one runs, for the trap of which group place if of one, and the offset a machine check
interrupted (R402, R413). -/
structure Handler where
  running : Bool := false
  now : Option Nat := none
  interrupted : Option Nat := none
  queue : List TrapEntry := []
  regs : TrapRegs := {}
  deriving DecidableEq, Repr

/-! ### The instruction being issued (the model's own; log 1) -/

/-- How exec left the instruction being issued. -/
inductive Issued where
  | done
  | stalled
  | trapped (t : Trap)
  deriving DecidableEq, Repr

/-- The group and the plane whose copy is being issued. `whole` is set for a control point's single issue; `copies` are
the slots of the other occupied planes then. `par` are the parameter words P0 to P3 of an inline form. `view` is the group
before the pair, for the lane member's reads (R24). `off` is the instruction's own offset. `moved`: the threads that a lower
plane's PLN of this issue moved, whose copy has run (R36, R337). -/
structure Issue where
  g : Nat := 0
  plane : Nat := 0
  whole : Bool := false
  off : Nat := 0
  copies : List (Nat × Slot) := []
  par : Option (List Slot) := none
  view : Option Group := none
  moved : Mask := 0
  out : Issued := .done
  deriving DecidableEq, Repr

/-- An error of a storage array or of HBM (R235, R409, R410): corrected, counted in a field of ERRCNT (0 core, 1 l2, 2 hbm); or
uncorrectable, in a memory line (`src` as in Table 16-8: 1 HBM, 2 L2, 3 weight store), a group's vector or uniform register, a
block's scratchpad word, a word of a core's L1 line, or an element of a block's tile; or any error of an entry of a core's record
cache. -/
inductive ErrorAt where
  | corrected (die field : Nat)
  | line (line src : Nat)
  | vector (g key : Nat)
  | uniform (g key : Nat)
  | scratch (block word : Nat)
  | l1 (core line word : Nat)
  | acc (block tile elem : Nat)
  | record (core entry : Nat)
  deriving DecidableEq, Repr

/-- What moves next (the model's own; log 1): a group's issue, an event of another agent, time passing, the L1's own eviction
of a line, a TLB taking or dropping an entry (R387), a quadrille's firmware forwarding the trap it handles (R384, R404) or finishing
the assist it runs (R161), a die's machine check told to a region (R413), an error (R409), a matrix operation's fetch of one row
of its operands (R164), or a control core's context switch on its die, with its own bound in ns (R317). -/
inductive Act where
  | issue (g : Nat)
  | event (i : Instr)
  | tick (n : Nat)
  | evict (core line : Nat)
  | forward (quad : Nat)
  | tlbFill (tlb ctx va : Nat)
  | tlbDrop (i : Nat)
  | tell (die ctx region : Nat)
  | error (e : ErrorAt)
  | assist (quad : Nat)
  | fetch (op row : Nat)
  | look (query : Nat)
  | boot (die : Nat)
  | switch (die ctx bound : Nat)
  deriving DecidableEq, Repr

/-- The whole machine. Maps are sparse (Sparse.lean). -/
structure State where
  /-- FEAT.part: 0 EMY-D48, 1 EMY-P768, 2 EMY-M768 (fixed). -/
  part : Nat := 1
  /-- Dies present (R234). -/
  present : Nat := 0xFFFF
  clock : Nat := 0
  /-- HBM by physical address below 2^41; die d's weight store from 2^42 + d·2^29. -/
  mem : Memory := []
  poison : List (Nat × Bool) := []
  /-- The TLBs of the cores and the dies, oldest entry first (R387). -/
  tlb : List TlbEntry := []
  /-- Replicas: key line·16 + die (R236); a listed key is also the directory's bit. -/
  replicas : List (Nat × Replica) := []
  posted : List (Nat × PostedWrite) := []
  dies : List (Nat × Die) := []
  cores : List (Nat × Core) := []
  handlers : List (Nat × Handler) := []
  groups : List (Nat × Group) := []
  blocks : List (Nat × Block) := []
  launches : List (Nat × Launch) := []
  nextUid : Nat := 1
  nextBlock : Nat := 0
  nextSerial : Nat := 0
  loads : List (Nat × Load) := []
  oplog : List LogEntry := []
  welts : List (Nat × Welt) := []
  redParks : List RedPark := []
  ringParks : List RingPark := []
  sigParks : List SigPark := []
  waiters : List (Nat × Waiter) := []
  copies : List (Nat × Copy) := []
  matOps : List (Nat × MatOp) := []
  queries : List (Nat × Query) := []
  splits : List (Nat × Split) := []
  spawns : List (Nat × SpawnGroup) := []
  conts : List (Nat × Cont) := []
  walks : List (Nat × Walk) := []
  paths : List (Nat × Path) := []
  /-- Ports by (ctx·16 + die)·64 + port. -/
  ports : List (Nat × Port) := []
  packets : List (Nat × Packet) := []
  stages : List (Nat × Stage) := []
  sessions : List (Nat × Session) := []
  outbox : List (Nat × Frame) := []
  /-- Dropped frames by port (R395). -/
  frameDrops : List (Nat × Nat) := []
  keys : List (Nat × BitVec 64) := []
  ctxTab : Nat := 0
  savePool : Nat × Nat := (0, 0)
  udpPort : Nat := 47120
  /-- Measurement registers (R393). -/
  measure : List (Nat × BitVec 384) := []
  /-- Firmware of the control cores: base physical address (log 11). -/
  fwBase : Nat := 0
  powerThrottle : Bool := false
  thermal : Bool := false
  /-- Throttled regions: (die, context, region) for the next window (R392). -/
  throttled : List (Nat × Nat × Nat) := []
  /-- The model's own: next free value (log 10), what moves next and the instruction being issued (log 1). -/
  free : Nat := 0
  agenda : List Act := []
  cur : Issue := {}
  deriving DecidableEq, Repr

/-- The machine right after reset (log 5, 6): every register at its reset value, nothing placed, nothing listed. -/
def State.reset : State := {}

end Sys2Proof.Machine
end

