-- ==== Sys2Proof/Machine/Ops.lean ====
section
/-! DEFINITION. Ops.lean: the named operations over the state: accessors, physical memory and translation (09, 15), regions,
taking a trap and ending a handler (16), events to the host, tracks (12). -/

namespace Sys2Proof.Machine

/-! ### The meaning monad: a meaning ends in a next state, in a trap with no other effect, in a stall (the instruction waits
and issues again), or does not apply (an event that is not enabled) -/

inductive Stop where
  | trap (t : Trap)
  | stall
  | idle
  deriving DecidableEq, Repr

abbrev M := StateT State (Except Stop)

def trapM {α : Type} (t : Trap) : M α := throw (.trap t)
def stallM {α : Type} : M α := throw .stall
def idleM {α : Type} : M α := throw .idle
/-- Trap unless the condition holds. -/
def need (b : Bool) (t : Trap) : M Unit := if b then pure () else trapM t
/-- A trap of m keeps the count of n lines corrected before it (R49). -/
def keepCount (n : Nat) (m : M Unit) : M Unit := fun s =>
  match m s with
  | .error (.trap t) => .error (.trap { t with ecc := t.ecc + n })
  | r => r
/-- The event is enabled only if the condition holds. -/
def onlyIf (b : Bool) : M Unit := if b then pure () else idleM
def upd (f : State → State) : M Unit := modify f

/-! ### Names -/

def coreDie (ck : Nat) : Nat := ck / 64 % 16
def coreIdx (ck : Nat) : Nat := ck % 64
def placeCore (g : Nat) : Nat := g / 64
def placeSlot (g : Nat) : Nat := g % 64
def isControlCore (ck : Nat) : Bool := 48 ≤ ck % 64
def isControl (g : Nat) : Bool := isControlCore (placeCore g)
/-- The quadrille (die·12 + QUAD) of a core or control core (R15, R16). -/
def quadOf (ck : Nat) : Nat :=
  coreDie ck * 12 + (if isControlCore ck then coreIdx ck - 48 else coreIdx ck / 4)
/-- The place of a quadrille's control core. -/
def controlPlace (quad : Nat) : Nat := (quad / 12 * 64 + 48 + quad % 12) * 64
/-- The half of a group (R25). -/
def halfOf (g : Group) : Nat := g.gidx % 2

/-! ### Accessors -/

/-- A control core's group: one resident thread, .regs 256, .uregs 64, one plane (R402); it belongs to no block. -/
def controlGroup : Group := { block := 2 ^ 64, live := 1, resident := 1, halt := true }

def State.grp (s : State) (g : Nat) : Group :=
  (spFind s.groups g).getD (if isControl g then controlGroup else {})
def State.setGrp (s : State) (g : Nat) (x : Group) : State := { s with groups := spPut s.groups g x }
def State.updGrp (s : State) (g : Nat) (f : Group → Group) : State := s.setGrp g (f (s.grp g))
def State.hasGrp (s : State) (g : Nat) : Bool := isControl g || (spFind s.groups g).isSome
/-- The group of a place is still the one named by its uid. -/
def State.sameGrp (s : State) (g uid : Nat) : Bool := s.hasGrp g && (s.grp g).uid = uid
def State.blk (s : State) (b : Nat) : Block := (spFind s.blocks b).getD {}
def State.setBlk (s : State) (b : Nat) (x : Block) : State := { s with blocks := spPut s.blocks b x }
def State.updBlk (s : State) (b : Nat) (f : Block → Block) : State := s.setBlk b (f (s.blk b))
def State.lch (s : State) (l : Nat) : Launch := (spFind s.launches l).getD {}
def State.updLch (s : State) (l : Nat) (f : Launch → Launch) : State :=
  { s with launches := spPut s.launches l (f (s.lch l)) }
def State.die (s : State) (d : Nat) : Die := (spFind s.dies d).getD {}
def State.updDie (s : State) (d : Nat) (f : Die → Die) : State := { s with dies := spPut s.dies d (f (s.die d)) }
def State.core (s : State) (c : Nat) : Core := (spFind s.cores c).getD {}
def State.updCore (s : State) (c : Nat) (f : Core → Core) : State := { s with cores := spPut s.cores c (f (s.core c)) }
def State.handler (s : State) (q : Nat) : Handler := (spFind s.handlers q).getD {}
def State.updHandler (s : State) (q : Nat) (f : Handler → Handler) : State :=
  { s with handlers := spPut s.handlers q (f (s.handler q)) }
/-- The places of a block's groups, ascending. -/
def State.groupsOf (s : State) (b : Nat) : List Nat :=
  (s.groups.filter fun e => !isControl e.1 && e.2.block = b).map (·.1)
def State.blockLaunch (s : State) (b : Nat) : Launch := s.lch (s.blk b).launch
/-- The block, launch, context and region of a group place. -/
def State.grpBlk (s : State) (g : Nat) : Block := s.blk (s.grp g).block
def State.grpLch (s : State) (g : Nat) : Launch := s.lch (s.grpBlk g).launch
def State.ctxOf (s : State) (g : Nat) : Nat := if isControl g then 0 else (s.grpLch g).ctx
def Launch.region (l : Launch) : Nat := l.lr.region
def Launch.flag (l : Launch) (i : Nat) : Bool := l.lr.flags.testBit i
def Launch.pavane (l : Launch) : Bool := l.flag 2
def LaunchRec.nblk (r : LaunchRec) : Nat := r.gx * r.gy * r.gz
/-- The group being issued, and the group whose registers its reads see (R24). -/
def State.me (s : State) : Group := s.grp s.cur.g
def State.seen (s : State) : Group := s.cur.view.getD s.me
def State.updMe (s : State) (f : Group → Group) : State := s.updGrp s.cur.g f
/-- A fresh value, whatever it is (log 10), and the state with its counter advanced. -/
def State.fresh (s : State) : Nat × State := (Config.freeValue s.free, { s with free := s.free + 1 })
/-- RDTIME of a die in ns (R417). -/
def State.timeOf (s : State) (d : Nat) : Nat := s.clock / 4 + Config.timeSkew d % 21

/-! ### Dies -/

/-- Die d is part of the machine: all sixteen, or die 0 alone on an EMY-D48 (R1, R234). -/
def diePresent (s : State) (d : Nat) : Bool := d < 16 && s.present.testBit d && (s.part ≠ 0 || d = 0)
/-- The die is present and not under machine check (Table 16-11). -/
def dieServes (s : State) (d : Nat) : Bool := diePresent s d && !(s.die d).mcheck
/-- The die runs programs: it serves, and its firmware has verified (R16, R393). -/
def dieRuns (s : State) (d : Nat) : Bool := dieServes s d && !(s.die d).recovery
def allDies (s : State) : List Nat := (List.range 16).filter (diePresent s)
/-- FEAT (Table 16-11). -/
def featOf (s : State) : Nat :=
  1 + 2 ^ 16 + 2 ^ 24 + s.part % 16 * 2 ^ 40 + sumNat (((List.range 16).filter (dieServes s)).map fun d => 2 ^ (48 + d))

/-! ### Physical memory (R234 to R238) -/

def lineOf (a : Nat) : Nat := a / 128
/-- The weight store byte x of die d in the model's one address space. -/
def wsAddr (d x : Nat) : Nat := 2 ^ 42 + d * 2 ^ 29 + x
/-- The home die of a physical address (R234) or of a weight-store byte. -/
def homeDie (pa : Nat) : Nat := if pa < 2 ^ 42 then pa / 2 ^ 37 % 16 else (pa - 2 ^ 42) / 2 ^ 29 % 16
/-- The slice of a line within its home die (R234). -/
def sliceOf (pa : Nat) : Nat :=
  let l := pa % 2 ^ 37 / 128
  (List.range 6).foldl (fun h i => h ^^^ (l / 2 ^ (5 * i) % 32)) 0
/-- A slice's name: die·32 + slice. -/
def sliceKey (pa : Nat) : Nat := homeDie pa * 32 + sliceOf pa
/-- The address names memory (R234). -/
def namesMemory (s : State) (pa : Nat) : Bool :=
  pa < 2 ^ 41 && pa % 2 ^ 37 < 0x1800000000 && (s.part ≠ 0 || pa / 2 ^ 37 = 0)
/-- The bytes of an address range, no entry of the welt table applied. -/
def rawBytes (s : State) (pa n : Nat) : List Byte := memBytes s.mem pa n
def rawNat (s : State) (pa n : Nat) : Nat := bytesNat (rawBytes s pa n)
/-- Reading a line of a die under machine check, or a poisoned line, returns poison (R235, R411, R413). -/
def linePoisoned (s : State) (line : Nat) : Bool :=
  spGet false s.poison line || !dieServes s (homeDie (line * 128))
def rangePoisoned (s : State) (pa n : Nat) : Bool :=
  (List.range ((pa + n - 1) / 128 - pa / 128 + 1)).any fun i => linePoisoned s (pa / 128 + i)

/-- The word a welt entry reads as: its exact sum rounded once (R105). -/
def Welt.bits (w : Welt) : Nat :=
  let f := fmtOf (if w.f64 then 11 else 10)
  if w.tag = 3 then f.nan else if w.tag = 1 then f.inf else if w.tag = 2 then f.inf + f.signBit
  else if w.sum = 0 then (if w.negZero then f.signBit else 0)
  else (roundTo f 1 (.fin ⟨w.sum, 2 ^ 1074⟩)).1
def Welt.size (w : Welt) : Nat := if w.f64 then 8 else 4
/-- Entries that touch a byte of the range. -/
def weltsIn (s : State) (pa n : Nat) : List (Nat × Welt) :=
  s.welts.filter fun e => e.1 < pa + n && pa < e.1 + e.2.size
/-- Write the entries that touch the range back to their words and free them (R264). -/
def flushWelts (s : State) (pa n : Nat) : State :=
  (weltsIn s pa n).foldl (fun s e =>
    { s with mem := memPut s.mem e.1 (natBytes e.2.size e.2.bits), welts := spDel s.welts e.1 }) s
/-- The bytes a read at the home returns: entries read rounded (R264). -/
def homeBytes (s : State) (pa n : Nat) : List Byte :=
  memBytes ((weltsIn s pa n).foldl (fun m e => memPut m e.1 (natBytes e.2.size e.2.bits)) s.mem) pa n
def homeNat (s : State) (pa n : Nat) : Nat := bytesNat (homeBytes s pa n)

/-- The dies that hold a replica of a line: the directory's vector (R236). -/
def replicaDies (s : State) (line : Nat) : List Nat := (s.replicas.filter fun e => e.1 / 16 = line).map fun e => e.1 % 16
/-- Drop every replica of a line (R237). -/
def dropReplicas (s : State) (line : Nat) : State :=
  { s with replicas := s.replicas.filter fun e => e.1 / 16 ≠ line }
/-- Watches of continuations on bytes just written: a watch whose word now differs is released, and leaves its slice's waiter
table (R352, R361, wk 3). -/
def touchWatches (s : State) (pa n : Nat) : State :=
  let hit (c : Cont) : Bool := c.wk = 3 && c.waddr < pa + n && pa < c.waddr + 8 && rawNat s c.waddr 8 ≠ c.wval
  { s with
    waiters := s.waiters.filter fun e => match e.2.what with
      | .watch k => !(match spFind s.conts k with | some c => hit c | none => false)
      | _ => true
    conts := s.conts.map fun e => if hit e.2 then (e.1, { e.2 with wk := 0 }) else e }
/-- Write bytes at the home slice, and drop the replicas (R236, R237, R264); on a die that does not serve the write is dropped
and counted (R413). A line written whole loses its poison (R410). -/
def homeWrite (s : State) (pa : Nat) (bs : List Byte) : State :=
  if !dieServes s (homeDie pa) then s.updDie (homeDie pa) fun d => { d with drops := d.drops + 1 }
  else
    let s := flushWelts s pa bs.length
    let s := { s with mem := memPut s.mem pa bs }
    let s := dropReplicas s (lineOf pa)
    let s := if pa % 128 = 0 && bs.length = 128 then { s with poison := spDel s.poison (lineOf pa) } else s
    touchWatches s pa bs.length
/-- As homeWrite, for a core's own operation at the home: the invalidations it sends are outstanding (R237). -/
def homeWriteBy (s : State) (ck pa : Nat) (bs : List Byte) : State :=
  let line := lineOf pa
  let old := s.replicas.filter fun e => e.1 / 16 = line
  let t := homeWrite s pa bs
  if old = [] || !dieServes s (homeDie pa) then t
  else
    let w : PostedWrite := { core := ck, line := line, mask := 0, data := 0, written := true, invs := old.map fun e => e.1 % 16 }
    { t with replicas := old.foldl (fun m e => spPut m e.1 e.2) t.replicas, posted := t.posted ++ [(spFresh t.posted, w)] }
def homeWriteNat (s : State) (pa n x : Nat) : State := homeWrite s pa (natBytes n x)

/-! ### Contexts, regions, translation (15) -/

/-- Address of a context's table entry (R381). -/
def ctxEntry (s : State) (c : Nat) : Nat := s.ctxTab + 64 * c
/-- The entry is valid and keeps Table 15-1. -/
def ctxValid (s : State) (c : Nat) : Bool :=
  let e := ctxEntry s c
  let n := rawNat s (e + 4) 2
  c < 4096 && rawNat s e 4 = 1 && n ≤ 32 && 1 ≤ rawNat s (e + 6) 2 && rawNat s (e + 8) 8 % 8192 = 0
  && rawNat s (e + 16) 8 % 64 = 0 && (n ≠ 0 || rawNat s (e + 16) 8 = 0) && rawNat s (e + 24) 8 % 4096 = 0
  && rawNat s (e + 32) 8 % 4096 = 0 && rawNat s (e + 40) 8 % 4096 = 0 && rawNat s (e + 48) 8 % 256 = 0
  && rawNat s (e + 56) 8 = 0

/-- What a translation gives: a physical address with the PROM mark, or a cause. -/
inductive Xlat where
  | ok (pa : Nat) (prom : Bool)
  | bad (cause : Nat)
  deriving DecidableEq, Repr

def cPage : Nat := 0x09
def cProt : Nat := 0x0A
def cPoison : Nat := 0x17

/-- Permissions an access needs. -/
structure Need where
  r : Bool := false
  w : Bool := false
  x : Bool := false
  deriving DecidableEq, Repr

def needR : Need := { r := true }
def needW : Need := { w := true }
def needRW : Need := { r := true, w := true }
def needX : Need := { x := true }

def permOk (n : Need) (attr : Nat) : Bool :=
  (!n.r || attr.testBit 0) && (!n.w || attr.testBit 1) && (!n.x || attr.testBit 2)
/-- Check that a physical address names memory (R385). -/
def xlatTo (s : State) (pa : Int) (prom : Bool) : Xlat :=
  if 0 ≤ pa && namesMemory s pa.toNat then .ok pa.toNat prom else .bad cProt

/-- A mapping of bytes base to base + len − 1: its offset, and its attributes (bits r, w, x, prom). -/
structure Mapping where
  base : Nat
  len : Nat
  off : Int
  attr : Nat
  deriving DecidableEq, Repr
/-- An access through a mapping: its permissions, then the address. -/
def Mapping.use (m : Mapping) (s : State) (n : Need) (va : Nat) : Xlat :=
  if m.attr ≥ 16 || !permOk n m.attr then .bad cProt else xlatTo s ((va : Int) + m.off) (m.attr.testBit 3)

/-- The page table walk from a table at `t` for level `lv` counted down to 1 (R386): `sh` is the level's low VA bit. -/
def walkPages (s : State) (va : Nat) : Nat → Nat → Except Nat Mapping
  | 0, _ => .error cProt
  | lv + 1, t =>
    let sh := 12 + 10 * lv
    let ea := t + 8 * (va / 2 ^ sh % 1024)
    if linePoisoned s (lineOf ea) then .error cPoison
    else
      let e := rawNat s ea 8
      let addr := natBits e 47 12 * 4096
      if !e.testBit 0 then .error cPage
      else if natBits e 11 6 ≠ 0 || natBits e 63 48 ≠ 0 then .error cProt
      else if e.testBit 4 then
        (if lv = 3 || addr % 2 ^ sh ≠ 0 then .error cProt
         else .ok { base := va / 2 ^ sh * 2 ^ sh, len := 2 ^ sh, off := (addr : Int) - (va / 2 ^ sh * 2 ^ sh : Nat),
                    attr := natBits e 3 1 + if e.testBit 5 then 8 else 0 })
      else if lv = 0 || addr % 8192 ≠ 0 then .error cProt
      else walkPages s va lv addr

/-- The range entries of a context, in order (R385); the attribute's zero bits and bytes count as attributes that no access may use. -/
def rangesOf (s : State) (c : Nat) : List Mapping :=
  let e := ctxEntry s c
  (List.range (min 32 (rawNat s (e + 4) 2))).map fun i =>
    let a := rawNat s (e + 16) 8 + 32 * i
    { base := rawNat s a 8, len := rawNat s (a + 8) 8, off := signedNat 64 (rawNat s (a + 16) 8), attr := rawNat s (a + 24) 8 }
def Mapping.holds (va : Nat) (m : Mapping) : Bool := m.base ≤ va && va < m.base + m.len
/-- The first valid range entry that holds the VA (R385). -/
def rangeOf (s : State) (c va : Nat) : Option Mapping := (rangesOf s c).find? (·.holds va)
/-- The part of a mapping around an address that lies outside other mappings. -/
def Mapping.clip (va : Nat) (m : Mapping) (out : List Mapping) : Mapping :=
  let lo := out.foldl (fun b r => if r.base + r.len ≤ va && 0 < r.len then max b (r.base + r.len) else b) m.base
  let hi := out.foldl (fun e r => if va < r.base && 0 < r.len then min e r.base else e) (m.base + m.len)
  { m with base := lo, len := hi - lo }
def pageOf (s : State) (c va : Nat) : Except Nat Mapping := walkPages s va 4 (rawNat s (ctxEntry s c + 8) 8)

/-- The TLB of a die. -/
def dieTlb (d : Nat) : Nat := d * 64 + 63
/-- What a TLB holds for an address. -/
def tlbFind (s : State) (tlb c va : Nat) (page : Bool) : Option Mapping :=
  (s.tlb.find? fun e => e.tlb = tlb && e.ctx = c && e.page == page && e.base ≤ va && va < e.base + e.len).map fun e =>
    { base := e.base, len := e.len, off := e.off, attr := e.attr }
/-- What a core's TLBs hold for an address: ranges, then pages, then the die's pages (R387). -/
def tlbOf (s : State) (ck c va : Nat) : Option Mapping :=
  (tlbFind s ck c va false).or ((tlbFind s ck c va true).or (tlbFind s (dieTlb (coreDie ck)) c va true))
/-- Translation of a gl virtual address (R385), where `held` is what a TLB holds for it: the window, then a held mapping, then the
range entries, then the page table. -/
def translateVia (held : Option Mapping) (s : State) (c va : Nat) (n : Need) : Xlat :=
  if 2 ^ 52 ≤ va then .bad cProt
  else
    let e := ctxEntry s c
    let hb := rawNat s (e + 24) 8
    let hl := rawNat s (e + 32) 8
    if hb ≤ va && va < hb + hl then
      (if n.x then .bad cProt else xlatTo s ((va : Int) + signedNat 64 (rawNat s (e + 40) 8)) false)
    else match held.or (rangeOf s c va) with
      | some m => m.use s n va
      | none => match pageOf s c va with
        | .ok m => m.use s n va
        | .error cause => .bad cause
/-- Translation by the tables in memory. -/
def translate (s : State) (c va : Nat) (n : Need) : Xlat := translateVia none s c va n
/-- Translation at a core, for a context; a control core's addresses are physical (log 11). -/
def translateAt (s : State) (ck c va : Nat) (n : Need) : Xlat :=
  if isControlCore ck then xlatTo s va false else translateVia (tlbOf s ck c va) s c va n
/-- Translation for a group place. -/
def translateFor (s : State) (g va : Nat) (n : Need) : Xlat := translateAt s (placeCore g) (s.ctxOf g) va n

/-- The most entries of a TLB: 32 ranges and 64 pages of a core, 4,096 pages of a die (R387). -/
def tlbRoom (tlb : Nat) (page : Bool) : Nat := if tlb % 64 = 63 then (if page then 4096 else 0) else if page then 64 else 32
/-- A TLB takes an entry, and drops its oldest beyond its room. -/
def tlbPut (s : State) (x : TlbEntry) : State :=
  let same (e : TlbEntry) : Bool := e.tlb = x.tlb && e.page == x.page
  let old := s.tlb.filter fun e => !(same e && e.ctx = x.ctx && e.base = x.base && e.len = x.len)
  let out := if (old.filter same).length < tlbRoom x.tlb x.page then none else old.findIdx? same
  { s with tlb := (match out with | some i => old.eraseIdx i | none => old) ++ [x] }
/-- A TLB takes the mapping of an address: a core's the die's page if that holds one, else what the tables give, as far as no
range entry that comes before it holds the addresses (R385); nothing where they give none (log 79). -/
def tlbFill (s : State) (tlb c va : Nat) : State :=
  let put (page : Bool) (m : Mapping) : State :=
    if tlbRoom tlb page = 0 then s
    else tlbPut s { tlb := tlb, ctx := c, page := page, base := m.base, len := m.len, off := m.off, attr := m.attr }
  match tlbFind s (dieTlb (coreDie tlb)) c va true with
  | some m => put true m
  | none =>
    let rs := rangesOf s c
    match rs.findIdx? (·.holds va) with
    | some i => put false ((rs.getD i { base := 0, len := 0, off := 0, attr := 0 }).clip va (rs.take i))
    | none => match pageOf s c va with
      | .ok m => put true (m.clip va rs)
      | .error _ => s
/-- The entries of a context that meet a range of addresses go, in every TLB (R387). -/
def tlbInval (s : State) (c va n : Nat) : State :=
  { s with tlb := s.tlb.filter fun e => !(e.ctx = c && e.base < va + n && va < e.base + e.len) }

def rcbAddr (s : State) (c r : Nat) : Nat := rawNat s (ctxEntry s c + 48) 8 + 256 * r
/-- The chain of a region from itself to the root as memory holds it, at most 8 long; none if it breaks R382. -/
def chainNow (s : State) (c : Nat) : Nat → Nat → Option (List Nat)
  | 0, _ => none
  | k + 1, r =>
    let p := rawNat s (rcbAddr s c r) 2
    if r = 0 then (if p = 0xFFFF then some [0] else none)
    else if p < r then (chainNow s c k p).map (r :: ·) else none
/-- An RCB keeps Table 15-2. -/
def rcbOk (s : State) (c r : Nat) : Bool :=
  let a := rcbAddr s c r
  let ovr := rawNat s (a + 2) 2
  let on (f : Nat) (b : Bool) : Bool := !ovr.testBit f || b
  ovr < 2 ^ 13 && on 0 (rawNat s (a + 4) 1 ≤ 7) && on 1 (rawNat s (a + 5) 1 ≤ 2) && on 3 (rawNat s (a + 8) 2 ≤ 48)
  && on 4 (rawNat s (a + 10) 2 ≤ 64) && on 7 (rawNat s (a + 24) 2 ≤ 1536)
  && on 8 (rawNat s (a + 26) 1 ≤ 63 && rawNat s (a + 26) 1 + rawNat s (a + 27) 1 ≤ 64)
  && on 9 (1 ≤ rawNat s (a + 28) 1 && rawNat s (a + 28) 1 ≤ 100) && rawNat s (a + 29) 3 = 0
  && on 12 (rawNat s (a + 40) 8 % 320 = 0 && rawNat s (a + 48) 8 % 320 = 0) && rawNat s (a + 56) 200 = 0
/-- Apply an RCB's overriding fields to the inherited ones. -/
def Region.over (p : Region) (s : State) (a : Nat) : Region :=
  let ovr := rawNat s (a + 2) 2
  let f (i old off n : Nat) : Nat := if ovr.testBit i then rawNat s (a + off) n else old
  { prio := f 0 p.prio 4 1, policy := f 1 p.policy 5 1, dmask := f 2 p.dmask 6 2, cores := f 3 p.cores 8 2,
    spawn := f 4 p.spawn 10 2, groups := f 5 p.groups 12 4, sp := f 6 p.sp 16 8, acc := f 7 p.acc 24 2,
    wsbase := f 8 p.wsbase 26 1, wsbanks := f 8 p.wsbanks 27 1, hbm := f 9 p.hbm 28 1, bound := f 10 p.bound 32 4,
    power := f 11 p.power 36 4, spill := f 12 p.spill 40 8, spillsz := f 12 p.spillsz 48 8 }
/-- The effective fields of a region as memory holds them; the defaults where its chain is broken. -/
def regionNow (s : State) (c r : Nat) : Region :=
  match chainNow s c 8 r with
  | some ch => ch.reverse.foldl (fun p i => p.over s (rcbAddr s c i)) {}
  | none => {}
/-- The chain of a region with the effective fields: while a launch of its subtree is active, as the latest admission of the context
read them (R383). -/
def regionPath (s : State) (c r : Nat) : Option (List (Nat × Region)) :=
  match s.launches.findSome? fun e =>
      if e.2.ctx = c && (e.2.state = .running || e.2.state = .queued) && e.2.chain.any (·.1 = r) then some e.2.chain else none with
  | some ch => some (ch.dropWhile (·.1 ≠ r))
  | none => (chainNow s c 8 r).map fun ch => ch.map fun t => (t, regionNow s c t)
/-- The chain of a region from itself to the root; none if it breaks R382. -/
def regionChain (s : State) (c r : Nat) : Option (List Nat) := (regionPath s c r).map fun ch => ch.map (·.1)
/-- The effective fields of a region; the defaults where its chain is broken. -/
def regionOf (s : State) (c r : Nat) : Region := (((regionPath s c r).getD []).head?.map (·.2)).getD {}
/-- An admission in a context: its active launches, and the one admitted, take the regions' fields as they now stand (R383). -/
def latchRegions (s : State) (c l : Nat) : State :=
  { s with launches := s.launches.map fun e =>
      if e.2.ctx = c && (e.2.chain ≠ [] || e.1 = l) then
        match chainNow s c 8 e.2.lr.region with
        | some ch => (e.1, { e.2 with chain := ch.map fun t => (t, regionNow s c t) })
        | none => e
      else e }
/-- Region r lies in the subtree of region t. -/
def inSubtree (s : State) (c t r : Nat) : Bool :=
  match regionChain s c r with
  | some ch => ch.contains t
  | none => false
def Launch.reg (s : State) (l : Launch) : Region := regionOf s l.ctx l.region

/-- The weight-store window of a group: base and length in bytes on its die (R238, R382). -/
def wsWindow (s : State) (g : Nat) : Nat × Nat :=
  if isControl g then (0, 2 ^ 29)
  else
    let r := Launch.reg s (s.grpLch g)
    (r.wsbase * 2 ^ 23, r.wsbanks * 2 ^ 23)

/-! ### Tracks (R20, R27, R315) -/

/-- End the group's line execution: every latch becomes invalid (R33). -/
def endLine (x : Group) : Group := { x with line := none, images := [], others := [], latOk := [], lat := [] }

/-- A pending group that may take a track. -/
def readyPending (x : Group) : Bool := x.track.isNone && !x.halt && x.wait = .none
/-- The better of two ready groups by R315: passed over 64 swaps, oldest first; else priority, then longest ready. -/
def betterReady (a b : Group) : Bool :=
  if 64 ≤ a.passed || 64 ≤ b.passed then
    (if 64 ≤ a.passed && 64 ≤ b.passed then a.readyAt ≤ b.readyAt else 64 ≤ a.passed)
  else b.prio < a.prio || (a.prio = b.prio && a.readyAt ≤ b.readyAt)
/-- The best of a half's ready pending groups, leaving out those for which `skip` holds. -/
def pickReady (s : State) (core half : Nat) (skip : Nat → Bool) : Option Nat :=
  s.groups.foldl (fun best e =>
    if placeCore e.1 = core && !isControl e.1 && halfOf e.2 = half && readyPending e.2 && !skip e.1 then
      match best with
      | some b => if betterReady (s.grp b) e.2 then some b else some e.1
      | none => some e.1
    else best) none
def trackUsed (s : State) (core half t : Nat) : Bool :=
  s.groups.any fun e => placeCore e.1 = core && !isControl e.1 && halfOf e.2 = half && e.2.track = some t
def freeTrack (s : State) (core half : Nat) : Option Nat := (List.range 8).find? fun t => !trackUsed s core half t
/-- Give place g the track t; every other ready pending group of the half is passed over once more when `swap` (R315). -/
def takeTrack (s : State) (core half t g : Nat) (swap : Bool) : State :=
  { s with groups := s.groups.map fun e =>
      if e.1 = g then (e.1, { e.2 with track := some t, tenure := 0, passed := 0 })
      else if swap && placeCore e.1 = core && !isControl e.1 && halfOf e.2 = half && readyPending e.2 then
        (e.1, { e.2 with passed := e.2.passed + 1 })
      else e }
/-- Fill the free tracks of a half from its ready pending groups. -/
def fillTracks (s : State) (core half : Nat) : Nat → State
  | 0 => s
  | k + 1 =>
    match freeTrack s core half, pickReady s core half (fun _ => false) with
    | some t, some g => fillTracks (takeTrack s core half t g true) core half k
    | _, _ => s
/-- Fill both halves of a core. -/
def fillCore (s : State) (core : Nat) : State := fillTracks (fillTracks s core 0 8) core 1 8
def State.grpPavane (s : State) (g : Nat) : Bool := !isControl g && (s.grpLch g).pavane
/-- The group leaves its track and the track is given on. A pavane group keeps its track (R321), and its line execution goes on
(R33). -/
def leaveTrack (s : State) (g : Nat) : State :=
  if isControl g then s.updGrp g endLine
  else if s.grpPavane g then s
  else fillCore (s.updGrp g fun x => { endLine x with track := none }) (placeCore g)
/-- The group meets a blocking event (R27). -/
def blockOn (s : State) (g : Nat) (w : Wait) : State := leaveTrack (s.updGrp g fun x => { x with wait := w }) g
/-- The group's blocking event is over: it is ready (R315). -/
def makeReady (s : State) (g : Nat) : State :=
  fillCore (s.updGrp g fun x => { x with wait := .none, readyAt := s.clock }) (placeCore g)

/-! ### EVENT frames (R397) -/

/-- An EVENT payload (Table 15-10). -/
structure EventRec where
  ev : Nat
  cause : Nat := 0
  policy : Nat := 0xFF
  ctx : Nat := 0
  region : Nat := 0
  die : Nat := 0
  quad : Nat := 0xFF
  regs : TrapRegs := {}
  aux : Nat := 0
  deriving DecidableEq, Repr

def EventRec.bytes (e : EventRec) (time : Nat) : List Byte :=
  natBytes 2 e.ev ++ natBytes 1 e.cause ++ natBytes 1 e.policy ++ natBytes 2 e.ctx ++ natBytes 2 e.region
  ++ natBytes 1 e.die ++ natBytes 1 e.quad ++ natBytes 6 0 ++ natBytes 8 e.regs.tgroup.toNat ++ natBytes 8 e.regs.tpc.toNat
  ++ natBytes 8 e.regs.taddr.toNat ++ natBytes 8 e.regs.trec.toNat ++ natBytes 8 e.regs.tprog.toNat
  ++ natBytes 8 e.regs.ttok.toNat ++ natBytes 8 time ++ natBytes 8 e.aux

/-- Send frames of a session while its window is open: at most 64 (or the window granted) unacknowledged, none
above the latest in-order acknowledgement plus 64 (R395). -/
def pumpSession (clock : Nat) (sid : Nat) : Nat → Session → List (Nat × Frame) → Session × List (Nat × Frame)
  | 0, x, out => (x, out)
  | k + 1, x, out =>
    match x.queued with
    | [] => (x, out)
    | f :: rest =>
      let ahead : Bool := match x.unacked with | [] => true | u :: _ => x.outSeq + 1 ≤ u.frame.seq.toNat + 63
      if x.unacked.length < min 64 x.window && ahead then
        let seq := x.outSeq + 1
        let f := { f with seq := BitVec.ofNat 32 seq, ackb := BitVec.ofNat 32 x.inSeq,
                          ackm := BitVec.ofNat 64 (sumNat (x.held.map fun h => 2 ^ (h.seq.toNat - x.inSeq - 1))) }
        pumpSession clock sid k { x with queued := rest, outSeq := seq, ackDue := none,
                                          unacked := x.unacked ++ [{ frame := f, at_ := clock }] }
          (out ++ [(sid, f)])
      else (x, out)
/-- Queue a frame on a session and send what the window allows. -/
def sendOn (s : State) (sid kind flags : Nat) (payload : List Byte) : State :=
  match spFind s.sessions sid with
  | none => s
  | some x =>
    let f : Frame := {
      port := x.port, src := x.src, magic := 0xA55E, ver := BitVec.ofNat 8 x.ver, kind := BitVec.ofNat 8 kind,
      flags := BitVec.ofNat 16 flags, len := BitVec.ofNat 16 payload.length, sid := BitVec.ofNat 32 sid, seq := 0, key := x.key,
      ackb := 0, zero := 0, ackm := 0, payload := payload }
    let r := pumpSession s.clock sid 64 { x with queued := x.queued ++ [f] } s.outbox
    { s with sessions := spPut s.sessions sid r.1, outbox := r.2 }
/-- An EVENT frame is queued for every session that may have it, or kept (R397); the release before it is `report`'s. -/
def sendEvent (s : State) (e : EventRec) : State :=
  let pl := e.bytes (s.timeOf e.die)
  let dests := (s.sessions.filter fun x => x.2.ctx = e.ctx || x.2.ctx = 0).map (·.1)
  if dests = [] then
    s.updDie e.die fun d =>
      if d.kept.length < 256 then { d with kept := d.kept ++ [(e.ctx, pl)] }
      else { d with kept := d.kept.drop 1 ++ [(e.ctx, pl)], lost := d.lost + 1 }
  else dests.foldl (fun s sid => sendOn s sid 6 0 pl) s

/-! ### Traps (16) -/

/-- A group's handle (Table 16-3). -/
def handleOf (s : State) (g : Nat) : Nat :=
  let x := s.grp g
  placeSlot g + placeCore g % 4 * 2 ^ 6 + x.gidx * 2 ^ 8 + s.ctxOf g * 2 ^ 12 + (s.blk x.block).bid * 2 ^ 32
/-- The plane of a thread. -/
def planeOf (x : Group) (t : Nat) : Nat := spGet 0 x.plane t
/-- TPC and TIPC words. -/
def pcWord (p : Nat × Nat) : Nat := p.1 % 2 ^ 27 + p.2 % 8 * 2 ^ 27
/-- The trap registers for a trap of a group at a given offset (Table 16-2). -/
def trapRegs (s : State) (g : Option Nat) (off : Nat) (t : Trap) : TrapRegs :=
  let x := (g.map s.grp).getD {}
  let pc := t.pc.getD (off, planeOf x (maskLow t.mask))
  { tcause := BitVec.ofNat 64 (t.cause + t.code * 2 ^ 8 + (if t.defer then 2 ^ 16 else 0) + (if t.wait then 2 ^ 17 else 0)
      + (if t.dom then 2 ^ 18 else 0)),
    tpc := BitVec.ofNat 64 (pcWord pc), taddr := BitVec.ofNat 64 t.addr, trec := BitVec.ofNat 64 t.rec_,
    tprog := BitVec.ofNat 64 t.prog, tmask := t.mask,
    tgroup := BitVec.ofNat 64 ((g.map (handleOf s)).getD 0), ttok := BitVec.ofNat 64 t.tok,
    tipc := BitVec.ofNat 64 (pcWord (t.ipc.getD pc)) }

/-- Enter a trap in a quadrille's trap queue (R402). -/
def queueTrap (s : State) (quad : Nat) (g : Option Nat) (r : TrapRegs) : State :=
  s.updHandler quad fun h => { h with queue := h.queue ++ [{ group := g, regs := r }] }

/-- Machine check of a die (R413): every group halts, every control core goes to the machine check handler, the handler it
interrupts keeping its trap registers and its offset in MCPC; what moves next is that every region with work on it is told. -/
def machineCheck (s : State) (d : Nat) : State :=
  if (s.die d).mcheck || !diePresent s d then s
  else
    let s := s.updDie d fun x => { x with mcheck := true }
    let s := (s.groups.filter fun e => coreDie (placeCore e.1) = d && !isControl e.1).foldl
      (fun s e => s.updGrp e.1 fun x => { endLine x with halt := true, cause := 0x1E, track := none }) s
    let s := ((List.range 12).map fun q => d * 12 + q).foldl (fun s q =>
      let pc := (s.grp (controlPlace q)).pc
      let s := s.updHandler q fun h =>
        if h.running then
          { h with interrupted := some pc, regs := { h.regs with mcpc := BitVec.ofNat 64 (pc % 2 ^ 27) } }
        else { h with running := true, regs := { tcause := 0x1E, tvec := h.regs.tvec, mcpc := h.regs.mcpc } }
      s.updGrp (controlPlace q) fun x =>
        { endLine x with halt := false, wait := .none, pc := (bitsNat (s.handler q).regs.tvec 26 0 + 5 * 0x1E) % 2 ^ 27 }) s
    let regs := ((s.blocks.filter fun b => b.2.die = d).map fun b =>
      ((s.lch b.2.launch).ctx, (s.lch b.2.launch).region)).dedup
    { s with agenda := (regs.map fun cr => Act.tell d cr.1 cr.2) ++ s.agenda }

/-- Halt a group by HALT or a fault policy (R384, R419). -/
def haltGroup (s : State) (g : Nat) : State :=
  let s := s.updGrp g fun x => { x with halt := true, byhalt := true }
  if s.grpPavane g then s.updGrp g endLine
  else fillCore (s.updGrp g fun x => { endLine x with track := none }) (placeCore g)

/-- A trap on a group (R400, R401): it halts and enters the queue; on a halted group it is kept pending; on a control core it is
a firmware fault. `off` is the offset TPC names unless the trap gives one. -/
def raiseAt (s : State) (g off : Nat) (t : Trap) : State :=
  if isControl g then machineCheck s (coreDie (placeCore g))
  else
    let x := s.grp g
    if x.halt then
      let bit := if t.cause = 0x17 then 1 else if t.cause = 0x13 then 2 else if t.cause = 0x12 then 4
        else if t.cause = 0x1B then 8 else if t.cause = 0x18 then 16 else 0
      s.updGrp g fun x => { x with pend := x.pend ||| bit, pendTraps := x.pendTraps ++ [t] }
    else
      let s := queueTrap s (quadOf (placeCore g)) (some g) (trapRegs s (some g) off t)
      let s := s.updGrp g fun x =>
        { endLine x with halt := true, byhalt := false, cause := t.cause, refused := if t.cause = 0x18 then none else x.refused }
      let s := match t.stage with
        | some j => { s with stages := s.stages.map fun e => if e.1 = j then (e.1, { e.2 with told := true }) else e }
        | none => s
      let s := if t.cause ≠ 0x12 then s else
        { s with copies := s.copies.map fun e =>
            if e.2.token = t.tok && e.2.g = g && e.2.uid = x.uid then (e.1, { e.2 with ptrapped := true }) else e }
      leaveTrack s g
/-- Count n corrected errors in the core field of a die's ERRCNT, which saturates (R49, R412). -/
def countCorrected (s : State) (d n : Nat) : State :=
  if n = 0 then s
  else s.updDie d fun x =>
    { x with errcnt := BitVec.ofNat 64 (x.errcnt.toNat - bitsNat x.errcnt 15 0 + min 0xFFFF (bitsNat x.errcnt 15 0 + n)) }
/-- Taking an exception: the instruction being issued traps precisely (R401). The state is as before the instruction, the PC
stays at it, the group halts and its trap enters the trap queue. Lines that were corrected on the way stay counted (R49). -/
def takeTrap (s : State) (t : Trap) : State :=
  let g := s.cur.g
  let s1 := (countCorrected s (coreDie (placeCore g)) t.ecc).updGrp g fun x => { x with pc := s.cur.off }
  let s2 := raiseAt s1 g s.cur.off t
  { s2 with cur := { s2.cur with out := .trapped t } }

/-- An instruction that must wait issues again: the PC stays at it. -/
def stalled (s : State) : State :=
  { (s.updMe fun x => { x with pc := s.cur.off }) with cur := { s.cur with out := .stalled } }

/-- How a meaning ends. -/
def finish (m : M Unit) (s : State) : Host.Outcome State Fault Refusal :=
  match m s with
  | .ok (_, t) => .next t
  | .error (.trap t) => .next (takeTrap s t)
  | .error .stall => .next (stalled s)
  | .error .idle => .next s

/-- TRAP_DISPATCH (R402): the control core takes the oldest entry, loads the trap registers and starts at TVEC + 5·cause. -/
def dispatchTrap (s : State) (quad : Nat) : State :=
  let h := s.handler quad
  match h.queue with
  | [] => s
  | e :: rest =>
    let regs := { e.regs with tvec := h.regs.tvec, mcpc := h.regs.mcpc }
    let s := s.updHandler quad fun h => { h with running := true, now := e.group, queue := rest, regs := regs }
    let cause := bitsNat regs.tcause 7 0
    s.updGrp (controlPlace quad) fun x =>
      { endLine x with halt := false, wait := .none, pc := (bitsNat regs.tvec 26 0 + 5 * cause) % 2 ^ 27 }

/-- ERET (R421): after a machine check back to MCPC; otherwise the handler ends. -/
def endHandler (s : State) (quad : Nat) : State :=
  let h := s.handler quad
  match h.interrupted with
  | some pc =>
    (s.updHandler quad fun h => { h with interrupted := none }).updGrp (controlPlace quad) fun x => { endLine x with pc := pc }
  | none =>
    (s.updHandler quad fun h => { h with running := false, now := none }).updGrp (controlPlace quad) fun x => { endLine x with halt := true }

end Sys2Proof.Machine
end

