-- ==== Sys2Proof/Machine/Flags.lean ====
section
/-! DEFINITION. Flags.lean: MODE, FSTAT and LATECNT (R90 to R93, Table 11-4): rounding mode, sticky flags, the FP trap. -/

namespace Sys2Proof.Machine

/-- EffectiveRm (R87): code 0 takes MODE.rm. -/
def effectiveRm (x : Group) (rm : BitVec 3) : Nat := if rm.toNat = 0 then bitsNat x.mode 2 0 else rm.toNat
/-- A write of MODE (Table 4-5): reserved bits ignored, rm keeps its value for 0 and 7. -/
def writeMode (old v : DWord) : DWord :=
  let rm := if bitsNat v 2 0 = 0 || bitsNat v 2 0 = 7 then bitsNat old 2 0 else bitsNat v 2 0
  BitVec.ofNat 64 (rm + bitsNat v 9 4 * 16)
/-- A write of FSTAT (Table 4-6). -/
def writeFstat (v : DWord) : DWord := BitVec.ofNat 64 (bitsNat v 4 0)
/-- A write of LATECNT (Table 11-4). -/
def writeLate (v : DWord) : DWord := BitVec.ofNat 64 (bitsNat v 31 0)
/-- The flags whose enable bit in MODE is 1 (R93). -/
def enabledFlags (x : Group) (f : Flags) : Flags := f &&& bitsNat x.mode 8 4
/-- OR flags into FSTAT (R92). -/
def orFstat (x : Group) (f : Flags) : Group := { x with fstat := x.fstat ||| BitVec.ofNat 64 (f % 32) }
/-- LATECNT saturates at 0xFFFF_FFFF (R288). -/
def bumpLate (x : Group) : Group :=
  { x with late := BitVec.ofNat 64 (min 0xFFFFFFFF (bitsNat x.late 31 0 + 1)) }

end Sys2Proof.Machine
end

