-- ==== Sys2Proof/Machine/Operands.lean ====
section
/-! DEFINITION. Operands.lean: every operand form: guards and participants (R20, R53, R111), source fields (R31, R58 to R63),
latches (R32, R34), destinations (Table 4-2, R61, R62), and the shared frame of the Format A instructions. -/

namespace Sys2Proof.Machine

/-! ### Guards and participants -/

/-- Predicate p of thread t; p7 reads true (Table 2-3). -/
def predP (x : Group) (p t : Nat) : Bool := p = 7 || (spGet 0 x.pr p).getLsbD t
/-- Uniform predicate g; g7 reads true. -/
def predG (x : Group) (p : Nat) : Bool := p = 7 || x.gp.getLsbD p
/-- The header a thread's own plane's copy holds at a control point issued once (R36, R37). -/
def hdrFor (s : State) (h : Hdr) (t : Nat) : Hdr :=
  if s.cur.whole then ((spFind s.cur.copies (planeOf s.seen t)).map hdrOf).getD h else h
/-- A thread's guard (R53). -/
def guardP (s : State) (h : Hdr) (t : Nat) : Bool :=
  let h := hdrFor s h t
  predP s.seen h.pg.toNat t != h.n
/-- A uniform instruction's guard. -/
def guardG (s : State) (h : Hdr) : Bool := predG s.seen h.pg.toNat != h.n
/-- The active threads the issue covers: those of its plane as the issue began (R337), or all of them at a control point issued
once. -/
def covers (s : State) (t : Nat) : Bool :=
  s.me.live.getLsbD t && !s.cur.moved.getLsbD t && (s.cur.whole || planeOf s.me t = s.cur.plane)
/-- Participants() (R111), in issue order. -/
def participants (s : State) (h : Hdr) : List Nat := tids.filter fun t => covers s t && guardP s h t
def participantMask (s : State) (h : Hdr) : Mask := maskOf fun t => covers s t && guardP s h t
/-- Where an instruction runs: each participant, or once (thread 0 stands for the group) when U = 1 and its guard holds. -/
def runners (s : State) (h : Hdr) : List Nat := if h.u then (if guardG s h then [0] else []) else participants s h
/-- TMASK of a cause raised by these runners: all resident threads for a uniform cause (Table 16-2). -/
def runnerMask (s : State) (u : Bool) (ts : List Nat) : Mask :=
  if u then s.me.resident else maskOf fun t => ts.contains t

/-! ### Sources -/

/-- The special sources of Table 2-4. -/
def special (s : State) (u : Bool) (f t : Nat) : Nat :=
  let x := s.seen
  let b := s.blk x.block
  let r := (s.lch b.launch).lr
  let spawn := b.spawnOf.isSome
  match f with
  | 0x150 => if u then 0 else t
  | 0x151 => x.gidx
  | 0x152 => b.bid
  | 0x153 => if spawn then 0 else b.bid % r.gx
  | 0x154 => if spawn then 0 else b.bid / r.gx % r.gy
  | 0x155 => if spawn then 0 else b.bid / (r.gx * r.gy)
  | 0x156 => if spawn then 1 else r.nblk
  | 0x157 => coreIdx (placeCore s.cur.g)
  | 0x158 => quadOf (placeCore s.cur.g) % 12
  | 0x159 => if s.part = 0 then 0 else coreDie (placeCore s.cur.g)
  | 0x15A => if u then s.cur.plane else planeOf x t
  | 0x15B => s.me.live.toNat
  | 0x15C => s.ctxOf s.cur.g
  | _ => b.vcore

def isFp (ty : Nat) : Bool := 8 ≤ ty && ty < 14
def isSigned (ty : Nat) : Bool := 4 ≤ ty && ty < 8
/-- An integer as bits of a type: exact in a floating-point type, else truncated (R60). -/
def intAs (ty : Nat) (n : Int) : Nat :=
  if isFp ty then (if n = 0 then 0 else (roundTo (fmtOf ty) 1 (.fin (Exact.ofInt n))).1) else intBits (tyWidth ty) n
/-- The constants of Table 3-8. -/
def constAs (ty f : Nat) : Nat :=
  match f with
  | 0x148 => 0
  | 0x149 => intAs ty 1
  | 0x14A => intAs ty (-1)
  | 0x14B => (roundTo (fmtOf ty) 1 (.fin ⟨1, 2⟩)).1
  | 0x14C => intAs ty 2
  | 0x14D => (fmtOf ty).inf
  | 0x14E => (fmtOf ty).nan
  | _ => 2 ^ tyWidth ty - 1
/-- imm32 as bits of a type (R63). -/
def immAs (ty : Nat) (w : BitVec 32) : Nat :=
  if ty = 11 then
    (match fpDecode (fmtOf 10) w.toNat with
     | .nan _ => (fmtOf 11).nan
     | v => (roundTo (fmtOf 11) 1 v).1)
  else if isSigned ty then intBits (tyWidth ty) (signedNat 32 w.toNat)
  else w.toNat % 2 ^ tyWidth ty

/-- A vector register, or an even pair, of a thread. -/
def readV (x : Group) (r t : Nat) : Nat := (spGet 0 x.vr (r * 64 + t)).toNat
def readVPair (x : Group) (r t : Nat) : Nat := readV x r t + readV x (r + 1) t * 2 ^ 32
def readK (x : Group) (r : Nat) : Nat := (spGet 0 x.kr r).toNat
def readLatch (x : Group) (l t : Nat) : Nat := (spGet 0 x.lat (l * 64 + t)).toNat
def latchValid (x : Group) (l t : Nat) : Bool := (spGet 0 x.latOk l).getLsbD t

/-- A source field read as `w` bits of a type (R58 to R61). -/
def srcAs (s : State) (u : Bool) (ty : Nat) (f : BitVec 10) (t : Nat) : Nat :=
  let x := s.seen
  let n := f.toNat
  let w := tyWidth ty
  if n < 0x100 then (if w = 64 then readVPair x n t else readV x n t % 2 ^ w)
  else if n < 0x140 then readK x (n - 0x100) % 2 ^ w
  else if n < 0x144 then readLatch x (n - 0x140) t % 2 ^ w
  else if n < 0x150 then constAs ty n
  else if n < 0x15E then special s u n t % 2 ^ w
  else intAs ty (signedNat 9 n)
/-- A source read as an unsigned 32-bit value. -/
def src32 (s : State) (u : Bool) (f : BitVec 10) (t : Nat) : Nat := srcAs s u 2 f t
/-- A packed pair operand (R142): a constant or immediate gives its value at T in both elements, for UNPK's A too (DEDUCED, log
89). -/
def srcPair (s : State) (u : Bool) (ty : Nat) (f : BitVec 10) (t : Nat) : Nat :=
  if f.toNat < 0x144 || WF.isSpecial f then srcAs s u 2 f t else srcAs s u ty f t * (2 ^ 16 + 1)

/-- Operands A, B and C of Format A at the instruction's type. -/
def opA (s : State) (o : FmtA) (t : Nat) : Nat := srcAs s o.h.u o.h.t.toNat o.a t
def opB (s : State) (o : FmtA) (t : Nat) : Nat :=
  if o.i then immAs o.h.t.toNat o.w else srcAs s o.h.u o.h.t.toNat o.b t
def opC (s : State) (o : FmtA) (t : Nat) : Nat := srcAs s o.h.u o.h.t.toNat o.c t
/-- A count or control value in B or C, read as bits 31:0 whatever the type (R121, R122, R133; log 20). -/
def count32B (s : State) (o : FmtA) (t : Nat) : Nat := if o.i then o.w.toNat else src32 s o.h.u o.b t
/-- A predicate field of class g (uniform, or a lane field that names g) or p. -/
def predAt (s : State) (g : Bool) (f : BitVec 10) (t : Nat) : Bool :=
  if g then predG s.seen (f.toNat % 8) else predP s.seen (f.toNat % 8) t

/-! ### Latch and poison checks -/

/-- A field and the registers it spans. -/
abbrev FieldUse := BitVec 10 × Nat

def staleAt (x : Group) (fs : List FieldUse) (t : Nat) : Bool :=
  fs.any fun f => WF.isLatch f.1 && !latchValid x (f.1.toNat - 0x140) t
def poisonAt (x : Group) (fs : List FieldUse) (t : Nat) : Bool :=
  fs.any fun f =>
    (List.range f.2).any fun i =>
      if WF.isV f.1 then spGet false x.poisonV ((f.1.toNat + i) * 64 + t)
      else if WF.isK f.1 then spGet false x.poisonK (f.1.toNat - 0x100 + i) else false
/-- The stale-latch trap (R34) for the threads that read. -/
def checkStale (u : Bool) (fs : List FieldUse) (ts : List Nat) : M Unit := do
  let s ← get
  let stale := ts.filter (staleAt s.seen fs)
  need (stale = []) { cause := 0x07, mask := runnerMask s u stale }
/-- Poison consumed (R411) for the threads that read a poisoned register. -/
def checkPoison (u : Bool) (fs : List FieldUse) (ts : List Nat) : M Unit := do
  let s ← get
  let bad := ts.filter (poisonAt s.seen fs)
  need (bad = []) { cause := cPoison, mask := runnerMask s u bad }
/-- The stale-latch trap, then poison consumed, where nothing ranks between them (Table 16-1). -/
def checkSources (u : Bool) (fs : List FieldUse) (ts : List Nat) : M Unit := do
  checkStale u fs ts
  checkPoison u fs ts

/-- The registers an operand field of a Format A instruction spans when it is read as an operand. -/
def opdUse (k : WF.Opd) (ty : Nat) (sty : Nat) (f : BitVec 10) : List FieldUse :=
  match k with
  | .none => []
  | .pred => []
  | .ty => [(f, if tyWidth ty = 64 && WF.isV f then 2 else 1)]
  | .src => [(f, if tyWidth sty = 64 && WF.isV f then 2 else 1)]
  | .wide => [(f, if WF.isV f then 2 else 1)]
  | .free => [(f, if tyWidth ty = 64 && WF.isV f then 2 else 1)]
  | _ => [(f, 1)]
/-- The source fields an instruction of opcode `op` reads (Tables 5-3 to 5-12). -/
def readsA (op : Nat) (o : FmtA) : List FieldUse :=
  let ty := o.h.t.toNat
  let sty := bitsNat (WF.fnv o) 3 0
  match WF.aEnt op with
  | none => []
  | some e =>
    (if op = 0x43 && !(WF.fnv o).getLsbD 0 then [] else opdUse e.a ty sty o.a) ++ (if o.i then [] else opdUse e.b ty sty o.b)
    ++ (if e.c = .free then [] else opdUse e.c ty sty o.c)

/-! ### Destinations -/

/-- Bits of a type extended to w bits (Table 4-2). -/
def extend (ty w bits : Nat) : Nat :=
  let n := tyWidth ty
  if isSigned ty then intBits w (signedNat n bits) else bits % 2 ^ n % 2 ^ w

def setV (x : Group) (r t v : Nat) : Group :=
  { x with vr := spSet 0 x.vr (r * 64 + t) (BitVec.ofNat 32 v), poisonV := spDel x.poisonV (r * 64 + t) }
def setK (x : Group) (r v : Nat) : Group :=
  { x with kr := spSet 0 x.kr r (BitVec.ofNat 64 v), poisonK := spDel x.poisonK r }
/-- Write the register a field names, for thread t, extended by Table 4-2. -/
def setReg (x : Group) (f : BitVec 10) (ty t bits : Nat) : Group :=
  let n := f.toNat
  if n < 0x100 then
    (if tyWidth ty = 64 then setV (setV x n t (bits % 2 ^ 32)) (n + 1) t (bits / 2 ^ 32) else setV x n t (extend ty 32 bits))
  else if n < 0x140 then setK x (n - 0x100) (extend ty 64 bits)
  else x
/-- Write latch l of one thread. -/
def setLatch (x : Group) (l t v : Nat) : Group :=
  { x with lat := spSet 0 x.lat (l * 64 + t) (BitVec.ofNat 64 v),
           latOk := spSet 0 x.latOk l (spGet 0 x.latOk l ||| BitVec.ofNat 64 (2 ^ t)) }
/-- Write latch l of all 64 thread slots (R32). -/
def setLatchAll (x : Group) (l v : Nat) : Group :=
  { x with lat := tids.foldl (fun m t => spSet 0 m (l * 64 + t) (BitVec.ofNat 64 v)) x.lat,
           latOk := spSet 0 x.latOk l (BitVec.allOnes 64) }
/-- The latch entry of a thread waits for a result that comes later. -/
def openLatch (x : Group) (l t : Nat) : Group :=
  { x with latOk := spSet 0 x.latOk l (spGet 0 x.latOk l &&& ~~~(BitVec.ofNat 64 (2 ^ t))) }
/-- The latch part of a result (R32): one thread's entry, or all of them for a uniform instruction. -/
def latchRes (x : Group) (h : Hdr) (ty t bits : Nat) : Group :=
  if h.u then setLatchAll x h.l.toNat (extend ty 64 bits) else setLatch x h.l.toNat t (extend ty 64 bits)
/-- WriteDest (R111): the latch, and the register unless S = 1. -/
def writeDest (x : Group) (h : Hdr) (d : BitVec 10) (ty t bits : Nat) : Group :=
  let x := latchRes x h ty t bits
  if h.s then x else setReg x d ty t bits

/-- Set predicate p of a thread; p7 takes no write (R62). -/
def setP (x : Group) (p t : Nat) (v : Bool) : Group :=
  if p = 7 then x
  else
    let m := spGet 0 x.pr p
    { x with pr := spSet 0 x.pr p (if v then m ||| BitVec.ofNat 64 (2 ^ t) else m &&& ~~~(BitVec.ofNat 64 (2 ^ t))) }
/-- Set uniform predicate g; g7 takes no write. -/
def setG (x : Group) (p : Nat) (v : Bool) : Group :=
  if p = 7 then x
  else { x with gp := if v then x.gp ||| BitVec.ofNat 8 (2 ^ p) else x.gp &&& ~~~(BitVec.ofNat 8 (2 ^ p)) }
def setPred (x : Group) (g : Bool) (p t : Nat) (v : Bool) : Group := if g then setG x p v else setP x p t v

/-! ### The shared frame of Format A -/

/-- What one runner computes: a value of a type for D, or a predicate for D, a value for q, and flags. -/
structure Res where
  ty : Nat := 2
  val : Nat := 0
  pred : Option Bool := none
  q : Option Bool := none
  flags : Flags := 0
  /-- Nothing is written (R130, R146). -/
  skip : Bool := false
  deriving DecidableEq, Repr

/-- The writes of one runner's result, in the order D, then q (R113). A predicate result puts 1 or 0 into the latch (log 20). -/
def putRes (o : FmtA) (x : Group) (t : Nat) (r : Res) : Group :=
  if r.skip then x
  else
    let x := match r.pred with
      | some v =>
        let x := latchRes x o.h 2 t (if v then 1 else 0)
        if o.h.s then x else setPred x (WF.pdc o) (o.d.toNat % 8) t v
      | none => writeDest x o.h o.d r.ty t r.val
    match r.q with
    | some v => if WF.qv o then setPred x (WF.pdc o) (bitsNat (WF.fnv o) 30 28) t v else x
    | none => x

/-- Flags that results raise together (R92). -/
def flagsOf (rs : List (Nat × Res)) : Flags := rs.foldl (fun f r => f ||| r.2.flags) 0
/-- The results written in order, each by the copy its thread runs, then FSTAT. -/
def writeAll (o : Nat → FmtA) (rs : List (Nat × Res)) (s : State) : State :=
  s.updMe fun x => orFstat (rs.foldl (fun x r => putRes (o r.1) x r.1 r.2) x) (flagsOf rs)
/-- All the results of an instruction: the FP exception trap of R93 if an enabled flag is raised, else the writes. -/
def putAll (u : Bool) (o : Nat → FmtA) (rs : List (Nat × Res)) : M Unit := do
  let s ← get
  let bad := (rs.filter fun r => enabledFlags s.me r.2.flags ≠ 0).map (·.1)
  need (bad = []) { cause := 0x1A, mask := runnerMask s u bad }
  upd (writeAll o rs)

/-- A Format A instruction that works thread by thread (or once): sources are checked, every runner's result is computed from
the state before, then all are written. -/
def runA (op : Nat) (o : FmtA) (f : State → Nat → Res) : M Unit := do
  let s ← get
  let ts := runners s o.h
  checkSources o.h.u (readsA op o) ts
  putAll o.h.u (fun _ => o) (ts.map fun t => (t, f s t))

end Sys2Proof.Machine
end

