-- ==== Sys2Proof/Machine/Check.lean ====
section
/-! DEFINITION. Check.lean: what is checked before an instruction acts: the registers, tiles and barriers it names (R29,
R328), the scoreboard (Table 2-1), the fetch line (R44 to R50), the destination of a checked transfer (R46). -/

namespace Sys2Proof.Machine

/-! ### What an instruction names -/

/-- Privileged opcodes (R72, Table 16-9). -/
def privOp (op : Nat) : Bool := [0xC9, 0xCA, 0xCB, 0xF4, 0xF5, 0xF6, 0xF7, 0xF9].contains op
/-- Format A opcodes that are assigned, and Format M opcodes (Table 3-11). -/
def opFormatA (op : Nat) : Bool := (WF.aEnt op).isSome || op = 0x44
def opFormatM (op : Nat) : Bool := (0x90 ≤ op && op ≤ 0x98) || (0xA0 ≤ op && op ≤ 0xA8) || (0xAD ≤ op && op ≤ 0xAF)
def opFormatE (op : Nat) : Bool :=
  (0xB0 ≤ op && op ≤ 0xB7) || (0xC0 ≤ op && op ≤ 0xCC) || (0xD0 ≤ op && op ≤ 0xD8) || (0xE0 ≤ op && op ≤ 0xEE)
/-- Opcodes that make an offset a control point (R37, R338). -/
def opControl (op : Nat) : Bool :=
  (1 ≤ op && op ≤ 8) || op = 0x0A || op = 0x0D || (0xA9 ≤ op && op ≤ 0xAC) || opFormatE op

def use1 (f : BitVec 10) : List FieldUse := [(f, 1)]
def use2 (f : BitVec 10) : List FieldUse := [(f, if WF.isV f then 2 else 1)]
/-- An operand of a type. -/
def useTy (ty : Nat) (f : BitVec 10) : List FieldUse := if tyWidth ty = 64 then use2 f else use1 f
/-- A destination field is used unless S = 1 (R32). -/
def unlessS (h : Hdr) (l : List FieldUse) : List FieldUse := if h.s then [] else l

/-- The destination registers of a Format A instruction (R61; MOVH names its register even with S = 1, R123). -/
def destA (op : Nat) (o : FmtA) : List FieldUse :=
  if op = 0x33 then use2 o.d
  else if op = 0x44 then unlessS o.h (if o.h.rm.toNat ≤ 2 then [] else if o.h.rm.toNat = 3 then use2 o.d else use1 o.d)
  else match WF.aEnt op with
    | none => []
    | some e =>
      unlessS o.h (match e.d with
        | .none => [] | .pred => [] | .wide => use2 o.d | .ty => useTy o.h.t.toNat o.d
        | .free => (if op = 0x43 && (WF.fnv o).getLsbD 0 then [] else useTy o.h.t.toNat o.d)
        | _ => use1 o.d)

/-- The base and index of a Format M access (R225). -/
def usesBase (o : FmtM) : List FieldUse := if o.space.toNat = 0 then use2 o.a else use1 o.a
/-- The registers a load writes. -/
def destLd (o : FmtM) (wide : Bool) : List FieldUse :=
  unlessS o.h [(o.d, if wide then 2 ^ (WF.vcOf o + 1) else if o.h.u then 1 else WF.spanRegs o)]
def readsAtom (o : FmtM) : List FieldUse := usesBase o ++ useTy o.h.t.toNat o.b ++ useTy o.h.t.toNat o.c

/-- Consecutive registers from a number. -/
def regRun (base n : Nat) : List FieldUse := if n = 0 then [] else [(BitVec.ofNat 10 base, n)]

/-- The registers of an ACRD's destination. -/
def acrdSpan (o : FmtE) : Nat := match o.h.t.toNat with | 10 => 1 | 2 => 10 | _ => 2
/-- The registers an instruction writes when it completes, at its issue or later, with the registers each field spans. -/
def destsOf (i : Instr) : List FieldUse :=
  match i with
  | .add o => destA 0x10 o | .sub o => destA 0x11 o | .mul o => destA 0x12 o | .mulhi o => destA 0x13 o
  | .mad o => destA 0x14 o | .madhi o => destA 0x15 o | .addc o => destA 0x16 o | .subb o => destA 0x17 o
  | .min o => destA 0x18 o | .max o => destA 0x19 o | .abs o => destA 0x1A o | .neg o => destA 0x1B o
  | .idiv o => destA 0x1C o | .irem o => destA 0x1D o | .sad o => destA 0x1E o | .lea o => destA 0x1F o
  | .and o => destA 0x20 o | .or o => destA 0x21 o | .xor o => destA 0x22 o | .andn o => destA 0x23 o
  | .not o => destA 0x24 o | .logt o => destA 0x25 o | .shl o => destA 0x26 o | .shr o => destA 0x27 o
  | .shra o => destA 0x28 o | .rot o => destA 0x29 o | .fshf o => destA 0x2A o | .bfx o => destA 0x2B o
  | .bfi o => destA 0x2C o | .popc o => destA 0x2D o | .clz o => destA 0x2E o | .ctz o => destA 0x2F o
  | .brev o => destA 0x30 o | .mov o => destA 0x31 o | .movi o => destA 0x32 o | .movh o => destA 0x33 o
  | .sel o => destA 0x34 o | .bshuf o => destA 0x35 o | .clamp o => destA 0x36 o | .cmp o => destA 0x40 o
  | .fcmp o => destA 0x41 o | .plop o => destA 0x42 o | .pmov o => destA 0x43 o | .poll o => destA 0x44 o
  | .lxch o => destA 0x45 o | .gred o => destA 0x46 o | .gscan o => destA 0x47 o | .fadd o => destA 0x50 o
  | .fsub o => destA 0x51 o | .fmul o => destA 0x52 o | .ffma o => destA 0x53 o | .fmin o => destA 0x54 o
  | .fmax o => destA 0x55 o | .fabs o => destA 0x56 o | .fneg o => destA 0x57 o | .fdiv o => destA 0x58 o
  | .fsqrt o => destA 0x59 o | .frcpa o => destA 0x5A o | .frsqa o => destA 0x5B o | .fclass o => destA 0x5C o
  | .fscale o => destA 0x5D o | .fgete o => destA 0x5E o | .fgetm o => destA 0x5F o | .fcopys o => destA 0x60 o
  | .frnd o => destA 0x61 o | .fmed3 o => destA 0x62 o | .fclamp o => destA 0x63 o | .fex2 o => destA 0x64 o
  | .flg2 o => destA 0x65 o | .fsin o => destA 0x66 o | .fcos o => destA 0x67 o | .fdot2 o => destA 0x68 o
  | .fadd2 o => destA 0x69 o | .fmul2 o => destA 0x6A o | .ffma2 o => destA 0x6B o | .cvt o => destA 0x80 o
  | .i2f o => destA 0x81 o | .f2i o => destA 0x82 o | .mxq o => destA 0x83 o | .mxdq o => destA 0x84 o
  | .bfpq o => destA 0x85 o | .pack o => destA 0x86 o | .unpk o => destA 0x87 o | .ld o => destLd o false
  | .ldw o => destLd o true | .cresize o => unlessS o.h (use1 o.d) | .atom o => unlessS o.h (useTy o.h.t.toNat o.d)
  | .cas o => unlessS o.h (useTy o.h.t.toNat o.d) | .atomsc o => unlessS o.h (useTy o.h.t.toNat o.d)
  | .wread o => unlessS o.h (useTy o.h.t.toNat o.d) | .wflush o => unlessS o.h (useTy o.h.t.toNat o.d)
  | .redix o => unlessS o.h (use1 o.d) | .loop o => use1 o.a | .cpy o => unlessS o.h (use1 o.k)
  | .cpyg o => unlessS o.h (use1 o.k) | .cpys o => unlessS o.h (use1 o.k) | .cpyi o => unlessS o.h (use1 o.k)
  | .cpyqStat o => unlessS o.h (use1 o.k) | .mms o => unlessS o.h (use1 o.k) | .mmx o => unlessS o.h (use1 o.k)
  | .mmi o => unlessS o.h (use1 o.k) | .acz o => unlessS o.h (use1 o.k) | .acld o => unlessS o.h (use1 o.k)
  | .acst o => unlessS o.h (use1 o.k) | .acrd o => [(o.k, acrdSpan o)]
  | .mstatr o => unlessS o.h (use1 o.k) | .mdrain o => unlessS o.h (use1 o.k) | .mrestore o => unlessS o.h (use1 o.k)
  | .mresumeMatrix o => unlessS o.h (use1 o.k) | .mresumeCopy o => unlessS o.h (use1 o.k)
  | .mresumeQuery o => unlessS o.h (use1 o.k) | .slice o => unlessS o.h (if o.h.rm.toNat = 0 then use1 o.k else use2 o.k)
  | .rq o => unlessS o.h [(o.k, 8)] | .bq o => unlessS o.h (use1 o.k)
  | .rqr o => unlessS o.h [(o.k, if o.h.rm.toNat = 1 then 1 else 8)]
  | .cover o => unlessS o.h (use1 o.k) | .triem o => unlessS o.h (use1 o.k) | .rclaim o => unlessS o.h (use1 o.k)
  | .rcommit o => unlessS o.h (use1 o.k) | .rretire o => unlessS o.h (use1 o.k) | .rawaitTake o => unlessS o.h (use1 o.k)
  | .enq o => unlessS o.h (use1 o.k) | .deq o => unlessS o.h [(o.k, if o.h.u then 2 else 4)]
  | .launch o => unlessS o.h (use1 o.k) | .launchGraph o => unlessS o.h (use1 o.k) | .recvp o => unlessS o.h (use1 o.k)
  | .recvw o => unlessS o.h (use1 o.k) | .probe o => unlessS o.h (use1 o.k) | .probeTok o => unlessS o.h (use1 o.k)
  | .csrr o => unlessS o.h (use1 o.d) | .csrw o => unlessS o.h (if WF.isK o.d then use1 o.d else [])
  | .csrwSet o => unlessS o.h (if WF.isK o.d then use1 o.d else [])
  | .csrwClr o => unlessS o.h (if WF.isK o.d then use1 o.d else []) | .rdclk o => unlessS o.h (use1 o.d)
  | .rdtime o => unlessS o.h (use1 o.d) | .gstatr o => unlessS o.h (use1 o.d)
  | _ => []
/-- The registers and latches an instruction reads. -/
def readsOf (i : Instr) : List FieldUse :=
  match i with
  | .add o => readsA 0x10 o | .sub o => readsA 0x11 o | .mul o => readsA 0x12 o | .mulhi o => readsA 0x13 o
  | .mad o => readsA 0x14 o | .madhi o => readsA 0x15 o | .addc o => readsA 0x16 o | .subb o => readsA 0x17 o
  | .min o => readsA 0x18 o | .max o => readsA 0x19 o | .abs o => readsA 0x1A o | .neg o => readsA 0x1B o
  | .idiv o => readsA 0x1C o | .irem o => readsA 0x1D o | .sad o => readsA 0x1E o | .lea o => readsA 0x1F o
  | .and o => readsA 0x20 o | .or o => readsA 0x21 o | .xor o => readsA 0x22 o | .andn o => readsA 0x23 o
  | .not o => readsA 0x24 o | .logt o => readsA 0x25 o | .shl o => readsA 0x26 o | .shr o => readsA 0x27 o
  | .shra o => readsA 0x28 o | .rot o => readsA 0x29 o | .fshf o => readsA 0x2A o | .bfx o => readsA 0x2B o
  | .bfi o => readsA 0x2C o | .popc o => readsA 0x2D o | .clz o => readsA 0x2E o | .ctz o => readsA 0x2F o
  | .brev o => readsA 0x30 o | .mov o => readsA 0x31 o | .movi o => readsA 0x32 o | .movh o => readsA 0x33 o
  | .sel o => readsA 0x34 o | .bshuf o => readsA 0x35 o | .clamp o => readsA 0x36 o | .cmp o => readsA 0x40 o
  | .fcmp o => readsA 0x41 o | .plop o => readsA 0x42 o | .pmov o => readsA 0x43 o | .poll o => readsA 0x44 o
  | .lxch o => readsA 0x45 o | .gred o => readsA 0x46 o | .gscan o => readsA 0x47 o | .fadd o => readsA 0x50 o
  | .fsub o => readsA 0x51 o | .fmul o => readsA 0x52 o | .ffma o => readsA 0x53 o | .fmin o => readsA 0x54 o
  | .fmax o => readsA 0x55 o | .fabs o => readsA 0x56 o | .fneg o => readsA 0x57 o | .fdiv o => readsA 0x58 o
  | .fsqrt o => readsA 0x59 o | .frcpa o => readsA 0x5A o | .frsqa o => readsA 0x5B o | .fclass o => readsA 0x5C o
  | .fscale o => readsA 0x5D o | .fgete o => readsA 0x5E o | .fgetm o => readsA 0x5F o | .fcopys o => readsA 0x60 o
  | .frnd o => readsA 0x61 o | .fmed3 o => readsA 0x62 o | .fclamp o => readsA 0x63 o | .fex2 o => readsA 0x64 o
  | .flg2 o => readsA 0x65 o | .fsin o => readsA 0x66 o | .fcos o => readsA 0x67 o | .fdot2 o => readsA 0x68 o
  | .fadd2 o => readsA 0x69 o | .fmul2 o => readsA 0x6A o | .ffma2 o => readsA 0x6B o | .cvt o => readsA 0x80 o
  | .i2f o => readsA 0x81 o | .f2i o => readsA 0x82 o | .mxq o => readsA 0x83 o | .mxdq o => readsA 0x84 o
  | .bfpq o => readsA 0x85 o | .pack o => readsA 0x86 o | .unpk o => readsA 0x87 o | .ld o => usesBase o ++ use1 o.b
  | .st o => [(o.d, if o.h.u then 1 else WF.spanRegs o)] ++ usesBase o ++ use1 o.b | .ldw o => usesBase o ++ use1 o.b
  | .pref o => usesBase o ++ use1 o.b | .cresize o => use1 o.a | .cflush o => usesBase o ++ use1 o.b
  | .cinv o => usesBase o ++ use1 o.b | .femark o => usesBase o ++ use1 o.b | .fetest o => usesBase o ++ use1 o.b
  | .atom o => readsAtom o | .cas o => readsAtom o | .atomsc o => readsAtom o
  | .faddw o => usesBase o ++ useTy o.h.t.toNat o.b | .wread o => usesBase o | .wflush o => usesBase o
  | .recfence o => use1 o.a | .redix o => usesBase o ++ useTy o.h.t.toNat o.b ++ use1 o.c | .brx o => use1 o.a
  | .callInd o => use1 o.a | .sleep o => use1 o.a | .sleepTok o => use1 o.a | .pln o => use1 o.a | .plng o => use1 o.a
  | .loop o => use1 o.a | .bari o => use1 o.a | .cpy o => use1 (if o.a.toNat = 0 then WF.efF o 34 else o.a)
  | .cpyg o => use1 (if o.a.toNat = 0 then WF.efF o 34 else o.a)
  | .cpys o => use1 (if o.a.toNat = 0 then WF.efF o 34 else o.a)
  | .cpyi o => use1 o.a ++ use1 (WF.efF o 24) ++ use1 (WF.efF o 14) | .cpyq o => use1 o.a | .cpyqTest o => use1 o.a
  | .cpyqStat o => use1 o.a | .cpyx o => use1 o.a | .wsstage o => use1 o.a ++ use1 (WF.efF o 43)
  | .wsdrop o => use1 o.a ++ use1 (WF.efF o 43)
  | .mms o =>
    use1 (WF.efF o 43) ++ (if o.a.toNat = 0 then use1 (WF.efF o 33) else use1 o.a ++ use1 (WF.efF o 22)
    ++ (if WF.ef o 37 34 = 0 then use1 (WF.efF o 12) else []))
  | .mmx o => use1 (WF.efF o 43) ++ (if o.a.toNat = 0 then use1 (WF.efF o 33) else use1 o.a ++ use1 (WF.efF o 22))
  | .mmi o => use1 (WF.efF o 43) ++ (if o.a.toNat = 0 then use1 (WF.efF o 33) else use1 o.a ++ use1 (WF.efF o 22))
  | .acz o => (if WF.ef o 47 47 = 1 then use1 (WF.efF o 37) else []) | .acld o => use1 o.a
  | .acst o => use1 (if o.a.toNat = 0 then WF.efF o 22 else o.a) | .mwait o => use1 o.a | .mwaitTest o => use1 o.a
  | .acrd o => use1 (WF.efF o 38) ++ use1 (WF.efF o 28)
  | .mstatr o => use1 (WF.efF o 38) ++ use1 (WF.efF o 28) | .mdrain o => use1 o.a ++ use1 (WF.efF o 43)
  | .mrestore o => use1 o.a ++ use1 (WF.efF o 43) | .mresumeMatrix o => use1 o.a ++ use1 (WF.efF o 43)
  | .mresumeCopy o => use1 o.a ++ use1 (WF.efF o 43) | .mresumeQuery o => use1 o.a ++ use1 (WF.efF o 43)
  | .slice o => use2 o.a ++ use1 (WF.efF o 43) | .rq o => use2 o.a ++ use2 (WF.efF o 38)
  | .bq o => use2 o.a ++ use2 (WF.efF o 38) ++ use2 (WF.efF o 28) | .rqr o => use2 o.a ++ use2 (WF.efF o 28)
  | .hacc o => use2 o.a ++ use2 (WF.efF o 43) ++ use1 (WF.efF o 33) | .hrej o => use2 o.a | .spcfg o => use1 o.a
  | .cover o => use1 o.a ++ use1 (WF.efF o 28) ++ use1 (WF.efF o 18)
  | .triem o => use2 o.a ++ [(WF.efF o 43, 9)] ++ use1 (WF.efF o 33) | .bvhref o => use1 o.a
  | .rclaim o => use1 o.a ++ use1 (WF.efF o 43) | .rcommit o => use1 o.a ++ use1 (WF.efF o 43) ++ use1 (WF.efF o 33)
  | .rretire o => use1 o.a ++ use1 (WF.efF o 43) ++ use1 (WF.efF o 33) | .rawaitTake o => use1 o.a ++ use1 (WF.efF o 43)
  | .rawaitAt o => use1 o.a ++ use1 (WF.efF o 43) | .enq o => use2 o.a ++ use2 (WF.efF o 43) ++ use2 (WF.efF o 33)
  | .deq o => use2 o.a
  | .cont o =>
    use1 o.a ++ use1 (WF.efF o 43) ++ (if WF.ef o 22 21 = 0 then [] else [(WF.efF o 33, 2)])
    ++ regRun (WF.ef o 19 12) (WF.ef o 11 7) ++ regRun (0x100 + WF.ef o 32 27) (WF.ef o 26 23)
  | .launch o => use1 o.a | .launchGraph o => use1 o.a ++ (if WF.ef o 52 43 = 0 then [] else use1 (WF.efF o 43))
  | .signal o => use2 o.a ++ use1 (WF.efF o 43) | .publish o => use1 o.a ++ use1 (WF.efF o 43)
  | .send o => use1 o.a ++ use1 (WF.efF o 43) ++ use1 (WF.efF o 33) ++ use1 (WF.efF o 23)
  | .recvp o => use1 o.a ++ use1 (WF.efF o 43) ++ use1 (WF.efF o 33) ++ use1 (WF.efF o 23) ++ use1 (WF.efF o 10)
  | .recvw o => use1 o.a | .probe o => use1 (WF.efF o 43) ++ use1 (WF.efF o 33) ++ use1 (WF.efF o 23)
  | .probeTok o => use1 o.a | .itrep o => use2 o.a ++ use2 (WF.efF o 43) ++ use2 (WF.efF o 33) | .csrw o => use1 o.a
  | .csrwSet o => use1 o.a | .csrwClr o => use1 o.a | .gstatr o => use1 o.a | .gstatw o => use1 o.d ++ use1 o.a
  | .gresume o => use1 o.a | .gresumeReplay o => use1 o.a | .halt o => use1 o.a | .haltBlk o => use1 o.a | .svc o => use1 o.a
  | .proghint o => use1 o.a
  | _ => []
/-- The registers and latches an instruction names (R29). -/
def usesOf (i : Instr) : List FieldUse := destsOf i ++ readsOf i

/-- The accumulator tile an instruction names and the slots it must have (R29). For the inline form of MMS, MMX and MMI the
tile stands in P1 (Table 7-5). -/
def tileOf (par : Option (List Slot)) (i : Instr) : Option (Nat × Nat) :=
  let mm (o : FmtE) (n : Nat) : Option (Nat × Nat) :=
    match par with
    | some ps => some (bitsNat (ps.getD 1 0) 20 16, n)
    | none => some (WF.ef o 42 38, n)
  match i with
  | .mms o => (mm o 1).map fun t => (t.1, if t.1 % 4 = 0 then 4 else 1)
  | .mmx o => mm o 1
  | .mmi o => mm o 1
  | .acz o => some (WF.ef o 52 48, if WF.ef o 47 47 = 1 then 1 else 4)
  | .acld o => some (WF.ef o 52 48, if WF.ef o 47 47 = 1 then 1 else 4)
  | .acst o => some (WF.ef o 52 48, 1)
  | .acrd o => some (WF.ef o 52 48, 1)
  | .mstatr o => some (WF.ef o 52 48, 1)
  | _ => none

/-- The barrier an instruction names (R328, Table 11-7). -/
def barOf (i : Instr) : Option Nat :=
  let cp (o : FmtE) : Option Nat := if WF.ef o 49 49 = 1 then some (WF.ef o 48 45) else none
  match i with
  | .bara o => some (o.cfn.toNat % 16)
  | .barw o => some (o.cfn.toNat % 16)
  | .barx o => some (o.cfn.toNat % 16)
  | .bari o => some (o.cfn.toNat % 16)
  | .cpy o => cp o
  | .cpyi o => cp o
  | .cpyg o => cp o
  | .cpys o => cp o
  | _ => none

/-! ### Parameter words (R48, R69) -/

/-- A substituted group names a k register below .uregs and has zeros above it (R69). -/
def groupOk (uregs : Nat) (w : Slot) (g : Nat) : Bool :=
  !w.getLsbD (92 + g) || (bitsNat w (16 * g + 15) (16 * g + 6) = 0 && bitsNat w (16 * g + 5) (16 * g) < uregs)
/-- A word whose groups below `n` may be substituted and whose bits from 16·n up to 91 are zero. -/
def wordOk (uregs n : Nat) (w : Slot) : Bool :=
  bitsNat w 91 (16 * n) = 0 && bitsNat w 95 (92 + n) = 0 && (List.range n).all (groupOk uregs w)
/-- The k registers that the parameter words of an inline form read (R69, Table 7-5), in field order. -/
def parRegs (ps : List Slot) (i : Instr) : List Nat :=
  let word (n g : Nat) : List Nat := let w := ps.getD n 0
    (List.range g).filterMap fun k => if w.getLsbD (92 + k) then some (bitsNat w (16 * k + 5) (16 * k)) else none
  match i with
  | .mms _ => word 0 4 ++ word 1 1 ++ (if ps ≠ [] && bitsNat (ps.getD 1 0) 24 21 = 0 then [bitsNat (ps.getD 1 0) 37 32] else [])
  | .mmx _ => word 0 4 ++ word 1 1
  | .mmi _ => word 0 4 ++ word 1 1
  | .acst _ => word 0 2
  | .cpy _ => word 0 4 ++ word 1 2
  | .cpyg _ => word 0 4 ++ word 1 2
  | .cpys _ => word 0 4 ++ word 1 2
  | _ => []
def parUses (ps : List Slot) (i : Instr) : List FieldUse := (parRegs ps i).map fun r => (BitVec.ofNat 10 (0x100 + r), 1)
/-- The parameter words of an inline form are legal (Tables 7-5, 11-8, R179). Table 7-5 defines P1 bits 47:32 for MMS with s = 0 only;
elsewhere they must be 0 (R64, R176; DEDUCED, log 91). -/
def paramsOk (uregs : Nat) (i : Instr) (ps : List Slot) : Bool :=
  let p (n : Nat) : Slot := ps.getD n 0
  let mm (sliced : Bool) : Bool :=
    wordOk uregs 4 (p 0) && bitsNat (p 1) 91 48 = 0 && bitsNat (p 1) 95 93 = 0 && groupOk uregs (p 1) 0
    && bitsNat (p 1) 31 27 = 0 && (sliced || bitsNat (p 1) 25 21 = 0) && bitsNat (p 1) 24 21 ≤ 10
    && (if sliced && bitsNat (p 1) 24 21 = 0 then bitsNat (p 1) 47 38 = 0 && bitsNat (p 1) 37 32 < uregs
        else bitsNat (p 1) 47 32 = 0)
    && p 2 = 0 && p 3 = 0
  let cp (plain : Bool) : Bool :=
    wordOk uregs 4 (p 0) && wordOk uregs 2 (p 1) && p 2 = 0 && p 3 = 0 && (plain || (p 0).getLsbD 93 || (p 0).extractLsb' 16 16 = 0)
  match i with
  | .mms _ => mm true
  | .mmx _ => mm false
  | .mmi _ => mm false
  | .acst _ => wordOk uregs 2 (p 0) && p 1 = 0 && p 2 = 0 && p 3 = 0
  | .cpy _ => cp true
  | .cpyg _ => cp false
  | .cpys _ => cp false
  | _ => false

/-! ### Decode at issue (R70) -/

/-- The registers lie within .regs and .uregs, tiles within the block's slots, barriers within its count (R29, R328). -/
def resourcesOk (s : State) (g : Nat) (par : Option (List Slot)) (i : Instr) : Bool :=
  let x := s.grp g
  let b := s.blk x.block
  (usesOf i).all (fun f =>
    if WF.isV f.1 then f.1.toNat + f.2 ≤ x.regs else if WF.isK f.1 then f.1.toNat - 0x100 + f.2 ≤ x.uregs else true)
  && (match tileOf par i with | some t => t.1 + t.2 ≤ b.acc | none => true)
  && (match barOf i with | some n => n < b.nbar | none => true)
  && (match par with | some ps => paramsOk x.uregs i ps | none => true)

/-- Decode at issue: the instruction, or cause 0x01 or 0x1C (R70). -/
def decodeAt (s : State) (g : Nat) (par : Option (List Slot)) (w : Slot) : Except Nat Instr :=
  let priv := privOp (opOf w) && !isControl g
  match decodeSlot par.isSome w with
  | .error .illegalField => .error (if priv then 0x1C else 0x01)
  | .error _ => .error 0x01
  | .ok i => if priv then .error 0x1C else if resourcesOk s g par i then .ok i else .error 0x01

/-! ### The scoreboard (Table 2-1, R228, R243) -/

/-- The registers a load in flight writes. -/
def Load.dests (l : Load) : List FieldUse := destLd l.o l.wide
def overlapsUse (a b : FieldUse) : Bool :=
  (WF.isV a.1 = WF.isV b.1 && WF.isK a.1 = WF.isK b.1 && (WF.isV a.1 || WF.isK a.1))
  && a.1.toNat < b.1.toNat + b.2 && b.1.toNat < a.1.toNat + a.2
/-- The latch of an instruction's header. -/
def latchField (l : BitVec 2) : BitVec 10 := BitVec.ofNat 10 (0x140 + l.toNat)
/-- The destinations of an instruction in the operand log. -/
def loggedDests (i : Instr) : List FieldUse :=
  match i with
  | .ld o => destLd o false
  | .ldw o => destLd o true
  | .atom o => unlessS o.h (useTy o.h.t.toNat o.d)
  | .cas o => unlessS o.h (useTy o.h.t.toNat o.d)
  | .atomsc o => unlessS o.h (useTy o.h.t.toNat o.d)
  | .wread o => unlessS o.h (useTy o.h.t.toNat o.d)
  | .wflush o => unlessS o.h (useTy o.h.t.toNat o.d)
  | .redix o => unlessS o.h (use1 o.d)
  | _ => []
def hdrOfInstr (i : Instr) : Option Hdr :=
  match i with
  | .ld o => some o.h | .ldw o => some o.h | .atom o => some o.h | .cas o => some o.h | .atomsc o => some o.h
  | .wread o => some o.h | .wflush o => some o.h | .redix o => some o.h
  | _ => none
/-- Format M or E by its slot's opcode: these wait for the group's operand log to empty (R228). -/
def opMemory (op : Nat) : Bool := opFormatM op || opFormatE op
/-- The registers a query writes at its completion (R215, R218), and for which thread (none: a uniform register). -/
def Query.destUse (q : Query) : FieldUse :=
  if q.latchOnly then (BitVec.ofNat 10 q.dest, 0)
  else match q.kind with
  | .cover => (BitVec.ofNat 10 q.dest, 1)
  | .ray => (BitVec.ofNat 10 q.dest, 8)
  | .beam => (BitVec.ofNat 10 q.dest, 1)
  | .replay => (BitVec.ofNat 10 q.dest, if q.beamForm then 1 else 8)
/-- Latch xL of its issuing line execution still waits for its result: that line execution goes on, and no later instruction has
written the entry (R32). -/
def Query.latchOpen (q : Query) (x : Group) : Bool :=
  q.lx = x.lx && x.line.isSome && !(spGet 0 x.latOk q.lat).getLsbD q.tid
/-- A register field of its group names its result. -/
def Query.names (q : Query) (x : Group) (u : FieldUse) : Bool :=
  overlapsUse q.destUse u || (q.latchOpen x && u.1 = BitVec.ofNat 10 (0x140 + q.lat))
/-- The fault that its group is to be told at the first read of its result: a stopped query's; of a completed one also that of a
write of its hit array or log (R219). -/
def Query.toTell (q : Query) : Option Trap :=
  match q.state with
  | .stopped => q.fault
  | .complete => q.fault.orElse fun _ => q.wfault
  | _ => none
/-- A query's result is not there yet, and a wait for it ends of itself: a stopped query lets its reader take the trap. -/
def Query.pending (q : Query) : Bool := q.state ≠ .complete && !(q.state = .stopped && !q.told)
/-- The instruction must wait: it names a register or a latch that a load in flight or a logged instruction of the group
writes, or it is of Format M or E while the group has logged instructions. -/
def scoreboardHolds (s : State) (g : Nat) (par : Option (List Slot)) (w : Slot) (i : Instr) : Bool :=
  let x := s.grp g
  let us := usesOf i ++ parUses (par.getD []) i
  let lat := latchField (hdrOf w).l
  (s.loads.any fun e =>
    e.2.g = g && e.2.uid = x.uid
    && ((us.any fun u => e.2.dests.any (overlapsUse u))
        || (e.2.lx = x.lx && (lat = latchField e.2.o.h.l || us.any fun u => u.1 = latchField e.2.o.h.l))))
  || (s.queries.any fun e =>
    e.2.g = g && e.2.uid = x.uid && e.2.pending && us.any (e.2.names x))
  || (s.oplog.any fun e =>
    e.g = g && e.uid = x.uid
    && (opMemory (opOf w) || (us.any fun u => (loggedDests e.instr).any (overlapsUse u))
        || (e.lx = x.lx && (match hdrOfInstr e.instr with
            | some h => us.any fun u => u.1 = latchField h.l
            | none => false))))

/-! ### Lines (R44 to R50) -/

/-- The byte address of line j in plane p (R35). -/
def codeAddr (x : Group) (j p : Nat) : Nat := x.code + (j * x.np + p) * 64
/-- The occupied planes, ascending; with no active thread, the plane of the lowest resident one (R36). -/
def occupied (x : Group) : List Nat :=
  if x.live = 0 then [planeOf x (maskLow x.resident)]
  else (List.range 8).filter fun p => tids.any fun t => x.live.getLsbD t && planeOf x t = p
/-- The active threads of a plane. -/
def planeMask (x : Group) (p : Nat) : Mask := maskOf fun t => x.live.getLsbD t && planeOf x t = p
/-- TMASK of a cause that one plane's copy raises: with one occupied plane and a uniform instruction, all resident threads. -/
def planeCause (x : Group) (u : Bool) (p : Nat) : Mask :=
  if u && (occupied x).length = 1 then x.resident else planeMask x p

/-- Pairs are legal (R47). -/
def pairsOk (l : Line) : Bool :=
  (List.range 4).all fun n =>
    !linePair l n ||
      (!linePair l (n + 1) && opFormatA (opOf (lineSlot l n)) && (hdrOf (lineSlot l n)).u
       && (opFormatA (opOf (lineSlot l (n + 1))) || opFormatM (opOf (lineSlot l (n + 1)))) && !(hdrOf (lineSlot l (n + 1))).u
       && !lineTgt l (n + 1))
/-- Slot 0 of an inline line holds an instruction with an inline layout (R48, R179, R291). -/
def inlineOp (w : Slot) : Bool :=
  [0xB0, 0xB2, 0xB3, 0xC0, 0xC1, 0xC2].contains (opOf w)
  || (opOf w = 0xC5 && bitsNat w 36 34 ≠ 5 && bitsNat w 36 34 ≠ 7)
def inlineOk (l : Line) (slot : Nat) : Bool :=
  !lineInl l || (inlineOp (lineSlot l 0) && bitsNat (lineWord l) 8 1 = 0 && slot = 0)
/-- Two planes' line words agree in pair and inl (check 8 of Table 3-2). -/
def scheduleAgrees (a b : Line) : Bool := bitsNat (lineWord a) 9 5 = bitsNat (lineWord b) 9 5

/-- The line images of the occupied planes after the checks of Table 3-2 on line j entered at a slot; `checked` makes the tgt
check, before check 8 at a fetch and after it at a checked transfer. Also the number of corrected lines, which a trap carries in
`ecc`. An offset beyond the last line is a bad target (R45), whatever leads there (log 80). -/
def checkLine (s : State) (g j slot : Nat) (u checked transfer : Bool) : Except Trap (List (Nat × Line) × Nat) :=
  let x := s.grp g
  let ps := occupied x
  let whole : Mask := if u then x.resident else x.live
  let bad (cause p : Nat) : Trap := { cause := cause, addr := codeAddr x j p, mask := planeCause x u p }
  if 134217724 < j * 5 + slot then .error { cause := 0x03, addr := codeAddr x j 0, mask := whole }
  else do
    let pas ← ps.mapM fun p =>
      match translateFor s g (codeAddr x j p) needX with
      | .ok pa _ => .ok (p, pa)
      | .bad c => .error (bad c p)
    let read := pas.map fun e =>
      (e.1, if rangePoisoned s e.2 64 then none else lineCorrect (lineOfBytes (homeBytes s e.2 64)))
    let n := ((read.takeWhile fun e => e.2.isSome).filter fun e => (e.2.map (·.2)).getD false).length
    let ls := read.map fun e => (e.1, (e.2.map (·.1)).getD 0)
    let each (cause : Nat) (f : Nat × Line → Bool) : Except Trap Unit :=
      match ls.find? fun e => !f e with
      | some e => .error { bad cause e.1 with ecc := n }
      | none => .ok ()
    let agree : Except Trap Unit :=
      match ls with
      | [] => .ok ()
      | a :: _ =>
        match ls.find? fun e => !scheduleAgrees a.2 e.2 with
        | some e => .error { cause := 0x04, addr := codeAddr x j e.1, mask := whole, ecc := n }
        | none => .ok ()
    match read.find? fun e => e.2.isNone with
      | some e => .error { bad 0x02 e.1 with ecc := n }
      | none => .ok ()
    each 0x02 fun e => lineVer e.2 = 1
    each 0x02 fun e => bitsNat (lineWord e.2) 15 10 = 0
    each 0x02 fun e => pairsOk e.2
    each 0x02 fun e => inlineOk e.2 slot
    if transfer then agree else .ok ()
    if checked then each 0x03 fun e => lineTgt e.2 slot else .ok ()
    if transfer then .ok () else agree
    pure (ls, n)
/-- Line j's images of the planes that no active thread occupies, where they can be read (R37; log 80). -/
def idleImages (s : State) (g j : Nat) : List (Nat × Line) :=
  let x := s.grp g
  ((List.range x.np).filter fun p => !(occupied x).contains p).filterMap fun p =>
    match translateFor s g (codeAddr x j p) needX with
    | .ok pa _ => if rangePoisoned s pa 64 then none else (lineCorrect (lineOfBytes (homeBytes s pa 64))).map fun r => (p, r.1)
    | .bad _ => none

/-- Check the destination of a transfer (R45, R46): slot `slot` of line `line`. The answer is the number of corrected lines, which
are counted. -/
def checkTarget (u : Bool) (line : Int) (slot : Nat) : M Nat := do
  let s ← get
  let g := s.cur.g
  let x := s.grp g
  let off := line * 5 + slot
  if off < 0 || off > 134217724 || slot > 4 then
    trapM { cause := 0x03, addr := intBits 64 ((x.code : Int) + line * x.np * 64), mask := if u then x.resident else x.live }
  else
    match checkLine s g line.toNat slot u true true with
    | .error t => trapM t
    | .ok r => do
      set (countCorrected s (coreDie (placeCore g)) r.2)
      pure r.2

end Sys2Proof.Machine
end

