-- ==== Sys2Proof/Machine/MemOps.lean ====
section
/-! DEFINITION. MemOps.lean: the memory hierarchy (09, 10): L1 lines, writes on their way to the home slice, replicas,
release and acquire (Table 10-2), scratchpads, loads in flight, and the checks and addresses of Format M (R225 to R227). -/

namespace Sys2Proof.Machine

/-! ### Lines and masks -/

/-- Mask of n bytes from byte i of a line. -/
def byteMask (i n : Nat) : BitVec 128 := BitVec.ofNat 128 ((2 ^ n - 1) * 2 ^ i)
/-- Byte i of a line's data. -/
def lineByte (d : BitVec 1024) (i : Nat) : Byte := d.extractLsb' (8 * i) 8
def lineBytes (d : BitVec 1024) (i n : Nat) : List Byte := (List.range n).map fun k => lineByte d (i + k)
def lineOfList (bs : List Byte) : BitVec 1024 := BitVec.ofNat 1024 (bytesNat bs)
/-- A byte mask as a bit mask. -/
def spreadMask (m : BitVec 128) : BitVec 1024 :=
  BitVec.ofNat 1024 ((List.range 128).foldl (fun n i => if m.getLsbD i then n + 255 * 2 ^ (8 * i) else n) 0)
/-- The bytes of `new` where the mask is set, else those of `old`. -/
def mergeLine (old new : BitVec 1024) (m : BitVec 128) : BitVec 1024 :=
  let b := spreadMask m
  (new &&& b) ||| (old &&& ~~~b)
/-- Bytes placed at byte i of a line. -/
def placeBytes (i : Nat) (bs : List Byte) : BitVec 1024 := BitVec.ofNat 1024 (bytesNat bs * 2 ^ (8 * i))
/-- Lines from this number up are weight-store lines. -/
def wsLine0 : Nat := 2 ^ 42 / 128

/-! ### Writes at the home (R236, R237, R256, R264) -/

/-- Write the masked bytes of a line at its home slice; replicas stay until the invalidations are acknowledged. -/
def homePutMasked (s : State) (line : Nat) (mask : BitVec 128) (data : BitVec 1024) : State :=
  let pa := line * 128
  if !dieServes s (homeDie pa) then s.updDie (homeDie pa) fun d => { d with drops := d.drops + 1 }
  else
    let touched := s.welts.filter fun e =>
      (List.range e.2.size).any fun i => e.1 + i < pa + 128 && pa ≤ e.1 + i && mask.getLsbD (e.1 + i - pa)
    let s := touched.foldl (fun s e =>
      { s with mem := memPut s.mem e.1 (natBytes e.2.size e.2.bits), welts := spDel s.welts e.1 }) s
    let s := { s with mem := (List.range 128).foldl (fun m i =>
      if mask.getLsbD i then memSet m (pa + i) (lineByte data i) else m) s.mem }
    let s := if mask = BitVec.allOnes 128 then { s with poison := spDel s.poison line } else s
    touchWatches s pa 128
/-- The groups of a block for which its core holds a spill area of 768 bytes (R40, R229). -/
def residentGroups (s : State) (e : Nat × Block) : Nat := if e.2.state = .placed then e.2.ngroups else (s.groupsOf e.1).length

/-- How far a write must have come: written at its home, and its invalidations acknowledged by no die, by one die (R259, scopes qd
and die), or by all (R256: performed). -/
inductive Reach where
  | home
  | near (die : Nat)
  | all
  deriving DecidableEq, Repr
def Reach.acks (r : Reach) (d : Nat) : Bool :=
  match r with
  | .home => false
  | .near e => d = e
  | .all => true
/-- The replicas of a line on these dies are gone. -/
def ackDies (s : State) (line : Nat) (ds : List Nat) : State :=
  { s with replicas := ds.foldl (fun m d => spDel m (line * 16 + d)) s.replicas }
/-- Invalidations of a write to a line wait for these dies. -/
def awaitAcks (s : State) (ck line : Nat) (ds : List Nat) : State :=
  if ds = [] then s
  else { s with posted := s.posted ++ [(spFresh s.posted,
    { core := ck, line := line, mask := 0, data := 0, written := true, invs := ds })] }
/-- A core's write of a line's masked bytes, come as far as `r` asks. -/
def commitLine (r : Reach) (s : State) (ck line : Nat) (mask : BitVec 128) (data : BitVec 1024) : State :=
  let ds := replicaDies s line
  awaitAcks (ackDies (homePutMasked s line mask data) line (ds.filter r.acks)) ck line (ds.filter fun d => !r.acks d)
/-- A line written with poisoned bytes is poisoned at its home (R410). -/
def spoil (bad : Bool) (s : State) (line : Nat) : State :=
  { s with poison := if bad then spPut s.poison line true else s.poison }
/-- A posted write comes as far as `r` asks. -/
def performTo (r : Reach) (s : State) (k : Nat) : State :=
  match spFind s.posted k with
  | none => s
  | some w =>
    let t := { s with posted := spDel s.posted k }
    if w.written then
      let rest := w.invs.filter fun d => !r.acks d
      let t := ackDies t w.line (w.invs.filter r.acks)
      if rest = [] then t else { t with posted := spPut t.posted k { w with invs := rest } }
    else spoil w.bad (commitLine r t w.core w.line w.mask w.data) w.line
/-- Perform a posted write whole: written at the home and every replica gone (R256). -/
def performWrite (s : State) (k : Nat) : State := performTo .all s k
/-- Every posted write that p selects comes as far as `r` asks, in order. -/
def performAll (r : Reach) (s : State) (p : PostedWrite → Bool) : State :=
  ((s.posted.filter fun e => p e.2).map (·.1)).foldl (performTo r) s
def performWhere (s : State) (p : PostedWrite → Bool) : State := performAll .all s p
/-- Wait for the invalidations of writes to a line that the home has written (R256). -/
def settleLine (s : State) (line : Nat) : State := performWhere s fun w => w.line = line && w.written
/-- Post a write (R256). -/
def postWrite (s : State) (ck line : Nat) (mask : BitVec 128) (data : BitVec 1024) (bad : Bool) : State :=
  { s with posted := s.posted ++ [(spFresh s.posted, { core := ck, line := line, mask := mask, data := data, bad := bad })] }

/-! ### The L1 (R230, R231) -/

def l1Find (s : State) (ck line : Nat) : Option L1Line := spFind (s.core ck).l1 line
def l1Put (s : State) (ck line : Nat) (x : L1Line) : State := s.updCore ck fun c => { c with l1 := spPut c.l1 line x }
/-- The line's dirty bytes carry poison. -/
def L1Line.spoils (x : L1Line) : Bool := x.bad &&& x.dirty ≠ 0
def l1Drop (s : State) (ck line : Nat) : State := s.updCore ck fun c => { c with l1 := spDel c.l1 line }
/-- Write back a line's dirty bytes and wait until they have come as far as `r` asks. -/
def writeBackTo (r : Reach) (s : State) (ck line : Nat) : State :=
  match l1Find s ck line with
  | none => s
  | some x =>
    if x.dirty = 0 then s
    else
      let s := performAll r s fun w => w.core = ck && w.line = line
      l1Put (spoil x.spoils (commitLine r s ck line x.dirty x.data) line) ck line { x with dirty := 0 }
/-- Write back a line's dirty bytes and wait until they are performed. -/
def writeBack (s : State) (ck line : Nat) : State := writeBackTo .all s ck line
/-- Write back a line's dirty bytes without waiting, and drop the line: an eviction of the L1's own (log 7). -/
def evictLine (s : State) (ck line : Nat) : State :=
  match l1Find s ck line with
  | none => s
  | some x => l1Drop (if x.dirty = 0 then s else postWrite s ck line x.dirty x.data x.spoils) ck line
/-- The lines of a core's L1 that lie in a line's set (the sets of a way of 32 KiB, R229; log 7). -/
def l1SetOf (line : Nat) : Nat := Config.l1Set line % 256
def setMates (s : State) (ck line : Nat) : List (Nat × L1Line) := (s.core ck).l1.filter fun e => l1SetOf e.1 = l1SetOf line
/-- The lines of a set that may leave it next (Table 9-4): a line at the first eviction position before any other, a line with keep
after every line without. -/
def evictable (ls : List (Nat × L1Line)) : List (Nat × L1Line) :=
  if ls.any (·.2.first) then ls.filter (·.2.first)
  else if ls.any fun e => !e.2.keep then ls.filter fun e => !e.2.keep
  else ls
/-- The L1's own eviction of a line, where the order of its set allows it (log 7). -/
def evictFree (s : State) (ck line : Nat) : State :=
  if (evictable (setMates s ck line)).any (·.1 = line) then evictLine s ck line else s
/-- A way of its set for a line not in the L1: a free cache way (the scratchpad's are the highest, R229), else that of a line which
may leave, and which is evicted. -/
def l1Room (s : State) (ck line : Nat) : State × Nat :=
  let ls := setMates s ck line
  match (List.range (16 - (s.core ck).ways)).find? fun w => !(ls.any (·.2.way = w)) with
  | some w => (s, w)
  | none =>
    let r := s.fresh
    match (evictable ls)[r.1 % (evictable ls).length]? with
    | some e => (evictLine r.2 ck e.1, e.2.way)
    | none => (r.2, 0)
/-- A line of the L1 changes; one not there is allocated first. -/
def l1Alloc (s : State) (ck line : Nat) (f : L1Line → L1Line) : State :=
  match l1Find s ck line with
  | some x => l1Put s ck line (f x)
  | none =>
    let r := l1Room s ck line
    l1Put r.1 ck line (f { way := r.2 })
/-- A line's place in the eviction order after an access with a hint (Table 9-4). -/
def hinted (hint : Nat) (x : L1Line) : L1Line := { x with keep := x.keep || hint = 2, first := hint = 1 }
/-- Write back then invalidate a line. -/
def flushLine (s : State) (ck line : Nat) : State := l1Drop (writeBack s ck line) ck line
def l1Lines (s : State) (ck : Nat) : List Nat := spKeys (s.core ck).l1

/-- Every dirty byte of a core written back, and its posted writes, come as far as `r` asks. -/
def writeBackReach (r : Reach) (s : State) (ck : Nat) : State :=
  (l1Lines s ck).foldl (fun s l => writeBackTo r s ck l) (performAll r s fun w => w.core = ck)
/-- Every dirty byte of a core written back, and its posted writes performed. -/
def writeBackAll (s : State) (ck : Nat) : State := writeBackReach .all s ck
/-- Every clean gl byte of a core's L1 invalidated (R230). -/
def invalidateClean (s : State) (ck : Nat) : State :=
  s.updCore ck fun c =>
    let kept := c.l1.map fun e => if e.1 < wsLine0 then (e.1, { e.2 with valid := e.2.valid &&& e.2.dirty, bad := e.2.bad &&& e.2.dirty }) else e
    { c with l1 := kept.filter fun e => e.2.valid ≠ 0 }

/-! ### Welt entries in their slices' tables (R265) -/

/-- Stamp of the latest use, for the least recently used choice. -/
def weltStamp (s : State) : Nat := s.welts.foldl (fun n e => max n (e.2.used + 1)) 0
/-- The first free place of 320 bytes in a region's spill area, and its five aligned parts' physical addresses. -/
def spillPlace (s : State) (ctx region : Nat) : Option (Nat × List Nat) :=
  let r := regionOf s ctx region
  match (List.range (r.spillsz / 320)).find? fun i => !(s.welts.any fun e =>
      e.2.ctx = ctx && e.2.region = region && e.2.spilled = some (r.spill + 320 * i)) with
  | none => none
  | some i =>
    let va := r.spill + 320 * i
    let ps := (List.range 5).filterMap fun k =>
      match translate s ctx (va + 64 * k) needRW with | .ok pa _ => some pa | .bad _ => none
    if ps.length = 5 then some (va, ps) else none
/-- The entry of a word goes to a spill place, whose bytes take an encoding of it that the manual does not give (log 81). -/
def spillEntry (s : State) (pa : Nat) (w : Welt) (place : Nat × List Nat) : State :=
  let r := s.fresh
  let s := (place.2.zip (List.range 5)).foldl (fun s p => homeWrite s p.1 (natBytes 64 (r.1 / 2 ^ (512 * p.2)))) r.2
  { s with welts := spPut s.welts pa { w with spilled := some place.1 } }
/-- Make room in a slice's table of 4,096 entries: spill the least recently used entry whose region's area has room. -/
def weltRoom (s : State) (slice : Nat) : Option State :=
  let here := s.welts.filter fun e => sliceKey e.1 = slice && e.2.spilled.isNone
  if here.length < 4096 then some s
  else
    let can := here.filterMap fun e => (spillPlace s e.2.ctx e.2.region).map fun p => (e, p)
    match can with
    | [] => none
    | e :: r =>
      let v := r.foldl (fun b x => if x.1.2.used < b.1.2.used then x else b) e
      some (spillEntry s v.1.1 v.1.2 v.2)
/-- A word with a live entry is accessed: a spilled one comes back, and it is the latest used (R265). -/
def weltFetch (s : State) (pa : Nat) : State :=
  match spFind s.welts pa with
  | none => s
  | some w =>
    let stamp := weltStamp s
    if w.spilled.isNone then { s with welts := spPut s.welts pa { w with used := stamp } }
    else match weltRoom s (sliceKey pa) with
      | some s => { s with welts := spPut s.welts pa { w with spilled := none, used := stamp } }
      | none => { s with welts := spPut s.welts pa { w with used := stamp } }
/-- As weltFetch, for every word of a range. -/
def weltTouch (s : State) (pa n : Nat) : State := ((weltsIn s pa n).map (·.1)).foldl weltFetch s

/-! ### Replicas (R15, R236): each slice of 3 MiB has 1,536 sets of 16 ways of 128 bytes, of which RWAYS.n hold replicas -/

/-- The replicas that a die's slice holds in a line's set. -/
def replicaMates (s : State) (d line : Nat) : List (Nat × Replica) :=
  let set (l : Nat) : Nat := Config.l2Set l % (3 * 2 ^ 20 / 128 / 16)
  s.replicas.filter fun e =>
    e.1 % 16 = d && sliceOf (e.1 / 16 * 128) = sliceOf (line * 128) && set (e.1 / 16) = set line
/-- A die's slice keeps a replica in a reserved way of its set, in place of another when none is free (log 7). -/
def keepReplica (s : State) (d line : Nat) (data : BitVec 1024) : State :=
  let ms := replicaMates s d line
  match (List.range (s.die d).rways).find? fun w => !(ms.any (·.2.way = w)) with
  | some w => { s with replicas := spPut s.replicas (line * 16 + d) { data := data, way := w } }
  | none =>
    let r := s.fresh
    match ms[r.1 % ms.length]? with
    | some e => { r.2 with replicas := spPut (spDel r.2.replicas e.1) (line * 16 + d) { data := data, way := e.2.way } }
    | none => r.2
/-- Bytes of a line as the home or a local replica answers a die (R236), with poison; a miss keeps a replica when RWAYS is
nonzero and no welt entry of the line is live. -/
def fetchLineAt (s : State) (d line : Nat) : BitVec 1024 × Bool × State :=
  let pa := line * 128
  let home (s : State) : BitVec 1024 := lineOfList (homeBytes s pa 128)
  if homeDie pa = d || line ≥ wsLine0 then (home s, linePoisoned s line, weltTouch s pa 128)
  else match spFind s.replicas (line * 16 + d) with
    | some r => (r.data, false, s)
    | none =>
      let bad := linePoisoned s line
      if weltsIn s pa 128 = [] then (home s, bad, if (s.die d).rways ≠ 0 && !bad then keepReplica s d line (home s) else s)
      else (home s, bad, weltTouch s pa 128)
/-- The home answers no read of a line while an invalidation of a write to it is outstanding; a replica hit is answered. -/
def readWaits (s : State) (d line : Nat) : Bool :=
  homeDie (line * 128) = d && (s.posted.any fun e => e.2.line = line && e.2.written)
  || homeDie (line * 128) ≠ d && (spFind s.replicas (line * 16 + d)).isNone
      && (s.posted.any fun e => e.2.line = line && e.2.written)

/-- A load's bytes: the L1's when it holds them all, else the line is fetched and, but with hint 3, kept (R230, R231). The core's
own posted writes to the line come first (R253). -/
def loadBytes (s : State) (ck pa n hint : Nat) : List Byte × Bool × State :=
  let line := lineOf pa
  let i := pa % 128
  let m := byteMask i n
  let x := (l1Find s ck line).getD {}
  if x.valid &&& m = m then (lineBytes x.data i n, x.bad &&& m ≠ 0, s)
  else
    let s := performAll (.near (coreDie ck)) s fun w => w.core = ck && w.line = line
    let s := if readWaits s (coreDie ck) line then settleLine s line else s
    let r := fetchLineAt s (coreDie ck) line
    let data := mergeLine r.1 x.data x.valid
    let s := if hint ≠ 3 && !r.2.1 then
        l1Alloc r.2.2 ck line fun x => hinted hint { x with valid := BitVec.allOnes 128, data := data }
      else r.2.2
    (lineBytes data i n, r.2.1 && ((x.valid &&& m) ≠ m) || x.bad &&& m ≠ 0, s)
/-- The aligned words of four bytes that lie whole in n bytes from i on: an overwrite ends their poison (R410). -/
def wholeWords (i n : Nat) : BitVec 128 := byteMask ((i + 3) / 4 * 4) ((i + n) / 4 * 4 - (i + 3) / 4 * 4)
/-- A store's bytes into the L1: valid and dirty (R230). -/
def storeL1 (s : State) (ck pa : Nat) (bs : List Byte) (hint : Nat) : State :=
  let m := byteMask (pa % 128) bs.length
  l1Alloc s ck (lineOf pa) fun x => hinted hint
    { x with valid := x.valid ||| m, dirty := x.dirty ||| m, data := mergeLine x.data (placeBytes (pa % 128) bs) m,
             bad := x.bad &&& ~~~wholeWords (pa % 128) bs.length }
/-- A .nol1 store: posted, and any L1 copy takes the bytes, which are not dirty (R231). -/
def storeNoL1 (s : State) (ck pa : Nat) (bs : List Byte) : State :=
  let m := byteMask (pa % 128) bs.length
  let d := placeBytes (pa % 128) bs
  let s := match l1Find s ck (lineOf pa) with
    | some x => l1Put s ck (lineOf pa)
        { x with data := mergeLine x.data d (m &&& x.valid), dirty := x.dirty &&& ~~~m,
                 bad := x.bad &&& ~~~wholeWords (pa % 128) bs.length }
    | none => s
  postWrite s ck (lineOf pa) m d false
/-- A ws-writer's store: straight to the weight store, updating an L1 copy (R230). -/
def storeWs (s : State) (ck pa : Nat) (bs : List Byte) : State :=
  let m := byteMask (pa % 128) bs.length
  let s := match l1Find s ck (lineOf pa) with
    | some x => l1Put s ck (lineOf pa)
        { x with data := mergeLine x.data (placeBytes (pa % 128) bs) (m &&& x.valid),
                 bad := x.bad &&& ~~~wholeWords (pa % 128) bs.length }
    | none => s
  homeWrite s pa bs
/-- The bank of the weight store that refreshes now (R240). -/
def refreshBank (s : State) (d : Nat) : Nat := (s.clock / 2 % 128000 + 128000 - (s.die d).refcal % 128000) % 128000 / 2000
/-- A weight-store line whose bank refreshes now: a read of it waits (R240). -/
def bankWaits (s : State) (d line : Nat) : Bool := wsLine0 ≤ line && line % 64 = refreshBank s d
/-- Bytes an engine reads at the home slice or a local replica, never an L1 (R262, R283), with poison. -/
def engineRead (s : State) (d pa n : Nat) : List Byte × Bool :=
  let line := lineOf pa
  if pa % 128 + n ≤ 128 then
    (if homeDie pa = d || line ≥ wsLine0 then (homeBytes s pa n, rangePoisoned s pa n)
     else match spFind s.replicas (line * 16 + d) with
       | some r => (lineBytes r.data (pa % 128) n, false)
       | none => (homeBytes s pa n, rangePoisoned s pa n))
  else (homeBytes s pa n, rangePoisoned s pa n)

/-! ### Scratchpads (R232, R233) -/

def spRead (b : Block) (a n : Nat) : List Byte := (List.range n).map fun i => spGet 0 b.sp (a + i)
def spWrite (b : Block) (a : Nat) (bs : List Byte) : Block :=
  { b with sp := (bs.foldl (fun r x => (spSet 0 r.1 r.2 x, r.2 + 1)) (b.sp, a)).1,
           spBad := b.spBad.filter fun e => !(a ≤ 4 * e.1 && 4 * e.1 + 4 ≤ a + bs.length) }
/-- A scratchpad range holds a poisoned word (R410). -/
def spPoisoned (b : Block) (a n : Nat) : Bool := b.spBad.any fun e => 4 * e.1 < a + n && a < 4 * e.1 + 4
/-- A scratchpad line is full. -/
def lineFull (b : Block) (line : Nat) : Bool := (spFind b.empty line).isNone
/-- R233. -/
def swizzleOffset (q p xlo xn base r j : Nat) : Nat :=
  base + r * p + ((j / q) ^^^ (r / 2 ^ xlo % 2 ^ xn)) * q + j % q

/-! ### Copies as waits see them (R284, R287 to R289, R297) -/

/-- The low 32 bits of the core-cycle count that RDCLK returns outside Pavane mode (R287). -/
def cycleCount (s : State) (d : Nat) : Nat := s.clock - (s.die d).resetAt
/-- The count reaches a promise (R287). -/
def reaches (count promise : Nat) : Bool := signedNat 32 (count + 2 ^ 32 - promise % 2 ^ 32) ≥ 0
def Copy.complete (c : Copy) : Bool := c.done || c.cancel
/-- The engine-fault trap at a wait on a stopped copy (R289). -/
def Copy.waitTrap (c : Copy) : Option Trap :=
  c.fault.map fun f =>
    { cause := 0x13, wait := true, addr := f.addr, rec_ := c.trec, prog := f.prog, tok := c.token, ipc := some c.ipc }
/-- What a wait on a copy does before it waits, in the group that issued it: a stopped copy traps, then a missed promise under
MODE.ptrap (R288, R289). -/
def copyWaitTrap (s : State) (g k : Nat) : Option Trap :=
  match spFind s.copies k with
  | none => none
  | some c =>
    if c.g ≠ g || c.uid ≠ (s.grp g).uid then none
    else match c.waitTrap with
    | some t => some t
    | none =>
      if !c.complete && c.late && !c.ptrapped && (s.grp g).mode.getLsbD 9 then
        some { cause := 0x12, wait := true, rec_ := c.trec, tok := c.token, ipc := some c.ipc,
               prog := (if c.late then 8 else 0) + c.whole.length * 2 ^ 32 }
      else none
/-- A wait raises the copy's trap; the promise-missed trap comes at most once per copy (R288). -/
def raiseCopyWait (k : Nat) : M Unit := do
  let s ← get
  match copyWaitTrap s s.cur.g k with
  | some t => trapM { t with mask := s.me.resident }
  | none => pure ()
/-- Whether full/empty waits on a line give the track up: no promise, or one more than 256 cycles ahead (R232). -/
def farPromise (s : State) (b line : Nat) : Bool :=
  match spFind (s.blk b).empty line with
  | none => false
  | some 0 => true
  | some (k + 1) =>
    match spFind s.copies k with
    | some c => c.complete || c.pavane || signedNat 32 (c.promise + 2 ^ 32 - cycleCount s (coreDie c.core) % 2 ^ 32) > 256
    | none => true

/-- The group leaves its track for a blocking event and issues the instruction again afterwards. -/
def waitHere (w : Wait) (s : State) : State :=
  let s := s.updMe fun x => { x with pc := s.cur.off }
  let s := blockOn s s.cur.g w
  { s with cur := { s.cur with out := .stalled } }
def blockHere (w : Wait) : M Unit := upd (waitHere w)

/-! ### Release and acquire (R257, R259, Table 10-2) -/

/-- A scope wider than blk acts on the L1 (R230). -/
def wide (scope : Nat) : Bool := 2 ≤ scope
/-- Sample a participant of a load in flight. -/
def samplePart (s : State) (l : Load) (p : Part) : List Byte × Bool × State :=
  let n := if l.wide then 2 ^ WF.vcOf l.o * 16 else tyWidth l.o.h.t.toNat / 8 * 2 ^ WF.vcOf l.o
  if l.o.space.toNat = 1 then (spRead (s.grpBlk l.g) p.ea n, spPoisoned (s.grpBlk l.g) p.ea n, s)
  else loadBytes s (placeCore l.g) p.b n l.o.hint.toNat
/-- Sample the unsampled participants of a load for which q holds, in order; `p.b` holds the physical address. -/
def sampleLoad (s : State) (k : Nat) (q : Part → Bool) : State :=
  match spFind s.loads k with
  | none => s
  | some l =>
    let r := l.parts.foldl (fun acc e =>
      match e.2 with
      | some _ => (acc.1 ++ [e], acc.2)
      | none =>
        if q e.1 then
          let v := samplePart acc.2 l e.1
          (acc.1 ++ [(e.1, some (v.1, v.2.1))], v.2.2)
        else (acc.1 ++ [e], acc.2)) (([] : List (Part × Option (List Byte × Bool))), s)
    { r.2 with loads := spPut r.2.loads k { l with parts := r.1 } }
/-- The group's loads in flight are sampled where they overlap [pa, pa + n) (R253, R254), or all of them. -/
def sampleOwn (s : State) (g pa n : Nat) : State :=
  ((s.loads.filter fun e => e.2.g = g && e.2.o.space.toNat ≠ 1).map (·.1)).foldl
    (fun s k => sampleLoad s k fun p => p.b < pa + n && pa < p.b + 64) s
def sampleAllOwn (s : State) (g : Nat) : State :=
  ((s.loads.filter fun e => e.2.g = g).map (·.1)).foldl (fun s k => sampleLoad s k fun _ => true) s

/-- The actions of a release before the access (Table 10-2): earlier loads are sampled, dirty bytes and posted writes are at
their homes. -/
def doRelease (s : State) (g scope : Nat) : State :=
  let s := sampleAllOwn s g
  let ck := placeCore g
  if 4 ≤ scope then writeBackAll s ck else if wide scope then writeBackReach (.near (coreDie ck)) s ck else s
/-- The actions of an acquire after the access. -/
def doAcquire (s : State) (g scope : Nat) : State :=
  if wide scope then invalidateClean s (placeCore g) else s
def isRel (order : Nat) : Bool := order = 2 || order = 3
def isAcq (order : Nat) : Bool := order = 1 || order = 3
/-- A load in flight that must wait for a refreshing bank before its bytes are read (R240). -/
def Load.bankWaits (s : State) (l : Load) : Bool :=
  let ck := placeCore l.g
  l.o.space.toNat = 2 && l.parts.any fun e =>
    e.2.isNone && Machine.bankWaits s (coreDie ck) (lineOf e.1.b) && (l1Find s ck (lineOf e.1.b)).isNone
/-- What orders the group's earlier loads before it waits for a refreshing bank that one of them reads (R240). -/
def needReads : M Unit := do
  let s ← get
  if s.loads.any fun e => e.2.g = s.cur.g && e.2.bankWaits s then stallM else pure ()
/-- A refused FADDW's budget trap, taken at a release, WREAD, WFLUSH or EXIT (R265). -/
def weltBudget : M Unit := do
  let s ← get
  match s.me.refused with
  | some w => trapM { cause := 0x18, addr := w, mask := s.me.live }
  | none => pure ()
/-- What comes before a release (R265, R240): a refused FADDW's trap, and earlier loads that must wait for a refreshing bank. -/
def beforeRelease : M Unit := do
  weltBudget
  needReads

/-! ### Addresses and checks of Format M (R224 to R227) -/

/-- EffectiveAddress (R225), exact. `indexed` is false where B is data (R269). -/
def eaOf (s : State) (o : FmtM) (indexed : Bool) (t : Nat) : Int :=
  let x := s.seen
  let base : Nat :=
    if WF.isV o.a then (if o.space.toNat = 0 then readVPair x o.a.toNat t else readV x o.a.toNat t)
    else if WF.isK o.a then (if o.space.toNat = 0 then readK x (o.a.toNat - 0x100) else readK x (o.a.toNat - 0x100) % 2 ^ 32)
    else 0
  let index : Int :=
    if !indexed then 0
    else if WF.isV o.b then signedNat 32 (readV x o.b.toNat t)
    else if WF.isK o.b then signedNat 64 (readK x (o.b.toNat - 0x100))
    else if WF.isImm o.b then WF.immVal o.b
    else 0
  base + index + signedNat 24 o.off.toNat

/-- The registers a Format M instruction reads for its address, and those it reads as data. -/
def addressUses (o : FmtM) (indexed : Bool) : List FieldUse := usesBase o ++ (if indexed then use1 o.b else [])

/-- The end of a space (Table 9-1). -/
def spaceEnd (s : State) (o : FmtM) : Nat :=
  match o.space.toNat with
  | 0 => 2 ^ 52
  | 1 => (s.grpBlk s.cur.g).spSize
  | _ => (wsWindow s s.cur.g).2
/-- The physical address of an address of a space: a gl translation, or the weight store. -/
def physical (s : State) (o : FmtM) (n : Need) (ea : Nat) : Xlat :=
  match o.space.toNat with
  | 0 => translateFor s s.cur.g ea n
  | 1 => .ok ea false
  | _ => .ok (wsAddr (coreDie (placeCore s.cur.g)) ((wsWindow s s.cur.g).1 + ea)) false

/-- A participant with its physical address and PROM mark. -/
structure Place where
  tid : Nat
  ea : Nat
  pa : Nat
  prom : Bool
  deriving DecidableEq, Repr

def minInt : List Int → Int
  | [] => 0
  | a :: r => r.foldl min a
/-- A trap of the failing participants, with the lowest failing address. -/
def accessTrap (s : State) (u : Bool) (cause : Nat) (bad : List (Nat × Int)) : Trap :=
  { cause := cause, addr := intBits 64 (minInt (bad.map (·.2))), mask := runnerMask s u (bad.map (·.1)) }

/-- What the checks of Table 9-2 give: every participant's place, or a page fault to defer. -/
inductive Checked where
  | ok (ps : List Place)
  | pageFault (t : Trap)
  deriving DecidableEq, Repr

/-- Checks 1 to 3 of Table 9-2 for accesses of n bytes aligned to `al`. -/
def checkAccess (o : FmtM) (eas : List (Nat × Int)) (n al : Nat) (nd : Need) : M Checked := do
  let s ← get
  let u := o.h.u
  let out := eas.filter fun e => e.2 < 0 || e.2 + (n : Int) > (spaceEnd s o : Int)
  need (out = []) (accessTrap s u (if o.space.toNat = 1 then 0x0C else cProt) out)
  let mis := eas.filter fun e => e.2 % (al : Int) ≠ 0
  need (mis = []) (accessTrap s u 0x08 mis)
  let xs := eas.map fun e => (e, physical s o nd e.2.toNat)
  let fail (c : Nat) := (xs.filter fun e => e.2 = .bad c).map (·.1)
  need (fail cProt = []) (accessTrap s u cProt (fail cProt))
  need (fail cPoison = []) (accessTrap s u cPoison (fail cPoison))
  if fail cPage ≠ [] then pure (.pageFault { accessTrap s u cPage (fail cPage) with defer := true })
  else
    pure (.ok (xs.filterMap fun e =>
      match e.2 with
      | .ok pa prom => some { tid := e.1.1, ea := e.1.2.toNat, pa := pa, prom := prom }
      | .bad _ => none))

/-- A page fault on a data access (R404): the instruction enters the operand log and the fault is queued, or with a full log
the group waits; a control core's own fault is a firmware fault. -/
def deferAccess (i : Instr) (t : Trap) (parts : List Part) : M Unit := do
  let s ← get
  let g := s.cur.g
  let ck := placeCore g
  if isControl g then trapM { t with defer := false }
  else if 64 ≤ (s.oplog.filter fun e => e.core = ck).length then blockHere .fullLog
  else upd fun s =>
    let e : LogEntry := { core := ck, g := g, uid := s.me.uid, off := s.cur.off, plane := s.cur.plane, lx := s.me.lx, instr := i, parts := parts }
    queueTrap { s with oplog := s.oplog ++ [e] } (quadOf ck) (some g) (trapRegs s (some g) s.cur.off t)

/-- The block holds its launch's Promenade token (R266): it is a block of the launch's grid and the token stands at its BID. -/
def hasToken (s : State) (g : Nat) : Bool := (s.grpLch g).token = (s.grpBlk g).bid && (s.grpBlk g).spawnOf.isNone
/-- The block holds the token, or PROM has no effect on it (R266, R267). -/
def holdsToken (s : State) (g : Nat) : Bool := !s.grpPavane g || hasToken s g
/-- Writes to PROM lines wait for the token (R267). -/
def promWaits (s : State) (ps : List Place) : Bool := !holdsToken s s.cur.g && ps.any fun p => p.prom

/-- The registers from D upward, low bytes first (R243); `wide` fills k registers eight bytes at a time. -/
def putLoad (o : FmtM) (isWide : Bool) (x : Group) (t : Nat) (bs : List Byte) (latch : Bool) : Group :=
  let v := bytesNat bs
  let ty := o.h.t.toNat
  let n := o.d.toNat
  let x := if latch then
      (let lv := v % 2 ^ 64
       if o.h.u then setLatchAll x o.h.l.toNat lv else setLatch x o.h.l.toNat t lv)
    else x
  if o.h.s then x
  else if isWide then
    (List.range (bs.length / 8)).foldl (fun x i => setK x (n - 0x100 + i) (v / 2 ^ (64 * i) % 2 ^ 64)) x
  else if o.h.u then setK x (n - 0x100) (extend ty 64 v)
  else if tyWidth ty < 32 then setV x n t (extend ty 32 v)
  else (List.range (bs.length / 4)).foldl (fun x i => setV x (n + i) t (v / 2 ^ (32 * i) % 2 ^ 32)) x
/-- Mark a load's destination registers poisoned for a thread (R411). -/
def poisonLoad (l : Load) (x : Group) (t : Nat) : Group :=
  l.dests.foldl (fun x f =>
    (List.range f.2).foldl (fun x i =>
      if WF.isV f.1 then { x with poisonV := spPut x.poisonV ((f.1.toNat + i) * 64 + t) true }
      else if WF.isK f.1 then { x with poisonK := spPut x.poisonK (f.1.toNat - 0x100 + i) true } else x) x) x
/-- A load's data arrives (R243, R411): written to the destinations, or the destinations are poisoned and poison consumed is
raised, deferred. -/
def completeLoad (s : State) (k : Nat) : State :=
  match spFind s.loads k with
  | none => s
  | some l =>
    let s := sampleLoad s k fun _ => true
    let l := (spFind s.loads k).getD l
    let s := { s with loads := spDel s.loads k }
    if !s.sameGrp l.g l.uid then s
    else
      let latch := (s.grp l.g).lx = l.lx && (s.grp l.g).line.isSome
      let s := s.updGrp l.g fun x => l.parts.foldl (fun x e =>
        match e.2 with
        | some (bs, false) => putLoad l.o l.wide x e.1.tid bs latch
        | some (_, true) => poisonLoad l x e.1.tid
        | none => x) x
      let bad := (l.parts.filter fun e => match e.2 with | some (_, true) => true | _ => false).map fun e => e.1.tid
      if bad = [] then s
      else
        let m := if l.o.h.u then (s.grp l.g).resident else maskOf fun t => bad.contains t
        let ea := ((l.parts.filter fun e => bad.contains e.1.tid).map fun e => e.1.ea).foldl min (2 ^ 64)
        raiseAt s l.g l.off { cause := cPoison, defer := true, addr := ea, mask := m, pc := some (l.off, if l.o.h.u then l.plane else planeOf (s.grp l.g) (maskLow m)) }

/-! ### Full and empty lines (R232, R248, R284) -/

/-- Groups of a block that wait on a line become ready. -/
def wakeLine (s : State) (b line : Nat) : State :=
  ((s.groups.filter fun e => !isControl e.1 && e.2.block = b && e.2.wait = .fullEmpty line).map (·.1)).foldl makeReady s
/-- A line turns full. -/
def setFull (s : State) (b line : Nat) : State :=
  wakeLine (s.updBlk b fun x => { x with empty := spDel x.empty line }) b line
/-- FEMARK.empty: the line is empty; a copy in flight to it is the one that fills it (R248). -/
def setEmpty (s : State) (b line : Nat) : State :=
  s.updBlk b fun x => { x with empty := spPut x.empty line (spGet 0 x.filling line) }
/-- The engine-fault trap of a staging range of the block that stopped before this line (R309). -/
def stageTrap (s : State) (b line : Nat) : Option Trap :=
  (s.stages.find? fun e => e.2.block = some b && e.2.stopped && !e.2.told &&
      (match e.2.sp with | some a => a / 128 + e.2.landed ≤ line && line < a / 128 + e.2.landed + e.2.left | none => false)).map
    fun e => { cause := 0x13, wait := true, addr := e.2.va + 128 * e.2.landed, prog := e.2.range + e.2.landed * 2 ^ 32,
               stage := some e.1 }
/-- Wait on an empty line at issue: the copy's trap, then the blocking event or the stall of R232. -/
def waitFull (line : Nat) : M Unit := do
  let s ← get
  let b := s.me.block
  match spFind (s.blk b).empty line with
  | none => pure ()
  | some k =>
    if k ≠ 0 then raiseCopyWait (k - 1)
    else match stageTrap s b line with
      | some t => trapM { t with mask := s.me.resident }
      | none => pure ()
    if farPromise s b line && !s.grpPavane s.cur.g then blockHere (.fullEmpty line) else upd stalled

/-! ### An instruction held at one of its threads (R232, R268) -/

/-- A participant's result: old bits, or none where the data was poisoned. -/
abbrev Got := Nat × Option Nat
/-- What the threads that went before got, when the instruction being issued was held. -/
def heldGot (s : State) : List Got :=
  match s.me.held with
  | some h => if h.off = s.cur.off && h.plane = s.cur.plane then h.got.filter (fun e => e.1 < 64) else []
  | none => []
/-- The participants still to go. -/
def heldRest (s : State) (ps : List (Place × Part)) : List (Place × Part) :=
  ps.filter fun p => !((heldGot s).any fun e => e.1 = p.1.tid)
/-- The instruction is held, its earlier threads having got these values; or it is held no more. -/
def holdAt (got : List Got) (s : State) : State :=
  s.updMe fun x => { x with held := some { off := s.cur.off, plane := s.cur.plane, got := got } }
def holdNone (s : State) : State := s.updMe fun x => { x with held := none }
/-- The participants before the first one whose scratchpad line is empty, and that line. -/
def beforeEmpty (s : State) (ps : List (Place × Part)) : List (Place × Part) × Option Nat :=
  let full (p : Place × Part) : Bool := lineFull (s.grpBlk s.cur.g) (p.1.ea / 128)
  (ps.takeWhile full, (ps.find? fun p => !full p).map fun p => p.1.ea / 128)

/-- The frame of a Format M access: participants, stale latches, the checks of Table 9-2 (`extra` is check 4), poisoned
registers, then the body on every participant's place and data, or the operand log (R227, R228, R404). -/
def runM (i : Instr) (o : FmtM) (indexed : Bool) (data : List FieldUse) (n al : Nat) (nd : Need) (extra : List Place → M Unit)
    (mk : State → Nat → Nat × Nat) (body : List (Place × Part) → M Unit) : M Unit := do
  let s ← get
  let ts := runners s o.h
  let us := addressUses o indexed ++ data
  checkStale o.h.u us ts
  let eas := ts.map fun t => (t, eaOf s o indexed t)
  let part (t ea : Nat) : Part := { tid := t, ea := ea, b := (mk s t).1, c := (mk s t).2 }
  match ← checkAccess o eas n al nd with
  | .pageFault t => deferAccess i t (eas.map fun e => part e.1 e.2.toNat)
  | .ok ps =>
    extra ps
    checkPoison o.h.u us ts
    body (ps.map fun p => (p, part p.tid p.ea))

end Sys2Proof.Machine
end

