-- ==== Sys2Proof/Machine/Lsu.lean ====
section
/-! DEFINITION. Lsu.lean: the instructions at 0x90 to 0x98 (R242 to R249) and the events that end loads and stores. -/

namespace Sys2Proof.Machine

/-- Bytes a load or store moves (R226). -/
def moveBytes (o : FmtM) : Nat := tyWidth o.h.t.toNat / 8 * 2 ^ WF.vcOf o
def wideBytes (o : FmtM) : Nat := 16 * 2 ^ WF.vcOf o
def noExtra : List Place → M Unit := fun _ => pure ()
def noData : State → Nat → Nat × Nat := fun _ _ => (0, 0)
/-- The first participant, in issue order, whose scratchpad line is empty. -/
def firstEmpty (s : State) (ps : List Place) : Option Nat :=
  (ps.find? fun p => !lineFull (s.grpBlk s.cur.g) (p.ea / 128)).map fun p => p.ea / 128

/-- A load goes in flight, its data still to arrive; a scratchpad load's bytes are read at once, and so are those of a pavane block's
load, in its turn (R321); an acquire takes effect at issue (R243, R244, R259). -/
def startLoad (o : FmtM) (isWide : Bool) (n : Nat) (ps : List (Place × Part)) (s : State) : State :=
  let g := s.cur.g
  let s := if o.space.toNat = 1 then s else ps.foldl (fun s p => sampleOwn s g p.1.pa n) s
  let k := spFresh s.loads
  let l : Load := {
    g := g, uid := s.me.uid, off := s.cur.off, plane := s.cur.plane, lx := s.me.lx, o := o, wide := isWide,
    parts := ps.map fun p => ({ tid := p.1.tid, ea := p.1.ea, b := p.1.pa },
      ((heldGot s).find? fun e => e.1 = p.1.tid).map fun e => (natBytes n (e.2.getD 0), e.2.isNone)) }
  let s := holdNone { s with loads := spPut s.loads k l }
  if isAcq o.order.toNat then doAcquire (sampleLoad (sampleAllOwn s g) k fun _ => true) g o.scope.toNat
  else if o.space.toNat = 1 || s.grpPavane g then sampleLoad s k fun _ => true
  else s
/-- A load read at its issue waits for a refreshing bank, and so does one that orders the group's loads in flight (R240). -/
def loadBanks (o : FmtM) (ps : List (Place × Part)) : M Unit := do
  let s ← get
  let ck := placeCore s.cur.g
  if isAcq o.order.toNat || o.space.toNat = 2 then needReads
  if o.space.toNat = 2 && (isAcq o.order.toNat || s.grpPavane s.cur.g)
      && (ps.any fun p => bankWaits s (coreDie ck) (lineOf p.1.pa) && (l1Find s ck (lineOf p.1.pa)).isNone) then stallM
  else pure ()
/-- The body of LD and LDW: a scratchpad load is held at the first thread whose line is empty, the earlier ones having read theirs
(R232). -/
def loadBody (o : FmtM) (isWide : Bool) (n : Nat) (ps : List (Place × Part)) : M Unit := do
  let s ← get
  let r := beforeEmpty s (heldRest s ps)
  match if o.space.toNat = 1 then r.2 else none with
  | some l => do
    upd fun s => holdAt (heldGot s ++ r.1.map fun p =>
      (p.1.tid, if spPoisoned (s.grpBlk s.cur.g) p.1.ea n then none else some (bytesNat (spRead (s.grpBlk s.cur.g) p.1.ea n)))) s
    waitFull l
  | none =>
    if ps = [] then pure ()
    else do
      loadBanks o ps
      upd (startLoad o isWide n ps)

/-- LD (R243). -/
def ldCore (o : FmtM) : M Unit :=
  runM (.ld o) o true [] (moveBytes o) (moveBytes o) needR noExtra noData (loadBody o false (moveBytes o))
def execLd (o : FmtM) (s : State) : Host.Outcome State Fault Refusal := finish (ldCore o) s

/-- The low bytes of the registers from D upward (R243). -/
def storeData (s : State) (o : FmtM) (t : Nat) : Nat :=
  let n := moveBytes o
  let x := s.seen
  (if o.h.u then readK x (o.d.toNat - 0x100)
   else sumNat ((List.range (WF.spanRegs o)).map fun i => readV x (o.d.toNat + i) t * 2 ^ (32 * i))) % 2 ^ (8 * n)
/-- One store of n bytes at a place (R230 to R232). -/
def storeAt (o : FmtM) (n : Nat) (s : State) (p : Place × Part) : State :=
  let g := s.cur.g
  let ck := placeCore g
  let bs := natBytes n p.2.b
  match o.space.toNat with
  | 0 =>
    let s := sampleOwn s g p.1.pa n
    if o.hint.toNat = 3 then storeNoL1 s ck p.1.pa bs else storeL1 s ck p.1.pa bs o.hint.toNat
  | 1 => s.updBlk s.me.block fun b => spWrite b p.1.ea bs
  | _ => storeWs (sampleOwn s g p.1.pa n) ck p.1.pa bs
/-- The stores in issue order; a release comes before them, and its own bytes go home (log 22). -/
def storeAll (o : FmtM) (n : Nat) (ps : List (Place × Part)) (s : State) : State :=
  let g := s.cur.g
  let rel := isRel o.order.toNat && ps ≠ []
  let s := if rel then doRelease s g o.scope.toNat else s
  let s := ps.foldl (storeAt o n) s
  if rel then doRelease s g o.scope.toNat else s
/-- The body of ST: the Promenade wait, then the stores. -/
def storeBody (o : FmtM) (n : Nat) (ps : List (Place × Part)) : M Unit := do
  let s ← get
  if o.space.toNat = 0 && promWaits s (ps.map (·.1)) then blockHere .tokwait
  else do
    if isRel o.order.toNat && ps ≠ [] then weltBudget
    if (isRel o.order.toNat || o.space.toNat = 2) && ps ≠ [] then needReads
    upd (storeAll o n ps)
/-- Check 4 of Table 9-2. -/
def wsCheck (o : FmtM) (ps : List Place) : M Unit := do
  let s ← get
  need (o.space.toNat ≠ 2 || (s.grpLch s.cur.g).flag 4 || ps = [])
    (accessTrap s o.h.u 0x16 (ps.map fun p => (p.tid, (p.ea : Int))))
/-- ST (R243). -/
def stCore (o : FmtM) : M Unit :=
  runM (.st o) o true [(o.d, if o.h.u then 1 else WF.spanRegs o)] (moveBytes o) (moveBytes o) needW (wsCheck o)
    (fun s t => (storeData s o t, 0)) (storeBody o (moveBytes o))
def execSt (o : FmtM) (s : State) : Host.Outcome State Fault Refusal := finish (stCore o) s

/-- LDW (R244). -/
def ldwCore (o : FmtM) : M Unit :=
  runM (.ldw o) o true [] (wideBytes o) (wideBytes o) needR noExtra noData (loadBody o true (wideBytes o))
def execLdw (o : FmtM) (s : State) : Host.Outcome State Fault Refusal := finish (ldwCore o) s

/-- One participant of PREF (R245): its line enters L2, and L1 by Table 9-4, unless it is out of range, fails translation, is
poisoned or lies in a refreshing bank, or the machine drops it, which is a free choice (log 14). -/
def prefetchLine (o : FmtM) (s : State) (t : Nat) : State :=
  let ck := placeCore s.cur.g
  let ea := eaOf s o true t
  let r := s.fresh
  if r.1 % 2 = 0 || poisonAt s.seen (addressUses o true) t || ea < 0 || (spaceEnd s o : Int) ≤ ea || (o.space.toNat = 2 && ea.toNat / 128 % 64 = refreshBank s (coreDie ck)) then r.2
  else match physical s o needR ea.toNat with
    | .bad _ => r.2
    | .ok pa _ =>
      if linePoisoned s (lineOf pa) then r.2
      else (loadBytes r.2 ck (lineOf pa * 128) 128 o.hint.toNat).2.2
/-- PREF (R245): it writes nothing and raises no trap. -/
def prefetch (o : FmtM) (s : State) : State := (runners s o.h).foldl (prefetchLine o) s
def execPref (o : FmtM) (s : State) : Host.Outcome State Fault Refusal := .next (prefetch o s)

/-- Scratchpad lines of a core's resident blocks and the spill areas of its resident groups (CARVE.lines, R229). -/
def carveLines (s : State) (ck : Nat) : Nat :=
  let bs := s.blocks.filter fun e => e.2.die * 64 + e.2.core = ck && e.2.state ≠ .saved
  sumNat (bs.map fun e => e.2.spSize / 128 + 6 * residentGroups s e)
/-- Ways that so many lines need: 256 lines a way. -/
def waysFor (lines : Nat) : Nat := (lines + 255) / 256
/-- The scratchpad ways become m: the lines of a way that leaves the cache are written back and dropped (R246). -/
def setWays (s : State) (ck m : Nat) : State :=
  let gone := ((s.core ck).l1.filter fun e => 16 - m ≤ e.2.way).map (·.1)
  (gone.foldl (fun s l => l1Drop (writeBackTo .home s ck l) ck l) s).updCore ck fun c => { c with ways := m }
/-- The ways become m if they are from 0 to 15 and hold the scratchpads in use; the result is m, or the ways as they stay with
bit 63 set. -/
def resizeTo (o : FmtM) (m : Int) (s : State) : State :=
  let ck := placeCore s.cur.g
  let ok := 0 ≤ m && m ≤ 15 && waysFor (carveLines s ck) ≤ m.toNat
  let s := if ok then setWays s ck m.toNat else s
  s.updMe fun x => writeDest x o.h o.d 3 0 (if ok then m.toNat else (s.core ck).ways + 2 ^ 63)
/-- CRESIZE (R246). -/
def cresizeCore (o : FmtM) : M Unit := do
  let s ← get
  if !guardG s o.h then pure ()
  else do
    checkSources true (use1 o.a) [0]
    upd (resizeTo o (signedNat 64 (srcAs s true 7 o.a 0)))
def execCresize (o : FmtM) (s : State) : Host.Outcome State Fault Refusal := finish (cresizeCore o) s

/-- A count or length in B: a k register unsigned, or an immediate (R247 to R249). -/
def lengthB (s : State) (o : FmtM) : Nat :=
  if WF.isK o.b then readK s.seen (o.b.toNat - 0x100) else intBits 64 (WF.immVal o.b)
/-- The physical lines of the core's L1 that a range names; a line whose translation fails is skipped (R247). -/
def rangeLines (s : State) (o : FmtM) (ea : Int) (len : Nat) : List Nat :=
  if len = 0 then []
  else
    let lo := ea / 128
    let k := ((ea + len - 1) / 128 - lo + 1).toNat
    (List.range k).filterMap fun i =>
      let a := (lo + i) * 128
      if a < 0 then none
      else match physical s o {} a.toNat with
        | .ok pa _ => some (lineOf pa)
        | .bad _ => none
/-- The lines that CFLUSH and CINV name: a range of at most 524,288 bytes, else every line. -/
def flushedLines (s : State) (o : FmtM) : List Nat :=
  let len := lengthB s o
  if WF.bit79 o || len > 524288 then l1Lines s (placeCore s.cur.g) else rangeLines s o (eaOf s { o with b := 0x148#10 } true 0) len
/-- Lines of the issuing core's L1, and its posted writes to them, are written at their homes, and dropped if `drop`. -/
def flushLines (drop : Bool) (ls : List Nat) (s : State) : State :=
  let ck := placeCore s.cur.g
  let s := ls.foldl (fun s l => performAll .home s fun w => w.core = ck && w.line = l) s
  ls.foldl (fun s l =>
    let s := writeBackTo .home s ck l
    if drop then l1Drop s ck l else s) s
/-- CFLUSH and CINV (R247). -/
def flushCore (o : FmtM) (drop : Bool) : M Unit := do
  let s ← get
  if !guardG s o.h then pure ()
  else do
    checkSources true (addressUses o true) [0]
    upd (flushLines drop (flushedLines s o))
def execCflush (o : FmtM) (s : State) : Host.Outcome State Fault Refusal := finish (flushCore o false) s
def execCinv (o : FmtM) (s : State) : Host.Outcome State Fault Refusal := finish (flushCore o true) s

/-- n scratchpad lines from an address turn full or empty. -/
def markLines (full : Bool) (b ea n : Nat) (s : State) : State :=
  (List.range n).foldl (fun s i => if full then setFull s b (ea / 128 + i) else setEmpty s b (ea / 128 + i)) s
/-- FEMARK (R248). -/
def femarkCore (o : FmtM) : M Unit := do
  let s ← get
  if !guardG s o.h then pure ()
  else do
    checkStale true (addressUses o true) [0]
    let n := lengthB s o
    let ea := eaOf s { o with b := 0x148#10 } true 0
    let b := s.me.block
    need (n = 0 || (0 ≤ ea && (ea / 128 + n) * 128 ≤ (s.blk b).spSize)) (accessTrap s true 0x0C [(0, ea)])
    need (ea % 128 = 0) (accessTrap s true 0x08 [(0, ea)])
    checkPoison true (addressUses o true) [0]
    upd (markLines (WF.bit79 o) b ea.toNat n)
def execFemark (o : FmtM) (s : State) : Host.Outcome State Fault Refusal := finish (femarkCore o) s

/-- Each runner's truth goes to its latch and to predicate D. -/
def putTest (o : FmtM) (vs : List (Nat × Bool)) (s : State) : State :=
  s.updMe fun x => vs.foldl (fun x e =>
    let x := latchRes x o.h 3 e.1 (if e.2 then 1 else 0)
    if o.h.s then x else setPred x o.h.u (o.d.toNat % 8) e.1 e.2) x
/-- FETEST (R249). -/
def fetestCore (o : FmtM) : M Unit := do
  let s ← get
  let ts := runners s o.h
  checkStale o.h.u (addressUses o o.h.u) ts
  let b := s.grpBlk s.cur.g
  let n := if o.h.u then lengthB s o else 1
  let eas := ts.map fun t => (t, eaOf s { o with b := 0x148#10 } true t)
  let bad := eas.filter fun e =>
    n ≠ 0 && (e.2 < 0 || (if o.h.u then (e.2 / 128 + (n : Int)) * 128 > (b.spSize : Int) else e.2 + 1 > (b.spSize : Int)))
  need (bad = []) (accessTrap s o.h.u 0x0C bad)
  checkPoison o.h.u (addressUses o o.h.u) ts
  upd (putTest o (eas.map fun e => (e.1, (List.range n).all fun i => lineFull b (e.2.toNat / 128 + i))))
def execFetest (o : FmtM) (s : State) : Host.Outcome State Fault Refusal := finish (fetestCore o) s

/-- A load waits: the home does not answer a read of one of its lines yet (R236, R237), or the line's weight-store bank
refreshes (R240). -/
def loadWaits (s : State) (l : Load) : Bool :=
  let ck := placeCore l.g
  l.o.space.toNat ≠ 1 && l.parts.any fun e => e.2.isNone &&
    (readWaits s (coreDie ck) (lineOf e.1.b) || l.bankWaits s)
/-- LOAD_DATA_ARRIVAL (R243, R411): a load in flight that need not wait completes. -/
def execLoadDataArrival (load : Nat) (s : State) : Host.Outcome State Fault Refusal :=
  match spFind s.loads load with
  | none => .next s
  | some l => if loadWaits s l then .next s else .next (completeLoad s load)

/-- WRITE_PERFORMED (R256): the home writes the line; each later event brings one die's acknowledgement of its invalidation, which
die being a free choice (R241). -/
def execWritePerformed (write : Nat) (s : State) : Host.Outcome State Fault Refusal :=
  match spFind s.posted write with
  | none => .next s
  | some w =>
    let first := s.posted.find? fun e => e.2.line = w.line && (e.2.core = w.core || e.2.written)
    if first.map (·.1) ≠ some write then .next s
    else if w.written then .next (performTo (.near (w.invs.getD (s.fresh.1 % w.invs.length) 0)) s.fresh.2 write)
    else .next (performTo .home s write)

end Sys2Proof.Machine
end

