-- ==== Sys2Proof/Machine/Atomics.lean ====
section
/-! DEFINITION. Atomics.lean: atomics, welt operations, fences, the Promenade token and REDIX (10_memory_model). They act at
their home slice at issue (log 26). -/

namespace Sys2Proof.Machine

/-! ### One access at the home slice -/

/-- The issuing core's bytes of a line are written back and dropped, its posted writes and the line's invalidations are over,
and the group's own loads there are sampled (R253, R256, R270, R271). -/
def atHome (s : State) (pa n : Nat) : State :=
  let g := s.cur.g
  let ck := placeCore g
  let line := lineOf pa
  let s := sampleOwn s g pa n
  let s := performWhere s fun w => w.core = ck && w.line = line
  settleLine (flushLine s ck line) line

/-- AtomOp (R270). -/
def atomOp (ty aop old b : Nat) : Nat :=
  let w := tyWidth ty
  let lt (x y : Nat) : Bool := if isSigned ty then signedNat w x < signedNat w y else x < y
  match aop with
  | 0 => (old + b) % 2 ^ w
  | 1 => if lt b old then b else old
  | 2 => if lt old b then b else old
  | 3 => old &&& b
  | 4 => old ||| b
  | 5 => old ^^^ b
  | 6 => b
  | _ => old
/-- Bits written at the home by the issuing core (R237). -/
def homeWriteMe (s : State) (pa n v : Nat) : State := homeWriteBy s (placeCore s.cur.g) pa (natBytes n v)
/-- AtomicStep at a place: `f` gives the new value, if one is written. -/
def atomicAt (o : FmtM) (f : Part → Nat → Option Nat) (acc : State × List Got) (p : Place × Part) : State × List Got :=
  let n := tyWidth o.h.t.toNat / 8
  let s := acc.1
  if o.space.toNat = 1 then
    let b := s.me.block
    if spPoisoned (s.blk b) p.1.ea n then (s, acc.2 ++ [(p.1.tid, none)])
    else
    let old := bytesNat (spRead (s.blk b) p.1.ea n)
    let s := match f p.2 old with
      | some v => s.updBlk b fun x => spWrite x p.1.ea (natBytes n v)
      | none => s
    (s, acc.2 ++ [(p.1.tid, some old)])
  else
    let s := atHome s p.1.pa n
    if linePoisoned s (lineOf p.1.pa) then
      ((match f p.2 0 with | some v => if dieServes s (homeDie p.1.pa) then s else homeWriteNat s p.1.pa n v | none => s),
        acc.2 ++ [(p.1.tid, none)])
    else
      let s := flushWelts s p.1.pa n
      let old := homeNat s p.1.pa n
      let s := match f p.2 old with
        | some v => homeWriteMe s p.1.pa n v
        | none => s
      (s, acc.2 ++ [(p.1.tid, some old)])

/-- Mark registers poisoned for a thread (R411). -/
def poisonUses (us : List FieldUse) (x : Group) (t : Nat) : Group :=
  us.foldl (fun x f =>
    (List.range f.2).foldl (fun x i =>
      if WF.isV f.1 then { x with poisonV := spPut x.poisonV ((f.1.toNat + i) * 64 + t) true }
      else if WF.isK f.1 then { x with poisonK := spPut x.poisonK (f.1.toNat - 0x100 + i) true } else x) x) x
/-- Write the results of an access at the home to D and the latch; poisoned ones poison D and raise 0x17, deferred (R411). -/
def putGot (o : FmtM) (ty : Nat) (ps : List (Place × Part)) (rs : List Got) (s : State) : State :=
  let g := s.cur.g
  let dest := unlessS o.h (useTy ty o.d)
  let s := s.updMe fun x => rs.foldl (fun x r =>
    match r.2 with
    | some v => writeDest x o.h o.d ty r.1 v
    | none => poisonUses dest x r.1) x
  let bad := (rs.filter fun r => r.2.isNone).map (·.1)
  if bad = [] then s
  else
    let m := runnerMask s o.h.u bad
    let ea := ((ps.filter fun p => bad.contains p.1.tid).map fun p => p.1.ea).foldl min (2 ^ 64)
    raiseAt s g s.cur.off { cause := cPoison, defer := true, addr := ea, mask := m, pc := some (s.cur.off, if o.h.u then s.cur.plane else planeOf s.me (maskLow m)) }

/-- Data operands B and C as bits of the type. -/
def dataBC (o : FmtM) (s : State) (t : Nat) : Nat × Nat :=
  (srcAs s o.h.u o.h.t.toNat o.b t, srcAs s o.h.u o.h.t.toNat o.c t)
/-- A release before an access at the home, an acquire after it (R258, R259). -/
def around (o : FmtM) (f : State → State) (s : State) : State :=
  let g := s.cur.g
  let s := if isRel o.order.toNat then doRelease s g o.scope.toNat else s
  let s := f s
  if isAcq o.order.toNat then doAcquire (sampleAllOwn s g) g o.scope.toNat else s
/-- The order of an atomic around its accesses: waits for full lines and for the token, release before, acquire after. -/
def ordered (o : FmtM) (ps : List (Place × Part)) (prom : Bool) (f : State → State) : M Unit := do
  let s ← get
  match if o.space.toNat = 1 then firstEmpty s (ps.map (·.1)) else none with
  | some l => waitFull l
  | none =>
    if prom && promWaits s (ps.map (·.1)) then blockHere .tokwait
    else if ps = [] then pure ()
    else do
      if isRel o.order.toNat then weltBudget
      if isRel o.order.toNat || isAcq o.order.toNat then needReads
      upd (around o f)

/-- The accesses at their places in issue order, then the results. -/
def atomAll (o : FmtM) (f : Part → Nat → Option Nat) (ps : List (Place × Part)) (s : State) : State :=
  let r := (heldRest s ps).foldl (atomicAt o f) (s, heldGot s)
  putGot o o.h.t.toNat ps r.2 (holdNone r.1)
/-- The body of ATOM and CAS: a scratchpad atomic is held at the first thread whose line is empty, the earlier ones being done
(R232, R270). -/
def atomBody (o : FmtM) (f : Part → Nat → Option Nat) (ps : List (Place × Part)) : M Unit := do
  let s ← get
  let r := beforeEmpty s (heldRest s ps)
  match if o.space.toNat = 1 then r.2 else none with
  | some l => do
    upd fun s =>
      let a := r.1.foldl (atomicAt o f) (if isRel o.order.toNat then doRelease s s.cur.g o.scope.toNat else s, heldGot s)
      holdAt a.2 a.1
    waitFull l
  | none => ordered o ps true (atomAll o f ps)
def atomNew (o : FmtM) (p : Part) (old : Nat) : Option Nat := some (atomOp o.h.t.toNat (WF.aop o) old p.b)
def casNew (p : Part) (old : Nat) : Option Nat := some (if old = p.b then p.c else old)
def atomscNew (o : FmtM) (p : Part) (old : Nat) : Option Nat :=
  if WF.aop o = 7 then none else some (atomOp o.h.t.toNat (WF.aop o) old p.b)
def atomBytes (o : FmtM) : Nat := tyWidth o.h.t.toNat / 8

/-- ATOM (R270). -/
def atomCore (o : FmtM) : M Unit :=
  runM (.atom o) o false (useTy o.h.t.toNat o.b) (atomBytes o) (atomBytes o) needRW noExtra (dataBC o) (atomBody o (atomNew o))
def execAtom (o : FmtM) (s : State) : Host.Outcome State Fault Refusal := finish (atomCore o) s
/-- CAS (R270). -/
def casCore (o : FmtM) : M Unit :=
  runM (.cas o) o false (useTy o.h.t.toNat o.b ++ useTy o.h.t.toNat o.c) (atomBytes o) (atomBytes o) needRW noExtra (dataBC o)
    (atomBody o casNew)
def execCas (o : FmtM) (s : State) : Host.Outcome State Fault Refusal := finish (casCore o) s
/-- A sequencer's ticket for an operation (R261): the issuing die's, or that of the package sequencer on die 0 for a scope or a home
beyond the die; an EMY-D48 has none and scope pkg is scope die (R1). -/
def ownTicket (scope : Nat) (s : State) (p : Place × Part) : Bool :=
  s.part = 0 || (scope = 3 && homeDie p.1.pa = coreDie (placeCore s.cur.g))
def takeTicket (scope : Nat) (s : State) (p : Place × Part) : State :=
  if ownTicket scope s p then s.updDie (coreDie (placeCore s.cur.g)) fun x => { x with ticket := x.ticket + 1 }
  else s.updDie 0 fun x => { x with pkgTicket := x.pkgTicket + 1 }
/-- One participant's ATOMSC: its ticket, then the operation at the home; an operation for the sequencer of a die 0 that does not
serve is dropped there and counted, and its read returns poison (R413). -/
def atomscOne (o : FmtM) (acc : State × List Got) (p : Place × Part) : State × List Got :=
  if !ownTicket o.scope.toNat acc.1 p && !dieServes acc.1 0 then
    (acc.1.updDie 0 fun d => { d with drops := d.drops + 1 }, acc.2 ++ [(p.1.tid, none)])
  else atomicAt o (atomscNew o) (takeTicket o.scope.toNat acc.1 p, acc.2) p
def atomscAll (o : FmtM) (ps : List (Place × Part)) (s : State) : State :=
  let r := ps.foldl (atomscOne o) (s, [])
  putGot o o.h.t.toNat ps r.2 r.1
def atomscBody (o : FmtM) (ps : List (Place × Part)) : M Unit := ordered o ps true (atomscAll o ps)
/-- ATOMSC (R261, R270). -/
def atomscCore (o : FmtM) : M Unit :=
  runM (.atomsc o) o false (if WF.aop o = 7 then [] else useTy o.h.t.toNat o.b) (atomBytes o) (atomBytes o) needRW noExtra
    (dataBC o) (atomscBody o)
def execAtomsc (o : FmtM) (s : State) : Host.Outcome State Fault Refusal := finish (atomscCore o) s

/-! ### Welt entries (R105, R263 to R265) -/

/-- An exact value as a multiple of 2^−1074. -/
def exactUnits (e : Exact) : Int := e.num * 2 ^ 1074 / (e.den : Int)
/-- A value of a format as a welt sum and tag: 0 finite, 1 +inf, 2 −inf, 3 NaN. -/
def weltOf (f64 : Bool) (bits : Nat) : Int × Nat :=
  match fpDecode (fmtOf (if f64 then 11 else 10)) bits with
  | .nan _ => (0, 3)
  | .inf false => (0, 1)
  | .inf true => (0, 2)
  | .zero _ => (0, 0)
  | .fin e => (exactUnits e, 0)
def isNegZero (f64 : Bool) (bits : Nat) : Bool := bits = (fmtOf (if f64 then 11 else 10)).signBit
/-- Tags combine by R102. -/
def joinTag (a b : Nat) : Nat := if a = 0 then b else if b = 0 then a else if a = b then a else 3
def Welt.add (w : Welt) (bits : Nat) : Welt :=
  let v := weltOf w.f64 bits
  { w with sum := w.sum + v.1, tag := joinTag w.tag v.2, negZero := w.negZero && isNegZero w.f64 bits }
/-- FADDW at a place (R263 to R265). -/
def faddwAt (f64 : Bool) (s : State) (p : Place × Part) : State :=
  let n := if f64 then 8 else 4
  let pa := p.1.pa
  let s := weltFetch (atHome s pa n) pa
  let stamp := weltStamp s
  let same : Bool := match spFind s.welts pa with | some w => w.f64 == f64 | none => false
  if !dieServes s (homeDie pa) then s.updDie (homeDie pa) fun d => { d with drops := d.drops + 1 }
  else if same then
    { s with welts := spPut s.welts pa { (((spFind s.welts pa).getD ⟨f64, 0, 0, false, 0, 0, none, 0⟩).add p.2.b) with used := stamp } }
  else if linePoisoned s (lineOf pa) then s
  else
    let s := flushWelts s pa n
    match weltRoom s (sliceKey pa) with
    | none => s.updMe fun x => { x with refused := some p.1.ea }
    | some s =>
      let v := homeNat s pa n
      let i := weltOf f64 v
      let l := s.grpLch s.cur.g
      let w : Welt := { f64 := f64, sum := i.1, tag := i.2, negZero := isNegZero f64 v, ctx := l.ctx, region := l.region }
      let s := awaitAcks s (placeCore s.cur.g) (lineOf pa) (replicaDies s (lineOf pa))
      { s with welts := spPut s.welts pa { (w.add p.2.b) with used := stamp } }
def faddwBody (o : FmtM) (ps : List (Place × Part)) : M Unit :=
  ordered o ps false fun s => ps.foldl (faddwAt (o.h.t.toNat = 11)) s
/-- FADDW (R271). -/
def faddwCore (o : FmtM) : M Unit :=
  runM (.faddw o) o false (useTy o.h.t.toNat o.b) (atomBytes o) (atomBytes o) needRW noExtra (dataBC o) (faddwBody o)
def execFaddw (o : FmtM) (s : State) : Host.Outcome State Fault Refusal := finish (faddwCore o) s

/-- WREAD and WFLUSH at a place; `free` writes a live entry's rounded value and frees it (R264, R271). -/
def weltReadAt (o : FmtM) (free : Bool) (acc : State × List Got) (p : Place × Part) : State × List Got :=
  let n := atomBytes o
  let s := weltFetch (atHome acc.1 p.1.pa n) p.1.pa
  if linePoisoned s (lineOf p.1.pa) && (spFind s.welts p.1.pa).isNone then (s, acc.2 ++ [(p.1.tid, none)])
  else
    let v := homeNat s p.1.pa n
    let live := weltsIn s p.1.pa n ≠ []
    let s := if free && live then homeWriteMe s p.1.pa n v else s
    (s, acc.2 ++ [(p.1.tid, some v)])
def weltReadAll (o : FmtM) (free : Bool) (ps : List (Place × Part)) (s : State) : State :=
  let r := ps.foldl (weltReadAt o free) (s, [])
  putGot o o.h.t.toNat ps r.2 r.1
def weltReadBody (o : FmtM) (free : Bool) (ps : List (Place × Part)) : M Unit := do
  let s ← get
  if free && promWaits s (ps.map (·.1)) then blockHere .tokwait
  else do
    if ps ≠ [] then weltBudget
    ordered o ps false (weltReadAll o free ps)
/-- WREAD (R271). -/
def wreadCore (o : FmtM) : M Unit :=
  runM (.wread o) o false [] (atomBytes o) (atomBytes o) needR noExtra noData (weltReadBody o false)
def execWread (o : FmtM) (s : State) : Host.Outcome State Fault Refusal := finish (wreadCore o) s
/-- WFLUSH (R271). -/
def wflushCore (o : FmtM) : M Unit :=
  runM (.wflush o) o false [] (atomBytes o) (atomBytes o) needRW noExtra noData (weltReadBody o true)
def execWflush (o : FmtM) (s : State) : Host.Outcome State Fault Refusal := finish (wflushCore o) s

/-! ### Fences (R272 to R274) -/

/-- FENCE (R272). -/
def fenceCore (o : FmtM) : M Unit := do
  let s ← get
  if !guardG s o.h then pure ()
  else do
    if isRel o.order.toNat then weltBudget
    needReads
    upd (around o id)
def execFence (o : FmtM) (s : State) : Host.Outcome State Fault Refusal := finish (fenceCore o) s
/-- OPFENCE (R273). -/
def opfenceCore (o : FmtM) : M Unit := do
  let s ← get
  if !guardG s o.h then pure () else upd fun s => writeBackAll s (placeCore s.cur.g)
def execOpfence (o : FmtM) (s : State) : Host.Outcome State Fault Refusal := finish (opfenceCore o) s
/-- RECFENCE (R274): the record cache entry of a record, or every entry, is dropped. -/
def recfenceCore (o : FmtM) : M Unit := do
  let s ← get
  if !guardG s o.h then pure ()
  else do
    checkSources true (use1 o.a) [0]
    let ea := eaOf s { o with space := 0 } false 0
    upd fun s =>
      let ck := placeCore s.cur.g
      let c := s.ctxOf s.cur.g
      (writeBackAll s ck).updCore ck fun x =>
        { x with records := if WF.un o.a then [] else x.records.filter fun r => !(r.1 = c && (r.2.1 : Int) = ea) }
def execRecfence (o : FmtM) (s : State) : Host.Outcome State Fault Refusal := finish (recfenceCore o) s

/-! ### The Promenade token (R266, R275) -/

/-- The first BID at or after i, wrapping at n, that has not retired. -/
def nextBid (retired : List Nat) (n : Nat) : Nat → Nat → Nat
  | 0, i => i % n
  | k + 1, i => if retired.contains (i % n) then nextBid retired n k (i + 1) else i % n
/-- The resident block of a launch with a BID. -/
def blockOfBid (s : State) (l bid : Nat) : Option Nat :=
  (s.blocks.find? fun e => e.2.launch = l && e.2.bid = bid && e.2.spawnOf.isNone && e.2.state ≠ .saved).map (·.1)
/-- Groups of a block that wait for the token become ready. -/
def wakeToken (s : State) (b : Nat) : State :=
  ((s.groups.filter fun e => !isControl e.1 && e.2.block = b && e.2.wait = .tokwait).map (·.1)).foldl makeReady s
/-- Receiving the token is an acquire at scope pkg by the receiving block (R266). -/
def receiveToken (s : State) (l : Nat) : State :=
  match blockOfBid s l (s.lch l).token with
  | some b => wakeToken (invalidateClean s ((s.blk b).die * 64 + (s.blk b).core)) b
  | none => s
/-- Pass the token on: a release at scope pkg by the passing block, then the next block in ascending BID (R266). -/
def passToken (s : State) (l : Nat) : State :=
  let x := s.lch l
  let s := match blockOfBid s l x.token with
    | some b => writeBackAll s ((s.blk b).die * 64 + (s.blk b).core)
    | none => s
  let n := x.lr.nblk
  receiveToken (s.updLch l fun x => { x with token := nextBid x.retiredBids n (x.retiredBids.length + 1) (x.token + 1) }) l
/-- TOKWAIT (R275). -/
def tokwaitCore (o : FmtM) : M Unit := do
  let s ← get
  if guardG s o.h && !holdsToken s s.cur.g then blockHere .tokwait else pure ()
def execTokwait (o : FmtM) (s : State) : Host.Outcome State Fault Refusal := finish (tokwaitCore o) s
/-- TOKPASS (R275). -/
def tokpassCore (o : FmtM) : M Unit := do
  let s ← get
  if guardG s o.h && s.grpPavane s.cur.g && hasToken s s.cur.g then do
    weltBudget
    upd fun s => passToken s (s.grpBlk s.cur.g).launch
  else pure ()
def execTokpass (o : FmtM) (s : State) : Host.Outcome State Fault Refusal := finish (tokpassCore o) s

/-! ### REDIX (R268, R276) -/

/-- The combination of R276. -/
def redCombine (ty v b : Nat) : Nat :=
  if isFp ty then (roundTo (fmtOf ty) 1 (fpSum 1 [fpDecode (fmtOf ty) v, fpDecode (fmtOf ty) b]).1).1 else (v + b) % 2 ^ tyWidth ty
/-- Apply one contribution: the value, and next rises by 1. -/
def redApply (s : State) (slot ty b : Nat) : State :=
  let n := tyWidth ty / 8
  let s := homeWriteMe s slot n (redCombine ty (homeNat s slot n) b)
  homeWriteMe s (slot + 8) 4 (homeNat s (slot + 8) 4 + 1)
/-- Apply parked contributions while one with the new next waits. -/
def redDrain (s : State) (slot : Nat) : Nat → State
  | 0 => s
  | k + 1 =>
    let next := homeNat s (slot + 8) 4
    match s.redParks.find? fun p => p.slot = slot && p.index = next with
    | some p => redDrain (redApply { s with redParks := s.redParks.filter (· ≠ p) } slot p.t p.value) slot k
    | none => s
/-- One contribution: the state and the status 0 applied, 1 parked, 2 rejected; none when the slice's park is full. -/
def redOffer (s : State) (slot ty index b : Nat) : Option (State × Nat) :=
  let s := flushWelts s slot 16
  let next := homeNat s (slot + 8) 4
  if index < next || (s.redParks.any fun p => p.slot = slot && p.index = index) then some (s, 2)
  else if index = next then some (redDrain (redApply s slot ty b) slot 256, 0)
  else if 256 ≤ (s.redParks.filter fun p => p.slice = sliceKey slot).length then none
  else some ({ s with redParks := s.redParks ++ [{ slice := sliceKey slot, slot := slot, t := ty, index := index, value := b }] }, 1)
/-- The participants in issue order: their statuses, and whether none of them found its slice's park full. -/
def redixRun (ty : Nat) (s : State) : List (Place × Part) → List Got → State × List Got × Bool
  | [], rs => (s, rs, true)
  | p :: r, rs =>
    let s := atHome s p.1.pa 16
    if linePoisoned s (lineOf p.1.pa) then redixRun ty s r (rs ++ [(p.1.tid, none)])
    else match redOffer s p.1.pa ty p.2.c p.2.b with
      | some x => redixRun ty x.1 r (rs ++ [(p.1.tid, some x.2)])
      | none => (s, rs, false)
/-- All the contributions; the instruction is held at a thread that finds its slice's park full, until a place frees (R268). -/
def redixAll (o : FmtM) (ps : List (Place × Part)) (s : State) : State :=
  let r := redixRun o.h.t.toNat s (heldRest s ps) (heldGot s)
  if r.2.2 then putGot o 2 ps r.2.1 (holdNone r.1) else stalled (holdAt r.2.1 r.1)
def redixBody (o : FmtM) (ps : List (Place × Part)) : M Unit := ordered o ps false (redixAll o ps)
/-- REDIX (R276). -/
def redixCore (o : FmtM) : M Unit :=
  runM (.redix o) o false (useTy o.h.t.toNat o.b ++ use1 o.c) 16 16 needRW noExtra
    (fun s t => (srcAs s o.h.u o.h.t.toNat o.b t, src32 s o.h.u o.c t)) (redixBody o)
def execRedix (o : FmtM) (s : State) : Host.Outcome State Fault Refusal := finish (redixCore o) s

/-! ### Replay of logged accesses (R404) -/

/-- The checks and the body of a logged instruction. -/
def loggedRun (e : LogEntry) (ps : List (Place × Part)) : M Unit :=
  match e.instr with
  | .ld o => loadBody o false (moveBytes o) ps
  | .ldw o => loadBody o true (wideBytes o) ps
  | .st o => storeBody o (moveBytes o) ps
  | .atom o => atomBody o (atomNew o) ps
  | .cas o => atomBody o casNew ps
  | .atomsc o => atomscBody o ps
  | .faddw o => faddwBody o ps
  | .wread o => weltReadBody o false ps
  | .wflush o => weltReadBody o true ps
  | .redix o => redixBody o ps
  | _ => pure ()
def loggedFmt (i : Instr) : Option (FmtM × Nat × Need) :=
  match i with
  | .ld o => some (o, moveBytes o, needR)
  | .ldw o => some (o, wideBytes o, needR)
  | .st o => some (o, moveBytes o, needW)
  | .atom o => some (o, atomBytes o, needRW)
  | .cas o => some (o, atomBytes o, needRW)
  | .atomsc o => some (o, atomBytes o, needRW)
  | .faddw o => some (o, atomBytes o, needRW)
  | .wread o => some (o, atomBytes o, needR)
  | .wflush o => some (o, atomBytes o, needRW)
  | .redix o => some (o, 16, needRW)
  | _ => none
/-- A logged instruction performed as a whole with the logged addresses and data (R404). -/
def replayEntry (e : LogEntry) : M Unit := do
  match loggedFmt e.instr with
  | none => pure ()
  | some (o, n, nd) =>
    let eas := e.parts.map fun p => (p.tid, (p.ea : Int))
    match ← checkAccess o eas n n nd with
    | .pageFault t => deferAccess e.instr t e.parts
    | .ok ps => loggedRun e ((ps.zip e.parts).map fun x => (x.1, x.2))
/-- The outcome of a replayed entry for the group: done or logged again, halted by a trap, or still waiting. -/
def replayOne (s : State) (g : Nat) (e : LogEntry) : State × Bool :=
  let old := s.cur
  let s1 := { s with oplog := s.oplog.filter (· ≠ e), cur := { g := g, plane := e.plane, off := e.off } }
  match replayEntry e s1 with
  | .ok (_, t) =>
    if t.cur.out = .done then ({ t with cur := old }, true) else ({ s with cur := old }, false)
  | .error (.trap t) => ({ (raiseAt s g e.off t) with cur := old }, false)
  | .error _ => (s, false)
/-- Replay a group's logged instructions in group order (R404); those after one that traps or waits stay logged. -/
def replayLog (s : State) (g : Nat) : State :=
  let es := s.oplog.filter fun e => e.g = g && e.uid = (s.grp g).uid
  let s := s.updGrp g endLine
  let s := (es.foldl (fun acc e => if acc.2 then replayOne acc.1 g e else acc) (s, true)).1
  ((s.groups.filter fun x => x.2.wait = .fullLog && placeCore x.1 = placeCore g).map (·.1)).foldl makeReady s

end Sys2Proof.Machine
end

