-- ==== Sys2Proof/Machine/Domain.lean ====
section
/-! DEFINITION. Domain.lean: accesses by virtual address, fault domains (R383, R384, R401), barriers (R343 to R345), and how
blocks and launches end (R173, R266, R290, R334, R345). -/

namespace Sys2Proof.Machine

/-! ### Accesses by virtual address at the home slices -/

/-- A byte range cut at 128-byte lines: start and length of each part. -/
def chunksOf (va n : Nat) : List (Nat × Nat) :=
  if n = 0 then []
  else (List.range ((va + n - 1) / 128 - va / 128 + 1)).map fun i =>
    let a := max va ((va / 128 + i) * 128)
    (a, min (va + n) ((va / 128 + i + 1) * 128) - a)
/-- A failed access: the cause and the address. -/
abbrev Fail := Nat × Nat
/-- The physical parts of a range under a translation. -/
def xlatRange (xl : Nat → Xlat) (va n : Nat) : Except Fail (List (Nat × Nat)) :=
  (chunksOf va n).mapM fun c =>
    match xl c.1 with
    | .ok pa _ => .ok (pa, c.2)
    | .bad cause => .error (cause, c.1)
/-- Bytes read at the homes; poison is a failure. -/
def readRange (s : State) (xl : Nat → Xlat) (va n : Nat) : Except Fail (List Byte) := do
  let ps ← xlatRange xl va n
  match (ps.zip (chunksOf va n)).find? fun p => rangePoisoned s p.1.1 p.1.2 with
  | some p => .error (cPoison, p.2.1)
  | none => pure (ps.flatMap fun p => homeBytes s p.1 p.2)
/-- As readRange, by an engine of a die: a line homed elsewhere is read from the die's replica where it has one (R283). -/
def readNear (s : State) (d : Nat) (xl : Nat → Xlat) (va n : Nat) : Except Fail (List Byte) := do
  let ps ← xlatRange xl va n
  match (ps.zip (chunksOf va n)).find? fun p => (engineRead s d p.1.1 p.1.2).2 with
  | some p => .error (cPoison, p.2.1)
  | none => pure (ps.flatMap fun p => (engineRead s d p.1 p.2).1)
/-- The lines of a range about to be read at their homes: the reads wait for the invalidations of earlier writes to them (R256). -/
def settleRange (s : State) (xl : Nat → Xlat) (va n : Nat) : State :=
  match xlatRange xl va n with
  | .ok ps => ps.foldl (fun s p => settleLine s (lineOf p.1)) s
  | .error _ => s
/-- A read of a range at its homes, with what it waits for. -/
def readSettled (s : State) (xl : Nat → Xlat) (va n : Nat) : Except Fail (State × List Byte) := do
  let bs ← readRange s xl va n
  pure (settleRange s xl va n, bs)
/-- Of each aligned 16 bytes, the old ones or the new ones, as a free value has it (R164). -/
def mixBytes (pick : Nat) (old new : List Byte) : List Byte :=
  new.mapIdx fun i b => if pick.testBit (i / 16 % 64) then b else old.getD i b
/-- Bytes written at the homes, once every part translates. -/
def writeParts : State → List (Nat × Nat) → List Byte → State
  | s, [], _ => s
  | s, p :: r, bs => writeParts (homeWrite s p.1 (bs.take p.2)) r (bs.drop p.2)
def writeRange (s : State) (xl : Nat → Xlat) (va : Nat) (bs : List Byte) : Except Fail State := do
  let ps ← xlatRange xl va bs.length
  pure (writeParts s ps bs)
/-- Translations of a context by the tables (log 79), of a context at a core, and of a group place. -/
def xlCtx (s : State) (c : Nat) (n : Need) (va : Nat) : Xlat := translate s c va n
def xlCore (s : State) (ck c : Nat) (n : Need) (va : Nat) : Xlat := translateAt s ck c va n
def xlGrp (s : State) (g : Nat) (n : Need) (va : Nat) : Xlat := translateFor s g va n

/-! ### How a launch's blocks are discarded (R318, R384) -/

/-- The places of a block's groups, and whether a place is one of them. -/
def ofBlock (s : State) (b g : Nat) : Bool := !isControl g && s.hasGrp g && (s.grp g).block = b
/-- A block's posted receives are cancelled (R370). -/
def dropRecvs (ps : List (Nat × Port)) (b : Nat) : List (Nat × Port) :=
  ps.map fun e => (e.1, { e.2 with recvs := e.2.recvs.filter fun r => r.block ≠ b })
/-- A block's groups, tiles, work and waits are gone; its memory writes stay. -/
def discardBlock (s : State) (b : Nat) : State :=
  let x := s.blk b
  let gs := s.groupsOf b
  let own (g uid : Nat) : Bool := gs.contains g && (s.grp g).uid = uid
  let qs := (s.queries.filter fun q => q.2.block = b).map (·.1)
  let t := { s with
    groups := s.groups.filter fun e => !gs.contains e.1
    blocks := spDel s.blocks b
    loads := s.loads.filter fun e => !own e.2.g e.2.uid
    oplog := s.oplog.filter fun e => !own e.g e.uid
    waiters := s.waiters.filter fun e => match e.2.what with
      | .take g uid _ _ => !own g uid
      | .at_ g uid _ _ => !own g uid
      | .deq g uid _ _ => !own g uid
      | .watch _ => true
    copies := s.copies.filter fun e => e.2.block ≠ b
    matOps := s.matOps.filter fun e => e.2.block ≠ b
    queries := s.queries.filter fun e => e.2.block ≠ b
    splits := s.splits.filter fun e => !qs.contains e.2.query
    spawns := s.spawns.filter fun e => e.2.block ≠ b
    conts := s.conts.filter fun e => e.2.block ≠ some b
    ports := dropRecvs s.ports b
    stages := s.stages.filter fun e => e.2.block ≠ some b
    handlers := s.handlers.map fun e =>
      (e.1, { e.2 with queue := e.2.queue.filter fun q => match q.group with | some g => !gs.contains g | none => true }) }
  fillCore t (x.die * 64 + x.core)
/-- Every block of a launch, spawn groups' blocks among them. -/
def blocksOf (s : State) (l : Nat) : List Nat := (s.blocks.filter fun e => e.2.launch = l).map (·.1)
/-- A coresident or pavane launch stays whole at its lead's queue (R307). -/
def Launch.whole (l : Launch) : Bool := l.flag 3 || l.pavane
/-- The head of a die's queue of one class: launch and index of its share (R305). -/
def headAt (s : State) (d c : Nat) : Option (Nat × Nat) :=
  s.launches.findSome? fun e =>
    if e.2.lr.prio = c && (e.2.state = .queued || e.2.state = .running) then
      if e.2.whole then (if e.2.lead = d && e.2.state = .queued then some (e.1, 0) else none)
      else (e.2.shares.findIdx? fun x => x.die = d && !x.adm).map fun i => (e.1, i)
    else none
/-- Change one share of a launch. -/
def setShare (s : State) (l i : Nat) (f : Share → Share) : State :=
  s.updLch l fun x => { x with shares := x.shares.mapIdx fun j h => if j = i then f h else h }
/-- A launch that has become its queue's head waits as head from now (R305). -/
def refreshHeads (s : State) : State :=
  (allDies s).foldl (fun s d => (List.range 8).foldl (fun s c =>
    match headAt s d c with
    | some h => setShare s h.1 h.2 fun x => if x.since.isSome then x else { x with since := some s.clock }
    | none => s) s) s
/-- A launch ends by its fault domain or the owner; its completion word follows (R304). -/
def killLaunch (s : State) (l reason : Nat) : State :=
  let s := (blocksOf s l).foldl discardBlock s
  let s := s.updLch l fun x => { x with state := .killed, reason := reason, shares := [], again := [] }
  let dead := (s.conts.filter fun e => e.2.launch = l).map (·.1)
  refreshHeads { s with
    conts := s.conts.filter fun e => e.2.launch ≠ l
    waiters := s.waiters.filter fun e => match e.2.what with | .watch c => !dead.contains c | _ => true
    stages := s.stages.filter fun e => e.2.launch ≠ l
    spawns := s.spawns.filter fun e => e.2.launch ≠ l }
/-- Live launches of a region's subtree. -/
def launchesIn (s : State) (c r : Nat) : List Nat :=
  (s.launches.filter fun e => e.2.ctx = c && inSubtree s c r e.2.region && (e.2.state = .running || e.2.state = .queued)).map (·.1)
/-- Every group of a launch stops (R384, policy 0). -/
def haltLaunch (s : State) (l : Nat) : State :=
  let s := s.updLch l fun x => { x with halted := true }
  ((blocksOf s l).flatMap s.groupsOf).foldl (fun s g => if (s.grp g).halt then s else haltGroup s g) s

/-! ### Fault domains (R384, R401) -/

/-- An EVENT frame goes out after a release at sys (R260) by the control core that sends it, or by every control core of the die. -/
def report (s : State) (e : EventRec) : State :=
  let qs := if e.quad < 12 then [e.quad] else List.range 12
  sendEvent (qs.foldl (fun s q => writeBackAll s (placeCore (controlPlace (e.die * 12 + q)))) s) e
/-- What a region's policy does on a fault (R384). -/
def policyActs (s : State) (c r cause : Nat) : State :=
  match (regionOf s c r).policy with
  | 0 => (launchesIn s c r).foldl haltLaunch s
  | 2 => (launchesIn s c r).foldl (fun s l => killLaunch s l cause) s
  | _ => s
/-- A fault delivered to a region's fault domain: the EVENT frame, then the region's policy. -/
def applyPolicy (s : State) (c r d quad : Nat) (regs : TrapRegs) : State :=
  let cause := bitsNat regs.tcause 7 0
  policyActs (report s { ev := 1, cause := cause, policy := (regionOf s c r).policy, ctx := c, region := r, die := d,
                         quad := quad, regs := regs }) c r cause
/-- A die's machine check reaches the fault domain of a region with work on it (R413). -/
def tellMachineCheck (s : State) (d c r : Nat) : State :=
  policyActs (report s { ev := 4, cause := 0x1E, policy := (regionOf s c r).policy, ctx := c, region := r, die := d }) c r 0x1E
/-- A fault with no live group, of work on a core: it enters the core's trap queue with TCAUSE.dom set, and the policy follows
at TRAP_DISPATCH. -/
def domFaultAt (s : State) (ck c r : Nat) (t : Trap) : State :=
  let regs := trapRegs s none 0 { t with dom := true }
  s.updHandler (quadOf ck) fun h => { h with queue := h.queue ++ [{ group := none, regs := regs, dom := some (c, r) }] }
/-- A fault of an agent that is no core (a Caller, a port, the graph walker): the policy at once. -/
def domFault (s : State) (d c r : Nat) (t : Trap) : State := applyPolicy s c r d 0xFF (trapRegs s none 0 { t with dom := true })
/-- A fault to the fault domain of a group's region, the group going on. -/
def domFaultOf (s : State) (g : Nat) (t : Trap) : State :=
  if isControl g then machineCheck s (coreDie (placeCore g))
  else domFaultAt s (placeCore g) (s.ctxOf g) (s.grpLch g).region t
/-- Firmware forwards the trap of a group that it handles: a page fault for mapping, another to the group's fault domain (Table 15-10). -/
def forwardTrap (s : State) (quad : Nat) : State :=
  let h := s.handler quad
  let regs := h.regs
  let cause := bitsNat regs.tcause 7 0
  let d := quad / 12
  match h.now with
  | none => s
  | some g =>
    if !h.running || isControl g || !s.hasGrp g || BitVec.ofNat 64 (handleOf s g) ≠ regs.tgroup then s
    else
      let c := s.ctxOf g
      let r := (s.grpLch g).region
      let s := s.updHandler quad fun h => { h with now := none }
      if cause = cPage then
        report s { ev := 5, cause := cause, ctx := c, region := r, die := d, quad := quad % 12, regs := regs }
      else applyPolicy s c r d (quad % 12) regs

/-! ### Errors (R235, R409 to R412) -/

/-- A field of a die's ERRCNT counts one more, and saturates. -/
def countError (s : State) (d lo width : Nat) : State :=
  s.updDie d fun x =>
    let n := bitsNat x.errcnt (lo + width - 1) lo
    { x with errcnt := BitVec.ofNat 64 (x.errcnt.toNat + if n + 1 < 2 ^ width then 2 ^ lo else 0) }
/-- An uncorrectable error: counted, and named in ERRLOG, with the address where it is one of memory (log 82). -/
def countLost (s : State) (d src : Nat) (pa : Option Nat) : State :=
  (countError s d 48 8).updDie d fun x =>
    { x with errlog := BitVec.ofNat 64 (pa.getD (bitsNat x.errlog 47 0) % 2 ^ 48 + src * 2 ^ 48) }
/-- An error of a storage array or of HBM. -/
def errorAt (s : State) (e : ErrorAt) : State :=
  match e with
  | .corrected d f => if diePresent s d && f < 3 then countError s d (16 * f) 16 else s
  | .line l src =>
    let d := homeDie (l * 128)
    if diePresent s d && (if l < wsLine0 then src = 1 || src = 2 else src = 3) then
      countLost { s with poison := spPut s.poison l true } d src (some (if l < wsLine0 then l * 128 else (l * 128 - 2 ^ 42) % 2 ^ 29))
    else s
  | .vector g k =>
    if s.hasGrp g then
      countLost (s.updGrp g fun x => { x with poisonV := spPut x.poisonV k true }) (coreDie (placeCore g)) 4 none
    else s
  | .uniform g k =>
    if s.hasGrp g then
      countLost (s.updGrp g fun x => { x with poisonK := spPut x.poisonK k true }) (coreDie (placeCore g)) 4 none
    else s
  | .scratch b w =>
    if (spFind s.blocks b).isSome then
      countLost (s.updBlk b fun x => { x with spBad := spPut x.spBad w true }) (s.blk b).die 6 none
    else s
  | .l1 ck l w =>
    match l1Find s ck l with
    | none => s
    | some x =>
      countLost (l1Put s ck l { x with bad := x.bad ||| (byteMask (4 * (w % 32)) 4 &&& x.valid) }) (coreDie ck) 6
        (some (if l < wsLine0 then l * 128 else (l * 128 - 2 ^ 42) % 2 ^ 29))
  | .acc b i k =>
    match spFind (s.blk b).tiles i with
    | none => s
    | some t =>
      countLost (s.updBlk b fun x => { x with tiles := spPut x.tiles i { t with bad := spPut t.bad (k % 16384) true } }) (s.blk b).die 5 none
  | .record ck i => s.updCore ck fun c => { c with records := c.records.eraseIdx i }

/-! ### Barriers (R343 to R345) -/

def barOfBlk (b : Block) (n : Nat) : Bar := (spFind b.bars n).getD { e := b.ngroups }
/-- Complete(n) of R344: every phase that the counts complete at once, and the waiters become ready. -/
def barComplete (s : State) (b n : Nat) : State :=
  let x := s.blk b
  let r := barOfBlk x n
  let e := max 1 (min r.e (s.groupsOf b).length)
  let k := if r.mode && r.b ≠ 0 then min (r.arr / e) (r.bytes / r.b) else r.arr / e
  if k = 0 then s
  else
    let r := { r with arr := r.arr - k * e, bytes := if r.mode then r.bytes - k * r.b else r.bytes, phase := (r.phase + k) % 2 ^ 32 }
    let s := s.updBlk b fun x => { x with bars := spPut x.bars n r }
    (s.groupsOf b).foldl (fun s g => match (s.grp g).wait with
      | .barrier m _ => if m = n then makeReady s g else s
      | _ => s) s
/-- Change a barrier, then test its completion. -/
def barChange (s : State) (b n : Nat) (f : Bar → Bar) : State :=
  barComplete (s.updBlk b fun x => { x with bars := spPut x.bars n (f (barOfBlk x n)) }) b n
/-- Bytes counted from copies: discarded in phase mode (R294, R344). -/
def barBytes (s : State) (b n k : Nat) : State :=
  if (barOfBlk (s.blk b) n).mode then barChange s b n fun r => { r with bytes := (r.bytes + k) % 2 ^ 64 } else s

/-! ### Retirement (R173, R266, R290, R334, R345) -/

/-- Work of a block is outstanding: its copies, matrix operations and queries. -/
def outstanding (s : State) (b : Nat) : Bool :=
  (s.copies.any fun e => e.2.block = b && !e.2.complete) || (s.matOps.any fun e => e.2.block = b)
  || (s.queries.any fun e => e.2.block = b && e.2.state ≠ .complete)
/-- A block whose groups are gone leaves its core once none of its work is outstanding. -/
def settleBlock (s : State) (b : Nat) : State :=
  if (s.blk b).state = .leaving && !outstanding s b then discardBlock s b else s
/-- The last group of a block has retired: its receives are cancelled, the Promenade token is passed, the block leaves. -/
def retireBlock (s : State) (b : Nat) : State :=
  let x := s.blk b
  let s := { s with ports := dropRecvs s.ports b }
  let s := s.setBlk b { x with state := .leaving }
  let l := s.lch x.launch
  let s :=
    if x.spawnOf.isSome then s
    else
      let s := if l.pavane && l.token = x.bid then
          passToken (s.updLch x.launch fun l => { l with retiredBids := l.retiredBids ++ [x.bid] }) x.launch
        else s.updLch x.launch fun l => { l with retiredBids := l.retiredBids ++ [x.bid] }
      s.updLch x.launch fun l => { l with retired := l.retired + 1 }
  settleBlock s b
/-- Stopped work of a group that retires: its faults go to the fault domain (R165, R219, R289). -/
def tellRetired (s : State) (g : Nat) : State :=
  let x := s.grp g
  let tell (s : State) (t : Trap) (ipc : Nat × Nat) : State :=
    domFaultAt s (placeCore g) (s.ctxOf g) (s.grpLch g).region { t with wait := false, pc := some ipc, ipc := some ipc }
  let s := s.copies.foldl (fun s e => if e.2.g = g && e.2.uid = x.uid then
    (match e.2.waitTrap with | some t => tell s t e.2.ipc | none => s) else s) s
  let s := s.matOps.foldl (fun s e => if e.2.g = g && e.2.uid = x.uid then
    (match e.2.fault with | some t => tell s t e.2.ipc | none => s) else s) s
  s.queries.foldl (fun s e => if e.2.g = g && e.2.uid = x.uid && e.2.state = .complete && !e.2.told then
    (match e.2.toTell with
     | some f => { (tell s { cause := 0x13, addr := f.addr, rec_ := e.2.rec_, prog := e.2.visits, tok := e.2.serial } e.2.ipc) with
                   queries := spDel s.queries e.1 }
     | none => s) else s) s
/-- A group with no resident thread retires: its place and track are free, and its block's barriers are tested again. -/
def retireGroup (s : State) (g : Nat) : State :=
  let b := (s.grp g).block
  let ck := placeCore g
  let s := tellRetired s g
  let s := { s with groups := spDel s.groups g }
  let s := (List.range (s.blk b).nbar).foldl (fun s n => barComplete s b n) s
  let s := if s.groupsOf b = [] then retireBlock s b else s
  fillCore s ck

end Sys2Proof.Machine
end

