-- ==== Sys2Proof/Machine/Engine.lean ====
section
/-! DEFINITION. Engine.lean: the shared frame of Format E (R67, R376, R377): addresses of structures, their checks at issue,
fields of efn, results. -/

namespace Sys2Proof.Machine

/-- A structure address in A: an even v pair, or a k register. -/
def eAddr (s : State) (f : BitVec 10) (t : Nat) : Nat :=
  if WF.isV f then readVPair s.seen f.toNat t else readK s.seen (f.toNat - 0x100)
/-- A field read as an unsigned 64-bit value; an immediate is its value, 0x148 reads 0. -/
def e64 (s : State) (u : Bool) (f : BitVec 10) (t : Nat) : Nat := srcAs s u 3 f t
def e32 (s : State) (u : Bool) (f : BitVec 10) (t : Nat) : Nat := srcAs s u 2 f t
/-- A field that names a count or index: a k register unsigned, or an immediate. -/
def eCount (s : State) (f : BitVec 10) : Nat := if WF.isK f then readK s.seen (f.toNat - 0x100) else (WF.immVal f).toNat
/-- A structure an instruction names: thread and address. -/
abbrev Named := Nat × Nat

/-- The structures whose translation fails with a cause, and the physical addresses of those that translate. -/
def structFails (s : State) (n : Nat) (nd : Need) (c : Nat) (xs : List Named) : List Named :=
  xs.filter fun x => match xlatRange (xlGrp s s.cur.g nd) x.2 n with | .error e => e.1 = c | .ok _ => false
def structPlaces (s : State) (n : Nat) (nd : Need) (xs : List Named) : List Named :=
  xs.filterMap fun x => match xlatRange (xlGrp s s.cur.g nd) x.2 n with
    | .ok (p :: _) => some (x.1, p.1)
    | _ => none
/-- The checks of R377 on the structures an instruction names: alignment (0x08 for a per-thread address, else the shape trap),
then translation by protection, poison, page fault, precise. -/
def structs (u perThread : Bool) (al n : Nat) (nd : Need) (xs : List Named) : M (List Named) := do
  let s ← get
  let lo (l : List Named) : Nat := l.foldl (fun m x => min m x.2) (2 ^ 64 - 1)
  let bad (cause : Nat) (l : List Named) : Trap := { cause := cause, addr := lo l, mask := runnerMask s u (l.map (·.1)) }
  let mis := xs.filter fun x => x.2 % al ≠ 0
  need (mis = []) (bad (if perThread then 0x08 else 0x0B) mis)
  let fails (c : Nat) : List Named := structFails s n nd c xs
  need (fails cProt = []) (bad cProt (fails cProt))
  need (fails cPoison = []) (bad cPoison (fails cPoison))
  need (fails cPage = []) (bad cPage (fails cPage))
  pure (structPlaces s n nd xs)

/-- A uniform instruction that names one structure: nothing with a false guard, else the checks, then the body on the address
and its physical address. -/
def uniStruct (o : FmtE) (uses : List FieldUse) (al n : Nat) (nd : Need) (body : Nat → Nat → M Unit) : M Unit := do
  let s ← get
  if !guardG s o.h then pure ()
  else do
    checkStale true uses [0]
    let va := eAddr s o.a 0
    let ps ← structs true false al n nd [(0, va)]
    checkPoison true uses [0]
    body va ((ps.head?.map (·.2)).getD 0)
/-- The same for the participants of a lane form, or once for a uniform one. -/
def eachStruct (o : FmtE) (uses : List FieldUse) (al n : Nat) (nd : Need) (body : List Named → M Unit) : M Unit := do
  let s ← get
  let ts := runners s o.h
  if ts = [] then pure ()
  else do
    checkStale o.h.u uses ts
    let ps ← structs o.h.u (WF.isV o.a) al n nd (ts.map fun t => (t, eAddr s o.a t))
    checkPoison o.h.u uses ts
    body ps
/-- A uniform result of Format E: K and latch xL, as b64 or b32. -/
def putK (o : FmtE) (ty v : Nat) (s : State) : State := s.updMe fun x => writeDest x o.h o.k ty 0 v
/-- Every thread's result of a lane form, or the one of a uniform form. -/
def putEach (o : FmtE) (ty : Nat) (rs : List (Nat × Nat)) (s : State) : State :=
  s.updMe fun x => rs.foldl (fun x r => writeDest x o.h o.k ty r.1 r.2) x
/-- A fault found at a structure's home slice goes to the fault domain of the group's region; the instruction is named. -/
def structFault (s : State) (cause va : Nat) : State :=
  domFaultOf s s.cur.g { cause := cause, addr := va, pc := some (s.cur.off, s.cur.plane) }
/-- The scope field of the instructions at 0xE0 to 0xEE. -/
def eScope (o : FmtE) : Nat := WF.ef o 22 20
def eRelease (o : FmtE) (s : State) : State := doRelease s s.cur.g (eScope o)
def eAcquire (o : FmtE) (s : State) : State := doAcquire (sampleAllOwn s s.cur.g) s.cur.g (eScope o)

end Sys2Proof.Machine
end

