-- ==== Sys2Proof/Machine/Rings.lean ====
section
/-! DEFINITION. Rings.lean: granule rings and hardware queues at their home slices (R349 to R357). -/

namespace Sys2Proof.Machine

/-! ### Granule rings -/

/-- A ring header (Table 14-1). -/
structure RingHdr where
  base : Nat
  size : Nat
  flags : Nat
  claimed : Nat
  committed : Nat
  head : Nat
  tail : Nat
  zero : Nat
  deriving DecidableEq, Repr

def ringHdr (s : State) (pa : Nat) : RingHdr :=
  { base := homeNat s pa 8, size := homeNat s (pa + 8) 4, flags := homeNat s (pa + 12) 4, claimed := homeNat s (pa + 16) 8,
    committed := homeNat s (pa + 24) 8, head := homeNat s (pa + 32) 8, tail := homeNat s (pa + 40) 8,
    zero := homeNat s (pa + 48) 16 }
/-- A power of two from 2 to 2^24. -/
def ringSizeOk (n : Nat) : Bool := 2 ≤ n && n ≤ 2 ^ 24 && 2 ^ Nat.log2 n = n
/-- The header keeps R349 and is consistent. -/
def ringOk (h : RingHdr) : Bool :=
  h.base % 64 = 0 && ringSizeOk h.size && h.flags ≤ 1 && h.zero = 0 && h.tail ≤ h.head && h.head ≤ h.committed
  && h.committed ≤ h.claimed && h.claimed ≤ h.tail + h.size
def ringSpawn (h : RingHdr) : Bool := h.flags.testBit 0
/-- What is wrong with a ring header at its home: poisoned, or broken. -/
def ringBad (s : State) (pa : Nat) : Option Nat :=
  if linePoisoned s (lineOf pa) then some cPoison else if ringOk (ringHdr s pa) then none else some 0x0B
/-- Offsets of the counters that Settle advances: committed, or tail. -/
def ctrOff (tail : Bool) : Nat := if tail then 40 else 24
/-- The counter follows the parked ranges that start at it. -/
def unparkFrom (s : State) (pa : Nat) (tail : Bool) : Nat → Nat → State × Nat
  | 0, c => (s, c)
  | k + 1, c =>
    match s.ringParks.find? fun p => p.header = pa && p.tail == tail && p.s = c with
    | some p => unparkFrom { s with ringParks := s.ringParks.filter (· ≠ p) } pa tail k (c + p.n)
    | none => (s, c)
/-- Settle of R350: the state and the status, or none when the range must park and the slice's 64 places are taken (R351). -/
def settle (s : State) (pa : Nat) (tail : Bool) (i n : Nat) : Option (State × Nat) :=
  let h := ringHdr s pa
  let ctr := if tail then h.tail else h.committed
  let lim := if tail then h.head else h.claimed
  let mine := s.ringParks.filter fun p => p.header = pa && p.tail == tail
  if i < ctr || i + n > lim || (mine.any fun p => i < p.s + p.n && p.s < i + n) then some (s, 2)
  else if ctr < i then
    (if 64 ≤ (s.ringParks.filter fun p => p.slice = sliceKey pa).length then none
     else some ({ s with ringParks := s.ringParks ++ [{ slice := sliceKey pa, header := pa, tail := tail, s := i, n := n }] }, 1))
  else
    let r := unparkFrom s pa tail 64 (i + n)
    some (homeWriteNat r.1 (pa + ctrOff tail) 8 r.2, 0)

/-! ### Waiters (R352) -/

/-- Entries of a slice's waiter table, the watches of continuations among them. -/
def tableUsed (s : State) (slice : Nat) : Nat := (s.waiters.filter fun e => e.2.slice = slice && e.2.parked).length
/-- Put a request into the waiter table of a header's slice, or return it to its core when the table is full. -/
def addWaiter (s : State) (pa : Nat) (w : WaitFor) : State :=
  let room : Bool := tableUsed s (sliceKey pa) < 64
  let x : Waiter := { slice := sliceKey pa, header := pa, parked := room, since := s.clock, what := w }
  { s with waiters := spPut s.waiters (spFresh s.waiters) x }
/-- The group a waiter answers. -/
def WaitFor.grp : WaitFor → Option (Nat × Nat)
  | .take g uid _ _ => some (g, uid)
  | .at_ g uid _ _ => some (g, uid)
  | .deq g uid _ _ => some (g, uid)
  | .watch _ => none
/-- An answered request is gone; its group, with no request left, is ready, and acquires at the scope named (R353, R356). -/
def endWait (s : State) (k g uid scope : Nat) : State :=
  let s := { s with waiters := spDel s.waiters k }
  if !s.sameGrp g uid || (s.waiters.any fun e => e.2.what.grp = some (g, uid)) then s
  else makeReady (doAcquire (sampleAllOwn s g) g scope) g
/-- RAWAIT.take at the home: the granule index, if they are there. -/
def tryTake (s : State) (pa n : Nat) : Option (State × Nat) :=
  let h := ringHdr s pa
  if h.committed - h.head < n then none else some (homeWriteNat s (pa + 32) 8 (h.head + n), h.head)
/-- The reply of a waiting instruction: its register; the line execution it issued in is over, so no latch (log 21). -/
def replyK (s : State) (g uid : Nat) (o : FmtE) (v : Nat) : State :=
  if s.sameGrp g uid && !o.h.s then s.updGrp g fun x => setReg x o.k 3 0 v else s
/-- Serve one waiter of a ring, if its condition holds. -/
def serveRingOne (s : State) (k : Nat) : State :=
  match spFind s.waiters k with
  | none => s
  | some w =>
    match w.what with
    | .take g uid n o =>
      (match tryTake s w.header n with
       | some r => endWait (replyK r.1 g uid o r.2) k g uid (eScope o)
       | none => s)
    | .at_ g uid n o => if n ≤ (ringHdr s w.header).committed then endWait s k g uid (eScope o) else s
    | .watch c =>
      (match spFind s.conts c with
       | some x =>
         if x.wk = 1 && x.wval ≤ (ringHdr s w.header).committed then
           { s with conts := spPut s.conts c { x with wk := 0 }, waiters := spDel s.waiters k }
         else s
       | none => { s with waiters := spDel s.waiters k })
    | .deq _ _ _ _ => s
/-- Serve a ring's waiters in the order of their arrival (R352). -/
def serveRing (s : State) (pa : Nat) : State :=
  ((s.waiters.filter fun e => e.2.header = pa && e.2.parked).map (·.1)).foldl serveRingOne s

/-! ### The ring instructions -/

/-- RCLAIM at the home (R350). -/
def claimRing (s : State) (pa n : Nat) : State × Nat :=
  let h := ringHdr s pa
  if h.claimed + n - h.tail ≤ h.size then (homeWriteNat s (pa + 16) 8 (h.claimed + n), h.claimed)
  else (s, 2 ^ 63 + (h.size - (h.claimed - h.tail)))
def countOk64 (n : Nat) : Bool := 1 ≤ n && n ≤ 64
/-- The home slice answers after the invalidations of the line's written stores (R256). -/
def atSlice (pa : Nat) : M Unit := upd fun s => settleLine s (lineOf pa)
/-- A ring instruction: a broken header goes to the fault domain, a spawn ring or a bad count is refused with `no`. -/
def onRing (o : FmtE) (va pa n no ty : Nat) (body : M Unit) : M Unit := do
  atSlice pa
  let s ← get
  match ringBad s pa with
  | some c => upd fun s => putK o ty no (structFault s c va)
  | none => if ringSpawn (ringHdr s pa) || !countOk64 n then upd (putK o ty no) else body

/-- RCLAIM (R350, R353). -/
def execRclaim (o : FmtE) (s : State) : Host.Outcome State Fault Refusal :=
  finish (uniStruct o (use1 o.a ++ use1 (WF.efF o 43)) 64 64 needRW fun va pa => do
    let s ← get
    let n := eCount s (WF.efF o 43)
    onRing o va pa n (2 ^ 63) 3 (upd fun s =>
      let r := claimRing s pa n
      eAcquire o (putK o 3 r.2 r.1))) s
/-- RCOMMIT and RRETIRE (R350, R351, R353). -/
def settleCore (o : FmtE) (tail : Bool) : M Unit :=
  uniStruct o (use1 o.a ++ use1 (WF.efF o 43) ++ use1 (WF.efF o 33)) 64 64 needRW fun va pa => do
    let s ← get
    let i := e64 s true (WF.efF o 43) 0
    let n := eCount s (WF.efF o 33)
    onRing o va pa n 2 2 (do
      beforeRelease
      upd (eRelease o)
      let s ← get
      match settle s pa tail i n with
      | none => do
        upd fun s => stalled (s.updMe fun x => { x with parkWait := true, parkAt := s.clock })
      | some r => set (serveRing (putK o 2 r.2 r.1) pa))
def execRcommit (o : FmtE) (s : State) : Host.Outcome State Fault Refusal := finish (settleCore o false) s
def execRretire (o : FmtE) (s : State) : Host.Outcome State Fault Refusal := finish (settleCore o true) s

/-- The group leaves its track for a RAWAIT; the instruction is complete but for its reply (R27, R352). -/
def awaitOn (w : Wait) : M Unit := upd fun s => blockOn s s.cur.g w
/-- RAWAIT.take (R350, R352). -/
def execRawaitTake (o : FmtE) (s : State) : Host.Outcome State Fault Refusal :=
  finish (uniStruct o (use1 o.a ++ use1 (WF.efF o 43)) 64 64 needRW fun va pa => do
    let s ← get
    let g := s.cur.g
    let uid := s.me.uid
    let n := eCount s (WF.efF o 43)
    awaitOn .rawait
    atSlice pa
    let s ← get
    match ringBad s pa with
    | some c => upd fun s => makeReady (replyK (structFault s c va) g uid o (2 ^ 63)) g
    | none =>
      if ringSpawn (ringHdr s pa) || !countOk64 n then upd fun s => makeReady (replyK s g uid o (2 ^ 63)) g
      else match tryTake s pa n with
        | some r => set (makeReady (eAcquire o (replyK r.1 g uid o r.2)) g)
        | none => upd fun s => addWaiter s pa (.take g uid n o)) s
/-- RAWAIT.at (R350, R352). -/
def execRawaitAt (o : FmtE) (s : State) : Host.Outcome State Fault Refusal :=
  finish (uniStruct o (use1 o.a ++ use1 (WF.efF o 43)) 64 64 needRW fun va pa => do
    let s ← get
    let g := s.cur.g
    let n := e64 s true (WF.efF o 43) 0
    awaitOn .rawait
    atSlice pa
    let s ← get
    match ringBad s pa with
    | some c => upd fun s => makeReady (structFault s c va) g
    | none =>
      if ringSpawn (ringHdr s pa) then upd fun s => makeReady s g
      else if n ≤ (ringHdr s pa).committed then upd fun s => makeReady (eAcquire o s) g
      else upd fun s => addWaiter s pa (.at_ g s.me.uid n o)) s

/-! ### Hardware queues (R355, R356) -/

/-- A queue header (Table 14-3). -/
structure QueueHdr where
  base : Nat
  cap : Nat
  zero : Nat
  enq : Nat
  deq : Nat
  deriving DecidableEq, Repr

def queueHdr (s : State) (pa : Nat) : QueueHdr :=
  { base := homeNat s pa 8, cap := homeNat s (pa + 8) 4, zero := homeNat s (pa + 12) 4 + homeNat s (pa + 32) 32,
    enq := homeNat s (pa + 16) 8, deq := homeNat s (pa + 24) 8 }
def queueOk (h : QueueHdr) : Bool :=
  h.base % 64 = 0 && ringSizeOk h.cap && h.zero = 0 && h.deq ≤ h.enq && h.enq ≤ h.deq + h.cap
def queueBad (s : State) (pa : Nat) : Option Nat :=
  if linePoisoned s (lineOf pa) then some cPoison else if queueOk (queueHdr s pa) then none else some 0x0B
/-- Address of item i. -/
def queueItem (h : QueueHdr) (i : Nat) : Nat := h.base + 16 * (i % h.cap)
/-- Write m items from enq on; the items' storage translates in the context given. -/
def pushItems (s : State) (xl : Nat → Xlat) (pa : Nat) (items : List Nat) : Except Fail State := do
  let h := queueHdr s pa
  let s ← (items.zipIdx).foldlM (fun s x => writeRange s xl (queueItem h (h.enq + x.2)) (natBytes 16 x.1)) s
  pure (homeWriteNat s (pa + 16) 8 (h.enq + items.length))
/-- Take k items from deq on. -/
def popItems (s : State) (xl : Nat → Xlat) (pa k : Nat) : Except Fail (State × List Nat) := do
  let h := queueHdr s pa
  let s := (List.range k).foldl (fun s j => settleRange s xl (queueItem h (h.deq + j)) 16) s
  let bs ← (List.range k).mapM fun j => readRange s xl (queueItem h (h.deq + j)) 16
  pure (homeWriteNat s (pa + 24) 8 (h.deq + k), bs.map bytesNat)

/-- What a DEQ writes for one thread: an item to its registers (and the latch, `lat`), and q. -/
def deqPut (o : FmtE) (lat : Bool) (x : Group) (t : Nat) (item : Option Nat) : Group :=
  let x := match item with
    | none => x
    | some v =>
      let x := if lat then latchRes x o.h 3 t (v % 2 ^ 64) else x
      if o.h.s then x
      else if o.h.u then setK (setK x (o.k.toNat - 0x100) (v % 2 ^ 64)) (o.k.toNat - 0x100 + 1) (v / 2 ^ 64)
      else (List.range 4).foldl (fun x i => setV x (o.k.toNat + i) t (v / 2 ^ (32 * i) % 2 ^ 32)) x
  setPred x o.h.u (WF.ef o 18 16) t item.isSome
/-- The first participants take the items there are; the others get q false. -/
def deqGive (s : State) (g pa : Nat) (tids_ : List Nat) (o : FmtE) (lat : Bool) : Except Fail State := do
  let h := queueHdr s pa
  let k := min tids_.length (h.enq - h.deq)
  let r ← popItems s (xlGrp s g needR) pa k
  pure (r.1.updGrp g fun x =>
    (tids_.zipIdx).foldl (fun x e => deqPut o lat x e.1 (r.2[e.2]?)) x)
/-- Serve one waiting DEQ while items remain. -/
def serveDeqOne (s : State) (k : Nat) : State :=
  match spFind s.waiters k with
  | none => s
  | some w =>
    match w.what with
    | .deq g uid ts o =>
      let h := queueHdr s w.header
      if h.enq = h.deq then s
      else if !s.sameGrp g uid then { s with waiters := spDel s.waiters k }
      else match deqGive s g w.header ts o false with
        | .ok s => endWait s k g uid (eScope o)
        | .error e => endWait (domFaultOf (s.updGrp g fun x => ts.foldl (fun x t => deqPut o false x t none) x) g
            { cause := e.1, addr := e.2 }) k g uid (eScope o)
    | _ => s
/-- Serve a queue's waiting DEQ requests in arrival order. -/
def serveQueue (s : State) (pa : Nat) : State :=
  ((s.waiters.filter fun e => e.2.header = pa && e.2.parked && e.2.gather.isNone).map (·.1)).foldl serveDeqOne s

/-- The requests of a lane form: one for each structure named, with its participants in issue order. -/
def byStruct (ps : List Named) : List (Nat × List Nat) :=
  ((ps.map (·.2)).dedup).map fun pa => (pa, (ps.filter fun p => p.2 = pa).map (·.1))

/-- One ENQ request at the home: the status of its participants. -/
def enqOne (o : FmtE) (view : State) (s : State) (r : Nat × List Nat) : State :=
  let pa := r.1
  let s := settleLine s (lineOf pa)
  let item (t : Nat) : Nat := e64 view o.h.u (WF.efF o 43) t + e64 view o.h.u (WF.efF o 33) t * 2 ^ 64
  let all (v : Nat) (s : State) : State := putEach o 2 (r.2.map fun t => (t, v)) s
  let va := eAddr view o.a (r.2.headD 0)
  match queueBad s pa with
  | some c => all 2 (structFault s c va)
  | none =>
    let h := queueHdr s pa
    if h.enq + r.2.length - h.deq > h.cap then all 0 s
    else match pushItems s (xlGrp s s.cur.g needW) pa (r.2.map item) with
      | .ok s => serveQueue (all 1 s) pa
      | .error e => all 2 (structFault s e.1 e.2)
/-- ENQ (R356). -/
def execEnq (o : FmtE) (s : State) : Host.Outcome State Fault Refusal :=
  finish (eachStruct o (use2 o.a ++ use2 (WF.efF o 43) ++ use2 (WF.efF o 33)) 64 64 needRW fun ps =>
    do
      beforeRelease
      upd fun s => (byStruct ps).foldl (enqOne o s) (eRelease o s)) s

/-- A DEQ of a pavane group waits for its launch's quantum (R357): the launch, and its place by VCORE, then GIDX. -/
def gatherOrder (s : State) (g : Nat) : Nat × Nat := ((s.grpBlk g).launch, (s.grpBlk g).vcore * 16 + (s.grp g).gidx)
/-- One DEQ request at the home: answered at once, or a waiter; the flag says that the group waits. -/
def deqOne (o : FmtE) (acc : State × Bool) (r : Nat × List Nat) : State × Bool :=
  let s := settleLine acc.1 (lineOf r.1)
  let g := s.cur.g
  let uid := s.me.uid
  let pa := r.1
  let none_ (s : State) : State := s.updMe fun x => r.2.foldl (fun x t => deqPut o true x t none) x
  match queueBad s pa with
  | some c => (none_ (structFault s c (eAddr s o.a (r.2.headD 0))), acc.2)
  | none =>
    let h := queueHdr s pa
    if s.grpPavane g then
      let w : Waiter := { slice := sliceKey pa, header := pa, parked := false, since := s.clock, what := .deq g uid r.2 o,
                          gather := some (gatherOrder s g) }
      ({ s with waiters := spPut s.waiters (spFresh s.waiters) w }, true)
    else if h.enq = h.deq then
      (if WF.ef o 19 19 = 1 then (none_ s, acc.2) else (addWaiter s pa (.deq g uid r.2 o), true))
    else match deqGive s g pa r.2 o true with
      | .ok s => (s, acc.2)
      | .error e => (none_ (structFault s e.1 e.2), acc.2)
/-- DEQ (R356). -/
def execDeq (o : FmtE) (s : State) : Host.Outcome State Fault Refusal :=
  finish (eachStruct o (use2 o.a) 64 64 needRW fun ps =>
    upd fun s =>
      let r := (byStruct ps).foldl (deqOne o) (s, false)
      if r.2 then blockOn r.1 r.1.cur.g .deq else eAcquire o r.1) s

/-! ### Events -/

/-- A request that stands outside its table is due again; it takes a place in the table if there is one, and is served if it can
be. -/
def comesAgain (s : State) (w : Waiter) : Bool := !w.parked && w.gather.isNone && w.since + 1024 ≤ s.clock
def askAgain (k : Nat) (w : Waiter) (s : State) : State :=
  let s := { s with waiters := spDel s.waiters k }
  let room := tableUsed s w.slice < 64
  let k2 := spFresh s.waiters
  let s := { s with waiters := spPut s.waiters k2 { w with since := s.clock, parked := room } }
  match w.what with
  | .deq _ _ _ _ => serveDeqOne s k2
  | _ => serveRingOne s k2
/-- WAITER_REISSUE (R352): a request that found its table full comes again 512 fabric cycles later. -/
def execWaiterReissue (k : Nat) (s : State) : Host.Outcome State Fault Refusal :=
  finish (do
    match spFind s.waiters k with
    | none => idleM
    | some w => do
      onlyIf (comesAgain s w)
      upd (askAgain k w)) s
/-- PARK_REISSUE (R351): a group whose operation found its slice's park full issues it again 256 fabric cycles later. -/
def execParkReissue (g : Nat) (s : State) : Host.Outcome State Fault Refusal :=
  finish (do
    onlyIf (s.hasGrp g && (s.grp g).parkWait && (s.grp g).parkAt + 512 ≤ s.clock)
    upd fun s => s.updGrp g fun x => { x with parkWait := false }) s
/-- The first gathered request of a slice: it opened the earliest quantum. -/
def quantumOpener (s : State) (slice : Nat) : Option Waiter :=
  s.waiters.foldl (fun b e =>
    if e.2.slice = slice && e.2.gather.isSome then
      match b with
      | none => some e.2
      | some w => if e.2.since < w.since then some e.2 else some w
    else b) none
/-- The requests of a quantum, those of the opener's launch in the 64 fabric cycles from it, by VCORE then GIDX. -/
def gathered (s : State) (w : Waiter) : List (Nat × Waiter) :=
  sortBy (fun a b => (a.2.gather.getD (0, 0)).2 ≤ (b.2.gather.getD (0, 0)).2) (s.waiters.filter fun e =>
    e.2.slice = w.slice && e.2.gather.isSome && e.2.gather.map (·.1) = w.gather.map (·.1) && e.2.since < w.since + 128)
/-- One gathered DEQ: served, refused with .try, or put into the waiter table. -/
def gatherServe (s : State) (e : Nat × Waiter) : State :=
  let pa := e.2.header
  let h := queueHdr s pa
  match e.2.what with
  | .deq g uid ts o =>
    if h.enq ≠ h.deq then serveDeqOne s e.1
    else if WF.ef o 19 19 = 1 then
      endWait (if s.sameGrp g uid then s.updGrp g fun x => ts.foldl (fun x t => deqPut o false x t none) x else s) e.1 g uid (eScope o)
    else addWaiter { s with waiters := spDel s.waiters e.1 } pa e.2.what
  | _ => s
/-- PAVANE_DEQ_QUANTUM (R357): 64 fabric cycles after the request that opened it, a launch's quantum is served. -/
def execPavaneDeqQuantum (die slice : Nat) (s : State) : Host.Outcome State Fault Refusal :=
  finish (do
    match quantumOpener s (die * 32 + slice) with
    | none => idleM
    | some w => do
      onlyIf (w.since + 128 ≤ s.clock)
      upd fun s => (gathered s w).foldl gatherServe s) s

end Sys2Proof.Machine
end

