-- ==== Sys2Proof/Machine/Place.lean ====
section
/-! DEFINITION. Place.lean: what a core and a region can still hold (R306, R313, R382, R383), and the placing of blocks and
groups (R30, R310). -/

namespace Sys2Proof.Machine

/-- What a block asks of a core. -/
structure Req where
  groups : Nat
  regs : Nat
  uregs : Nat
  sp : Nat
  acc : Nat
  deriving DecidableEq, Repr

def LaunchRec.req (r : LaunchRec) : Req := { groups := r.groups, regs := r.regs, uregs := r.uregs, sp := r.sp, acc := r.acc }
/-- A spawn group's block (R205). -/
def SpawnCfg.req (c : SpawnCfg) : Req := { groups := 1, regs := c.regs, uregs := c.uregs, sp := c.sp, acc := 0 }
def evens (n : Nat) : Nat := (n + 1) / 2

/-- A block that takes space on its core. -/
def Block.onCore (b : Block) : Bool := b.state ≠ .saved
def Block.key (b : Block) : Nat := b.die * 64 + b.core
/-- Blocks of a core. -/
def coreBlocks (s : State) (ck : Nat) : List (Nat × Block) := s.blocks.filter fun e => e.2.key = ck && e.2.onCore
/-- Group slots of a block: GIDX, regs and uregs of each; before dispatch those it will have. -/
def slotsOf (s : State) (e : Nat × Block) : List (Nat × Nat × Nat) :=
  if e.2.state = .placed then (List.range e.2.ngroups).map fun i => (i, e.2.regs, e.2.uregs)
  else (s.groupsOf e.1).map fun g => ((s.grp g).gidx, (s.grp g).regs, (s.grp g).uregs)
/-- Spawn reservations on a core, by block and binding, that no spawn group of their binding is using there (R206). -/
def reservedFor (s : State) (ck : Nat) : List (Nat × Nat × SpawnCfg) :=
  s.blocks.flatMap fun e => if !e.2.onCore then [] else e.2.binds.filterMap fun b =>
    match b.2.spawn with
    | some c =>
      let used := s.blocks.any fun x => x.2.key = ck && (match x.2.spawnOf with
        | some o => o.block = e.1 && o.bind = b.1 && { o.cfg with core := c.core } = c
        | none => false)
      if c.core = ck && !used then some (e.1, b.1, c) else none
    | none => none
def reservedOn (s : State) (ck : Nat) : List SpawnCfg := (reservedFor s ck).map fun r => r.2.2

/-- What is taken on a core. -/
structure Taken where
  blocks : Nat
  slots : List (Nat × Nat × Nat)
  lines : Nat
  deriving DecidableEq, Repr

def spLines (sp groups : Nat) : Nat := sp / 128 + 6 * groups
def takenOn (s : State) (ck : Nat) : Taken :=
  let bs := coreBlocks s ck
  let rs := reservedOn s ck
  { blocks := bs.length + rs.length, slots := bs.flatMap (slotsOf s) ++ rs.map fun c => (0, c.regs, c.uregs),
    lines := sumNat (bs.map fun e => spLines e.2.spSize (slotsOf s e).length) + sumNat (rs.map fun c => spLines c.sp 1) }
/-- The accumulator slots of a core in use. -/
def accUsed (s : State) (ck i : Nat) : Bool :=
  (coreBlocks s ck).any fun e => e.2.accBase ≤ i && i < e.2.accBase + e.2.acc
/-- The first free run of n slots that starts at a multiple of 4. -/
def accRun (s : State) (ck n : Nat) : Option Nat :=
  (List.range 8).map (· * 4) |>.find? fun b => b + n ≤ 32 && (List.range n).all fun i => !accUsed s ck (b + i)
/-- A block with these groups, scratchpad bytes and accumulator slots fits on a core (R313). -/
def fitsSlots (s : State) (ck : Nat) (slots : List (Nat × Nat × Nat)) (sp acc : Nat) : Bool :=
  let t := takenOn s ck
  let all := t.slots ++ slots
  let half (h : Nat) : Nat := (all.filter fun x => x.1 % 2 = h).length
  t.blocks + 1 ≤ 16 && all.length ≤ 64 && half 0 ≤ 32 && half 1 ≤ 32
  && 64 * sumNat (all.map fun x => x.2.1) ≤ 131072 && sumNat (all.map fun x => x.2.2) ≤ 4096
  && t.lines + spLines sp slots.length ≤ 3840 && (accRun s ck acc).isSome
/-- The group slots that a request asks for. -/
def Req.slots (q : Req) : List (Nat × Nat × Nat) := (List.range q.groups).map fun i => (i, q.regs, q.uregs)
def fitsCore (s : State) (ck : Nat) (q : Req) : Bool := fitsSlots s ck q.slots q.sp q.acc
/-- While a pavane block is resident on a core, only its launch's blocks are (R320, R321): launch l may not place one there. -/
def heldByPavane (s : State) (ck l : Nat) : Bool :=
  (coreBlocks s ck).any fun e => e.2.launch ≠ l && ((s.lch l).pavane || (s.lch e.2.launch).pavane)
/-- Among the cores of a die for which `ok` holds, the one with most free group slots, then the lowest (R313). -/
def bestCore (s : State) (d : Nat) (ok : Nat → Bool) : Option Nat :=
  ((List.range 48).map (d * 64 + ·)).foldl (fun best ck =>
    if !ok ck then best
    else match best with
      | none => some ck
      | some b => if (takenOn s ck).slots.length < (takenOn s b).slots.length then some ck else best) none
/-- A core of die d for a request of launch l. -/
def chooseCore (s : State) (d l : Nat) (q : Req) : Option Nat :=
  if !dieRuns s d then none else bestCore s d fun ck => !heldByPavane s ck l && fitsCore s ck q

/-! ### Charges (R306, R383) -/

structure Charge where
  groups : Nat := 0
  regs : Nat := 0
  uregs : Nat := 0
  sp : Nat := 0
  acc : Nat := 0
  cores : Nat := 0
  deriving DecidableEq, Repr

/-- The running charges of a region's subtree on a die: what each of its blocks took when it was placed, until the block retires, is
flushed or is saved. -/
def chargesOf (s : State) (c r d : Nat) : Charge :=
  let bs := s.blocks.filter fun e =>
    e.2.die = d && e.2.onCore && (s.lch e.2.launch).ctx = c && inSubtree s c r (s.lch e.2.launch).region
  { groups := sumNat (bs.map fun e => e.2.ngroups), regs := sumNat (bs.map fun e => 64 * e.2.ngroups * e.2.regs),
    uregs := sumNat (bs.map fun e => e.2.ngroups * e.2.uregs), sp := sumNat (bs.map fun e => e.2.spSize),
    acc := sumNat (bs.map fun e => e.2.acc), cores := ((bs.map fun e => e.2.core).dedup).length }
/-- One more block with core key ck stays within a region and its ancestors. -/
def budgetOk (s : State) (c r d ck : Nat) (q : Req) : Bool :=
  ((regionChain s c r).getD []).all fun t =>
    let e := regionOf s c t
    let h := chargesOf s c t d
    let has := s.blocks.any fun x =>
      x.2.key = ck && x.2.onCore && (s.lch x.2.launch).ctx = c && inSubtree s c t (s.lch x.2.launch).region
    h.groups + q.groups ≤ e.groups && h.sp + q.sp ≤ e.sp && h.acc + q.acc ≤ e.acc
    && h.cores + (if has then 0 else 1) ≤ e.cores
/-- The block alone exceeds its region's budget (R303). -/
def overBudget (s : State) (c r : Nat) (q : Req) : Bool :=
  ((regionChain s c r).getD []).any fun t =>
    let e := regionOf s c t
    q.groups > e.groups || q.sp > e.sp || q.acc > e.acc || e.cores = 0
/-- Spawn reservations of a region on a die (R382). -/
def spawnReserved (s : State) (c r d : Nat) : Nat :=
  sumNat ((s.blocks.filter fun e => e.2.die = d && (s.lch e.2.launch).ctx = c && (s.lch e.2.launch).region = r).map fun e =>
    (e.2.binds.filter fun b => b.2.spawn.isSome).length)

/-! ### Placing -/

/-- The lowest free group slot of a core. -/
def freeSlot (s : State) (ck : Nat) : Nat :=
  ck * 64 + (((List.range 64).find? fun i => (spFind s.groups (ck * 64 + i)).isNone).getD 0)
/-- A group's start state (R30): k0 the parameter pointer, every register 0, one plane, all threads live. -/
def freshGroup (s : State) (b i regs uregs np code entry param prio threads : Nat) : Group :=
  let m : Mask := BitVec.ofNat 64 (2 ^ threads - 1)
  { uid := s.nextUid, block := b, gidx := i, regs := regs, uregs := uregs, np := np, code := code,
    kr := spSet 0 [] 0 (BitVec.ofNat 64 param), live := m, resident := m, pc := entry % 2 ^ 27, entering := true, prio := prio,
    readyAt := s.clock }
/-- Add a group at the lowest free slot of its block's core; it enters the pending set (R27). -/
def addGroup (s : State) (ck : Nat) (x : Group) : State :=
  { (s.setGrp (freeSlot s ck) x) with nextUid := s.nextUid + 1 }
/-- Priority of a launch's groups (R315). -/
def Launch.groupPrio (s : State) (l : Launch) : Nat := min l.lr.prio (Launch.reg s l).prio
/-- A placed block dispatches: its groups enter the pending set (R310); they acquire what its launch's submission released
(R260, R364, R368). -/
def dispatchBlock (s : State) (b : Nat) : State :=
  let x := s.blk b
  let l := s.lch x.launch
  let r := l.lr
  let s := invalidateClean (s.setBlk b { x with state := .running }) x.key
  let s := (List.range x.ngroups).foldl (fun s i =>
    addGroup s x.key { (freshGroup s b i r.regs r.uregs r.planes r.code r.entry r.param (l.groupPrio s) 64) with
      halt := l.halted, byhalt := l.halted }) s
  fillCore s x.key
/-- The scratchpad ways grow when the core's allocations need it (R313, R246). -/
def growWays (s : State) (ck : Nat) : State :=
  let w := waysFor (takenOn s ck).lines
  if (s.core ck).ways < w then setWays s ck w else s
/-- The lowest free block slot of a core (R359). -/
def freePlace (s : State) (ck : Nat) : Nat :=
  ((List.range 16).find? fun i => !(coreBlocks s ck).any fun e => e.2.place = i).getD 0
/-- A block takes its place on a core: barriers in phase mode, scratchpad zero and full, tiles zero, its hint unknown. -/
def placeRec (s : State) (l : Nat) (r : LaunchRec) (bid ck : Nat) : State × Nat :=
  let b := max s.nextBlock (spFresh s.blocks)
  let x : Block := {
    launch := l, bid := bid, die := coreDie ck, core := coreIdx ck, place := freePlace s ck, ngroups := r.groups,
    regs := r.regs, uregs := r.uregs, state := .placed, spSize := r.sp,
    acc := r.acc, accBase := (accRun s ck r.acc).getD 0, nbar := r.barriers, placedAt := s.clock,
    vcore := if (s.lch l).pavane then bid % max 1 r.vcores else 0xFFFFFFFF }
  (growWays { (s.setBlk b x) with nextBlock := b + 1 } ck, b)
def placeOn (s : State) (l bid ck : Nat) : State × Nat := placeRec s l (s.lch l).lr bid ck

end Sys2Proof.Machine
end

