-- ==== Sys2Proof/Machine/Copies.lean ====
section
/-! DEFINITION. Copies.lean: shape records (R278 to R281), the copy engine (R282 to R298) and its events. A row lands whole; a
scratchpad line is written and turns full once every row that reaches it has landed. -/

namespace Sys2Proof.Machine

def fieldLe (bs : List Byte) (off n : Nat) : Nat := bytesNat ((bs.drop off).take n)
def zeroBytes (bs : List Byte) (off n : Nat) : Bool := ((bs.drop off).take n).all (· = 0)

/-! ### Shape records (R278, R279) -/

def shapeOf (bs : List Byte) : Shape :=
  let n5 (off w : Nat) : List Nat := (List.range 5).map fun d => fieldLe bs (off + w * d) w
  { kind := fieldLe bs 0 1, etype := fieldLe bs 1 1, rank := fieldLe bs 2 1, bmode := fieldLe bs 3 1, swz := fieldLe bs 4 1,
    fill := fieldLe bs 8 8, dim := n5 16 4, box := n5 36 2, stride := (n5 48 8).map (signedNat 64), base := fieldLe bs 88 8,
    orig := (n5 96 4).map (signedNat 32), spdst := fieldLe bs 116 4, sppitch := fieldLe bs 120 4, mxptr := fieldLe bs 128 8,
    idxptr := fieldLe bs 136 8 }
/-- Element size in bits and whether the type is a block type (Table 11-2); 0 for a code outside the table. -/
def etypeBits (e : Nat) : Nat :=
  if e ≤ 13 then tyWidth e else if 0x10 ≤ e && e ≤ 0x12 then 8 else if 0x22 ≤ e && e ≤ 0x27 then e - 0x20 else 0
def etypeBlock (e : Nat) : Bool := 0x10 ≤ e
def Shape.bits (r : Shape) : Nat := etypeBits r.etype
def Shape.block (r : Shape) : Bool := etypeBlock r.etype
def Shape.dimN (r : Shape) (d : Nat) : Nat := r.dim.getD d 0
/-- Box extent, 1 beyond the rank. -/
def Shape.boxN (r : Shape) (d : Nat) : Nat := if d < r.rank then r.box.getD d 0 else 1
def Shape.origN (r : Shape) (d : Nat) : Int := r.orig.getD d 0
def Shape.strideN (r : Shape) (d : Nat) : Int := r.stride.getD d 0
def Shape.rb (r : Shape) : Nat := r.boxN 0 * r.bits / 8
def Shape.nrow (r : Shape) : Nat := r.boxN 1 * r.boxN 2 * r.boxN 3 * r.boxN 4
def Shape.q (r : Shape) : Nat := 16 * 2 ^ natBits r.swz 1 0
def Shape.xlo (r : Shape) : Nat := natBits r.swz 4 2
def Shape.xn (r : Shape) : Nat := natBits r.swz 6 5
/-- The requirements that every use of a record makes. -/
def shapeBase (bs : List Byte) (r : Shape) : Bool :=
  r.bits ≠ 0 && 1 ≤ r.rank && r.rank ≤ 5 && r.swz < 128 && zeroBytes bs 5 3 && zeroBytes bs 46 2 && zeroBytes bs 124 4
  && zeroBytes bs 144 48 && r.base % 16 = 0
  && ((List.range 5).all fun d =>
    if d < r.rank then 1 ≤ r.dimN d && 1 ≤ r.box.getD d 0 && (d = 0 || r.strideN d % 16 = 0)
    else r.dimN d = 0 && r.box.getD d 0 = 0 && r.strideN d = 0 && r.origN d = 0)
  && r.strideN 0 = (if r.block then 0 else ((r.bits / 8 : Nat) : Int))
  && (!r.block || (r.dimN 0 % 32 = 0 && r.boxN 0 % 32 = 0 && r.origN 0 % 32 = 0))
/-- The requirements of a copy's record. -/
def shapeCopy (bs : List Byte) (r : Shape) (kind : Nat) : Bool :=
  shapeBase bs r && r.kind = kind && r.bmode ≤ 1
  && (if kind = 1 then r.rank = 2 && r.boxN 1 ≤ 32 && r.idxptr % 16 = 0 else r.idxptr = 0)
  && r.rb % 16 = 0 && r.sppitch % 16 = 0 && r.rb ≤ r.sppitch && r.sppitch % (r.q * 2 ^ r.xn) = 0
  && r.spdst % (if r.xn = 0 then 16 else 128) = 0

/-- The bytes of a record through the core's record cache (R281): the cached ones, or those at the home slice, which it then
holds; the oldest of more than 64 entries goes. -/
def recordBytes (s : State) (va n : Nat) : Except Fail (List Byte × State) := do
  let ck := placeCore s.cur.g
  let c := s.ctxOf s.cur.g
  let _ ← xlatRange (xlGrp s s.cur.g needR) va n
  match (s.core ck).records.find? fun e => e.1 = c && e.2.1 = va && n ≤ e.2.2.length with
  | some e => pure (e.2.2.take n, s)
  | none =>
    let bs ← readRange s (xlGrp s s.cur.g needR) va n
    let s := settleRange s (xlGrp s s.cur.g needR) va n
    let rest (x : Core) : List (Nat × Nat × List Byte) := x.records.filter fun e => !(e.1 = c && e.2.1 = va)
    let keep (x : Core) : List (Nat × Nat × List Byte) := (rest x).drop ((rest x).length - 63) ++ [(c, va, bs)]
    pure (bs, s.updCore ck fun x => { x with records := keep x })
/-- A uniform instruction's precise trap. -/
def uniTrap (cause addr : Nat) : M Unit := do
  let s ← get
  trapM { cause := cause, addr := addr, mask := s.me.resident }
/-- Read a 192-byte record: alignment, translation, poison (checks 1 and 2 of Table 11-5). -/
def fetchRecord (va : Nat) : M (List Byte) := do
  if va % 64 ≠ 0 then uniTrap 0x0B va
  let s ← get
  match recordBytes s va 192 with
  | .ok r => do
    set r.2
    pure r.1
  | .error e => do
    uniTrap e.1 e.2
    pure []

/-! ### Where a copy's bytes lie -/

/-- Rows of a copy, and the bytes of row r. -/
def Copy.rows (c : Copy) : Nat := if c.linear then (c.shape.rb + 127) / 128 else c.shape.nrow
def Copy.rowLen (c : Copy) (r : Nat) : Nat := if c.linear then min 128 (c.shape.rb - 128 * r) else c.shape.rb
/-- The scratchpad offset of the 16-byte unit at byte j of row r (R233). -/
def Copy.spAt (c : Copy) (r j : Nat) : Nat :=
  if c.linear then c.shape.spdst + 128 * r + j
  else swizzleOffset c.shape.q c.shape.sppitch c.shape.xlo c.shape.xn c.shape.spdst r j
/-- The units of row r: byte in the row and scratchpad offset. -/
def Copy.units (c : Copy) (r : Nat) : List (Nat × Nat) :=
  (List.range (c.rowLen r / 16)).map fun i => (16 * i, c.spAt r (16 * i))
/-- Lines that row r reaches. -/
def Copy.linesOf (c : Copy) (r : Nat) : List Nat := ((c.units r).map fun u => u.2 / 128).dedup
/-- Box coordinate d of row r. -/
def Copy.coord (c : Copy) (r d : Nat) : Nat :=
  match d with
  | 1 => r % c.shape.boxN 1
  | 2 => r / c.shape.boxN 1 % c.shape.boxN 2
  | 3 => r / (c.shape.boxN 1 * c.shape.boxN 2) % c.shape.boxN 3
  | _ => r / (c.shape.boxN 1 * c.shape.boxN 2 * c.shape.boxN 3)
/-- Tensor index on axis d ≥ 1 of row r. -/
def Copy.index (c : Copy) (r d : Nat) : Int :=
  if c.shape.kind = 1 && d = 1 then c.idx.getD r 0 else c.shape.origN d + (c.coord r d : Nat)
/-- The row's outer axes are in bounds. -/
def Copy.rowIn (c : Copy) (r : Nat) : Bool :=
  c.linear || ([1, 2, 3, 4].all fun d => c.shape.rank ≤ d || (0 ≤ c.index r d && c.index r d < (c.shape.dimN d : Nat)))
/-- The in-bounds run of row r: first byte in the row, bytes, memory address (R279). -/
def Copy.run (c : Copy) (r : Nat) : Option (Nat × Nat × Int) :=
  let h := c.shape
  if c.linear then some (0, c.rowLen r, (h.base + 128 * r : Nat))
  else if !c.rowIn r then none
  else
    let lo : Int := max 0 (-(h.origN 0))
    let hi : Int := min (h.boxN 0 : Nat) ((h.dimN 0 : Nat) - h.origN 0)
    if hi ≤ lo then none
    else
      let outer := [1, 2, 3, 4].foldl (fun (a : Int) d => if d < h.rank then a + c.index r d * h.strideN d else a) (h.base : Nat)
      let byte (j : Int) : Int := j * (h.bits : Nat) / 8
      some ((byte lo).toNat, (byte hi - byte lo).toNat, outer + byte (h.origN 0 + lo))
/-- Every element of the box is in bounds (check 4). -/
def Copy.allIn (c : Copy) : Bool :=
  (List.range c.rows).all fun r => match c.run r with | some x => x.1 = 0 && x.2.1 = c.rowLen r | none => false
/-- Fill bytes of a row (R293). -/
def Copy.fillBytes (c : Copy) (n : Nat) : List Byte :=
  if c.shape.block then List.replicate n 0
  else
    let w := max 1 (c.shape.bits / 8)
    (List.range n).map fun i => BitVec.ofNat 8 (c.shape.fill / 2 ^ (8 * (i % w)))
/-- The status word (Table 11-10). -/
def Copy.status (c : Copy) : Nat :=
  (if c.done then 1 else 0) + (if c.fault.isSome then 2 else 0) + (if c.cancel then 4 else 0) + (if c.late then 8 else 0)
  + c.whole.length % 2 ^ 16 * 2 ^ 32
/-- Replace n bytes of a list from i by bs. -/
def spliceBytes (l : List Byte) (i : Nat) (bs : List Byte) : List Byte := l.take i ++ bs ++ l.drop (i + bs.length)

/-! ### The lines of a copy, and its rows' completion (R284, R285, R293) -/

/-- Memory lines that row r reaches. -/
def Copy.memLines (c : Copy) (r : Nat) : List Nat :=
  match c.run r with
  | none => []
  | some (_, n, a) => (chunksOf a.toNat n).map fun p => p.1 / 128
/-- Destination lines of row r. -/
def Copy.reach (c : Copy) (r : Nat) : List Nat := if c.toMem then c.memLines r else c.linesOf r
def Copy.hasRow (c : Copy) (r : Nat) : Bool := c.landed.any fun e => e.1 = r
/-- Every row that reaches a destination line has landed: the line is written. -/
def Copy.lineDone (c : Copy) (line : Nat) : Bool := (List.range c.rows).all fun r => !(c.reach r).contains line || c.hasRow r
/-- The rows whose destination lines are all written. -/
def Copy.wholeRows (c : Copy) : List Nat := (List.range c.rows).filter fun r => c.hasRow r && (c.reach r).all c.lineDone
/-- What a memory line takes from the rows that reach it, in row order: address and bytes. -/
def Copy.pieces (c : Copy) (line : Nat) : List (Nat × List Byte) :=
  (List.range c.rows).filterMap fun r =>
    match c.run r, c.landed.find? fun e => e.1 = r with
    | some (i, n, a), some e =>
      let lo := max a.toNat (line * 128)
      let hi := min (a.toNat + n) (line * 128 + 128)
      if lo < hi then some (lo, (e.2.drop (i + (lo - a.toNat))).take (hi - lo)) else none
    | _, _ => none

/-! ### Landing (R284, R285, R289, R293, R294) -/

/-- Weight-store address of a copy's offset. -/
def Copy.wsPa (s : State) (c : Copy) (a : Nat) : Nat :=
  wsAddr (coreDie c.core) ((Launch.reg s (s.lch (s.blk c.block).launch)).wsbase * 2 ^ 23 + a)
/-- Memory-side bytes of a run: at the home, or in a replica of the core's die (R283). -/
def Copy.readMem (s : State) (c : Copy) (a n : Nat) : Except Fail (List Byte) :=
  if c.ws then
    let pa := c.wsPa s a
    if rangePoisoned s pa n then .error (cPoison, a) else .ok (homeBytes s pa n)
  else readNear s (coreDie c.core) (xlCore s c.core c.ctx needR) a n
/-- Reads of a weight-store range wait for the bank that refreshes now (R240); a range that lies in every bank is read as its banks
come free. -/
def rangeWaits (s : State) (d pa n : Nat) : Bool :=
  let ls := (chunksOf pa n).map fun p => lineOf p.1
  ls.length < 64 && ls.any (bankWaits s d)
/-- A line leaves the issuing core's L1: the core's earlier writes to it are performed first (R183). -/
def dropL1Line (s : State) (ck line : Nat) : State := flushLine (performWhere s fun w => w.core = ck && w.line = line) ck line
/-- Drop a range's lines from the issuing core's L1. -/
def dropL1Range (s : State) (ck : Nat) (ps : List (Nat × Nat)) : State :=
  ps.foldl (fun s p => dropL1Line s ck (lineOf p.1)) s
/-- Where a copy writes the bytes from address a of a memory line. -/
def Copy.writePlace (s : State) (c : Copy) (a : Nat) : Except Fail Nat :=
  if c.ws then .ok (c.wsPa s a)
  else match xlCore s c.core c.ctx needW a with
    | .ok pa _ => .ok pa
    | .bad cause => .error (cause, a)
/-- One memory line at physical address `pa` of its first piece: all its bytes in one write, its L1 copy dropped (R285). -/
def Copy.storeLine (s : State) (c : Copy) (ps : List (Nat × List Byte)) (pa : Nat) : State :=
  let put (m : BitVec 128 × BitVec 1024) (p : Nat × List Byte) : BitVec 128 × BitVec 1024 :=
    let k := byteMask (p.1 % 128) p.2.length
    (m.1 ||| k, mergeLine m.2 (placeBytes (p.1 % 128) p.2) k)
  let m := ps.foldl put (0, 0)
  commitLine .home (dropL1Line s c.core (lineOf pa)) c.core (lineOf pa) m.1 m.2
/-- The group that issued asynchronous work has not retired: it stands at its place, or its affine continuation will (R360). -/
def issuerLives (s : State) (g uid : Nat) : Bool := s.sameGrp g uid || s.conts.any fun e => e.2.affine && e.2.uid = uid
/-- The group waits on copy k: asleep on its token, or at a line that the copy is to fill. -/
def waitsOn (s : State) (k : Nat) (c : Copy) : Bool :=
  s.sameGrp c.g c.uid && match (s.grp c.g).wait with
    | .sleepTok t => t = c.token
    | .fullEmpty l => spFind (s.blk c.block).empty l = some (k + 1)
    | _ => false
/-- A stopped copy: nothing further lands; its group's wait on it goes on to the trap; with the group retired the fault domain is told
(R289). -/
def stopCopy (s : State) (k : Nat) (c : Copy) (cause addr : Nat) : State :=
  let c := { c with fault := some { cause := cause, addr := addr } }
  let c := { c with fault := some { cause := cause, addr := addr, prog := c.status } }
  let s := { s with copies := spPut s.copies k c }
  if waitsOn s k c then makeReady s c.g
  else if issuerLives s c.g c.uid then s
  else domFaultAt s c.core c.ctx (s.lch (s.blk c.block).launch).region
    { cause := 0x13, addr := addr, rec_ := c.trec, prog := c.status, tok := c.token, pc := some c.ipc, ipc := some c.ipc }
/-- Write a line whose rows have all landed, and turn it full. -/
def fillLine (s : State) (k : Nat) (c : Copy) (line : Nat) : State :=
  let rows := (List.range c.rows).filter fun r => (c.linesOf r).contains line
  if !c.lineDone line then s
  else
    let s := rows.foldl (fun s r =>
      let bs := ((c.landed.find? fun e => e.1 = r).map (·.2)).getD []
      (c.units r).foldl (fun s u =>
        if u.2 / 128 = line then s.updBlk c.block fun b => spWrite b u.2 ((bs.drop u.1).take 16) else s) s) s
    let s := s.updBlk c.block fun b => if spGet 0 b.filling line = k + 1 then { b with filling := spDel b.filling line } else b
    setFull s c.block line
/-- The scratchpad lines that a row's in-bounds elements lie in. -/
def Copy.sources (c : Copy) (r : Nat) : List Nat :=
  match c.run r with
  | none => []
  | some (i, n, _) => (((c.units r).filter fun u => u.1 < i + n && i < u.1 + 16).map fun u => u.2 / 128).dedup
/-- Row r may land: not landed, and its source lines full, or its weight-store bank not refreshing (R240, R293). -/
def rowReady (s : State) (c : Copy) (r : Nat) : Bool :=
  r < c.rows && !c.complete && c.fault.isNone && !c.hasRow r
  && (if c.toMem then (c.sources r).all (lineFull (s.blk c.block))
      else match c.run r with
        | some (_, n, a) => !c.ws || !rangeWaits s (coreDie c.core) (c.wsPa s a.toNat) n
        | none => true)
/-- After a row: the barrier's bytes for the rows now complete, and completion, the lines written being performed, with the store
direction's rows out of bounds. -/
def rowDone (s : State) (k : Nat) : State :=
  match spFind s.copies k with
  | none => s
  | some c =>
    let feed (s : State) (rs : List Nat) : State :=
      match c.bar with
      | some b => if rs = [] then s else barBytes s c.block b (sumNat (rs.map c.rowLen))
      | none => s
    let counts (r : Nat) : Bool := !c.toMem || (c.run r).isSome
    let w := c.wholeRows
    let s := feed s (w.filter fun r => !c.whole.contains r && counts r)
    let c := { c with whole := w }
    if w.length < c.rows then { s with copies := spPut s.copies k c }
    else
      let s := feed s (w.filter fun r => !counts r)
      let s := performWhere s fun x => x.written && c.out.contains x.line
      settleBlock { s with copies := spPut s.copies k { c with done := true } } c.block
/-- The memory lines that a row makes complete, each with its pieces and its place; or the first that cannot be written. -/
def Copy.dueLines (s : State) (c : Copy) (r : Nat) : Except Fail (List (List (Nat × List Byte) × Nat)) :=
  ((c.memLines r).filter c.lineDone).mapM fun l =>
    let ps := c.pieces l
    (c.writePlace s (ps.foldl (fun m p => min m p.1) (l * 128 + 127))).map fun pa => (ps, pa)
/-- Land row r of copy k. -/
def landRow (s : State) (k r : Nat) : State :=
  match spFind s.copies k with
  | none => s
  | some c =>
    if !rowReady s c r then s
    else if c.toMem then
      let bs := (c.units r).flatMap fun u => spRead (s.blk c.block) u.2 16
      let x := { c with landed := c.landed ++ [(r, bs)] }
      match (c.units r).find? fun u => (c.sources r).contains (u.2 / 128) && spPoisoned (s.blk c.block) u.2 16, x.dueLines s r with
      | some u, _ => stopCopy s k c cPoison u.2
      | none, .error e => stopCopy s k c e.1 e.2
      | none, .ok ls =>
        let s := ls.foldl (fun s l => x.storeLine s l.1 l.2) s
        rowDone { s with copies := spPut s.copies k { x with out := x.out ++ ls.map fun l => lineOf l.2 } } k
    else
      let base := c.fillBytes (c.rowLen r)
      let got : Except Fail (List Byte) := match c.run r with
        | none => .ok base
        | some (i, n, a) => (c.readMem s a.toNat n).map fun bs => spliceBytes base i bs
      match got with
      | .error e => stopCopy s k c e.1 e.2
      | .ok bs =>
        let s := match c.run r with
          | some (_, n, a) => if c.ws then s else settleRange s (xlCore s c.core c.ctx needR) a.toNat n
          | none => s
        let c := { c with landed := c.landed ++ [(r, bs)] }
        let s := { s with copies := spPut s.copies k c }
        rowDone ((c.linesOf r).foldl (fun s l => fillLine s k c l) s) k
/-- COPY_ROW_LAND (R293). -/
def execCopyRowLand (copy row : Nat) (s : State) : Host.Outcome State Fault Refusal :=
  finish (do
    match spFind s.copies copy with
    | none => idleM
    | some c => do
      onlyIf (rowReady s c row)
      upd fun s => landRow s copy row) s
/-- The promise of a copy has passed, and it is not complete. -/
def promiseBroken (s : State) (c : Copy) : Bool := !c.complete && !c.late && !c.pavane && reaches (cycleCount s (coreDie c.core)) c.promise
/-- The copy is late, and its group's LATECNT counts it; with MODE.ptrap set a group that waits for it goes on to its trap. -/
def missPromise (copy : Nat) (c : Copy) (s : State) : State :=
  let s := { s with copies := spPut s.copies copy { c with late := true } }
  if !s.sameGrp c.g c.uid then s
  else
    let s := s.updGrp c.g fun x => { x with late := BitVec.ofNat 64 (min 0xFFFFFFFF (x.late.toNat + 1)) }
    if waitsOn s copy c && (s.grp c.g).mode.getLsbD 9 then makeReady s c.g else s
/-- Every copy whose promise has passed is late at that moment (R288). -/
def missPromises (s : State) : State :=
  (s.copies.filter fun e => promiseBroken s e.2).foldl (fun s e => missPromise e.1 e.2 s) s
/-- PROMISE_MISSED (R288): the late bit and LATECNT; a group that sleeps on the token issues its SLEEP again. -/
def execPromiseMissed (copy : Nat) (s : State) : Host.Outcome State Fault Refusal :=
  finish (do
    match spFind s.copies copy with
    | none => idleM
    | some c => do
      onlyIf (promiseBroken s c)
      upd (missPromise copy c)) s

/-! ### Issue (R289, R291 to R293, R296) -/

/-- Group g of a parameter word, a substituted one read by `rd` (R69). -/
def substBy (rd : Nat → Nat) (w : Slot) (g : Nat) : Nat :=
  if w.getLsbD (92 + g) then rd (bitsNat w (16 * g + 5) (16 * g)) % 2 ^ 16 else bitsNat w (16 * g + 15) (16 * g)
def substWord (x : Group) (w : Slot) (g : Nat) : Nat := substBy (readK x) w g
/-- Outstanding copies of a core's channel (R282). -/
def channelUsed (s : State) (ck : Nat) : Nat := (s.copies.filter fun e => e.2.core = ck && !e.2.complete).length
def mspcWs (o : FmtE) : Bool := WF.ef o 51 50 = 2
def copyBar (o : FmtE) : Option Nat := if WF.ef o 49 49 = 1 then some (WF.ef o 48 45) else none
/-- The copy that an instruction issues, its token and promise still to be named. -/
def newCopy (o : FmtE) (kind : Nat) (h : Shape) (idx : List Int) (linear : Bool) (trec : Nat) (s : State) : Copy := {
  block := s.me.block, g := s.cur.g, uid := s.me.uid, core := placeCore s.cur.g, ctx := s.ctxOf s.cur.g, kind := kind,
  toMem := WF.ef o 52 52 = 1, ws := mspcWs o, bar := copyBar o, shape := h, idx := idx, linear := linear, trec := trec,
  ipc := (s.cur.off, s.cur.plane), token := 0, promise := 0, pavane := s.grpPavane s.cur.g, landed := [] }
/-- The first unit of a copy beyond the scratchpad, and the first run beyond its memory (Table 11-5). -/
def Copy.beyondSp (s : State) (c : Copy) : Option (Nat × Nat) :=
  ((List.range c.rows).flatMap c.units).find? fun u => (s.blk c.block).spSize < u.2 + 16
def Copy.beyondMem (s : State) (c : Copy) : Option (Nat × Nat × Int) :=
  let limit : Nat := if c.ws then (wsWindow s c.g).2 else 2 ^ 52
  ((List.range c.rows).filterMap c.run).find? fun x => x.2.2 < 0 || (limit : Int) < x.2.2 + (x.2.1 : Nat)
/-- The promise of a copy: a later count that the engine estimates (log 10), all ones in a pavane block (R287). -/
def promiseOf (s : State) (c : Copy) (free : Nat) : Nat :=
  if c.pavane then 0xFFFFFFFF else (cycleCount s (coreDie c.core) + 1 + free % (2 ^ 31 - 1)) % 2 ^ 32
/-- The copy is queued: its token is written, and the scratchpad lines it will fill turn empty (R289, R292). -/
def queueCopy (o : FmtE) (c : Copy) (s : State) : State :=
  let k := spFresh s.copies
  let f := s.fresh
  let s := f.2
  let promise := promiseOf s c f.1
  let token := promise + (s.blk c.block).copySeq % 2 ^ 24 * 2 ^ 32 + c.kind * 2 ^ 56
  let s := s.updBlk c.block fun x => { x with copySeq := x.copySeq + 1 }
  let s := if c.toMem then s
    else (((List.range c.rows).flatMap c.linesOf).dedup).foldl
      (fun s l => s.updBlk c.block fun x => { x with empty := spPut x.empty l (k + 1), filling := spPut x.filling l (k + 1) }) s
  putK o 3 token { s with copies := spPut s.copies k { c with token := token, promise := promise } }
/-- The registers a copy reads, parameter words among them. -/
def copyUses (o : FmtE) (s : State) (linear : Bool) : List FieldUse :=
  if linear then readsOf (.cpyi o) else readsOf (.cpy o) ++ parUses (s.cur.par.getD []) (.cpy o)
/-- Checks 4 to 8 of Table 11-5, then the issue itself. -/
def issueCopy (o : FmtE) (c : Copy) : M Unit := do
  let s ← get
  if c.shape.bmode = 1 && !c.linear && !c.allIn then uniTrap 0x0B c.trec
  match c.beyondSp s with
  | some u => uniTrap 0x0C u.2
  | none => pure ()
  match c.beyondMem s with
  | some x => uniTrap cProt (intBits 64 x.2.2)
  | none => pure ()
  if c.toMem && c.ws && !(s.grpLch s.cur.g).flag 4 then uniTrap 0x16 c.shape.base
  checkPoison true (copyUses o s c.linear) [0]
  if 16 ≤ channelUsed s c.core then stallM else upd (queueCopy o c)
/-- The record's address in A, or in the inline form's field. -/
def copyRecord (s : State) (o : FmtE) : Nat := readK s.seen ((if o.a.toNat = 0 then WF.efF o 34 else o.a).toNat - 0x100)
/-- The tile coordinate on axis d, and the scratchpad offset in units of 16 bytes, of an inline form (R291). -/
def copyTile (s : State) (o : FmtE) (d : Nat) : Nat :=
  let p (n : Nat) : Slot := (s.cur.par.getD []).getD n 0
  if o.a.toNat ≠ 0 then 0 else if d < 4 then substWord s.seen (p 0) d else substWord s.seen (p 1) 0
def copyDq (s : State) (o : FmtE) : Nat :=
  if o.a.toNat ≠ 0 then 0 else substWord s.seen ((s.cur.par.getD []).getD 1 0) 1
/-- The record moved by the tile coordinates and the scratchpad offset. -/
def copyShape (s : State) (o : FmtE) (r : Shape) : Shape :=
  { r with orig := (List.range 5).map fun d => r.origN d + ((r.box.getD d 0 * copyTile s o d : Nat) : Int),
           spdst := r.spdst + 16 * copyDq s o }
/-- The indices of an indexed copy (R279). -/
def copyIndices (s : State) (shapeKind : Nat) (r : Shape) : Except Fail (List Int) :=
  let n := min 32 (r.box.getD 1 0)
  if shapeKind = 1 && r.kind = 1 then
    (readRange s (xlGrp s s.cur.g needR) r.idxptr (4 * n)).map fun l => (List.range n).map fun i => signedNat 32 (fieldLe l (4 * i) 4)
  else .ok []
/-- The record is good for the copy, as it stands and as it is moved. -/
def copyShapeOk (s : State) (o : FmtE) (shapeKind : Nat) (bs : List Byte) : Bool :=
  let r := shapeOf bs
  shapeCopy bs r shapeKind && shapeCopy bs (copyShape s o r) shapeKind
  && ((List.range 5).all fun d => d < r.rank || copyTile s o d = 0) && (shapeKind = 0 || copyTile s o 1 = 0)
/-- The frame of CPY, CPYG and CPYS. -/
def copyCore (o : FmtE) (kind shapeKind : Nat) : M Unit := do
  let s ← get
  if !guardG s o.h then pure ()
  else do
    let va := copyRecord s o
    let bs ← fetchRecord va
    if shapeKind = 1 && (shapeOf bs).kind = 1 then
      upd fun s => settleRange s (xlGrp s s.cur.g needR) (shapeOf bs).idxptr (4 * min 32 ((shapeOf bs).box.getD 1 0))
    let s ← get
    match copyIndices s shapeKind (shapeOf bs) with
    | .error e => uniTrap e.1 e.2
    | .ok idx => do
      need (copyShapeOk s o shapeKind bs) { cause := 0x0B, addr := va, mask := s.me.resident }
      issueCopy o (newCopy o kind (copyShape s o (shapeOf bs)) idx false va s)
/-- CPY (R293). -/
def execCpy (o : FmtE) (s : State) : Host.Outcome State Fault Refusal := finish (copyCore o 1 0) s
/-- CPYG (R293). -/
def execCpyg (o : FmtE) (s : State) : Host.Outcome State Fault Refusal := finish (copyCore o 3 1) s
/-- CPYS (R293). -/
def execCpys (o : FmtE) (s : State) : Host.Outcome State Fault Refusal := finish (copyCore o 4 1) s
/-- A length or offset of CPYI: a k register's low 32 bits or a signed immediate. -/
def cpyiField (s : State) (f : BitVec 10) : Int :=
  if WF.isK f then ((readK s.seen (f.toNat - 0x100) % 2 ^ 32 : Nat) : Int) else WF.immVal f
/-- The row that CPYI moves, and the limits of its fields. -/
def cpyiShape (s : State) (o : FmtE) : Shape :=
  { etype := 0, rank := 1, box := [(cpyiField s (WF.efF o 24)).toNat], base := readK s.seen (o.a.toNat - 0x100),
    spdst := (cpyiField s (WF.efF o 14)).toNat }
def cpyiOk (s : State) (o : FmtE) : Bool :=
  let m := readK s.seen (o.a.toNat - 0x100)
  let len := cpyiField s (WF.efF o 24)
  let sp := cpyiField s (WF.efF o 14)
  m % 16 = 0 && 0 ≤ sp && sp % 16 = 0 && 16 ≤ len && len ≤ 491520 && len % 16 = 0
/-- CPYI (R296). -/
def cpyiCore (o : FmtE) : M Unit := do
  let s ← get
  if !guardG s o.h then pure ()
  else do
    need (cpyiOk s o) { cause := 0x0B, addr := readK s.seen (o.a.toNat - 0x100), mask := s.me.resident }
    issueCopy o (newCopy o 2 (cpyiShape s o) [] true 0 s)
def execCpyi (o : FmtE) (s : State) : Host.Outcome State Fault Refusal := finish (cpyiCore o) s

/-! ### CPYQ and CPYX (R292, R297, R298) -/

/-- A token that CPYQ and CPYX take (R292). -/
def tokenOk (t : Nat) : Bool := t < 2 ^ 59 && 1 ≤ natBits t 58 56 && natBits t 58 56 ≤ 4
/-- The copy of the block that a token names; none for one 2^23 or more copies older than the latest (R297). -/
def copyOf (s : State) (b t : Nat) : Option (Nat × Copy) :=
  if 2 ^ 23 ≤ ((s.blk b).copySeq + 2 ^ 24 - 1 - natBits t 55 32) % 2 ^ 24 then none
  else s.copies.reverse.find? fun e => e.2.block = b && natBits e.2.token 58 32 = natBits t 58 32
/-- A token read from a k register; a bad one is a shape trap. -/
def tokenArg (o : FmtE) : M Nat := do
  let s ← get
  let t := readK s.seen (o.a.toNat - 0x100)
  need (tokenOk t) { cause := 0x0B, addr := t, mask := s.me.resident, tok := t }
  checkPoison true (use1 o.a) [0]
  pure t
/-- Wait on one copy: its trap, else a stall until it is complete. -/
def waitCopy (e : Nat × Copy) : M Unit := do
  if e.2.complete then pure ()
  else do
    raiseCopyWait e.1
    stallM
/-- A uniform engine instruction: nothing with a false guard. -/
def guarded (o : FmtE) (body : M Unit) : M Unit := do
  let s ← get
  if guardG s o.h then body else pure ()
/-- CPYQ (R297). -/
def execCpyq (o : FmtE) (s : State) : Host.Outcome State Fault Refusal :=
  finish (guarded o do
    let t ← tokenArg o
    let s ← get
    match copyOf s s.me.block t with
    | some e => waitCopy e
    | none => pure ()) s
/-- CPYQ.all (R297). -/
def execCpyqAll (o : FmtE) (s : State) : Host.Outcome State Fault Refusal :=
  finish (guarded o do
    let s ← get
    (s.copies.filter fun e => e.2.g = s.cur.g && e.2.uid = s.me.uid && !e.2.complete).forM waitCopy) s
/-- The answer of CPYQ.test: complete, stopped, or long complete. -/
def copyTested (s : State) (t : Nat) : Bool :=
  match copyOf s s.me.block t with
  | some e => e.2.complete || e.2.fault.isSome
  | none => true
/-- CPYQ.test (R297). -/
def execCpyqTest (o : FmtE) (s : State) : Host.Outcome State Fault Refusal :=
  finish (guarded o do
    let t ← tokenArg o
    upd fun s => s.updMe fun x =>
      let x := latchRes x o.h 3 0 (if copyTested s t then 1 else 0)
      if o.h.s then x else setG x (WF.ef o 2 0) (copyTested s t)) s
/-- CPYQ.stat (R297). -/
def execCpyqStat (o : FmtE) (s : State) : Host.Outcome State Fault Refusal :=
  finish (guarded o do
    let t ← tokenArg o
    upd fun s => putK o 3 (((copyOf s s.me.block t).map fun e => e.2.status).getD 1) s) s
/-- A copy still in progress is cancelled; its landed rows stay. -/
def cancelCopy (t : Nat) (s : State) : State :=
  match copyOf s s.me.block t with
  | some e =>
    if e.2.complete || e.2.fault.isSome then s
    else settleBlock { s with copies := spPut s.copies e.1 { e.2 with cancel := true } } e.2.block
  | none => s
/-- CPYX (R298): no further line is written; with no row in progress the copy is complete at once. -/
def execCpyx (o : FmtE) (s : State) : Host.Outcome State Fault Refusal :=
  finish (guarded o do
    let t ← tokenArg o
    upd (cancelCopy t)) s

end Sys2Proof.Machine
end

