-- ==== Sys2Proof/Machine/Issue.lean ====
section
/-! DEFINITION. Issue.lean: how a group issues one instruction or one pair (R20 to R24, R36, R37, R45, R53, R321): which group
may issue, the copies of the occupied planes, and what the machine does around the meaning of each. The meaning itself is a
parameter `ex`. -/

namespace Sys2Proof.Machine

abbrev Meaning := Instr → State → Host.Outcome State Fault Refusal

/-- Control passes to an offset, in its 27 bits (R35). -/
def setPc (s : State) (g off : Nat) : State := s.updGrp g fun x => { x with pc := off % 2 ^ 27 }

/-! ### Which group may issue -/

/-- A turn position (half·8 + track) of a core that holds a group which takes its turn (R321, R322). -/
def turnGroup (s : State) (core pos : Nat) : Option Nat :=
  (s.groups.find? fun e =>
    placeCore e.1 = core && !isControl e.1 && halfOf e.2 * 8 + e.2.track.getD 16 = pos && e.2.track.isSome
    && (e.2.wait = .none || e.2.wait = .fullLog)).map (·.1)
/-- The group whose turn it is: the first position from the core's turn pointer that holds one. -/
def turnHolder (s : State) (core : Nat) : Option Nat :=
  (List.range 16).findSome? fun i => turnGroup s core (((s.core core).turn + i) % 16)
/-- An access of a pavane group in its core's operand log: a page fault holds the turn until it is replayed (R322). -/
def logHeld (s : State) (core : Nat) : Bool := s.oplog.any fun e => e.core = core && s.sameGrp e.g e.uid && s.grpPavane e.g
/-- The group may issue: not halted, not blocked, on a track (or a control core running a handler), and in a pavane block
only in its turn (log 16). -/
def canIssue (s : State) (g : Nat) : Bool :=
  let x := s.grp g
  s.hasGrp g && !x.halt && !x.parkWait && x.wait = .none
  && (isControl g || (x.track.isSome && (!s.grpPavane g || turnHolder s (placeCore g) = some g && !logHeld s (placeCore g))))

/-! ### Resume (R329) -/

/-- Resume() of R329; a group with no resident thread retires, which `retireGroup` of Control does. -/
def resumePath (x : Group) : List StackEntry → Group
  | [] => { x with stack := [], live := x.resident }
  | e :: rest =>
    if e.mask = 0 then resumePath { x with pc := e.offset } rest
    else { x with stack := rest, live := e.mask, pc := e.offset }

/-! ### What is issued -/

/-- One plane's copy at the group's offset: its slot and instruction, and the lane member of a pair. -/
structure Copied where
  plane : Nat
  slot : Slot
  instr : Instr
  lane : Option (Slot × Instr)
  deriving DecidableEq, Repr

/-- The slots of one plane's line, decoded (R70). -/
def decodeCopy (s : State) (g slot p : Nat) (l : Line) : Except Trap Copied := do
  let x := s.grp g
  let par := if lineInl l then some [lineSlot l 1, lineSlot l 2, lineSlot l 3, lineSlot l 4] else none
  let one (n : Nat) : Except Trap (Slot × Instr) :=
    match decodeAt s g par (lineSlot l n) with
    | .ok i =>
      if opOf (lineSlot l n) = 0xFF && (occupied x).length > 1 then .error { cause := 0x01, mask := planeMask x p }
      else .ok (lineSlot l n, i)
    | .error c => .error { cause := c, mask := planeCause x (hdrOf (lineSlot l n)).u p }
  let a ← one slot
  let b ← if linePair l slot then (one (slot + 1)).map some else pure none
  pure { plane := p, slot := a.1, instr := a.2, lane := b }

/-- Collective instructions (R115). -/
def opCollective (op : Nat) : Bool := [0x44, 0x45, 0x46, 0x47, 0x83, 0x85].contains op
/-- The instruction writes one value once for the group: a k destination, or a g predicate with pdc = 1 (R115). -/
def groupWide (o : FmtA) : Bool := !o.h.s && (WF.isK o.d || WF.pdc o)
/-- Copies of a collective instruction agree (R115): T, rm and function fields (all of R64 but q, a destination), and the
destination when it is group-wide. -/
def collectiveAgree (a b : Slot) : Bool :=
  let x := fieldsA a
  let y := fieldsA b
  x.h.t = y.h.t && x.h.rm = y.h.rm && bitsNat (WF.fnv x) 27 0 = bitsNat (WF.fnv y) 27 0 && WF.pdc x = WF.pdc y
  && (!(groupWide x || groupWide y) || (x.d = y.d && x.h.s = y.h.s && x.h.l = y.h.l))
/-- Copies that must agree at a control point do (R37, R115). -/
def copiesAgree (a b : Slot) : Bool :=
  let f := fieldsC a
  let h := fieldsC b
  opOf a = opOf b
  && (if [0x01, 0x02, 0x03, 0x0D].contains (opOf a) then
        f.tline = h.tline && f.tslot = h.tslot && f.cline = h.cline && f.cslot = h.cslot && f.cfn = h.cfn && f.hint = h.hint
        && (opOf a ≠ 0x03 || f.a = h.a)
      else if opCollective (opOf a) then collectiveAgree a b
      else true)
/-- The offset's slot n of a plane that no active thread occupies makes it a control point of R37; R338's and R115's ask for an
occupied plane. -/
def idlePoint (n : Nat) (l : Line) : Bool :=
  let op := opOf (lineSlot l n)
  (!lineInl l || n = 0) && opControl op && !([0x07, 0x08, 0x0A].contains op)
/-- Slots of one offset, one per occupied plane: whether the offset is a control point, and its copies' agreement; `idle`: an
unoccupied plane makes it one. -/
def pointOf (idle : Bool) (ws : List Slot) : Bool × Bool :=
  (ws ≠ [] && (idle || ws.any fun w => opControl (opOf w) || opCollective (opOf w)),
   match ws with
   | [] => true
   | a :: r => r.all (copiesAgree a))
/-- At a control point the copy acts once for the group: a uniform one, or a lane one that is no engine instruction (R36, R115). -/
def actsOnce (w : Slot) : Bool :=
  (hdrOf w).u || opCollective (opOf w) || (opControl (opOf w) && !opFormatE (opOf w))

/-- One run of a meaning within an issue: `snap` takes the group as the pair's view, `lane` reads through it (R24). -/
structure Run where
  plane : Nat
  instr : Instr
  whole : Bool := false
  snap : Bool := false
  lane : Bool := false
  copies : List (Nat × Slot) := []
  deriving DecidableEq, Repr

/-- What issues at the group's offset, in order: the copies in ascending plane, a copy's pair together; at a control point the
lowest plane's copy once, unless it is a lane instruction of Format E, which runs per plane. -/
structure Plan where
  copies : List Copied := []
  whole : Bool := false
  runs : List Run := []
  deriving DecidableEq, Repr

def issuePlan (s : State) (g : Nat) : Except Trap Plan := do
  let x := s.grp g
  let slot := x.pc % 5
  let cs ← (occupied x).mapM fun p => decodeCopy s g slot p ((spFind x.images p).getD 0)
  let lanes := cs.filterMap fun c => c.lane.map fun l => (c.plane, l)
  let idle (n : Nat) : Bool := x.others.any fun e => idlePoint n e.2
  let a := pointOf (idle slot) (cs.map fun c => c.slot)
  let b := pointOf (idle (slot + 1)) (lanes.map fun l => l.2.1)
  if (a.1 && !a.2) || (b.1 && !b.2) then .error { cause := 0x04, mask := x.live }
  else
    let copies := cs.map fun c => (c.plane, c.slot)
    match cs with
    | [] => pure {}
    | c :: _ =>
      let once := a.1 && actsOnce c.slot
      let first : Run := { plane := c.plane, instr := c.instr, whole := true, snap := !lanes.isEmpty, copies := copies }
      match lanes with
      | l :: _ =>
        if b.1 && actsOnce l.2.1 then
          let us := if once then [first] else cs.map fun k => ({ plane := k.plane, instr := k.instr, snap := k.plane = c.plane } : Run)
          let last : Run := { plane := l.1, instr := l.2.2, whole := true, lane := true,
                              copies := lanes.map fun k => (k.1, k.2.1) }
          pure { copies := cs, runs := us ++ [last] }
        else if once then
          pure { copies := cs, runs := first :: lanes.map fun k => { plane := k.1, instr := k.2.2, lane := true } }
        else
          pure { copies := cs, runs := cs.flatMap fun k => { plane := k.plane, instr := k.instr, snap := true } ::
                  (match k.lane with
                   | some m => [{ plane := k.plane, instr := m.2, lane := true }]
                   | none => []) }
      | [] =>
        if once then pure { copies := cs, whole := true, runs := [first] }
        else pure { copies := cs, runs := cs.map fun k => { plane := k.plane, instr := k.instr } }

/-- The offset after the instruction or pair issues (R45). -/
def nextOffset (x : Group) (inl : Bool) (pair : Bool) : Nat :=
  if inl then (x.pc / 5 + 1) * 5 else x.pc + (if pair then 2 else 1)

/-- The state in which a copy's meaning runs: the issue record is set and the PC stands past the instruction. -/
def prepare (s : State) (g plane off next : Nat) (whole : Bool) (copies : List (Nat × Slot)) (par : Option (List Slot)) : State :=
  setPc { s with cur := { g := g, plane := plane, whole := whole, off := off, copies := copies, par := par } } g next

/-- A lane instruction's cycles for the active threads of p planes (R21). -/
def laneCycles (threads planes : Nat) : Nat := max 1 threads + planes - 1
/-- Cycles of track tenure an issue takes (R21, R23, R36): the lane copies' pass and one for each uniform copy; a plane that holds
NOP adds nothing beside another copy. -/
def occupancy (x : Group) (cs : List Copied) (whole : Bool) : Nat :=
  if whole then (if cs.any fun c => (hdrOf c.slot).u then 1 else laneCycles (maskCount x.live) (occupied x).length)
  else
    let busy := cs.filter fun c => opOf c.slot ≠ 0
    let lanes := busy.filter fun c => !(hdrOf c.slot).u || c.lane.isSome
    let once := busy.length - lanes.length
    if busy = [] then laneCycles (maskCount x.live) 1
    else if lanes = [] then once
    else once + laneCycles (sumNat (lanes.map fun c => maskCount (planeMask x c.plane))) lanes.length

/-- Every group of a block stops, with byhalt set, for a save or a flush; those it stops are kept by uid (R406). -/
def haltForSave (s : State) (b : Nat) : State :=
  let gs := (s.groupsOf b).filter fun g => !(s.grp g).halt
  gs.foldl haltGroup (s.updBlk b fun x => { x with stopped := x.stopped ++ gs.map fun g => (s.grp g).uid })
/-- Between two turns, the pavane blocks of a core whose pre-emption was chosen stop (R322). -/
def turnEnds (s : State) (ck : Nat) : State :=
  ((s.blocks.filter fun e => e.2.die * 64 + e.2.core = ck && e.2.saving).map (·.1)).foldl haltForSave s
/-- The turn passes from a position (R321). It is over when no group stands ahead; the next one begins at position 0. A group
that issues behind the turn pointer found the rest of its turn without a group. -/
def passTurn (s : State) (ck pos : Nat) : State :=
  let s := s.updCore ck fun c => { c with turns := if pos < c.turn then c.turns + 1 else c.turns, turn := pos + 1 }
  let ahead : Bool := match turnHolder s ck with
    | some g => pos < halfOf (s.grp g) * 8 + (s.grp g).track.getD 0
    | none => false
  if ahead then s else turnEnds (s.updCore ck fun c => { c with turns := c.turns + 1, turn := 0 }) ck
/-- Bookkeeping after an issue that completed: retired slots (R322), tenure (R315), the turn from the position of a pavane
group (R321). -/
def retireIssue (s : State) (g uid slots cycles : Nat) (turn : Option Nat) : State :=
  let s := if s.sameGrp g uid then s.updGrp g fun x => { x with retired := x.retired + slots, tenure := x.tenure + cycles } else s
  match turn with
  | some pos => passTurn s (placeCore g) pos
  | none => s

/-- A pair that waits at its lane member: the uniform member's writes are undone, and the accesses that the lane member's earlier
threads have made stay (R24, R232, R268). -/
def heldPair (before s : State) (g : Nat) : State :=
  let b := before.grp g
  s.updGrp g fun x =>
    { x with kr := b.kr, gp := b.gp, poisonK := b.poisonK, fstat := b.fstat,
             lat := if x.line.isNone then [] else b.lat, latOk := if x.line.isNone then [] else b.latOk }
/-- The outcome of the runs of an issue, from the state before: the first trap or stall of any of them leaves no effect of
the others (R24, R37, R401). -/
def runAll (ex : Meaning) (s0 : State) (g next : Nat) (par : Option (List Slot)) :
    List Run → Option Group → State → Host.Outcome State Fault Refusal
  | [], _, s => .next s
  | r :: rest, view, s =>
    let before := prepare s0 g r.plane (s0.grp g).pc next r.whole r.copies par
    let view := if r.snap then some (s.grp g) else view
    match ex r.instr { s with cur := { before.cur with view := if r.lane then view else none, moved := s.cur.moved } } with
    | .next s1 =>
      (match s1.cur.out with
       | .done => runAll ex s0 g next par rest view s1
       | .stalled =>
         (if r.lane && (occupied (s0.grp g)).length = 1 then .next (heldPair before s1 g)
          else if (s1.grp g).wait = .none then .next (stalled before)
          else .next (blockOn (stalled before) g (s1.grp g).wait))
       | .trapped t => .next (takeTrap before t))
    | o => o

/-- The instructions of an issue with the threads of the group that run each: all for a uniform one. -/
def issued (x : Group) (cs : List Copied) : List (Instr × Bool × List Nat) :=
  cs.flatMap fun c =>
    let one (w : Slot) (i : Instr) : Instr × Bool × List Nat :=
      let h := hdrOf w
      (i, h.u, if h.u then (if predG x h.pg.toNat != h.n then tids else [])
               else tids.filter fun t => x.live.getLsbD t && planeOf x t = c.plane && (predP x h.pg.toNat t != h.n))
    one c.slot c.instr :: (match c.lane with | some l => [one l.1 l.2] | none => [])
/-- Queries of a group whose fault it has not taken and whose destination one of the instructions touches (R219). -/
def faultedHit (s : State) (g : Nat) (uses : Instr → List FieldUse) (is : List (Instr × Bool × List Nat)) : List (Nat × Query) :=
  s.queries.filter fun e =>
    e.2.g = g && e.2.uid = (s.grp g).uid && e.2.toTell.isSome && !e.2.told
    && is.any fun i => (uses i.1).any (e.2.names (s.grp g)) && (i.2.1 && i.2.2 ≠ [] || i.2.2.contains e.2.tid || (e.2.kind = .cover && i.2.2 ≠ []))
/-- The engine-fault trap at the first read of a faulted query's destination (R219). -/
def queryTrap (s : State) (e : Nat × Query) : Trap :=
  { cause := 0x13, wait := true, addr := (e.2.toTell.map fun f => f.addr).getD 0, rec_ := e.2.rec_, prog := e.2.visits,
    mask := if e.2.kind = .cover then (s.grp e.2.g).resident else BitVec.ofNat 64 (2 ^ e.2.tid), tok := e.2.serial, ipc := some e.2.ipc }
/-- A fault is told once: a completed query with nothing left to tell is forgotten. -/
def tellQuery (s : State) (k : Nat) : State :=
  match spFind s.queries k with
  | some q =>
    if q.state = .complete then { s with queries := spDel s.queries k }
    else { s with queries := spPut s.queries k { q with told := true } }
  | none => s

/-- Issue of a group: one line execution, one Resume, one trap of decode, one wait, or one instruction (or pair). -/
def issueWith (ex : Meaning) (g : Nat) (s : State) : Host.Outcome State Fault Refusal :=
  let x := s.grp g
  if !canIssue s g then .next s
  else if x.live = 0 then .next (s.updGrp g fun x => endLine (resumePath x x.stack))
  else if x.line ≠ some (x.pc / 5) || (occupied x).any (fun p => (spFind x.images p).isNone) then ex (.lineExecution g) s
  else
    let at_ := { s with cur := { g := g, off := x.pc } }
    match issuePlan s g with
    | .error t => .next (takeTrap at_ t)
    | .ok plan =>
      let image := (spFind x.images ((plan.copies.head?.map fun c => c.plane).getD 0)).getD 0
      let par := if lineInl image then some [lineSlot image 1, lineSlot image 2, lineSlot image 3, lineSlot image 4] else none
      let pair := plan.copies.any fun c => c.lane.isSome
      let next := nextOffset x (lineInl image) pair
      let is := issued x plan.copies
      match faultedHit s g readsOf is with
      | e :: _ => .next (takeTrap (tellQuery at_ e.1) (queryTrap s e))
      | [] =>
      if plan.copies.any fun c => scoreboardHolds s g par c.slot c.instr
          || (match c.lane with | some l => scoreboardHolds s g par l.1 l.2 | none => false) then .next (stalled at_)
      else
        let done (s1 : State) : State :=
          if s1.cur.out = .done then
            retireIssue ((faultedHit s g destsOf is).foldl (fun s e => tellQuery s e.1) s1) g x.uid (if pair then 2 else 1)
              (occupancy x plan.copies plan.whole) (if s.grpPavane g then some (halfOf x * 8 + x.track.getD 0) else none) else s1
        match plan.runs with
        | [] => .next s
        | [r] =>
          (match ex r.instr (prepare s g r.plane x.pc next r.whole r.copies par) with
           | .next s1 => .next (done s1)
           | o => o)
        | rs =>
          (match runAll ex s g next par rs none (prepare s g 0 x.pc next false [] par) with
           | .next s1 => .next (done s1)
           | o => o)

end Sys2Proof.Machine
end

