-- ==== Sys2Proof/Machine/Geometry.lean ====
section
/-! DEFINITION. Geometry.lean: the exact arithmetic of the ray and beam engine: samples of a beam (R195), classification of a
box (R199), the triangle test (R202), and coverage (R211). Coordinates are f64 bits unless a type says otherwise. -/

namespace Sys2Proof.Machine

def f64 : Fmt := fmtOf 11
def f32 : Fmt := fmtOf 10
/-- f64 bits of a finite value. -/
def isFinite (f : Fmt) (b : Nat) : Bool :=
  match fpDecode f b with | .nan _ => false | .inf _ => false | _ => true
/-- The exact value of finite bits. -/
def exactOf (f : Fmt) (b : Nat) : Exact := (fpDecode f b).exact
def to64 (mode : Nat) (e : Exact) : Nat := (roundTo f64 mode (finOr false e)).1
/-- RoundTo(f64, e, RNE), and the exact value of the result; none where it is not finite. -/
def rne64 (e : Exact) : Option Exact :=
  let b := to64 1 e
  if isFinite f64 b then some (exactOf f64 b) else none
/-- An f32 widened exactly to f64. -/
def widen (b : Nat) : Nat :=
  match fpDecode f32 b with
  | .nan _ => f64.nan
  | v => (roundTo f64 1 v).1
/-- Numeric order of f64 bits (R199, R216): −0 equals +0, and a NaN stands in no order. -/
def le64 (a b : Nat) : Bool :=
  match fpDecode f64 a, fpDecode f64 b with
  | .nan _, _ => false
  | _, .nan _ => false
  | x, y => fpLe x y || fpEq x y
def lt64 (a b : Nat) : Bool :=
  match fpDecode f64 a, fpDecode f64 b with
  | .nan _, _ => false
  | _, .nan _ => false
  | x, y => fpLt x y
def max64 (a b : Nat) : Nat := if lt64 a b then b else a
def min64 (a b : Nat) : Nat := if lt64 b a then b else a
def inf64 : Nat := f64.inf
def ninf64 : Nat := f64.inf + f64.signBit

/-! ### Samples (R195) -/

/-- A fine ray as f64 bits, and whether it misses everything. -/
structure FineRay where
  o : List Nat
  d : List Nat
  tmin : Nat
  tmax : Nat
  dead : Bool
  deriving DecidableEq, Repr

/-- A zero direction, a NaN or an infinity, or tmin > tmax (R195). -/
def deadRay (o d : List Nat) (tmin tmax : Nat) : Bool :=
  (o ++ d ++ [tmin, tmax]).any (fun b => !isFinite f64 b) || d.all (fun b => (exactOf f64 b).isZero) || lt64 tmax tmin
def fineRay (o d : List Nat) (tmin tmax : Nat) : FineRay :=
  { o := o, d := d, tmin := tmin, tmax := tmax, dead := deadRay o d tmin tmax }

/-- floor(π/2 · 2^128). -/
def halfPi128 : Nat := 534514292032483373929840186580935391650
/-- Taylor sums of cos and sin for an angle in units of 2^−128, from term k on: (cos, sin). -/
def taylor (x : Int) : Nat → Int → Nat → Int × Int → Int × Int
  | 0, _, _, a => a
  | n + 1, term, k, a =>
    let a := match k % 4 with
      | 0 => (a.1 + term, a.2)
      | 1 => (a.1, a.2 + term)
      | 2 => (a.1 - term, a.2)
      | _ => (a.1, a.2 - term)
    taylor x n (term * x / ((2 ^ 128 : Nat) : Int) / ((k : Int) + 1)) (k + 1) a
/-- FixRound(cos φ, 60) and FixRound(sin φ, 60) for φ = 2π·n/m, 0 ≤ n < m. -/
def cosSin60 (n m : Nat) : Int × Int :=
  let q := 4 * n / m
  let r := 4 * n % m
  let v := taylor ((halfPi128 * r / m : Nat) : Int) 48 ((2 ^ 128 : Nat) : Int) 0 (0, 0)
  let fix (i : Int) : Int := (i + ((2 ^ 67 : Nat) : Int)) / ((2 ^ 68 : Nat) : Int)
  let c := fix v.1
  let s := fix v.2
  match q with
  | 0 => (c, s)
  | 1 => (-s, c)
  | 2 => (-c, -s)
  | _ => (s, -c)

/-- A beam's vectors, as f64 bits: a frustum (O, Du, Dv, D0, Eu, Ev) or a cone (apex, axis, U, V, tan). -/
structure BeamRec where
  cone : Bool
  w : Nat
  h : Nat
  o : List Nat
  du : List Nat
  dv : List Nat
  d0 : List Nat
  eu : List Nat
  ev : List Nat
  tan : Nat
  tmin : Nat
  tmax : Nat
  user : Nat
  deriving DecidableEq, Repr

def axes : List Nat := [0, 1, 2]
/-- The sample of column a and row b of a beam. -/
def beamSample (r : BeamRec) (a b : Nat) : FineRay :=
  let all := r.o ++ r.du ++ r.dv ++ r.d0 ++ r.eu ++ r.ev ++ [r.tan, r.tmin, r.tmax]
  if all.any fun x => !isFinite f64 x then
    { o := r.o, d := r.d0, tmin := r.tmin, tmax := r.tmax, dead := true }
  else
    let e (l : List Nat) (i : Nat) : Exact := exactOf f64 (l.getD i 0)
    let u : Exact := ⟨((2 * a + 1 : Nat) : Int), 2 * r.w⟩
    let v : Exact := ⟨((2 * b + 1 : Nat) : Int), 2 * r.h⟩
    if r.cone then
      let cs := cosSin60 (2 * a + 1) (2 * r.w)
      let rho := (exactOf f64 r.tan).mul v
      let c : Exact := ⟨cs.1, 2 ^ 60⟩
      let s : Exact := ⟨cs.2, 2 ^ 60⟩
      fineRay r.o (axes.map fun i =>
        to64 1 ((e r.d0 i).add (rho.mul ((c.mul (e r.eu i)).add (s.mul (e r.ev i)))))) r.tmin r.tmax
    else
      let at_ (p q t : List Nat) : List Nat :=
        axes.map fun i => to64 1 ((e p i).add ((u.mul (e q i)).add (v.mul (e t i))))
      fineRay (at_ r.o r.du r.dv) (at_ r.d0 r.eu r.ev) r.tmin r.tmax

/-! ### Classification (R197, R199) -/

inductive Class where
  | miss | enter | mixed
  deriving DecidableEq, Repr
def Class.code : Class → Nat
  | .miss => 0 | .enter => 1 | .mixed => 2

/-- A box's bound on an axis: pmin + q·2^ex, rounded by a mode. -/
def boxBound (mode pmin q : Nat) (ex : Int) : Nat :=
  to64 mode ((exactOf f32 pmin).add ((Exact.ofInt (q : Int)).scale ex))
/-- lo x, y, z then hi x, y, z is empty. -/
def emptyBox (b : List Nat) : Bool := axes.any fun c => lt64 (b.getD (c + 3) 0) (b.getD c 0)
def minE (l : List Exact) : Exact := match l with | [] => ⟨0, 1⟩ | a :: r => r.foldl (fun m x => if x.lt m then x else m) a
def maxE (l : List Exact) : Exact := match l with | [] => ⟨0, 1⟩ | a :: r => r.foldl (fun m x => if m.lt x then x else m) a
/-- The interval quotient (p − [olo, ohi]) / [dlo, dhi], rounded outward. -/
def quotient (p olo ohi dlo dhi : Exact) : Nat × Nat :=
  let n := [p.sub ohi, p.sub olo]
  let qs := n.flatMap fun x => [x.div dlo, x.div dhi]
  (to64 4 (minE qs), to64 3 (maxE qs))
/-- Classify of R199 for a set of samples that are not dead, each with its limit tcur. -/
def classify (box : List Nat) (set_ : List (FineRay × Nat)) : Class × Nat :=
  match set_ with
  | [] => (.miss, 0)
  | s0 :: _ =>
    let tmin := s0.1.tmin
    let tlimit := set_.foldl (fun m x => max64 m x.2) s0.2
    let comp (f : FineRay → List Nat) (c : Nat) : List Exact := set_.map fun x => exactOf f64 ((f x.1).getD c 0)
    let per (c : Nat) : (Nat × Nat) × (Nat × Nat) :=
      let os := comp (fun r => r.o) c
      let ds := comp (fun r => r.d) c
      let dlo := minE ds
      let dhi := maxE ds
      if dlo.le ⟨0, 1⟩ && (Exact.le ⟨0, 1⟩ dhi) then ((ninf64, inf64), (ninf64, inf64))
      else
        let lo := exactOf f64 (box.getD c 0)
        let hi := exactOf f64 (box.getD (c + 3) 0)
        let pos := !(dlo.le ⟨0, 1⟩)
        (quotient (if pos then lo else hi) (minE os) (maxE os) dlo dhi, quotient (if pos then hi else lo) (minE os) (maxE os) dlo dhi)
    let xs := axes.map per
    let enlo := xs.foldl (fun m x => max64 m x.1.1) ninf64
    let enhi := xs.foldl (fun m x => max64 m x.1.2) ninf64
    let exlo := xs.foldl (fun m x => min64 m x.2.1) inf64
    let exhi := xs.foldl (fun m x => min64 m x.2.2) inf64
    if emptyBox box || lt64 (min64 exhi tlimit) (max64 enlo tmin) then (.miss, 0)
    else if le64 (max64 enhi tmin) (min64 exlo s0.1.tmax) then (.enter, max64 enlo tmin)
    else (.mixed, max64 enlo tmin)

/-! ### The triangle test (R202) -/

/-- A sheared vertex. -/
structure Shear where
  x : Exact
  y : Exact
  z : Exact
  deriving DecidableEq, Repr

def edgeFn (p q : Shear) : Exact := (p.x.mul q.y).sub (p.y.mul q.x)
def signE (e : Exact) : Int := if e.isZero then 0 else if e.isNeg then -1 else 1
/-- IsIn of R202. -/
def isIn (e : Exact) (p q : Shear) (s : Int) : Bool :=
  if e.isZero then
    let a := signE (q.y.sub p.y) * s
    let b := signE (p.x.sub q.x) * s
    if a ≠ 0 then a > 0 else b > 0
  else signE e = s
/-- TriTest: t, b1 and b2 of a hit. -/
def triTest (r : FineRay) (tri : List Nat) (tcur : Nat) : Option (Nat × Nat × Nat) := do
  let d (i : Nat) : Exact := exactOf f64 (r.d.getD i 0)
  let o (i : Nat) : Exact := exactOf f64 (r.o.getD i 0)
  if r.dead || tri.any (fun b => !isFinite f64 b) then none
  let kz := axes.foldl (fun k i => if (d k).abs.lt (d i).abs then i else k) 0
  let kx0 := (kz + 1) % 3
  let ky0 := (kx0 + 1) % 3
  let (kx, ky) := if (d kz).isNeg then (ky0, kx0) else (kx0, ky0)
  let sx ← rne64 ((d kx).div (d kz))
  let sy ← rne64 ((d ky).div (d kz))
  let sz ← rne64 (Exact.div ⟨1, 1⟩ (d kz))
  let vert (v : Nat) : Option Shear := do
    let q (i : Nat) : Option Exact := rne64 ((exactOf f64 (tri.getD (3 * v + i) 0)).sub (o i))
    let qx ← q kx
    let qy ← q ky
    let qz ← q kz
    let x ← rne64 (qx.sub (sx.mul qz))
    let y ← rne64 (qy.sub (sy.mul qz))
    let z ← rne64 (sz.mul qz)
    pure ⟨x, y, z⟩
  let a ← vert 0
  let b ← vert 1
  let c ← vert 2
  let eab := edgeFn a b
  let ebc := edgeFn b c
  let eca := edgeFn c a
  let det := (eab.add ebc).add eca
  if det.isZero then none
  let s := signE det
  if !(isIn eab a b s && isIn ebc b c s && isIn eca c a s) then none
  let t := to64 1 ((((ebc.mul a.z).add (eca.mul b.z)).add (eab.mul c.z)).div det)
  if !isFinite f64 t || lt64 t r.tmin || lt64 tcur t then none
  pure (t, (roundTo f32 1 (finOr false (eca.div det))).1, (roundTo f32 1 (finOr false (eab.div det))).1)

/-! ### Coverage (R210, R211) -/

/-- A vertex in units of 2^−8 pixel, with its z as f32 bits. -/
structure ScreenVert where
  x : Int
  y : Int
  z : Nat
  deriving DecidableEq, Repr

/-- E(s) for edge p→q. -/
def edgeAt (p q : ScreenVert) (x y : Int) : Int := (q.x - p.x) * (y - p.y) - (q.y - p.y) * (x - p.x)
def topOrLeft (p q : ScreenVert) : Bool := (q.y = p.y && p.x < q.x) || q.y < p.y
def area2 (a b c : ScreenVert) : Int := (b.x - a.x) * (c.y - a.y) - (c.x - a.x) * (b.y - a.y)
/-- The vertices with v1 and v2 swapped where A < 0; none where A = 0. -/
def oriented (a b c : ScreenVert) : Option (ScreenVert × ScreenVert × ScreenVert) :=
  if area2 a b c = 0 then none else if area2 a b c < 0 then some (a, c, b) else some (a, b, c)
/-- A pixel's fragment: z, b1 and b2 as f32 bits, if it is covered. -/
def fragmentAt (v : ScreenVert × ScreenVert × ScreenVert) (px py : Int) : Option (Nat × Nat × Nat) :=
  let x := 256 * px + 128
  let y := 256 * py + 128
  let (a, b, c) := v
  let inside (p q : ScreenVert) : Bool := 0 < edgeAt p q x y || (edgeAt p q x y = 0 && topOrLeft p q)
  if !(inside a b && inside b c && inside c a) then none
  else
    let ar : Exact := Exact.ofInt (area2 a b c)
    let w (p q : ScreenVert) : FVal := finOr false ((Exact.ofInt (edgeAt p q x y)).div ar)
    let r (v : FVal) : Nat := (roundTo f32 1 v).1
    let z := fpDot 1 [(w b c, fpDecode f32 a.z), (w c a, fpDecode f32 b.z), (w a b, fpDecode f32 c.z)] (.zero false)
    some (r z.1, r (w c a), r (w a b))

end Sys2Proof.Machine
end

