-- ==== Sys2Proof/Machine/Rays.lean ====
section
/-! DEFINITION. Rays.lean: the ray and beam engine and the coverage pipeline (08_beams_and_rays): queries, split records, spawn
groups, logs and replay, triangle streams. A query moves one item of its work at a time (QUERY_TRAVERSAL). -/

namespace Sys2Proof.Machine

/-! ### Small parts -/

def le (bs : List Byte) (off n : Nat) : Nat := bytesNat ((bs.drop off).take n)
/-- Bytes off to off + n − 1 are zero. -/
def zeros (bs : List Byte) (off n : Nat) : Bool := ((bs.drop off).take n).all (· = 0)
/-- n consecutive f64 fields. -/
def f64s (bs : List Byte) (off n : Nat) : List Nat := (List.range n).map fun i => le bs (off + 8 * i) 8
/-- n consecutive f32 fields, widened. -/
def f32s (bs : List Byte) (off n : Nat) : List Nat := (List.range n).map fun i => widen (le bs (off + 4 * i) 4)
def State.qry (s : State) (k : Nat) : Option Query := spFind s.queries k
def State.setQry (s : State) (k : Nat) (q : Query) : State := { s with queries := spPut s.queries k q }
/-- Translation for a query's accesses. -/
def qxl (s : State) (q : Query) (n : Need) (va : Nat) : Xlat :=
  translateAt s q.core q.ctx va n
def Sample.ray (x : Sample) : FineRay := { o := x.o, d := x.d, tmin := x.tmin, tmax := x.tmax, dead := x.dead }
def mkSample (r : FineRay) : Sample := { o := r.o, d := r.d, tmin := r.tmin, tmax := r.tmax, tcur := r.tmax, dead := r.dead }

/-! ### Records (R193, R194) -/

def rayBytes (coarse : Bool) : Nat := if coarse then 32 else 64
def beamBytes (coarse : Bool) : Nat := if coarse then 64 else 128
/-- A ray record: its ray and user field. -/
def rayOf (coarse : Bool) (bs : List Byte) : FineRay × Nat :=
  if coarse then (fineRay (f32s bs 0 3) (f32s bs 12 3) (widen (le bs 24 4)) (widen (le bs 28 4)), 0)
  else (fineRay (f64s bs 0 3) (f64s bs 24 3) (widen (le bs 56 4)) (le bs 48 8), le bs 60 4)
/-- A beam record is legal (R194). -/
def beamOk (coarse : Bool) (bs : List Byte) : Bool :=
  let h := le bs 0 4
  natBits h 1 0 ≤ 1 && natBits h 3 2 = 0 && natBits h 31 12 = 0
  && (if coarse then natBits h 1 0 = 1 || zeros bs 60 4 else natBits h 1 0 = 0 || zeros bs 116 4)
def beamOf (coarse : Bool) (bs : List Byte) : BeamRec :=
  let h := le bs 0 4
  let cone := natBits h 1 0 = 1
  let z := [0, 0, 0]
  let base : BeamRec := {
    cone := cone, w := natBits h 7 4 + 1, h := natBits h 11 8 + 1, o := [], du := z, dv := z, d0 := [], eu := [], ev := [], tan := 0,
    tmin := 0, tmax := 0, user := if coarse then 0 else le bs 4 4 }
  if coarse then
    { base with o := f32s bs 8 3, d0 := f32s bs 20 3, eu := f32s bs 32 3, ev := f32s bs 44 3, tmin := widen (le bs 4 4),
                tmax := widen (le bs 56 4), tan := if cone then widen (le bs 60 4) else 0 }
  else if cone then
    { base with o := f64s bs 8 3, d0 := f64s bs 32 3, eu := f64s bs 56 3, ev := f64s bs 80 3, tan := le bs 104 8,
                tmin := widen (le bs 112 4), tmax := le bs 120 8 }
  else
    { base with o := f64s bs 8 3, du := f64s bs 32 3, dv := f64s bs 56 3, d0 := f32s bs 80 3, eu := f32s bs 92 3,
                ev := f32s bs 104 3, tmin := widen (le bs 116 4), tmax := le bs 120 8 }
def beamSamples (r : BeamRec) : List Sample :=
  (List.range (r.w * r.h)).map fun i => mkSample (beamSample r (i % r.w) (i / r.w))

/-! ### Finishing split records (R207) -/

/-- Advance a spawn ring's tail over the finished records at its retired end that a spawn group has taken, and forget those
(R207, R354): the tail never passes the head. -/
def retireSplits (s : State) (ring : Nat) : Nat → State
  | 0 => s
  | k + 1 =>
    let t := homeNat s (ring + 40) 8
    match s.splits.find? fun e => e.2.ring = ring && e.2.granule = t with
    | some e =>
      if e.2.finished && e.2.taken then
        retireSplits { homeWriteNat s (ring + 40) 8 (t + 2) with splits := spDel s.splits e.1 } ring k
      else s
    | none => s
/-- A record is finished: a release at die scope by the finishing group, and its query counts one less (R207). -/
def finishSplit (s : State) (g k : Nat) : State :=
  match spFind s.splits k with
  | none => s
  | some x =>
    if x.finished then s
    else
      let s := doRelease s g 3
      let s := { s with splits := spPut s.splits k { x with finished := true } }
      let s := match s.qry x.query with
        | some q => s.setQry x.query { q with open_ := q.open_ - 1 }
        | none => s
      retireSplits s x.ring (s.splits.length + 1)
/-- The record that a thread of a spawn group received (R205). -/
def Split.ownedBy (x : Split) (uid : Nat) (ts : List Nat) : Bool :=
  match x.owner with
  | some o => o.1 = uid && ts.contains o.2
  | none => false
/-- These threads hold a record that is not finished: their EXIT finishes it, a release (R207). -/
def finishesAny (s : State) (g : Nat) (ts : List Nat) : Bool :=
  s.splits.any fun e => !e.2.finished && e.2.ownedBy (s.grp g).uid ts
/-- The records that a spawn group's threads received (R205, R207). -/
def finishOf (s : State) (g : Nat) (ts : List Nat) : State :=
  let uid := (s.grp g).uid
  ((s.splits.filter fun e => e.2.ownedBy uid ts).map (·.1)).foldl (fun s k => finishSplit s g k) s

/-! ### Spawn groups (R205, R206) -/

/-- Records of a ring that no spawn group has taken, in ring order. -/
def waitingSplits (s : State) (ring : Nat) : List (Nat × Split) := s.splits.filter fun e => e.2.ring = ring && !e.2.taken
/-- A record's query serves this binding. -/
def Split.serves (s : State) (x : Split) (block bind : Nat) : Bool :=
  match s.qry x.query with | some q => q.block = block && q.bind = bind | none => false
/-- The ring in which records of a binding wait. -/
def bindRing (s : State) (block bind : Nat) : Option Nat :=
  (s.splits.find? fun e => !e.2.taken && e.2.serves s block bind).map fun e => e.2.ring
/-- The first 64 waiting records of a ring, as far as they are of the first one's query binding and configuration (log 84). -/
def nextRecs (s : State) (ring : Nat) (q : Query) : List (Nat × Split) :=
  ((waitingSplits s ring).take 64).takeWhile fun e => match s.qry e.2.query with
    | some r => r.block = q.block && r.bind = q.bind && r.spawn = q.spawn
    | none => false
/-- A spawn group forms from a ring's next records; the ring's head passes them (R205). -/
def formRing (s : State) (ring : Nat) : State :=
  match ((waitingSplits s ring).head?).bind fun e => s.qry e.2.query with
  | none => s
  | some q =>
    match q.spawn with
    | none => s
    | some c =>
      let rs := nextRecs s ring q
      let l := s.blockLaunch q.block
      let sg : SpawnGroup := {
        die := q.die, block := q.block, bind := q.bind, ctx := q.ctx, region := l.region, prio := q.prio, cfg := c,
        code := l.lr.code, launch := (s.blk q.block).launch, recs := rs.map (·.1), vas := rs.map fun e => e.2.va }
      let s := homeWriteNat s (ring + 32) 8 (homeNat s (ring + 32) 8 + 2 * rs.length)
      let s := { s with
        spawns := spPut s.spawns (spFresh s.spawns) sg
        splits := s.splits.map fun e => if sg.recs.contains e.1 then (e.1, { e.2 with taken := true }) else e }
      retireSplits s ring (s.splits.length + 1)
/-- A spawn group of a binding's ring forms. -/
def formGroup (s : State) (block bind : Nat) : State :=
  match bindRing s block bind with
  | some r => formRing s r
  | none => s

/-! ### The log (R208) -/

/-- Write n-byte fields of a query's log segment; a fault ends its writes and is kept (R219). -/
def logWrite (s : State) (q : Query) (off : Nat) (bs : List Byte) : State × Query :=
  match q.log with
  | none => (s, q)
  | some (a, _, _, _) =>
    match writeRange s (qxl s q needRW) (a + off) bs with
    | .ok s => (s, q)
    | .error e => (s, { q with log := none, flag2 := true, wfault := some { cause := e.1, addr := e.2 } })
/-- Append entries that must stand together; past cap they are dropped and logging stops (R208). -/
def logAppend (s : State) (q : Query) (es : List (List Byte)) : State × Query :=
  match q.log with
  | none => (s, q)
  | some (a, cap, cnt, full) =>
    if full then (s, q)
    else if cap < cnt + es.length then (s, { q with log := some (a, cap, cnt, true) })
    else
      let r := logWrite s q (64 + 16 * cnt) es.flatten
      (r.1, { r.2 with log := r.2.log.map fun _ => (a, cap, cnt + es.length, false) })
def entryHead (kind sample inst : Nat) : List Byte := natBytes 4 (kind + sample % 256 * 16 + inst % 2 ^ 20 * 2 ^ 12)

/-! ### Hits (R203) -/

/-- One of two hits with the same key stands for both, whichever came first (R203): a triangle's before a custom one's, then the
one of the smaller b1 or attr, b2 and bits of t (log 84). -/
def tieBefore (a b : Nat × Nat × Nat × Nat × Nat × Bool) : Bool :=
  let key (h : Nat × Nat × Nat × Nat × Nat × Bool) : Nat :=
    ((if h.2.2.2.2.2 then 1 else 0) * 2 ^ 32 + h.2.2.2.1) * 2 ^ 96 + h.2.2.2.2.1 * 2 ^ 64 + h.1
  key a < key b
/-- The smaller key (t, prim, inst) of two hits. -/
def hitBefore (a b : Nat × Nat × Nat × Nat × Nat × Bool) : Bool :=
  lt64 a.1 b.1 || (!lt64 b.1 a.1
    && (a.2.1 < b.2.1 || (a.2.1 = b.2.1 && (a.2.2.1 < b.2.2.1 || (a.2.2.1 = b.2.2.1 && tieBefore a b)))))
/-- A hit competes for a sample's closest; with .occ a triangle hit stands above every custom hit (R215). -/
def Sample.take (x : Sample) (occ : Bool) (h : Nat × Nat × Nat × Nat × Nat × Bool) : Sample :=
  let x := { x with count := min 0xFFFFFFFF (x.count + 1) }
  match x.hit with
  | none => { x with hit := some h }
  | some o =>
    let custom (e : Nat × Nat × Nat × Nat × Nat × Bool) : Bool := e.2.2.2.2.2
    if occ && custom o != custom h then (if custom h then x else { x with hit := some h })
    else if hitBefore h o then { x with hit := some h } else x
def setSample (q : Query) (i : Nat) (f : Sample → Sample) : Query :=
  { q with samples := q.samples.zipIdx.map fun e => if e.2 = i then f e.1 else e.1 }
def noInst : Nat := 0xFFFFF

/-! ### Traversal (R197 to R204) -/

/-- How an item of work ends: done, with what follows it; held (R206); not yet (an earlier query of its binding goes on); or a
fault of the query (R219). -/
inductive Went where
  | done (s : State) (q : Query) (next : List Work)
  | held
  | wait
  | fault (cause addr : Nat)

/-- A malformed structure is the shape trap's cause at its address. -/
def badStruct : Nat := 0x0B
/-- Bytes of a structure that the engine reads: those it fetched before, else as they stand (R164). -/
def readStruct (s : State) (q : Query) (va n : Nat) : Except Fail (List Byte) :=
  match q.look with
  | some (a, bs) => if a = va && bs.length = n then .ok bs else readNear s q.die (qxl s q needR) va n
  | none => readNear s q.die (qxl s q needR) va n
def nodeBytes : Nat := 128
/-- Child c's box (R197). -/
def childBox (bs : List Byte) (c : Nat) : List Nat :=
  let b (mode off : Nat) (i : Nat) : Nat :=
    boxBound mode (le bs (4 * i) 4) (le bs (16 + 6 * c + off + i) 1) (signedNat 8 (le bs (12 + i) 1))
  axes.map (b 4 0) ++ axes.map (b 3 3)
/-- A child's box is empty as encoded: qlo > qhi on some axis (R197). -/
def childEmpty (bs : List Byte) (c : Nat) : Bool :=
  axes.any fun i => le bs (16 + 6 * c + i) 1 > le bs (16 + 6 * c + 3 + i) 1
def childWord (bs : List Byte) (c : Nat) : Nat := le bs (64 + 4 * c) 4
/-- A node keeps R197 and R198. -/
def nodeOk (v : Bvh) (bs : List Byte) : Bool :=
  axes.all (fun i => isFinite f32 (le bs (4 * i) 4)) && zeros bs 15 1
  && (List.range 8).all fun c =>
    let w := childWord bs c
    let x := natBits w 29 0
    let inst := le bs (96 + 4 * c) 4
    (inst = 0xFFFFFFFF || inst < 2 ^ 20)
    && (match natBits w 31 30 with
        | 0 => x = 0
        | 1 => x < v.nnode
        | 2 => natBits x 29 4 + natBits x 3 0 < v.ntri
        | _ => x < v.ncus)

/-- The samples of a sub-beam that are not dead, with their limits. -/
def setOf (q : Query) (a0 a1 b0 b1 : Nat) : List (Nat × Sample) :=
  (q.samples.zipIdx.map fun e => (e.2, e.1)).filter fun e =>
    !e.2.dead && a0 ≤ e.1 % q.w && e.1 % q.w ≤ a1 && b0 ≤ e.1 / q.w && e.1 / q.w ≤ b1
def classOf (q : Query) (box : List Nat) (a0 a1 b0 b1 : Nat) : Class × Nat :=
  classify box ((setOf q a0 a1 b0 b1).map fun e => (e.2.ray, e.2.tcur))
def single (a0 a1 b0 b1 : Nat) : Bool := a0 = a1 && b0 = b1
/-- The quadrants of a sub-beam (R200). -/
def quadrants (a0 a1 b0 b1 : Nat) : List (Nat × Nat × Nat × Nat) :=
  let am := a0 + (a1 - a0 + 2) / 2
  let bm := b0 + (b1 - b0 + 2) / 2
  let cols := (a0, am - 1) :: (if am ≤ a1 then [(am, a1)] else [])
  let rows := (b0, bm - 1) :: (if bm ≤ b1 then [(bm, b1)] else [])
  rows.flatMap fun r => cols.map fun c => (c.1, c.2, r.1, r.2)
/-- What a taken child becomes (R200). -/
def takeChild (q : Query) (cls : Class) (cw depth inst : Nat) (box : List Nat) (a0 a1 b0 b1 : Nat) : List Work :=
  if natBits cw 31 30 = 1 then
    (if cls = .mixed && !single a0 a1 b0 b1 then
      (quadrants a0 a1 b0 b1).map fun r => .child cw depth inst box r.1 r.2.1 r.2.2.1 r.2.2.2
     else [.node (natBits cw 29 0) depth inst a0 a1 b0 b1])
  else [.leaf cw inst box ((setOf q a0 a1 b0 b1).map (·.1))]
/-- Insert by ascending key, after the entries of an equal one. -/
def insertKey (e : Nat × List Work) : List (Nat × List Work) → List (Nat × List Work)
  | [] => [e]
  | x :: r => if lt64 e.1 x.1 then e :: x :: r else x :: insertKey e r

/-- Visit a node (R200). -/
def visitNode (s : State) (q : Query) (v : Bvh) (n depth inst a0 a1 b0 b1 : Nat) : Went :=
  let va := v.nodes + 128 * n
  if depth > 64 || q.visits ≥ 2 ^ 24 then .fault badStruct va
  else match readStruct s q va 128 with
    | .error e => .fault e.1 e.2
    | .ok bs =>
      if !nodeOk v bs then .fault badStruct va
      else
        let q := { q with visits := q.visits + 1 }
        let cs := (List.range 8).filterMap fun c =>
          let w := childWord bs c
          if natBits w 31 30 = 0 then none
          else some (c, w, childBox bs c, if childEmpty bs c then (Class.miss, 0) else classOf q (childBox bs c) a0 a1 b0 b1)
        let code (c : Nat) : Nat := match cs.find? fun e => e.1 = c with | some e => e.2.2.2.1.code | none => 3
        let word := sumNat ((List.range 8).map fun c => code c * 4 ^ c)
        let r := logAppend s q
          [entryHead 1 0 inst ++ natBytes 4 n ++ natBytes 1 a0 ++ natBytes 1 a1 ++ natBytes 1 b0 ++ natBytes 1 b1 ++ natBytes 2 word ++ natBytes 2 0]
        let keyed := cs.foldl (fun acc e =>
          if e.2.2.2.1 = .miss then acc
          else
            let own := le bs (96 + 4 * e.1) 4
            insertKey (e.2.2.2.2, takeChild q e.2.2.2.1 e.2.1 (depth + 1) (if own = 0xFFFFFFFF then inst else own) e.2.2.1 a0 a1 b0 b1) acc)
          ([] : List (Nat × List Work))
        .done r.1 r.2 (keyed.flatMap (·.2))
/-- A quadrant reclassifies a child and proceeds from it. -/
def visitChild (s : State) (q : Query) (cw depth inst : Nat) (box : List Nat) (a0 a1 b0 b1 : Nat) : Went :=
  let c := classOf q box a0 a1 b0 b1
  if c.1 = .miss then .done s q [] else .done s q (takeChild q c.1 cw depth inst box a0 a1 b0 b1)
/-- The samples whose own classification of a leaf box is not MISS, in ascending index. -/
def visitLeaf (s : State) (q : Query) (cw inst : Nat) (box : List Nat) (is : List Nat) : Went :=
  let hit := is.filter fun i => match q.samples[i]? with
    | some x => !x.dead && (classify box [(x.ray, x.tcur)]).1 ≠ .miss
    | none => false
  let x := natBits cw 29 0
  .done s q (hit.map fun i =>
    if natBits cw 31 30 = 2 then Work.tri (natBits x 29 4) inst i (natBits x 29 4 + natBits x 3 0) else Work.call x inst i)

/-- A triangle record: its nine coordinates and primitive id (R198). -/
def readTri (s : State) (q : Query) (v : Bvh) (i : Nat) : Except Fail (List Nat × Nat) :=
  let va := v.tris + 96 * i
  match readStruct s q va 96 with
  | .error e => .error e
  | .ok bs => if zeros bs 76 20 then .ok (f64s bs 0 9, le bs 72 4) else .error (badStruct, va)
/-- Test triangle i for a sample; the rest of the leaf's triangles follow (R201). -/
def visitTri (s : State) (q : Query) (v : Bvh) (i inst sample stop : Nat) : Went :=
  match readTri s q v i, q.samples[sample]? with
  | .error e, _ => .fault e.1 e.2
  | _, none => .done s q []
  | .ok (tri, prim), some x =>
    let rest : List Work := if i < stop then [.tri (i + 1) inst sample stop] else []
    match triTest x.ray tri x.tcur with
    | none => .done s q rest
    | some (t, b1, b2) =>
      let q := setSample q sample fun x => { (x.take q.occ (t, prim, inst, b1, b2, false)) with tcur := t }
      let r := logAppend s q [entryHead 2 sample inst ++ natBytes 4 i ++ natBytes 8 t]
      if q.occ then .done r.1 { r.2 with work := [] } [] else .done r.1 r.2 rest

/-! ### Calls and fragments (R204 to R206, R211) -/

/-- An earlier query of the binding is still in traversal (R205). -/
def earlierTraversing (s : State) (k : Nat) (q : Query) : Bool :=
  s.queries.any fun e => e.1 < k && e.2.block = q.block && e.2.bind = q.bind && e.2.state ≠ .ended && e.2.state ≠ .complete
/-- Records that a query holds in the engine (R205). -/
def keptMax : Nat := 64
/-- Outstanding records of a core's queries (R206). -/
def outstandingOn (s : State) (ck : Nat) : Nat :=
  (s.splits.filter fun e => !e.2.finished && (match s.qry e.2.query with | some q => q.core = ck | none => false)).length
/-- Write the first record that a query holds into its spawn ring, once every earlier query of the binding has finished (R205,
R206); a spawn group forms when 64 wait. -/
def writeSplit (s : State) (k : Nat) (q : Query) (c : SpawnCfg) (x : Split) (bs : List Byte) (rest : List (Split × List Byte)) : Went :=
  if 4096 ≤ outstandingOn s q.core then .held
  else match qxl s q needRW c.ring with
    | .bad cause => .fault cause c.ring
    | .ok pa _ =>
      match ringBad s pa with
      | some cause => .fault cause c.ring
      | none =>
        let h := ringHdr s pa
        if h.size < h.claimed + 2 - h.tail then .held
        else
          let at_ (i : Nat) : Nat := h.base + 64 * ((h.claimed + i) % h.size)
          match (do
            let s ← writeRange s (qxl s q needW) (at_ 0) (bs.take 64)
            writeRange s (qxl s q needW) (at_ 1) (bs.drop 64)) with
          | .error e => .fault e.1 e.2
          | .ok s =>
            let s := homeWriteNat s (pa + 16) 8 (h.claimed + 2)
            let s := homeWriteNat s (pa + 24) 8 (h.committed + 2)
            let q := { q with open_ := q.open_ + 1, kept := rest }
            let x := { x with ctx := q.ctx, va := at_ 0, ring := pa, granule := h.claimed, query := k, at_ := s.clock }
            let s := { s.setQry k q with splits := spPut s.splits (spFresh s.splits) x }
            let s := if 64 ≤ (waitingSplits s pa).length then formRing s pa else s
            .done (serveRing s pa) q []
/-- A query makes a split record; it waits with 64 in the engine (R205). -/
def emitSplit (s : State) (q : Query) (bs : List Byte) (x : Split) : Went :=
  if q.spawn.isNone then .fault badStruct q.rec_
  else if keptMax ≤ q.kept.length then .wait
  else .done s { q with kept := q.kept ++ [(x, bs)] } []
def pad (n : Nat) (bs : List Byte) : List Byte := bs ++ List.replicate (n - bs.length) 0
/-- A call's split record. -/
def callBytes (kind : Nat) (q : Query) (x : Sample) (tlo thi sample prim inst cidx : Nat) : List Byte :=
  pad 128 ((x.o ++ x.d).flatMap (natBytes 8) ++ natBytes 8 tlo ++ natBytes 8 thi ++ natBytes 2 kind ++ natBytes 2 sample
    ++ natBytes 4 q.serial ++ natBytes 4 prim ++ natBytes 4 inst ++ natBytes 4 cidx ++ natBytes 4 q.user)
/-- A custom table entry's primitive id and box (R198). -/
def readCustom (s : State) (q : Query) (v : Bvh) (c : Nat) : Except Fail (Nat × List Nat) :=
  let va := v.custom + 64 * c
  match readStruct s q va 64 with
  | .error e => .error e
  | .ok bs => if zeros bs 56 8 then .ok (le bs 48 4, f64s bs 0 6) else .error (badStruct, va)
def emitCall (s : State) (k : Nat) (q : Query) (v : Bvh) (kind c inst sample tlo thi : Nat) (log : Bool) : Went :=
  match readCustom s q v c, q.samples[sample]? with
  | .error e, _ => .fault e.1 e.2
  | _, none => .done s q []
  | .ok (prim, box), some x =>
    let sp : Split := {
      ctx := 0, va := 0, ring := 0, granule := 0, query := k, sample := sample, frag := false, prim := prim, inst := inst, cidx := c,
      tlo := tlo, thi := thi, o := x.o, d := x.d, box := box }
    match emitSplit s q (callBytes kind q x tlo thi sample prim inst c) sp with
    | .done s q w =>
      if log then
        let r := logAppend s q [entryHead 3 sample inst ++ natBytes 4 c ++ natBytes 4 prim ++ natBytes 4 0, natBytes 8 tlo ++ natBytes 8 thi]
        .done r.1 r.2 w
      else .done s q w
    | o => o

/-- Entry i of a triangle stream, whose last 24 bytes are zero (R198, R210). -/
def readStream (s : State) (q : Query) (i : Nat) : Except Fail (List Byte) :=
  let va := q.stream + 64 + 64 * i
  match readStruct s q va 64 with
  | .error e => .error e
  | .ok bs => if zeros bs 40 24 then .ok bs else .error (badStruct, va)
/-- Its vertices and primitive id. -/
def streamTri (bs : List Byte) : (ScreenVert × ScreenVert × ScreenVert) × Nat :=
  let v (i : Nat) : ScreenVert :=
    { x := signedNat 32 (le bs (8 * i) 4), y := signedNat 32 (le bs (8 * i + 4) 4), z := le bs (24 + 4 * i) 4 }
  ((v 0, v 1, v 2), le bs 36 4)
/-- Cover the tile with triangle i, of `h` triangles: its covered pixels in row order (R211). -/
def visitCover (s : State) (q : Query) (i : Nat) : Went :=
  match readStream s q i with
  | .error e => .fault e.1 e.2
  | .ok bs =>
    let (v, _) := streamTri bs
    let next : List Work := if i + 1 < q.h then [.cover (i + 1)] else []
    match oriented v.1 v.2.1 v.2.2 with
    | none => .done s q next
    | some t =>
      let pix := (List.range 256).filter fun p =>
        (fragmentAt t (16 * q.tx + p % 16 : Nat) (16 * q.ty + p / 16 : Nat)).isSome
      .done s q (pix.map (Work.frag i) ++ next)
/-- One fragment record (R211, Table 8-6). -/
def visitFrag (s : State) (k : Nat) (q : Query) (i p : Nat) : Went :=
  match readStream s q i with
  | .error e => .fault e.1 e.2
  | .ok bs =>
    let (v, prim) := streamTri bs
    let px := 16 * q.tx + p % 16
    let py := 16 * q.ty + p / 16
    match (oriented v.1 v.2.1 v.2.2).bind fun t => fragmentAt t (px : Nat) (py : Nat) with
    | none => .done s q []
    | some (z, b1, b2) =>
      let head := pad 64 ([px, py, z, b1, b2, i, prim].flatMap (natBytes 4))
      let rec_ := pad 128 (head ++ natBytes 2 2 ++ natBytes 2 p ++ natBytes 4 q.serial)
      let sp : Split := { ctx := 0, va := 0, ring := 0, granule := 0, query := k, sample := p, frag := true }
      emitSplit s q rec_ sp

/-- Entry i of a log that RQR replays (R209): the next entry follows. -/
def visitReplay (s : State) (k : Nat) (q : Query) (v : Bvh) (i : Nat) : Went :=
  match q.log with
  | none => .done s q []
  | some (a, _, cnt, _) =>
    if cnt ≤ i then .done s q []
    else match readNear s q.die (qxl s q needR) (a + 64 + 16 * i) 16 with
      | .error e => .fault e.1 e.2
      | .ok bs =>
        let w := le bs 0 4
        let sample := natBits w 11 4
        let inst := natBits w 31 12
        match natBits w 3 0 with
        | 2 =>
          (match readTri s q v (le bs 4 4), q.samples[sample]? with
           | .error e, _ => .fault e.1 e.2
           | _, none => .done s q [.replay (i + 1)]
           | .ok (tri, prim), some x =>
             match triTest x.ray tri inf64 with
             | none => .done s q [.replay (i + 1)]
             | some (t, b1, b2) =>
               .done s (setSample q sample fun x => x.take false (t, prim, inst, b1, b2, false)) [.replay (i + 1)])
        | 3 =>
          (match readNear s q.die (qxl s q needR) (a + 80 + 16 * i) 16 with
           | .error e => .fault e.1 e.2
           | .ok pair =>
             match emitCall s k q v 1 (le bs 4 4) inst sample (le pair 0 8) (le pair 8 8) false with
             | .done s q _ => .done s q [.replay (i + 2)]
             | o => o)
        | _ => .done s q [.replay (i + 1)]

/-- One item of a query's work. -/
def runWork (s : State) (k : Nat) (q : Query) (w : Work) : Went :=
  let v := q.bvh.getD ⟨0, 0, 0, 0, 0, 0, 0⟩
  match w with
  | .node n depth inst a0 a1 b0 b1 => visitNode s q v n depth inst a0 a1 b0 b1
  | .child cw depth inst box a0 a1 b0 b1 => visitChild s q cw depth inst box a0 a1 b0 b1
  | .leaf cw inst box is => visitLeaf s q cw inst box is
  | .tri i inst sample stop => visitTri s q v i inst sample stop
  | .call c inst sample =>
    let x := (q.samples[sample]?).map fun x => (x.tmin, x.tcur)
    emitCall s k q v 0 c inst sample ((x.map (·.1)).getD 0) ((x.map (·.2)).getD 0) true
  | .replay i => visitReplay s k q v i
  | .cover i => visitCover s q i
  | .frag i p => visitFrag s k q i p
  | .finish => .done s q []
/-- The structure that an item of work reads first: its address and length. -/
def workRange (s : State) (q : Query) (w : Work) : Option (Nat × Nat) :=
  let v := q.bvh.getD ⟨0, 0, 0, 0, 0, 0, 0⟩
  let tri (i : Nat) : Nat × Nat := (v.tris + 96 * i, 96)
  let entry (c : Nat) : Nat × Nat := (v.custom + 64 * c, 64)
  let stream (i : Nat) : Nat × Nat := (q.stream + 64 + 64 * i, 64)
  match w with
  | .node n _ _ _ _ _ _ => some (v.nodes + 128 * n, 128)
  | .tri i _ _ _ => some (tri i)
  | .call c _ _ => some (entry c)
  | .cover i => some (stream i)
  | .frag i _ => some (stream i)
  | .replay i =>
    (match q.log with
     | none => none
     | some (a, _, _, _) =>
       match readNear s q.die (qxl s q needR) (a + 64 + 16 * i) 16 with
       | .error _ => none
       | .ok bs => match natBits (le bs 0 4) 3 0 with
         | 2 => some (tri (le bs 4 4))
         | 3 => some (entry (le bs 4 4))
         | _ => none)
  | _ => none
/-- The reads of an item of work wait for the invalidations of earlier writes to their lines (R256). -/
def settleWork (s : State) (q : Query) (w : Work) : State :=
  let s := match w, q.log with
    | .replay i, some (a, _, _, _) => settleRange s (qxl s q needR) (a + 64 + 16 * i) 32
    | _, _ => s
  match workRange s q w with
  | some r => settleRange s (qxl s q needR) r.1 r.2
  | none => s
/-- The engine fetches what a query's next item of work reads; a store that is not ordered before may leave it old in some of its
aligned 16 bytes and new in others (R164, R221). -/
def lookAhead (s : State) (k : Nat) : State :=
  match s.qry k with
  | none => s
  | some q =>
    match q.work with
    | [] => s
    | w :: _ =>
      let s := settleWork s q w
      match workRange s q w with
      | none => s
      | some (va, n) =>
        match q.state, readNear s q.die (qxl s q needR) va n with
        | .running, .ok bs =>
          (match q.look with
           | some (a, old) =>
             if a = va then
               let r := s.fresh
               r.2.setQry k { q with look := some (va, mixBytes r.1 old bs) }
             else s.setQry k { q with look := some (va, bs) }
           | none => s.setQry k { q with look := some (va, bs) })
        | _, _ => s
/-- A query stops on a fault and keeps its work (R219). -/
def stopQuery (s : State) (k : Nat) (q : Query) (cause addr : Nat) : State :=
  s.setQry k { q with state := .stopped, fault := some { cause := cause, addr := addr }, told := false }
/-- The end of one step of a query: it has ended once no work and no record is left. -/
def afterStep (s : State) (k : Nat) (q : Query) : State :=
  s.setQry k { q with state := if q.work = [] && q.kept = [] then .ended else .running }
/-- One step of a query's traversal: a record that it holds goes into the ring if it may, else its next item of work is done. A
fault is met only once the records made before it are in the ring. -/
def stepQuery (s : State) (k : Nat) (q : Query) : State :=
  match q.kept, q.spawn, earlierTraversing s k q with
  | (x, bs) :: rest, some c, false =>
    (match writeSplit s k q c x bs rest with
     | .done s q _ => afterStep s k q
     | .held => s.setQry k { q with state := .held }
     | .wait => s
     | .fault cause addr => stopQuery s k q cause addr)
  | _, _, _ =>
    match q.work with
    | [] => afterStep s k q
    | w :: rest =>
      match runWork (settleWork s q w) k { q with work := rest } w with
      | .done s q next => afterStep s k { q with work := next ++ q.work, look := none }
      | .held => s.setQry k { q with state := .held }
      | .wait => s
      | .fault cause addr => if q.kept = [] then stopQuery s k q cause addr else s

/-! ### Completion (R207, R208, R215, R218) -/

/-- The hit record of a sample (R215). -/
def hitRecord (i : Nat) (x : Sample) (failed flag2 : Bool) : List Byte :=
  let fl := if flag2 then 4 else 0
  match (if failed then none else x.hit) with
  | none =>
    natBytes 8 inf64 ++ natBytes 4 0xFFFFFFFF ++ natBytes 4 0xFFFFFFFF ++ natBytes 4 0 ++ natBytes 4 0 ++ natBytes 2 i ++ natBytes 2 fl
    ++ natBytes 4 (if failed then 0 else x.count)
  | some (t, prim, inst, b1, b2, custom) =>
    natBytes 8 t ++ natBytes 4 prim ++ natBytes 4 inst ++ natBytes 4 b1 ++ natBytes 4 b2 ++ natBytes 2 i
    ++ natBytes 2 (1 + (if custom then 2 else 0) + fl) ++ natBytes 4 x.count
/-- The END entries, then cnt and flags (R208). -/
def logEnd (s : State) (q : Query) (failed : Bool) : State × Query :=
  if q.kind = .replay then (s, q)
  else
    let r := if failed then (s, q) else q.samples.zipIdx.foldl (fun acc e =>
      logAppend acc.1 acc.2 [match e.1.hit with
        | some h => entryHead 4 e.2 h.2.2.1 ++ natBytes 4 h.2.1 ++ natBytes 8 h.1
        | none => entryHead 4 e.2 noInst ++ natBytes 4 0xFFFFFFFF ++ natBytes 8 inf64]) (s, q)
    match r.2.log with
    | none => r
    | some (_, _, cnt, full) =>
      logWrite r.1 r.2 4 (natBytes 4 cnt ++ natBytes 4 ((if full then 1 else 0) + (if failed then 0 else 2)
        + (if q.kind = .beam then 4 else 0) + (if q.coarse then 8 else 0)))
/-- The hit array of a beam; the first write that fails is the last (R219). -/
def writeHits (s : State) (q : Query) (failed : Bool) : List (Sample × Nat) → State × Query
  | [] => (s, q)
  | e :: r =>
    match q.array with
    | none => (s, q)
    | some a =>
      match writeRange s (qxl s q needW) (a + 32 * e.2) (hitRecord e.2 e.1 failed q.flag2) with
      | .ok s => writeHits s q failed r
      | .error f => (s, { q with flag2 := true, wfault := some { cause := f.1, addr := f.2 } })
/-- The latch part of a query's result (R32): the entries that still wait for it; of a hit record its low 64 bits (log 20). -/
def latchResult (q : Query) (x : Group) (v : Nat) : Group :=
  if !(q.lx = x.lx && x.line.isSome) then x
  else (if q.kind = .cover then tids else [q.tid]).foldl (fun x t =>
    if latchValid x q.lat t then x else setLatch x q.lat t (v % 2 ^ 64)) x
/-- The value of a query's result: COVER's count of fragments accepted, a beam's count of samples hit, a ray's hit record. -/
def Query.value (q : Query) (failed : Bool) : Nat :=
  if q.kind = .cover then (if failed then 0 else q.fragsAccepted)
  else if q.beamForm then (if failed then 0 else (q.samples.filter fun e => e.hit.isSome).length)
  else bytesNat (hitRecord 0 (q.samples.headD (mkSample ⟨[], [], 0, 0, true⟩)) failed q.flag2)
/-- The issuing group's latch and registers take the result; reading it is an acquire at die scope (R32, R207). -/
def writeResult (s : State) (q : Query) (failed : Bool) : State :=
  if !s.sameGrp q.g q.uid then s
  else
    let s := invalidateClean s (placeCore q.g)
    let v := q.value failed
    s.updGrp q.g fun x =>
      let x := latchResult q x v
      if q.latchOnly then x
      else if q.kind = .cover then setReg x (BitVec.ofNat 10 q.dest) 2 0 v
      else if q.beamForm then setV x q.dest q.tid v
      else (List.range 8).foldl (fun x i => setV x (q.dest + i) q.tid (v / 2 ^ (32 * i) % 2 ^ 32)) x
/-- A query completes: log, hit array, registers, then it is done unless its group has a fault to read. -/
def completeQuery (s : State) (k : Nat) (q : Query) : State :=
  let failed := q.state = .stopped
  let q := { q with flag2 := q.flag2 || failed }
  let r := logEnd s q failed
  let r := if q.beamForm && q.kind ≠ .cover then writeHits r.1 r.2 failed r.2.samples.zipIdx else r
  let s := writeResult r.1 r.2 failed
  let q := { r.2 with state := .complete, work := [], kept := [] }
  let gone := !s.sameGrp q.g q.uid
  let s := if gone && q.toTell.isSome && !q.told then
      domFaultAt s q.core q.ctx (s.lch (s.blk q.block).launch).region
        { cause := 0x13, addr := (q.toTell.map fun f => f.addr).getD 0, rec_ := q.rec_, prog := q.visits,
          tok := q.serial, pc := some q.ipc, ipc := some q.ipc }
    else s
  let s := if q.toTell.isNone || q.told || gone then { s with queries := spDel s.queries k } else s.setQry k q
  settleBlock s q.block

/-! ### Events -/

/-- QUERY_TRAVERSAL (R200). -/
def execQueryTraversal (k : Nat) (s : State) : Host.Outcome State Fault Refusal :=
  finish (do
    match s.qry k with
    | some q => if q.state = .running then upd fun s => stepQuery s k q else idleM
    | none => idleM) s
/-- QUERY_HELD_RESUME (R206): a held query tries its record again. -/
def execQueryHeldResume (k : Nat) (s : State) : Host.Outcome State Fault Refusal :=
  finish (do
    match s.qry k with
    | some q => if q.state = .held then upd fun s => stepQuery s k { q with state := .running } else idleM
    | none => idleM) s
/-- A stopped query that nobody resumes: a bad structure, or its group has taken the trap and goes on, or is gone (R219). -/
def abandoned (s : State) (q : Query) : Bool :=
  q.state = .stopped && ((q.fault.map fun f => f.cause) = some badStruct || !s.sameGrp q.g q.uid || (q.told && !(s.grp q.g).halt))
/-- QUERY_COMPLETE (R207). -/
def execQueryComplete (k : Nat) (s : State) : Host.Outcome State Fault Refusal :=
  finish (do
    match s.qry k with
    | some q => if q.open_ = 0 && (q.state = .ended || abandoned s q) then upd fun s => completeQuery s k q else idleM
    | none => idleM) s
/-- When a record was last added to a ring, of those that wait there. -/
def addedAt (s : State) (ring : Nat) : Nat := (waitingSplits s ring).foldl (fun m e => max m e.2.at_) 0
/-- The waiting records of a binding's ring, the first of them the binding's, form a group now. -/
def spawnDue (s : State) (block bind : Nat) : Bool :=
  let busy := s.queries.any fun e => e.2.block = block && e.2.bind = bind && e.2.state ≠ .ended && e.2.state ≠ .complete
  match bindRing s block bind with
  | none => false
  | some r =>
    ((waitingSplits s r).head?.any fun e => e.2.serves s block bind)
    && (if (s.blockLaunch block).pavane then !busy else addedAt s r + 512 ≤ s.clock)
/-- SPAWN_GROUP_TIMEOUT (R205): 256 fabric cycles with no record added; in Pavane mode, no earlier query in traversal. -/
def execSpawnGroupTimeout (block bind : Nat) (s : State) : Host.Outcome State Fault Refusal :=
  finish (do
    onlyIf (spawnDue s block bind)
    upd fun s => formGroup s block bind) s

/-- Where a spawn group can be placed now: its binding's reserved slot if it is free, else a core of the die with room (R206). -/
def spawnCore (s : State) (x : SpawnGroup) : Option Nat :=
  if (reservedFor s x.cfg.core).any fun r => r.1 = x.block && r.2.1 = x.bind then some x.cfg.core else chooseCore s x.die x.launch x.cfg.req
/-- Place a spawn group as a block of one group (R205). -/
def placeSpawn (s : State) (k : Nat) (x : SpawnGroup) (ck : Nat) : State :=
  let b := max s.nextBlock (spFresh s.blocks)
  let blk : Block := {
    launch := x.launch, bid := 0, die := coreDie ck, core := coreIdx ck, place := freePlace s ck, spSize := x.cfg.sp, placedAt := s.clock,
    regs := x.cfg.regs, uregs := x.cfg.uregs, spawnOf := some { block := x.block, bind := x.bind, recs := x.recs, vas := x.vas, cfg := x.cfg, prio := x.prio },
    vcore := (s.blk x.block).vcore }
  let s := growWays { (s.setBlk b blk) with nextBlock := b + 1, spawns := spDel s.spawns k } ck
  let n := x.recs.length
  let uid := s.nextUid
  let g0 := freshGroup s b 0 x.cfg.regs x.cfg.uregs x.cfg.planes x.code x.cfg.entry x.cfg.param x.prio n
  let va (t : Nat) : Nat := x.vas.getD t 0
  let g0 := (List.range n).foldl (fun g t => setV (setV g 0 t (va t % 2 ^ 32)) 1 t (va t / 2 ^ 32)) g0
  let halted := (s.lch x.launch).halted
  let s := addGroup s ck { g0 with halt := halted, byhalt := halted }
  let owned (e : Nat × Split) : Nat × Split :=
    match x.recs.findIdx? (· = e.1) with
    | some t => (e.1, { e.2 with owner := some (uid, t) })
    | none => e
  fillCore { s with splits := s.splits.map owned } ck
/-- The spawn group of a die that formed first and still waits. -/
def firstFormed (s : State) (d : Nat) : Option (Nat × SpawnGroup) := s.spawns.find? fun e => e.2.die = d
/-- SPAWN_GROUP_PLACE (R206): a die's groups are placed in the order in which they formed. -/
def execSpawnGroupPlace (d : Nat) (s : State) : Host.Outcome State Fault Refusal :=
  finish (do
    match firstFormed s d with
    | none => idleM
    | some (k, x) =>
      match spawnCore s x with
      | none => idleM
      | some ck => upd fun s => placeSpawn s k x ck) s

/-! ### Issue (R212 to R215) -/

/-- An address to check: thread, address, alignment, length, access, and whether it is per thread. -/
structure Target where
  tid : Nat
  va : Nat
  al : Nat
  n : Nat
  nd : Need
  perThread : Bool

/-- The named structures that cannot be read, for one cause. -/
def targetFails (s : State) (c : Nat) (xs : List Target) : List Target :=
  xs.filter fun x => match readRange s (xlGrp s s.cur.g x.nd) x.va x.n with | .error e => e.1 = c | .ok _ => false
/-- The lowest address of the structures that fail, as a trap. -/
def targetTrap (s : State) (u : Bool) (cause : Nat) (l : List Target) : Trap :=
  { cause := cause, addr := l.foldl (fun m x => min m x.va) (2 ^ 64 - 1), mask := runnerMask s u (l.map (·.tid)) }
/-- Check 1 of R214 on every address named: alignment. -/
def alignTargets (u : Bool) (xs : List Target) : M Unit := do
  let s ← get
  let mis := xs.filter fun x => x.va % x.al ≠ 0
  let misV := mis.filter (·.perThread)
  need (misV.isEmpty) (targetTrap s u 0x08 misV)
  need (mis.isEmpty) (targetTrap s u 0x0B mis)
/-- Check 2 of R214: translation, and poison. -/
def readTargets (u : Bool) (xs : List Target) : M Unit := do
  let s ← get
  let fails (c : Nat) : List Target := targetFails s c xs
  need ((fails cProt).isEmpty) (targetTrap s u cProt (fails cProt))
  need ((fails cPoison).isEmpty) (targetTrap s u cPoison (fails cPoison))
  need ((fails cPage).isEmpty) (targetTrap s u cPage (fails cPage))
/-- Checks 1 and 2. -/
def checkTargets (u : Bool) (xs : List Target) : M Unit := do
  alignTargets u xs
  readTargets u xs
/-- The home slices answer the reads after the invalidations of earlier writes (R256). -/
def settleTargets (xs : List Target) (s : State) : State :=
  xs.foldl (fun s x => settleRange s (xlGrp s s.cur.g x.nd) x.va x.n) s
/-- The bytes of a structure that has been checked. -/
def structBytes (s : State) (nd : Need) (va n : Nat) : List Byte :=
  match readRange s (xlGrp s s.cur.g nd) va n with | .ok bs => bs | .error _ => List.replicate n 0
def shapeTrap (s : State) (u : Bool) (ts : List Nat) (va : Nat) : Trap := { cause := 0x0B, addr := va, mask := runnerMask s u ts }

def State.bindOf (s : State) (b i : Nat) : Binding := (spFind (s.blk b).binds i).getD {}
def setBind (s : State) (b i : Nat) (x : Binding) : State := s.updBlk b fun k => { k with binds := spPut k.binds i x }
/-- The binding serves a query: it has a descriptor, and a spawn configuration if there are custom primitives (R212). -/
def bindServes (x : Binding) : Bool :=
  match x.bvh with | some v => v.ncus = 0 || x.spawn.isSome | none => false
/-- The issuing group is a spawn group (R206). -/
def inSpawn (s : State) : Bool := (s.grpBlk s.cur.g).spawnOf.isSome
/-- A query log header as the program must leave it (R208). -/
def logFresh (bs : List Byte) : Bool := 1 ≤ le bs 0 4 && le bs 0 4 ≤ 2 ^ 24 && zeros bs 4 60
/-- Accept a query: the binding's next serial, and the log header's serial and rec. -/
def acceptQuery (s : State) (q : Query) : State :=
  let b := s.bindOf q.block q.bind
  let serial := (b.serial + 1) % 2 ^ 32
  let s := setBind s q.block q.bind { b with serial := serial }
  let k := spFresh s.queries
  let q := { q with serial := serial, bvh := b.bvh, spawn := b.spawn }
  let r := if q.kind = .replay then (s, q) else logWrite s q 12 (natBytes 4 serial ++ natBytes 8 q.rec_)
  (r.1.setQry k r.2).updGrp q.g fun x => (if q.kind = .cover then tids else [q.tid]).foldl (fun x t => openLatch x q.lat t) x
/-- A query of the issuing group before its serial and binding are known. -/
def newQuery (s : State) (kind : QueryKind) (tid bind rec_ : Nat) (o : FmtE) : Query :=
  { kind := kind, g := s.cur.g, uid := s.me.uid, tid := tid, block := s.me.block, die := coreDie (placeCore s.cur.g),
    core := placeCore s.cur.g, ctx := s.ctxOf s.cur.g, prio := s.me.prio, bind := bind, serial := 0, bvh := none, spawn := none, rec_ := rec_,
    coarse := false, occ := false, beamForm := false, user := 0, w := 1, h := 1, samples := [], work := [], dest := o.k.toNat,
    lx := s.me.lx, lat := o.h.l.toNat, latchOnly := o.h.s,
    ipc := (s.cur.off, planeOf s.me tid) }
def efBind (o : FmtE) : Nat := WF.ef o 52 50
def efCrs (o : FmtE) : Bool := WF.ef o 49 49 = 1
def efLog (o : FmtE) : Bool := WF.ef o 48 48 = 1
def lsrcOf (o : FmtE) : BitVec 10 := WF.efF o 38
def osrcOf (o : FmtE) : BitVec 10 := WF.efF o 28
/-- The participants of a lane engine form: at a control point each thread's own copy's fields (R36, R37). -/
def laneIssue (o : FmtE) (uses : List FieldUse) (body : List Nat → M Unit) : M Unit := do
  let s ← get
  let ts := participants s o.h
  if ts = [] then pure ()
  else do
    checkStale false uses ts
    body ts
/-- Checks 3 and 4 of R214 for queries on a binding. -/
def bindChecks (ts : List Nat) (bind : Nat) (va : Nat) : M Unit := do
  let s ← get
  need (bindServes (s.bindOf s.me.block bind)) (shapeTrap s false ts va)
def spawnCheck (u : Bool) (ts : List Nat) : M Unit := do
  let s ← get
  need (!inSpawn s) { cause := 0x19, mask := runnerMask s u ts }
/-- The log of a query that writes one. -/
def logOf (s : State) (o : FmtE) (t : Nat) : Option (Nat × Nat × Nat × Bool) :=
  if efLog o then
    let a := eAddr s (lsrcOf o) t
    some (a, le (structBytes s needRW a 64) 0 4, 0, false)
  else none
def target (s : State) (f : BitVec 10) (al n : Nat) (nd : Need) (t : Nat) : Target :=
  { tid := t, va := eAddr s f t, al := al, n := n, nd := nd, perThread := WF.isV f }
/-- The record bytes that a participant of RQ or BQ names. -/
def queryRec (o : FmtE) (beam : Bool) (s : State) (t : Nat) : List Byte :=
  structBytes s needR (eAddr s o.a t) (if beam then beamBytes (efCrs o) else rayBytes (efCrs o))
/-- A participant's query: its samples and its first node; s0 is the state at issue. The root is level 1 of the 64 that R198 allows,
and leaves are not counted (DEDUCED, log 93). -/
def queryFor (o : FmtE) (beam : Bool) (s0 s : State) (t : Nat) : Query :=
  let root := ((s0.bindOf s0.me.block (efBind o)).bvh.map fun v => v.root).getD 0
  let base := newQuery s (if beam then .beam else .ray) t (efBind o) (eAddr s0 o.a t) o
  let q : Query :=
    if beam then
      let r := beamOf (efCrs o) (queryRec o beam s0 t)
      { base with user := r.user, w := r.w, h := r.h, samples := beamSamples r, array := some (eAddr s0 (osrcOf o) t) }
    else
      let r := rayOf (efCrs o) (queryRec o beam s0 t)
      { base with user := r.2, samples := [mkSample r.1], occ := o.h.rm.toNat = 1 }
  let work := if q.samples.all (·.dead) then [] else [Work.node root 1 noInst 0 (q.w - 1) 0 (q.h - 1)]
  { q with coarse := efCrs o, beamForm := beam, log := logOf s0 o t, work := work }
/-- One query per participant, in ascending thread order. -/
def startQueries (o : FmtE) (beam : Bool) (ts : List Nat) (s0 : State) : State :=
  ts.foldl (fun s t => acceptQuery s (queryFor o beam s0 s t)) s0
/-- The registers RQ and BQ read, and the addresses they name. -/
def queryUses (o : FmtE) (beam : Bool) : List FieldUse := use2 o.a ++ use2 (lsrcOf o) ++ (if beam then use2 (osrcOf o) else [])
def queryTargets (o : FmtE) (beam : Bool) (s : State) (ts : List Nat) : List Target :=
  let n := if beam then beamBytes (efCrs o) else rayBytes (efCrs o)
  ts.map (target s o.a n n needR) ++ (if efLog o then ts.map (target s (lsrcOf o) 64 64 needRW) else [])
/-- A beam's hit array, aligned to 32 bytes (check 1 of R214, log 42). -/
def arrayTargets (o : FmtE) (beam : Bool) (s : State) (ts : List Nat) : List Target :=
  if beam then ts.map (target s (osrcOf o) 32 32 needW) else []
/-- RQ and BQ: checks of R214, then one query per participant. -/
def queryCore (o : FmtE) (beam : Bool) : M Unit :=
  laneIssue o (queryUses o beam) fun ts => do
    let s ← get
    alignTargets false (queryTargets o beam s ts ++ arrayTargets o beam s ts)
    readTargets false (queryTargets o beam s ts)
    let badRec := if beam then ts.filter fun t => !beamOk (efCrs o) (queryRec o beam s t) else []
    need (badRec = []) (shapeTrap s false badRec (eAddr s o.a (badRec.headD 0)))
    let badLog := if efLog o then ts.filter fun t => !logFresh (structBytes s needRW (eAddr s (lsrcOf o) t) 64) else []
    need (badLog = []) (shapeTrap s false badLog (eAddr s (lsrcOf o) (badLog.headD 0)))
    bindChecks ts (efBind o) (eAddr s o.a (ts.headD 0))
    spawnCheck false ts
    checkPoison false (queryUses o beam) ts
    upd fun s0 => startQueries o beam ts (settleTargets (queryTargets o beam s ts) s0)
/-- RQ (R215). -/
def execRq (o : FmtE) (s : State) : Host.Outcome State Fault Refusal := finish (queryCore o false) s
/-- BQ (R215). -/
def execBq (o : FmtE) (s : State) : Host.Outcome State Fault Refusal := finish (queryCore o true) s

/-- A complete log that RQR may replay (R209). -/
def logReplayable (beam : Bool) (bs : List Byte) : Bool :=
  let fl := le bs 8 4
  fl.testBit 1 && !fl.testBit 0 && (fl.testBit 2 == beam) && fl < 16 && 1 ≤ le bs 0 4 && le bs 0 4 ≤ 2 ^ 24 && le bs 4 4 ≤ le bs 0 4
  && zeros bs 24 40
/-- What a participant of RQR names: the log's header, and the record in it. -/
def replayHdr (o : FmtE) (s : State) (t : Nat) : List Byte := structBytes s needR (eAddr s o.a t) 64
def replayCoarse (o : FmtE) (s : State) (t : Nat) : Bool := (le (replayHdr o s t) 8 4).testBit 3
def replaySize (o : FmtE) (beam : Bool) (s : State) (t : Nat) : Nat :=
  if beam then beamBytes (replayCoarse o s t) else rayBytes (replayCoarse o s t)
def replayRec (o : FmtE) (beam : Bool) (s : State) (t : Nat) : List Byte :=
  structBytes s needR (le (replayHdr o s t) 16 8) (replaySize o beam s t)
def replayTarget (o : FmtE) (beam : Bool) (s : State) (t : Nat) : Target :=
  { tid := t, va := le (replayHdr o s t) 16 8, al := replaySize o beam s t, n := replaySize o beam s t, nd := needR, perThread := false }
/-- A participant's replayed query. -/
def replayFor (o : FmtE) (beam : Bool) (s0 s : State) (t : Nat) : Query :=
  let coarse := replayCoarse o s0 t
  let base := newQuery s .replay t (efBind o) (le (replayHdr o s0 t) 16 8) o
  let q : Query :=
    if beam then
      let r := beamOf coarse (replayRec o beam s0 t)
      { base with user := r.user, w := r.w, h := r.h, samples := beamSamples r, array := some (eAddr s0 (osrcOf o) t) }
    else
      let r := rayOf coarse (replayRec o beam s0 t)
      { base with user := r.2, samples := [mkSample r.1] }
  let lg := some (eAddr s0 o.a t, le (replayHdr o s0 t) 0 4, le (replayHdr o s0 t) 4 4, false)
  { q with coarse := coarse, beamForm := beam, log := lg, work := [Work.replay 0] }
def startReplays (o : FmtE) (beam : Bool) (ts : List Nat) (s0 : State) : State :=
  ts.foldl (fun s t => acceptQuery s (replayFor o beam s0 s t)) s0
def replayUses (o : FmtE) (beam : Bool) : List FieldUse := use2 o.a ++ (if beam then use2 (osrcOf o) else [])
/-- RQR (R209). -/
def rqrCore (o : FmtE) (beam : Bool) : M Unit :=
  laneIssue o (replayUses o beam) fun ts => do
    let s ← get
    alignTargets false (ts.map (target s o.a 64 64 needR) ++ arrayTargets o beam s ts)
    readTargets false (ts.map (target s o.a 64 64 needR))
    let badLog := ts.filter fun t => !logReplayable beam (replayHdr o s t)
    need (badLog = []) (shapeTrap s false badLog (eAddr s o.a (badLog.headD 0)))
    checkTargets false (ts.map (replayTarget o beam s))
    let badRec := if beam then ts.filter fun t => !beamOk (replayCoarse o s t) (replayRec o beam s t) else []
    need (badRec = []) (shapeTrap s false badRec (le (replayHdr o s (badRec.headD 0)) 16 8))
    bindChecks ts (efBind o) (eAddr s o.a (ts.headD 0))
    spawnCheck false ts
    checkPoison false (replayUses o beam) ts
    upd fun s0 => startReplays o beam ts (settleTargets (ts.map (target s o.a 64 64 needR) ++ ts.map (replayTarget o beam s)) s0)
def execRqr (o : FmtE) (s : State) : Host.Outcome State Fault Refusal := finish (rqrCore o (o.h.rm.toNat = 1)) s

/-! ### HACC, HREJ (R216) -/

/-- The spawn rings that bindings of a context name: header addresses. -/
def ringsOf (s : State) (c : Nat) : List Nat :=
  ((s.blocks.filter fun e => (s.lch e.2.launch).ctx = c).flatMap fun e => e.2.binds.filterMap fun b => b.2.spawn.map (·.ring)).dedup
/-- The record position that an address names: the live record there if any; none where it names no position. -/
def splitAt (s : State) (c va : Nat) : Option (Option (Nat × Split)) :=
  let named := (ringsOf s c).any fun r =>
    match translate s c r needR with
    | .ok pa _ =>
      let h := ringHdr s pa
      h.base ≤ va && va < h.base + 64 * h.size && (va - h.base) % 128 = 0
    | .bad _ => false
  if named then some (s.splits.reverse.find? fun e => e.2.ctx = c && e.2.va = va) else none
/-- A point o + t·d, RNE per component, lies in a box. -/
def pointInBox (o d box : List Nat) (t : Nat) : Bool :=
  axes.all fun i =>
    match fpDecode f64 t, fpDecode f64 (o.getD i 0), fpDecode f64 (d.getD i 0) with
    | ft, fo, fd =>
      let p := (roundTo f64 1 (fpDot 1 [(ft, fd)] fo).1).1
      le64 (box.getD i 0) p && le64 p (box.getD (i + 3) 0)
/-- The hit is outside its call's declared box (R216, step 3). -/
def outsideBox (s : State) (k t : Nat) : Bool :=
  match spFind s.splits k with
  | some x => !x.finished && !x.frag && le64 x.tlo t && le64 t x.thi && !pointInBox x.o x.d x.box t
  | none => false
/-- HACC on a record: the hit enters its query, and the record is finished. -/
def acceptHit (s : State) (g k t attr : Nat) : State :=
  match spFind s.splits k with
  | none => s
  | some x =>
    if x.finished then s
    else
      let s := match s.qry x.query with
        | none => s
        | some q =>
          if x.frag then s.setQry x.query { q with fragsAccepted := q.fragsAccepted + 1 }
          else if le64 x.tlo t && le64 t x.thi then
            s.setQry x.query (setSample q x.sample fun e => e.take q.occ (t, x.prim, x.inst, attr, 0, true))
          else s
      finishSplit s g k
/-- The records that the participants name; an address that is no record position traps. -/
def namedSplits (o : FmtE) (ts : List Nat) : M (List (Nat × Option Nat)) := do
  let s ← get
  let c := s.ctxOf s.cur.g
  let xs := ts.map fun t => (t, splitAt s c (eAddr s o.a t))
  let bad := (xs.filter fun x => x.2.isNone).map (·.1)
  need (bad = []) { cause := cProt, addr := bad.foldl (fun m t => min m (eAddr s o.a t)) (2 ^ 64 - 1), mask := runnerMask s false bad }
  pure (xs.map fun x => (x.1, (x.2.getD none).map (·.1)))
/-- The ray parameter and the attr that a participant of HACC gives. -/
def haccT (o : FmtE) (s : State) (t : Nat) : Nat := srcAs s false 11 (WF.efF o 43) t
def haccUses (o : FmtE) : List FieldUse := use2 o.a ++ use2 (WF.efF o 43) ++ use1 (WF.efF o 33)
/-- Each participant's live record takes its hit, in ascending thread order. -/
def acceptHits (o : FmtE) (xs : List (Nat × Option Nat)) (s0 : State) : State :=
  xs.foldl (fun s x => match x.2 with
    | some k => acceptHit s s.cur.g k (haccT o s0 x.1) (srcAs s0 false 2 (WF.efF o 33) x.1)
    | none => s) s0
/-- Each participant's live record is finished without a hit. -/
def rejectHits (xs : List (Nat × Option Nat)) (s : State) : State :=
  xs.foldl (fun s x => match x.2 with | some k => finishSplit s s.cur.g k | none => s) s
/-- HACC (R216). -/
def execHacc (o : FmtE) (s : State) : Host.Outcome State Fault Refusal :=
  finish (laneIssue o (haccUses o) fun ts => do
    let xs ← namedSplits o ts
    checkPoison false (haccUses o) ts
    let s ← get
    let out := (xs.filter fun x => match x.2 with | some k => outsideBox s k (haccT o s x.1) | none => false).map (·.1)
    need (out = []) { cause := cProt, addr := out.foldl (fun m t => min m (eAddr s o.a t)) (2 ^ 64 - 1), mask := runnerMask s false out }
    if xs.any fun x => x.2.isSome then beforeRelease
    upd (acceptHits o xs)) s
/-- HREJ (R216). -/
def execHrej (o : FmtE) (s : State) : Host.Outcome State Fault Refusal :=
  finish (laneIssue o (use2 o.a) fun ts => do
    let xs ← namedSplits o ts
    checkPoison false (use2 o.a) ts
    if xs.any fun x => x.2.isSome then beforeRelease
    upd (rejectHits xs)) s

/-! ### SPCFG, BVHREF, COVER, TRIEM (R210, R217, R218) -/

/-- A spawn configuration's fields. -/
def spawnCfg (bs : List Byte) : SpawnCfg :=
  { entry := le bs 0 4, regs := le bs 4 2, uregs := le bs 6 1, planes := le bs 7 1, sp := le bs 8 4, ring := le bs 16 8, param := le bs 24 8, core := 0 }
/-- The limits of R77 on registers, planes and scratchpad. -/
def limitsOk (regs uregs planes sp : Nat) : Bool :=
  8 ≤ regs && regs ≤ 256 && regs % 8 = 0 && 8 ≤ uregs && uregs ≤ 64 && uregs % 8 = 0 && [1, 2, 4, 8].contains planes
  && sp ≤ 491520 && sp % 128 = 0
def spawnCfgOk (bs : List Byte) : Bool :=
  let c := spawnCfg bs
  c.entry < 2 ^ 27 && limitsOk c.regs c.uregs c.planes c.sp && zeros bs 12 4 && zeros bs 32 32 && c.ring % 64 = 0
/-- Earlier queries of a binding have completed (R217). -/
def bindQuiet (s : State) (b i : Nat) : Bool := !(s.queries.any fun e => e.2.block = b && e.2.bind = i && e.2.state ≠ .complete)
/-- A uniform instruction's structure of 64 bytes, and the target its check names. -/
def target64 (va : Nat) (nd : Need) : Target := { tid := 0, va := va, al := 64, n := 64, nd := nd, perThread := false }
/-- The core on which the spawn configuration's slot would be reserved, the binding's old one given back first; none without a
core, or past the region's bound of reservations (R206). -/
def spawnReserve (s : State) (i : Nat) (c : SpawnCfg) : Option Nat :=
  let b := s.me.block
  let l := s.grpLch s.cur.g
  let d := coreDie (placeCore s.cur.g)
  let free := setBind s b i { s.bindOf b i with spawn := none }
  if spawnReserved free l.ctx l.region d < (Launch.reg s l).spawn then chooseCore free d (s.blk b).launch c.req else none
/-- The ring's physical header address, and the ring is one that split records fit (R205). -/
def spawnRingPa (s : State) (c : SpawnCfg) : Nat := match xlGrp s s.cur.g needRW c.ring with | .ok pa _ => pa | .bad _ => 0
def spawnRingOk (s : State) (c : SpawnCfg) : Bool :=
  (ringBad s (spawnRingPa s c)).isNone && 128 ≤ (ringHdr s (spawnRingPa s c)).size
/-- The binding takes a spawn configuration and its slot, and the ring is marked a spawn ring. -/
def takeSpawn (i : Nat) (c : SpawnCfg) (core : Nat) (s : State) : State :=
  homeWriteNat (setBind s s.me.block i { s.bindOf s.me.block i with spawn := some { c with core := core } }) (spawnRingPa s c + 12) 4 1
/-- SPCFG (R217). -/
def spcfgCore (o : FmtE) : M Unit := do
  let s ← get
  if !guardG s o.h then pure ()
  else do
    checkStale true (use1 o.a) [0]
    let va := eAddr s o.a 0
    checkTargets true [target64 va needR]
    let bs := structBytes s needR va 64
    need (spawnCfgOk bs) (shapeTrap s true [0] va)
    let c := spawnCfg bs
    checkTargets true [target64 c.ring needRW]
    need (spawnRingOk s c) (shapeTrap s true [0] va)
    match spawnReserve s (efBind o) c with
    | none => trapM { cause := 0x19, mask := runnerMask s true [0] }
    | some core => do
      checkPoison true (use1 o.a) [0]
      if bindQuiet s s.me.block (efBind o) then
        upd fun s0 => takeSpawn (efBind o) c core (settleTargets [target64 va needR, target64 c.ring needRW] s0)
      else stallM
def execSpcfg (o : FmtE) (s : State) : Host.Outcome State Fault Refusal := finish (spcfgCore o) s
def bvhOf (bs : List Byte) : Bvh :=
  { nodes := le bs 0 8, tris := le bs 8 8, custom := le bs 16 8, root := le bs 24 4, nnode := le bs 28 4, ntri := le bs 32 4, ncus := le bs 36 4 }
def bvhOk (bs : List Byte) : Bool :=
  let v := bvhOf bs
  v.nodes % 128 = 0 && v.tris % 64 = 0 && v.custom % 64 = 0 && v.root < v.nnode && 1 ≤ v.nnode && zeros bs 40 24
/-- BVHREF (R217). -/
def execBvhref (o : FmtE) (s : State) : Host.Outcome State Fault Refusal :=
  finish (do
    let s ← get
    if !guardG s o.h then pure ()
    else do
      checkStale true (use1 o.a) [0]
      let va := eAddr s o.a 0
      checkTargets true [target64 va needR]
      let bs := structBytes s needR va 64
      need (bvhOk bs) (shapeTrap s true [0] va)
      checkPoison true (use1 o.a) [0]
      upd fun s0 =>
        let s := settleTargets [target64 va needR] s0
        setBind s s.me.block (efBind o) { s.bindOf s.me.block (efBind o) with bvh := some (bvhOf bs) }) s
/-- A triangle stream's header is legal (R210). -/
def streamOk (bs : List Byte) : Bool := zeros bs 12 52 && le bs 4 4 ≤ le bs 0 4
/-- COVER's query. -/
def coverFor (o : FmtE) (s : State) : Query :=
  let va := eAddr s o.a 0
  let cnt := le (structBytes s needR va 64) 4 4
  { newQuery s .cover 0 (efBind o) va o with
    stream := va, h := cnt, tx := e32 s true (WF.efF o 28) 0, ty := e32 s true (WF.efF o 18) 0,
    work := if cnt = 0 then [] else [Work.cover 0] }
/-- COVER (R218). -/
def execCover (o : FmtE) (s : State) : Host.Outcome State Fault Refusal :=
  finish (do
    let s ← get
    let uses := use1 o.a ++ use1 (WF.efF o 28) ++ use1 (WF.efF o 18)
    if !guardG s o.h then pure ()
    else do
      checkStale true uses [0]
      let va := eAddr s o.a 0
      checkTargets true [target64 va needR]
      let bs := structBytes s needR va 64
      need (streamOk bs && (s.bindOf s.me.block (efBind o)).spawn.isSome) (shapeTrap s true [0] va)
      spawnCheck true [0]
      checkPoison true uses [0]
      upd fun s => acceptQuery (settleTargets [target64 va needR] s) (coverFor o s)) s

/-- Snap a coordinate in pixels to a multiple of 2^−8, RNE; none for a NaN or |x| ≥ 2^22 (R210). -/
def snap (b : Nat) : Option Int :=
  match fpDecode f32 b with
  | .nan _ => none
  | .inf _ => none
  | v =>
    let e := v.exact
    if Exact.le ⟨2 ^ 22, 1⟩ e.abs then none else some (roundInt 1 (e.mul ⟨256, 1⟩)).1
/-- A TRIEM's triangle: the nine f32 coordinates as an entry, or none when it is discarded. -/
def triEntry (xs : List Nat) (prim : Nat) : Option (List Byte) := do
  let v (i : Nat) : Option (Int × Int) := do
    let x ← snap (xs.getD (3 * i) 0)
    let y ← snap (xs.getD (3 * i + 1) 0)
    pure (x, y)
  let a ← v 0
  let b ← v 1
  let c ← v 2
  let zs := [2, 5, 8].map fun i => xs.getD i 0
  if zs.any fun z => (fpDecode f32 z).isNan then none
  let w (n : Int) : List Byte := natBytes 4 (intBits 32 n)
  pure (pad 64 (w a.1 ++ w a.2 ++ w b.1 ++ w b.2 ++ w c.1 ++ w c.2 ++ zs.flatMap (natBytes 4) ++ natBytes 4 prim))
/-- One participant's append: the entry index, or 0xFFFF_FFFF; the header's home slice performs it (R210). -/
def triemOne (s : State) (va pa : Nat) (entry : Option (List Byte)) : State × Nat :=
  let s := settleLine s (lineOf pa)
  let cap := homeNat s pa 4
  let cnt := homeNat s (pa + 4) 4
  let drop (s : State) : State × Nat := (homeWriteNat s (pa + 8) 4 ((homeNat s (pa + 8) 4 + 1) % 2 ^ 32), 0xFFFFFFFF)
  match entry with
  | none => drop s
  | some bs =>
    if cap ≤ cnt then drop s
    else match writeRange s (xlGrp s s.cur.g needW) (va + 64 + 64 * cnt) bs with
      | .ok s => (homeWriteNat s (pa + 4) 4 (cnt + 1), cnt)
      | .error e => drop (structFault s e.1 e.2)
/-- The nine registers a participant gives, and its entry. -/
def triemEntry (o : FmtE) (s : State) (t : Nat) : Option (List Byte) :=
  triEntry ((List.range 9).map fun i => readV s.seen (WF.ef o 52 43 + i) t) (srcAs s false 2 (WF.efF o 33) t)
/-- The appends in ascending thread order, then the results. -/
def appendTris (o : FmtE) (ts : List Nat) (s0 : State) : State :=
  let one (acc : State × List (Nat × Nat)) (t : Nat) : State × List (Nat × Nat) :=
    let va := eAddr s0 o.a t
    match xlGrp acc.1 s0.cur.g needRW va with
    | .ok pa _ =>
      let r := triemOne acc.1 va pa (triemEntry o s0 t)
      (r.1, acc.2 ++ [(t, r.2)])
    | .bad _ => acc
  let r := ts.foldl one (s0, [])
  putEach o 2 r.2 r.1
def triemUses (o : FmtE) : List FieldUse := use2 o.a ++ [(WF.efF o 43, 9)] ++ use1 (WF.efF o 33)
/-- TRIEM (R218). -/
def triemCore (o : FmtE) : M Unit :=
  laneIssue o (triemUses o) fun ts => do
    let s ← get
    checkTargets false (ts.map (target s o.a 64 64 needRW))
    let bad := ts.filter fun t => !streamOk (structBytes s needRW (eAddr s o.a t) 64)
    need (bad = []) (shapeTrap s false bad (eAddr s o.a (bad.headD 0)))
    checkPoison false (triemUses o) ts
    upd (appendTris o ts)
def execTriem (o : FmtE) (s : State) : Host.Outcome State Fault Refusal := finish (triemCore o) s

end Sys2Proof.Machine
end

