-- ==== Sys2Proof/Machine/Control.lean ====
section
/-! DEFINITION. Control.lean: branches, calls and exits, planes, waits, traps, and the barriers (13_control_flow). -/

namespace Sys2Proof.Machine

/-- A transfer: the offset changes and the line execution ends (R33). -/
def goTo (x : Group) (off : Nat) : Group := { endLine x with pc := off % 2 ^ 27 }
/-- The line of the instruction being issued. -/
def curLine (s : State) : Int := ((s.cur.off / 5 : Nat) : Int)
/-- Line and offset that a tline or cline and a slot name (R328). -/
def lineAt (s : State) (l : BitVec 24) : Int := curLine s + signedNat 24 l.toNat
def offsetAt (s : State) (l : BitVec 24) (slot : BitVec 3) : Nat := ((lineAt s l) * 5 + (slot.toNat : Nat)).toNat % 2 ^ 27
/-- Check 2 of R330 for a target field, then the rest of the instruction. -/
def checkField (u : Bool) (l : BitVec 24) (slot : BitVec 3) (rest : M Unit) : M Unit := do
  let s ← get
  let n ← checkTarget u (lineAt s l) slot.toNat
  keepCount n rest
/-- Check 2 for an offset read from a register, then the rest. -/
def checkOffset (u : Bool) (off : Nat) (rest : M Unit) : M Unit := do
  let n ← checkTarget u ((off / 5 : Nat) : Int) (off % 5)
  keepCount n rest
def rcOf (o : FmtC) : Bool := o.cfn.getLsbD 0
/-- Check 2 for the reconvergence offset of a branch that has one, then the rest. -/
def checkRc (o : FmtC) (rest : M Unit) : M Unit := if rcOf o then checkField o.h.u o.cline o.cslot rest else rest
/-- Traps of checks 3 and 4 of R330. -/
def convergenceTrap (s : State) (u : Bool) : Trap := { cause := 0x06, mask := if u then s.me.resident else s.me.live }
def needDepth (n : Nat) : M Unit := do
  let s ← get
  need (s.me.stack.length + n ≤ 64) { cause := 0x0E, mask := s.me.live }
/-- The k register of a uniform operand, or an immediate. -/
def kOrImm (s : State) (f : BitVec 10) : Nat := if WF.isK f then readK s.seen (f.toNat - 0x100) else (WF.immVal f).toNat
/-- Each thread's own copy's A (R37). -/
def ownA (s : State) (o : FmtC) (t : Nat) : BitVec 10 :=
  if s.cur.whole then ((spFind s.cur.copies (planeOf s.seen t)).map fun w => (fieldsC w).a).getD o.a else o.a

/-! ### Branches (R331 to R333) -/

/-- NOP (R70). -/
def execNop (s : State) : Host.Outcome State Fault Refusal := .next s
/-- Resume() of R329 for a group whose running path has no active thread left: pops a path, or goes on. -/
def resume (s : State) (g : Nat) : State := s.updGrp g fun x => if x.live = 0 then endLine (resumePath x x.stack) else x
/-- BRA (R331). -/
def braCore (o : FmtC) : M Unit := checkField o.h.u o.tline o.tslot <| checkRc o do
  let s ← get
  let t := offsetAt s o.tline o.tslot
  if o.h.u then
    if guardG s o.h then upd fun s => s.updMe fun x => goTo x t
  else do
    let taken := participantMask s o.h
    let fall := s.me.live &&& ~~~taken
    if taken = 0 then pure ()
    else if fall = 0 then upd fun s => s.updMe fun x => goTo x t
    else do
      need (rcOf o) (convergenceTrap s false)
      needDepth 2
      let c := offsetAt s o.cline o.cslot
      upd fun s => s.updMe fun x =>
        { x with stack := { offset := t, kind := .deferred, mask := taken } :: { offset := c, kind := .rejoin, mask := x.live } :: x.stack,
                 live := fall }
def execBra (o : FmtC) (s : State) : Host.Outcome State Fault Refusal := finish (braCore o) s
/-- Insert into an ascending list without repeats. -/
def insertAsc (n : Nat) : List Nat → List Nat
  | [] => [n]
  | a :: r => if n < a then n :: a :: r else if n = a then a :: r else a :: insertAsc n r
/-- The paths of a BRX: its targets with their threads, and the threads that fall through. One path is taken at once; of several
the falling one goes on, else the first target's. -/
def brxPaths (targets : List Nat) (threads : Nat → Mask) (fall : Mask) (c : Nat) (x : Group) : Group :=
  let entry (t : Nat) : StackEntry := { offset := t, kind := .deferred, mask := threads t }
  let base : StackEntry := { offset := c, kind := .rejoin, mask := x.live }
  match targets with
  | [] => x
  | t :: rest =>
    if fall ≠ 0 then { x with stack := targets.map entry ++ base :: x.stack, live := fall }
    else if rest = [] then goTo x t
    else goTo { x with stack := rest.map entry ++ base :: x.stack, live := threads t } t
/-- BRX (R333). -/
def brxCore (o : FmtC) : M Unit := do
  let s ← get
  if o.h.u then
    if guardG s o.h then do
      let t := readK s.seen (o.a.toNat - 0x100) % 2 ^ 27
      checkOffset true t <| checkRc o do
        checkPoison true (use1 o.a) [0]
        upd fun s => s.updMe fun x => goTo x t
    else checkRc o (pure ())
  else do
    let ts := participants s o.h
    let uses (t : Nat) : List FieldUse := use1 (ownA s o t)
    let bad := ts.filter fun t => poisonAt s.seen (uses t) t
    let tgt (t : Nat) : Nat := src32 s false (ownA s o t) t % 2 ^ 27
    let targets := ts.foldl (fun l t => insertAsc (tgt t) l) []
    targets.foldr (checkOffset false) <| checkRc o do
    let fall := s.me.live &&& ~~~(participantMask s o.h)
    let paths := targets.length + (if fall = 0 then 0 else 1)
    if ts = [] then pure ()
    else do
      if paths > 1 then do
        need (rcOf o) (convergenceTrap s false)
        needDepth (1 + targets.length)
      need (bad = []) { cause := cPoison, mask := runnerMask s false bad }
      upd fun s => s.updMe fun x => brxPaths targets (fun t => maskOf fun i => ts.contains i && tgt i = t) fall (offsetAt s o.cline o.cslot) x
def execBrx (o : FmtC) (s : State) : Host.Outcome State Fault Refusal := finish (brxCore o) s
/-- The entry that a JOIN at offset o pops (R332). -/
def joinPops (stack : List StackEntry) (off : Nat) : Bool :=
  match stack with
  | [] => false
  | e :: rest =>
    (e.kind = .rejoin && e.offset = off)
    || (e.kind = .deferred && (match rest.find? fun r => r.kind ≠ .deferred with
        | some r => r.kind = .rejoin && r.offset = off
        | none => false))
/-- JOIN (R332). -/
def joinCore : M Unit :=
  upd fun s =>
    if joinPops s.me.stack s.cur.off then
      match s.me.stack with
      | e :: rest => resume (s.updMe fun x => goTo { x with stack := rest, live := e.mask &&& x.resident } e.offset) s.cur.g
      | [] => s
    else s
def execJoin (_o : FmtC) (s : State) : Host.Outcome State Fault Refusal := finish joinCore s

/-! ### Calls and exits (R334, R335) -/

/-- Take threads out of every entry of a stack, or of the entries above the topmost call entry. -/
def dropMask (p : Mask) (l : List StackEntry) : List StackEntry := l.map fun e => { e with mask := e.mask &&& ~~~p }
/-- Threads leave LIVE; with none left the group resumes at the next offset. -/
def afterLeave (s : State) : State := resume s s.cur.g
/-- The threads p leave for good; the last of them retire the group. -/
def exitThreads (last : Bool) (p : Mask) (s : State) : State :=
  if last && !isControl s.cur.g then retireGroup s s.cur.g
  else afterLeave (s.updMe fun x => { x with resident := x.resident &&& ~~~p, live := x.live &&& ~~~p, stack := dropMask p x.stack })
/-- EXIT (R334): a group with instructions in the operand log does not retire before they are done. -/
def exitCore (o : FmtC) : M Unit := do
  let s ← get
  let p := participantMask s o.h
  if p = 0 then pure ()
  else do
    weltBudget
    if finishesAny s s.cur.g (maskTids p) then needReads
    let g := s.cur.g
    let last := s.me.resident &&& ~~~p = 0
    if last && (s.oplog.any fun e => e.g = g && e.uid = s.me.uid) then stallM
    else upd fun s => exitThreads last p (finishOf s g (maskTids p))
def execExit (o : FmtC) (s : State) : Host.Outcome State Fault Refusal := finish (exitCore o) s
/-- The effect of CALL and CALL.ind once their target is checked; `k` is the k register read for it. -/
def callTo (p : Mask) (t : Nat) (k : List FieldUse) : M Unit := do
  if p = 0 then pure ()
  else do
    needDepth 1
    checkPoison true k [0]
    upd fun s => s.updMe fun x =>
      goTo { x with stack := { offset := (s.cur.off + 1) % 2 ^ 27, kind := .call, mask := x.live } :: x.stack, live := p } t
/-- CALL (R335). -/
def callCore (o : FmtC) : M Unit := checkField o.h.u o.tline o.tslot do
  let s ← get
  callTo (participantMask s o.h) (offsetAt s o.tline o.tslot) []
def execCall (o : FmtC) (s : State) : Host.Outcome State Fault Refusal := finish (callCore o) s
/-- CALL.ind (R335). -/
def callIndCore (o : FmtC) : M Unit := do
  let s ← get
  let t := readK s.seen (o.a.toNat - 0x100) % 2 ^ 27
  checkOffset false t (callTo (participantMask s o.h) t (use1 o.a))
def execCallInd (o : FmtC) (s : State) : Host.Outcome State Fault Refusal := finish (callIndCore o) s
/-- RET (R335): with no call entry it acts as EXIT. -/
def retCore (o : FmtC) : M Unit := do
  let s ← get
  let p := participantMask s o.h
  if p = 0 then pure ()
  else match s.me.stack.findIdx? fun e => e.kind = .call with
    | none => exitCore o
    | some i => upd fun s =>
      afterLeave (s.updMe fun x => { x with live := x.live &&& ~~~p, stack := dropMask p (x.stack.take i) ++ x.stack.drop i })
def execRet (o : FmtC) (s : State) : Host.Outcome State Fault Refusal := finish (retCore o) s
/-- LOOP (R336). -/
def loopCore (o : FmtC) : M Unit := checkField true o.tline o.tslot do
  let s ← get
  if !guardG s o.h then pure ()
  else do
    checkPoison true (use1 o.a) [0]
    upd fun s =>
      let r := o.a.toNat - 0x100
      let v := (readK s.seen r + (2 ^ 64 - 1)) % 2 ^ 64
      s.updMe fun x =>
        let x := writeDest x o.h o.a 3 0 v
        if v = 0 then x else goTo x (offsetAt s o.tline o.tslot)
def execLoop (o : FmtC) (s : State) : Host.Outcome State Fault Refusal := finish (loopCore o) s

/-! ### Planes (R337) -/

/-- Set threads' planes; the line execution ends when one changes. -/
def setPlanes (x : Group) (vs : List (Nat × Nat)) : Group :=
  let changed := vs.any fun v => planeOf x v.1 ≠ v.2
  let x := { x with plane := vs.foldl (fun m v => spSet 0 m v.1 v.2) x.plane }
  if changed then endLine x else x
/-- PLN (R337): the threads it moves run no further copy at this offset. -/
def plnCore (o : FmtC) : M Unit := do
  let s ← get
  let ts := participants s o.h
  let v (t : Nat) : Nat := src32 s false o.a t
  let bad := ts.filter fun t => s.me.np ≤ v t
  need (bad = []) { cause := 0x05, mask := runnerMask s false bad }
  checkPoison false (use1 o.a) ts
  upd fun s =>
    { s.updMe fun x => setPlanes x (ts.map fun t => (t, v t)) with
      cur := { s.cur with moved := s.cur.moved ||| participantMask s o.h } }
def execPln (o : FmtC) (s : State) : Host.Outcome State Fault Refusal := finish (plnCore o) s
/-- PLNG (R337). -/
def plngCore (o : FmtC) : M Unit := do
  let s ← get
  if !guardG s o.h then pure ()
  else do
    let v := kOrImm s o.a
    need (v < s.me.np) { cause := 0x05, mask := s.me.resident }
    checkPoison true (use1 o.a) [0]
    upd fun s => s.updMe fun x => setPlanes x ((maskTids x.resident).map fun t => (t, v))
def execPlng (o : FmtC) (s : State) : Host.Outcome State Fault Refusal := finish (plngCore o) s

/-! ### Waiting, yielding and traps (R340 to R342) -/

/-- The group leaves its track for a blocking event; the instruction is complete. -/
def blockDone (w : Wait) : M Unit := upd fun s => blockOn s s.cur.g w
/-- SLEEP (R340). -/
def sleepCore (o : FmtC) : M Unit := do
  let s ← get
  if !guardG s o.h then pure ()
  else do
    checkPoison true (use1 o.a) [0]
    let a := min (2 ^ 32 - 1) (kOrImm s o.a)
    if a = 0 then pure ()
    else if s.grpPavane s.cur.g then blockDone (.sleepTurns ((s.core (placeCore s.cur.g)).turns + a))
    else blockDone (.sleep (s.clock + a))
def execSleep (o : FmtC) (s : State) : Host.Outcome State Fault Refusal := finish (sleepCore o) s
/-- SLEEP.tok (R340): it ends at the copy's promise or completion; until then the group waits and issues it again. -/
def sleepTokCore (o : FmtC) : M Unit := do
  let s ← get
  if !guardG s o.h then pure ()
  else do
    let t := readK s.seen (o.a.toNat - 0x100)
    need (tokenOk t) { cause := 0x0B, addr := t, mask := s.me.resident, tok := t }
    checkPoison true (use1 o.a) [0]
    match copyOf s s.me.block t with
    | none => pure ()
    | some e => do
      if e.2.complete then pure ()
      else do
        raiseCopyWait e.1
        if e.2.pavane then stallM
        else if reaches (cycleCount s (coreDie (placeCore s.cur.g))) e.2.promise then pure ()
        else blockHere (.sleepTok e.2.token)
def execSleepTok (o : FmtC) (s : State) : Host.Outcome State Fault Refusal := finish (sleepTokCore o) s
/-- Give a group's track to another ready group of its half, as a quantum swap does; the leaver is ready at once (R315, R341). -/
def swapOut (s : State) (g : Nat) : State :=
  let x := s.grp g
  match x.track, pickReady s (placeCore g) (halfOf x) (· = g) with
  | some t, some n =>
    let s := s.updGrp g fun x => { endLine x with track := none, readyAt := s.clock }
    takeTrack s (placeCore g) (halfOf x) t n true |>.updGrp g fun y => { y with passed := 0 }
  | _, _ => s
/-- YIELD (R341). -/
def yieldCore (o : FmtC) : M Unit := do
  let s ← get
  if guardG s o.h && !s.grpPavane s.cur.g && !isControl s.cur.g then upd fun s => swapOut s s.cur.g else pure ()
def execYield (o : FmtC) (s : State) : Host.Outcome State Fault Refusal := finish (yieldCore o) s
/-- TRAP and BRK (R342). -/
def softTrap (o : FmtC) (cause : Nat) : M Unit := do
  let s ← get
  let ts := runners s o.h
  if ts = [] then pure () else trapM { cause := cause, code := o.cfn.toNat, mask := runnerMask s o.h.u ts }
def execTrap (o : FmtC) (s : State) : Host.Outcome State Fault Refusal := finish (softTrap o 0x10) s
def execBrk (o : FmtC) (s : State) : Host.Outcome State Fault Refusal := finish (softTrap o 0x0F) s

/-! ### Barriers (R343 to R345) -/

def barNum (o : FmtC) : Nat := o.cfn.toNat % 16
/-- An arrival: a release at scope blk, the count, ap and the pending bit (R344, R345). -/
def arrive (s : State) (n : Nat) : State :=
  let g := s.cur.g
  let b := s.me.block
  let s := doRelease s g 1
  let p := (barOfBlk (s.blk b) n).phase
  let s := s.updMe fun x => { x with ap := spPut x.ap n p, pendBar := spPut x.pendBar n true }
  barChange s b n fun r => { r with arr := (r.arr + 1) % 2 ^ 32 }
/-- The wait: an acquire at scope blk once the phase has moved; blocking passes the Promenade token (R266, R344). -/
def await (s : State) (n : Nat) : State :=
  let g := s.cur.g
  let x := s.me
  let phase := (barOfBlk (s.blk x.block) n).phase
  let pend := spGet false x.pendBar n
  let target := if pend then spGet 0 x.ap n else phase
  let s := s.updMe fun x => { x with pendBar := spPut x.pendBar n false }
  let s := doAcquire (sampleAllOwn s g) g 1
  if phase ≠ target then s
  else
    let s := blockOn s g (.barrier n target)
    let l := (s.grpBlk g).launch
    if s.grpPavane g && hasToken s g then passToken s l else s
def barrier (o : FmtC) (body : M Unit) : M Unit := do
  let s ← get
  if guardG s o.h then body else pure ()
/-- BARA (R344). -/
def execBara (o : FmtC) (s : State) : Host.Outcome State Fault Refusal := finish (barrier o (do
    beforeRelease
    upd fun s => arrive s (barNum o))) s
/-- BARW (R344). -/
def execBarw (o : FmtC) (s : State) : Host.Outcome State Fault Refusal := finish (barrier o (do
    needReads
    upd fun s => await s (barNum o))) s
/-- BARX (R344). -/
def execBarx (o : FmtC) (s : State) : Host.Outcome State Fault Refusal :=
  finish (barrier o (do
    beforeRelease
    upd fun s => await (arrive s (barNum o)) (barNum o))) s
/-- BARI (R344). -/
def bariCore (o : FmtC) : M Unit := do
  let s ← get
  checkPoison true (use1 o.a) [0]
  let a := kOrImm s o.a
  upd fun s =>
    let b := s.me.block
    let e := natBits a 4 0
    barChange s b (barNum o) fun r =>
      { r with mode := o.cfn.getLsbD 4, e := if e = 0 then (s.blk b).ngroups else e, b := natBits a 63 32 }
def execBari (o : FmtC) (s : State) : Host.Outcome State Fault Refusal := finish (barrier o (bariCore o)) s

end Sys2Proof.Machine
end

