-- ==== Sys2Proof/Machine/Tiles.lean ====
section
/-! DEFINITION. Tiles.lean: accumulator tiles and their exact arithmetic: elements and anchors (R100 to R104), the slicing unit
(R153), the pass sums (R154), recombination (R155 to R159), the block sums of MMX and MMI (R152, R178), outputs (R160). -/

namespace Sys2Proof.Machine

/-! ### Elements -/

def Tile.arow (t : Tile) (i : Nat) : Int := spGet (-32768) t.ar i
def Tile.acol (t : Tile) (j : Nat) : Int := spGet (-32768) t.ac j
def Tile.tag (t : Tile) (k : Nat) : Nat := spGet 0 t.tags k
/-- W of element k; it reads as 0 under a nonzero tag (R102). -/
def Tile.welt (t : Tile) (k : Nat) : Int := if t.tag k = 0 then spGet 0 t.w k else 0
def Tile.bound (t : Tile) (k : Nat) : Nat := spGet t.bound0 t.bounds k
/-- The weight exponent of an element's least significant bit (R100, R101). -/
def Tile.lsb (t : Tile) (k : Nat) : Int := if t.w64 then t.anc else t.arow (k / 128) + t.acol (k % 128) - 192
/-- An element's exact value. -/
def Tile.value (t : Tile) (k : Nat) : Exact := (Exact.ofInt (t.welt k)).scale (t.lsb k)
/-- An element as a value: its tag, or the exact value; a zero is +0. -/
def Tile.fval (t : Tile) (k : Nat) : FVal :=
  match t.tag k with
  | 0 => finOr false (t.value k)
  | 1 => .inf false
  | 2 => .inf true
  | _ => .nan false
/-- A sparse list over the 128 × 128 elements. -/
def grid {α : Type} [DecidableEq α] (d : α) (f : Nat → α) : List (Nat × α) :=
  (List.range 16384).filterMap fun k => let v := f k; if v = d then none else some (k, v)
def gridKeys : List Nat := List.range 16384
/-- The tile bound (R156): the largest bound among elements with tag 0, or +0. -/
def Tile.tileBound (t : Tile) : Nat := gridKeys.foldl (fun m k => if t.tag k = 0 then max m (t.bound k) else m) 0
/-- The tile that ACZ makes (R155, R180): its status word reads done. -/
def zeroTile (w64 : Bool) (anc : Int) : Tile := { w64 := w64, anc := anc, status := 64 }

/-! ### The raw image (R104) -/

def rawSize (w64 : Bool) : Nat := if w64 then 135232 else 528960
def rawTrailer (w64 : Bool) : Nat := rawSize w64 - 64
/-- The parts of a tile's raw image in ascending order: offset and bytes. -/
def rawParts (t : Tile) : List (Nat × List Byte) :=
  let n := if t.w64 then 8 else 32
  let row (i : Nat) : Nat × List Byte :=
    (n * 128 * i, (List.range 128).flatMap fun j => natBytes n (intBits (8 * n) (t.welt (128 * i + j))))
  let anchors : List (Nat × List Byte) := if t.w64 then [] else
    [(524288, (List.range 128).flatMap fun i => natBytes 2 (intBits 16 (t.arow i))),
     (524544, (List.range 128).flatMap fun j => natBytes 2 (intBits 16 (t.acol j)))]
  let tags := (List.range 4096).map fun i => BitVec.ofNat 8 (sumNat ((List.range 4).map fun j => t.tag (4 * i + j) * 4 ^ j))
  let tail := natBytes 8 (if t.w64 then intBits 64 t.anc else 0) ++ natBytes 8 t.sticky ++ natBytes 8 t.tileBound ++ natBytes 40 0
  (List.range 128).map row ++ anchors ++ [(rawTrailer t.w64 - 4096, tags), (rawTrailer t.w64, tail)]
/-- A trailer that ACLD takes (R181). -/
def trailerOk (w64 : Bool) (bs : List Byte) : Bool :=
  (w64 || fieldLe bs 0 8 = 0) && fieldLe bs 8 8 < 16 && fieldLe bs 16 8 ≤ inf64 && zeroBytes bs 24 40
/-- The tile of a raw image: anchors, tags and W as they stand, every bound the tile bound (R156, R181). DEDUCED (log 85): the sticky
word stays although SPEC may disagree with the tags, and of a Welt-64 anchor that is no sign-extended 16-bit value (R104) the low 16
bits are taken, with no trap. -/
def rawTile (w64 : Bool) (bs : List Byte) : Tile :=
  let n := if w64 then 8 else 32
  let tr := rawTrailer w64
  let tag (k : Nat) : Nat := fieldLe bs (tr - 4096 + k / 4) 1 / 4 ^ (k % 4) % 4
  let anchors (at_ : Nat) : List (Nat × Int) := if w64 then [] else
    (List.range 128).filterMap fun i => let a := signedNat 16 (fieldLe bs (at_ + 2 * i) 2); if a = -32768 then none else some (i, a)
  { w64 := w64, w := grid 0 fun k => if tag k = 0 then signedNat (8 * n) (fieldLe bs (n * k) n) else 0, ar := anchors 524288,
    ac := anchors 524544, anc := if w64 then signedNat 16 (fieldLe bs tr 2) else 0, tags := grid 0 tag, bounds := [],
    bound0 := fieldLe bs (tr + 16) 8, sticky := fieldLe bs (tr + 8) 8, status := 64 }

/-! ### Slicing (R153, R190) -/

/-- PanelExponent of the finite elements of one row or column. -/
def panelExponent (vs : List FVal) : Int :=
  vs.foldl (fun e v => match v with | .fin x => max e (x.log2 + 1) | _ => e) (-1074)
/-- floor(|x| · 2^k), k at most 4,400 in size for every f64 operand that is not zero below it. -/
def floorScale (x : Exact) (k : Int) : Nat := (x.abs.scale k).floor.toNat
/-- SliceDigit. -/
def sliceDigit (v : FVal) (e : Int) (k : Nat) : Int :=
  match v with
  | .fin x =>
    let d : Int := ((floorScale x (7 * ((k : Int) + 1) - e) % 128 : Nat) : Int)
    if x.isNeg then -d else d
  | _ => 0

/-! ### Passes (R154) -/

/-- The pairs of A and B slices in order of their passes: ascending i + j, then ascending i. -/
def slicePairs (s : Nat) (full : Bool) : List (Nat × Nat) :=
  (List.range (if full then 2 * s - 1 else s)).flatMap fun n =>
    ((List.range (n + 1)).filter fun i => i < s && n - i < s).map fun i => (i, n - i)
def dotInt (x y : List Int) : Int := (x.zip y).foldl (fun a p => a + p.1 * p.2) 0
/-- A K-step's sum of one element, in units of 2^(−14·S) relative to 2^(E + F). Digits by slice, then by K. -/
def partialSum (s : Nat) (full : Bool) (a b : List (List Int)) : Int :=
  (slicePairs s full).foldl (fun acc p =>
    acc + dotInt (a.getD p.1 []) (b.getD p.2 []) * ((2 ^ (7 * (2 * s - p.1 - p.2 - 2)) : Nat) : Int)) 0
/-- Beta(S, mode) (R157). -/
def sliceBeta (s : Nat) (full : Bool) : Exact := ⟨if full then 3 else (s : Int) + 2, 2 ^ (7 * s)⟩
/-- The slice count for a target τ, and the shortfall bit (R158). -/
def chooseSlices (tau : Nat) (full : Bool) : Nat × Bool :=
  let meets (s : Nat) : Bool := match fpDecode f64 tau with
    | .fin x => Exact.le (sliceBeta s full) x
    | .inf neg => !neg
    | _ => false
  match ((List.range 10).map (· + 1)).find? meets with
  | some s => (s, false)
  | none => (10, true)

/-! ### One element's update -/

/-- W, bound and sticky bits of an element under update. -/
structure Elem where
  w : Int
  bound : Nat
  sticky : Nat := 0
  deriving DecidableEq, Repr

/-- RoundUp(b + x) (R155). -/
def raiseBound (b : Nat) (x : Exact) : Nat := if b = inf64 then b else (roundTo f64 3 (.fin ((exactOf f64 b).add x))).1
/-- Drop: DROP and 2^e more bound. -/
def Elem.drop (e : Elem) (weight : Int) : Elem :=
  { e with bound := raiseBound e.bound (Exact.pow2 weight), sticky := e.sticky ||| 1 }
/-- ShiftDown (R155). -/
def Elem.shiftDown (e : Elem) (n : Nat) (weight : Int) : Elem :=
  let p : Int := ((2 ^ n : Nat) : Int)
  let r := { e with w := e.w / p }
  if e.w % p ≠ 0 then r.drop weight else r
/-- AddWelt in `bits` bits: saturation sets OVF, and the bound of a Welt-256 element becomes +∞ (R101, R155). -/
def Elem.addWelt (e : Elem) (bits : Nat) (q : Int) : Elem :=
  let lim : Int := ((2 ^ (bits - 1) : Nat) : Int)
  let w := e.w + q
  if -lim ≤ w && w < lim then { e with w := w }
  else { e with w := if w < 0 then -lim else lim - 1, bound := if bits = 256 then inf64 else e.bound, sticky := e.sticky ||| 2 }
/-- Recombine for one element of a Welt-256 tile: old anchors ar, ac; panel exponents e, f; the sum in units of 2^(−14·S). -/
def recombineElem (s : Nat) (full : Bool) (ar ac e f part : Int) (tag : Nat) (x : Elem) : Elem :=
  let ar1 := max ar e
  let ac1 := max ac f
  let x := if ar < e then x.shiftDown (e - ar).toNat (ar1 + ac - 192) else x
  let x := if ac < f then x.shiftDown (f - ac).toNat (ar1 + ac1 - 192) else x
  if tag ≠ 0 then x
  else
    let q := (Exact.ofInt part).scale (e + f - 14 * s - (ar1 + ac1 - 192))
    let x := x.addWelt 256 q.floor
    let x := if (q.num % (q.den : Int)) ≠ 0 then x.drop (ar1 + ac1 - 192) else x
    { x with bound := raiseBound x.bound (((sliceBeta s full).scale 7).scale (e + f)) }

/-! ### Special tags (R102, R159) -/

def tagOf (v : FVal) : Nat := match v with | .nan _ => 3 | .inf false => 1 | .inf true => 2 | _ => 0
def isSpecialVal (v : FVal) : Bool := tagOf v ≠ 0
/-- The tag of a K-step's sum of products. -/
def dotTag (a b : List FVal) : Nat := (a.zip b).foldl (fun t p => joinTag t (tagOf (fpMul p.1 p.2).1)) 0
/-- SpecialTags(tile, panel): rows of A, columns of B. -/
def specialTags (t : Tile) (a b : List (List FVal)) : Tile :=
  let ra := a.map fun r => r.any isSpecialVal
  let cb := b.map fun r => r.any isSpecialVal
  let tag (k : Nat) : Nat :=
    if ra.getD (k / 128) false || cb.getD (k % 128) false then
      joinTag (t.tag k) (dotTag (a.getD (k / 128) []) (b.getD (k % 128) []))
    else t.tag k
  let tags := grid 0 tag
  { t with tags := tags, w := t.w.filter (fun e => spGet 0 tags e.1 = 0),
           sticky := t.sticky ||| (if tags = [] then 0 else 4) }

/-! ### ASSIST (R161) -/

/-- Nonzero and below 2^−1022 in magnitude. -/
def needsAssist (v : Exact) : Bool := !v.isZero && Exact.lt v.abs (Exact.pow2 (-1022))
def markAssist (t : Tile) : Tile :=
  if gridKeys.any fun k => t.tag k = 0 && needsAssist (t.value k) then { t with sticky := t.sticky ||| 8 } else t

/-! ### K-steps (R178) -/

/-- Put updated elements back. -/
def putElems (t : Tile) (f : Nat → Elem) : Tile :=
  { t with w := grid 0 fun k => (f k).w, bounds := grid t.bound0 fun k => (f k).bound,
           sticky := gridKeys.foldl (fun s k => s ||| (f k).sticky) t.sticky }
def Tile.elem (t : Tile) (k : Nat) : Elem := { w := t.welt k, bound := t.bound k }
def putAnchors (f : Nat → Int) : List (Nat × Int) :=
  (List.range 128).filterMap fun i => if f i = -32768 then none else some (i, f i)
/-- Recombine (R155). -/
def recombine (t : Tile) (s : Nat) (full : Bool) (e f : List Int) (part : Nat → Int) : Tile :=
  let upd (k : Nat) : Elem :=
    recombineElem s full (t.arow (k / 128)) (t.acol (k % 128)) (e.getD (k / 128) (-1074)) (f.getD (k % 128) (-1074)) (part k)
      (t.tag k) (t.elem k)
  { putElems t upd with ar := putAnchors fun i => max (t.arow i) (e.getD i (-1074)),
                        ac := putAnchors fun j => max (t.acol j) (f.getD j (-1074)) }
/-- A K-step of MMS: rows of A and columns of B as values. -/
def stepSliced (t : Tile) (s : Nat) (full : Bool) (a b : List (List FVal)) : Tile :=
  let e := a.map panelExponent
  let f := b.map panelExponent
  let cut (x : List FVal × Int) : List (List Int) := (List.range s).map fun k => x.1.map fun v => sliceDigit v x.2 k
  let da := (a.zip e).map cut
  let db := (b.zip f).map cut
  let t := specialTags t a b
  markAssist (recombine t s full e f fun k => partialSum s full (da.getD (k / 128) []) (db.getD (k % 128) []))

/-- One row or column of a panel for MMX and MMI: element values without their scale, and the four blocks' E8M0 scales. -/
structure BlockRow where
  vals : List FVal
  scales : List Nat
  deriving DecidableEq, Repr

/-- The values with their scales, as R159 sees them: a scale of 0xFF makes its 32 elements NaN. -/
def BlockRow.special (r : BlockRow) : List FVal :=
  (List.range 128).map fun k => if r.scales.getD (k / 32) 127 = 255 then .nan false else r.vals.getD k (.zero false)
/-- The exact sum of one block's 32 finite products (R152), the window's discarded bits taken off toward −∞ when `window` is set;
with the weight exponent of the window if bits were lost. -/
def blockSum (window : Bool) (a b : BlockRow) (blk : Nat) : Exact × Option Int :=
  let ps := (List.range 32).map fun i =>
    match (fpMul (a.vals.getD (32 * blk + i) (.zero false)) (b.vals.getD (32 * blk + i) (.zero false))).1 with
    | .fin x => x
    | _ => ⟨0, 1⟩
  let sum := Exact.sumL ps
  let nz := ps.filter fun x => !x.isZero
  match window, nz with
  | true, p :: rest =>
    let lo := rest.foldl (fun m x => max m x.log2) p.log2 - 41
    let q := sum.scale (-lo)
    let fl := (Exact.ofInt q.floor).scale lo
    (fl, if Exact.eq fl sum then none else some lo)
  | _, _ => (sum, none)
/-- A K-step of MMX (`window`) or MMI for one element with tag 0. DEDUCED (log 55): where the K-step makes the element special, a
non-finite product counts as 0 in its block's sum, a block with a 0xFF scale is skipped, and the other blocks still raise the bound
and set DROP and OVF (R159). -/
def blockElem (window : Bool) (anc : Int) (a b : BlockRow) (x : Elem) : Elem :=
  (List.range 4).foldl (fun x blk =>
    let sa := a.scales.getD blk 127
    let sb := b.scales.getD blk 127
    if sa = 255 || sb = 255 then x
    else
      let r := blockSum window a b blk
      let x := match r.2 with | some lo => x.drop lo | none => x
      let q := r.1.scale ((sa : Int) + sb - 254 - anc)
      let x := x.addWelt 64 q.floor
      if (q.num % (q.den : Int)) ≠ 0 then x.drop anc else x) x
/-- A K-step of MMX or MMI. -/
def stepBlocks (t : Tile) (window : Bool) (a b : List BlockRow) : Tile :=
  let zero : BlockRow := ⟨[], []⟩
  let upd (k : Nat) : Elem :=
    if t.tag k ≠ 0 then t.elem k else blockElem window t.anc (a.getD (k / 128) zero) (b.getD (k % 128) zero) (t.elem k)
  markAssist (specialTags (putElems t upd) (a.map BlockRow.special) (b.map BlockRow.special))

/-! ### Outputs (Table 6-2) -/

/-- Bits of an element under output code `fmt` (Table 7-7), and the low half of f64x2. -/
def outBits (t : Tile) (fmt mode k : Nat) : Nat × Nat :=
  match fmt with
  | 1 =>
    let hi := (roundTo f64 1 (t.fval k)).1
    (hi, if t.tag k = 0 && isFinite f64 hi then to64 1 ((t.value k).sub (exactOf f64 hi)) else 0)
  | 6 => (if t.tag k = 0 then (roundTo f32 3 (fpDecode f64 (t.bound k))).1 else 0, 0)
  | _ => ((roundTo (fmtOf (match fmt with | 2 => 10 | 3 => 9 | 4 => 8 | _ => 11)) mode (t.fval k)).1, 0)
/-- An element whose output needs the assist (R161). -/
def outAssist (t : Tile) (fmt k : Nat) : Bool :=
  t.tag k = 0 && ((fmt = 0 || fmt = 1) && needsAssist (t.value k)
    || (fmt = 1 && (let hi := (roundTo f64 1 (t.fval k)).1
                    isFinite f64 hi && needsAssist ((t.value k).sub (exactOf f64 hi)))))

end Sys2Proof.Machine
end

