-- ==== Sys2Proof/Machine/Matrix.lean ====
section
/-! DEFINITION. Matrix.lean: the matrix and accumulator instructions (07): checks at issue (Table 7-2), tokens, waits, status,
ACRD and SLICE; and the engine's events (06): PASS_GRANT, K_STEP_COMMIT, TRANSFER_COMPLETE. -/

namespace Sys2Proof.Machine

/-! ### Operations on tiles -/

/-- MMS, MMX or MMI. -/
def MatOp.multiplies (o : MatOp) : Bool := o.kind ≤ 3
def slotsFor (w64 : Bool) : Nat := if w64 then 1 else 4
def slotsMeet (a na b nb : Nat) : Bool := a < b + nb && b < a + na
def MatOp.meets (o : MatOp) (tile : Nat) (w64 : Bool) : Bool := slotsMeet o.tile (slotsFor o.w64) tile (slotsFor w64)
/-- A block's outstanding operations, in order of issue. -/
def matOpsOf (s : State) (b : Nat) : List (Nat × MatOp) := s.matOps.filter fun e => e.2.block = b
/-- Tiles are ended by one that overlaps them. -/
def endTiles {α : Type} (w64Of : α → Bool) (l : List (Nat × α)) (tile : Nat) (w64 : Bool) : List (Nat × α) :=
  l.filter fun e => !slotsMeet e.1 (slotsFor (w64Of e.2)) tile (slotsFor w64)
/-- The tiles established in a block's slots as its issues see them: those that stand, then each outstanding ACZ and ACLD in
order of issue; a stopped ACLD leaves no tile (R171, R181). -/
def established (s : State) (b : Nat) : List (Nat × Bool) :=
  (matOpsOf s b).foldl (fun l e =>
    if e.2.kind = 4 || e.2.kind = 5 then
      let l := endTiles id l e.2.tile e.2.w64
      if e.2.fault.isSome then l else spPut l e.2.tile e.2.w64
    else l) ((s.blk b).tiles.map fun e => (e.1, e.2.w64))
/-- An operation owns its tile from its issue until it completes or stops (R163). -/
def MatOp.owns (o : MatOp) : Bool := o.multiplies && o.fault.isNone
/-- The operation status word (Table 6-3). -/
def MatOp.status (o : MatOp) (done : Bool) : Nat :=
  o.s + (if o.short then 16 else 0) + (if o.full then 32 else 0) + (if done then 64 else 0)
  + (if o.fault.isSome then 128 else 0) + o.kstep % 2 ^ 16 * 2 ^ 16 + o.row * 2 ^ 32
/-- Every earlier operation on the tile has completed (R172), and the engine neither is frozen nor waits for an assist. -/
def MatOp.ready (s : State) (o : MatOp) : Bool :=
  !o.frozen && !o.assist && o.fault.isNone && !((matOpsOf s o.block).any fun e => e.2.seq < o.seq && e.2.meets o.tile o.w64)
def State.setMat (s : State) (k : Nat) (o : MatOp) : State := { s with matOps := spPut s.matOps k o }
/-- The tile that stands in a slot; before the first commit there, one whose words read 0 (log 56). -/
def tileAt (s : State) (b tile : Nat) : Tile := (spFind (s.blk b).tiles tile).getD {}
/-- The status word of a tile as of the last commit made (R167, R188): that of the first operation outstanding on it if it is a
multiplication, else the one that stands with the tile. -/
def tileStatus (s : State) (b tile : Nat) : Nat :=
  match (matOpsOf s b).find? fun e => e.2.tile = tile && e.2.kind ≠ 6 with
  | some e => if e.2.multiplies then e.2.status false else (tileAt s b tile).status
  | none => (tileAt s b tile).status

/-! ### Waiting (R187) -/

/-- The outstanding operations that a token waits for: those of its tile issued at or before it. -/
def tokenOps (s : State) (b tok : Nat) : List (Nat × MatOp) :=
  let n := (s.blk b).matSeq
  let age := (n + 2 ^ 24 - 1 - natBits tok 31 8) % 2 ^ 24
  if 2 ^ 23 ≤ age then [] else (matOpsOf s b).filter fun e => e.2.tile = natBits tok 4 0 && e.2.seq + age < n
/-- A matrix token that MWAIT takes. -/
def matToken (o : FmtE) : M Nat := do
  let s ← get
  let t := readK s.seen (o.a.toNat - 0x100)
  need (t < 2 ^ 32 && natBits t 7 5 ≠ 0 && natBits t 7 5 ≠ 7 && natBits t 4 0 < (s.blk s.me.block).acc)
    { cause := 0x0B, addr := t, mask := s.me.resident, tok := t }
  checkPoison true (use1 o.a) [0]
  pure t
/-- Wait for operations: the trap of a stopped one, else a stall while any is outstanding. -/
def waitMat (l : List (Nat × MatOp)) : M Unit := do
  let s ← get
  match l.findSome? fun e => e.2.fault with
  | some t => trapM { t with mask := s.me.resident }
  | none => if l = [] then pure () else stallM
/-- MWAIT (R187). -/
def execMwait (o : FmtE) (s : State) : Host.Outcome State Fault Refusal :=
  finish (guarded o do
    let t ← matToken o
    let s ← get
    waitMat (tokenOps s s.me.block t)) s
/-- The answer of MWAIT.test: nothing outstanding, or an operation stopped. -/
def matTested (s : State) (t : Nat) : Bool :=
  let l := tokenOps s s.me.block t
  l = [] || l.any fun e => e.2.fault.isSome
/-- MWAIT.test (R187). -/
def execMwaitTest (o : FmtE) (s : State) : Host.Outcome State Fault Refusal :=
  finish (guarded o do
    let t ← matToken o
    upd fun s => s.updMe fun x =>
      let x := latchRes x o.h 3 0 (if matTested s t then 1 else 0)
      if o.h.s then x else setG x (WF.ef o 2 0) (matTested s t)) s
/-- The outstanding operations that MWAIT.all waits for: on the group's own tiles, up to its latest there. -/
def ownMat (s : State) : List (Nat × MatOp) :=
  let own := (matOpsOf s s.me.block).filter fun e => e.2.g = s.cur.g && e.2.uid = s.me.uid
  (matOpsOf s s.me.block).filter fun e => own.any fun x => x.2.tile = e.2.tile && e.2.seq ≤ x.2.seq
/-- MWAIT.all (R187): every operation the group itself issued. -/
def execMwaitAll (o : FmtE) (s : State) : Host.Outcome State Fault Refusal :=
  finish (guarded o do
    let s ← get
    waitMat (ownMat s)) s

/-! ### Completion -/

/-- An operation is over: it leaves the machine; operations of no K-step that it held complete too (R177). -/
def matDone (s : State) (k : Nat) (o : MatOp) : State :=
  let s := { s with matOps := spDel s.matOps k }
  if !o.multiplies then s
  else s.updBlk o.block fun b =>
    { b with tiles := b.tiles.map fun e => if e.1 = o.tile then (e.1, { e.2 with status := o.status true }) else e }
def settleEmpty (s : State) (b : Nat) : Nat → State
  | 0 => s
  | k + 1 =>
    match (matOpsOf s b).find? fun e => e.2.multiplies && e.2.n = 0 && e.2.ready s with
    | some e => settleEmpty (matDone s e.1 e.2) b k
    | none => s
def completeMat (s : State) (k : Nat) (o : MatOp) : State :=
  let s := matDone s k o
  settleBlock (settleEmpty s o.block (matOpsOf s o.block).length) o.block
/-- A fault stops the operation at a row; with its group gone the fault domain is told (R165, R173). -/
def stopMat (s : State) (k : Nat) (o : MatOp) (row : Nat) (f : Fail) : State :=
  let o := { o with row := row, fault := some { cause := 0x13 } }
  let t : Trap := {
    cause := 0x13, wait := true, addr := f.2, rec_ := if o.multiplies && 128 ≤ row then o.brec else o.arec, prog := o.status false,
    tok := o.token, ipc := some o.ipc }
  let s := s.setMat k { o with fault := some t }
  if s.sameGrp o.g o.uid then s
  else domFaultAt s o.core o.ctx (s.lch (s.blk o.block).launch).region { t with wait := false, pc := some o.ipc }

/-! ### Operands (R164, R174, R175) -/

/-- Bytes of a weight-store range of a block, within its region's window. -/
def wsRead (s : State) (ck b a n : Nat) : Except Fail (List Byte) :=
  let r := Launch.reg s (s.lch (s.blk b).launch)
  let pa := wsAddr (coreDie ck) (r.wsbase * 2 ^ 23 + a)
  if r.wsbanks * 2 ^ 23 < a + n then .error (cProt, a)
  else if rangePoisoned s pa n then .error (cPoison, a) else .ok (homeBytes s pa n)
/-- A range of space `spc`: gl, sp or ws. -/
def spaceRead (s : State) (o : MatOp) (spc a n : Nat) : Except Fail (List Byte) :=
  match spc with
  | 0 => readRange s (xlCore s o.core o.ctx needR) a n
  | 1 => if spPoisoned (s.blk o.block) a n then .error (cPoison, a) else .ok (spRead (s.blk o.block) a n)
  | _ => wsRead s o.core o.block a n
/-- The range may be read now: its scratchpad lines are full (R232), its weight-store lines in no refreshing bank (R240). -/
def spaceOpen (s : State) (o : MatOp) (spc a n : Nat) : Bool :=
  match spc with
  | 0 => true
  | 1 => (chunksOf a n).all fun c => lineFull (s.blk o.block) (c.1 / 128)
  | _ => !rangeWaits s (coreDie o.core) (wsAddr (coreDie o.core) ((Launch.reg s (s.lch (s.blk o.block).launch)).wsbase * 2 ^ 23 + a)) n
/-- The home answers reads of a gl range once no invalidation of its lines is outstanding (R256). -/
def spaceSettle (s : State) (o : MatOp) (spc a n : Nat) : State :=
  if spc = 0 then settleRange s (xlCore s o.core o.ctx needR) a n else s
def spaceWrite (s : State) (o : MatOp) (spc a : Nat) (bs : List Byte) : Except Fail State :=
  match spc with
  | 1 => .ok (s.updBlk o.block fun b => spWrite b a bs)
  | 0 => do
    let ps ← xlatRange (xlCore s o.core o.ctx needW) a bs.length
    pure (writeParts (dropL1Range s o.core ps) ps bs)
  | _ =>
    let r := Launch.reg s (s.lch (s.blk o.block).launch)
    if r.wsbanks * 2 ^ 23 < a + bs.length then .error (cProt, a)
    else
      let ps := chunksOf (wsAddr (coreDie o.core) (r.wsbase * 2 ^ 23 + a)) bs.length
      .ok (writeParts (dropL1Range s o.core ps) ps bs)
/-- Where byte k of dim1 index i lies: swizzled in the scratchpad only. -/
def opdAt (r : Shape) (spc i k : Nat) : Nat :=
  let p := (r.strideN 1).toNat
  if spc = 1 then swizzleOffset r.q p r.xlo r.xn r.base i k else r.base + i * p + k
/-- Elements of panel p inside dimension 0. -/
def panelLen (r : Shape) (p : Nat) : Nat := min 128 (r.dimN 0 - 128 * p)
/-- A row of an operand in the current K-step: its record, space, dim1 index, panel. Rows 0 to 127 are A's, 128 to 255 B's. -/
structure RowOf where
  r : Shape
  spc : Nat
  i : Nat
  p : Nat
  deriving DecidableEq, Repr
def MatOp.rowOf (o : MatOp) (k : Nat) : RowOf :=
  if k < 128 then ⟨o.a, o.aspc, o.arow + k, o.akp + o.kstep⟩ else ⟨o.b, o.bspc, o.bcol + (k - 128), o.bkp + o.kstep⟩
/-- Elements of the row inside its record; what lies outside is not fetched and reads as zero. -/
def RowOf.len (x : RowOf) : Nat := if x.i < x.r.dimN 1 then panelLen x.r x.p else 0
/-- The ranges that hold the row's elements: one, or in the scratchpad one for each swizzled unit of 16 bytes. -/
def RowOf.elems (x : RowOf) : List (Nat × Nat) :=
  let len := x.len * x.r.bits / 8
  let at_ := 128 * x.p * x.r.bits / 8
  if len = 0 then []
  else if x.spc = 1 then (List.range ((len + 15) / 16)).map fun k => (opdAt x.r 1 x.i (at_ + 16 * k), min 16 (len - 16 * k))
  else [(opdAt x.r x.spc x.i at_, len)]
def RowOf.scales (x : RowOf) : List (Nat × Nat) :=
  if x.r.block && x.len ≠ 0 then [(x.r.mxptr + x.i * (x.r.dimN 0 / 32) + 4 * x.p, x.len / 32)] else []
/-- Every byte of the row may be read now. -/
def MatOp.rowOpen (s : State) (o : MatOp) (k : Nat) : Bool :=
  ((o.rowOf k).elems ++ (o.rowOf k).scales).all fun c => spaceOpen s o (o.rowOf k).spc c.1 c.2
/-- One row is fetched: the bytes of its elements, and of its scales. -/
def MatOp.fetchRow (s : State) (o : MatOp) (k : Nat) : Except Fail (List Byte × List Byte) := do
  let x := o.rowOf k
  let bs ← x.elems.mapM fun c => spaceRead s o x.spc c.1 c.2
  let sc ← x.scales.mapM fun c => spaceRead s o x.spc c.1 c.2
  pure (bs.flatten, sc.flatten)
/-- The 128 element codes and 4 scales of a fetched row. -/
def rowCodes (r : Shape) (x : List Byte × List Byte) : List Nat × List Nat :=
  let v := bytesNat x.1
  ((List.range 128).map (fun k => v / 2 ^ (r.bits * k) % 2 ^ r.bits),
   (List.range 4).map fun b => if r.block then (x.2.map (·.toNat)).getD b 0 else 127)
/-- A row that may be read now is fetched into the operand buffer; a row already there is read again in part (R164). -/
def fetchInto (s : State) (op k : Nat) : State :=
  match spFind s.matOps op with
  | none => s
  | some o =>
    if !(o.multiplies && o.kstep < o.n && k < 256 && o.ready s && o.rowOpen s k) then s
    else
      let s := (o.rowOf k).elems.foldl (fun s c => spaceSettle s o (o.rowOf k).spc c.1 c.2) s
      match o.fetchRow s k with
      | .error _ => s
      | .ok x =>
        match spFind o.buf k with
        | none => s.setMat op { o with buf := spPut o.buf k x }
        | some y =>
          let r := s.fresh
          r.2.setMat op { o with buf := spPut o.buf k (mixBytes r.1 y.1 x.1, mixBytes (r.1 / 2 ^ 64) y.2 x.2) }
/-- The rows of both panels, those in the buffer first: all of them, or those before the one that failed and the failure. -/
def MatOp.fetchRows (s : State) (o : MatOp) : List (Nat × (List Byte × List Byte)) × Option (Nat × Fail) :=
  (List.range 256).foldl (fun r k =>
    match r.2, spFind o.buf k with
    | some _, none => r
    | _, some x => (r.1 ++ [(k, x)], r.2)
    | none, none =>
      match o.fetchRow s k with
      | .ok x => (r.1 ++ [(k, x)], none)
      | .error e => (r.1, some (k, e))) ([], none)
/-- The value of an element code without its scale (R83, R97, R98). -/
def codeVal (ety code : Nat) : FVal :=
  if ety = 11 then fpDecode f64 code
  else if ety = 0x10 then fpDecode (fmtOf 12) code
  else if ety = 0x11 then fpDecode (fmtOf 13) code
  else
    let w := etypeBits ety
    let e : Int := if ety = 4 then 0 else 2 - (w : Int)
    finOr false ((Exact.ofInt (signedNat w code)).scale e)
def blockRow (ety : Nat) (x : List Nat × List Nat) : BlockRow := { vals := x.1.map (codeVal ety), scales := x.2 }
/-- The element types of Table 7-3. -/
def matType (kind : Nat) (isA : Bool) (e : Nat) : Bool :=
  match kind with
  | 1 => e = 11
  | 2 => e = 0x10 || e = 0x11
  | _ => e = 4 || e = 0x12 || (!isA && 0x22 ≤ e && e ≤ 0x27)
/-- The requirements of Table 7-3 and R174 but for the element type. -/
def matShape (bs : List Byte) (r : Shape) (spc : Nat) : Bool :=
  shapeBase bs r && r.kind = 0 && r.rank = 2 && r.base % 64 = 0 && r.strideN 1 % 64 = 0
  && ((r.dimN 0 * r.bits / 8 : Nat) : Int) ≤ r.strideN 1
  && (if r.block then r.mxptr ≠ 0 && r.mxptr % 64 = 0 else r.mxptr = 0)
  && (spc ≠ 1 || r.xn = 0 || ((r.strideN 1).toNat % (r.q * 2 ^ r.xn) = 0 && r.base % 128 = 0))
/-- The scratchpad bytes of an operand's n panels (check 7): the rows from i0 and the panels from p0. -/
def opdBytes (r : Shape) (i0 p0 n : Nat) : List Nat :=
  (List.range (min 128 (r.dimN 1 - i0))).flatMap fun d =>
    let lo := 128 * p0 * r.bits / 8
    let hi := min (r.dimN 0) (128 * (p0 + n)) * r.bits / 8
    ((List.range (hi - lo)).map fun k => opdAt r 1 (i0 + d) (lo + k))
    ++ (if r.block then (List.range (min (r.dimN 0) (128 * (p0 + n)) / 32 - 4 * p0)).map fun b =>
          r.mxptr + (i0 + d) * (r.dimN 0 / 32) + 4 * p0 + b else [])

/-! ### Checks at issue (Table 7-2) -/

def shapeAt (s : State) (addr : Nat) : Trap := { cause := 0x0B, addr := addr, mask := s.me.resident }
/-- Check 1: every resident thread is active, in one plane. -/
def convergedGroup (x : Group) : Bool := x.live = x.resident && (occupied x).length ≤ 1
def engineConverged : M Unit := do
  let s ← get
  need (convergedGroup s.me) { cause := 0x06, mask := s.me.resident }
/-- Check 3 for a tile that the operation writes: no operation owns it but, for a multiplication, one of its own group. -/
def tileFree (s : State) (multiplies : Bool) (tile : Nat) (w64 : Bool) : Bool :=
  !((matOpsOf s s.me.block).any fun e =>
      e.2.owns && e.2.meets tile w64 && !(multiplies && e.2.g = s.cur.g && e.2.uid = s.me.uid))
def checkOwner (multiplies : Bool) (tile : Nat) (w64 : Bool) : M Unit := do
  let s ← get
  need (tileFree s multiplies tile w64) { cause := 0x0D, mask := s.me.resident }
/-- Check 7 for a list of scratchpad bytes. -/
def checkSp (bytes : List Nat) : M Unit := do
  let s ← get
  match bytes.find? fun a => (s.blk s.me.block).spSize ≤ a with
  | some a => uniTrap 0x0C a
  | none => pure ()
/-- Check 8. -/
def checkWsWriter (o : MatOp) : M Unit := do
  let s ← get
  need (!(o.kind = 6 && o.aspc = 2) || (s.grpLch s.cur.g).flag 4) { cause := 0x16, addr := o.arec, mask := s.me.resident }
/-- Entries of a quadrille's reservation table (R151), and of a core's transfer queue (R172). -/
def tableEntries (s : State) (quad : Nat) : Nat :=
  (s.matOps.filter fun e => quadOf e.2.core = quad && e.2.owns && !e.2.frozen).length
def queueEntries (s : State) (ck : Nat) : Nat :=
  (s.matOps.filter fun e => e.2.core = ck && !e.2.multiplies && !e.2.frozen).length
/-- The quadrille's reservation table, or the core's transfer queue, has room (check 9). -/
def matRoom (s : State) (o : MatOp) : Bool :=
  let ck := placeCore s.cur.g
  if o.multiplies then tableEntries s (quadOf ck) < 32 else queueEntries s ck < 8
/-- The number of the next entry into a table, and an operation that enters behind every other (R151). -/
def nextEntry (s : State) : Nat := s.matOps.foldl (fun n e => max n (e.2.entered + 1)) 0
def enterTable (s : State) (o : MatOp) : State := s.setMat (spFresh s.matOps) { o with w := 0, entered := nextEntry s }
/-- The operation enters with its token; one of no K-step may complete at once (R177). -/
def queueMat (e : FmtE) (o : MatOp) (s : State) : State :=
  let b := s.me.block
  let seq := (s.blk b).matSeq
  let token := o.tile + o.kind * 2 ^ 5 + seq % 2 ^ 24 * 2 ^ 8
  let s := s.updBlk b fun x => { x with matSeq := x.matSeq + 1 }
  let s := enterTable s { o with seq := seq, token := token }
  let s := putK e 3 token s
  settleEmpty s b (matOpsOf s b).length
/-- Check 9 and the issue. -/
def enterMat (i : Instr) (e : FmtE) (o : MatOp) : M Unit := do
  let s ← get
  checkPoison true (readsOf i ++ parUses (s.cur.par.getD []) i) [0]
  if matRoom s o then upd (queueMat e o) else stallM
/-- What every operation of the issuing group holds. -/
def newMat (s : State) (kind : Nat) (i : Instr) : MatOp :=
  let par := s.cur.par.getD []
  { kind := kind, block := s.me.block, core := placeCore s.cur.g, g := s.cur.g, uid := s.me.uid, ctx := s.ctxOf s.cur.g, tile := 0,
    ipc := (s.cur.off, s.cur.plane), slot := (encode i).getD 0, par := par }

/-! ### MMS, MMX and MMI (R176 to R178) -/

/-- The k registers that a multiplication reads, in field order: those of the slot, then those of the parameter words. -/
def mmRegs (o : FmtE) (par : List Slot) (i : Instr) : List Nat :=
  let k (f : BitVec 10) : List Nat := if WF.isK f then [f.toNat - 0x100] else []
  if par = [] then k o.a ++ k (WF.efF o 43) ++ k (WF.efF o 22) ++ (if WF.ef o 21 12 = 0 then [] else k (WF.efF o 12))
  else k (WF.efF o 43) ++ k (WF.efF o 33) ++ parRegs par i
/-- The operation that a slot, its parameter words and its register values describe (Tables 7-4 and 7-5), without its records:
used at issue and by MRESTORE. `sq` and `short` are the slice count and shortfall bit where they are already chosen. -/
def mmFields (o : FmtE) (par : List Slot) (rd : Nat → Nat) (base : MatOp) : MatOp :=
  let kf (f : BitVec 10) : Nat := rd (f.toNat - 0x100)
  let inl := par ≠ []
  let p0 := par.getD 0 0
  let p1 := par.getD 1 0
  let s := if inl then bitsNat p1 24 21 else WF.ef o 37 34
  let full := if inl then p1.getLsbD 25 else WF.ef o 33 33 = 1
  let tau := if inl then rd (bitsNat p1 37 32) else kf (WF.efF o 12)
  let pick := if base.kind ≠ 1 then (0, false) else if s = 0 then chooseSlices tau full else (s, false)
  let ns := WF.efF o 22
  let at_ (g : Nat) : Nat := if inl then substBy rd p0 g else 0
  { base with
    tile := if inl then bitsNat p1 20 16 else WF.ef o 42 38
    w64 := base.kind ≠ 1
    arec := kf (if inl then WF.efF o 33 else o.a), brec := kf (WF.efF o 43)
    aspc := WF.ef o 11 10, bspc := WF.ef o 9 8
    arow := at_ 0, akp := at_ 1, bcol := at_ 2, bkp := at_ 3
    n := if inl then substBy rd p1 0 else if WF.isK ns then kf ns % 2 ^ 16 else (WF.immVal ns).toNat
    s := pick.1, short := pick.2, full := full, urg := if inl then p1.getLsbD 26 else WF.ef o 32 32 = 1 }
/-- The operation that MMS, MMX or MMI issues, its records still to be read. -/
def mmOf (kind : Nat) (i : Instr) (o : FmtE) (s : State) : MatOp :=
  let base := newMat s kind i
  mmFields o base.par (readK s.seen) { base with regs := (mmRegs o base.par i).map (readK s.seen) }
/-- The frame of MMS, MMX and MMI. Where both records fail the same check of Table 7-2, A's is reported (R170; DEDUCED, log 92). -/
def mmCore (kind : Nat) (i : Instr) (o : FmtE) : M Unit :=
  guarded o do
    engineConverged
    let s ← get
    let op := mmOf kind i o s
    need (spFind (established s op.block) op.tile = some (kind != 1)) (shapeAt s 0)
    checkOwner true op.tile op.w64
    need (op.arec % 64 = 0) (shapeAt s op.arec)
    need (op.brec % 64 = 0) (shapeAt s op.brec)
    let ab ← fetchRecord op.arec
    let bb ← fetchRecord op.brec
    let ra := shapeOf ab
    let rb := shapeOf bb
    need (matShape ab ra op.aspc && matType kind true ra.etype) (shapeAt s op.arec)
    need (matShape bb rb op.bspc && matType kind false rb.etype) (shapeAt s op.brec)
    if op.aspc = 1 then checkSp (opdBytes ra op.arow op.akp op.n)
    if op.bspc = 1 then checkSp (opdBytes rb op.bcol op.bkp op.n)
    enterMat i o { op with a := ra, b := rb }
def execMms (o : FmtE) (s : State) : Host.Outcome State Fault Refusal := finish (mmCore 1 (.mms o) o) s
def execMmx (o : FmtE) (s : State) : Host.Outcome State Fault Refusal := finish (mmCore 2 (.mmx o) o) s
def execMmi (o : FmtE) (s : State) : Host.Outcome State Fault Refusal := finish (mmCore 3 (.mmi o) o) s

/-! ### ACZ, ACLD and ACST (R179 to R183) -/

/-- ACZ (R180). -/
def aczFields (o : FmtE) (rd : Nat → Nat) (base : MatOp) : MatOp :=
  let f := WF.efF o 37
  { base with tile := WF.ef o 52 48, w64 := WF.ef o 47 47 = 1,
              anc := if WF.isK f then signedNat 16 (rd (f.toNat - 0x100)) else if WF.isImm f then WF.immVal f else 0 }
def aczRegs (o : FmtE) : List Nat := if WF.isK (WF.efF o 37) then [WF.ef o 46 37 - 0x100] else []
def aczOf (o : FmtE) (s : State) : MatOp :=
  aczFields o (readK s.seen) { newMat s 4 (.acz o) with regs := (aczRegs o).map (readK s.seen) }
def aczCore (o : FmtE) : M Unit :=
  guarded o do
    engineConverged
    let s ← get
    let op := aczOf o s
    checkOwner false op.tile op.w64
    enterMat (.acz o) o op
def execAcz (o : FmtE) (s : State) : Host.Outcome State Fault Refusal := finish (aczCore o) s
/-- ACLD (R181). -/
def acldFields (o : FmtE) (rd : Nat → Nat) (base : MatOp) : MatOp :=
  { base with tile := WF.ef o 52 48, w64 := WF.ef o 47 47 = 1, aspc := WF.ef o 33 32, arec := rd (o.a.toNat - 0x100) }
def acldOf (o : FmtE) (s : State) : MatOp :=
  acldFields o (readK s.seen) { newMat s 5 (.acld o) with regs := [readK s.seen (o.a.toNat - 0x100)] }
def acldCore (o : FmtE) : M Unit :=
  guarded o do
    engineConverged
    let s ← get
    let op := acldOf o s
    checkOwner false op.tile op.w64
    need (op.arec % 64 = 0) (shapeAt s op.arec)
    let tr := op.arec + rawTrailer op.w64
    if !spaceOpen s op op.aspc tr 64 then stallM
    upd fun s => spaceSettle s op op.aspc tr 64
    let s ← get
    let bs ← match spaceRead s op op.aspc tr 64 with
      | .ok bs => pure bs
      | .error e => do
        uniTrap e.1 e.2
        pure []
    need (trailerOk op.w64 bs) (shapeAt s op.arec)
    if op.aspc = 1 then checkSp ((List.range (rawSize op.w64)).map (op.arec + ·))
    enterMat (.acld o) o op
def execAcld (o : FmtE) (s : State) : Host.Outcome State Fault Refusal := finish (acldCore o) s
/-- ACST (R182). -/
def acstFields (o : FmtE) (par : List Slot) (rd : Nat → Nat) (base : MatOp) : MatOp :=
  let inl := par ≠ []
  let at_ (g : Nat) : Nat := if inl then substBy rd (par.getD 0 0) g else 0
  { base with
    tile := WF.ef o 52 48, fmt := WF.ef o 36 34, aspc := WF.ef o 33 32
    arec := rd ((if inl then WF.efF o 22 else o.a).toNat - 0x100), arow := at_ 0, bcol := at_ 1 }
def acstRegs (o : FmtE) (par : List Slot) : List Nat :=
  ((if par ≠ [] then WF.efF o 22 else o.a).toNat - 0x100) :: parRegs par (.acst o)
/-- The element type of an output record (Table 7-7). -/
def outType (fmt : Nat) : Nat := match fmt with | 0 => 11 | 1 => 11 | 2 => 10 | 3 => 9 | 4 => 8 | _ => 10
/-- The pieces of element (i, j): dim0 index and bits, in bounds. -/
def outPieces (op : MatOp) (t : Tile) (i j : Nat) : List (Nat × Nat) :=
  if op.a.dimN 1 ≤ op.arow + i then []
  else
    let v := outBits t op.fmt op.mode (128 * i + j)
    let c := op.bcol + j
    (if op.fmt = 1 then [(2 * c, v.1), (2 * c + 1, v.2)] else [(c, v.1)]).filter fun p => p.1 < op.a.dimN 0
/-- The bytes that an output record's row i takes (check 7): dim0 indices in bounds. -/
def outBytes (op : MatOp) (r : Shape) : List Nat :=
  let w := r.bits / 8
  let k := if op.fmt = 1 then 2 else 1
  (List.range (min 128 (r.dimN 1 - op.arow))).flatMap fun i =>
    (List.range (w * (min (k * (op.bcol + 128)) (r.dimN 0) - k * op.bcol))).map fun x => opdAt r 1 (op.arow + i) (w * k * op.bcol + x)
/-- Where element k's output bytes go. -/
def outPlaces (op : MatOp) (t : Tile) (k : Nat) : List (Nat × List Byte) :=
  let w := op.a.bits / 8
  (outPieces op t (k / 128) (k % 128)).map fun p => (opdAt op.a op.aspc (op.arow + k / 128) (w * p.1), natBytes w p.2)
/-- The output address of the element an ACST has reached. -/
def assistAddr (s : State) (o : MatOp) : Nat := ((outPlaces o (tileAt s o.block o.tile) o.elem).head?.map (·.1)).getD 0
/-- The operation that ACST issues on a tile of a kind. -/
def acstOf (o : FmtE) (w64 : Bool) (s : State) : MatOp :=
  let base := newMat s 6 (.acst o)
  let base := { base with regs := (acstRegs o base.par).map (readK s.seen), mode := effectiveRm s.me o.h.rm, w64 := w64 }
  acstFields o base.par (readK s.seen) base
def acstCore (o : FmtE) : M Unit :=
  guarded o do
    engineConverged
    let s ← get
    match spFind (established s s.me.block) (WF.ef o 52 48) with
    | none => trapM (shapeAt s 0)
    | some w64 => do
      let op := acstOf o w64 s
      need (op.arec % 64 = 0) (shapeAt s op.arec)
      if op.fmt = 5 then do
        if op.aspc = 1 then checkSp ((List.range (rawSize w64)).map (op.arec + ·))
        checkWsWriter op
        enterMat (.acst o) o op
      else do
        let bs ← fetchRecord op.arec
        let r := shapeOf bs
        need (matShape bs r op.aspc && r.etype = outType op.fmt) (shapeAt s op.arec)
        if op.aspc = 1 then checkSp (outBytes op r)
        checkWsWriter op
        enterMat (.acst o) o { op with a := r }
def execAcst (o : FmtE) (s : State) : Host.Outcome State Fault Refusal := finish (acstCore o) s

/-! ### MSTATR, ACRD and SLICE (R188 to R190) -/

/-- The ACST that a quadrille's handler assists: its token, record and element's address are those of the trap (R161, Table 16-2). -/
def assisted (s : State) (quad : Nat) : Option (Nat × MatOp) :=
  let h := s.handler quad
  if !h.running || bitsNat h.regs.tcause 7 0 ≠ 0x11 then none
  else s.matOps.find? fun e =>
    e.2.assist && quadOf e.2.core = quad && e.2.token = h.regs.ttok.toNat && e.2.arec = h.regs.trec.toNat
    && assistAddr s e.2 = h.regs.taddr.toNat
/-- The block whose tiles ACRD and MSTATR name: the group's, and for the assist routine that of the ACST (R161). -/
def tileBlock (s : State) : Nat :=
  if isControl s.cur.g then ((assisted s (quadOf (placeCore s.cur.g))).map fun e => e.2.block).getD s.me.block else s.me.block
/-- A tile that MSTATR and ACRD may name: the first slot of an established tile (R171). -/
def needTile (tile : Nat) (u : Bool) (ts : List Nat) : M Unit := do
  let s ← get
  need (spFind (established s (tileBlock s)) tile).isSome { cause := 0x0B, mask := runnerMask s u ts }
/-- An ACZ or ACLD is outstanding on the tile. -/
def tileComing (s : State) (b tile : Nat) : Bool := (matOpsOf s b).any fun e => e.2.tile = tile && (e.2.kind = 4 || e.2.kind = 5)
/-- MSTATR (R188): all three from the last commit made on the tile, so with an ACZ or ACLD only queued they are the standing tile's,
and zeros where none has been committed (R156; DEDUCED, log 56). -/
def mstatrCore (o : FmtE) : M Unit :=
  guarded o do
    let tile := WF.ef o 52 48
    needTile tile true []
    upd fun s =>
      let t := tileAt s (tileBlock s) tile
      (putK o 3 (tileStatus s (tileBlock s) tile) s).updMe fun x =>
        setK (setK x (WF.ef o 47 38 - 0x100) t.tileBound) (WF.ef o 37 28 - 0x100) t.sticky
def execMstatr (o : FmtE) (s : State) : Host.Outcome State Fault Refusal := finish (mstatrCore o) s
/-- The words that ACRD writes for element k (Table 7-9). -/
def acrdWords (t : Tile) (ty mode k : Nat) : List Nat :=
  let two (v : Nat) : List Nat := [v % 2 ^ 32, v / 2 ^ 32]
  match ty with
  | 11 => two (roundTo f64 mode (t.fval k)).1
  | 10 => [(roundTo f32 mode (t.fval k)).1]
  | 3 => two (t.bound k)
  | _ =>
    if t.w64 then two (intBits 64 (t.welt k)) ++ [intBits 16 t.anc, t.tag k]
    else
      let w := intBits 256 (t.welt k)
      (List.range 8).map (fun i => w / 2 ^ (32 * i) % 2 ^ 32)
      ++ [intBits 16 (t.arow (k / 128)) + intBits 16 (t.acol (k % 128)) * 2 ^ 16, t.tag k]
/-- The element that a participant of ACRD names. -/
def acrdElem (o : FmtE) (s : State) (t : Nat) : Nat := src32 s false (WF.efF o 38) t % 2 ^ 14
/-- The participants that read a poisoned element (R410, R411, log 82). -/
def acrdBad (o : FmtE) (s : State) (ts : List Nat) : List Nat :=
  ts.filter fun t => spGet false (tileAt s (tileBlock s) (WF.ef o 52 48)).bad (acrdElem o s t)
/-- Each participant's element goes to its registers from K up and to its latch; the tile's K-step count to a k register. -/
def readElems (o : FmtE) (ts : List Nat) (s : State) : State :=
  let tile := WF.ef o 52 48
  let t := tileAt s (tileBlock s) tile
  let kc := natBits (tileStatus s (tileBlock s) tile) 31 16
  let one (x : Group) (tid : Nat) : Group :=
    let ws := acrdWords t o.h.t.toNat (effectiveRm s.me o.h.rm) (acrdElem o s tid)
    let x := ws.zipIdx.foldl (fun x w => setV x (o.k.toNat + w.2) tid w.1) x
    setLatch x o.h.l.toNat tid (ws.getD 0 0 + (if o.h.t.toNat = 10 then 0 else ws.getD 1 0 * 2 ^ 32))
  s.updMe fun x => setK (ts.foldl one x) (WF.ef o 37 28 - 0x100) kc
/-- ACRD (R189). -/
def acrdCore (o : FmtE) : M Unit := do
  let s ← get
  let ts := participants s o.h
  let vi := WF.efF o 38
  let tile := WF.ef o 52 48
  if ts = [] then pure ()
  else do
    checkStale false (use1 vi) ts
    needTile tile false ts
    checkPoison false (use1 vi) ts
    if tileComing s (tileBlock s) tile then stallM
    else do
      need (acrdBad o s ts = []) { cause := cPoison, mask := maskOf fun t => (acrdBad o s ts).contains t }
      upd (readElems o ts)
def execAcrd (o : FmtE) (s : State) : Host.Outcome State Fault Refusal := finish (acrdCore o) s
/-- SLICE.dig: an s32; .head and .tail: f64 bits (R190). Below −1,080 or above 1,100 an exponent acts as that bound does: every
bit of x is then at or above 2^e, or below the digits. -/
def sliceHead (x : Exact) (e : Int) (k : Nat) : Exact :=
  let n := floorScale x (7 * k - e) % 2 ^ (7 * k)
  (Exact.ofInt (if x.isNeg then -(n : Int) else n)).scale (e - 7 * k)
def sliceBits (op x : Nat) (e : Int) (k : Nat) : Nat :=
  let e := max (-1080) (min 1100 e)
  let v := fpDecode f64 x
  match op, v with
  | 0, _ => intBits 32 (sliceDigit v e k)
  | 1, .fin y => (roundTo f64 1 (finOr y.isNeg (sliceHead y e k))).1
  | 1, .zero n => if n then f64.signBit else 0
  | 1, _ => 0
  | _, .fin y => (roundTo f64 1 (finOr y.isNeg (y.sub (sliceHead y e k)))).1
  | _, .nan _ => f64.nan
  | _, _ => x
/-- One runner's SLICE result. -/
def sliceVal (o : FmtE) (s : State) (t : Nat) : Nat :=
  sliceBits o.h.rm.toNat (srcAs s o.h.u 11 o.a t) (signedNat 32 (srcAs s o.h.u 6 (WF.efF o 43) t)) (WF.ef o 42 39)
/-- SLICE (R190). -/
def sliceCore (o : FmtE) : M Unit := do
  let s ← get
  let ts := runners s o.h
  checkSources o.h.u (use2 o.a ++ use1 (WF.efF o 43)) ts
  upd (putEach o (if o.h.rm.toNat = 0 then 6 else 11) (ts.map fun t => (t, sliceVal o s t)))
def execSlice (o : FmtE) (s : State) : Host.Outcome State Fault Refusal := finish (sliceCore o) s

/-! ### The engine's events (R151, R155, R172) -/

/-- Passes of one K-step (R150). -/
def MatOp.needed (o : MatOp) : Nat := if o.kind ≠ 1 then 1 else if o.full then o.s * o.s else o.s * (o.s + 1) / 2
/-- An entry with work ready for the arbiter. -/
def MatOp.wantsPass (s : State) (o : MatOp) : Bool := o.multiplies && o.kstep < o.n && o.passes < o.needed && o.ready s
/-- The arbiter's level (R151). -/
def MatOp.level (s : State) (o : MatOp) : Nat :=
  min 15 ((Launch.reg s (s.lch (s.blk o.block).launch)).prio + (if o.urg then 1 else 0) + o.w / 64)
/-- An entry goes before another: a higher level, or the same and an earlier entry into the table. -/
def MatOp.before (s : State) (a b : MatOp) : Bool :=
  b.level s < a.level s || a.level s = b.level s && a.entered < b.entered
/-- The entry granted next: the highest level, then the one that entered first. -/
def nextGrant (s : State) (quad : Nat) : Option (Nat × MatOp) :=
  s.matOps.foldl (fun best e =>
    if quadOf e.2.core = quad && e.2.wantsPass s then
      match best with
      | some b => if e.2.before s b.2 then some e else best
      | none => some e
    else best) none
/-- One pass for entry k; the other entries' counts rise. -/
def grantPass (s : State) (quad k : Nat) : State :=
  let one (e : Nat × MatOp) : Nat × MatOp :=
    if e.1 = k then (e.1, { e.2 with passes := e.2.passes + 1, w := 0 })
    else if quadOf e.2.core = quad && e.2.owns && !e.2.frozen then (e.1, { e.2 with w := e.2.w + 1 })
    else e
  { s with matOps := s.matOps.map one }
/-- PASS_GRANT (R151). -/
def execPassGrant (quad : Nat) (s : State) : Host.Outcome State Fault Refusal :=
  finish (do
    match nextGrant s quad with
    | none => idleM
    | some e => upd fun s => grantPass s quad e.1) s
/-- Every row of the current panels is in the buffer or may be read now (R232, R240). -/
def panelFull (s : State) (o : MatOp) : Bool := (List.range 256).all fun k => (spFind o.buf k).isSome || o.rowOpen s k
/-- The tile after a K-step over the fetched rows. -/
def MatOp.stepped (o : MatOp) (t : Tile) (rows : List (Nat × (List Byte × List Byte))) : Tile :=
  let codes (k : Nat) : List Nat × List Nat := rowCodes (o.rowOf k).r (spGet ([], []) rows k)
  let ra := (List.range 128).map codes
  let rb := (List.range 128).map fun k => codes (128 + k)
  if o.kind = 1 then
    stepSliced t o.s o.full (ra.map fun x => x.1.map (codeVal 11)) (rb.map fun x => x.1.map (codeVal 11))
  else stepBlocks t (o.kind = 2) (ra.map (blockRow o.a.etype)) (rb.map (blockRow o.b.etype))
/-- A K-step commits: what its buffer lacks of the panels is fetched, its sums are recombined (R155, R165, R178); a fault stops
the operation at the row, the rows before it staying in the buffer. A poisoned element stops it at its row (R410, log 82). -/
def commitStep (s : State) (k : Nat) (o : MatOp) : State :=
  let s := (List.range 256).foldl (fun s i =>
    (o.rowOf i).elems.foldl (fun s c => spaceSettle s o (o.rowOf i).spc c.1 c.2) s) s
  let r := o.fetchRows s
  match r.2 with
  | some e => stopMat s k { o with buf := r.1 } e.1 e.2
  | none =>
    let t := tileAt s o.block o.tile
    match t.bad with
    | e :: _ => stopMat s k { o with buf := r.1 } (e.1 / 128) (cPoison, 0)
    | [] =>
    let s := s.updBlk o.block fun b => { b with tiles := spPut b.tiles o.tile (o.stepped t r.1) }
    let o := { o with kstep := o.kstep + 1, passes := 0, buf := [], row := if o.kstep + 1 = o.n then 255 else 0 }
    if o.kstep < o.n then s.setMat k o else completeMat s k o
/-- K_STEP_COMMIT (R155). -/
def execKStepCommit (op : Nat) (s : State) : Host.Outcome State Fault Refusal :=
  finish (do
    match spFind s.matOps op with
    | none => idleM
    | some o => do
      onlyIf (o.multiplies && o.kstep < o.n && o.ready s && o.passes = o.needed && panelFull s o)
      upd fun s => commitStep s op o) s

/-- The image may be read now. -/
def imageFull (s : State) (o : MatOp) : Bool := spaceOpen s o o.aspc o.arec (rawSize o.w64)
/-- Establish a tile (R171). -/
def setTile (s : State) (b tile : Nat) (t : Tile) : State :=
  s.updBlk b fun x => { x with tiles := spPut (endTiles Tile.w64 x.tiles tile t.w64) tile t }
/-- A part of what an ACST writes: an element, or a row or table of the raw image; whether it needs the assist, whether it reads a
poisoned element (R410), and where its bytes go. -/
structure OutPart where
  assist : Bool
  bad : Bool
  bytes : List (Nat × List Byte)
  deriving DecidableEq, Repr
/-- The parts of an ACST, in row-major order (R182). An element outside the output record's dimensions is not written and needs no
assist (R161; DEDUCED, log 90). -/
def acstParts (op : MatOp) (t : Tile) : List OutPart :=
  if op.fmt = 5 then (rawParts t).mapIdx fun i p => ⟨false, t.bad.any fun e => e.1 / 128 = i, [(op.arec + p.1, p.2)]⟩
  else gridKeys.map fun k =>
    let here : Bool := outPieces op t (k / 128) (k % 128) ≠ []
    ⟨op.fmt < 2 && outAssist t op.fmt k && here, spGet false t.bad k && here, outPlaces op t k⟩
/-- The row of an output that a part belongs to. -/
def MatOp.rowOfPart (o : MatOp) (i : Nat) : Nat := if o.fmt = 5 then min i 127 else i / 128
/-- Where an ACST stands when it stops at a part: for the assist, or at a failed write. -/
inductive OutStop where
  | assist
  | fail (e : Fail)
  deriving DecidableEq, Repr
/-- Write parts in order from number i on, as far as one that needs the assist, that is poisoned, or whose write fails; an ACST
resumed after a fault goes on from there, so that each element raises its trap once (R161; DEDUCED, log 90). -/
def writeOut (s : State) (o : MatOp) : List OutPart → Nat → State × Option (Nat × OutStop)
  | [], _ => (s, none)
  | p :: rest, i =>
    if p.bad then (s, some (i, .fail (cPoison, 0)))
    else if p.assist then (s, some (i, .assist))
    else match p.bytes.foldlM (fun s b => spaceWrite s o o.aspc b.1 b.2) s with
      | .ok s => writeOut s o rest (i + 1)
      | .error e => (s, some (i, .fail e))
/-- An ACST stops at an element for the assist: the subnormal-assist trap goes to the quadrille's control core alone (R161). -/
def stopAssist (s : State) (k : Nat) (o : MatOp) : State :=
  let s := s.setMat k { o with assist := true }
  queueTrap s (quadOf o.core) none
    (trapRegs s (if s.sameGrp o.g o.uid then some o.g else none) 0
      { cause := 0x11, addr := assistAddr s o, rec_ := o.arec, tok := o.token, pc := some o.ipc, ipc := some o.ipc })
/-- A transfer runs whole (R180 to R183). -/
def runTransfer (s : State) (k : Nat) (o : MatOp) : State :=
  match o.kind with
  | 4 => completeMat (setTile s o.block o.tile (zeroTile o.w64 o.anc)) k o
  | 5 =>
    let s := spaceSettle s o o.aspc o.arec (rawSize o.w64)
    (match spaceRead s o o.aspc o.arec (rawSize o.w64) with
     | .ok bs => completeMat (setTile s o.block o.tile (rawTile o.w64 bs)) k o
     | .error e =>
       let s := s.updBlk o.block fun x => { x with tiles := endTiles Tile.w64 x.tiles o.tile o.w64 }
       stopMat s k o 0 e)
  | _ =>
    let r := writeOut s o ((acstParts o (tileAt s o.block o.tile)).drop o.elem) o.elem
    (match r.2 with
     | none => completeMat r.1 k o
     | some (i, .assist) => stopAssist r.1 k { o with elem := i, row := o.rowOfPart i }
     | some (i, .fail e) => stopMat r.1 k { o with elem := i } (o.rowOfPart i) e)
/-- The assist routine has written the element's output, rounded as Table 6-2 says, and resumes the ACST at the next element (R161);
the handler stays as it is, and ends by its own ERET. -/
def finishAssist (s : State) (quad : Nat) : State :=
  match assisted s quad with
  | none => s
  | some (k, o) =>
    match (outPlaces o (tileAt s o.block o.tile) o.elem).foldlM (fun s b => spaceWrite s o o.aspc b.1 b.2) s with
    | .ok s => s.setMat k { o with assist := false, elem := o.elem + 1 }
    | .error e => stopMat s k { o with assist := false } (o.rowOfPart o.elem) e
/-- TRANSFER_COMPLETE (R172). -/
def execTransferComplete (op : Nat) (s : State) : Host.Outcome State Fault Refusal :=
  finish (do
    match spFind s.matOps op with
    | none => idleM
    | some o => do
      onlyIf (!o.multiplies && o.ready s && (o.kind ≠ 5 || imageFull s o))
      upd fun s => runTransfer s op o) s

end Sys2Proof.Machine
end

