-- ==== Sys2Proof/Machine/Messages.lean ====
section
/-! DEFINITION. Messages.lean: ports, receives and messages, and the package ring (R369 to R375, R376, R377, R444). -/

namespace Sys2Proof.Machine

/-! ### Ports (R369, R370) -/

def portKey (ctx die port : Nat) : Nat := (ctx * 16 + die) * 64 + port
def State.port (s : State) (k : Nat) : Port := (spFind s.ports k).getD {}
def State.setPort (s : State) (k : Nat) (p : Port) : State := { s with ports := spPut s.ports k p }
/-- A message matches a tag under a mask (R370). -/
def Msg.matches (m : Msg) (tag mask : Nat) : Bool := (m.tag ^^^ tag) &&& mask = 0
/-- The receive status of a message (Table 14-7). -/
def recvStatus (m : Msg) (cap : Nat) (valid : Bool) : Nat :=
  m.tag % 2 ^ 32 + m.data.length % 2 ^ 8 * 2 ^ 32 + m.die % 16 * 2 ^ 40 + m.core % 64 * 2 ^ 44
  + (if cap < m.data.length then 2 ^ 50 else 0) + (if valid then 2 ^ 63 else 0)
/-- A receive token (R377). -/
def recvToken (seq port die : Nat) : Nat := seq % 2 ^ 16 + port * 2 ^ 16 + die * 2 ^ 22
/-- Groups that wait for a receive become ready. -/
def wakeRecv (s : State) (tok : Nat) : State :=
  ((s.groups.filter fun e => e.2.wait = .recv tok).map (·.1)).foldl makeReady s
/-- A message completes a receive: its bytes are written at the buffer, then the status. A buffer that is no longer mapped
receives no bytes, and its region's fault domain is told. -/
def completeRecv (s : State) (k die port : Nat) (r : Recv) (m : Msg) : State :=
  let s := match writeRange s (xlCtx s r.ctx needW) r.buf (m.data.take (min m.data.length r.cap)) with
    | .ok s => s
    | .error e => domFault s die r.ctx (s.blockLaunch r.block).region { cause := e.1, addr := e.2 }
  let p := s.port k
  let s := s.setPort k { p with recvs := p.recvs.map fun x => if x = r then { r with status := recvStatus m r.cap true } else x }
  wakeRecv s (recvToken r.seq port die)
/-- A message arrives at a port (R370). -/
def deliver (s : State) (die : Nat) (x : Packet) : State :=
  let k := portKey x.ctx die x.port
  let p := s.port k
  match p.recvs.find? fun r => r.status = 0 && x.msg.matches r.tag r.mask with
  | some r => completeRecv s k die x.port r x.msg
  | none =>
    if 64 ≤ p.overflow.length then domFault s die x.ctx 0 { cause := 0x14, addr := x.dest }
    else s.setPort k { p with overflow := p.overflow ++ [x.msg] }

/-! ### The instructions (R370 to R372, R376, R377) -/

/-- A port number or capacity from its field: a register is read unsigned. -/
def badValue (s : State) : Trap := { cause := 0x01, mask := s.me.resident }
/-- SEND's operands: the destination word, the address and the length of the payload. -/
def sendDest (o : FmtE) (s : State) : Nat := readK s.seen (o.a.toNat - 0x100)
def sendAddr (o : FmtE) (s : State) : Nat := e64 s true (WF.efF o 33) 0
def sendLen (o : FmtE) (s : State) : Nat := eCount s (WF.efF o 23)
def sendUses (o : FmtE) : List FieldUse := use1 o.a ++ use1 (WF.efF o 43) ++ use1 (WF.efF o 33) ++ use1 (WF.efF o 23)
/-- The length of a payload or a buffer: a multiple of 16, at most 224. -/
def lenOk (n : Nat) : Bool := n % 16 = 0 && n ≤ 224
/-- A destination word has no bit outside its fields and names a die that serves. -/
def destOk (s : State) (dest : Nat) : Bool :=
  dest = natBits dest 3 0 + natBits dest 13 8 * 2 ^ 8 && dieServes s (natBits dest 3 0)
/-- 64 messages of the context on the die have not left it (R371). -/
def sendFull (s : State) : Bool :=
  64 ≤ (s.packets.filter fun e => (e.2.pool = 4 || e.2.tail.any (·.pool = 4)) && e.2.ctx = s.ctxOf s.cur.g && e.2.src = coreDie (placeCore s.cur.g)).length
/-- The message of a SEND enters the ring at its die. -/
def sendPacket (o : FmtE) (bs : List Byte) (s : State) : State :=
  let g := s.cur.g
  let d := coreDie (placeCore g)
  let dest := sendDest o s
  let m : Msg := { die := d, core := coreIdx (placeCore g), tag := e32 s true (WF.efF o 43) 0, data := bs }
  let x : Packet := {
    ctx := s.ctxOf g, region := (s.grpLch g).region, uid := s.me.uid, msg := m, src := d, dst := natBits dest 3 0,
    port := natBits dest 13 8, cls := s.me.prio, cw := true, at_ := d, dest := dest }
  { s with packets := spPut s.packets (spFresh s.packets) x }
/-- SEND (R371, R372). -/
def sendCore (o : FmtE) : M Unit := do
  let s ← get
  if !guardG s o.h then pure ()
  else do
    checkStale true (sendUses o) [0]
    let dest := sendDest o s
    let va := sendAddr o s
    let n := sendLen o s
    need (lenOk n) (badValue s)
    need (va % 16 = 0) { cause := 0x0B, addr := va, mask := s.me.resident }
    need (destOk s dest) { cause := cProt, addr := dest, mask := s.me.resident }
    let _ ← structs true false 16 n needR [(0, va)]
    checkPoison true (sendUses o) [0]
    if sendFull s then stallM
    else do
      beforeRelease
      upd (eRelease o)
      upd fun s => settleRange s (xlGrp s s.cur.g needR) va n
      let s ← get
      match readRange s (xlGrp s s.cur.g needR) va n with
      | .error e => trapM { cause := e.1, addr := e.2, mask := s.me.resident }
      | .ok bs => upd (sendPacket o bs)
def execSend (o : FmtE) (s : State) : Host.Outcome State Fault Refusal := finish (sendCore o) s
/-- RECVP's operands: the port, the capacity of the buffer; the port's key on the group's die. -/
def recvPort (o : FmtE) (s : State) : Nat := eCount s (WF.efF o 43)
def recvCap (o : FmtE) (s : State) : Nat := eCount s (WF.efF o 10)
def recvUses (o : FmtE) : List FieldUse :=
  use1 o.a ++ use1 (WF.efF o 43) ++ use1 (WF.efF o 33) ++ use1 (WF.efF o 23) ++ use1 (WF.efF o 10)
def ownPort (s : State) (port : Nat) : Nat := portKey (s.ctxOf s.cur.g) (coreDie (placeCore s.cur.g)) port
/-- The port has 16 receives outstanding (R370). -/
def recvFull (s : State) (k : Nat) : Bool := 16 ≤ ((s.port k).recvs.filter fun r => r.status = 0).length
/-- The receive a RECVP posts. -/
def newRecv (o : FmtE) (va : Nat) (s : State) : Recv :=
  { seq := (s.port (ownPort s (recvPort o s))).seq, block := s.me.block, ctx := s.ctxOf s.cur.g, buf := va, cap := recvCap o s,
    tag := e32 s true (WF.efF o 33) 0, mask := e32 s true (WF.efF o 23) 0 }
/-- The receive is posted; the earliest matching message of the overflow queue completes it at once; the token is the result. -/
def postRecv (o : FmtE) (va : Nat) (s : State) : State :=
  let d := coreDie (placeCore s.cur.g)
  let port := recvPort o s
  let k := ownPort s port
  let p := s.port k
  let r := newRecv o va s
  let m := p.overflow.find? fun m => m.matches r.tag r.mask
  let left := match m with | some m => p.overflow.erase m | none => p.overflow
  let s := s.setPort k { recvs := p.recvs ++ [r], overflow := left, seq := (p.seq + 1) % 2 ^ 16 }
  let s := match m with | some m => completeRecv s k d port r m | none => s
  putK o 3 (recvToken r.seq port d) s
/-- RECVP (R370). -/
def recvpCore (o : FmtE) : M Unit := do
  let s ← get
  if !guardG s o.h then pure ()
  else do
    checkStale true (recvUses o) [0]
    let va := eAddr s o.a 0
    need (recvPort o s ≤ 63 && lenOk (recvCap o s)) (badValue s)
    let _ ← structs true false 16 (recvCap o s) needW [(0, va)]
    checkPoison true (recvUses o) [0]
    if recvFull s (ownPort s (recvPort o s)) then stallM
    else upd (postRecv o va)
def execRecvp (o : FmtE) (s : State) : Host.Outcome State Fault Refusal := finish (recvpCore o) s
/-- The receive of the group's block that a token names; none is the shape trap (R377). -/
def recvOf (s : State) (t : Nat) : Option Recv :=
  if t < 2 ^ 26 then
    (s.port (portKey (s.ctxOf s.cur.g) (natBits t 25 22) (natBits t 21 16))).recvs.find? fun r =>
      r.seq = natBits t 15 0 && r.block = s.me.block
  else none
def tokenRecv (o : FmtE) : M Recv := do
  let s ← get
  let t := readK s.seen (o.a.toNat - 0x100)
  match recvOf s t with
  | some r => pure r
  | none => trapM { cause := 0x0B, addr := t, mask := s.me.resident, tok := t }
/-- RECVW (R371, R377): waits for its receive; the status is an acquire. -/
def execRecvw (o : FmtE) (s : State) : Host.Outcome State Fault Refusal :=
  finish (do
    let s ← get
    if !guardG s o.h then pure ()
    else do
      checkStale true (use1 o.a) [0]
      let r ← tokenRecv o
      checkPoison true (use1 o.a) [0]
      if r.status = 0 then blockHere (.recv (readK s.seen (o.a.toNat - 0x100)))
      else upd fun s => eAcquire o (putK o 3 r.status s)) s
/-- The message a PROBE by tag finds in the overflow queue of its port. -/
def probeFind (o : FmtE) (s : State) : Option Msg :=
  (s.port (ownPort s (recvPort o s))).overflow.find? fun m => m.matches (e32 s true (WF.efF o 33) 0) (e32 s true (WF.efF o 23) 0)
/-- PROBE's answer: whether there is one, and its status; a free value where there is none. -/
def probeAnswer (o : FmtE) (found : Option Msg) (s : State) : State :=
  let s := s.updMe fun x => setG x (WF.ef o 18 16) found.isSome
  match found with
  | some m => putK o 3 (recvStatus m 224 false) s
  | none => putK o 3 (s.fresh.1 % 2 ^ 64) s.fresh.2
def probeUses (o : FmtE) : List FieldUse := use1 (WF.efF o 43) ++ use1 (WF.efF o 33) ++ use1 (WF.efF o 23)
/-- PROBE by tag (R377): the message is not taken. -/
def execProbe (o : FmtE) (s : State) : Host.Outcome State Fault Refusal :=
  finish (do
    let s ← get
    if !guardG s o.h then pure ()
    else do
      checkStale true (probeUses o) [0]
      need (recvPort o s ≤ 63) (badValue s)
      checkPoison true (probeUses o) [0]
      upd (probeAnswer o (probeFind o s))) s
/-- PROBE.tok (R377). -/
def execProbeTok (o : FmtE) (s : State) : Host.Outcome State Fault Refusal :=
  finish (do
    let s ← get
    if !guardG s o.h then pure ()
    else do
      checkStale true (use1 o.a) [0]
      let r ← tokenRecv o
      checkPoison true (use1 o.a) [0]
      upd fun s => putK o 3 r.status (s.updMe fun x => setG x (WF.ef o 18 16) (r.status ≠ 0))) s

/-! ### The package ring (R12, R13, R373, R374, R444) -/

/-- Position of a die in the clockwise order of R12, and the die of a position. -/
def ringPos (d : Nat) : Nat := if d < 8 then d else 23 - d
def ringDie (p : Nat) : Nat := if p < 8 then p else 23 - p
/-- A packet between dies takes the shorter direction; at 8 hops clockwise (R373). -/
def Packet.clockwise (x : Packet) : Bool := (ringPos x.dst + 16 - ringPos x.src) % 16 ≤ 8
def Packet.flits (x : Packet) : Nat := 1 + (x.msg.data.length + 31) / 32
/-- The next die on a packet's way, and whether it has crossed the dateline by then. -/
def Packet.nextDie (x : Packet) : Nat :=
  ringDie (if x.clockwise then (ringPos x.at_ + 1) % 16 else (ringPos x.at_ + 15) % 16)
def Packet.crossed (x : Packet) : Bool :=
  if x.clockwise then ringPos x.nextDie < ringPos x.src else ringPos x.src < ringPos x.nextDie
/-- A pool whose packets advance flit by flit. -/
def escape (pool : Nat) : Bool := pool = 1 || pool = 2
def legFlits (l : List Leg) : Nat := sumNat (l.map (·.n))
/-- Slots that the flits behind a head take in a pool of a die; the shared pool and VC3 keep slots for those still to come. -/
def legsUsed (d pool : Nat) : List Leg → Nat
  | [] => 0
  | l :: rest => (if l.die = d && l.pool = pool then (if escape pool then l.n else l.n + legFlits rest) else 0) + legsUsed d pool rest
/-- Slots that a packet takes in a pool of a die; at its own die the flits leave an escape channel as they come. -/
def Packet.used (x : Packet) (d pool : Nat) : Nat :=
  (if x.at_ = d && x.pool = pool then
     (if !escape pool then x.flits else if x.at_ = x.dst then 1 else x.flits - legFlits x.tail)
   else 0) + legsUsed d pool x.tail
/-- Slots taken in a pool of a die's input port of one direction. -/
def poolUsed (s : State) (d pool : Nat) (cw : Bool) : Nat :=
  sumNat ((s.packets.filter fun e => e.2.clockwise == cw).map fun e => e.2.used d pool)
/-- Shared slots of an input port: RINGPOOL.n, or while the port holds more than a lower n, the one before (R374). -/
def poolLimit (s : State) (d : Nat) (cw : Bool) : Nat :=
  let x := s.die d
  let was := if cw then x.poolWas.1 else x.poolWas.2
  if x.ringpool < poolUsed s d 0 cw then max x.ringpool was else x.ringpool
/-- The pool that a packet's head enters at its next port, if one has room (Table 14-8): the shared pool, or VC3, for all its flits at
once; an escape channel for one. -/
def poolFor (s : State) (x : Packet) : Option Nat :=
  let d := x.nextDie
  let room (pool n : Nat) : Bool :=
    poolUsed s d pool x.clockwise + n ≤ (match pool with | 0 => poolLimit s d x.clockwise | 3 => 8 | _ => 4)
  if x.cls = 7 then (if room 3 x.flits then some 3 else none)
  else if room 0 x.flits then some 0
  else
    let vc := if x.crossed then 2 else 1
    if room vc 1 then some vc else none
/-- Flit i behind the head can advance: into the head's port, or into that of the flits before it. -/
def Packet.canFill (s : State) (x : Packet) (i : Nat) : Bool :=
  let room (d pool : Nat) : Bool := !escape pool || poolUsed s d pool x.clockwise < 4
  (match x.tail[i]? with | some l => l.n ≠ 0 | none => false)
  && (if i = 0 then x.at_ = x.dst || room x.at_ x.pool
      else match x.tail[i - 1]? with | some l => room l.die l.pool | none => false)
/-- The packet after the first flit that can has advanced. -/
def Packet.fill (s : State) (x : Packet) : Option Packet :=
  ((List.range x.tail.length).find? (x.canFill s)).map fun i =>
    let t := x.tail.mapIdx fun j l => if j = i then { l with n := l.n - 1 } else if j + 1 = i then { l with n := l.n + 1 } else l
    { x with tail := (t.reverse.dropWhile (·.n = 0)).reverse }
/-- Two packets use the same output of a die: the ring in one direction, or the die's own ports; class 7 has a channel of its
own. -/
def sameWay (a b : Packet) : Bool :=
  a.at_ = b.at_ && (a.cls = 7) = (b.cls = 7) && (if a.at_ = a.dst then b.at_ = b.dst else b.at_ ≠ b.dst && a.clockwise == b.clockwise)
/-- The packet is first on its way (R371, R444): packets that came through leave in the order in which they arrived and before
injected ones that have room too; a group's injected packets leave in order. -/
def firstOut (s : State) (k : Nat) (x : Packet) : Bool :=
  s.packets.all fun e =>
    e.1 = k || !sameWay x e.2
    || (if x.pool = 4 then
          (if e.2.pool = 4 then !(e.1 < k && e.2.uid = x.uid) else x.at_ = x.dst || (poolFor s e.2).isNone)
        else e.2.pool = 4 || k < e.1)
/-- A packet for a die under machine check, or absent, is dropped and counted; the sender's fault domain is told (R372, R413). -/
def dropPacket (s : State) (k : Nat) (x : Packet) : State :=
  let s := { s with packets := spDel s.packets k }
  let s := s.updDie x.dst fun d => { d with drops := d.drops + 1 }
  domFault s x.src x.ctx x.region { cause := 0x14, addr := x.dest }
/-- The flits behind a head that has moved on: into an escape channel it goes alone, else with every flit that stood beside it. -/
def Packet.left (x : Packet) (p : Nat) : List Leg :=
  let here := x.flits - legFlits x.tail
  if x.tail = [] && !escape p then []
  else if here ≤ 1 then x.tail
  else { die := x.at_, pool := x.pool, n := here - 1 } :: x.tail
/-- A packet's head moves to a pool of the next die's input port. -/
def hop (k : Nat) (x : Packet) (p : Nat) (s : State) : State :=
  let y := { x with at_ := x.nextDie, pool := p, tail := x.left p, cw := x.clockwise }
  { s with packets := spPut (spDel s.packets k) (spFresh s.packets) y }
/-- RING_HOP (R373): a packet's flit advances behind its head, or the head moves to the next die's input port; names rise with the
order of arrival there. -/
def execRingHop (packet : Nat) (s : State) : Host.Outcome State Fault Refusal :=
  finish (do
    match spFind s.packets packet with
    | none => idleM
    | some x => do
      match x.fill s with
      | some y => upd fun s => { s with packets := spPut s.packets packet y }
      | none => do
        onlyIf (x.at_ ≠ x.dst && firstOut s packet x)
        if !dieServes s x.dst then upd fun s => dropPacket s packet x
        else match poolFor s x with
          | none => idleM
          | some p => upd (hop packet x p)) s
/-- MESSAGE_ARRIVAL (R370, R371): a packet at its die is delivered to its port. -/
def execMessageArrival (packet : Nat) (s : State) : Host.Outcome State Fault Refusal :=
  finish (do
    match spFind s.packets packet with
    | none => idleM
    | some x => do
      onlyIf (x.at_ = x.dst && x.tail = [] && firstOut s packet x)
      if !dieServes s x.dst then upd fun s => dropPacket s packet x
      else upd fun s => deliver { s with packets := spDel s.packets packet } x.dst x) s

end Sys2Proof.Machine
end

