-- ==== Sys2Proof/Machine/System.lean ====
section
/-! DEFINITION. System.lean: control registers, clocks, the control core's access to a halted group, and the restart of
asynchronous work (16_recovery); PROGHINT (R326); the events that write control registers. -/

namespace Sys2Proof.Machine

/-! ### Control registers (R90, R91, R412, R416, R417; Tables 9-3, 9-5, 9-6, 12-6, 14-9, 16-2, 16-7, 16-8, 16-11) -/

/-- Pavane launches admitted and not yet completed on a die (Table 12-6). -/
def pavaneActive (s : State) (d : Nat) : Nat :=
  (s.launches.filter fun e => e.2.pavane && e.2.state = .running && e.2.shares.any fun h => h.die = d).length
/-- A register of a die. -/
def dieCsr (s : State) (d csr : Nat) : Nat :=
  let x := s.die d
  match csr with
  | 0x300 => x.rways
  | 0x301 => x.refcal + s.clock / 2 % 128000 * 2 ^ 32
  | 0x302 => (if x.pavaneEn then 1 else 0) + pavaneActive s d % 2 ^ 16 * 2 ^ 16
  | 0x303 => x.ringpool
  | 0x304 => featOf s
  | 0x305 => x.errcnt.toNat
  | _ => x.errlog.toNat
/-- A trap register of a quadrille's control core. -/
def trapCsr (s : State) (quad csr : Nat) : Nat :=
  let h := s.handler quad
  (match csr with
   | 0x400 => h.regs.tcause.toNat
   | 0x401 => h.regs.tpc.toNat
   | 0x402 => h.regs.taddr.toNat
   | 0x403 => h.regs.trec.toNat
   | 0x404 => h.regs.tprog.toNat
   | 0x405 => h.regs.tmask.toNat
   | 0x406 => h.regs.tgroup.toNat
   | 0x407 => h.regs.ttok.toNat
   | 0x408 => h.queue.length
   | 0x409 => h.regs.tvec.toNat
   | 0x40A => h.regs.mcpc.toNat
   | _ => h.regs.tipc.toNat)
/-- What CSRR reads for a group place. -/
def readCsr (s : State) (g csr : Nat) : Nat :=
  let x := s.grp g
  let ck := placeCore g
  match csr with
  | 0x000 => x.mode.toNat
  | 0x001 => x.fstat.toNat
  | 0x002 => x.late.toNat
  | 0x100 => (s.core ck).ways + carveLines s ck * 2 ^ 8
  | n => if 0x400 ≤ n then trapCsr s (quadOf ck) n else dieCsr s (coreDie ck) n
/-- RWAYS (R236): a fall of n drops the replicas of the ways no longer reserved. -/
def writeRways (s : State) (d : Nat) (v : DWord) : State :=
  let n := bitsNat v 3 0
  if 8 < n then s
  else
    let s := if n < (s.die d).rways then { s with replicas := s.replicas.filter fun e => e.1 % 16 ≠ d || e.2.way < n } else s
    s.updDie d fun x => { x with rways := n }
/-- REFCAL (R240). -/
def writeRefcal (s : State) (d : Nat) (v : DWord) : State :=
  let n := bitsNat v 16 0
  if 127999 < n then s else s.updDie d fun x => { x with refcal := n }
/-- PAVANE (R324). -/
def writePavane (s : State) (d : Nat) (v : DWord) : State := s.updDie d fun x => { x with pavaneEn := v.getLsbD 0 }
/-- RINGPOOL (R374): each input port keeps its n until it holds no more than the new one. -/
def writeRingpool (s : State) (d : Nat) (v : DWord) : State :=
  let n := bitsNat v 5 0
  if n = 0 || 32 < n then s
  else s.updDie d fun x => { x with ringpool := n, poolWas := (poolLimit s d true, poolLimit s d false) }
/-- ERRCNT (R412): ones clear. -/
def writeErrcnt (s : State) (d : Nat) (v : DWord) : State :=
  s.updDie d fun x => { x with errcnt := x.errcnt &&& ~~~v }
/-- A write of a die's register; FEAT and ERRLOG take none. -/
def writeDieCsr (s : State) (d csr : Nat) (v : DWord) : State :=
  match csr with
  | 0x300 => writeRways s d v
  | 0x301 => writeRefcal s d v
  | 0x302 => writePavane s d v
  | 0x303 => writeRingpool s d v
  | 0x305 => writeErrcnt s d v
  | _ => s
/-- A write of MODE, FSTAT or LATECNT. -/
def writeGroupCsr (x : Group) (csr : Nat) (v : DWord) : Group :=
  match csr with
  | 0 => { x with mode := writeMode x.mode v }
  | 1 => { x with fstat := writeFstat v }
  | 2 => { x with late := writeLate v }
  | _ => x
/-- A write of a register by a group place: its own registers, or for a control core its die's and TVEC. -/
def writeCsr (s : State) (g csr : Nat) (v : DWord) : State :=
  if csr ≤ 2 then s.updGrp g fun x => writeGroupCsr x csr v
  else if csr = 0x409 then
    s.updHandler (quadOf (placeCore g)) fun h => { h with regs := { h.regs with tvec := BitVec.ofNat 64 (bitsNat v 26 0) } }
  else if 0x400 ≤ csr || csr = 0x100 then s
  else writeDieCsr s (coreDie (placeCore g)) csr v

/-! ### Format S frames -/

/-- A uniform Format S result: D and latch xL, as b64. -/
def putS (o : FmtS) (v : Nat) (s : State) : State := s.updMe fun x => writeDest x o.h o.d 3 0 v
def guardedS (o : FmtS) (body : M Unit) : M Unit := do
  let s ← get
  if guardG s o.h then body else pure ()
/-- The privileged-instruction trap of R70 on a group; then the body under its guard. -/
def privileged (h : Hdr) (body : M Unit) : M Unit := do
  let s ← get
  need (isControl s.cur.g) { cause := 0x1C, mask := s.me.resident }
  if guardG s h then body else pure ()
/-- An operand that is a k register or an immediate, sign-extended to 64 bits. -/
def kOrImm64 (s : State) (f : BitVec 10) : Nat :=
  if WF.isK f then readK s.seen (f.toNat - 0x100) else intBits 64 (WF.immVal f)

/-! ### CSRR, CSRW, RDCLK, RDTIME (R416, R417) -/

def privTrap (s : State) : Trap := { cause := 0x1C, mask := s.me.resident }
/-- CSRR (R416). -/
def csrrCore (o : FmtS) : M Unit :=
  guardedS o do
    let s ← get
    let n := o.csr.toNat
    need (isControl s.cur.g || n < 0x400) (privTrap s)
    upd fun s => putS o (readCsr s s.cur.g n) s
def execCsrr (o : FmtS) (s : State) : Host.Outcome State Fault Refusal := finish (csrrCore o) s
/-- The register takes v; D, or the latch alone with S = 1, takes its old value. -/
def csrwAll (o : FmtS) (v : DWord) (s : State) : State :=
  let old := readCsr s s.cur.g o.csr.toNat
  let s := writeCsr s s.cur.g o.csr.toNat v
  if o.h.s || WF.isK o.d then putS o old s else s
/-- CSRW by an operation on the old value and the operand (R416). -/
def csrwCore (o : FmtS) (f : DWord → DWord → DWord) : M Unit :=
  guardedS o do
    let s ← get
    let n := o.csr.toNat
    need (isControl s.cur.g || n ≤ 2) (privTrap s)
    checkPoison true (use1 o.a) [0]
    upd fun s => csrwAll o (f (BitVec.ofNat 64 (readCsr s s.cur.g n)) (BitVec.ofNat 64 (kOrImm64 s o.a))) s
def execCsrw (o : FmtS) (s : State) : Host.Outcome State Fault Refusal := finish (csrwCore o fun _ a => a) s
def execCsrwSet (o : FmtS) (s : State) : Host.Outcome State Fault Refusal := finish (csrwCore o fun v a => v ||| a) s
def execCsrwClr (o : FmtS) (s : State) : Host.Outcome State Fault Refusal := finish (csrwCore o fun v a => v &&& ~~~a) s
/-- RDCLK (R322, R417). -/
def clockOf (s : State) (g : Nat) : Nat :=
  (if s.grpPavane g then (s.grp g).retired else cycleCount s (coreDie (placeCore g))) % 2 ^ 64
def execRdclk (o : FmtS) (s : State) : Host.Outcome State Fault Refusal :=
  finish (guardedS o (upd fun s => putS o (clockOf s s.cur.g) s)) s
/-- RDTIME (R417). -/
def execRdtime (o : FmtS) (s : State) : Host.Outcome State Fault Refusal :=
  finish (guardedS o (upd fun s => putS o (s.timeOf (coreDie (placeCore s.cur.g)) % 2 ^ 64) s)) s
/-- PROGHINT (R326). -/
def execProghint (o : FmtS) (s : State) : Host.Outcome State Fault Refusal :=
  finish (guardedS o do
    checkPoison true (use1 o.a) [0]
    upd fun s => s.updBlk s.me.block fun b => { b with hint := kOrImm64 s o.a % 2 ^ 32, hintAt := s.clock }) s
/-- SVC (R420). -/
def execSvc (o : FmtS) (s : State) : Host.Outcome State Fault Refusal :=
  finish (guardedS o do
    checkPoison true (use1 o.a) [0]
    let s ← get
    trapM { cause := 0x1D, code := bitsNat o.sfn 7 0, addr := kOrImm64 s o.a, mask := s.me.resident }) s
/-- ERET (R421). -/
def execEret (o : FmtS) (s : State) : Host.Outcome State Fault Refusal :=
  finish (privileged o.h (upd fun s => endHandler s (quadOf (placeCore s.cur.g)))) s

/-! ### Handles and selectors (R402, R403) -/

/-- The resident group of a quadrille that a handle names (Table 16-3). -/
def groupOfHandle (s : State) (quad h : Nat) : Option Nat :=
  let g := (quad / 12 * 64 + quad % 12 * 4 + natBits h 7 6) * 64 + natBits h 5 0
  if natBits h 31 24 = 0 && (spFind s.groups g).isSome && handleOf s g = h then some g else none
/-- The group that a handle in a k register names, for the control core being issued. -/
def handleArg (s : State) (f : BitVec 10) : Option Nat :=
  groupOfHandle s (quadOf (placeCore s.cur.g)) (readK s.seen (f.toNat - 0x100))
/-- A plane vector as a number: plane of thread t at bits 3t+2:3t. -/
def planeVector (x : Group) : Nat := sumNat (tids.map fun t => planeOf x t * 2 ^ (3 * t))
def kindCode (k : EntryKind) : Nat := match k with | .rejoin => 0 | .deferred => 1 | .call => 2
/-- A stack entry's low 64 bits (Table 13-2). -/
def entryLow (e : StackEntry) : Nat := e.offset % 2 ^ 27 + kindCode e.kind * 2 ^ 27
/-- p0 to p6 of a thread, 7 bits. -/
def predBits (x : Group) (t : Nat) : Nat := sumNat ((List.range 7).map fun p => if (spGet 0 x.pr p).getLsbD t then 2 ^ p else 0)
/-- Logged instructions of a group. -/
def loggedOf (s : State) (g : Nat) : Nat := (s.oplog.filter fun e => e.g = g && e.uid = (s.grp g).uid).length
/-- The state word (Table 16-5). -/
def stateWord (s : State) (g : Nat) : Nat :=
  let x := s.grp g
  let queued : Bool := (s.handler (quadOf (placeCore g))).queue.any fun e => e.group = some g && !e.regs.tcause.getLsbD 16
  x.cause % 256 + (if x.halt then 2 ^ 8 else 0) + (if x.byhalt then 2 ^ 9 else 0) + (if queued then 2 ^ 10 else 0)
  + x.pend % 32 * 2 ^ 11 + loggedOf s g % 256 * 2 ^ 16 + x.wait.code * 2 ^ 24
/-- An item of Table 16-4. -/
def readItem (s : State) (g : Nat) (sel : BitVec 41) : Nat :=
  let x := s.grp g
  let i := bitsNat sel 36 29
  let t := bitsNat sel 28 23
  match bitsNat sel 40 37 with
  | 0 => x.pc % 2 ^ 27
  | 1 => planeVector x / 2 ^ (64 * i) % 2 ^ 64
  | 2 => if i = 0 then x.live.toNat else x.resident.toNat
  | 3 =>
    if i = 64 then x.stack.length
    else match x.stack.reverse[i]? with
      | some e => if bitsNat sel 22 22 = 0 then entryLow e else e.mask.toNat
      | none => 0
  | 4 => if i < x.regs then readV x i t else 0
  | 5 => if i < x.uregs then readK x i else 0
  | 6 =>
    if i = 8 then x.gp.toNat % 128
    else sumNat ((List.range 9).map fun j => if 9 * i + j < 64 then predBits x (9 * i + j) * 2 ^ (7 * j) else 0)
  | 7 => match i with
    | 0 => x.mode.toNat
    | 1 => x.fstat.toNat
    | 2 => x.late.toNat
    | 3 => stateWord s g
    | _ => x.retired % 2 ^ 64
  | _ => loggedOf s g
/-- Set a thread's p0 to p6. -/
def setPredBits (x : Group) (t v : Nat) : Group := (List.range 7).foldl (fun x p => setP x p t (v.testBit p)) x
/-- The stack, bottom first, cut or filled to a depth. -/
def stackTo (l : List StackEntry) (n : Nat) : List StackEntry :=
  (l.reverse.take n ++ List.replicate (n - l.length) ({ offset := 0, kind := .rejoin, mask := 0 } : StackEntry)).reverse
/-- Change stack entry i, counted from the bottom. -/
def setEntry (x : Group) (i : Nat) (f : StackEntry → StackEntry) : Group :=
  { x with stack := (x.stack.reverse.mapIdx fun k e => if k = i then f e else e).reverse }
def kindOf (n : Nat) : EntryKind := match n with | 0 => .rejoin | 1 => .deferred | _ => .call
/-- A write of an item of Table 16-4: latches become invalid. -/
def writeItem (x : Group) (sel : BitVec 41) (v : Nat) : Group :=
  let i := bitsNat sel 36 29
  let t := bitsNat sel 28 23
  let y : Group := match bitsNat sel 40 37 with
    | 0 => { x with pc := v % 2 ^ 27, entering := false, held := none }
    | 1 =>
      let old := planeVector x
      let new := old - old / 2 ^ (64 * i) % 2 ^ 64 * 2 ^ (64 * i) + v * 2 ^ (64 * i)
      let ps := tids.map fun t => new / 2 ^ (3 * t) % 8
      if ps.all (· < x.np) then { x with plane := ps.zipIdx.foldl (fun m p => spSet 0 m p.2 p.1) x.plane } else x
    | 2 =>
      if i = 0 then { x with live := BitVec.ofNat 64 v &&& x.resident }
      else
        let gone := x.resident &&& ~~~(BitVec.ofNat 64 v)
        { x with resident := x.resident &&& ~~~gone, live := x.live &&& ~~~gone, stack := dropMask gone x.stack }
    | 3 =>
      if i = 64 then (if v ≤ 64 then { x with stack := stackTo x.stack v } else x)
      else if bitsNat sel 22 22 = 1 then setEntry x i fun e => { e with mask := BitVec.ofNat 64 v &&& x.resident }
      else if natBits v 28 27 = 3 then x
      else setEntry x i fun e => { e with offset := v % 2 ^ 27, kind := kindOf (natBits v 28 27) }
    | 4 => if i < x.regs then setV x i t (v % 2 ^ 32) else x
    | 5 => if i < x.uregs then setK x i v else x
    | 6 =>
      if i = 8 then { x with gp := BitVec.ofNat 8 (v % 128) }
      else (List.range 9).foldl (fun x j => if 9 * i + j < 64 then setPredBits x (9 * i + j) (v / 2 ^ (7 * j) % 128) else x) x
    | 7 => if i ≤ 2 then writeGroupCsr x i (BitVec.ofNat 64 v) else x
    | _ => x
  endLine y
/-- GSTATR (R418). -/
def gstatrCore (o : FmtS) : M Unit :=
  privileged o.h do
    checkPoison true (use1 o.a) [0]
    upd fun s =>
      match handleArg s o.a with
      | some g =>
        if (s.grp g).halt then (putS o (readItem s g o.sfn) s).updMe fun x => setG x 0 true
        else (putS o 0 s).updMe fun x => setG x 0 false
      | none => (putS o 0 s).updMe fun x => setG x 0 false
def execGstatr (o : FmtS) (s : State) : Host.Outcome State Fault Refusal := finish (gstatrCore o) s
/-- GSTATW (R418). -/
def gstatwCore (o : FmtS) : M Unit :=
  privileged o.h do
    checkPoison true (use1 o.d ++ use1 o.a) [0]
    upd fun s =>
      let v := readK s.seen (o.a.toNat - 0x100)
      match handleArg s o.d with
      | some g =>
        if (s.grp g).halt then (s.updGrp g fun x => writeItem x o.sfn v).updMe fun x => setG x 0 true
        else s.updMe fun x => setG x 0 false
      | none => s.updMe fun x => setG x 0 false
def execGstatw (o : FmtS) (s : State) : Host.Outcome State Fault Refusal := finish (gstatwCore o) s

/-! ### GRESUME and HALT (R400, R404, R419) -/

/-- The pend bits of the traps still pending (Table 16-5). -/
def pendBits (l : List Trap) : Nat :=
  l.foldl (fun b t => b ||| (if t.cause = 0x17 then 1 else if t.cause = 0x13 then 2 else if t.cause = 0x12 then 4
    else if t.cause = 0x1B then 8 else if t.cause = 0x18 then 16 else 0)) 0
/-- Remove a group's trap from its quadrille's trap queue; a deferred page fault of a group that runs on stays. -/
def unqueue (s : State) (g : Nat) : State :=
  s.updHandler (quadOf (placeCore g)) fun h =>
    { h with queue := h.queue.filter fun e => e.group ≠ some g || e.regs.tcause.getLsbD 16 }
/-- GRESUME on a halted group: its earliest pending cause is raised, or it is ready; with no resident thread it retires. -/
def resumeGroup (s : State) (g : Nat) : State :=
  let x := s.grp g
  if !x.halt then s
  else
    let s := unqueue s g
    match x.pendTraps with
    | t :: rest =>
      let s := s.updGrp g fun x => { x with halt := false, byhalt := false, cause := 0, pend := pendBits rest, pendTraps := rest }
      raiseAt s g x.pc t
    | [] =>
      if x.resident = 0 then retireGroup s g
      else fillCore (s.updGrp g fun x => { x with halt := false, byhalt := false, cause := 0, readyAt := s.clock }) (placeCore g)
/-- GRESUME (R419). -/
def execGresume (o : FmtS) (s : State) : Host.Outcome State Fault Refusal :=
  finish (privileged o.h do
    checkPoison true (use1 o.a) [0]
    upd fun s => match handleArg s o.a with
      | some g => resumeGroup s g
      | none => s) s
/-- GRESUME.replay (R404, R419): a halted group's replay comes before it issues. -/
def replayGroup (s : State) (g : Nat) : State :=
  if (s.grp g).halt then
    let x := s.grp g
    let s := replayLog (unqueue (s.updGrp g fun x => { x with halt := false, byhalt := false, cause := 0 }) g) g
    if (s.grp g).halt then s
    else resumeGroup (s.updGrp g fun y => { y with halt := true, byhalt := x.byhalt, cause := x.cause }) g
  else replayLog s g
def execGresumeReplay (o : FmtS) (s : State) : Host.Outcome State Fault Refusal :=
  finish (privileged o.h do
    checkPoison true (use1 o.a) [0]
    upd fun s => match handleArg s o.a with
      | some g => replayGroup s g
      | none => s) s
/-- HALT one group: nothing on a group already halted. -/
def haltOne (s : State) (g : Nat) : State := if (s.grp g).halt then s else haltGroup s g
def execHalt (o : FmtS) (s : State) : Host.Outcome State Fault Refusal :=
  finish (privileged o.h do
    checkPoison true (use1 o.a) [0]
    upd fun s => match handleArg s o.a with
      | some g => haltOne s g
      | none => s) s
/-- HALT.blk (R419). -/
def execHaltBlk (o : FmtS) (s : State) : Host.Outcome State Fault Refusal :=
  finish (privileged o.h do
    checkPoison true (use1 o.a) [0]
    upd fun s => match handleArg s o.a with
      | some g => (s.groupsOf (s.grp g).block).foldl haltOne s
      | none => s) s

/-! ### MDRAIN and MRESTORE (R407, R422) -/

/-- A shape record's bytes (Table 11-1), from its fields. -/
def shapeBytes (r : Shape) : List Byte :=
  natBytes 1 r.kind ++ natBytes 1 r.etype ++ natBytes 1 r.rank ++ natBytes 1 r.bmode ++ natBytes 1 r.swz ++ natBytes 3 0
  ++ natBytes 8 r.fill ++ (List.range 5).flatMap (fun d => natBytes 4 (r.dimN d))
  ++ (List.range 5).flatMap (fun d => natBytes 2 (r.box.getD d 0)) ++ natBytes 2 0
  ++ (List.range 5).flatMap (fun d => natBytes 8 (intBits 64 (r.strideN d))) ++ natBytes 8 r.base
  ++ (List.range 5).flatMap (fun d => natBytes 4 (intBits 32 (r.origN d))) ++ natBytes 4 r.spdst ++ natBytes 4 r.sppitch
  ++ natBytes 4 0 ++ natBytes 8 r.mxptr ++ natBytes 8 r.idxptr ++ natBytes 48 0
/-- A parameter word with its substituted groups replaced by the values read. -/
def plainWord (rd : Nat → Nat) (w : Slot) : Slot :=
  BitVec.ofNat 96 (sumNat ((List.range 4).map fun g => substBy rd w g * 2 ^ (16 * g)) + bitsNat w 91 64 * 2 ^ 64)
/-- The instruction whose operation this is. -/
def MatOp.instr (o : MatOp) : Option (Instr × FmtE) :=
  match decodeSlot (o.par ≠ []) o.slot with
  | .ok (.mms e) => some (.mms e, e)
  | .ok (.mmx e) => some (.mmx e, e)
  | .ok (.mmi e) => some (.mmi e, e)
  | .ok (.acz e) => some (.acz e, e)
  | .ok (.acld e) => some (.acld e, e)
  | .ok (.acst e) => some (.acst e, e)
  | _ => none
/-- The k registers that an operation's instruction reads, in field order. -/
def MatOp.regNames (i : Instr) (e : FmtE) (par : List Slot) : List Nat :=
  match i with
  | .acz _ => aczRegs e
  | .acld _ => [e.a.toNat - 0x100]
  | .acst _ => acstRegs e par
  | _ => mmRegs e par i
def valueOf (names vals : List Nat) (r : Nat) : Nat := (((names.zip vals).find? fun x => x.1 = r).map (·.2)).getD 0
/-- The parameter words and register values as an entry of 48 bytes for values holds them: where more than six were read, the
words stand with their groups replaced, and the values left are at most three. -/
def MatOp.packed (o : MatOp) : List Slot × List Nat :=
  if o.regs.length ≤ 6 then (o.par, o.regs)
  else match o.instr with
    | none => (o.par, o.regs)
    | some (i, e) =>
      let rd := valueOf (MatOp.regNames i e o.par) o.regs
      let par := [plainWord rd (o.par.getD 0 0), plainWord rd (o.par.getD 1 0), 0, 0]
      (par, (mmRegs e par i).map rd)
def padTo (n : Nat) (bs : List Byte) : List Byte := bs.take n ++ natBytes (n - bs.length) 0
/-- Drain image parts (Table 16-6). -/
def drainEntry (o : MatOp) : List Byte :=
  let p := o.packed
  padTo 64 (natBytes 12 o.slot.toNat ++ (List.range 4).flatMap fun i => natBytes 12 (p.1.getD i 0).toNat)
  ++ padTo 48 (p.2.flatMap (natBytes 8)) ++ natBytes 8 (o.status false) ++ natBytes 8 o.token ++ shapeBytes o.a ++ shapeBytes o.b
def drainTransfer (o : MatOp) : List Byte :=
  padTo 56 (natBytes 16 o.slot.toNat ++ o.regs.flatMap (natBytes 8)) ++ natBytes 8 o.token
def drainTile (t : Tile) : List Byte :=
  (rawParts t).flatMap (·.2) ++ gridKeys.flatMap (fun k => natBytes 8 (t.bound k)) ++ natBytes 8 t.status ++ natBytes 56 0
def drainImage (s : State) (b : Nat) : List Byte :=
  let x := s.blk b
  let mm := (matOpsOf s b).filter fun e => e.2.multiplies
  let tr := (matOpsOf s b).filter fun e => !e.2.multiplies
  let map := sumNat (x.tiles.map fun t => 2 ^ t.1)
  let kinds := sumNat (x.tiles.map fun t => if t.2.w64 then 2 ^ t.1 else 0)
  natBytes 1 x.tiles.length ++ natBytes 1 mm.length ++ natBytes 1 tr.length ++ natBytes 1 0 ++ natBytes 4 x.bid
  ++ natBytes 4 map ++ natBytes 4 kinds ++ natBytes 4 x.matSeq ++ natBytes 44 0
  ++ mm.flatMap (fun e => drainEntry e.2) ++ tr.flatMap (fun e => drainTransfer e.2) ++ x.tiles.flatMap fun t => drainTile t.2
/-- The group of a handle in efn 52:43, if it names one. -/
def handleE (s : State) (o : FmtE) : Option Nat := handleArg s (WF.efF o 43)
def allHalted (s : State) (b : Nat) : Bool := (s.groupsOf b).all fun g => (s.grp g).halt
/-- Where a block's poisoned elements lie in its drain image (R410). -/
def drainBad (s : State) (b : Nat) : List Nat :=
  let at_ := 64 + 512 * ((matOpsOf s b).filter fun e => e.2.multiplies).length + 64 * ((matOpsOf s b).filter fun e => !e.2.multiplies).length
  ((s.blk b).tiles.foldl (fun (r : List Nat × Nat) t =>
    (r.1 ++ t.2.bad.map (fun e => r.2 + (if t.2.w64 then 8 else 32) * e.1), r.2 + rawSize t.2.w64 + 131136)) ([], at_)).1
/-- The lines that take poison are poisoned (R410). -/
def spoilAt (s : State) (xl : Nat → Xlat) (va : Nat) : State :=
  match xl va with | .ok pa _ => spoil true s (lineOf pa) | .bad _ => s
/-- A block's matrix work is frozen: its passes not yet committed are dropped. -/
def freezeMat (b : Nat) (s : State) : State :=
  let one (e : Nat × MatOp) : Nat × MatOp := if e.2.block = b then (e.1, { e.2 with frozen := true, passes := 0, w := 0, buf := [], elem := 0, assist := false }) else e
  { s with matOps := s.matOps.map one }
/-- MDRAIN (R166, R184, R407): the block's matrix work is frozen, uncommitted work discarded, the image written. -/
def mdrainCore (o : FmtE) : M Unit :=
  privileged o.h do
    let s ← get
    let va := readK s.seen (o.a.toNat - 0x100)
    need (va % 64 = 0) (shapeAt s va)
    checkPoison true (use1 o.a ++ use1 (WF.efF o 43)) [0]
    match handleE s o with
    | none => upd (putK o 3 0)
    | some g =>
      let b := (s.grp g).block
      if !allHalted s b then upd (putK o 3 0)
      else
        let image := drainImage s b
        match writeRange s (xlGrp s s.cur.g needW) va image with
        | .error e => uniTrap e.1 e.2
        | .ok t =>
          set (freezeMat b ((drainBad s b).foldl (fun t k => spoilAt t (xlGrp s s.cur.g needW) (va + k)) t))
          upd (putK o 3 image.length)
def execMdrain (o : FmtE) (s : State) : Host.Outcome State Fault Refusal := finish (mdrainCore o) s

/-- The tiles of a drain image: slot and kind, ascending. -/
def drainMap (bs : List Byte) : List (Nat × Bool) :=
  ((List.range 32).filter fun i => (fieldLe bs 8 4).testBit i).map fun i => (i, (fieldLe bs 12 4).testBit i)
def drainTileSize (w64 : Bool) : Nat := rawSize w64 + 131136
/-- The bytes of a drain image, from its header. -/
def drainSize (bs : List Byte) : Nat :=
  64 + 512 * fieldLe bs 1 1 + 64 * fieldLe bs 2 1 + sumNat ((drainMap bs).map fun t => drainTileSize t.2)
/-- A header that MRESTORE takes for a block. -/
def drainHeaderOk (b : Block) (bs : List Byte) : Bool :=
  let m := drainMap bs
  fieldLe bs 0 1 = m.length && fieldLe bs 1 1 ≤ 32 && fieldLe bs 2 1 ≤ 8 && fieldLe bs 3 1 = 0 && fieldLe bs 4 4 = b.bid
  && (fieldLe bs 12 4) &&& (fieldLe bs 8 4) = fieldLe bs 12 4 && zeroBytes bs 20 44
  && m.all (fun t => t.1 + slotsFor t.2 ≤ b.acc && (t.2 || t.1 % 4 = 0)
    && m.all fun u => u.1 = t.1 || !slotsMeet t.1 (slotsFor t.2) u.1 (slotsFor u.2))
/-- An operation that an entry or transfer names, as it enters again; the frozen operation with its token tells whose it was. -/
def restoreOp (s : State) (b g : Nat) (bs : List Byte) (transfer : Bool) : Option MatOp :=
  let token := fieldLe bs (if transfer then 56 else 120) 8
  let old := (matOpsOf s b).find? fun e => e.2.frozen && e.2.token = token
  let base : MatOp := {
    kind := natBits token 7 5, block := b, core := (s.blk b).key, g := (old.map fun e => e.2.g).getD g,
    uid := (old.map fun e => e.2.uid).getD (s.grp g).uid, ctx := s.ctxOf g, tile := 0,
    seq := (old.map fun e => e.2.seq).getD (natBits token 31 8), token := token, ipc := (old.map fun e => e.2.ipc).getD (0, 0),
    slot := BitVec.ofNat 96 (fieldLe bs 0 12) }
  let words := (List.range 4).map fun i => BitVec.ofNat 96 (fieldLe bs (12 + 12 * i) 12)
  let par := if transfer then (old.map fun e => e.2.par).getD [] else if WF.ef (fieldsE base.slot) 32 12 = 0 && (fieldsE base.slot).a = 0 then words else []
  match ({ base with par := par }).instr with
  | none => none
  | some (i, e) =>
    let names := MatOp.regNames i e par
    let vals := (List.range names.length).map fun k => fieldLe bs ((if transfer then 16 else 64) + 8 * k) 8
    let rd := valueOf names vals
    let base := { base with par := par, regs := vals }
    match i with
    | .acz _ => some (aczFields e rd base)
    | .acld _ => some (acldFields e rd base)
    | .acst _ =>
      let op := acstFields e par rd base
      some { op with w64 := (old.map fun x => x.2.w64).getD false, mode := (old.map fun x => x.2.mode).getD (effectiveRm (s.grp g) e.h.rm),
                     a := (old.map fun x => x.2.a).getD (shapeOf (rawBytes s op.arec 192)) }
    | _ =>
      let st := fieldLe bs 112 8
      let op := mmFields e par rd base
      let op := { op with s := natBits st 3 0, short := st.testBit 4, full := st.testBit 5, kstep := natBits st 31 16,
                          row := natBits st 39 32, a := shapeOf ((bs.drop 128).take 192), b := shapeOf ((bs.drop 320).take 192) }
      let t : Trap := {
        cause := 0x13, wait := true, addr := ((old.bind fun x => x.2.fault).map fun f => f.addr).getD 0, rec_ := op.arec, prog := st,
        tok := token, ipc := some op.ipc }
      some { op with fault := if st.testBit 7 then some ((old.bind fun x => x.2.fault).getD t) else none }
/-- The tile of one part of an image: its raw image, its element bounds and its status word. -/
def restoreTile (w64 : Bool) (bs : List Byte) : Tile :=
  let t := rawTile w64 bs
  let n := rawSize w64
  { t with bound0 := 0, bounds := grid 0 fun k => fieldLe bs (n + 8 * k) 8, status := fieldLe bs (n + 131072) 8 }
/-- The tiles of an image, from the bytes after its transfers. -/
def restoreTiles : List (Nat × Bool) → List Byte → List (Nat × Tile)
  | [], _ => []
  | (i, w) :: rest, bs => (i, restoreTile w bs) :: restoreTiles rest (bs.drop (drainTileSize w))
/-- The operations that an image's entries and transfers name. -/
def imageOps (s : State) (b g : Nat) (bs : List Byte) : List (Option MatOp) :=
  let ne := fieldLe bs 1 1
  ((List.range ne).map fun i => restoreOp s b g ((bs.drop (64 + 512 * i)).take 512) false)
  ++ (List.range (fieldLe bs 2 1)).map fun i => restoreOp s b g ((bs.drop (64 + 512 * ne + 64 * i)).take 64) true
/-- A block's matrix state becomes an image's: its tiles, its next number, and its operations in program order. -/
def restoreImage (b : Nat) (hd bs : List Byte) (ops : List MatOp) (s : State) : State :=
  let s := { s with matOps := s.matOps.filter fun e => e.2.block ≠ b }
  let s := s.updBlk b fun x =>
    { x with tiles := restoreTiles (drainMap hd) (bs.drop (64 + 512 * fieldLe bs 1 1 + 64 * fieldLe bs 2 1)),
             matSeq := fieldLe hd 16 4 }
  (sortBy (fun x y : MatOp => x.seq ≤ y.seq) ops).foldl enterTable s
/-- The tables of a core's quadrille have room for operations besides those of a block (R151, R172). -/
def tablesHold (s : State) (b ck : Nat) (ops : List MatOp) : Bool :=
  let t := { s with matOps := s.matOps.filter fun e => e.2.block ≠ b }
  tableEntries t (quadOf ck) + (ops.filter (·.owns)).length ≤ 32
  && queueEntries t ck + (ops.filter fun o => !o.multiplies).length ≤ 8
/-- MRESTORE (R407, R422). -/
def mrestoreCore (o : FmtE) : M Unit :=
  privileged o.h do
    let s ← get
    let va := readK s.seen (o.a.toNat - 0x100)
    need (va % 64 = 0) (shapeAt s va)
    checkPoison true (use1 o.a ++ use1 (WF.efF o 43)) [0]
    let rd (n : Nat) : Except Fail (List Byte) := readRange s (xlGrp s s.cur.g needR) va n
    match handleE s o, rd 64 with
    | none, _ => upd (putK o 3 1)
    | _, .error e => uniTrap e.1 e.2
    | some g, .ok hd =>
      let b := (s.grp g).block
      if !allHalted s b || !drainHeaderOk (s.blk b) hd then upd (putK o 3 1)
      else
        match rd (drainSize hd) with
        | .error e => uniTrap e.1 e.2
        | .ok bs =>
          if (imageOps s b g bs).any (·.isNone) then upd (putK o 3 1)
          else if !tablesHold s b (s.blk b).key ((imageOps s b g bs).filterMap id) then stallM
          else upd fun s => putK o 3 0 (restoreImage b hd bs ((imageOps s b g bs).filterMap id) s)
def execMrestore (o : FmtE) (s : State) : Host.Outcome State Fault Refusal := finish (mrestoreCore o) s

/-! ### MRESUME (R408, R422) -/

/-- The frame of MRESUME: the token, the block of the named group, the status. -/
def mresume (o : FmtE) (body : Nat → Nat → State → State × Nat) : M Unit :=
  privileged o.h do
    checkPoison true (use1 o.a ++ use1 (WF.efF o 43)) [0]
    upd fun s =>
      match handleE s o with
      | none => putK o 3 1 s
      | some g =>
        let r := body (readK s.seen (o.a.toNat - 0x100)) (s.grp g).block s
        putK o 3 r.2 r.1
/-- A matrix operation that a fault or the assist has stopped. -/
def stoppedMat (s : State) (b tok : Nat) : Option (Nat × MatOp) :=
  (matOpsOf s b).find? fun e => e.2.token = tok && (e.2.fault.isSome || e.2.assist)
/-- It goes on: a multiplication enters the table again, from its recorded row (R165); an ACST stopped for the assist, at the next
element (R161). -/
def restartMat (s : State) (k : Nat) (o : MatOp) : State :=
  if o.assist then s.setMat k { o with assist := false, elem := o.elem + 1 }
  else s.setMat k { o with fault := none, w := 0, entered := nextEntry s }
/-- The operation that MRESUME names is a multiplication whose table is full: MRESUME waits for an entry (R151). -/
def resumeWaits (s : State) (o : FmtE) : Bool :=
  match handleE s o with
  | none => false
  | some g =>
    match stoppedMat s (s.grp g).block (readK s.seen (o.a.toNat - 0x100)) with
    | some e => e.2.multiplies && e.2.fault.isSome && 32 ≤ tableEntries s (quadOf e.2.core)
    | none => false
def execMresumeMatrix (o : FmtE) (s : State) : Host.Outcome State Fault Refusal :=
  finish (do
    privileged o.h (do
      checkPoison true (use1 o.a ++ use1 (WF.efF o 43)) [0]
      let s ← get
      if resumeWaits s o then stallM)
    mresume o fun tok b s =>
      match stoppedMat s b tok with
      | some e => (restartMat s e.1 e.2, 0)
      | none => (s, 1)) s
def execMresumeCopy (o : FmtE) (s : State) : Host.Outcome State Fault Refusal :=
  finish (mresume o fun tok b s =>
    match copyOf s b tok with
    | some e => if e.2.fault.isSome then ({ s with copies := spPut s.copies e.1 { e.2 with fault := none } }, 0) else (s, 1)
    | none => (s, 1)) s
def execMresumeQuery (o : FmtE) (s : State) : Host.Outcome State Fault Refusal :=
  finish (mresume o fun tok b s =>
    match s.queries.find? fun e => e.2.block = b && e.2.serial = tok && e.2.state = .stopped with
    | some e =>
      if (e.2.fault.map fun f => f.cause) = some badStruct then (s, 2)
      else (s.setQry e.1 { e.2 with state := .running, fault := none, told := false }, 0)
    | none => (s, 1)) s

/-! ### Events that write control registers (R90, R236, R240, R324, R374, R412, R416) -/

def execModeWrite (g : Nat) (v : DWord) (s : State) : Host.Outcome State Fault Refusal :=
  .next (if s.hasGrp g then writeCsr s g 0 v else s)
def execRwaysWrite (d : Nat) (v : DWord) (s : State) : Host.Outcome State Fault Refusal :=
  .next (if diePresent s d then writeRways s d v else s)
def execRefcalWrite (d : Nat) (v : DWord) (s : State) : Host.Outcome State Fault Refusal :=
  .next (if diePresent s d then writeRefcal s d v else s)
def execPavaneWrite (d : Nat) (v : DWord) (s : State) : Host.Outcome State Fault Refusal :=
  .next (if diePresent s d then writePavane s d v else s)
def execRingpoolWrite (d : Nat) (v : DWord) (s : State) : Host.Outcome State Fault Refusal :=
  .next (if diePresent s d then writeRingpool s d v else s)
def execErrcntWrite (d : Nat) (v : DWord) (s : State) : Host.Outcome State Fault Refusal :=
  .next (if diePresent s d then writeErrcnt s d v else s)
/-- CSR_WRITE: FSTAT and LATECNT of a group, TVEC of a control core; another number is none of its registers. -/
def execCsrWrite (g csr : Nat) (v : DWord) (s : State) : Host.Outcome State Fault Refusal :=
  .next (if s.hasGrp g && (csr = 1 || csr = 2 || (csr = 0x409 && isControl g)) then writeCsr s g csr v else s)

/-! ### The control core's dispatch (R402, R413) -/

/-- TRAP_DISPATCH (R384, R402): the oldest trap is taken; one with TCAUSE.dom set goes to its fault domain's policy. -/
def takeOldest (s : State) (quad : Nat) : State :=
  match (s.handler quad).queue with
  | [] => s
  | e :: _ =>
    let s := dispatchTrap s quad
    match e.dom with
    | some cr => applyPolicy s cr.1 cr.2 (quad / 12) (quad % 12) e.regs
    | none => s
def execTrapDispatch (quad : Nat) (s : State) : Host.Outcome State Fault Refusal :=
  finish (do
    onlyIf (dieRuns s (quad / 12) && !(s.handler quad).running && (s.handler quad).queue ≠ [])
    upd fun s => takeOldest s quad) s
/-- MACHINE_CHECK (R413). -/
def execMachineCheck (d : Nat) (s : State) : Host.Outcome State Fault Refusal :=
  finish (do
    onlyIf (diePresent s d && !(s.die d).mcheck)
    upd fun s => machineCheck (countLost s d 7 none) d) s

end Sys2Proof.Machine
end

