-- ==== Sys2Proof/Machine/Sched.lean ====
section
/-! DEFINITION. Sched.lean: the Caller (12_scheduling): launch records and their checks, queues and admission, staging,
placement, quantum swaps, pavane mapping, launch completion; WSSTAGE and WSDROP. -/

namespace Sys2Proof.Machine

/-! ### Launch records (R302, R303) -/

/-- The fields of a launch record (Table 12-2). -/
def launchRecOf (bs : List Byte) : LaunchRec :=
  { code := le bs 0 8, entry := le bs 8 4, regs := le bs 12 2, uregs := le bs 14 1, planes := le bs 15 1, sp := le bs 16 4,
    acc := le bs 20 1, barriers := le bs 21 1, groups := le bs 22 1, prio := le bs 23 1, gx := le bs 24 4, gy := le bs 28 4,
    gz := le bs 32 4, region := le bs 36 2, dmask := le bs 38 2, flags := le bs 40 4, vcores := le bs 44 4,
    wsdecl := le bs 48 8, param := le bs 56 8, done := le bs 64 8, bound := le bs 72 4 }
/-- The requirements of Table 12-2. -/
def launchRecOk (bs : List Byte) : Bool :=
  let r := launchRecOf bs
  limitsOk r.regs r.uregs r.planes r.sp && r.code % (r.planes * 64) = 0 && r.entry < 2 ^ 27 && r.acc ≤ 32 && r.barriers ≤ 16
  && 1 ≤ r.groups && r.groups ≤ 16 && r.prio ≤ 7 && 1 ≤ r.nblk && r.nblk < 2 ^ 32 && r.flags < 32
  && (if r.flags.testBit 2 then 1 ≤ r.vcores && r.vcores ≤ 65535 else r.vcores = 0) && r.wsdecl % 64 = 0 && r.done % 8 = 0
  && zeros bs 76 52
/-- The dies of a launch, ascending (R312). -/
def Launch.dies (l : Launch) : List Nat := if l.lr.dmask = 0 then [l.lead] else (List.range 16).filter fun d => l.lr.dmask.testBit d

/-- The header of a working-set declaration and its ranges (Table 12-4); none where a byte of it cannot be read. -/
def declBytes (s : State) (c va : Nat) : Option (List Byte) :=
  match readRange s (xlCtx s c needR) va 64 with
  | .error _ => none
  | .ok h =>
    match readRange s (xlCtx s c needR) (va + 64) (16 * min 8 (le h 0 1)) with
    | .error _ => none
    | .ok r => some (h ++ r)
def rangeTgt (bs : List Byte) (i : Nat) : Nat := le bs (8 + i) 1
def rangeLook (bs : List Byte) (i : Nat) : Nat := le bs (16 + i) 1
def rangeSp (bs : List Byte) (i : Nat) : Nat := 128 * le bs (24 + 2 * i) 2
def rangeLen (bs : List Byte) (i : Nat) : Nat := le bs (72 + 16 * i) 4
/-- Where range i begins for block b (R308). -/
def rangeVa (bs : List Byte) (i b : Nat) : Nat :=
  (((le bs (64 + 16 * i) 8 : Nat) : Int) + 128 * ((b : Nat) : Int) * signedNat 32 (le bs (76 + 16 * i) 4)).toNat
/-- The header keeps R308: its count, the targets, lookaheads and offsets of its ranges, and its zeros. -/
def headerOk (bs : List Byte) : Bool :=
  le bs 0 1 ≤ 8 && zeros bs 1 7 && zeros bs 40 24 && (List.range (le bs 0 1)).all fun i =>
    rangeTgt bs i ≤ 2 && rangeLook bs i ≤ 15 && (rangeTgt bs i ≠ 0 || rangeSp bs i = 0)
/-- The entry of range i keeps R308. -/
def entryOk (bs : List Byte) (i : Nat) : Bool :=
  le bs (64 + 16 * i) 8 % 128 = 0 && rangeLen bs i % 128 = 0 && 128 ≤ rangeLen bs i && rangeLen bs i ≤ 2 ^ 28
/-- The declaration keeps R308 for blocks of `sp` scratchpad bytes. -/
def declOk (bs : List Byte) (sp : Nat) : Bool :=
  headerOk bs && (List.range (le bs 0 1)).all fun i =>
    entryOk bs i && (rangeTgt bs i = 0 || rangeSp bs i + rangeLen bs i ≤ sp)

/-- The context's entry and the RCBs of the region's chain, as memory holds them, keep Tables 15-1 and 15-2 (R381, R382). -/
def regionValid (s : State) (c r : Nat) : Bool :=
  ctxValid s c && r < rawNat s (ctxEntry s c + 6) 2
  && match chainNow s c 8 r with
     | some ch => ch.all (rcbOk s c)
     | none => false
/-- Every region of the chain grants a die. -/
def dieGranted (s : State) (c r d : Nat) : Bool :=
  ((regionChain s c r).getD []).all fun t => (regionOf s c t).dmask.testBit d
/-- n blocks fit on an idle core (R313); of a pavane launch, with every group on a track of its own (R320). -/
def idleFits (r : LaunchRec) (pav : Bool) (n : Nat) : Bool :=
  n ≤ 16 && n * r.groups ≤ 64 && n * evens r.groups ≤ 32 && 64 * (n * r.groups * r.regs) ≤ 131072 && n * r.groups * r.uregs ≤ 4096
  && n * spLines r.sp r.groups ≤ 3840 && (r.acc = 0 || (n - 1) * ((r.acc + 3) / 4 * 4) + r.acc ≤ 32)
  && (!pav || (n * r.groups ≤ 16 && n * evens r.groups ≤ 8))
/-- Blocks that fit on an idle core. -/
def idleCore (r : LaunchRec) (pav : Bool) : Nat := (List.range 17).foldl (fun m n => if idleFits r pav n then max m n else m) 0
/-- Blocks that an idle die can hold within the budgets of the region's chain, k to a core. -/
def idleDie (s : State) (c : Nat) (r : LaunchRec) (k : Nat) : Nat :=
  ((regionChain s c r.region).getD []).foldl (fun n t =>
    let e := regionOf s c t
    let n := min n (min (e.cores * k) (e.groups / max 1 r.groups))
    let n := if r.sp = 0 then n else min n (e.sp / r.sp)
    if r.acc = 0 then n else min n (e.acc / r.acc)) (48 * k)
/-- Why the Caller of die d refuses a record of context c (R303, Table 12-3): 0 if it does not. `issuer` is the region of the
group or walk that submits it; the record's region is to lie in the tree of its context (R368). -/
def refusal (s : State) (d c : Nat) (bs : List Byte) (issuer : Option Nat) : Nat :=
  let r := launchRecOf bs
  let dies := Launch.dies { lr := r, lead := d }
  let m := dies.length
  if !launchRecOk bs || !regionValid s c r.region then 1
  else if r.wsdecl ≠ 0 && !(match declBytes s c r.wsdecl with | some h => declOk h r.sp | none => false) then 1
  else if issuer.isSome && !inSubtree s c 0 r.region then 3
  else if dies.any fun x => !diePresent s x || !dieGranted s c r.region x then 2
  else if overBudget s c r.region r.req then 3
  else if idleCore r false = 0 then 4
  else if r.flags.testBit 2 then
    (if (dies.any fun x => !(s.die x).pavaneEn) || r.vcores > m * idleDie s c r (idleCore r true) then 6
     else if r.flags.testBit 3 && r.vcores < r.nblk then 5 else 0)
  else if r.flags.testBit 3 && (r.nblk + m - 1) / m > idleDie s c r (idleCore r false) then 5
  else 0
/-- The shares of R312; a pavane launch's are made when its virtual cores are mapped. -/
def sharesOf (l : Launch) : List Share :=
  let n := l.lr.nblk
  let m := l.dies.length
  if l.pavane then [{ die := l.lead, next := 0, stop := n }]
  else (l.dies.mapIdx fun k d => ({ die := d, next := k * n / m, stop := (k + 1) * n / m } : Share)).filter fun h => h.next < h.stop
/-- A launch record reaches the Caller of die d (R303, R307, R368): queued or refused. A refusal for budget is reported to the
region's fault domain. Answers the launch's name and the reason. -/
def enqueue (s : State) (d c va : Nat) (bs : List Byte) (issuer path : Option Nat) (deadline : Nat) : State × Nat × Nat :=
  let k := spFresh s.launches
  let reason := refusal s d c bs issuer
  let x : Launch := { lr := launchRecOf bs, va := va, ctx := c, lead := d, path := path, deadline := deadline }
  if reason = 0 then (refreshHeads { s with launches := spPut s.launches k { x with shares := sharesOf x } }, k, 0)
  else
    let s := { s with launches := spPut s.launches k { x with state := .refused, reason := reason } }
    let reg := match issuer with | some t => if inSubtree s c 0 x.lr.region then x.lr.region else t | none => x.lr.region
    (if reason = 3 then domFault s d c reg { cause := 0x18 } else s, k, reason)

/-! ### Working sets and staging (R308 to R311) -/

/-- Ranges a launch declares: the declaration, empty where there is none. -/
def Launch.decl (s : State) (l : Launch) : List Byte := if l.lr.wsdecl = 0 then [] else (declBytes s l.ctx l.lr.wsdecl).getD []
/-- Every declared range of a block has landed (R310). -/
def stagedAll (s : State) (l bid : Nat) : Bool :=
  (List.range (le ((s.lch l).decl s) 0 1)).all fun i =>
    s.stages.any fun e => e.2.launch = l && e.2.bid = bid && e.2.range = i && e.2.left = 0
/-- A placed block dispatches when all its ranges have landed. -/
def tryDispatch (s : State) (b : Nat) : State :=
  if (s.blk b).state = .placed && stagedAll s (s.blk b).launch (s.blk b).bid then dispatchBlock s b else s
/-- A block's staging at placement: the lines of its scratchpad ranges are empty (R309), ranges already under way are its own. -/
def startBlock (s : State) (b : Nat) : State :=
  let x := s.blk b
  let bs := (s.lch x.launch).decl s
  let lines := (List.range (le bs 0 1)).flatMap fun i =>
    if rangeTgt bs i = 0 then [] else (List.range (rangeLen bs i / 128)).map (rangeSp bs i / 128 + ·)
  let s := s.setBlk b { x with empty := lines.foldl (fun m l => spPut m l 0) x.empty }
  let s := { s with stages := s.stages.map fun e => if e.2.launch = x.launch && e.2.bid = x.bid then (e.1, { e.2 with block := some b }) else e }
  tryDispatch s b
/-- The share that holds a BID: by virtual core in a pavane launch, else by R312. -/
def shareOf (l : Launch) (bid : Nat) : Nat :=
  if l.pavane then bid % max 1 l.lr.vcores else (l.shares.findIdx? fun h => bid < h.stop).getD 0
/-- The block of a launch with a BID, in any state. -/
def findBid (s : State) (l bid : Nat) : Option Nat :=
  (s.blocks.find? fun e => e.2.launch = l && e.2.bid = bid && e.2.spawnOf.isNone).map (·.1)
/-- The lowest BID of a launch on a die that has not dispatched. -/
def nextDispatch (s : State) (l d : Nat) : Option Nat :=
  let placed := (s.blocks.filter fun e => e.2.launch = l && e.2.die = d && e.2.state = .placed).map (·.2.bid)
  let ahead := ((s.lch l).shares.filter fun h => h.die = d && h.next < h.stop).map (·.next)
  (placed ++ ahead).foldl (fun m b => match m with | some x => some (min x b) | none => some b) none
/-- The block of a launch with a BID stands on a die, placed or running. -/
def bidOn (s : State) (die launch bid : Nat) : Bool :=
  match findBid s launch bid with
  | some b => (s.blk b).die = die && ((s.blk b).state = .placed || (s.blk b).state = .running)
  | none => false
def bidRuns (s : State) (launch bid : Nat) : Bool :=
  match findBid s launch bid with
  | some b => (s.blk b).state = .running
  | none => false
/-- A staging engine of the die may begin the range: the launch's earlier ranges of that block have begun, but for those that wait
for the block's scratchpad; the block runs or lies within the range's lookahead; a scratchpad target has its scratchpad; and one of
the four engines is free. -/
def stagingOk (s : State) (die launch bid range : Nat) : Bool :=
  let l := s.lch launch
  let bs := l.decl s
  let have_ (i : Nat) : Bool := s.stages.any fun e => e.2.launch = launch && e.2.bid = bid && e.2.range = i
  let near : Bool := match nextDispatch s launch die with | some n => n ≤ bid && bid ≤ n + rangeLook bs range | none => false
  let on := bidOn s die launch bid
  l.state = .running && range < le bs 0 1 && !have_ range
  && (List.range range).all (fun i => have_ i || rangeTgt bs i ≠ 0 && !on)
  && ((l.shares[shareOf l bid]?).map (·.die)) = some die
  && (near || (on && bidRuns s launch bid)) && (rangeTgt bs range = 0 || on)
  && (s.stages.filter fun e => e.2.die = die && 0 < e.2.left && !e.2.stopped).length < 4
/-- The job is one of the first four of its die that are under way (R309). -/
def stageServed (s : State) (k : Nat) (j : Stage) : Bool :=
  (s.stages.filter fun e => e.2.die = j.die && e.1 < k && 0 < e.2.left && !e.2.stopped).length < 4
/-- A scratchpad range stops at a line: the groups that wait on its lines try again, and take its trap (R309). -/
def stopStage (s : State) (k b sp : Nat) (j : Stage) : State :=
  let s := { s with stages := spPut s.stages k { j with stopped := true } }
  (List.range j.left).foldl (fun s i => wakeLine s b (sp / 128 + j.landed + i)) s
/-- The staging of a range begins. -/
def beginStaging (die launch bid range : Nat) (s : State) : State :=
  let l := s.lch launch
  let bs := l.decl s
  let j : Stage := {
    die := die, block := findBid s launch bid, launch := launch, bid := bid, range := range, ctx := l.ctx, region := l.region,
    va := rangeVa bs range bid, left := rangeLen bs range / 128, landed := 0,
    sp := if rangeTgt bs range = 0 then none else some (rangeSp bs range), l2 := rangeTgt bs range ≠ 1,
    demand := nextDispatch s launch die = some bid }
  { s with stages := spPut s.stages (spFresh s.stages) j }
/-- STAGING (R309): one of a die's four staging engines begins a range of a block within its lookahead. -/
def execStaging (die launch bid range : Nat) (s : State) : Host.Outcome State Fault Refusal :=
  finish (do
    onlyIf (stagingOk s die launch bid range)
    upd (beginStaging die launch bid range)) s
/-- One line of a staging job: an L2 target changes no value and skips a failing line; a scratchpad target writes its line and
turns it full, and stops at a line that cannot be read (R309). -/
def landLine (s : State) (k : Nat) (j : Stage) : State :=
  let a := j.va + 128 * j.landed
  let next : Stage := { j with landed := j.landed + 1, left := j.left - 1 }
  let went (s : State) : State := { s with stages := spPut s.stages k next }
  match j.sp, j.block with
  | some sp, some b =>
    (match xlCtx s j.ctx needR a with
     | .bad _ => stopStage s k b sp j
     | .ok pa _ =>
       let s := if readWaits s j.die (lineOf pa) then settleLine s (lineOf pa) else s
       let r := engineRead s j.die pa 128
       if r.2 then stopStage s k b sp j
       else
         let s := s.updBlk b fun x => spWrite x (sp + 128 * j.landed) r.1
         let s := went (setFull s b (sp / 128 + j.landed))
         if next.left = 0 then tryDispatch s b else s)
  | _, some b => if next.left = 0 then tryDispatch (went s) b else went s
  | _, none => if next.left = 0 && s.launches.all (·.1 ≠ j.launch) then { s with stages := spDel s.stages k } else went s
/-- STAGING_LINE_LAND (R309). -/
def execStagingLineLand (job : Nat) (s : State) : Host.Outcome State Fault Refusal :=
  finish (do
    match spFind s.stages job with
    | some j => if 0 < j.left && !j.stopped && stageServed s job j then upd fun s => landLine s job j else idleM
    | none => idleM) s
/-- DISPATCH_TIMEOUT (R310): 40,000 fabric cycles after placement. -/
def execDispatchTimeout (b : Nat) (s : State) : Host.Outcome State Fault Refusal :=
  finish (do
    onlyIf ((spFind s.blocks b).isSome && (s.blk b).state = .placed && (s.blk b).placedAt + 80000 ≤ s.clock)
    upd fun s => dispatchBlock s b) s

/-! ### WSSTAGE and WSDROP (R325) -/

/-- The frame of both: the declaration read, its header checked, then the selected ranges for block b; one whose entry breaks R308 is
left out (log 83). -/
def wsCore (o : FmtE) (body : List Byte → Nat → List Nat → State → State) : M Unit :=
  uniStruct o (use1 o.a ++ use1 (WF.efF o 43)) 64 64 needR fun va _ => do
    upd fun s => settleRange s (xlGrp s s.cur.g needR) va 192
    let s ← get
    match readRange s (xlGrp s s.cur.g needR) va 64 with
    | .error e => uniTrap e.1 e.2
    | .ok h => do
      need (headerOk h) (shapeAt s va)
      match readRange s (xlGrp s s.cur.g needR) (va + 64) (16 * le h 0 1) with
      | .error e => uniTrap e.1 e.2
      | .ok r => do
        let bs := h ++ r
        let b := e32 s true (WF.efF o 43) 0
        upd (body bs b ((List.range (le bs 0 1)).filter fun i => (WF.ef o 42 35).testBit i && entryOk bs i))
/-- Staging jobs to L2 for ranges of a declaration, for block b. -/
def stageRanges (demand : Bool) (bs : List Byte) (b : Nat) (is : List Nat) (s : State) : State :=
  is.foldl (fun s i =>
    let j : Stage := {
      die := coreDie (placeCore s.cur.g), block := none, launch := 2 ^ 64, bid := b, range := i, ctx := s.ctxOf s.cur.g,
      region := (s.grpLch s.cur.g).region, va := rangeVa bs i b, left := rangeLen bs i / 128, landed := 0, sp := none, l2 := true,
      demand := demand }
    { s with stages := spPut s.stages (spFresh s.stages) j }) s
/-- WSSTAGE (R325): the ranges are staged to L2 only. -/
def execWsstage (o : FmtE) (s : State) : Host.Outcome State Fault Refusal :=
  finish (wsCore o (stageRanges (WF.ef o 34 34 = 1))) s
/-- Staging jobs in flight that meet a range end. -/
def dropRanges (bs : List Byte) (b : Nat) (is : List Nat) (s : State) : State :=
  let c := s.ctxOf s.cur.g
  let hit (e : Nat × Stage) : Bool := e.2.ctx = c && 0 < e.2.left && is.any fun i =>
    rangeVa bs i b < e.2.va + 128 * (e.2.landed + e.2.left) && e.2.va < rangeVa bs i b + rangeLen bs i
  { s with stages := (s.stages.filter fun e => !(hit e && e.2.launch = 2 ^ 64)).map fun e =>
      if hit e then (e.1, { e.2 with stopped := true, told := true }) else e }
/-- WSDROP (R325): staging in flight for the ranges is cancelled; the move of lines to an eviction position changes no
value. -/
def execWsdrop (o : FmtE) (s : State) : Host.Outcome State Fault Refusal :=
  finish (wsCore o dropRanges) s

/-! ### Placing (R305 to R307, R312, R320) -/

/-- A core of die d where a block of launch l fits within the core and the budgets (R306, R313, R383). -/
def roomCore (s : State) (d l : Nat) (q : Req) : Option Nat :=
  let x := s.lch l
  if !dieRuns s d then none
  else bestCore s d fun ck => !heldByPavane s ck l && fitsCore s ck q && budgetOk s x.ctx x.region d ck q
/-- Block bid of a launch takes its place on a core, and is its share's last placed. -/
def placeBid (s : State) (l i bid ck : Nat) : State :=
  let x := s.lch l
  let s := if x.again.contains bid then s.updLch l fun x => { x with again := x.again.erase bid }
    else setShare s l i fun h => { h with next := if x.pavane then h.next + x.lr.vcores else bid + 1 }
  let s := setShare s l i fun h => { h with since := some s.clock, adm := true }
  let r := placeOn s l bid ck
  startBlock r.1 r.2
/-- The BID a share places next: a flushed one first (R318). -/
def nextOf (l : Launch) (i : Nat) : Option Nat :=
  match l.again.find? fun b => shareOf l b = i, l.shares[i]? with
  | some b, _ => some b
  | none, some h => if h.next < h.stop then some h.next else none
  | none, none => none
/-- Place the next block of a share, if it fits. A virtual core runs one block at a time (R320). -/
def placeNext (s : State) (l i : Nat) : Option State :=
  let x := s.lch l
  match nextOf x i, x.shares[i]? with
  | some bid, some h =>
    if x.pavane then
      let ck := x.vmap.getD i 0
      let busy := s.blocks.any fun e => e.2.launch = l && e.2.vcore = i && e.2.spawnOf.isNone
      if !busy && dieRuns s h.die && !heldByPavane s ck l && fitsCore s ck x.lr.req && budgetOk s x.ctx x.region h.die ck x.lr.req then
        some (placeBid s l i bid ck) else none
    else (roomCore s h.die l x.lr.req).map (placeBid s l i bid)
  | _, _ => none
/-- Admission gives the launch its serial number (R359). -/
def beginRunning (s : State) (l : Nat) : State :=
  if (s.lch l).state = .queued then
    { (s.updLch l fun x => { x with state := .running, serial := s.nextSerial + 1 }) with nextSerial := s.nextSerial + 1 }
  else s
/-- A coresident launch is placed whole or not at all (R307). -/
def placeWhole (s : State) (l : Nat) : Option State :=
  let x := s.lch l
  (x.shares.zipIdx).foldl (fun acc e =>
    (List.range (e.1.stop - e.1.next)).foldl (fun acc _ => acc.bind fun s => placeNext s l e.2) acc) (some (beginRunning s l))
/-- Cores of a die with nothing resident (R320). -/
def idleCores (s : State) (d l : Nat) : List Nat :=
  if !dieRuns s d then []
  else ((List.range 48).map (d * 64 + ·)).filter fun ck => (coreBlocks s ck).isEmpty && (reservedOn s ck).isEmpty && !heldByPavane s ck l
/-- The virtual cores of a pavane launch are mapped, and the first block of each is placed: all of them, or none (R307, R320). -/
def placePavane (s : State) (l : Nat) : Option State :=
  let x := s.lch l
  let v := x.lr.vcores
  let slots := x.dies.flatMap fun d => (idleCores s d l).flatMap fun ck => List.replicate (idleCore x.lr true) ck
  if slots.length < v then none
  else
    let vmap := slots.take v
    let shares : List Share := vmap.mapIdx fun i ck => { die := coreDie ck, next := i, stop := x.lr.nblk, since := some s.clock, adm := true }
    let s := (beginRunning s l).updLch l fun x => { x with vmap := vmap, shares := shares }
    (List.range (min v x.lr.nblk)).foldl (fun acc i => acc.bind fun s => placeNext s l i) (some s)

/-- No launch of the context on the die that the weight-store rule keeps apart from this one is active there (R239). -/
def wsFree (s : State) (l d : Nat) : Bool :=
  let x := s.lch l
  let reads (y : Launch) : Bool := 0 < (Launch.reg s y).wsbanks
  !(s.launches.any fun e => e.1 ≠ l && e.2.state = .running && e.2.ctx = x.ctx && (e.2.shares.any fun h => h.die = d && h.adm)
    && ((x.flag 4 && reads e.2) || (e.2.flag 4 && reads x)))
/-- A queue head is admitted if it fits; an entry of the context table or an RCB that is broken refuses it (R381, R382). The regions'
fields that count are those that stand now (R383). -/
def tryHead (s : State) (d l i : Nat) : Option State :=
  let x := s.lch l
  let s := if regionValid s x.ctx x.region then latchRegions s x.ctx l else s
  if !regionValid s x.ctx x.region then some (s.updLch l fun x => { x with state := .refused, reason := 1, shares := [] })
  else if !(if x.whole then x.dies.all (wsFree s l) else wsFree s l d) then none
  else if x.pavane then placePavane s l
  else if x.whole then placeWhole s l
  else (placeNext s l i).map fun s => beginRunning s l

/-! ### Save and restore of a block (R319, R405, R406) -/

/-- What is left of a wait at a save, and counted again from a restore (R406). -/
def Wait.pause (w : Wait) (clock turns : Nat) : Wait :=
  match w with
  | .sleep u => .sleep (u - clock)
  | .sleepTurns n => .sleepTurns (n - turns)
  | w => w
def Wait.unpause (w : Wait) (clock turns : Nat) : Wait :=
  match w with
  | .sleep u => .sleep (u + clock)
  | .sleepTurns n => .sleepTurns (n + turns)
  | w => w
/-- The block's state goes into its image and its core is free: loads in flight end, dirty bytes are written back, requests at
home slices are withdrawn, matrix work is frozen, queued traps and operand log entries leave with it. -/
def saveBlock (s : State) (b : Nat) : State :=
  let x := s.blk b
  let ck := x.key
  let gs := s.groupsOf b
  let own (g : Nat) : Bool := gs.contains g
  let s := ((s.loads.filter fun e => own e.2.g).map (·.1)).foldl completeLoad s
  let s := writeBackAll s ck
  let turns := (s.core ck).turns
  let groups := gs.map fun g =>
    let y := endLine (s.grp g)
    ({ place := g, group := { y with wait := y.wait.pause s.clock turns, track := if s.grpPavane g then y.track else none } } : SavedGroup)
  let mine (w : Waiter) : Bool := match w.what.grp with | some p => own p.1 | none => false
  let waits := (s.waiters.filter fun e => mine e.2).map fun e => (e.2.header, e.2.what)
  let ours (q : TrapEntry) : Bool := match q.group with | some g => own g | none => false
  let traps := ((s.handler (quadOf ck)).queue.filter ours).map fun q => (q.group.getD 0, q.regs)
  let frz (e : Nat × MatOp) : Nat × MatOp := if e.2.block = b then (e.1, { e.2 with frozen := true, passes := 0, w := 0, buf := [], elem := 0, assist := false }) else e
  let unlog (e : LogEntry) : LogEntry := if own e.g then { e with core := 2 ^ 60 } else e
  let y := s.blk b
  let s := s.setBlk b { y with
    state := .saved, saving := false, draining := false, saved := groups, savedTraps := traps, savedWaits := waits,
    savedTurn := ((s.core ck).turn, turns) }
  let s := s.updHandler (quadOf ck) fun h => { h with queue := h.queue.filter fun q => !ours q }
  let s := { s with
    groups := s.groups.filter fun e => !own e.1
    waiters := s.waiters.filter fun e => !mine e.2
    matOps := s.matOps.map frz
    oplog := s.oplog.map unlog }
  fillCore s ck
/-- A request at a home slice is made again at the restore. -/
def remake (s : State) (header : Nat) (w : WaitFor) : State :=
  let k := spFresh s.waiters
  match w with
  | .deq g _ _ _ =>
    if s.grpPavane g then
      { s with waiters := spPut s.waiters k { slice := sliceKey header, header := header, parked := false, since := s.clock,
                                              what := w, gather := some (gatherOrder s g) } }
    else serveDeqOne (addWaiter s header w) k
  | _ => serveRingOne (addWaiter s header w) k
/-- Tracks a saved pavane block held are free on a core. -/
def tracksFree (s : State) (x : Block) (ck : Nat) : Bool :=
  x.saved.all fun e => match e.group.track with | some t => !trackUsed s ck (halfOf e.group) t | none => true
/-- A block's matrix operations enter their tables again, in order of issue (R151, R407). -/
def reenter (s : State) (b : Nat) : State :=
  (sortBy (fun x y : Nat × MatOp => x.2.seq ≤ y.2.seq) (matOpsOf s b)).foldl (fun s e =>
    s.setMat e.1 { e.2 with w := 0, entered := nextEntry s }) s
/-- The block returns to a core with everything its image holds, and its groups go on (R406). -/
def restoreBlock (s : State) (b ck : Nat) : State :=
  let x := s.blk b
  let d := coreDie ck
  let s := invalidateClean s ck
  let s := growWays (s.setBlk b { x with
    state := if x.saved = [] then .affine else .running, die := d, core := coreIdx ck,
    place := if x.key = ck && !((coreBlocks s ck).any fun e => e.2.place = x.place) then x.place else freePlace s ck,
    accBase := (accRun s ck x.acc).getD 0, placedAt := s.clock, saved := [], savedTraps := [], savedWaits := [], stopped := [] }) ck
  let turns := (s.core ck).turns
  -- each group takes a slot; `now` names the new place of an old one
  let r := x.saved.foldl (fun (acc : State × List (Nat × Nat)) e =>
    let g := freeSlot acc.1 ck
    let w := match e.group.wait with
      | .fullEmpty _ => Wait.none | .tokwait => Wait.none | .fullLog => Wait.none | .recv _ => Wait.none
      | w => w.unpause acc.1.clock turns
    (acc.1.setGrp g { e.group with wait := w, readyAt := acc.1.clock }, acc.2 ++ [(e.place, g)])) (s, [])
  let s := r.1
  let now (g : Nat) : Nat := ((r.2.find? fun p => p.1 = g).map (·.2)).getD g
  let was (g uid : Nat) : Bool := x.saved.any fun e => e.place = g && e.group.uid = uid
  let cp (e : Nat × Copy) : Nat × Copy :=
    if e.2.block = b then (e.1, { e.2 with core := ck, g := if was e.2.g e.2.uid then now e.2.g else e.2.g }) else e
  let mo (e : Nat × MatOp) : Nat × MatOp :=
    if e.2.block = b then (e.1, { e.2 with core := ck, frozen := false, g := if was e.2.g e.2.uid then now e.2.g else e.2.g }) else e
  let qu (e : Nat × Query) : Nat × Query :=
    if e.2.block = b then (e.1, { e.2 with die := d, core := ck, g := if was e.2.g e.2.uid then now e.2.g else e.2.g }) else e
  let lg (e : LogEntry) : LogEntry := if e.core = 2 ^ 60 && was e.g e.uid then { e with core := ck, g := now e.g } else e
  let wt (w : WaitFor) : WaitFor := match w with
    | .take g u n o => .take (now g) u n o
    | .at_ g u n o => .at_ (now g) u n o
    | .deq g u ts o => .deq (now g) u ts o
    | .watch c => .watch c
  let s := { s with
    copies := s.copies.map cp
    matOps := s.matOps.map mo
    queries := s.queries.map qu
    oplog := s.oplog.map lg }
  let s := reenter s b
  -- spawn reservations are held again, on a core of the die
  let s := x.binds.foldl (fun s e => match e.2.spawn with
    | some c =>
      let free := setBind s b e.1 { e.2 with spawn := none }
      setBind s b e.1 { e.2 with spawn := some { c with core := (chooseCore free d x.launch c.req).getD ck } }
    | none => s) s
  let s := if (s.lch x.launch).pavane then
      (let s := if (coreBlocks s ck).length = 1 then s.updCore ck fun c => { c with turn := x.savedTurn.1 } else s
       s.updLch x.launch fun l => { l with vmap := l.vmap.set x.vcore ck })
    else s
  let s := x.savedTraps.foldl (fun s e => queueTrap s (quadOf ck) (some (now e.1))
    { e.2 with tgroup := BitVec.ofNat 64 (handleOf s (now e.1)) }) s
  let s := x.savedWaits.foldl (fun s e => remake s e.1 (wt e.2)) s
  let s := r.2.foldl (fun s e =>
    if x.stopped.contains (s.grp e.2).uid && !(s.lch x.launch).halted then resumeGroup s e.2 else s) s
  fillCore s ck
/-- Where a saved block can return: on the core it left when it is core-affine, else on any core of its die that fits (R319). -/
def restoreCore (s : State) (b : Nat) : Option Nat :=
  let x := s.blk b
  let l := s.lch x.launch
  let slots := x.saved.map fun e => (e.group.gidx, e.group.regs, e.group.uregs)
  let q : Req := { groups := x.ngroups, regs := x.regs, uregs := x.uregs, sp := x.spSize, acc := x.acc }
  let ops := (matOpsOf s b).map fun e => { e.2 with frozen := false }
  let affine := x.saved = [] || s.copies.any fun e => e.2.block = b && !e.2.complete
  let ok (ck : Nat) : Bool := !heldByPavane s ck x.launch && fitsSlots s ck slots x.spSize x.acc && tablesHold s b ck ops && budgetOk s l.ctx l.region x.die ck q
    && (!affine || (ck = x.key && !((coreBlocks s ck).any fun e => e.2.place = x.place)))
    && (!l.pavane || tracksFree s x ck)
  if !dieRuns s x.die then none else bestCore s x.die ok

/-! ### The order of admission, placement and restore (R305, R319) -/

/-- What may take capacity on a die: kind 0 a queue head, 1 the next block of an admitted launch, 2 a saved block. -/
structure Cand where
  kind : Nat
  launch : Nat
  idx : Nat
  eff : Nat
  deriving DecidableEq, Repr

/-- The effective class of R305: one more for every 32 µs waited. -/
def effClass (s : State) (l : Nat) (since : Option Nat) : Nat := min 7 ((s.lch l).lr.prio + (s.clock - since.getD s.clock) / 128000)
def shareSince (s : State) (l i : Nat) : Option Nat := ((s.lch l).shares[i]?).bind (·.since)
/-- The candidates of a die, best first: by effective class, then by arrival; a saved block before its launch's unplaced ones. -/
def candsOf (s : State) (d : Nat) : List Cand :=
  let heads := (List.range 8).filterMap fun c => (headAt s d c).map fun h =>
    ({ kind := 0, launch := h.1, idx := h.2, eff := effClass s h.1 (shareSince s h.1 h.2) } : Cand)
  let active := s.launches.flatMap fun e =>
    if e.2.state ≠ .running then [] else
      ((e.2.shares.zipIdx).filter fun h => h.1.die = d && h.1.adm && (nextOf e.2 h.2).isSome).map fun h =>
        ({ kind := 1, launch := e.1, idx := h.2, eff := effClass s e.1 h.1.since } : Cand)
  let saved := (s.blocks.filter fun e => e.2.state = .saved && e.2.die = d).map fun e =>
    ({ kind := 2, launch := e.2.launch, idx := e.1, eff := effClass s e.2.launch (shareSince s e.2.launch (shareOf (s.lch e.2.launch) e.2.bid)) } : Cand)
  let le (a b : Cand) : Bool :=
    b.eff < a.eff || (a.eff = b.eff && (a.launch < b.launch || (a.launch = b.launch && b.kind ≤ a.kind)))
  sortBy le (saved ++ heads ++ active)
/-- What a candidate does if it fits. -/
def tryCand (s : State) (d : Nat) (c : Cand) : Option State :=
  match c.kind with
  | 0 => tryHead s d c.launch c.idx
  | 1 => placeNext s c.launch c.idx
  | _ => (restoreCore s c.idx).map fun ck => setShare (restoreBlock s c.idx ck) c.launch (shareOf (s.lch c.launch) (s.blk c.idx).bid)
      fun h => { h with since := some s.clock }
/-- The first candidate that fits; a head of class 7 that does not fit holds the die from launches that arrived later. -/
def firstFit (s : State) (d : Nat) : List Cand → Option Nat → Option (Cand × State)
  | [], _ => none
  | c :: r, hold =>
    if hold.any (· < c.launch) then firstFit s d r hold
    else match tryCand s d c with
      | some t => some (c, t)
      | none => firstFit s d r (if hold.isNone && c.kind = 0 && c.eff = 7 then some c.launch else hold)
/-- A whole launch of class 7 that waits as head of another die's queue holds this die too. -/
def heldFor (s : State) (d : Nat) : Option Nat :=
  (s.launches.find? fun e => e.2.whole && e.2.state = .queued && e.2.lead ≠ d && e.2.dies.contains d
    && (shareSince s e.1 0).isSome && effClass s e.1 (shareSince s e.1 0) = 7).map (·.1)
def nextMove (s : State) (d : Nat) : Option (Cand × State) := firstFit s d (candsOf s d) (heldFor s d)
/-- A die's next move, if it is of one kind. -/
def moveOf (d kind : Nat) : M Unit := do
  let s ← get
  match nextMove s d with
  | some (c, t) => if c.kind = kind then set (refreshHeads t) else idleM
  | none => idleM
/-- ADMISSION (R305 to R307, R320). -/
def execAdmission (die : Nat) (s : State) : Host.Outcome State Fault Refusal := finish (moveOf die 0) s
/-- BLOCK_PLACEMENT (R305, R310, R312, R313). -/
def execBlockPlacement (die : Nat) (s : State) : Host.Outcome State Fault Refusal := finish (moveOf die 1) s
/-- BLOCK_RESTORE (R319, R406). -/
def execBlockRestore (die : Nat) (s : State) : Host.Outcome State Fault Refusal := finish (moveOf die 2) s

/-! ### Tracks (R315, R340) -/

/-- The group of a half that has held its track longest. -/
def longestHeld (s : State) (core half : Nat) : Option (Nat × Group) :=
  (s.groups.filter fun e => placeCore e.1 = core && !isControl e.1 && halfOf e.2 = half && e.2.track.isSome).foldl
    (fun (m : Option (Nat × Group)) e => match m with
      | some x => if x.2.tenure < e.2.tenure then some e else m
      | none => some e) none
/-- QUANTUM (R315): a ready group waits, and the group longest on its track has held it for 16,384 core cycles. -/
def execQuantum (core half : Nat) (s : State) : Host.Outcome State Fault Refusal :=
  finish (do
    match longestHeld s core half with
    | some e =>
      onlyIf ((pickReady s core half fun _ => false).isSome && 16384 ≤ e.2.tenure && !s.grpPavane e.1)
      upd fun s => swapOut s e.1
    | none => idleM) s
/-- The sleep of a group is over (R287, R340). -/
def sleepOver (s : State) (g : Nat) : Bool :=
  match (s.grp g).wait with
  | .sleep u => u ≤ s.clock
  | .sleepTurns n => n ≤ (s.core (placeCore g)).turns
  | .sleepTok t =>
    (match copyOf s (s.grp g).block t with
     | some e => e.2.complete || e.2.fault.isSome || reaches (cycleCount s (coreDie (placeCore g))) e.2.promise
     | none => true)
  | _ => false
/-- Turns that pass on a core with no group to issue: up to the first that a sleeping group waits for (R321, R340). -/
def emptyTurns (s : State) (g : Nat) : Option Nat :=
  let ck := placeCore g
  let due := s.groups.filterMap fun e => match e.2.wait with
    | .sleepTurns n => if placeCore e.1 = ck && !e.2.halt then some n else none
    | _ => none
  match (s.grp g).wait with
  | .sleepTurns n => if (turnHolder s ck).isNone && due.all (n ≤ ·) then some n else none
  | _ => none
/-- SLEEP_WAKE (R340). -/
def execSleepWake (g : Nat) (s : State) : Host.Outcome State Fault Refusal :=
  finish (do
    let n := emptyTurns s g
    onlyIf (s.hasGrp g && (sleepOver s g || n.isSome))
    upd fun s => makeReady (s.updCore (placeCore g) fun c => { c with turns := max c.turns (n.getD 0) }) g) s

/-! ### Completion (R239, R304, R414) -/

/-- The completion word (Table 12-3). -/
def doneWord (state reason blocks : Nat) : Nat := state + reason % 256 * 2 ^ 8 + blocks % 2 ^ 32 * 2 ^ 32
/-- Write a completion word; an address that cannot be written goes to the fault domain (R304). -/
def writeDone (s : State) (d c region va w : Nat) : State :=
  if va = 0 then s
  else match xlatRange (xlCtx s c needW) va 8 with
    | .error e => domFault s d c region { cause := e.1, addr := va }
    | .ok ps =>
      if ps.any fun p => linePoisoned s (lineOf p.1) then domFault s d c region { cause := cPoison, addr := va }
      else writeParts s ps (natBytes 8 w)
/-- A path of a walk ends; the walk completes with its last path (R366). -/
def endPath (s : State) (p : Nat) : State :=
  match spFind s.paths p with
  | none => s
  | some x =>
    let s := { s with paths := spDel s.paths p }
    if s.paths.any fun e => e.2.walk = x.walk then s
    else match spFind s.walks x.walk with
      | none => s
      | some w =>
        let s := { s with walks := spDel s.walks x.walk }
        writeDone s w.die w.ctx w.region w.done (if w.failed then doneWord 3 0x0B w.launches else doneWord 1 0 w.launches)
/-- The paths that waited for a launch walk on, or end (R366, R414). -/
def pathsGoOn (s : State) (l : Nat) (completed : Bool) : State :=
  (s.paths.filter fun e => e.2.waiting = some l).foldl (fun s e =>
    match spFind s.walks e.2.walk with
    | none => s
    | some w =>
      let s := if completed then { s with walks := spPut s.walks e.2.walk { w with launches := w.launches + 1 } } else s
      if e.2.node = 0 || w.failed then endPath s e.1
      else { s with paths := spPut s.paths e.1 { e.2 with waiting := none } }) s
/-- A launch is over: every block has retired, no group of it is suspended and no work of it is outstanding; or it was refused or
killed. -/
def launchOver (s : State) (l : Launch) (k : Nat) : Bool :=
  !l.wrote && match l.state with
    | .refused => true
    | .killed => true
    | .running => l.retired = l.lr.nblk && (blocksOf s k).isEmpty && (s.spawns.all fun e => e.2.launch ≠ k)
        && s.conts.all fun e => e.2.launch ≠ k
    | _ => false
/-- Its end: dirty bytes of its dies' cores are written back (a release at sys); a ws-writer's window leaves the L1s (R239); the
completion word. A deadline that cut it makes the word a killed one (R414). -/
def endLaunch (s : State) (k : Nat) : State :=
  let l := s.lch k
  let cores := (spKeys s.cores).filter fun ck => l.dies.contains (coreDie ck)
  let s := cores.foldl writeBackAll s
  let r := Launch.reg s l
  let inWs (d line : Nat) : Bool :=
    wsAddr d (r.wsbase * 2 ^ 23) ≤ line * 128 && line * 128 < wsAddr d ((r.wsbase + r.wsbanks) * 2 ^ 23)
  let s := if !l.flag 4 then s else cores.foldl (fun s ck => s.updCore ck fun c =>
    { c with l1 := c.l1.filter fun e => !inWs (coreDie ck) e.1 }) s
  let st := match l.state with
    | .refused => 2 | .killed => 3
    | _ => if l.reason = 0 then 1 else 3
  let s := s.updLch k fun l => { l with wrote := true, state := if l.state = .running then .completed else l.state, shares := [] }
  let s := writeDone s l.lead l.ctx l.region l.lr.done (doneWord st l.reason l.retired)
  pathsGoOn s k (l.state = .running)
/-- LAUNCH_COMPLETION (R304). -/
def execLaunchCompletion (launch : Nat) (s : State) : Host.Outcome State Fault Refusal :=
  finish (do
    onlyIf ((spFind s.launches launch).isSome && launchOver s (s.lch launch) launch)
    upd fun s => endLaunch s launch) s
/-- A core stands between two turns (R321, R322). -/
def betweenTurns (s : State) (ck : Nat) : Bool :=
  let t := (s.core ck).turn
  t = 0 || (turnHolder s ck).isNone
/-- The groups of a launch that have not taken the deadline trap. -/
def deadlineGroups (s : State) (launch : Nat) : List Nat :=
  ((blocksOf s launch).flatMap s.groupsOf).filter fun g =>
    (s.grp g).cause ≠ 0x1B && !((s.grp g).pend.testBit 3) && (!(s.lch launch).pavane || betweenTurns s (placeCore g))
/-- RDTIME of the lead die has passed the deadline of a running launch. -/
def deadlineDue (s : State) (launch : Nat) : Bool :=
  let l := s.lch launch
  l.state = .running && l.deadline ≠ 0 && l.deadline < s.timeOf l.lead && (deadlineGroups s launch ≠ [] || l.reason = 0)
/-- DEADLINE (R414): RDTIME has passed the launch's deadline; every group of it that has not taken the deadline trap takes it. -/
def execDeadline (launch : Nat) (s : State) : Host.Outcome State Fault Refusal :=
  finish (do
    onlyIf (deadlineDue s launch)
    upd fun s => (deadlineGroups s launch).foldl (fun s g => raiseAt s g (s.grp g).pc { cause := 0x1B, mask := (s.grp g).resident })
      (s.updLch launch fun l => { l with reason := 0x1B })) s

end Sys2Proof.Machine
end

