-- ==== Sys2Proof/Machine/Preempt.lean ====
section
/-! DEFINITION. Preempt.lean: pre-emption (R311, R317, R318) and the save of a block (R406). -/

namespace Sys2Proof.Machine

/-- The drain estimate in core cycles; none is infinite (R318). -/
def drainEstimate (s : State) (b : Nat) : Option Nat :=
  let x := s.blk b
  if x.hint = 0xFFFFFFFF || (s.lch x.launch).flag 0 then none else some (256 * x.hint - (s.clock - x.hintAt))
/-- Core cycles until a copy's promise. -/
def promiseLeft (s : State) (c : Copy) : Nat :=
  if c.pavane then 0 else (signedNat 32 (c.promise + 2 ^ 32 - cycleCount s (coreDie c.core) % 2 ^ 32)).toNat
/-- The save estimate in core cycles (R318). -/
def saveEstimate (s : State) (b : Nat) : Nat :=
  let x := s.blk b
  let bytes := sumNat ((slotsOf s (b, x)).map fun e => 256 * e.2.1 + 8 * e.2.2 + 2048) + x.spSize + 131072 * x.acc
  let copies := (s.copies.filter fun e => e.2.block = b && !e.2.complete).map fun e => promiseLeft s e.2
  let qs := (s.queries.filter fun e => e.2.block = b && e.2.state ≠ .complete).map (·.1)
  1024 + (bytes + 127) / 128 + copies.foldl max 0 + 2048 * qs.length
    + 256 * (s.splits.filter fun e => qs.contains e.2.query && !e.2.finished).length
/-- A firmware stage is measured before it runs: register m becomes SHA-384(m ‖ SHA-384(image)) (R393). -/
def measureStage (s : State) (stage : Nat) (image : List Byte) : State :=
  let m := natBytes 48 (spGet 0 s.measure stage).toNat ++ natBytes 48 (Config.sha384 image).toNat
  { s with measure := spPut s.measure stage (Config.sha384 m) }
/-- The boot ROM loads the stages of a die in turn, each when both its signatures verify; one that fails leaves the die in recovery.
Die 0 measures them (R393, R394, log 13). -/
def bootFrom (s : State) (d : Nat) : Nat → List (List Byte) → State
  | _, [] => s
  | i, image :: rest =>
    if Config.firmwareVerifies image then bootFrom (if d = 0 then measureStage s i image else s) d (i + 1) rest
    else s.updDie d fun x => { x with recovery := true }
def bootDie (s : State) (d : Nat) : State :=
  if diePresent s d && !(s.die d).booted then
    bootFrom (s.updDie d fun x => { x with booted := true }) d 0 (Config.bootStages.take 8)
  else s
/-- A flushed block is discarded and placed again from its entry; its BID heads its launch's block order (R318). A spawn group's
block forms its group again. -/
def flushBlock (s : State) (b : Nat) : State :=
  let x := s.blk b
  let l := s.lch x.launch
  match x.spawnOf with
  | none => (discardBlock s b).updLch x.launch fun l => { l with again := x.bid :: l.again }
  | some o =>
    let sg : SpawnGroup := {
      die := x.die, block := o.block, bind := o.bind, ctx := l.ctx, region := l.region, prio := o.prio, cfg := o.cfg,
      code := l.lr.code, launch := x.launch, recs := o.recs, vas := o.vas }
    let t := discardBlock s b
    { t with spawns := spPut t.spawns (spFresh t.spawns) sg }
/-- What a pre-emption chose for a block. -/
inductive Choice where
  | takeOff | drain | save | flush | saveLate
  deriving DecidableEq, Repr
/-- The choice of R311 and R318 for a bound in core cycles. -/
def chooseFor (s : State) (b bound : Nat) : Choice :=
  let x := s.blk b
  if x.state = .placed then .takeOff
  else if (drainEstimate s b).any (· ≤ bound) then .drain
  else if saveEstimate s b ≤ bound then .save
  else if (s.lch x.launch).flag 1 && 512 ≤ bound then .flush
  else .saveLate
/-- The groups of a block stop: at once, or a pavane block's at the end of the turn (R322). -/
def stopBlock (s : State) (b : Nat) (flush : Bool) : State :=
  let x := s.blk b
  let s := s.setBlk b { x with saving := true, flushing := flush }
  if !(s.lch x.launch).pavane || betweenTurns s x.key then haltForSave s b else s
/-- A bound-missed event to the requester (R318, R397). -/
def boundMissed (s : State) (d c r boundNs : Nat) : State := report s { ev := 2, ctx := c, region := r, die := d, aux := boundNs }
/-- Pre-empt one block for a requester of a context and region with a bound in ns. -/
def preemptBlock (s : State) (b boundNs c r : Nat) : State × Choice :=
  let x := s.blk b
  let ch := chooseFor s b (4 * boundNs)
  (match ch with
   | .takeOff => (discardBlock s b).updLch x.launch fun l => { l with again := x.bid :: l.again }
   | .drain => s.setBlk b { x with draining := true }
   | .save => stopBlock s b false
   | .flush => if (s.lch x.launch).pavane then stopBlock s b true else flushBlock s b
   | .saveLate => boundMissed (stopBlock s b false) x.die c r boundNs, ch)
/-- Blocks that a request may take: resident, not already chosen or leaving, youngest placement first. -/
def victimsOf (s : State) (p : Nat × Block → Bool) : List Nat :=
  (sortBy (fun a b => b.2.placedAt < a.2.placedAt || (a.2.placedAt = b.2.placedAt && b.1 ≤ a.1))
    (s.blocks.filter fun e => (e.2.state = .placed || e.2.state = .running || e.2.state = .affine)
      && !e.2.draining && !e.2.saving && p e)).map (·.1)
/-- The shortest run of the victims whose leaving lets the waiting launch in. -/
def victimPrefix (s : State) (d l i : Nat) : List Nat → List Nat → Option (List Nat)
  | _, [] => none
  | acc, b :: r =>
    let acc := acc ++ [b]
    if (tryHead (acc.foldl discardBlock s) d l i).isSome then some acc else victimPrefix s d l i acc r
/-- The bound of a launch's own request (R302), and the priority that counts: of its region's, also a lower one that the RCB now
holds (R383). -/
def Launch.boundNs (s : State) (l : Launch) : Nat :=
  if l.lr.bound ≠ 0 then l.lr.bound else min (Launch.reg s l).bound (regionNow s l.ctx l.region).bound
def Launch.nowPrio (s : State) (l : Launch) : Nat := min (l.groupPrio s) (regionNow s l.ctx l.region).prio
/-- Blocks that leave their cores already. -/
def goingOut (s : State) : List Nat := (s.blocks.filter fun e => e.2.draining || e.2.saving || e.2.state = .leaving).map (·.1)
/-- The share of a launch that heads one of a die's queues. -/
def headShare (s : State) (die launch : Nat) : Option Nat :=
  (List.range 8).findSome? fun c => (headAt s die c).bind fun h => if h.1 = launch then some h.2 else none
/-- A block that a launch may take: on a die it needs, of a lower priority. -/
def victimFor (s : State) (die launch : Nat) (e : Nat × Block) : Bool :=
  let l := s.lch launch
  (if l.whole then l.dies.contains e.2.die else e.2.die = die) && (s.lch e.2.launch).nowPrio s < l.nowPrio s
def preemptAll (l : Launch) (vs : List Nat) (s : State) : State :=
  vs.foldl (fun s b => (preemptBlock s b (l.boundNs s) l.ctx l.region).1) s
/-- A control core's context switch: every resident block of a context on the die, each with the switch's own bound (R317). -/
def switchContext (s : State) (die ctx boundNs : Nat) : State :=
  if !dieRuns s die then s
  else (victimsOf s fun e => e.2.die = die && (s.lch e.2.launch).ctx = ctx).foldl (fun s b => (preemptBlock s b boundNs ctx 0).1) s
/-- PREEMPTION_REQUEST (R317): the Caller of a die, for a queue head that does not fit, takes all the victims of lower priority
that the fit needs, youngest first. -/
def execPreemptionRequest (die launch : Nat) (s : State) : Host.Outcome State Fault Refusal :=
  finish (do
    match headShare s die launch with
    | none => idleM
    | some i =>
      let rest := (goingOut s).foldl discardBlock s
      if (tryHead s die launch i).isSome || (tryHead rest die launch i).isSome then idleM
      else match victimPrefix rest die launch i [] (victimsOf s (victimFor s die launch)) with
        | none => idleM
        | some vs => upd (preemptAll (s.lch launch) vs)) s
/-- A handler of the block's quadrille holds a trap of one of its groups (R406). -/
def handlerHolds (s : State) (b : Nat) : Bool :=
  let h := s.handler (quadOf (s.blk b).key)
  h.running && !h.regs.tcause.getLsbD 18 && (s.groupsOf b).any fun g => BitVec.ofNat 64 (handleOf s g) = h.regs.tgroup
/-- A block chosen for a save or a flush stands still, a pavane one at the end of a turn. -/
def leavesNow (s : State) (b : Nat) : Bool :=
  let x := s.blk b
  let still := (s.groupsOf b).all fun g => (s.grp g).halt
  (spFind s.blocks b).isSome && x.saving && (x.state = .running || x.state = .affine)
    && (!(s.lch x.launch).pavane || still || betweenTurns s x.key)
/-- No handler holds a trap of it, its copies have completed or stopped, its queries have completed (R406). -/
def saveReady (s : State) (b : Nat) : Bool :=
  !handlerHolds s b && (s.copies.all fun e => e.2.block ≠ b || e.2.complete || e.2.fault.isSome)
    && s.queries.all fun e => e.2.block ≠ b || e.2.state = .complete
/-- BLOCK_SAVE (R318, R406): a block that stops for a save or a flush; its copies have completed or stopped, its queries have
completed, and no handler holds a trap of it. -/
def execBlockSave (b : Nat) (s : State) : Host.Outcome State Fault Refusal :=
  finish (do
    onlyIf (leavesNow s b)
    if (s.blk b).flushing then upd fun s => flushBlock s b
    else do
      onlyIf (saveReady s b)
      upd fun s => saveBlock (haltForSave s b) b) s

end Sys2Proof.Machine
end

