-- ==== Sys2Proof/Machine/Agenda.lean ====
section
/-! DEFINITION. Agenda.lean: what moves next (log 1), time (log 3), and how a word is placed for the next step (log 12). -/

namespace Sys2Proof.Machine

/-- Time passes (log 3); a group on a track holds it longer (R315), and a copy whose promise passes is late (R288). -/
def passTime (s : State) (n : Nat) : State :=
  let one (e : Nat × Group) : Nat × Group := if e.2.track.isSome then (e.1, { e.2 with tenure := e.2.tenure + n }) else e
  missPromises { s with clock := s.clock + n, groups := s.groups.map one }

/-- One act: a group's issue, an event, time, an eviction, a TLB's taking or dropping of an entry, a machine check told,
an error, an assist finished, a row or a structure fetched ahead, a context switch, a die's boot. -/
def runAct (ex : Meaning) (a : Act) (s : State) : Host.Outcome State Fault Refusal :=
  match a with
  | .issue g => issueWith ex g s
  | .event i => ex i s
  | .tick n => .next (passTime s n)
  | .evict c l => .next (evictFree s c l)
  | .forward q => .next (forwardTrap s q)
  | .tlbFill t c va => .next (tlbFill s t c va)
  | .tlbDrop i => .next { s with tlb := s.tlb.eraseIdx i }
  | .error e => .next (errorAt s e)
  | .tell d c r => .next (tellMachineCheck s d c r)
  | .assist q => .next (finishAssist s q)
  | .fetch op row => .next (fetchInto s op row)
  | .look q => .next (lookAhead s q)
  | .boot d => .next (bootDie s d)
  | .switch d c b => .next (switchContext s d c b)

/-! ### The choice among what may move, with nothing on the agenda (log 1) -/

/-- A free value below n (0 when n is 0). -/
def pickBelow (k n : Nat) : Nat := Config.choice k % n
/-- Acts of one kind for every key of a map. -/
def actsOf {α : Type} (m : List (Nat × α)) (f : Nat → Instr) : List Act := (spKeys m).map fun k => .event (f k)
/-- Acts of groups, cores and what their accesses left in flight. -/
def groupActs (s : State) (k : Nat) : List Act :=
  (spKeys s.groups).map Act.issue ++ actsOf s.groups .sleepWake ++ actsOf s.groups .parkReissue
  ++ actsOf s.groups (fun g => .quantum (placeCore g) (pickBelow k 2))
  ++ actsOf s.loads .loadDataArrival ++ actsOf s.posted .writePerformed
  ++ s.cores.flatMap (fun c => c.2.l1.map fun l => Act.evict c.1 l.1)
  ++ s.groups.flatMap (fun e => [Act.tlbFill (placeCore e.1) (s.ctxOf e.1) (pickBelow k (2 ^ 52)),
       Act.tlbFill (dieTlb (coreDie (placeCore e.1))) (s.ctxOf e.1) (pickBelow k (2 ^ 52))])
  ++ (List.range s.tlb.length).map Act.tlbDrop
  ++ [Act.error (.corrected (pickBelow k 16) (pickBelow (k + 1) 3)), Act.error (.line (pickBelow k (2 ^ 36)) (pickBelow (k + 1) 4))]
  ++ s.groups.flatMap (fun e => [Act.error (.vector e.1 (pickBelow k (2 ^ 14))), Act.error (.uniform e.1 (pickBelow k 64))])
  ++ s.blocks.map (fun e => Act.error (.scratch e.1 (pickBelow k (2 ^ 17))))
  ++ s.cores.flatMap (fun c => c.2.l1.map fun l => Act.error (.l1 c.1 l.1 (pickBelow k 32)))
  ++ s.blocks.flatMap (fun e => e.2.tiles.map fun t => Act.error (.acc e.1 t.1 (pickBelow k 16384)))
  ++ s.cores.flatMap (fun c => (List.range c.2.records.length).map fun i => Act.error (.record c.1 i))
  ++ actsOf s.handlers .trapDispatch ++ (spKeys s.handlers).map Act.forward
  ++ (spKeys s.handlers).map Act.assist
/-- Acts of the callers, the staging engines and the pre-emption machinery. -/
def callerActs (s : State) (k : Nat) : List Act :=
  let ds := List.range 16
  let die := pickBelow k 16
  ds.map Act.boot ++ ds.map (fun d => Act.event (.admission d)) ++ ds.map (fun d => Act.event (.blockPlacement d)) ++ ds.map (fun d => Act.event (.blockRestore d))
  ++ ds.map (fun d => Act.switch d (pickBelow k 4096) (pickBelow (k + 1) (2 ^ 32)))
  ++ ds.map (fun d => Act.event (.spawnGroupPlace d)) ++ ds.map (fun d => Act.event (.continuationResume d))
  ++ ds.map (fun d => Act.event (.pavaneDeqQuantum d (pickBelow k 32)))
  ++ actsOf s.launches (fun l => .preemptionRequest die l) ++ actsOf s.launches .launchCompletion ++ actsOf s.launches .deadline
  ++ s.launches.map (fun e => Act.event (.staging die e.1 (pickBelow (k + 1) (e.2.lr.gx * e.2.lr.gy * e.2.lr.gz)) (pickBelow (k + 2) 8)))
  ++ actsOf s.stages .stagingLineLand ++ actsOf s.blocks .dispatchTimeout ++ actsOf s.blocks .blockSave
  ++ actsOf s.blocks (fun b => .spawnGroupTimeout b (pickBelow k 8))
/-- Acts of the engines, the home slices, the walkers, the rings between dies and the sessions. -/
def engineActs (s : State) (k : Nat) : List Act :=
  (List.range 192).map (fun q => Act.event (.passGrant q)) ++ actsOf s.matOps .kStepCommit
  ++ (spKeys s.matOps).map (fun o => Act.fetch o (pickBelow k 256)) ++ actsOf s.matOps .transferComplete
  ++ s.copies.map (fun e => Act.event (.copyRowLand e.1 (pickBelow k (2 ^ 16)))) ++ actsOf s.copies .promiseMissed
  ++ (spKeys s.queries).map Act.look ++ actsOf s.queries .queryTraversal ++ actsOf s.queries .queryHeldResume ++ actsOf s.queries .queryComplete
  ++ actsOf s.waiters .waiterReissue ++ actsOf s.conts .continuationRelease
  ++ actsOf s.paths .graphLaunchNode ++ actsOf s.paths .graphCondNode ++ actsOf s.paths .graphWhileNode
  ++ actsOf s.paths .graphJoinNode ++ actsOf s.paths .graphSignalNode
  ++ actsOf s.packets .messageArrival ++ actsOf s.packets .ringHop
  ++ actsOf s.sessions .ackTimer ++ actsOf s.sessions .sessionTimeout
  ++ s.sessions.flatMap (fun e => e.2.unacked.map fun u => Act.event (.retransmit e.1 u.frame.seq.toNat))
/-- One of the acts above, or time passing: which one is a free choice. -/
def freeAct (s : State) : Act :=
  let all := groupActs s (s.free + 1) ++ callerActs s (s.free + 1) ++ engineActs s (s.free + 1)
  all.getD (pickBelow s.free (all.length + 1)) (.tick 1)

/-- One step: the head of the agenda, or with none a free choice among what may move (log 1). -/
def stepWith (ex : Meaning) (s : State) : Host.Outcome State Fault Refusal :=
  match s.agenda with
  | a :: rest => runAct ex a { s with agenda := rest }
  | [] => runAct ex (freeAct s) { s with free := s.free + 4 }

/-- A fetched line whose slot 0 is w. -/
def lineWith (w : Slot) : Line := BitVec.ofNat 512 (w.toNat + (2 ^ 26 + 1) * 2 ^ 480)
/-- The group that withFetchWord places: 64 threads, one plane, slot 0 of a fetched line (log 12). -/
def placedGroup (w : Slot) (block uid : Nat) : Group :=
  { uid := uid, block := block, live := BitVec.allOnes 64, resident := BitVec.allOnes 64, line := some 0, lx := 1,
    images := [(0, lineWith w)], track := some 0 }
/-- A place for the word: a control core for a privileged one (R70), else place 0 of core 0 of die 0, with its own block and
launch; the next act is that place's issue. -/
def placeWord (s : State) (w : Slot) : State :=
  if privOp (opOf w) then
    let q := 0
    let s := s.updHandler q fun h => { h with running := true }
    let s := s.updGrp (controlPlace q) fun _ =>
      { controlGroup with halt := false, line := some 0, lx := 1, images := [(0, lineWith w)] }
    { s with agenda := .issue (controlPlace q) :: s.agenda }
  else
    let b := spFresh s.blocks
    let l := spFresh s.launches
    let s := { s with launches := spPut s.launches l { state := .running, lr := { regs := 256, uregs := 64, barriers := 16, acc := 32, sp := 4096 } } }
    let s := s.setBlk b { launch := l, spSize := 4096, acc := 32, nbar := 16 }
    let s := s.setGrp 0 (placedGroup w b s.nextUid)
    { s with nextUid := s.nextUid + 1, agenda := .issue 0 :: s.agenda }

end Sys2Proof.Machine
end

