-- ==== Sys2Proof/Machine/Integer.lean ====
section
/-! DEFINITION. Integer.lean: integer arithmetic (R117 to R119, Table 5-3). -/

namespace Sys2Proof.Machine

/-- Bits of an integer type as the integer they stand for (ReadSource, R111). -/
def intVal (ty bits : Nat) : Int := if isSigned ty then signedNat (tyWidth ty) bits else (bits % 2 ^ tyWidth ty : Nat)
def intMin (ty : Nat) : Int := if isSigned ty then -(2 ^ (tyWidth ty - 1) : Nat) else 0
def intMax (ty : Nat) : Int := if isSigned ty then (2 ^ (tyWidth ty - 1) : Nat) - 1 else (2 ^ tyWidth ty : Nat) - 1
/-- SatTo(T, x) (R111). -/
def satTo (ty : Nat) (x : Int) : Int := max (intMin ty) (min (intMax ty) x)
/-- The bits of SatTo(T, x) or AsType(T, x). -/
def intRes (ty : Nat) (sat : Bool) (x : Int) : Nat := intBits (tyWidth ty) (if sat then satTo ty x else x)

/-- The type code, the width and the sat bit of an instruction. -/
def tyA (o : FmtA) : Nat := o.h.t.toNat
def wA (o : FmtA) : Nat := tyWidth (tyA o)
def satA (o : FmtA) : Bool := (WF.fnv o).getLsbD 26
def intA (s : State) (o : FmtA) (t : Nat) : Int := intVal (tyA o) (opA s o t)
def intB (s : State) (o : FmtA) (t : Nat) : Int := intVal (tyA o) (opB s o t)
def intC (s : State) (o : FmtA) (t : Nat) : Int := intVal (tyA o) (opC s o t)
/-- An operand's bits as an unsigned integer. -/
def unsA (s : State) (o : FmtA) (t : Nat) : Nat := opA s o t % 2 ^ wA o
def unsB (s : State) (o : FmtA) (t : Nat) : Nat := opB s o t % 2 ^ wA o
def unsC (s : State) (o : FmtA) (t : Nat) : Nat := opC s o t % 2 ^ wA o
/-- ReadPred(C, p), or ReadPred(C, g) for a uniform instruction, as 0 or 1. -/
def carryIn (s : State) (o : FmtA) (t : Nat) : Nat := if predAt s o.h.u o.c t then 1 else 0

/-- The result of an exact integer x at the instruction's type. -/
def intResult (o : FmtA) (x : Int) (q : Option Bool := none) : Res :=
  { ty := tyA o, val := intRes (tyA o) (satA o) x, q := q }
/-- floor(a · b / 2^w). -/
def mulHi (o : FmtA) (a b : Int) : Int := a * b / (2 ^ wA o : Nat)

def execAdd (o : FmtA) (s : State) : Host.Outcome State Fault Refusal :=
  finish (runA 0x10 o fun s t =>
    intResult o (intA s o t + intB s o t) (some (2 ^ wA o ≤ unsA s o t + unsB s o t))) s
def execSub (o : FmtA) (s : State) : Host.Outcome State Fault Refusal :=
  finish (runA 0x11 o fun s t => intResult o (intA s o t - intB s o t) (some (unsA s o t < unsB s o t))) s
def execMul (o : FmtA) (s : State) : Host.Outcome State Fault Refusal :=
  finish (runA 0x12 o fun s t => intResult o (intA s o t * intB s o t)) s
def execMulhi (o : FmtA) (s : State) : Host.Outcome State Fault Refusal :=
  finish (runA 0x13 o fun s t => intResult o (mulHi o (intA s o t) (intB s o t))) s
def execMad (o : FmtA) (s : State) : Host.Outcome State Fault Refusal :=
  finish (runA 0x14 o fun s t => intResult o (intA s o t * intB s o t + intC s o t)) s
def execMadhi (o : FmtA) (s : State) : Host.Outcome State Fault Refusal :=
  finish (runA 0x15 o fun s t => intResult o (mulHi o (intA s o t) (intB s o t) + intC s o t)) s
def execAddc (o : FmtA) (s : State) : Host.Outcome State Fault Refusal :=
  finish (runA 0x16 o fun s t =>
    let x := unsA s o t + unsB s o t + carryIn s o t
    intResult o x (some (2 ^ wA o ≤ x))) s
def execSubb (o : FmtA) (s : State) : Host.Outcome State Fault Refusal :=
  finish (runA 0x17 o fun s t =>
    intResult o ((unsA s o t : Int) - unsB s o t - carryIn s o t) (some (unsA s o t < unsB s o t + carryIn s o t))) s
def execMin (o : FmtA) (s : State) : Host.Outcome State Fault Refusal :=
  finish (runA 0x18 o fun s t => intResult o (min (intA s o t) (intB s o t))) s
def execMax (o : FmtA) (s : State) : Host.Outcome State Fault Refusal :=
  finish (runA 0x19 o fun s t => intResult o (max (intA s o t) (intB s o t))) s
def execAbs (o : FmtA) (s : State) : Host.Outcome State Fault Refusal :=
  finish (runA 0x1A o fun s t => intResult o (intA s o t).natAbs) s
def execNeg (o : FmtA) (s : State) : Host.Outcome State Fault Refusal :=
  finish (runA 0x1B o fun s t => intResult o (-(intA s o t))) s

/-- The quotient of IDIV (R118). -/
def idivQuot (ty : Nat) (a b : Int) : Int :=
  if b = 0 then (if isSigned ty then -1 else intMax ty)
  else if isSigned ty && a = intMin ty && b = -1 then intMin ty
  else a.tdiv b
/-- The remainder of IREM (R118). -/
def iremRem (ty : Nat) (a b : Int) : Int :=
  if b = 0 then a else if isSigned ty && a = intMin ty && b = -1 then 0 else a.tmod b
def execIdiv (o : FmtA) (s : State) : Host.Outcome State Fault Refusal :=
  finish (runA 0x1C o fun s t => intResult o (idivQuot (tyA o) (intA s o t) (intB s o t))) s
def execIrem (o : FmtA) (s : State) : Host.Outcome State Fault Refusal :=
  finish (runA 0x1D o fun s t => intResult o (iremRem (tyA o) (intA s o t) (intB s o t))) s
def execSad (o : FmtA) (s : State) : Host.Outcome State Fault Refusal :=
  finish (runA 0x1E o fun s t => intResult o ((intA s o t - intB s o t).natAbs + intC s o t)) s

/-- Ext(b) of LEA (R119). -/
def leaExt (o : FmtA) (b : Nat) : Int := if (WF.fnv o).getLsbD 6 then signedNat 32 b else (b : Nat)
def execLea (o : FmtA) (s : State) : Host.Outcome State Fault Refusal :=
  finish (runA 0x1F o fun s t =>
    { ty := tyA o, val := intBits (wA o) (opA s o t + leaExt o (count32B s o t) * 2 ^ bitsNat (WF.fnv o) 5 0) }) s

end Sys2Proof.Machine
end

