-- ==== Sys2Proof/Machine/Logic.lean ====
section
/-! DEFINITION. Logic.lean: logic, shifts and bit fields (R120 to R122, Table 5-4). -/

namespace Sys2Proof.Machine

/-- A result of the instruction's type. -/
def bitResult (o : FmtA) (v : Nat) : Res := { ty := tyA o, val := v }
/-- A 32-bit unsigned result, written as b32. -/
def wordResult (v : Nat) : Res := { ty := 2, val := v }
/-- The complement of v in w bits. -/
def notBits (w v : Nat) : Nat := 2 ^ w - 1 - v % 2 ^ w

def execAnd (o : FmtA) (s : State) : Host.Outcome State Fault Refusal :=
  finish (runA 0x20 o fun s t => bitResult o (opA s o t &&& opB s o t)) s
def execOr (o : FmtA) (s : State) : Host.Outcome State Fault Refusal :=
  finish (runA 0x21 o fun s t => bitResult o (opA s o t ||| opB s o t)) s
def execXor (o : FmtA) (s : State) : Host.Outcome State Fault Refusal :=
  finish (runA 0x22 o fun s t => bitResult o (opA s o t ^^^ opB s o t)) s
def execAndn (o : FmtA) (s : State) : Host.Outcome State Fault Refusal :=
  finish (runA 0x23 o fun s t => bitResult o (opA s o t &&& notBits (wA o) (opB s o t))) s
def execNot (o : FmtA) (s : State) : Host.Outcome State Fault Refusal :=
  finish (runA 0x24 o fun s t => bitResult o (notBits (wA o) (opA s o t))) s

/-- Bit k of x, as 0 or 1. -/
def bitAt (x k : Nat) : Nat := if x.testBit k then 1 else 0
/-- A number from its bits below w. -/
def ofBits (w : Nat) (f : Nat → Bool) : Nat := sumNat ((List.range w).map fun k => if f k then 2 ^ k else 0)
/-- LOGT: bit k is bit (a_k + 2b_k + 4c_k) of tt. -/
def logt (w tt a b c : Nat) : Nat := ofBits w fun k => tt.testBit (bitAt a k + 2 * bitAt b k + 4 * bitAt c k)
def execLogt (o : FmtA) (s : State) : Host.Outcome State Fault Refusal :=
  finish (runA 0x25 o fun s t =>
    let r := logt (wA o) (bitsNat (WF.fnv o) 7 0) (opA s o t) (opB s o t) (opC s o t)
    { ty := tyA o, val := r, q := some (r ≠ 0) }) s

/-- The shift count of R121: bits 31:0 of B, reduced mod w with wrap. -/
def shiftCount (s : State) (o : FmtA) (t : Nat) : Nat :=
  if (WF.fnv o).getLsbD 0 then count32B s o t % wA o else count32B s o t
def execShl (o : FmtA) (s : State) : Host.Outcome State Fault Refusal :=
  finish (runA 0x26 o fun s t =>
    let n := shiftCount s o t
    bitResult o (if wA o ≤ n then 0 else opA s o t * 2 ^ n % 2 ^ wA o)) s
def execShr (o : FmtA) (s : State) : Host.Outcome State Fault Refusal :=
  finish (runA 0x27 o fun s t =>
    let n := shiftCount s o t
    bitResult o (if wA o ≤ n then 0 else unsA s o t / 2 ^ n)) s
def execShra (o : FmtA) (s : State) : Host.Outcome State Fault Refusal :=
  finish (runA 0x28 o fun s t =>
    bitResult o (intBits (wA o) (intA s o t / (2 ^ min (wA o) (shiftCount s o t) : Nat)))) s
/-- v rotated left by n < w in w bits. -/
def rotLeft (w v n : Nat) : Nat := (v * 2 ^ n + v / 2 ^ (w - n)) % 2 ^ w
def execRot (o : FmtA) (s : State) : Host.Outcome State Fault Refusal :=
  finish (runA 0x29 o fun s t =>
    let w := wA o
    let n := count32B s o t % w
    bitResult o (rotLeft w (unsA s o t) (if (WF.fnv o).getLsbD 0 then (w - n) % w else n))) s
/-- FSHF (R121). -/
def execFshf (o : FmtA) (s : State) : Host.Outcome State Fault Refusal :=
  finish (runA 0x2A o fun s t =>
    let w := wA o
    let v := unsA s o t * 2 ^ w + unsB s o t
    let c := src32 s o.h.u o.c t
    let n := if (WF.fnv o).getLsbD 1 then c % w else min c w
    bitResult o (if (WF.fnv o).getLsbD 0 then v * 2 ^ n / 2 ^ w % 2 ^ w else v / 2 ^ n % 2 ^ w)) s

/-- pos and len of a control value (R122). -/
def fieldPos (c : Nat) : Nat := natBits c 7 0
def fieldLen (w c : Nat) : Nat := min w (natBits c 15 8)
/-- BFX: the field of a, whose bits at w and above read as its sign for an s type; sign-extended from its top bit then. -/
def bfx (ty a c : Nat) : Int :=
  let w := tyWidth ty
  let len := fieldLen w c
  if len = 0 then 0
  else
    let f := intBits len (intVal ty a / (2 ^ fieldPos c : Nat))
    if isSigned ty then signedNat len f else (f : Nat)
/-- BFI: each bit k with pos ≤ k < min(pos + len, w) is bit k − pos of b. -/
def bfi (w a b c : Nat) : Nat :=
  let pos := fieldPos c
  ofBits w fun k => if pos ≤ k && k < pos + fieldLen w c then b.testBit (k - pos) else a.testBit k
def execBfx (o : FmtA) (s : State) : Host.Outcome State Fault Refusal :=
  finish (runA 0x2B o fun s t => bitResult o (intBits (wA o) (bfx (tyA o) (opA s o t) (count32B s o t)))) s
def execBfi (o : FmtA) (s : State) : Host.Outcome State Fault Refusal :=
  finish (runA 0x2C o fun s t => bitResult o (bfi (wA o) (opA s o t) (opB s o t) (src32 s o.h.u o.c t))) s

def popCount (w a : Nat) : Nat := sumNat ((List.range w).map (bitAt a))
/-- Leading and trailing zeros in w bits; w when a = 0. -/
def leadingZeros (w a : Nat) : Nat := ((List.range w).find? fun k => a.testBit (w - 1 - k)).getD w
def trailingZeros (w a : Nat) : Nat := ((List.range w).find? fun k => a.testBit k).getD w
def execPopc (o : FmtA) (s : State) : Host.Outcome State Fault Refusal :=
  finish (runA 0x2D o fun s t => wordResult (popCount (wA o) (opA s o t))) s
def execClz (o : FmtA) (s : State) : Host.Outcome State Fault Refusal :=
  finish (runA 0x2E o fun s t => wordResult (leadingZeros (wA o) (opA s o t))) s
def execCtz (o : FmtA) (s : State) : Host.Outcome State Fault Refusal :=
  finish (runA 0x2F o fun s t => wordResult (trailingZeros (wA o) (opA s o t))) s
def execBrev (o : FmtA) (s : State) : Host.Outcome State Fault Refusal :=
  finish (runA 0x30 o fun s t => bitResult o (ofBits (wA o) fun k => (opA s o t).testBit (wA o - 1 - k))) s

end Sys2Proof.Machine
end

