-- ==== Sys2Proof/Machine/Moves.lean ====
section
/-! DEFINITION. Moves.lean: moves and selects (R123 to R125, Table 5-5). They move bits and raise no flag. -/

namespace Sys2Proof.Machine

/-- A of MOV: a uniform MOV of a v register reads the thread fn 5:0 names, live or not (R124). -/
def movSource (s : State) (o : FmtA) (t : Nat) : Nat :=
  opA s o (if o.h.u && WF.isV o.a then bitsNat (WF.fnv o) 5 0 else t)
/-- MOV. Of a uniform MOV the register's entry of the thread named is what is checked for poison. -/
def execMov (o : FmtA) (s : State) : Host.Outcome State Fault Refusal :=
  finish (do
    let s ← get
    let ts := runners s o.h
    if o.h.u && WF.isV o.a then
      let bad := ts ≠ [] && poisonAt s.seen (readsA 0x31 o) (bitsNat (WF.fnv o) 5 0)
      need (!bad) { cause := cPoison, mask := s.me.resident }
    else checkSources o.h.u (readsA 0x31 o) ts
    putAll o.h.u (fun _ => o) (ts.map fun t => (t, bitResult o (movSource s o t)))) s
def execMovi (o : FmtA) (s : State) : Host.Outcome State Fault Refusal :=
  finish (runA 0x32 o fun s t => bitResult o (opB s o t)) s
/-- MOVH: D is read as a source whatever S holds (R123). -/
def execMovh (o : FmtA) (s : State) : Host.Outcome State Fault Refusal :=
  finish (do
    let s ← get
    let ts := runners s o.h
    checkPoison o.h.u [(o.d, if WF.isV o.d then 2 else 1)] ts
    putAll o.h.u (fun _ => o) (ts.map fun t => (t, bitResult o (srcAs s o.h.u 3 o.d t % 2 ^ 32 + o.w.toNat * 2 ^ 32)))) s
def execSel (o : FmtA) (s : State) : Host.Outcome State Fault Refusal :=
  finish (runA 0x34 o fun s t =>
    bitResult o (if predAt s (o.h.u || (WF.fnv o).getLsbD 0) o.c t then opA s o t else opB s o t)) s

/-- Result byte k of BSHUF (R125). -/
def bshufByte (a b c k : Nat) : Nat :=
  let i := natBits c (3 * k + 2) (3 * k)
  let byte := natBits (a + b * 2 ^ 32) (8 * i + 7) (8 * i)
  if c.testBit (12 + k) then 0 else if c.testBit (16 + k) then (if byte.testBit 7 then 0xFF else 0) else byte
def bshuf (a b c : Nat) : Nat := sumNat ((List.range 4).map fun k => bshufByte a b c k * 2 ^ (8 * k))
def execBshuf (o : FmtA) (s : State) : Host.Outcome State Fault Refusal :=
  finish (runA 0x35 o fun s t => bitResult o (bshuf (opA s o t) (opB s o t) (opC s o t))) s
def execClamp (o : FmtA) (s : State) : Host.Outcome State Fault Refusal :=
  finish (runA 0x36 o fun s t => intResult o (min (max (intA s o t) (intB s o t)) (intC s o t))) s

end Sys2Proof.Machine
end

