-- ==== Sys2Proof/Machine/Compare.lean ====
section
/-! DEFINITION. Compare.lean: compares and predicates (R126 to R128, Table 5-6). -/

namespace Sys2Proof.Machine

/-- The conditions of CMP, in rm. -/
def cmpCond (cc : Nat) (a b : Int) : Bool :=
  match cc with
  | 0 => a = b
  | 1 => a ≠ b
  | 2 => a < b
  | 3 => a ≤ b
  | 4 => b < a
  | _ => b ≤ a
/-- Comb of R126. -/
def comb (k : Nat) (x p : Bool) : Bool :=
  match k with
  | 0 => x
  | 1 => x && p
  | 2 => x || p
  | _ => x != p
def execCmp (o : FmtA) (s : State) : Host.Outcome State Fault Refusal :=
  finish (runA 0x40 o fun s t =>
    let c := cmpCond o.h.rm.toNat (intA s o t) (intB s o t)
    let k := bitsNat (WF.fnv o) 4 3
    let p := predAt s (o.h.u || (WF.fnv o).getLsbD 5) o.c t
    { pred := some (comb k c p), q := some (comb k (!c) p) }) s
/-- An operand's floating-point value at the instruction's type. -/
def fpA (s : State) (o : FmtA) (t : Nat) : FVal := fpDecode (fmtOf (tyA o)) (opA s o t)
def fpB (s : State) (o : FmtA) (t : Nat) : FVal := fpDecode (fmtOf (tyA o)) (opB s o t)
def fpC (s : State) (o : FmtA) (t : Nat) : FVal := fpDecode (fmtOf (tyA o)) (opC s o t)
def execFcmp (o : FmtA) (s : State) : Host.Outcome State Fault Refusal :=
  finish (runA 0x41 o fun s t =>
    let c := fpCompare o.h.rm.toNat ((WF.fnv o).getLsbD 0) (fpA s o t) (fpB s o t)
    let k := bitsNat (WF.fnv o) 2 1
    let p := predAt s (o.h.u || (WF.fnv o).getLsbD 3) o.c t
    { pred := some (comb k c.1 p), q := some (comb k (!c.1) p), flags := c.2 }) s
/-- PLOP: the index 4pa + 2pb + pc. -/
def plopIndex (s : State) (o : FmtA) (t : Nat) : Nat :=
  let p (i : Nat) (f : BitVec 10) : Nat := if predAt s (o.h.u || (WF.fnv o).getLsbD i) f t then 1 else 0
  4 * p 16 o.a + 2 * p 17 o.b + p 18 o.c
def execPlop (o : FmtA) (s : State) : Host.Outcome State Fault Refusal :=
  finish (runA 0x42 o fun s t =>
    let i := plopIndex s o t
    { pred := some ((WF.fnv o).getLsbD i), q := some ((WF.fnv o).getLsbD (8 + i)) }) s

/-- PMOV dir = 0: the predicate set with bit 7 one. -/
def predSet (s : State) (u : Bool) (t : Nat) : Nat :=
  128 + sumNat ((List.range 7).map fun i => if predAt s u (BitVec.ofNat 10 i) t then 2 ^ i else 0)
/-- PMOV dir = 1: predicate i of the mask takes bit i of a. -/
def setPreds (u : Bool) (x : Group) (t mask a : Nat) : Group :=
  (List.range 7).foldl (fun x i => if mask.testBit i then setPred x u i t (a.testBit i) else x) x
def execPmov (o : FmtA) (s : State) : Host.Outcome State Fault Refusal :=
  finish (do
    let s ← get
    let ts := runners s o.h
    checkSources o.h.u (readsA 0x43 o) ts
    if (WF.fnv o).getLsbD 0 then
      upd fun s' => s'.updMe fun x =>
        ts.foldl (fun x t => setPreds o.h.u x t (bitsNat (WF.fnv o) 7 1) (opA s o t)) x
    else putAll o.h.u (fun _ => o) (ts.map fun t => (t, wordResult (predSet s o.h.u t)))) s

end Sys2Proof.Machine
end

