-- ==== Sys2Proof/Machine/Float.lean ====
section
/-! DEFINITION. Float.lean: floating-point arithmetic and the approximations (R133 to R142, Tables 5-9 to 5-11). -/

namespace Sys2Proof.Machine

def fmtA (o : FmtA) : Fmt := fmtOf (tyA o)
def modeA (s : State) (o : FmtA) : Nat := effectiveRm s.me o.h.rm
/-- An exact result rounded once into a format, its flags added. -/
def roundFlags (f : Fmt) (mode : Nat) (r : FVal × Flags) : Nat × Flags :=
  let v := roundTo f mode r.1
  (v.1, r.2 ||| v.2)
/-- An exact result rounded into the instruction's type. -/
def fpResult (s : State) (o : FmtA) (r : FVal × Flags) : Res :=
  let v := roundFlags (fmtA o) (modeA s o) r
  { ty := tyA o, val := v.1, flags := v.2 }
/-- A result already encoded. -/
def bitsResult (o : FmtA) (r : Nat × Flags) : Res := { ty := tyA o, val := r.1, flags := r.2 }
/-- A value of the instruction's own format, which rounds to itself. -/
def sameResult (o : FmtA) (r : FVal × Flags) : Res := bitsResult o ((roundTo (fmtA o) 1 r.1).1, r.2)

def execFadd (o : FmtA) (s : State) : Host.Outcome State Fault Refusal :=
  finish (runA 0x50 o fun s t => fpResult s o (fpSum (modeA s o) [fpA s o t, fpB s o t])) s
def execFsub (o : FmtA) (s : State) : Host.Outcome State Fault Refusal :=
  finish (runA 0x51 o fun s t => fpResult s o (fpSum (modeA s o) [fpA s o t, (fpB s o t).neg])) s
def execFmul (o : FmtA) (s : State) : Host.Outcome State Fault Refusal :=
  finish (runA 0x52 o fun s t => fpResult s o (fpMul (fpA s o t) (fpB s o t))) s
def execFfma (o : FmtA) (s : State) : Host.Outcome State Fault Refusal :=
  finish (runA 0x53 o fun s t => fpResult s o (fpDot (modeA s o) [(fpA s o t, fpB s o t)] (fpC s o t))) s
def execFmin (o : FmtA) (s : State) : Host.Outcome State Fault Refusal :=
  finish (runA 0x54 o fun s t => sameResult o (fpMinMax false (fpA s o t) (fpB s o t))) s
def execFmax (o : FmtA) (s : State) : Host.Outcome State Fault Refusal :=
  finish (runA 0x55 o fun s t => sameResult o (fpMinMax true (fpA s o t) (fpB s o t))) s
/-- The bits of an operand with a sign bit put in (R84: any bits, no flag). -/
def withSign (o : FmtA) (v : Nat) (neg : Bool) : Nat :=
  v % 2 ^ (wA o - 1) + if neg then 2 ^ (wA o - 1) else 0
def signOf (o : FmtA) (v : Nat) : Bool := v.testBit (wA o - 1)
def execFabs (o : FmtA) (s : State) : Host.Outcome State Fault Refusal :=
  finish (runA 0x56 o fun s t => bitResult o (withSign o (opA s o t) false)) s
def execFneg (o : FmtA) (s : State) : Host.Outcome State Fault Refusal :=
  finish (runA 0x57 o fun s t => bitResult o (withSign o (opA s o t) (!signOf o (opA s o t)))) s
def execFdiv (o : FmtA) (s : State) : Host.Outcome State Fault Refusal :=
  finish (runA 0x58 o fun s t => fpResult s o (fpDiv (fpA s o t) (fpB s o t))) s
def execFsqrt (o : FmtA) (s : State) : Host.Outcome State Fault Refusal :=
  finish (runA 0x59 o fun s t => fpResult s o (fpSqrt (fpA s o t))) s
def execFrcpa (o : FmtA) (s : State) : Host.Outcome State Fault Refusal :=
  finish (runA 0x5A o fun s t => bitsResult o (fpRcpa (fmtA o) (fpA s o t))) s
def execFrsqa (o : FmtA) (s : State) : Host.Outcome State Fault Refusal :=
  finish (runA 0x5B o fun s t => bitsResult o (fpRsqa (fmtA o) (fpA s o t))) s
def execFclass (o : FmtA) (s : State) : Host.Outcome State Fault Refusal :=
  finish (runA 0x5C o fun s t => wordResult (fpClass (fmtA o) (opA s o t % 2 ^ wA o))) s
/-- FSCALE's count: B as an s32, imm32 as a signed 32-bit count (R133). -/
def scaleCount (s : State) (o : FmtA) (t : Nat) : Int :=
  signedNat 32 (if o.i then o.w.toNat else srcAs s o.h.u 6 o.b t)
def execFscale (o : FmtA) (s : State) : Host.Outcome State Fault Refusal :=
  finish (runA 0x5D o fun s t => fpResult s o (fpScale (fpA s o t) (scaleCount s o t))) s
def execFgete (o : FmtA) (s : State) : Host.Outcome State Fault Refusal :=
  finish (runA 0x5E o fun s t =>
    let r := fpGetE (fpA s o t)
    { ty := 6, val := intBits 32 r.1, flags := r.2 }) s
def execFgetm (o : FmtA) (s : State) : Host.Outcome State Fault Refusal :=
  finish (runA 0x5F o fun s t => sameResult o (fpGetM (fpA s o t))) s
def execFcopys (o : FmtA) (s : State) : Host.Outcome State Fault Refusal :=
  finish (runA 0x60 o fun s t => bitResult o (withSign o (opA s o t) (signOf o (opB s o t)))) s
def execFrnd (o : FmtA) (s : State) : Host.Outcome State Fault Refusal :=
  finish (runA 0x61 o fun s t => sameResult o (fpRnd (modeA s o) ((WF.fnv o).getLsbD 0) (fpA s o t))) s
def execFmed3 (o : FmtA) (s : State) : Host.Outcome State Fault Refusal :=
  finish (runA 0x62 o fun s t => sameResult o (fpMed3 (fpA s o t) (fpB s o t) (fpC s o t))) s
def execFclamp (o : FmtA) (s : State) : Host.Outcome State Fault Refusal :=
  finish (runA 0x63 o fun s t => sameResult o (fpClamp (fpA s o t) (fpB s o t) (fpC s o t))) s
def execFex2 (o : FmtA) (s : State) : Host.Outcome State Fault Refusal :=
  finish (runA 0x64 o fun s t => bitsResult o (fpEx2 (fpA s o t))) s
def execFlg2 (o : FmtA) (s : State) : Host.Outcome State Fault Refusal :=
  finish (runA 0x65 o fun s t => bitsResult o (fpLg2 (fpA s o t))) s
def execFsin (o : FmtA) (s : State) : Host.Outcome State Fault Refusal :=
  finish (runA 0x66 o fun s t => bitsResult o (fpSinCos false (fpA s o t))) s
def execFcos (o : FmtA) (s : State) : Host.Outcome State Fault Refusal :=
  finish (runA 0x67 o fun s t => bitsResult o (fpSinCos true (fpA s o t))) s

/-! ### Pairs (R142) -/

/-- Element k of a packed pair operand; under I = 1 imm32 supplies both elements of B. -/
def elemOf (o : FmtA) (v k : Nat) : FVal := fpDecode (fmtA o) (v / 2 ^ (16 * k))
def pairA (s : State) (o : FmtA) (t k : Nat) : FVal := elemOf o (srcPair s o.h.u (tyA o) o.a t) k
def pairB (s : State) (o : FmtA) (t k : Nat) : FVal :=
  elemOf o (if o.i then o.w.toNat else srcPair s o.h.u (tyA o) o.b t) k
def pairC (s : State) (o : FmtA) (t k : Nat) : FVal := elemOf o (srcPair s o.h.u (tyA o) o.c t) k
/-- A pair result: each element rounded once, the flags ORed. -/
def pairResult (s : State) (o : FmtA) (f : Nat → FVal × Flags) : Res :=
  let e (k : Nat) : Nat × Flags := roundFlags (fmtA o) (modeA s o) (f k)
  { ty := 2, val := (e 0).1 + (e 1).1 * 2 ^ 16, flags := (e 0).2 ||| (e 1).2 }
def execFdot2 (o : FmtA) (s : State) : Host.Outcome State Fault Refusal :=
  finish (runA 0x68 o fun s t =>
    let c := fpDecode (fmtOf 10) (srcAs s o.h.u 10 o.c t)
    let r := roundFlags (fmtOf 10) (modeA s o)
      (fpDot (modeA s o) [(pairA s o t 0, pairB s o t 0), (pairA s o t 1, pairB s o t 1)] c)
    { ty := 10, val := r.1, flags := r.2 }) s
def execFadd2 (o : FmtA) (s : State) : Host.Outcome State Fault Refusal :=
  finish (runA 0x69 o fun s t => pairResult s o fun k => fpSum (modeA s o) [pairA s o t k, pairB s o t k]) s
def execFmul2 (o : FmtA) (s : State) : Host.Outcome State Fault Refusal :=
  finish (runA 0x6A o fun s t => pairResult s o fun k => fpMul (pairA s o t k) (pairB s o t k)) s
def execFfma2 (o : FmtA) (s : State) : Host.Outcome State Fault Refusal :=
  finish (runA 0x6B o fun s t => pairResult s o fun k =>
    fpDot (modeA s o) [(pairA s o t k, pairB s o t k)] (pairC s o t k)) s

end Sys2Proof.Machine
end

