-- ==== Sys2Proof/Machine/Convert.lean ====
section
/-! DEFINITION. Convert.lean: conversions (R143 to R145, R147, R148, Table 5-12). MXQ and BFPQ stand in Collective. -/

namespace Sys2Proof.Machine

/-- The source type, fn 3:0. -/
def srcTy (o : FmtA) : Nat := bitsNat (WF.fnv o) 3 0
/-- The source operand's bits at the source type. -/
def convA (s : State) (o : FmtA) (t : Nat) : Nat := srcAs s o.h.u (srcTy o) o.a t
/-- The result of an FP value: RoundTo, then Table 4-7 for the 8-bit formats. -/
def convResult (s : State) (o : FmtA) (v : FVal) : Res := bitsResult o (convertTo (fmtA o) (modeA s o) (satA o) v)
def intFVal (n : Int) : FVal := finOr false (Exact.ofInt n)

def execCvt (o : FmtA) (s : State) : Host.Outcome State Fault Refusal :=
  finish (runA 0x80 o fun s t =>
    if isFp (tyA o) then convResult s o (fpDecode (fmtOf (srcTy o)) (convA s o t))
    else intResult o (intVal (srcTy o) (convA s o t))) s
def execI2f (o : FmtA) (s : State) : Host.Outcome State Fault Refusal :=
  finish (runA 0x81 o fun s t => convResult s o (intFVal (intVal (srcTy o) (convA s o t)))) s
/-- F2I (R145). -/
def f2i (ty mode : Nat) (v : FVal) : Int × Flags :=
  match v with
  | .nan _ => (0, fNV)
  | .inf neg => (if neg then intMin ty else intMax ty, fNV)
  | .zero _ => (0, 0)
  | .fin x =>
    let r := roundInt mode x
    if r.1 < intMin ty then (intMin ty, fNV) else if intMax ty < r.1 then (intMax ty, fNV) else (r.1, if r.2 then fNX else 0)
def execF2i (o : FmtA) (s : State) : Host.Outcome State Fault Refusal :=
  finish (runA 0x82 o fun s t =>
    let r := f2i (tyA o) (modeA s o) (fpDecode (fmtOf (srcTy o)) (convA s o t))
    { ty := tyA o, val := intBits (wA o) r.1, flags := r.2 }) s

/-- The value of an MX element with scale X (R97): no flag for a NaN. -/
def mxValue (ty e x : Nat) : FVal :=
  if x = 0xFF then .nan false
  else if ty = 4 then finOr false ((Exact.ofInt (signedNat 8 e)).scale ((x : Int) - 133))
  else match fpDecode (fmtOf ty) e with
    | .fin v => .fin (v.scale ((x : Int) - 127))
    | v => v
def execMxdq (o : FmtA) (s : State) : Host.Outcome State Fault Refusal :=
  finish (runA 0x84 o fun s t =>
    let a := src32 s o.h.u o.a t
    bitsResult o (roundTo (fmtA o) (modeA s o) (mxValue (srcTy o) (natBits a 7 0) (natBits a 15 8)))) s

/-- One element of PACK. -/
def packElem (s : State) (o : FmtA) (f : BitVec 10) (t : Nat) : Nat × Flags :=
  let v := srcAs s o.h.u (srcTy o) f t
  if tyA o = 1 then (v % 2 ^ 16, 0) else convertTo (fmtA o) (modeA s o) false (fpDecode (fmtOf 10) v)
def execPack (o : FmtA) (s : State) : Host.Outcome State Fault Refusal :=
  finish (runA 0x86 o fun s t =>
    let a := packElem s o o.a t
    let b := packElem s o o.b t
    { ty := 2, val := a.1 + b.1 * 2 ^ 16, flags := a.2 ||| b.2 }) s
/-- One element of UNPK, as 32 bits. -/
def unpkElem (o : FmtA) (e : Nat) : Nat × Flags :=
  if isFp (tyA o) then convertTo (fmtOf 10) 1 false (fpDecode (fmtA o) e) else (intBits 32 (intVal (tyA o) e), 0)
/-- UNPK (R148); a constant or immediate A is read as the pair operands of Table 5-11 are (DEDUCED, log 89). -/
def execUnpk (o : FmtA) (s : State) : Host.Outcome State Fault Refusal :=
  finish (runA 0x87 o fun s t =>
    let v := srcPair s o.h.u (tyA o) o.a t
    let a := unpkElem o (v % 2 ^ 16)
    let b := unpkElem o (v / 2 ^ 16 % 2 ^ 16)
    { ty := 3, val := a.1 + b.1 * 2 ^ 32, flags := a.2 ||| b.2 }) s

end Sys2Proof.Machine
end

