-- ==== Sys2Proof/Machine/Collective.lean ====
section
/-! DEFINITION. Collective.lean: the instructions that span a group's threads: POLL, LXCH, GRED, GSCAN, MXQ, BFPQ
(R114, R115, R129 to R132, R146). Issued once: each thread reads the fields of its own plane's copy. -/

namespace Sys2Proof.Machine

/-- The copy a thread's own plane holds (R115). -/
def copyA (s : State) (o : FmtA) (t : Nat) : FmtA :=
  if s.cur.whole then ((spFind s.cur.copies (planeOf s.seen t)).map fieldsA).getD o else o
/-- Sources of every participant are checked, each by its own copy's fields. -/
def checkCollective (op : Nat) (o : FmtA) (ts : List Nat) : M Unit := do
  let s ← get
  let stale := ts.filter fun t => staleAt s.seen (readsA op (copyA s o t)) t
  need (stale = []) { cause := 0x07, mask := runnerMask s false stale }
  let bad := ts.filter fun t => poisonAt s.seen (readsA op (copyA s o t)) t
  need (bad = []) { cause := cPoison, mask := runnerMask s false bad }
/-- The FP trap, or every participant's result written where its own copy says (R93, R115). -/
def putCollective (o : FmtA) (rs : List (Nat × Res)) : M Unit := do
  let s ← get
  putAll false (copyA s o) rs
/-- A collective instruction: its results are a function of the participants and the state before. -/
def runCollective (op : Nat) (o : FmtA) (f : State → List Nat → Nat → Res) : M Unit := do
  let s ← get
  let ts := participants s o.h
  checkCollective op o ts
  putCollective o (ts.map fun t => (t, f s ts t))

/-- The predicate a participant brings to POLL. -/
def pollIn (s : State) (o : FmtA) (t : Nat) : Bool := predAt s false (copyA s o t).a t
/-- The truth of .every, .some and .same. -/
def pollTruth (mode : Nat) (ps : List Bool) : Bool :=
  match mode with
  | 0 => ps.all id
  | 1 => ps.any id
  | _ => ps.all id || ps.all not
/-- POLL (R130). With pdc = 1 the g predicate is written once even with no participant. -/
def execPoll (o : FmtA) (s : State) : Host.Outcome State Fault Refusal :=
  finish (do
    let s ← get
    let ts := participants s o.h
    let ps := ts.map (pollIn s o)
    if o.h.rm.toNat ≤ 2 then
      let v := pollTruth o.h.rm.toNat ps
      putCollective o (ts.map fun t => (t, { pred := some v }))
      if WF.pdc o && !o.h.s then upd fun s => s.updMe fun x => setG x (o.d.toNat % 8) v
    else
      let held := ts.filter (pollIn s o)
      let v := if o.h.rm.toNat = 3 then (maskOf fun t => held.contains t).toNat else held.length
      putCollective o (ts.map fun t => (t, { ty := o.h.t.toNat, val := v }))) s

/-- The source thread of LXCH and whether it lies in the segment (R131). -/
def lxchSource (mode size t b : Nat) : Int × Bool :=
  let base := t - t % size
  let j := t % size
  match mode with
  | 0 => ((base + b % size : Nat), true)
  | 1 => ((t : Int) - b, b ≤ j)
  | 2 => ((t : Int) + b, b < size - j)
  | 3 => ((base + (j ^^^ (b % size)) : Nat), true)
  | _ => ((base + (j + b) % size : Nat), true)
/-- LXCH (R131). -/
def execLxch (o : FmtA) (s : State) : Host.Outcome State Fault Refusal :=
  finish (runCollective 0x45 o fun s ts t =>
    let c := copyA s o t
    let r := lxchSource o.h.rm.toNat (2 ^ (6 - bitsNat (WF.fnv o) 2 0)) t (count32B s c t)
    let ok := r.2 && ts.contains r.1.toNat
    let from_ := if ok then r.1.toNat else t
    { ty := tyA o, val := opA s (copyA s o from_) from_, q := some ok }) s

/-- Combine of R132: bits and flags; an absent operand passes the other through. -/
def combine (o : FmtA) (mode : Nat) (x y : Option (Nat × Flags)) : Option (Nat × Flags) :=
  match x, y with
  | none, y => y
  | x, none => x
  | some a, some b =>
    let ty := tyA o
    let fl := a.2 ||| b.2
    let ia := intVal ty a.1
    let ib := intVal ty b.1
    let int (n : Int) : Nat × Flags := (intBits (wA o) n, fl)
    let fp (r : Nat × Flags) : Nat × Flags := (r.1, fl ||| r.2)
    let fa := fpDecode (fmtA o) a.1
    let fb := fpDecode (fmtA o) b.1
    some (match bitsNat (WF.fnv o) 2 0 with
      | 0 => if isFp ty then fp (roundFlags (fmtA o) mode (fpSum mode [fa, fb])) else int (ia + ib)
      | 1 => if isFp ty then fp (roundFlags (fmtA o) 1 (fpMinMax false fa fb)) else int (min ia ib)
      | 2 => if isFp ty then fp (roundFlags (fmtA o) 1 (fpMinMax true fa fb)) else int (max ia ib)
      | 3 => (a.1 &&& b.1, fl)
      | 4 => (a.1 ||| b.1, fl)
      | _ => (a.1 ^^^ b.1, fl))
/-- Each thread's operand, absent where it is no participant. -/
def redIn (s : State) (o : FmtA) (ts : List Nat) (t : Nat) : Option (Nat × Flags) :=
  if ts.contains t then some (opA s (copyA s o t) t, 0) else none
/-- One level of GRED's tree. -/
def redLevel (o : FmtA) (mode : Nat) : List (Option (Nat × Flags)) → List (Option (Nat × Flags))
  | a :: b :: r => combine o mode a b :: redLevel o mode r
  | l => l
/-- The root of GRED's tree after six levels. -/
def redTree (o : FmtA) (mode : Nat) (l : List (Option (Nat × Flags))) : Option (Nat × Flags) :=
  (((List.range 6).foldl (fun l _ => redLevel o mode l) l).head?).getD none
/-- GRED (R132). -/
def execGred (o : FmtA) (s : State) : Host.Outcome State Fault Refusal :=
  finish (do
    let s ← get
    let ts := participants s o.h
    checkCollective 0x46 o ts
    match redTree o (modeA s o) (tids.map (redIn s o ts)) with
    | none => pure ()
    | some r => putCollective o (ts.map fun t => (t, bitsResult o r))) s

/-- One step of GSCAN's scan by distance d. -/
def scanStep (o : FmtA) (mode : Nat) (val : List (Option (Nat × Flags))) (d : Nat) : List (Option (Nat × Flags)) :=
  (List.range 64).map fun t =>
    if d ≤ t then combine o mode ((val[t - d]?).getD none) ((val[t]?).getD none) else (val[t]?).getD none
/-- Identity(op, T) (R132). -/
def redIdentity (o : FmtA) : Nat :=
  let ty := tyA o
  match bitsNat (WF.fnv o) 2 0 with
  | 1 => if isFp ty then (fmtA o).inf else intBits (wA o) (intMax ty)
  | 2 => if isFp ty then (fmtA o).inf + (fmtA o).signBit else intBits (wA o) (intMin ty)
  | 3 => 2 ^ wA o - 1
  | _ => 0
/-- The flags that the scan's combinations raise in all: each step's, at every slot. -/
def scanAll (o : FmtA) (mode : Nat) (val : List (Option (Nat × Flags))) : List (Option (Nat × Flags)) :=
  [1, 2, 4, 8, 16, 32].foldl (scanStep o mode) val
/-- GSCAN (R132); the flags of the whole operation are every participant's. -/
def execGscan (o : FmtA) (s : State) : Host.Outcome State Fault Refusal :=
  finish (runCollective 0x47 o fun s ts t =>
    let val := scanAll o (modeA s o) (tids.map (redIn s o ts))
    let fl := val.foldl (fun f v => match v with | some r => f ||| r.2 | none => f) 0
    let at_ (i : Nat) : Option (Nat × Flags) := (val[i]?).getD none
    let v := if !(WF.fnv o).getLsbD 3 then at_ t else if t = 0 then none else at_ (t - 1)
    bitsResult o ((match v with | some r => r.1 | none => redIdentity o), fl)) s

/-! ### Block quantisation (R146) -/

/-- What a block quantises to: its scale, an element's code and whether it was inexact or clamped. -/
structure Quant where
  emax : Int
  bfp : Bool
  w : Nat
  fp8 : Option Fmt

/-- The scale of a block whose greatest magnitude is amax. -/
def quantScale (q : Quant) (amax : Exact) : Nat :=
  if amax.isZero then 0 else (max 0 (min 254 (amax.log2 - q.emax + 127))).toNat
/-- The code of one value under scale x, and whether it was inexact or clamped. -/
def quantElem (q : Quant) (mode x : Nat) (v : FVal) : Nat × Bool :=
  let y := v.exact.scale (127 - (x : Int))
  match q.fp8 with
  | some f =>
    let r := convertTo f mode true (match v with | .zero n => .zero n | _ => .fin y)
    (r.1, r.2 &&& fNX ≠ 0)
  | none =>
    let r := roundInt mode (y.scale ((q.w : Int) - 2))
    let lim : Int := 2 ^ (q.w - 1) - 1
    let lo : Int := if q.bfp then -lim else -127
    let c := max lo (min lim r.1)
    (intBits q.w c, r.2 || c ≠ r.1)
/-- One participant's result of MXQ or BFPQ: element, scale and flags. A NaN or infinity in the block gives X = 0xFF, and nv to
each of its participants; nx belongs to the thread whose element is inexact (log 29). -/
def quantise (o : FmtA) (q : Quant) (s : State) (ts : List Nat) (t : Nat) : Res :=
  let val (i : Nat) : FVal := fpDecode (fmtOf (srcTy o)) (convA s (copyA s o i) i)
  let vals := (ts.filter fun i => i / 32 = t / 32).map val
  if vals.any fun v => match v with | .nan _ => true | .inf _ => true | _ => false then
    { ty := 2, val := 0xFF00, flags := fNV }
  else
    let amax := vals.foldl (fun m v => if m.lt v.exact.abs then v.exact.abs else m) ⟨0, 1⟩
    let x := quantScale q amax
    let e := quantElem q (modeA s o) x (val t)
    { ty := 2, val := e.1 + 256 * x, flags := if e.2 then fNX else 0 }
def execMxq (o : FmtA) (s : State) : Host.Outcome State Fault Refusal :=
  finish (runCollective 0x83 o (quantise o
    { emax := if tyA o = 12 then 8 else if tyA o = 13 then 15 else 0, bfp := false, w := 8,
      fp8 := if tyA o = 4 then none else some (fmtA o) })) s
def execBfpq (o : FmtA) (s : State) : Host.Outcome State Fault Refusal :=
  finish (runCollective 0x85 o (quantise o
    { emax := 0, bfp := true, w := bitsNat (WF.fnv o) 7 4, fp8 := none })) s

end Sys2Proof.Machine
end

