-- ==== Sys2Proof/Machine/Fetch.lean ====
section
/-! DEFINITION. Fetch.lean: the beginning of a line execution (R33, R46, R50) and INVALID. -/

namespace Sys2Proof.Machine

/-- The fetched line becomes the group's line execution: latches are invalid, the entry check is made (R33, R50). -/
def beginLine (x : Group) (ls others : List (Nat × Line)) : Group :=
  { endLine x with line := some (x.pc / 5), images := ls, others := others, lx := x.lx + 1, entering := false }

/-- LINE_EXECUTION (R50): the checks of Table 3-2; a failure is a precise trap at the offset about to issue. -/
def execLineExecution (g : Nat) (s : State) : Host.Outcome State Fault Refusal :=
  let x := s.grp g
  if !canIssue s g || x.live = 0 then .next s
  else finish (do
    match checkLine s g (x.pc / 5) (x.pc % 5) false x.entering false with
    | .error t => trapM t
    | .ok r => upd fun s => (countCorrected s (coreDie (placeCore g)) r.2).updGrp g fun x => beginLine x r.1 (idleImages s g (x.pc / 5)))
    { s with cur := { g := g, off := x.pc } }

/-- INVALID (R423): the illegal-instruction trap. -/
def execInvalid (_bits : BitVec 88) (s : State) : Host.Outcome State Fault Refusal :=
  finish (trapM { cause := 0x01, mask := s.me.live }) s

end Sys2Proof.Machine
end

