-- ==== Sys2Proof/Machine/Rlp.lean ====
section
/-! DEFINITION. Rlp.lean: RLP frames, sessions and requests (R389, R390, R395, R396), MGMT operations (R398), power and thermal
throttles (R391, R392), the reset of a die (R393, R413). -/

namespace Sys2Proof.Machine

/-! ### Frames and sessions -/

/-- Dies that carry an Ethernet port (R14); a port has its die's number. -/
def ethPorts : List Nat := [0, 3, 4, 7, 8, 11, 12, 15]
/-- A frame is dropped and counted by its port (R395). -/
def dropFrame (s : State) (port : Nat) : State := { s with frameDrops := spPut s.frameDrops port (spGet 0 s.frameDrops port + 1) }
/-- The parts of a header that do not rest on a session are sound. -/
def frameSound (f : Frame) : Bool :=
  f.magic = 0xA55E && 1 ≤ f.kind.toNat && f.kind.toNat ≤ 8 && f.len.toNat = f.payload.length && f.len.toNat % 8 = 0
  && f.len.toNat ≤ 8192 && f.zero = 0 && f.flags.toNat < 4
/-- The open session a frame belongs to: port, source, version and key agree (R390, R395). -/
def sessionOf (s : State) (f : Frame) : Option Session :=
  (spFind s.sessions f.sid.toNat).filter fun x => x.port = f.port && x.src = f.src && x.ver = f.ver.toNat && x.key = f.key
/-- What a valid frame acknowledges leaves the session, and waiting frames are sent. -/
def takeAcks (s : State) (sid : Nat) (x : Session) (f : Frame) : State :=
  let a := f.ackb.toNat
  let acked (n : Nat) : Bool := n ≤ a || (n - a - 1 < 64 && f.ackm.getLsbD (n - a - 1))
  let x := { x with heard := s.clock, unacked := x.unacked.filter fun u => !acked u.frame.seq.toNat }
  let r := pumpSession s.clock sid 64 x s.outbox
  { s with sessions := spPut s.sessions sid r.1, outbox := r.2 }
/-- Data padded with zeros to a multiple of 8. -/
def pad8 (bs : List Byte) : List Byte := bs ++ natBytes ((8 - bs.length % 8) % 8) 0
/-- Reply fragments: each with the request's number and status, all but the last with flags bit 1 (R396). -/
def replyParts (s : State) (sid kind seq status : Nat) : Nat → List Byte → State
  | 0, _ => s
  | k + 1, data =>
    let head := natBytes 4 seq ++ natBytes 4 status
    if data.length ≤ 8184 then sendOn s sid kind 1 (head ++ pad8 data)
    else replyParts (sendOn s sid kind 3 (head ++ data.take 8184)) sid kind seq status k (data.drop 8184)
def reply (s : State) (sid : Nat) (f : Frame) (status : Nat) (data : List Byte) : State :=
  replyParts s sid f.kind.toNat f.seq.toNat status (data.length / 8184 + 1) data
/-- The status of a failed access (Table 15-9): a page fault 1, another failure 2. -/
def failStatus (cause : Nat) : Nat := if cause = cPage then 1 else 2

/-! ### WRITE, READ, ATOMIC, LAUNCH (R260, R396) -/

def doWrite (s : State) (sid : Nat) (x : Session) (f : Frame) : State :=
  let n := le f.payload 8 4
  let room := f.payload.length - 16
  if f.payload.length < 16 || n = 0 || 8176 < n || !zeros f.payload 12 4 || room ≠ (n + 7) / 8 * 8 then reply s sid f 3 []
  else match writeRange s (xlCtx s x.ctx needW) (le f.payload 0 8) ((f.payload.drop 16).take n) with
    | .ok s => reply s sid f 0 []
    | .error e => reply s sid f (failStatus e.1) []
def doRead (s : State) (sid : Nat) (x : Session) (f : Frame) : State :=
  let n := le f.payload 8 4
  if f.payload.length ≠ 16 || n = 0 || 8184 < n || !zeros f.payload 12 4 then reply s sid f 3 []
  else
    let va := le f.payload 0 8
    match readSettled s (xlCtx s x.ctx needR) va n with
    | .ok r => reply r.1 sid f 0 r.2
    | .error e => reply s sid f (failStatus e.1) []
def doAtomic (s : State) (sid : Nat) (x : Session) (f : Frame) : State :=
  let op := le f.payload 8 1
  let ty := le f.payload 9 1
  let n := tyWidth ty / 8
  let va := le f.payload 0 8
  if f.payload.length ≠ 32 || !(op ≤ 6 || op = 8) || !([2, 3, 6, 7].contains ty) || !zeros f.payload 10 6 || va % n ≠ 0
      || (op ≠ 8 && !zeros f.payload 24 8) then reply s sid f 3 []
  else match xlCtx s x.ctx needRW va with
    | .bad cause => reply s sid f (failStatus cause) []
    | .ok pa _ =>
      let s := settleLine s (lineOf pa)
      if linePoisoned s (lineOf pa) then reply s sid f 2 []
      else
        let old := homeNat s pa n
        let b := le f.payload 16 8 % 2 ^ (8 * n)
        let new_ := if op = 8 then (if old = le f.payload 24 8 % 2 ^ (8 * n) then b else old) else atomOp ty op old b
        reply (homeWriteNat s pa n new_) sid f 0 (natBytes 8 old)
def doLaunch (s : State) (sid : Nat) (x : Session) (f : Frame) : State :=
  if f.payload.length ≠ 128 then reply s sid f 3 []
  else
    let r := enqueue s x.port x.ctx 0 f.payload none none 0
    reply r.1 sid f 0 (natBytes 4 r.2.2 ++ natBytes 4 0)

/-! ### Reset (R393, R413) -/

/-- Reset of a die: its cores, handlers and tables are as after reset; launches with blocks on it end with the machine check's
cause; HBM keeps its bytes. The boot ROM then loads and measures its firmware (log 13). -/
def resetDie (s : State) (d : Nat) : State :=
  let mine (ck : Nat) : Bool := coreDie ck = d
  let ls := ((s.blocks.filter fun e => e.2.die = d).map (·.2.launch)).dedup
  let s := ls.foldl (fun s l => killLaunch s l 0x1E) s
  let at_ (slice : Nat) : Bool := slice / 32 = d
  let walks := (s.walks.filter fun e => e.2.die = d).map (·.1)
  let unpark (e : Nat × Waiter) : Nat × Waiter := if at_ e.2.slice then (e.1, { e.2 with parked := false }) else e
  let s := { s with
    cores := s.cores.filter fun e => !mine e.1
    tlb := s.tlb.filter fun e => !mine e.tlb
    handlers := s.handlers.filter fun e => e.1 / 12 ≠ d
    groups := s.groups.filter fun e => !mine (placeCore e.1)
    replicas := s.replicas.filter fun e => e.1 % 16 ≠ d
    posted := s.posted.filter fun e => !mine e.2.core
    ringParks := s.ringParks.filter fun p => !at_ p.slice
    sigParks := s.sigParks.filter fun p => !at_ p.slice
    redParks := s.redParks.filter fun p => !at_ p.slice
    welts := s.welts.filter fun e => homeDie e.1 ≠ d
    waiters := s.waiters.map unpark
    packets := s.packets.filter fun e => e.2.at_ ≠ d
    paths := s.paths.filter fun e => !walks.contains e.2.walk
    walks := s.walks.filter fun e => e.2.die ≠ d
    stages := s.stages.filter fun e => e.2.die ≠ d
    ports := s.ports.filter fun e => e.1 / 64 % 16 ≠ d
    measure := if d = 0 then [] else s.measure }
  bootDie (s.updDie d fun x => { resetAt := s.clock, kept := x.kept, lost := x.lost }) d

/-! ### MGMT (R398, Table 15-11) -/

/-- Arguments of a request: the field at an offset. -/
def arg (f : Frame) (off n : Nat) : Nat := le f.payload off n
/-- The payload's length an operation requires. -/
def mgmtLen (f : Frame) (op : Nat) : Nat :=
  match op with
  | 1 => 16 | 2 => 24 | 3 => 32 | 4 => if arg f 10 2 = 0xFFFF then 24 else 16 | 5 => 16 | 6 => 16 | 7 => 16 | 8 => 16 | 9 => 24
  | 10 => 40 | 11 => 32 | 12 => 24 | 13 => 16 | 14 => 8 | 15 => 24 + (arg f 16 8 + 7) / 8 * 8 | 16 => 24 | 17 => 16 | _ => 8
/-- The die byte is one the operation takes. -/
def mgmtDieOk (s : State) (op d : Nat) : Bool :=
  match op with
  | 8 => diePresent s d
  | 14 => diePresent s d
  | 9 => d = 0xFF || diePresent s d
  | 18 => d = 0xFF || diePresent s d
  | _ => d = 0xFF
/-- The zero bytes that an operation's arguments name are zero (Table 15-11). -/
def mgmtZeros (f : Frame) (op : Nat) : Bool :=
  match op with
  | 2 => zeros f.payload 10 6
  | 3 => zeros f.payload 10 6
  | 4 => zeros f.payload 12 4
  | 9 => zeros f.payload 10 6
  | 11 => zeros f.payload 9 7
  | _ => true
/-- The dies a die byte selects. -/
def diesOf (s : State) (d : Nat) : List Nat := if d = 0xFF then allDies s else [d]
/-- Every byte of a physical range names memory. -/
def physOk (s : State) (pa n : Nat) : Bool := (chunksOf pa n).all fun c => namesMemory s c.1
/-- Accesses translated before an invalidate are performed (R387): loads in flight, dirty bytes, posted writes. -/
def drainAccesses (s : State) : State :=
  let s := (spKeys s.loads).foldl (fun s k => sampleLoad s k fun _ => true) s
  let s := (spKeys s.cores).foldl writeBackAll s
  performWhere s fun _ => true
/-- Groups of a region's subtree. -/
def groupsIn (s : State) (c r : Nat) : List Nat := (launchesIn s c r).flatMap fun l => (blocksOf s l).flatMap s.groupsOf
/-- MGMT resume of one group: logged accesses are replayed, and it goes on. -/
def resumeOne (s : State) (g : Nat) : State := if s.hasGrp g && ((s.grp g).halt || loggedOf s g ≠ 0) then replayGroup s g else s
def resumeRegion (s : State) (c r : Nat) : State :=
  let s := (launchesIn s c r).foldl (fun s l => s.updLch l fun x => { x with halted := false }) s
  (groupsIn s c r).foldl resumeOne s
/-- MGMT PREEMPT (R317): every resident block of the subtree; blocks drained, saved, flushed, and bounds missed. -/
def preemptRegion (s : State) (c r bound : Nat) : State × List Choice :=
  let vs := victimsOf s fun e => (s.lch e.2.launch).ctx = c && inSubtree s c r (s.lch e.2.launch).region
  vs.foldl (fun (acc : State × List Choice) b =>
    let t := preemptBlock acc.1 b bound c r
    (t.1, acc.2 ++ [t.2])) (s, [])
/-- The attestation report (R394, R398). -/
def attestReport (s : State) (nonce : List Byte) : List Byte :=
  let body := nonce ++ (List.range 8).flatMap (fun i => natBytes 48 (spGet 0 s.measure i).toNat) ++ natBytes 8 (featOf s)
    ++ natBytes 8 (s.part % 16) ++ natBytes 8 Config.serial.toNat
  body ++ natBytes 384 (Config.rsaSign body).toNat ++ natBytes 29792 (Config.slhSign body).toNat
/-- A firmware stage is loaded only when its image verifies; it is measured before it runs (R393). -/
def loadFirmware (s : State) (stage : Nat) (pa : Nat) (image : List Byte) : State :=
  let s := { measureStage s stage image with fwBase := pa }
  (allDies s).foldl (fun s d => s.updDie d fun x => { x with recovery := false }) s
/-- An image that fails leaves the dies in recovery (R393, log 13). -/
def refuseFirmware (s : State) : State := (allDies s).foldl (fun s d => s.updDie d fun x => { x with recovery := true }) s
/-- The home slices answer a read of physical bytes after the invalidations of earlier writes (R256). -/
def settlePhys (s : State) (pa n : Nat) : State := (chunksOf pa n).foldl (fun s c => settleLine s (lineOf c.1)) s
/-- A MGMT operation of the table: the state, the status and the results. -/
def mgmtDo (s : State) (f : Frame) (op d : Nat) : State × Nat × List Byte :=
  let c := arg f 8 2
  let r := arg f 10 2
  match op with
  | 1 => ({ s with ctxTab := arg f 8 8 }, 0, [])
  | 2 => ({ s with keys := spPut s.keys c (BitVec.ofNat 64 (arg f 16 8)) }, 0, [])
  | 3 => (drainAccesses (tlbInval s c (arg f 16 8) (arg f 24 8)), 0, [])
  | 4 =>
    if r ≠ 0xFFFF then (resumeRegion s c r, 0, [])
    else
      let hs := (s.groups.filter fun e => !isControl e.1 && s.ctxOf e.1 = c && handleOf s e.1 = arg f 16 8).map (·.1)
      (hs.foldl resumeOne s, 0, [])
  | 5 => ((launchesIn s c r).foldl haltLaunch s, 0, [])
  | 6 => ((launchesIn s c r).foldl (fun s l => killLaunch s l 0) s, 0, [])
  | 7 =>
    let t := preemptRegion s c r (arg f 12 4)
    let n (p : Choice → Bool) : List Byte := natBytes 4 (t.2.filter p).length
    (t.1, 0, n (· = .drain) ++ n (fun x => x = .save || x = .saveLate) ++ n (fun x => x = .flush || x = .takeOff) ++ n (· = .saveLate))
  | 8 => if 0x300 ≤ c && c ≤ 0x306 then (s, 0, natBytes 8 (dieCsr s d c)) else (s, 3, [])
  | 9 =>
    if 0x300 ≤ c && c ≤ 0x306 then
      ((diesOf s d).foldl (fun s d => writeDieCsr s d c (BitVec.ofNat 64 (arg f 16 8))) s, 0,
        natBytes 8 (dieCsr s ((diesOf s d).headD 0) c))
    else (s, 3, [])
  | 10 => (s, 0, attestReport s ((f.payload.drop 8).take 32))
  | 11 =>
    let stage := arg f 8 1
    let pa := arg f 16 8
    let n := arg f 24 8
    if 8 ≤ stage || n = 0 then (s, 3, [])
    else if !physOk s pa n || rangePoisoned s pa n then (s, 2, [])
    else
      let s := settlePhys s pa n
      let image := homeBytes s pa n
      if Config.firmwareVerifies image then (loadFirmware s stage pa image, 0, []) else (refuseFirmware s, 5, [])
  | 12 => ({ s with savePool := (arg f 8 8, arg f 16 8) }, 0, [])
  | 13 => ({ s with udpPort := c }, 0, [])
  | 14 =>
    (s, 0, natBytes 8 (featOf s) ++ natBytes 8 (s.die d).errcnt.toNat ++ natBytes 8 (s.die d).lost
      ++ ethPorts.flatMap fun p => natBytes 8 (s.sessions.filter fun e => e.2.port = p).length)
  | 15 =>
    let pa := arg f 8 8
    let n := arg f 16 8
    if n = 0 || 8160 < n then (s, 3, [])
    else if !physOk s pa n then (s, 2, [])
    else (writeParts s (chunksOf pa n) ((f.payload.drop 24).take n), 0, [])
  | 16 =>
    let pa := arg f 8 8
    let n := arg f 16 8
    if n = 0 || 8184 < n then (s, 3, [])
    else if !physOk s pa n || rangePoisoned s pa n then (s, 2, [])
    else (settlePhys s pa n, 0, homeBytes s pa n)
  | 17 =>
    (s, 0, (List.range 16).flatMap fun d =>
      let h := chargesOf s c r d
      natBytes 8 h.groups ++ natBytes 8 h.regs ++ natBytes 8 h.uregs ++ natBytes 8 h.sp ++ natBytes 8 h.acc ++ natBytes 8 h.cores)
  | _ => ((diesOf s d).foldl resetDie s, 0, [])
/-- A MGMT request (R380, R398). -/
def doMgmt (s : State) (sid : Nat) (x : Session) (f : Frame) : State :=
  let op := arg f 0 2
  let d := arg f 2 1
  if f.payload.length < 8 then reply s sid f 3 []
  else if x.ctx ≠ 0 then reply s sid f 4 []
  else if op = 0 || 18 < op then reply s sid f 6 []
  else if (s.die x.port).recovery && op ≠ 14 && op ≠ 11 then reply s sid f 5 []
  else if f.payload.length ≠ mgmtLen f op || !zeros f.payload 3 5 || !mgmtZeros f op || !mgmtDieOk s op d then reply s sid f 3 []
  else
    let r := mgmtDo s f op d
    reply r.1 sid f r.2.1 r.2.2

/-! ### Performing frames in sequence order (R390, R395) -/

/-- A request is performed and answered. A die under machine check serves only MGMT; one in recovery as R398 says. -/
def perform (s : State) (sid : Nat) (f : Frame) : State :=
  match spFind s.sessions sid with
  | none => s
  | some x =>
    let out : Bool := (s.die x.port).mcheck || (s.die x.port).recovery
    match f.kind.toNat with
    | 2 => if out then reply s sid f 5 [] else doWrite s sid x f
    | 3 => if out then reply s sid f 5 [] else doRead s sid x f
    | 4 => if out then reply s sid f 5 [] else doAtomic s sid x f
    | 5 => if out then reply s sid f 5 [] else doLaunch s sid x f
    | 7 => doMgmt s sid x f
    | _ => s
/-- Frames held out of order follow as soon as their turn comes. -/
def performHeld (s : State) (sid : Nat) : Nat → State
  | 0 => s
  | k + 1 =>
    match spFind s.sessions sid with
    | none => s
    | some x =>
      match x.held.find? fun f => f.seq.toNat = x.inSeq + 1 with
      | none => s
      | some f =>
        let y := { x with inSeq := x.inSeq + 1, held := x.held.filter fun g => g.seq ≠ f.seq }
        performHeld (perform { s with sessions := spPut s.sessions sid y } sid f) sid k
/-- A sound frame of a session arrives: performed in order, held, acknowledged again, or beyond the window. -/
def receive (s : State) (x : Session) (f : Frame) : State :=
  let sid := f.sid.toNat
  let n := f.seq.toNat
  let s := takeAcks s sid x f
  if f.kind = 8 then s
  else if x.inSeq + 64 < n then dropFrame s f.port
  else
    match spFind s.sessions sid with
    | none => s
    | some y =>
      let y := { y with ackDue := some (y.ackDue.getD s.clock) }
      let keep : Bool := n ≤ x.inSeq || x.held.any fun h => h.seq = f.seq
      let y := if keep then y else { y with held := y.held ++ [f] }
      performHeld { s with sessions := spPut s.sessions sid y } sid 65
/-- A datagram of a kind reaches the RLP UDP port of an Ethernet port (another UDP port is none of RLP's, R389): dropped and counted where R395 says so. -/
def rlpIn (f : Frame) (mine : Bool) (s : State) : Host.Outcome State Fault Refusal :=
  finish (do
    onlyIf (f.dport = s.udpPort && ethPorts.contains f.port && diePresent s f.port && (mine || !frameSound f))
    if !frameSound f then upd fun s => dropFrame s f.port
    else match sessionOf s f with
      | none => upd fun s => dropFrame s f.port
      | some x => upd fun s => receive s x f) s
/-- RLP_WRITE (R260, R396). -/
def execRlpWrite (f : Frame) (s : State) : Host.Outcome State Fault Refusal := rlpIn f (f.kind = 2) s
/-- RLP_READ (R396). -/
def execRlpRead (f : Frame) (s : State) : Host.Outcome State Fault Refusal := rlpIn f (f.kind = 3) s
/-- RLP_ATOMIC (R260, R396). -/
def execRlpAtomic (f : Frame) (s : State) : Host.Outcome State Fault Refusal := rlpIn f (f.kind = 4) s
/-- RLP_LAUNCH (R260, R396). -/
def execRlpLaunch (f : Frame) (s : State) : Host.Outcome State Fault Refusal := rlpIn f (f.kind = 5) s
/-- RLP_ACK (R395). -/
def execRlpAck (f : Frame) (s : State) : Host.Outcome State Fault Refusal := rlpIn f (f.kind = 8) s

/-! ### HELLO (R389, R390, R396) -/

/-- Versions as major·256 + minor; the device offers 1.0. -/
def verAt (f : Frame) (off : Nat) : Nat := arg f off 1 * 256 + arg f (off + 1) 1
def helloData (s : State) (ver window : Nat) : List Byte :=
  natBytes 1 (ver / 256) ++ natBytes 1 (ver % 256) ++ natBytes 2 window ++ natBytes 4 0 ++ natBytes 8 (featOf s)
  ++ natBytes 8 Config.serial.toNat
/-- A refused HELLO is answered outside any session. -/
def helloRefused (s : State) (f : Frame) (status : Nat) : State :=
  let pl := natBytes 4 f.seq.toNat ++ natBytes 4 status ++ helloData s 0 0
  let g : Frame := { f with flags := 1, sid := 0, seq := 0, len := BitVec.ofNat 16 pl.length, ackb := 0, ackm := 0, payload := pl }
  { s with outbox := s.outbox ++ [(0, g)] }
/-- Events a die kept are sent on a session that may have them, oldest first (R397). -/
def sendKept (s : State) (sid c : Nat) : State :=
  (allDies s).foldl (fun s d =>
    let own (e : Nat × List Byte) : Bool := e.1 = c || c = 0
    let ks := (s.die d).kept.filter own
    let s := s.updDie d fun x => { x with kept := x.kept.filter fun e => !own e }
    ks.foldl (fun s e => sendOn s sid 6 0 e.2) s) s
/-- A session opens. -/
def openSession (s : State) (f : Frame) (c window : Nat) : State :=
  let sid := max 1 (spFresh s.sessions)
  let x : Session := { port := f.port, src := f.src, ctx := c, key := f.key, ver := 0x10, window := window, heard := s.clock }
  let s := { s with sessions := spPut s.sessions sid x }
  sendKept (reply s sid f 0 (helloData s 256 window)) sid c
def hello (s : State) (f : Frame) : State :=
  let c := arg f 4 2
  let w := arg f 6 2
  if spGet 0 s.keys c ≠ f.key then dropFrame s f.port
  else if f.payload.length ≠ 8 || w = 0 || 64 < w then helloRefused s f 3
  else if !(verAt f 0 ≤ 256 && 256 ≤ verAt f 2) then helloRefused s f 7
  else if (s.die f.port).mcheck then helloRefused s f 5
  else if c ≠ 0 && !ctxValid s c then helloRefused s f 8
  else if 256 ≤ (s.sessions.filter fun e => e.2.port = f.port).length then helloRefused s f 9
  else openSession s f c w
/-- RLP_HELLO. -/
def execRlpHello (f : Frame) (s : State) : Host.Outcome State Fault Refusal :=
  finish (do
    onlyIf (f.dport = s.udpPort && ethPorts.contains f.port && diePresent s f.port && (f.kind = 1 || !frameSound f))
    if frameSound f then upd fun s => hello s f else upd fun s => dropFrame s f.port) s

/-! ### MGMT events: one per operation -/

/-- A MGMT frame of one operation. -/
def mgmtIn (f : Frame) (op : Nat) (s : State) : Host.Outcome State Fault Refusal := rlpIn f (f.kind = 7 && arg f 0 2 = op) s
def execMgmtCtxtab (f : Frame) (s : State) : Host.Outcome State Fault Refusal := mgmtIn f 1 s
def execMgmtKey (f : Frame) (s : State) : Host.Outcome State Fault Refusal := mgmtIn f 2 s
def execMgmtInval (f : Frame) (s : State) : Host.Outcome State Fault Refusal := mgmtIn f 3 s
def execMgmtResume (f : Frame) (s : State) : Host.Outcome State Fault Refusal := mgmtIn f 4 s
def execMgmtHalt (f : Frame) (s : State) : Host.Outcome State Fault Refusal := mgmtIn f 5 s
def execMgmtKill (f : Frame) (s : State) : Host.Outcome State Fault Refusal := mgmtIn f 6 s
def execMgmtPreempt (f : Frame) (s : State) : Host.Outcome State Fault Refusal := mgmtIn f 7 s
def execMgmtCsrr (f : Frame) (s : State) : Host.Outcome State Fault Refusal := mgmtIn f 8 s
def execMgmtCsrw (f : Frame) (s : State) : Host.Outcome State Fault Refusal := mgmtIn f 9 s
def execMgmtAttest (f : Frame) (s : State) : Host.Outcome State Fault Refusal := mgmtIn f 10 s
def execMgmtFwload (f : Frame) (s : State) : Host.Outcome State Fault Refusal := mgmtIn f 11 s
def execMgmtSavepool (f : Frame) (s : State) : Host.Outcome State Fault Refusal := mgmtIn f 12 s
def execMgmtPort (f : Frame) (s : State) : Host.Outcome State Fault Refusal := mgmtIn f 13 s
def execMgmtStatus (f : Frame) (s : State) : Host.Outcome State Fault Refusal := mgmtIn f 14 s
def execMgmtPhysw (f : Frame) (s : State) : Host.Outcome State Fault Refusal := mgmtIn f 15 s
def execMgmtPhysr (f : Frame) (s : State) : Host.Outcome State Fault Refusal := mgmtIn f 16 s
def execMgmtCharges (f : Frame) (s : State) : Host.Outcome State Fault Refusal := mgmtIn f 17 s
def execMgmtReset (f : Frame) (s : State) : Host.Outcome State Fault Refusal := mgmtIn f 18 s
/-- UNKNOWN_MGMT_OPERATION: status 6 (R398). -/
def execUnknownMgmtOperation (f : Frame) (s : State) : Host.Outcome State Fault Refusal :=
  rlpIn f (f.kind = 7 && (arg f 0 2 = 0 || 18 < arg f 0 2)) s

/-! ### Timers (R395) -/

/-- A frame's current acknowledgement fields. -/
def ackFields (x : Session) (f : Frame) : Frame :=
  { f with ackb := BitVec.ofNat 32 x.inSeq, ackm := BitVec.ofNat 64 (sumNat (x.held.map fun h => 2 ^ (h.seq.toNat - x.inSeq - 1))) }
/-- An ACK frame of a session. -/
def ackFrame (sid : Nat) (x : Session) : Frame :=
  { port := x.port, src := x.src, magic := 0xA55E, ver := BitVec.ofNat 8 x.ver, kind := 8, flags := 0, len := 0,
    sid := BitVec.ofNat 32 sid, seq := 0, key := x.key, ackb := 0, zero := 0, ackm := 0, payload := [] }
def sendAck (sid : Nat) (x : Session) (s : State) : State :=
  { s with sessions := spPut s.sessions sid { x with ackDue := none }, outbox := s.outbox ++ [(sid, ackFields x (ackFrame sid x))] }
/-- A frame is sent again; every frame carries the current acknowledgements. -/
def resend (sid : Nat) (x : Session) (u : Sent) (s : State) : State :=
  let again (v : Sent) : Sent := if v.frame.seq = u.frame.seq then { v with at_ := s.clock, times := v.times + 1 } else v
  { s with
    sessions := spPut s.sessions sid { x with unacked := x.unacked.map again, ackDue := none }
    outbox := s.outbox ++ [(sid, ackFields x u.frame)] }
/-- ACK_TIMER: an ACK frame for what is not yet acknowledged. -/
def execAckTimer (sid : Nat) (s : State) : Host.Outcome State Fault Refusal :=
  finish (do
    match spFind s.sessions sid with
    | none => idleM
    | some x => do
      onlyIf x.ackDue.isSome
      upd (sendAck sid x)) s
/-- RETRANSMIT: a frame unacknowledged for 100 µs is sent again, up to 32 times; then the session closes. -/
def execRetransmit (sid seq : Nat) (s : State) : Host.Outcome State Fault Refusal :=
  finish (do
    match spFind s.sessions sid with
    | none => idleM
    | some x =>
      match x.unacked.find? fun u => u.frame.seq.toNat = seq with
      | none => idleM
      | some u => do
        onlyIf (u.at_ + 400000 ≤ s.clock)
        if 33 ≤ u.times then upd fun s => { s with sessions := spDel s.sessions sid }
        else upd (resend sid x u)) s
/-- SESSION_TIMEOUT: 10 s with no valid frame from the host. -/
def execSessionTimeout (sid : Nat) (s : State) : Host.Outcome State Fault Refusal :=
  finish (do
    match spFind s.sessions sid with
    | none => idleM
    | some x => do
      onlyIf (x.heard + 40000000000 ≤ s.clock)
      upd fun s => { s with sessions := spDel s.sessions sid }) s

/-! ### Power, thermal and refresh (R240, R391, R392): only timing -/

/-- POWER_LIMIT_THROTTLE: at 11 kW every core's issue is throttled, until power falls below 10.8 kW. -/
def execPowerLimitThrottle (watts : Nat) (s : State) : Host.Outcome State Fault Refusal :=
  .next { s with powerThrottle := if 11000 ≤ watts then true else if watts < 10800 then false else s.powerThrottle }
/-- REGION_POWER_WINDOW: a region above its cap is throttled in the next window. -/
def execRegionPowerWindow (die ctx region watts : Nat) (s : State) : Host.Outcome State Fault Refusal :=
  let cap := (regionOf s ctx region).power
  let rest := s.throttled.filter fun t => t ≠ (die, ctx, region)
  .next { s with throttled := if cap ≠ 0 && cap < watts then rest ++ [(die, ctx, region)] else rest }
/-- THERMAL_THROTTLE: outside the coolant's conditions the package is throttled. -/
def execThermalThrottle (outside : Bool) (s : State) : Host.Outcome State Fault Refusal := .next { s with thermal := outside }
/-- WS_REFRESH_WINDOW: the refreshing bank is a function of the clock (REFCAL.pos), and loads wait for its window
(loadWaits). -/
def execWsRefreshWindow (_die : Nat) (s : State) : Host.Outcome State Fault Refusal := .next s
/-- RESET: a die returns to its state after reset (R393, R413). -/
def execReset (die : Nat) (s : State) : Host.Outcome State Fault Refusal :=
  finish (do
    onlyIf (diePresent s die)
    upd fun s => resetDie s die) s

end Sys2Proof.Machine
end

