-- ==== Sys2Proof/Machine/Tasks.lean ====
section
/-! DEFINITION. Tasks.lean: tasks, the graph walker, best-iterate slots, LAUNCH, continuations (R358 to R368). -/

namespace Sys2Proof.Machine

/-! ### Tasks (R363, R364) -/

def taskCount (s : State) (pa : Nat) : Int := signedNat 32 (homeNat s pa 4)
def taskFlags (s : State) (pa : Nat) : Nat := homeNat s (pa + 4) 4
/-- What is wrong with a task record at its home. -/
def taskBad (s : State) (pa : Nat) : Option Nat :=
  let n := homeNat s (pa + 16) 4
  if linePoisoned s (lineOf pa) then some cPoison
  else if taskFlags s pa < 4 && n ≤ 5 && homeNat s (pa + 20) 4 = 0 && homeNat s (pa + 8) 8 % 64 = 0
      && (List.range n).all fun i => homeNat s (pa + 24 + 8 * i) 8 % 64 = 0 then none
  else some 0x0B
/-- A signal on its way: record VA, its physical address if it is translated, the number (0 only tests the count); or the release of
the continuations that wait on a record. -/
inductive Sig where
  | signal (va : Nat) (pa : Option Nat) (n : Nat)
  | release (pa : Nat)
  deriving DecidableEq, Repr
/-- A launch record submitted by a task, a walk or a group: read in the context, then the Caller's checks. -/
def submitAt (s : State) (d c va : Nat) (issuer : Nat) (path : Option Nat) (deadline : Nat) : Except Fail (State × Nat × Nat) := do
  let r ← readSettled s (xlCtx s c needR) va 128
  pure (enqueue r.1 d c va r.2 (some issuer) path deadline)
/-- The continuations that wait on a record are released (R361). -/
def releaseWaiters (s : State) (pa : Nat) : State :=
  let rel := (s.conts.filter fun e => e.2.wk = 2 && e.2.waddr = pa).map (·.1)
  { s with
    conts := s.conts.map fun e => if rel.contains e.1 then (e.1, { e.2 with wk := 0 }) else e
    waiters := s.waiters.filter fun e => match e.2.what with | .watch k => !rel.contains k | _ => true }
/-- Fire() of R364: the action is submitted; then the successors' signals, and last the release. -/
def fireTask (s : State) (pa c r : Nat) : State × List Sig :=
  let d := homeDie pa
  let s := homeWriteNat s (pa + 4) 4 (taskFlags s pa ||| 2)
  let act := homeNat s (pa + 8) 8
  let s := if act = 0 then s else match submitAt s d c act r none 0 with
    | .ok t => t.1
    | .error e => domFault s d c r { cause := e.1, addr := e.2 }
  (s, (List.range (homeNat s (pa + 16) 4)).map (fun i => .signal (homeNat s (pa + 24 + 8 * i) 8) none 1) ++ [.release pa])
/-- SIGNAL(n) of R364 at a record's home, for a group's fault domain. -/
def signalOne (s : State) (pa va n c r : Nat) : State × List Sig :=
  match taskBad s pa with
  | some cause => (domFault s (homeDie pa) c r { cause := cause, addr := va }, [])
  | none =>
    let f := taskFlags s pa
    if f.testBit 1 then (s, [])
    else if !f.testBit 0 then
      if 64 ≤ (s.sigParks.filter fun p => p.slice = sliceKey pa).length then
        (domFault s (homeDie pa) c r { cause := 0x15, addr := va }, [])
      else ({ s with sigParks := s.sigParks ++ [{ slice := sliceKey pa, record := pa, n := n, ctx := c, region := r }] }, [])
    else
      let k := taskCount s pa - n
      let s := homeWriteNat s pa 4 (k % 2 ^ 32).toNat
      if signedNat 32 (k % 2 ^ 32).toNat ≤ 0 then fireTask s pa c r else (s, [])
/-- Signals in the order written: those of a task that fires come before the next one (R364). A task fires once, so the fuel
suffices: every record that can fire has a byte listed in memory. -/
def runSignals (c r : Nat) : Nat → List Sig → State → State
  | 0, _, s => s
  | _, [], s => s
  | k + 1, .release pa :: rest, s => runSignals c r k rest (releaseWaiters s pa)
  | k + 1, .signal va pa n :: rest, s =>
    let at_ : Except Fail Nat := match pa with
      | some p => .ok p
      | none => if va % 64 ≠ 0 then .error (0x0B, va) else match xlCtx s c needRW va with
        | .ok p _ => .ok p
        | .bad cause => .error (cause, va)
    match at_ with
    | .error e => runSignals c r k rest (domFault s 0 c r { cause := e.1, addr := e.2 })
    | .ok p =>
      let s := settleLine s (lineOf p)
      let t := signalOne s p va n c r
      runSignals c r k (t.2 ++ rest) t.1
def signals (s : State) (c r : Nat) (l : List Sig) : State := runSignals c r (l.length + 6 * s.mem.length + 8) l s
/-- PUBLISH(c) of R364: parked signals are applied in arrival order, then the count is tested. -/
def publishAt (s : State) (pa va n c r : Nat) : State :=
  match taskBad s pa with
  | some cause => domFault s (homeDie pa) c r { cause := cause, addr := va }
  | none =>
    if (taskFlags s pa).testBit 0 then s
    else
      let s := homeWriteNat (homeWriteNat s pa 4 n) (pa + 4) 4 (taskFlags s pa ||| 1)
      let mine := s.sigParks.filter fun p => p.record = pa
      let s := { s with sigParks := s.sigParks.filter fun p => p.record ≠ pa }
      let s := mine.foldl (fun s p => signals s p.ctx p.region [.signal va (some pa) p.n]) s
      signals s c r [.signal va (some pa) 0]
/-- The count of a SIGNAL for a runner: 1 to 255. -/
def sigCount (o : FmtE) (s : State) (t : Nat) : Nat :=
  let f := WF.efF o 43
  if WF.isV f then readV s.seen f.toNat t else eCount s f
def sigCountOk (o : FmtE) (s : State) (t : Nat) : Bool := 1 ≤ sigCount o s t && sigCount o s t ≤ 255
/-- The signals of a SIGNAL that ran in v, after its release: one to each record named, in the order of the runners. -/
def signalEach (o : FmtE) (v : State) (ps : List Named) (s : State) : State :=
  let c := v.ctxOf v.cur.g
  let r := (v.grpLch v.cur.g).region
  ps.foldl (fun t p => signals t c r [.signal (eAddr v o.a p.1) (some p.2) (sigCount o v p.1)]) (eRelease o s)
/-- SIGNAL (R364, R376). -/
def execSignal (o : FmtE) (s : State) : Host.Outcome State Fault Refusal :=
  finish (do
    let s ← get
    let bad := (runners s o.h).filter fun t => !sigCountOk o s t
    need (bad = []) { cause := 0x01, mask := runnerMask s o.h.u bad }
    eachStruct o (use2 o.a ++ use1 (WF.efF o 43)) 64 64 needRW fun ps => do
      if ps ≠ [] then beforeRelease
      upd (signalEach o s ps)) s
/-- The PUBLISH of a record, after its release. -/
def publishNow (o : FmtE) (va pa : Nat) (v : State) : State :=
  publishAt (settleLine (eRelease o v) (lineOf pa)) pa va (e32 v true (WF.efF o 43) 0) (v.ctxOf v.cur.g) (v.grpLch v.cur.g).region
/-- PUBLISH (R364, R376). -/
def execPublish (o : FmtE) (s : State) : Host.Outcome State Fault Refusal :=
  finish (uniStruct o (use1 o.a ++ use1 (WF.efF o 43)) 64 64 needRW fun va pa => do
    beforeRelease
    upd (publishNow o va pa)) s

/-! ### Best-iterate slots (R367) -/

/-- f64 bits in the order of R84, −0 below +0. -/
def orderKey (x : Nat) : Int := if x < 2 ^ 63 then (x : Int) else -((x : Int) - 2 ^ 63) - 1
def isNan64 (x : Nat) : Bool := 0x7FF0000000000000 < x % 2 ^ 63
/-- One offer at a slot's home (R367). -/
def offer (s : State) (pa m i : Nat) : State :=
  let metric := homeNat s pa 8
  let id := homeNat s (pa + 8) 8
  let s := homeWriteNat s (pa + 16) 4 (homeNat s (pa + 16) 4 + 1)
  if !isNan64 m && !isNan64 metric && (orderKey m < orderKey metric || (m = metric && i < id)) then
    homeWriteNat (homeWriteNat s pa 8 m) (pa + 8) 8 i
  else s
/-- One runner's offer by an ITREP that ran in v; a poisoned or broken slot is a fault of the domain. -/
def offerOne (o : FmtE) (v s : State) (p : Named) : State :=
  let s := settleLine s (lineOf p.2)
  let va := eAddr v o.a p.1
  if linePoisoned s (lineOf p.2) then structFault s cPoison va
  else if homeNat s (p.2 + 24) 8 ≠ 0 then structFault s 0x0B va
  else offer s p.2 (srcAs v o.h.u 11 (WF.efF o 43) p.1) (e64 v o.h.u (WF.efF o 33) p.1)
/-- ITREP (R367, R376). -/
def execItrep (o : FmtE) (s : State) : Host.Outcome State Fault Refusal :=
  finish (eachStruct o (use2 o.a ++ use2 (WF.efF o 43) ++ use2 (WF.efF o 33)) 32 32 needRW fun ps => do
    if ps ≠ [] then beforeRelease
    upd fun s => ps.foldl (offerOne o s) (eRelease o s)) s

/-! ### LAUNCH (R368) -/

/-- The record is submitted: the launch is named, the status is the result. -/
def submitRecord (o : FmtE) (va : Nat) (bs : List Byte) (s : State) : State :=
  let r := enqueue s (coreDie (placeCore s.cur.g)) (s.ctxOf s.cur.g) va bs (some (s.grpLch s.cur.g).region) none 0
  putK o 3 r.2.2 r.1
/-- LAUNCH: the record goes to the Caller of the issuing die; a release at scope pkg. -/
def execLaunch (o : FmtE) (s : State) : Host.Outcome State Fault Refusal :=
  finish (uniStruct o (use1 o.a) 64 128 needR fun va _ => do
    beforeRelease
    upd fun s => doRelease s s.cur.g 4
    let s ← get
    match readSettled s (xlGrp s s.cur.g needR) va 128 with
    | .error e => uniTrap e.1 e.2
    | .ok r => set (submitRecord o va r.2 r.1)) s
/-- Active paths of a die's walker. -/
def pathsOn (s : State) (d : Nat) : Nat :=
  (s.paths.filter fun e => match spFind s.walks e.2.walk with | some w => w.die = d | none => false).length
/-- The completion word a LAUNCH.graph names, and the registers it reads. -/
def graphDone (o : FmtE) (s : State) : Nat := if WF.ef o 52 43 = 0 then 0 else e64 s true (WF.efF o 43) 0
def graphUses (o : FmtE) : List FieldUse := use1 o.a ++ (if WF.ef o 52 43 = 0 then [] else use1 (WF.efF o 43))
/-- A walk starts at the node, with one path. -/
def startWalk (o : FmtE) (va done : Nat) (s : State) : State :=
  let s := doRelease s s.cur.g 4
  let w := spFresh s.walks
  let x : Walk := { die := coreDie (placeCore s.cur.g), ctx := s.ctxOf s.cur.g, region := (s.grpLch s.cur.g).region, done := done }
  let s := { s with walks := spPut s.walks w x, paths := spPut s.paths (spFresh s.paths) { walk := w, node := va } }
  putK o 3 0 s
/-- LAUNCH.graph: a walk starts at the node, unless the walker's 256 paths are taken (R366). -/
def execLaunchGraph (o : FmtE) (s : State) : Host.Outcome State Fault Refusal :=
  finish (uniStruct o (graphUses o) 64 64 needR fun va _ => do
    let s ← get
    let done := graphDone o s
    need (done % 8 = 0) (shapeAt s done)
    if 256 ≤ pathsOn s (coreDie (placeCore s.cur.g)) then stallM
    else do
      beforeRelease
      upd (startWalk o va done)) s

/-! ### The graph walker (R365, R366) -/

def nodeKind (bs : List Byte) : Nat := le bs 0 1
def nodeFork (bs : List Byte) : Bool := le bs 1 1 = 1
def nodeArg (bs : List Byte) : Nat := le bs 8 8
def nodeNext (bs : List Byte) : Nat := le bs 16 8
def nodeAlt (bs : List Byte) : Nat := le bs 24 8
def nodeDeadline (bs : List Byte) : Nat := le bs 32 8
def nodeBest (bs : List Byte) : Nat := le bs 40 8
/-- A node keeps Table 14-6. -/
def nodeSound (bs : List Byte) : Bool :=
  let k := nodeKind bs
  let al := if k = 2 || k = 3 then 8 else 64
  1 ≤ k && k ≤ 5 && le bs 1 1 ≤ (if k = 1 then 1 else 0) && zeros bs 2 2 && zeros bs 56 8
  && (if k = 4 then 1 ≤ le bs 4 4 && le bs 4 4 ≤ 2 ^ 16 && nodeArg bs = 0 else le bs 4 4 = 0 && nodeArg bs % al = 0)
  && nodeNext bs % 64 = 0 && (if k = 2 || k = 3 || (k = 1 && nodeFork bs) then nodeAlt bs % 64 = 0 else nodeAlt bs = 0)
  && nodeBest bs % 32 = 0
/-- A path walks to a node, or ends at none. -/
def walkTo (s : State) (p n : Nat) : State :=
  if n = 0 then endPath s p
  else match spFind s.paths p with
    | some x => { s with paths := spPut s.paths p { x with node := n, waiting := none } }
    | none => s
/-- A bad node ends the walk with state 3: this path ends, and no new node is started (R366). -/
def failWalk (s : State) (p : Nat) : State :=
  match (spFind s.paths p).bind fun x => (spFind s.walks x.walk).map fun w => (x.walk, w) with
  | some (k, w) => endPath { s with walks := spPut s.walks k { w with failed := true } } p
  | none => s
/-- A path and its walk. -/
def pathWalk (s : State) (p : Nat) : Option (Path × Walk) := (spFind s.paths p).bind fun x => (spFind s.walks x.walk).map fun w => (x, w)
/-- The walker stands at a node of the kind (or at a bad node, or the walk has ended): the action `f` on the path's walk and the
node's bytes; none where a translation fails. -/
def atNode (p kind : Nat) (f : Walk → List Byte → Nat → State → Option State) (s : State) : Host.Outcome State Fault Refusal :=
  finish (do
    match pathWalk s p with
    | none => idleM
    | some (x, w) =>
      onlyIf (x.waiting.isNone)
      if w.failed then upd fun s => endPath s p
      else match (if x.node % 64 = 0 then readRange s (xlCtx s w.ctx needR) x.node 64 else .error (0x0B, x.node)) with
        | .error _ => upd fun s => failWalk s p
        | .ok bs =>
          if !nodeSound bs then upd fun s => failWalk s p
          else do
            onlyIf (nodeKind bs = kind)
            upd fun s0 =>
              let s := settleRange s0 (xlCtx s0 w.ctx needR) x.node 64
              (f w bs x.node s).getD (failWalk s p)) s
/-- The path stands at a node that forks, and the walker's 256 paths are taken. -/
def forkFull (s : State) (path : Nat) : Bool :=
  match pathWalk s path with
  | some (x, w) =>
    (match readRange s (xlCtx s w.ctx needR) x.node 64 with
     | .ok bs => nodeSound bs && nodeKind bs = 1 && nodeFork bs && 256 ≤ pathsOn s w.die
     | .error _ => false)
  | none => false
/-- A LAUNCH node: with fork a new path waits for the launch and goes on at alt, without it this path waits. -/
def launchNode (path : Nat) (w : Walk) (bs : List Byte) (_ : Nat) (s : State) : Option State :=
  match submitAt s w.die w.ctx (nodeArg bs) w.region (some path) (nodeDeadline bs) with
  | .error _ => none
  | .ok (s, l, _) =>
    match spFind s.paths path with
    | none => some s
    | some x =>
      if nodeFork bs then
        let s := { s with paths := spPut s.paths (spFresh s.paths) { x with node := nodeAlt bs, waiting := some l } }
        some (walkTo s path (nodeNext bs))
      else some { s with paths := spPut s.paths path { x with node := nodeNext bs, waiting := some l } }
/-- GRAPH_LAUNCH_NODE: the launch record is submitted; without fork the path waits for the launch, with fork a second path does.
A fork waits while 256 paths are active. -/
def execGraphLaunchNode (path : Nat) (s : State) : Host.Outcome State Fault Refusal :=
  if forkFull s path then .next s else atNode path 1 (launchNode path) s
/-- The condition word of a COND or WHILE, read at its home. -/
def condWord (s : State) (c va : Nat) : Option (State × Nat) :=
  match readSettled s (xlCtx s c needR) va 8 with
  | .ok r => some (r.1, bytesNat r.2)
  | .error _ => none
/-- GRAPH_COND_NODE. -/
def condNode (path : Nat) (w : Walk) (bs : List Byte) (_ : Nat) (s : State) : Option State :=
  (condWord s w.ctx (nodeArg bs)).map fun v => walkTo v.1 path (if v.2 ≠ 0 then nodeNext bs else nodeAlt bs)
def execGraphCondNode (path : Nat) (s : State) : Host.Outcome State Fault Refusal := atNode path 2 (condNode path) s
/-- GRAPH_WHILE_NODE. -/
def whileNode (path : Nat) (w : Walk) (bs : List Byte) (n : Nat) (s : State) : Option State :=
  match condWord s w.ctx (nodeArg bs) with
  | none => none
  | some (s, v) =>
    let late : Bool := nodeDeadline bs ≠ 0 && nodeDeadline bs < s.timeOf w.die
    let write (va k x : Nat) (s : State) : Option State := (writeRange s (xlCtx s w.ctx needW) va (natBytes k x)).toOption
    if v = 0 then some (walkTo s path (nodeNext bs))
    else if !late then (write (n + 48) 4 (le bs 48 4 + 1) s).map fun s => walkTo s path (nodeAlt bs)
    else if nodeBest bs = 0 then some (walkTo s path (nodeNext bs))
    else match readSettled s (xlCtx s w.ctx needR) (nodeBest bs + 20) 4 with
      | .error _ => none
      | .ok r => (write (nodeBest bs + 20) 4 (bytesNat r.2 ||| 1) r.1).map fun s => walkTo s path (nodeNext bs)
def execGraphWhileNode (path : Nat) (s : State) : Host.Outcome State Fault Refusal := atNode path 3 (whileNode path) s
/-- GRAPH_JOIN_NODE. -/
def joinNode (path : Nat) (w : Walk) (bs : List Byte) (n : Nat) (s : State) : Option State :=
  let arr := le bs 52 4 + 1
  let all : Bool := arr = le bs 4 4
  ((writeRange s (xlCtx s w.ctx needW) (n + 52) (natBytes 4 (if all then 0 else arr))).toOption).map fun s =>
    if all then walkTo s path (nodeNext bs) else endPath s path
def execGraphJoinNode (path : Nat) (s : State) : Host.Outcome State Fault Refusal := atNode path 4 (joinNode path) s
/-- GRAPH_SIGNAL_NODE. -/
def signalNode (path : Nat) (w : Walk) (bs : List Byte) (_ : Nat) (s : State) : Option State :=
  match xlCtx s w.ctx needRW (nodeArg bs) with
  | .bad _ => none
  | .ok pa _ => some (walkTo (signals s w.ctx w.region [.signal (nodeArg bs) (some pa) 1]) path (nodeNext bs))
def execGraphSignalNode (path : Nat) (s : State) : Host.Outcome State Fault Refusal := atNode path 5 (signalNode path) s

/-! ### Continuations (R358 to R362) -/

def contVb (o : FmtE) : Nat := WF.ef o 19 12
def contNv (o : FmtE) : Nat := WF.ef o 11 7
def contKb (o : FmtE) : Nat := WF.ef o 32 27
def contNk (o : FmtE) : Nat := WF.ef o 26 23
def contWk (o : FmtE) : Nat := WF.ef o 22 21
/-- The block holds core-affine state (R360). -/
def affineState (s : State) (b : Nat) : Bool :=
  (s.copies.any fun e => e.2.block = b && !e.2.complete) || (s.matOps.any fun e => e.2.block = b)
  || (s.queries.any fun e => e.2.block = b && e.2.state ≠ .complete)
  || (s.ports.any fun e => e.2.recvs.any fun r => r.block = b && r.status = 0) || !(established s b).isEmpty
/-- The tag of a record (Table 14-4). -/
def contTag (s : State) (b : Nat) (affine : Bool) : Nat :=
  let x := s.blk b
  let l := s.lch x.launch
  l.ctx + (if affine then x.die * 2 ^ 12 + x.core * 2 ^ 16 + x.place * 2 ^ 22 + l.serial % 2 ^ 38 * 2 ^ 26 else l.serial % 2 ^ 52 * 2 ^ 12)
/-- The record's bytes (Table 14-4). -/
def contBytes (s : State) (o : FmtE) (affine : Bool) (queue waddr wval : Nat) : List Byte :=
  let x := s.me
  let b := s.blk x.block
  let v (j : Nat) : List Byte := tids.flatMap fun t => natBytes 4 (readV x (contVb o + j) t)
  natBytes 4 (s.cur.off + 1) ++ natBytes 4 ((if affine then 1 else 0) + 2 * contWk o) ++ natBytes 8 x.resident.toNat
  ++ natBytes 24 (planeVector x) ++ natBytes 1 (contVb o) ++ natBytes 1 (contNv o) ++ natBytes 1 (contKb o) ++ natBytes 1 (contNk o)
  ++ natBytes 4 x.late.toNat ++ natBytes 2 (x.mode.toNat % 2 ^ 10) ++ natBytes 1 (x.fstat.toNat % 2 ^ 5) ++ natBytes 1 0
  ++ natBytes 4 b.bid ++ natBytes 8 (s.lch b.launch).va ++ natBytes 8 queue ++ natBytes 8 waddr ++ natBytes 8 wval
  ++ natBytes 8 (contTag s x.block affine) ++ natBytes 32 0
  ++ natBytes 56 (sumNat (tids.map fun t => predBits x t * 2 ^ (7 * t))) ++ natBytes 1 x.gp.toNat ++ natBytes 7 0
  ++ (List.range (contNk o)).flatMap (fun j => natBytes 8 (readK x (contKb o + j))) ++ (List.range (contNv o)).flatMap v
/-- The event of a wait kind has happened already, or the structure it names is broken (with the cause). -/
def contNow (s : State) (wk pa wval : Nat) : Bool × Option Nat :=
  match wk with
  | 0 => (true, none)
  | 1 => (match ringBad s pa with
    | some c => (true, some c)
    | none => (wval ≤ (ringHdr s pa).committed, none))
  | 2 => (match taskBad s pa with
    | some c => (true, some c)
    | none => ((taskFlags s pa).testBit 1, none))
  | _ => (homeNat s pa 8 ≠ wval, none)
/-- The continuation is kept, and watched at the home slice of its wait address; a full waiter table releases it (R361). -/
def keepCont (s : State) (c : Cont) : State :=
  let k := spFresh s.conts
  let s := if c.wk = 0 then s else settleLine s (lineOf c.waddr)
  let n := contNow s c.wk c.waddr c.wval
  let s := match n.2 with | some cause => domFault s c.die c.ctx c.region { cause := cause, addr := c.waddr } | none => s
  if n.1 then { s with conts := spPut s.conts k { c with wk := 0 } }
  else if 64 ≤ tableUsed s (sliceKey c.waddr) then { s with conts := spPut s.conts k { c with wk := 0 } }
  else
    let w : Waiter := { slice := sliceKey c.waddr, header := c.waddr, parked := true, since := s.clock, what := .watch k }
    { s with conts := spPut s.conts k c, waiters := spPut s.waiters (spFresh s.waiters) w }
/-- The group leaves its core: an affine continuation keeps the block there, another ends it (R360). -/
def contLeave (s : State) (g : Nat) (affine : Bool) : State :=
  let b := (s.grp g).block
  let x := s.blk b
  let s := if affine then s else tellRetired s g
  let s := { s with groups := spDel s.groups g }
  if affine then fillCore (s.setBlk b { x with state := .affine }) (placeCore g)
  else
    let s := if (s.lch x.launch).pavane && (s.lch x.launch).token = x.bid && x.spawnOf.isNone then passToken s x.launch else s
    discardBlock s b
/-- CONT's operands: the resume queue, the wait address and the wait value; the size and alignment of what the record and the
wait address name. -/
def contQueue (o : FmtE) (s : State) : Nat := e64 s true (WF.efF o 43) 0
def contWaddr (o : FmtE) (s : State) : Nat := if contWk o = 0 then 0 else e64 s true (WF.efF o 33) 0
def contWval (o : FmtE) (s : State) : Nat := if contWk o = 0 then 0 else readK s.seen (WF.ef o 42 33 - 0x100 + 1)
def contSize (o : FmtE) : Nat := 192 + 8 * contNk o + 256 * contNv o
def contAlign (o : FmtE) : Nat := if contWk o = 3 then 8 else 64
def contNeed (o : FmtE) : Need := if contWk o = 1 then needRW else needR
/-- The group may suspend: the one group of its block, with no divergence pending (R358). -/
def contAllowed (s : State) : Bool :=
  let x := s.me
  !isControl s.cur.g && (s.blk x.block).ngroups = 1 && x.stack = [] && x.live = x.resident
/-- Every die of a launch polls the resume queue that a continuation names. -/
def pollQueue (l queue : Nat) (y : Die) : Die :=
  { y with resumeQueues := if y.resumeQueues.contains (l, queue) then y.resumeQueues else y.resumeQueues ++ [(l, queue)] }
/-- The group that ran in v, its record now written in s, suspends: it leaves its core and its continuation is kept. -/
def suspend (o : FmtE) (v : State) (va wpa : Nat) (s : State) : State :=
  let x := v.me
  let b := v.blk x.block
  let l := s.lch b.launch
  let affine := affineState v x.block
  let queue := contQueue o v
  let c : Cont := {
    va := va, ctx := l.ctx, region := l.region, launch := b.launch, die := b.die, core := b.core,
    block := if affine then some x.block else none, queue := queue, wk := contWk o, waddr := wpa, wval := contWval o v,
    affine := affine, uid := x.uid, spawnOf := b.spawnOf }
  keepCont (l.dies.foldl (fun s d => s.updDie d (pollQueue b.launch queue)) (contLeave s v.cur.g affine)) c
/-- The bytes of the record a CONT writes. -/
def contRecord (o : FmtE) (s : State) : List Byte :=
  contBytes s o (affineState s s.me.block) (contQueue o s) (contWaddr o s) (contWval o s)
/-- CONT (R358 to R361). -/
def contCore (o : FmtE) : M Unit := do
  let s ← get
  if !guardG s o.h then pure ()
  else do
    need (contAllowed s) { cause := 0x06, mask := s.me.resident }
    checkStale true (readsOf (.cont o)) [0]
    let va := eAddr s o.a 0
    let _ ← structs true false 64 (contSize o) needW [(0, va)]
    let _ ← structs true false 64 64 needRW [(0, contQueue o s)]
    let ws ← if contWk o = 0 then pure [] else structs true false (contAlign o) (contAlign o) (contNeed o) [(0, contWaddr o s)]
    checkPoison true (readsOf (.cont o)) [0]
    beforeRelease
    upd fun s => doRelease s s.cur.g 4
    let s ← get
    match writeRange s (xlGrp s s.cur.g needW) va (contRecord o s) with
    | .error e => uniTrap e.1 e.2
    | .ok t => set (suspend o s va ((ws.head?.map (·.2)).getD 0) t)
def execCont (o : FmtE) (s : State) : Host.Outcome State Fault Refusal := finish (contCore o) s

/-- The launch record that a continuation's group runs under: one group, and of a spawn group its configuration (R205). -/
def contRec (s : State) (c : Cont) : LaunchRec :=
  let r := { (s.lch c.launch).lr with groups := 1 }
  match c.spawnOf with
  | none => r
  | some o => { r with regs := o.cfg.regs, uregs := o.cfg.uregs, planes := o.cfg.planes, sp := o.cfg.sp, acc := 0, barriers := 0 }
/-- Its priority (R315). -/
def contPrio (s : State) (c : Cont) : Nat := match c.spawnOf with | none => (s.lch c.launch).groupPrio s | some o => o.prio
/-- The group a record resumes as (R362): its listed registers, predicates, planes, MODE, FSTAT and LATECNT; the rest as at a
group's start, with k0 0 unless listed. -/
def contGroup (s : State) (b : Nat) (r : LaunchRec) (bs : List Byte) (prio : Nat) : Group :=
  let res : Mask := BitVec.ofNat 64 (le bs 8 8)
  let vb := le bs 40 1
  let nv := le bs 41 1
  let kb := le bs 42 1
  let nk := le bs 43 1
  let x : Group := {
    uid := s.nextUid, block := b, gidx := 0, regs := r.regs, uregs := r.uregs, np := r.planes, code := r.code, live := res, resident := res,
    pc := le bs 0 4 % 2 ^ 27, entering := true, prio := prio, readyAt := s.clock,
    mode := BitVec.ofNat 64 (le bs 48 2 % 2 ^ 10), fstat := BitVec.ofNat 64 (le bs 50 1 % 2 ^ 5), late := BitVec.ofNat 64 (le bs 44 4),
    gp := BitVec.ofNat 8 (le bs 184 1 % 2 ^ 7) }
  let planes := le bs 16 24
  let preds := le bs 128 56
  let x := setPlanes x (tids.map fun t => (t, planes / 2 ^ (3 * t) % 8))
  let x := tids.foldl (fun x t => setPredBits x t (preds / 2 ^ (7 * t) % 128)) x
  let x := (List.range nk).foldl (fun x j => setK x (kb + j) (le bs (192 + 8 * j) 8)) x
  (List.range nv).foldl (fun x j => tids.foldl (fun x t => setV x (vb + j) t (le bs (192 + 8 * nk + 256 * j + 4 * t) 4)) x) x
/-- A record's bytes as they stand in memory. -/
def contRead (s : State) (c va : Nat) : Except Fail (List Byte) := do
  let h ← readRange s (xlCtx s c needR) va 192
  let r ← readRange s (xlCtx s c needR) (va + 192) (8 * min 8 (le h 43 1) + 256 * min 16 (le h 41 1))
  pure (h ++ r)
/-- The record lists registers within its limits. -/
def contListOk (r : LaunchRec) (bs : List Byte) : Bool :=
  le bs 41 1 ≤ 16 && le bs 43 1 ≤ 8 && le bs 40 1 + le bs 41 1 ≤ r.regs && le bs 42 1 + le bs 43 1 ≤ r.uregs
/-- One more group fits among those of a core, on half 0 (R313, R361). -/
def fitsGroup (s : State) (ck regs uregs : Nat) : Bool :=
  let t := takenOn s ck
  t.slots.length + 1 ≤ 64 && (t.slots.filter fun x => x.1 % 2 = 0).length + 1 ≤ 32
  && 64 * (sumNat (t.slots.map fun x => x.2.1) + regs) ≤ 131072 && sumNat (t.slots.map fun x => x.2.2) + uregs ≤ 4096
/-- An affine continuation re-enters its core under its uid; its work names its new place (R361, R362). -/
def resumeAffine (s : State) (k : Nat) (c : Cont) (b : Nat) (bs : List Byte) : State :=
  let x := s.blk b
  let ck := x.key
  let g := freeSlot s ck
  let halted := (s.lch c.launch).halted
  let y := { contGroup s b (contRec s c) bs (contPrio s c) with uid := c.uid, halt := halted, byhalt := halted }
  let s := invalidateClean ((s.setGrp g y).setBlk b { x with state := .running }) ck
  let cp (e : Nat × Copy) : Nat × Copy := if e.2.block = b && e.2.uid = c.uid then (e.1, { e.2 with g := g }) else e
  let mo (e : Nat × MatOp) : Nat × MatOp := if e.2.block = b && e.2.uid = c.uid then (e.1, { e.2 with g := g }) else e
  let qu (e : Nat × Query) : Nat × Query := if e.2.block = b && e.2.uid = c.uid then (e.1, { e.2 with g := g }) else e
  fillCore { s with
    conts := spDel s.conts k
    copies := s.copies.map cp
    matOps := s.matOps.map mo
    queries := s.queries.map qu } ck
/-- A continuation that does not resume goes to the fault domain (R362). -/
def contFault (s : State) (c : Cont) (cause va : Nat) : State := domFault s c.die c.ctx c.region { cause := cause, addr := va }
/-- A continuation that is not core-affine goes to its resume queue; what goes wrong there is a fault of its domain. -/
def releaseCont (k : Nat) (c : Cont) (s : State) : State :=
  let s := { s with conts := spPut s.conts k { c with released := true } }
  match xlCtx s c.ctx needRW c.queue with
  | .bad cause => contFault s c cause c.queue
  | .ok pa _ =>
    let s := settleLine s (lineOf pa)
    match queueBad s pa with
    | some cause => contFault s c cause c.queue
    | none =>
      let h := queueHdr s pa
      if h.deq + h.cap ≤ h.enq then contFault s c 0x18 c.va
      else match pushItems s (xlCtx s c.ctx needW) pa [c.va] with
        | .ok s => serveQueue s pa
        | .error e => contFault s c e.1 e.2
/-- An affine continuation's record as it stands in memory is its own and lists registers within its limits. -/
def contOwn (s : State) (c : Cont) (b : Nat) (bs : List Byte) : Bool :=
  le bs 88 8 = contTag s b true && contListOk (contRec s c) bs
def contRoom (s : State) (c : Cont) (b : Nat) : Bool := fitsGroup s (s.blk b).key (contRec s c).regs (contRec s c).uregs
/-- CONTINUATION_RELEASE (R361): the event has happened; the record goes to its resume queue, or an affine one to its core. -/
def execContinuationRelease (cont : Nat) (s : State) : Host.Outcome State Fault Refusal :=
  finish (do
    match spFind s.conts cont with
    | none => idleM
    | some c => do
      onlyIf (c.wk = 0 && !c.released)
      match c.block with
      | some b =>
        onlyIf ((s.blk b).state = .affine)
        (match contRead s c.ctx c.va with
         | .error e => upd fun s => contFault { s with conts := spDel s.conts cont } c e.1 e.2
         | .ok bs =>
           if !contOwn s c b bs then
             upd fun s => contFault { s with conts := spDel s.conts cont } c 0x0B c.va
           else do
             onlyIf (contRoom s c b)
             upd fun s => resumeAffine (settleRange s (xlCtx s c.ctx needR) c.va bs.length) cont c b bs)
      | none => upd (releaseCont cont c)) s
/-- Where a continuation's block can be placed on a die; a pavane one on its virtual core; a spawn group's where one fits. -/
def contCorePlace (s : State) (d : Nat) (c : Cont) (bid : Nat) : Option Nat :=
  let l := c.launch
  let x := s.lch l
  if c.spawnOf.isSome then chooseCore s d l (contRec s c).req
  else if x.pavane then
    let v := bid % max 1 x.lr.vcores
    let ck := x.vmap.getD v 0
    let busy := s.blocks.any fun e => e.2.launch = l && e.2.vcore = v && e.2.spawnOf.isNone
    if coreDie ck = d && dieRuns s d && !busy && !heldByPavane s ck l && fitsCore s ck { x.lr.req with groups := 1 } && budgetOk s x.ctx x.region d ck { x.lr.req with groups := 1 }
    then some ck else none
  else roomCore s d l { x.lr.req with groups := 1 }
/-- The Caller of a die takes the first item of a resume queue (R361): none where there is none, or no core fits its record. -/
def takeResume (s : State) (d l qva : Nat) : Option State :=
  let x := s.lch l
  match xlCtx s x.ctx needRW qva with
  | .bad _ => none
  | .ok pa _ =>
    let h := queueHdr s pa
    if x.state ≠ .running || (queueBad s pa).isSome || h.enq = h.deq then none
    else match popItems s (xlCtx s x.ctx needR) pa 1 with
      | .error _ => none
      | .ok (t, items) =>
        let va := items.headD 0 % 2 ^ 64
        let bad (cause : Nat) : State := domFault t d x.ctx x.region { cause := cause, addr := va }
        match s.conts.find? fun e => e.2.va = va && e.2.ctx = x.ctx && e.2.released && e.2.block.isNone with
        | none => some (bad 0x0B)
        | some (k, c) =>
          match contRead s c.ctx va with
          | .error e => some (bad e.1)
          | .ok bs =>
            let y := s.lch c.launch
            let bid := le bs 52 4
            if le bs 88 8 ≠ y.ctx + y.serial % 2 ^ 52 * 2 ^ 12 || le bs 56 8 ≠ y.va || !contListOk (contRec s c) bs || y.lr.nblk ≤ bid then
              some (bad 0x0B)
            else (contCorePlace s d c bid).map fun ck =>
              let t := settleRange t (xlCtx t c.ctx needR) va bs.length
              let r := placeRec { t with conts := spDel t.conts k } c.launch (contRec s c) bid ck
              let s := r.1.updBlk r.2 fun b => { b with
                state := .running
                spawnOf := c.spawnOf
                vcore := match c.spawnOf with | some o => (r.1.blk o.block).vcore | none => b.vcore }
              let s := invalidateClean s ck
              fillCore (addGroup s ck { (contGroup s r.2 (contRec s c) bs (contPrio s c)) with
                uid := c.uid, halt := y.halted, byhalt := y.halted }) ck
/-- CONTINUATION_RESUME (R361, R362). -/
def execContinuationResume (die : Nat) (s : State) : Host.Outcome State Fault Refusal :=
  finish (do
    match (s.die die).resumeQueues.findSome? fun q => takeResume s die q.1 q.2 with
    | some t => if dieRuns s die then set t else idleM
    | none => idleM) s

end Sys2Proof.Machine
end

