-- ==== Sys2Proof/Machine/Dispatch.lean ====
section
/-! DEFINITION. Dispatch.lean: one arm per constructor of Instr, each one call of its meaning. -/

namespace Sys2Proof.Machine

def exec (i : Instr) (s : State) : Host.Outcome State Fault Refusal :=
  match i with
  | .nop => Sys2Proof.Machine.execNop s
  | .bra o => Sys2Proof.Machine.execBra o s
  | .brx o => Sys2Proof.Machine.execBrx o s
  | .call o => Sys2Proof.Machine.execCall o s
  | .callInd o => Sys2Proof.Machine.execCallInd o s
  | .ret o => Sys2Proof.Machine.execRet o s
  | .join o => Sys2Proof.Machine.execJoin o s
  | .exit o => Sys2Proof.Machine.execExit o s
  | .sleep o => Sys2Proof.Machine.execSleep o s
  | .sleepTok o => Sys2Proof.Machine.execSleepTok o s
  | .yield o => Sys2Proof.Machine.execYield o s
  | .pln o => Sys2Proof.Machine.execPln o s
  | .plng o => Sys2Proof.Machine.execPlng o s
  | .trap o => Sys2Proof.Machine.execTrap o s
  | .brk o => Sys2Proof.Machine.execBrk o s
  | .loop o => Sys2Proof.Machine.execLoop o s
  | .add o => Sys2Proof.Machine.execAdd o s
  | .sub o => Sys2Proof.Machine.execSub o s
  | .mul o => Sys2Proof.Machine.execMul o s
  | .mulhi o => Sys2Proof.Machine.execMulhi o s
  | .mad o => Sys2Proof.Machine.execMad o s
  | .madhi o => Sys2Proof.Machine.execMadhi o s
  | .addc o => Sys2Proof.Machine.execAddc o s
  | .subb o => Sys2Proof.Machine.execSubb o s
  | .min o => Sys2Proof.Machine.execMin o s
  | .max o => Sys2Proof.Machine.execMax o s
  | .abs o => Sys2Proof.Machine.execAbs o s
  | .neg o => Sys2Proof.Machine.execNeg o s
  | .idiv o => Sys2Proof.Machine.execIdiv o s
  | .irem o => Sys2Proof.Machine.execIrem o s
  | .sad o => Sys2Proof.Machine.execSad o s
  | .lea o => Sys2Proof.Machine.execLea o s
  | .and o => Sys2Proof.Machine.execAnd o s
  | .or o => Sys2Proof.Machine.execOr o s
  | .xor o => Sys2Proof.Machine.execXor o s
  | .andn o => Sys2Proof.Machine.execAndn o s
  | .not o => Sys2Proof.Machine.execNot o s
  | .logt o => Sys2Proof.Machine.execLogt o s
  | .shl o => Sys2Proof.Machine.execShl o s
  | .shr o => Sys2Proof.Machine.execShr o s
  | .shra o => Sys2Proof.Machine.execShra o s
  | .rot o => Sys2Proof.Machine.execRot o s
  | .fshf o => Sys2Proof.Machine.execFshf o s
  | .bfx o => Sys2Proof.Machine.execBfx o s
  | .bfi o => Sys2Proof.Machine.execBfi o s
  | .popc o => Sys2Proof.Machine.execPopc o s
  | .clz o => Sys2Proof.Machine.execClz o s
  | .ctz o => Sys2Proof.Machine.execCtz o s
  | .brev o => Sys2Proof.Machine.execBrev o s
  | .mov o => Sys2Proof.Machine.execMov o s
  | .movi o => Sys2Proof.Machine.execMovi o s
  | .movh o => Sys2Proof.Machine.execMovh o s
  | .sel o => Sys2Proof.Machine.execSel o s
  | .bshuf o => Sys2Proof.Machine.execBshuf o s
  | .clamp o => Sys2Proof.Machine.execClamp o s
  | .cmp o => Sys2Proof.Machine.execCmp o s
  | .fcmp o => Sys2Proof.Machine.execFcmp o s
  | .plop o => Sys2Proof.Machine.execPlop o s
  | .pmov o => Sys2Proof.Machine.execPmov o s
  | .poll o => Sys2Proof.Machine.execPoll o s
  | .lxch o => Sys2Proof.Machine.execLxch o s
  | .gred o => Sys2Proof.Machine.execGred o s
  | .gscan o => Sys2Proof.Machine.execGscan o s
  | .fadd o => Sys2Proof.Machine.execFadd o s
  | .fsub o => Sys2Proof.Machine.execFsub o s
  | .fmul o => Sys2Proof.Machine.execFmul o s
  | .ffma o => Sys2Proof.Machine.execFfma o s
  | .fmin o => Sys2Proof.Machine.execFmin o s
  | .fmax o => Sys2Proof.Machine.execFmax o s
  | .fabs o => Sys2Proof.Machine.execFabs o s
  | .fneg o => Sys2Proof.Machine.execFneg o s
  | .fdiv o => Sys2Proof.Machine.execFdiv o s
  | .fsqrt o => Sys2Proof.Machine.execFsqrt o s
  | .frcpa o => Sys2Proof.Machine.execFrcpa o s
  | .frsqa o => Sys2Proof.Machine.execFrsqa o s
  | .fclass o => Sys2Proof.Machine.execFclass o s
  | .fscale o => Sys2Proof.Machine.execFscale o s
  | .fgete o => Sys2Proof.Machine.execFgete o s
  | .fgetm o => Sys2Proof.Machine.execFgetm o s
  | .fcopys o => Sys2Proof.Machine.execFcopys o s
  | .frnd o => Sys2Proof.Machine.execFrnd o s
  | .fmed3 o => Sys2Proof.Machine.execFmed3 o s
  | .fclamp o => Sys2Proof.Machine.execFclamp o s
  | .fex2 o => Sys2Proof.Machine.execFex2 o s
  | .flg2 o => Sys2Proof.Machine.execFlg2 o s
  | .fsin o => Sys2Proof.Machine.execFsin o s
  | .fcos o => Sys2Proof.Machine.execFcos o s
  | .fdot2 o => Sys2Proof.Machine.execFdot2 o s
  | .fadd2 o => Sys2Proof.Machine.execFadd2 o s
  | .fmul2 o => Sys2Proof.Machine.execFmul2 o s
  | .ffma2 o => Sys2Proof.Machine.execFfma2 o s
  | .cvt o => Sys2Proof.Machine.execCvt o s
  | .i2f o => Sys2Proof.Machine.execI2f o s
  | .f2i o => Sys2Proof.Machine.execF2i o s
  | .mxq o => Sys2Proof.Machine.execMxq o s
  | .mxdq o => Sys2Proof.Machine.execMxdq o s
  | .bfpq o => Sys2Proof.Machine.execBfpq o s
  | .pack o => Sys2Proof.Machine.execPack o s
  | .unpk o => Sys2Proof.Machine.execUnpk o s
  | .ld o => Sys2Proof.Machine.execLd o s
  | .st o => Sys2Proof.Machine.execSt o s
  | .ldw o => Sys2Proof.Machine.execLdw o s
  | .pref o => Sys2Proof.Machine.execPref o s
  | .cresize o => Sys2Proof.Machine.execCresize o s
  | .cflush o => Sys2Proof.Machine.execCflush o s
  | .cinv o => Sys2Proof.Machine.execCinv o s
  | .femark o => Sys2Proof.Machine.execFemark o s
  | .fetest o => Sys2Proof.Machine.execFetest o s
  | .atom o => Sys2Proof.Machine.execAtom o s
  | .cas o => Sys2Proof.Machine.execCas o s
  | .atomsc o => Sys2Proof.Machine.execAtomsc o s
  | .faddw o => Sys2Proof.Machine.execFaddw o s
  | .wread o => Sys2Proof.Machine.execWread o s
  | .wflush o => Sys2Proof.Machine.execWflush o s
  | .fence o => Sys2Proof.Machine.execFence o s
  | .opfence o => Sys2Proof.Machine.execOpfence o s
  | .recfence o => Sys2Proof.Machine.execRecfence o s
  | .bara o => Sys2Proof.Machine.execBara o s
  | .barw o => Sys2Proof.Machine.execBarw o s
  | .barx o => Sys2Proof.Machine.execBarx o s
  | .bari o => Sys2Proof.Machine.execBari o s
  | .tokwait o => Sys2Proof.Machine.execTokwait o s
  | .tokpass o => Sys2Proof.Machine.execTokpass o s
  | .redix o => Sys2Proof.Machine.execRedix o s
  | .cpy o => Sys2Proof.Machine.execCpy o s
  | .cpyi o => Sys2Proof.Machine.execCpyi o s
  | .cpyg o => Sys2Proof.Machine.execCpyg o s
  | .cpys o => Sys2Proof.Machine.execCpys o s
  | .cpyq o => Sys2Proof.Machine.execCpyq o s
  | .cpyqTest o => Sys2Proof.Machine.execCpyqTest o s
  | .cpyqAll o => Sys2Proof.Machine.execCpyqAll o s
  | .cpyqStat o => Sys2Proof.Machine.execCpyqStat o s
  | .cpyx o => Sys2Proof.Machine.execCpyx o s
  | .wsstage o => Sys2Proof.Machine.execWsstage o s
  | .wsdrop o => Sys2Proof.Machine.execWsdrop o s
  | .mms o => Sys2Proof.Machine.execMms o s
  | .mmx o => Sys2Proof.Machine.execMmx o s
  | .mmi o => Sys2Proof.Machine.execMmi o s
  | .acz o => Sys2Proof.Machine.execAcz o s
  | .acld o => Sys2Proof.Machine.execAcld o s
  | .acst o => Sys2Proof.Machine.execAcst o s
  | .acrd o => Sys2Proof.Machine.execAcrd o s
  | .mwait o => Sys2Proof.Machine.execMwait o s
  | .mwaitTest o => Sys2Proof.Machine.execMwaitTest o s
  | .mwaitAll o => Sys2Proof.Machine.execMwaitAll o s
  | .mstatr o => Sys2Proof.Machine.execMstatr o s
  | .mdrain o => Sys2Proof.Machine.execMdrain o s
  | .mrestore o => Sys2Proof.Machine.execMrestore o s
  | .mresumeMatrix o => Sys2Proof.Machine.execMresumeMatrix o s
  | .mresumeCopy o => Sys2Proof.Machine.execMresumeCopy o s
  | .mresumeQuery o => Sys2Proof.Machine.execMresumeQuery o s
  | .slice o => Sys2Proof.Machine.execSlice o s
  | .rq o => Sys2Proof.Machine.execRq o s
  | .bq o => Sys2Proof.Machine.execBq o s
  | .rqr o => Sys2Proof.Machine.execRqr o s
  | .hacc o => Sys2Proof.Machine.execHacc o s
  | .hrej o => Sys2Proof.Machine.execHrej o s
  | .spcfg o => Sys2Proof.Machine.execSpcfg o s
  | .cover o => Sys2Proof.Machine.execCover o s
  | .triem o => Sys2Proof.Machine.execTriem o s
  | .bvhref o => Sys2Proof.Machine.execBvhref o s
  | .rclaim o => Sys2Proof.Machine.execRclaim o s
  | .rcommit o => Sys2Proof.Machine.execRcommit o s
  | .rawaitTake o => Sys2Proof.Machine.execRawaitTake o s
  | .rawaitAt o => Sys2Proof.Machine.execRawaitAt o s
  | .rretire o => Sys2Proof.Machine.execRretire o s
  | .enq o => Sys2Proof.Machine.execEnq o s
  | .deq o => Sys2Proof.Machine.execDeq o s
  | .cont o => Sys2Proof.Machine.execCont o s
  | .launch o => Sys2Proof.Machine.execLaunch o s
  | .launchGraph o => Sys2Proof.Machine.execLaunchGraph o s
  | .signal o => Sys2Proof.Machine.execSignal o s
  | .publish o => Sys2Proof.Machine.execPublish o s
  | .send o => Sys2Proof.Machine.execSend o s
  | .recvp o => Sys2Proof.Machine.execRecvp o s
  | .recvw o => Sys2Proof.Machine.execRecvw o s
  | .probe o => Sys2Proof.Machine.execProbe o s
  | .probeTok o => Sys2Proof.Machine.execProbeTok o s
  | .itrep o => Sys2Proof.Machine.execItrep o s
  | .csrr o => Sys2Proof.Machine.execCsrr o s
  | .csrw o => Sys2Proof.Machine.execCsrw o s
  | .csrwSet o => Sys2Proof.Machine.execCsrwSet o s
  | .csrwClr o => Sys2Proof.Machine.execCsrwClr o s
  | .rdclk o => Sys2Proof.Machine.execRdclk o s
  | .rdtime o => Sys2Proof.Machine.execRdtime o s
  | .gstatr o => Sys2Proof.Machine.execGstatr o s
  | .gstatw o => Sys2Proof.Machine.execGstatw o s
  | .gresume o => Sys2Proof.Machine.execGresume o s
  | .gresumeReplay o => Sys2Proof.Machine.execGresumeReplay o s
  | .halt o => Sys2Proof.Machine.execHalt o s
  | .haltBlk o => Sys2Proof.Machine.execHaltBlk o s
  | .svc o => Sys2Proof.Machine.execSvc o s
  | .eret o => Sys2Proof.Machine.execEret o s
  | .proghint o => Sys2Proof.Machine.execProghint o s
  | .invalid bits => Sys2Proof.Machine.execInvalid bits s
  | .lineExecution g => Sys2Proof.Machine.execLineExecution g s
  | .loadDataArrival load => Sys2Proof.Machine.execLoadDataArrival load s
  | .writePerformed write => Sys2Proof.Machine.execWritePerformed write s
  | .trapDispatch quad => Sys2Proof.Machine.execTrapDispatch quad s
  | .machineCheck die => Sys2Proof.Machine.execMachineCheck die s
  | .admission die => Sys2Proof.Machine.execAdmission die s
  | .blockPlacement die => Sys2Proof.Machine.execBlockPlacement die s
  | .staging die launch bid range => Sys2Proof.Machine.execStaging die launch bid range s
  | .stagingLineLand job => Sys2Proof.Machine.execStagingLineLand job s
  | .dispatchTimeout block => Sys2Proof.Machine.execDispatchTimeout block s
  | .quantum core half => Sys2Proof.Machine.execQuantum core half s
  | .sleepWake g => Sys2Proof.Machine.execSleepWake g s
  | .launchCompletion launch => Sys2Proof.Machine.execLaunchCompletion launch s
  | .preemptionRequest die launch => Sys2Proof.Machine.execPreemptionRequest die launch s
  | .blockSave block => Sys2Proof.Machine.execBlockSave block s
  | .blockRestore die => Sys2Proof.Machine.execBlockRestore die s
  | .passGrant quad => Sys2Proof.Machine.execPassGrant quad s
  | .kStepCommit op => Sys2Proof.Machine.execKStepCommit op s
  | .transferComplete op => Sys2Proof.Machine.execTransferComplete op s
  | .copyRowLand copy row => Sys2Proof.Machine.execCopyRowLand copy row s
  | .promiseMissed copy => Sys2Proof.Machine.execPromiseMissed copy s
  | .queryTraversal query => Sys2Proof.Machine.execQueryTraversal query s
  | .queryHeldResume query => Sys2Proof.Machine.execQueryHeldResume query s
  | .queryComplete query => Sys2Proof.Machine.execQueryComplete query s
  | .spawnGroupTimeout block bind => Sys2Proof.Machine.execSpawnGroupTimeout block bind s
  | .spawnGroupPlace die => Sys2Proof.Machine.execSpawnGroupPlace die s
  | .waiterReissue waiter => Sys2Proof.Machine.execWaiterReissue waiter s
  | .parkReissue g => Sys2Proof.Machine.execParkReissue g s
  | .continuationRelease cont => Sys2Proof.Machine.execContinuationRelease cont s
  | .continuationResume die => Sys2Proof.Machine.execContinuationResume die s
  | .graphLaunchNode path => Sys2Proof.Machine.execGraphLaunchNode path s
  | .graphCondNode path => Sys2Proof.Machine.execGraphCondNode path s
  | .graphWhileNode path => Sys2Proof.Machine.execGraphWhileNode path s
  | .graphJoinNode path => Sys2Proof.Machine.execGraphJoinNode path s
  | .graphSignalNode path => Sys2Proof.Machine.execGraphSignalNode path s
  | .deadline launch => Sys2Proof.Machine.execDeadline launch s
  | .messageArrival packet => Sys2Proof.Machine.execMessageArrival packet s
  | .ringHop packet => Sys2Proof.Machine.execRingHop packet s
  | .wsRefreshWindow die => Sys2Proof.Machine.execWsRefreshWindow die s
  | .powerLimitThrottle watts => Sys2Proof.Machine.execPowerLimitThrottle watts s
  | .regionPowerWindow die ctx region watts => Sys2Proof.Machine.execRegionPowerWindow die ctx region watts s
  | .thermalThrottle outside => Sys2Proof.Machine.execThermalThrottle outside s
  | .reset die => Sys2Proof.Machine.execReset die s
  | .rlpHello f => Sys2Proof.Machine.execRlpHello f s
  | .rlpWrite f => Sys2Proof.Machine.execRlpWrite f s
  | .rlpRead f => Sys2Proof.Machine.execRlpRead f s
  | .rlpAtomic f => Sys2Proof.Machine.execRlpAtomic f s
  | .rlpLaunch f => Sys2Proof.Machine.execRlpLaunch f s
  | .rlpAck f => Sys2Proof.Machine.execRlpAck f s
  | .ackTimer sid => Sys2Proof.Machine.execAckTimer sid s
  | .retransmit sid seq => Sys2Proof.Machine.execRetransmit sid seq s
  | .sessionTimeout sid => Sys2Proof.Machine.execSessionTimeout sid s
  | .mgmtCtxtab f => Sys2Proof.Machine.execMgmtCtxtab f s
  | .mgmtKey f => Sys2Proof.Machine.execMgmtKey f s
  | .mgmtInval f => Sys2Proof.Machine.execMgmtInval f s
  | .mgmtResume f => Sys2Proof.Machine.execMgmtResume f s
  | .mgmtHalt f => Sys2Proof.Machine.execMgmtHalt f s
  | .mgmtKill f => Sys2Proof.Machine.execMgmtKill f s
  | .mgmtPreempt f => Sys2Proof.Machine.execMgmtPreempt f s
  | .mgmtCsrr f => Sys2Proof.Machine.execMgmtCsrr f s
  | .mgmtCsrw f => Sys2Proof.Machine.execMgmtCsrw f s
  | .mgmtAttest f => Sys2Proof.Machine.execMgmtAttest f s
  | .mgmtFwload f => Sys2Proof.Machine.execMgmtFwload f s
  | .mgmtSavepool f => Sys2Proof.Machine.execMgmtSavepool f s
  | .mgmtPort f => Sys2Proof.Machine.execMgmtPort f s
  | .mgmtStatus f => Sys2Proof.Machine.execMgmtStatus f s
  | .mgmtPhysw f => Sys2Proof.Machine.execMgmtPhysw f s
  | .mgmtPhysr f => Sys2Proof.Machine.execMgmtPhysr f s
  | .mgmtCharges f => Sys2Proof.Machine.execMgmtCharges f s
  | .mgmtReset f => Sys2Proof.Machine.execMgmtReset f s
  | .modeWrite g v => Sys2Proof.Machine.execModeWrite g v s
  | .rwaysWrite die v => Sys2Proof.Machine.execRwaysWrite die v s
  | .refcalWrite die v => Sys2Proof.Machine.execRefcalWrite die v s
  | .pavaneWrite die v => Sys2Proof.Machine.execPavaneWrite die v s
  | .ringpoolWrite die v => Sys2Proof.Machine.execRingpoolWrite die v s
  | .errcntWrite die v => Sys2Proof.Machine.execErrcntWrite die v s
  | .csrWrite at_ csr v => Sys2Proof.Machine.execCsrWrite at_ csr v s
  | .pavaneDeqQuantum die slice => Sys2Proof.Machine.execPavaneDeqQuantum die slice s
  | .unknownMgmtOperation f => Sys2Proof.Machine.execUnknownMgmtOperation f s

end Sys2Proof.Machine
end

