-- ==== Sys2Proof/Safety.lean ====
section
/-! DEFINITION. Safety.lean: what a safe run is, and the terms that statements about the machine share (namespace Claim): what
it is for an instruction to complete, and when its sources and its accesses are good. -/

namespace Sys2Proof

/-- The step answers a next state. -/
def completes (s t : Machine.State) : Prop := Machine.step s = .next t

/-- A run of k steps that meets no fault and no refusal. -/
def SafeRun (k : Nat) (s : Machine.State) : Prop := ∃ t, core.run k s = .next t

end Sys2Proof

namespace Sys2Proof.Claim

open Machine

/-! ### Completion -/

/-- The instruction completes with a state that holds what P says. -/
def gives (i : Instr) (s : State) (P : State → Prop) : Prop := ∃ t, exec i s = .next t ∧ P t
/-- An instruction takes the exception t as its effect. -/
def takes (i : Instr) (s : State) (t : Trap) : Prop := exec i s = .next (takeTrap s t)
/-- No runner in ts reads a stale latch or a poisoned register through the fields us (R34, R411). -/
def good (s : State) (us : List FieldUse) (ts : List Nat) : Prop :=
  ∀ t ∈ ts, staleAt s.seen us t = false ∧ poisonAt s.seen us t = false
/-- No runner of the instruction reads a stale latch or a poisoned register. -/
def ready (i : Instr) (h : Hdr) (s : State) : Prop := good s (readsOf i) (runners s h)
/-- No register that a uniform instruction reads through the fields us is poisoned. -/
def clean (s : State) (us : List FieldUse) : Prop := poisonAt s.seen us 0 = false

/-! ### Format A -/

/-- No runner's result raises a flag whose enable bit is 1 (R93). -/
def flagsQuiet (h : Hdr) (s : State) (f : Nat → Res) : Prop := ∀ t ∈ runners s h, enabledFlags s.me (f t).flags = 0
/-- With good sources and no enabled flag a Format A instruction completes: each runner's result f, computed from the state
before, is written, and the flags go into FSTAT. -/
def laneGives (i : Instr) (o : FmtA) (f : State → Nat → Res) : Prop :=
  ∀ s, ready i o.h s → flagsQuiet o.h s (f s) →
    exec i s = .next (writeAll (fun _ => o) ((runners s o.h).map fun t => (t, f s t)) s)
/-- A result of the instruction's type from an exact integer, saturated when the sat bit is set. -/
def intOf (o : FmtA) (x : Int) (q : Option Bool) : Res := { ty := tyA o, val := intRes (tyA o) (satA o) x, q := q }
/-- Bits of the instruction's type, and of another type. -/
def bitsOf (o : FmtA) (v : Nat) : Res := { ty := tyA o, val := v }
def asType (ty v : Nat) : Res := { ty := ty, val := v }
/-- A floating-point result and its flags. -/
def fpOf (ty : Nat) (r : Nat × Flags) : Res := { ty := ty, val := r.1, flags := r.2 }
/-- An exact value rounded once at the instruction's type and effective mode (R85 to R88). -/
def rounded (s : State) (o : FmtA) (x : FVal × Flags) : Res :=
  fpOf (tyA o) ((roundTo (fmtA o) (modeA s o) x.1).1, x.2 ||| (roundTo (fmtA o) (modeA s o) x.1).2)
/-- No participant of a collective instruction reads a stale latch or a poisoned register by its own copy's fields. -/
def collectiveReady (op : Nat) (o : FmtA) (s : State) : Prop :=
  ∀ t ∈ participants s o.h, staleAt s.seen (readsA op (copyA s o t)) t = false ∧ poisonAt s.seen (readsA op (copyA s o t)) t = false
/-- Its results, a function of the state and the participants, are each written by the copy of the thread's own plane (R115). -/
def collectiveGives (op : Nat) (i : Instr) (o : FmtA) (f : State → List Nat → Nat → Res) : Prop :=
  ∀ s, collectiveReady op o s → (∀ t ∈ participants s o.h, enabledFlags s.me (f s (participants s o.h) t).flags = 0) →
    exec i s = .next (writeAll (copyA s o) ((participants s o.h).map fun t => (t, f s (participants s o.h) t)) s)

/-! ### Format M (R224 to R228) -/

/-- The accesses of every runner pass Table 9-2: in the space, aligned to al bytes, translated with the permissions nd; the
registers they read (address, index and data) are neither stale nor poisoned. -/
def accessGood (o : FmtM) (indexed : Bool) (data : List FieldUse) (n al : Nat) (nd : Need) (s : State) : Prop :=
  good s (addressUses o indexed ++ data) (runners s o.h)
  ∧ ∀ t ∈ runners s o.h, 0 ≤ eaOf s o indexed t ∧ eaOf s o indexed t + n ≤ spaceEnd s o ∧ eaOf s o indexed t % al = 0
    ∧ ∃ pa prom, physical s o nd (eaOf s o indexed t).toNat = .ok pa prom
/-- Every runner's place and data, in issue order. -/
def placed (o : FmtM) (indexed : Bool) (nd : Need) (mk : State → Nat → Nat × Nat) (s : State) : List (Place × Part) :=
  (runners s o.h).filterMap fun t =>
    let ea := (eaOf s o indexed t).toNat
    match physical s o nd ea with
    | .ok pa prom => some ({ tid := t, ea := ea, pa := pa, prom := prom }, { tid := t, ea := ea, b := (mk s t).1, c := (mk s t).2 })
    | .bad _ => none
/-- Every scratchpad line of the places is full (R232). -/
def linesFull (o : FmtM) (ps : List (Place × Part)) (s : State) : Prop :=
  o.space.toNat = 1 → ∀ p ∈ ps, lineFull (s.grpBlk s.cur.g) (p.1.ea / 128) = true
/-- No write to a PROM line without the Promenade token (R267). -/
def tokenHeld (ps : List (Place × Part)) (s : State) : Prop := holdsToken s s.cur.g = true ∨ ∀ p ∈ ps, p.1.prom = false
/-- No load in flight of the group must wait for a refreshing bank before its bytes are read (R240). -/
def readsReady (s : State) : Prop := ∀ e ∈ s.loads, e.2.g = s.cur.g → e.2.bankWaits s = false
/-- A release may go on: no refused FADDW is to be reported (R265), and the loads before it can be read. -/
def releaseReady (s : State) : Prop := s.me.refused = none ∧ readsReady s
/-- An access may take its order: as a release or an acquire, or in the weight store, it waits for the group's loads in flight. -/
def orderReady (o : FmtM) (s : State) : Prop :=
  (isRel o.order.toNat = true → s.me.refused = none)
  ∧ (isRel o.order.toNat = true ∨ isAcq o.order.toNat = true ∨ o.space.toNat = 2 → readsReady s)
/-- A load that is read at its issue finds no line of its places in a refreshing bank (R240). -/
def loadReady (o : FmtM) (ps : List (Place × Part)) (s : State) : Prop :=
  (isAcq o.order.toNat = true ∨ o.space.toNat = 2 → readsReady s)
  ∧ (o.space.toNat = 2 → isAcq o.order.toNat = true ∨ s.grpPavane s.cur.g = true → ∀ p ∈ ps,
      bankWaits s (coreDie (placeCore s.cur.g)) (lineOf p.1.pa) = true → (l1Find s (placeCore s.cur.g) (lineOf p.1.pa)).isSome = true)

/-! ### Transfers (R330) -/

/-- The destination of a transfer passes its check in state s, whose corrected lines are counted in t. -/
def lands (s : State) (u : Bool) (line : Int) (slot : Nat) (t : State) : Prop :=
  0 ≤ line * 5 + slot ∧ line * 5 + slot ≤ 134217724 ∧ slot ≤ 4
  ∧ ∃ r, checkLine s s.cur.g line.toNat slot u true true = .ok r ∧ t = countCorrected s (coreDie (placeCore s.cur.g)) r.2
/-- As lands, for an offset. -/
def landsAt (s : State) (u : Bool) (off : Nat) (t : State) : Prop := lands s u ((off / 5 : Nat) : Int) (off % 5) t
/-- As lands, for the convergence target of a branch that has one. -/
def convergenceLands (s : State) (o : FmtC) (t : State) : Prop :=
  if rcOf o then lands s o.h.u (lineAt s o.cline) o.cslot.toNat t else t = s

/-! ### Structures that Format E names (R376, R377) -/

/-- A structure of n bytes at va is aligned to al, and its bytes translate, the first of them to pa. -/
def structAt (s : State) (al n : Nat) (nd : Need) (va pa : Nat) : Prop :=
  va % al = 0 ∧ ∃ k rest, xlatRange (xlGrp s s.cur.g nd) va n = .ok ((pa, k) :: rest)
/-- A uniform instruction runs, its registers are good and the structure in A is in order, at pa. -/
def structGood (o : FmtE) (us : List FieldUse) (al n : Nat) (nd : Need) (s : State) (pa : Nat) : Prop :=
  guardG s o.h = true ∧ good s us [0] ∧ structAt s al n nd (eAddr s o.a 0) pa
/-- Every runner's registers are good and its structure is in order; ps is each runner with its physical address. -/
def structsGood (o : FmtE) (us : List FieldUse) (al n : Nat) (nd : Need) (s : State) (ps : List Named) : Prop :=
  good s us (runners s o.h) ∧ ps.map (·.1) = runners s o.h ∧ ∀ p ∈ ps, structAt s al n nd (eAddr s o.a p.1) p.2

/-! ### Engines, copies and queries -/

/-- A copy passes checks 4 to 8 of Table 11-5, its registers are good, and the core's channel has room (R282). -/
def copyGood (o : FmtE) (c : Copy) (s : State) : Prop :=
  (c.shape.bmode = 1 → c.linear = false → c.allIn = true) ∧ c.beyondSp s = none ∧ c.beyondMem s = none
  ∧ (c.toMem = true → c.ws = true → (s.grpLch s.cur.g).flag 4 = true) ∧ clean s (copyUses o s c.linear) ∧ channelUsed s c.core < 16

/-- The group may issue engine work that writes or multiplies into a tile: it is converged and no other operation owns the
tile (checks 1 and 3 of Table 7-2). -/
def tileReady (s : State) (o : MatOp) (multiplies : Bool) : Prop :=
  convergedGroup s.me = true ∧ tileFree s multiplies o.tile o.w64 = true
/-- Check 9: the registers that the instruction and its parameter words name are good, and the engine has room. -/
def entryReady (i : Instr) (s : State) (o : MatOp) : Prop :=
  clean s (readsOf i ++ parUses (s.cur.par.getD []) i) ∧ matRoom s o = true
/-- Bytes of the block's scratchpad (check 7). -/
def inScratchpad (s : State) (l : List Nat) : Prop := ∀ a ∈ l, a < (s.blk s.me.block).spSize

/-- A named address is aligned, and its bytes translate and are not poisoned (checks 1 and 2 of R214). -/
def targetGood (s : State) (x : Target) : Prop := x.va % x.al = 0 ∧ ∃ bs, readRange s (xlGrp s s.cur.g x.nd) x.va x.n = .ok bs
/-- A beam form's hit arrays are aligned. -/
def arraysAligned (o : FmtE) (beam : Bool) (s : State) (ts : List Nat) : Prop := beam = true → ∀ t ∈ ts, eAddr s (osrcOf o) t % 32 = 0
/-- The binding serves queries, and the group is no spawn group (checks 3 and 4 of R214). -/
def bindingServes (o : FmtE) (s : State) : Prop := bindServes (s.bindOf s.me.block (efBind o)) = true ∧ inSpawn s = false
/-- The structure in A of a uniform ray instruction: the guard holds, the registers are good, 64 bytes of it are in order. -/
def record64 (o : FmtE) (us : List FieldUse) (s : State) : Prop :=
  guardG s o.h = true ∧ good s us [0] ∧ targetGood s (target64 (eAddr s o.a 0) needR)

/-! ### Frames: what an instruction leaves unchanged -/

/-- Register r is among the v registers, or the k registers, that the fields us name. -/
def namesV (us : List FieldUse) (r : Nat) : Bool := us.any fun f => WF.isV f.1 && f.1.toNat ≤ r && r < f.1.toNat + f.2
def namesK (us : List FieldUse) (r : Nat) : Bool := us.any fun f => WF.isK f.1 && f.1.toNat - 0x100 ≤ r && r < f.1.toNat - 0x100 + f.2
/-- Every v and k register that us does not name reads as before and is poisoned if it was. -/
def regsKept (us : List FieldUse) (x y : Group) : Prop :=
  (∀ r t, t < 64 → namesV us r = false →
    readV y r t = readV x r t ∧ spGet false y.poisonV (r * 64 + t) = spGet false x.poisonV (r * 64 + t))
  ∧ (∀ r, namesK us r = false → readK y r = readK x r ∧ spGet false y.poisonK r = spGet false x.poisonK r)
/-- Every predicate but p of ps and g of gs reads as before. -/
def predsKept (ps gs : List Nat) (x y : Group) : Prop :=
  (∀ p t, t < 64 → ps.contains p = false → predP y p t = predP x p t) ∧ (∀ p, gs.contains p = false → predG y p = predG x p)
/-- Every latch but those of ls reads as before and is as valid as before. -/
def latchesKept (ls : List Nat) (x y : Group) : Prop :=
  ∀ l t, t < 64 → ls.contains l = false → readLatch y l t = readLatch x l t ∧ latchValid y l t = latchValid x l t
/-- Nothing of a group but its registers, predicates, latches and FSTAT changed, and FSTAT lost no flag. -/
def restKept (x y : Group) : Prop :=
  y = { x with vr := y.vr, kr := y.kr, pr := y.pr, gp := y.gp, lat := y.lat, latOk := y.latOk, fstat := y.fstat, poisonV := y.poisonV,
               poisonK := y.poisonK }
  ∧ y.fstat &&& x.fstat = x.fstat
/-- Nothing changed but the group being issued, and of it only the registers, predicates and latches named. -/
def laneFrame (us : List FieldUse) (ps gs ls : List Nat) (s t : State) : Prop :=
  t = { s with groups := t.groups } ∧ (∀ g, g ≠ s.cur.g → t.grp g = s.grp g)
  ∧ regsKept us s.me t.me ∧ predsKept ps gs s.me t.me ∧ latchesKept ls s.me t.me ∧ restKept s.me t.me
/-- Whenever the instruction completes (it neither traps nor waits), the states before and after stand in R. -/
def frame (i : Instr) (s : State) (R : State → State → Prop) : Prop :=
  ∀ t, s.cur.out = .done → exec i s = .next t → t.cur.out = .done → R s t

/-- The predicates a Format A instruction writes: D where it writes a predicate there (R126 to R128), and q (R113). -/
def predDests (d : Bool) (o : FmtA) : List Nat :=
  (if d && !o.h.s then [o.d.toNat % 8] else []) ++ (if WF.qv o then [bitsNat (WF.fnv o) 30 28] else [])
def predDestsP (d : Bool) (o : FmtA) : List Nat := if WF.pdc o then [] else predDests d o
def predDestsG (d : Bool) (o : FmtA) : List Nat := if WF.pdc o then predDests d o else []
/-- The Format A instructions that work thread by thread, with whether D is a predicate. -/
def laneInstrs (o : FmtA) : List (Instr × Bool) :=
  ([(.add o, false), (.sub o, false), (.mul o, false), (.mulhi o, false), (.mad o, false), (.madhi o, false), (.addc o, false),
   (.subb o, false), (.min o, false), (.max o, false), (.abs o, false), (.neg o, false), (.idiv o, false), (.irem o, false),
   (.sad o, false), (.lea o, false)] : List (Instr × Bool))
  ++ ([(.and o, false), (.or o, false), (.xor o, false), (.andn o, false), (.not o, false), (.logt o, false), (.shl o, false),
   (.shr o, false), (.shra o, false), (.rot o, false), (.fshf o, false), (.bfx o, false), (.bfi o, false), (.popc o, false),
   (.clz o, false), (.ctz o, false), (.brev o, false)] : List (Instr × Bool))
  ++ ([(.mov o, false), (.movi o, false), (.movh o, false), (.sel o, false), (.bshuf o, false), (.clamp o, false), (.cmp o, true),
   (.fcmp o, true), (.plop o, true)] : List (Instr × Bool))
  ++ ([(.fadd o, false), (.fsub o, false), (.fmul o, false), (.ffma o, false), (.fmin o, false), (.fmax o, false), (.fabs o, false),
   (.fneg o, false), (.fdiv o, false), (.fsqrt o, false), (.frcpa o, false), (.frsqa o, false), (.fclass o, false),
   (.fscale o, false), (.fgete o, false), (.fgetm o, false), (.fcopys o, false), (.frnd o, false), (.fmed3 o, false),
   (.fclamp o, false), (.fex2 o, false), (.flg2 o, false), (.fsin o, false), (.fcos o, false)] : List (Instr × Bool))
  ++ ([(.fdot2 o, false), (.fadd2 o, false), (.fmul2 o, false), (.ffma2 o, false), (.cvt o, false), (.i2f o, false), (.f2i o, false),
   (.mxdq o, false), (.pack o, false), (.unpk o, false)] : List (Instr × Bool))

/-- The collective instructions with their opcodes (R115). -/
def collectives (o : FmtA) : List (Instr × Nat) :=
  [(.poll o, 0x44), (.lxch o, 0x45), (.gred o, 0x46), (.gscan o, 0x47), (.mxq o, 0x83), (.bfpq o, 0x85)]

/-- A line that some core's L1 lists. -/
def l1Entry (s : State) (e : Nat × L1Line) : Prop := ∃ c ∈ s.cores, e ∈ c.2.l1
/-- Byte a in an L1 whose line holds it. -/
def inL1 (s : State) (a : Nat) (b : Byte) : Prop :=
  ∃ e, l1Entry s e ∧ e.1 = lineOf a ∧ (e.2.valid ||| e.2.dirty).getLsbD (a % 128) = true ∧ lineByte e.2.data (a % 128) = b
/-- Byte a in a die's replica of its line. -/
def inReplica (s : State) (a : Nat) (b : Byte) : Prop :=
  ∃ e ∈ s.replicas, e.1 / 16 = lineOf a ∧ lineByte e.2.data (a % 128) = b
/-- A write of b to byte a is on its way to the home. -/
def onItsWay (s : State) (a : Nat) (b : Byte) : Prop :=
  ∃ e ∈ s.posted, e.2.line = lineOf a ∧ e.2.mask.getLsbD (a % 128) = true ∧ lineByte e.2.data (a % 128) = b
/-- Some agent holds b as the value of byte a: its home, an L1, a replica, or a write on its way. -/
def holds (s : State) (a : Nat) (b : Byte) : Prop := memGet s.mem a = b ∨ inL1 s a b ∨ inReplica s a b ∨ onItsWay s a b
/-- No welt entry covers byte a (R263), and none stands in a spill area, from where an access would bring it back (R265). -/
def noWelt (s : State) (a : Nat) : Prop := ∀ e ∈ s.welts, ¬ (e.1 ≤ a ∧ a < e.1 + e.2.size) ∧ e.2.spilled = none
/-- The welt table is in its canonical form, no entry is spilled, and every slice's table of 4,096 entries has room for n more
(R265), so that n new entries spill none. -/
def weltsFit (n : Nat) (s : State) : Prop :=
  spSorted 0 s.welts = true ∧ (∀ e ∈ s.welts, e.2.spilled = none)
  ∧ ∀ slice, (s.welts.filter fun e => sliceKey e.1 = slice).length + n ≤ 4096
/-- No write of byte a is still to reach its home: no L1 holds it dirty and none is on its way. -/
def settled (s : State) (a : Nat) : Prop :=
  (∀ e, l1Entry s e → e.1 = lineOf a → e.2.dirty.getLsbD (a % 128) = false)
  ∧ ∀ e ∈ s.posted, e.2.line = lineOf a → e.2.mask.getLsbD (a % 128) = false
/-- Byte a of memory is unchanged: no agent comes to hold a value of it that none held before, and if its writes had all
reached the home, the home reads as before and nothing new is on its way. -/
def byteKept (a : Nat) (s t : State) : Prop :=
  noWelt s a → noWelt t a ∧ (∀ b, holds t a b → holds s a b) ∧ (settled s a → settled t a ∧ memGet t.mem a = memGet s.mem a)
/-- Every byte of memory outside those that p selects is unchanged. -/
def memKept (p : Nat → Bool) (s t : State) : Prop := ∀ a, p a = false → byteKept a s t
/-- Every scratchpad byte is unchanged, but those of block b that p selects. -/
def spKept (b : Nat) (p : Nat → Bool) (s t : State) : Prop :=
  ∀ k a, k = b ∧ p a = true ∨ spGet 0 (t.blk k).sp a = spGet 0 (s.blk k).sp a
/-- Registers, predicates, MODE and FSTAT of a group, and the marks of poison. -/
def sameFile (x y : Group) : Prop :=
  y.vr = x.vr ∧ y.kr = x.kr ∧ y.pr = x.pr ∧ y.gp = x.gp ∧ y.mode = x.mode ∧ y.fstat = x.fstat ∧ y.poisonV = x.poisonV
  ∧ y.poisonK = x.poisonK
/-- Of the registers of all groups only those named in the one being issued changed, and predicates ps and gs. -/
def filesKept (us : List FieldUse) (ps gs : List Nat) (s t : State) : Prop :=
  (∀ g, g ≠ s.cur.g → sameFile (s.grp g) (t.grp g))
  ∧ regsKept us s.me t.me ∧ predsKept ps gs s.me t.me ∧ t.me.mode = s.me.mode ∧ t.me.fstat = s.me.fstat
/-- The n bytes from each place, in memory or in the scratchpad. -/
def storedGl (o : FmtM) (n : Nat) (ps : List (Place × Part)) (a : Nat) : Bool :=
  o.space.toNat ≠ 1 && ps.any fun p => p.1.pa ≤ a && a < p.1.pa + n
def storedSp (o : FmtM) (n : Nat) (ps : List (Place × Part)) (a : Nat) : Bool :=
  o.space.toNat = 1 && ps.any fun p => p.1.ea ≤ a && a < p.1.ea + n
/-- Nothing changed in memory, scratchpads and registers but the stored bytes and the registers named. -/
def accessFrame (o : FmtM) (n : Nat) (ps : List (Place × Part)) (us : List FieldUse) (qs gs : List Nat) (s t : State) : Prop :=
  memKept (storedGl o n ps) s t ∧ spKept s.me.block (storedSp o n ps) s t ∧ filesKept us qs gs s t

/-- Memory, scratchpads and registers are unchanged, but the registers and predicates named. -/
def stillFrame (us : List FieldUse) (ps gs : List Nat) (s t : State) : Prop :=
  memKept (fun _ => false) s t ∧ spKept 0 (fun _ => false) s t ∧ filesKept us ps gs s t
/-- As stillFrame, for an instruction that writes control register n: MODE is 0, FSTAT is 1. -/
def csrFrame (n : Nat) (us : List FieldUse) (s t : State) : Prop :=
  memKept (fun _ => false) s t ∧ spKept 0 (fun _ => false) s t ∧ (∀ g, g ≠ s.cur.g → sameFile (s.grp g) (t.grp g))
  ∧ regsKept us s.me t.me ∧ predsKept [] [] s.me t.me ∧ (n ≠ 0 → t.me.mode = s.me.mode) ∧ (n ≠ 1 → t.me.fstat = s.me.fstat)
/-- The control instructions that leave the group resident (R330 to R346). -/
def controls (o : FmtC) : List Instr :=
  [.bra o, .brx o, .join o, .call o, .callInd o, .loop o, .pln o, .plng o, .sleep o, .sleepTok o, .yield o, .trap o, .brk o,
   .bara o, .barw o, .barx o, .bari o]
/-- The engine instructions that answer with a token or a status in K. -/
def tokenIssuers (o : FmtE) : List Instr :=
  [.cpy o, .cpyg o, .cpys o, .cpyi o, .cpyqStat o, .mms o, .mmx o, .mmi o, .acz o, .acld o, .acst o, .recvw o]

/-! ### A step's issue (R33, R37, R45) -/

/-- Group g may issue, and its line is fetched: p is its one occupied plane, l that plane's image. -/
def fetched (s : State) (g p : Nat) (l : Line) : Prop :=
  canIssue s g = true ∧ (s.grp g).live ≠ 0 ∧ (s.grp g).line = some ((s.grp g).pc / 5) ∧ occupied (s.grp g) = [p]
  ∧ spFind (s.grp g).images p = some l
/-- The parameter words of a line (R48). -/
def parsOf (l : Line) : Option (List Slot) :=
  if lineInl l then some [lineSlot l 1, lineSlot l 2, lineSlot l 3, lineSlot l 4] else none
/-- Slot n of the line decodes to i, and the scoreboard does not hold it back (Table 2-1). -/
def issues (s : State) (g n : Nat) (l : Line) (i : Instr) : Prop :=
  decodeAt s g (parsOf l) (lineSlot l n) = .ok i ∧ scoreboardHolds s g (parsOf l) (lineSlot l n) i = false
/-- No query of the group that faulted untold has a destination that the copy at the offset reads or writes (R219). -/
def noFaultNews (s : State) (g : Nat) (c : Copied) : Prop :=
  faultedHit s g readsOf (issued (s.grp g) [c]) = [] ∧ faultedHit s g destsOf (issued (s.grp g) [c]) = []
/-- The state after an issue that completed in t: slots retired, cycles counted, and in a pavane block the turn passed. -/
def issueDone (s : State) (g slots : Nat) (c : Copied) (once : Bool) (t : State) : State :=
  retireIssue t g (s.grp g).uid slots (occupancy (s.grp g) [c] once)
    (if s.grpPavane g then some (halfOf (s.grp g) * 8 + (s.grp g).track.getD 0) else none)
/-- The copy w in slot n of a group's line issues once for the group: the offset is a control point, by w or by the line of a plane
that no active thread occupies (R36, R37). -/
def issuesOnce (x : Group) (n : Nat) (w : Slot) : Bool :=
  (x.others.any (fun e => idlePoint n e.2) || opControl (opOf w) || opCollective (opOf w)) && actsOnce w

end Sys2Proof.Claim
end

