-- ==== Sys2Proof/Certificates/Slice0/Obligations.lean ====
section
/-! DEFINITION. Obligations.lean: the statements for the provers; Safety.lean holds the terms they share. -/

/-! ### Integer arithmetic, logic, moves, predicates (R117 to R128) -/

open Sys2Proof Sys2Proof.Machine Sys2Proof.Claim

/-- Integer arithmetic: the exact result, saturated or wrapped to the type, and the carry or borrow in q (R117 to R119). -/
def Obligations.IntegerResults : Prop :=
  ∀ o : FmtA,
    laneGives (.add o) o (fun s t => intOf o (intA s o t + intB s o t) (some (2 ^ wA o ≤ unsA s o t + unsB s o t)))
    ∧ laneGives (.sub o) o (fun s t => intOf o (intA s o t - intB s o t) (some (unsA s o t < unsB s o t)))
    ∧ laneGives (.mul o) o (fun s t => intOf o (intA s o t * intB s o t) none)
    ∧ laneGives (.mulhi o) o (fun s t => intOf o (intA s o t * intB s o t / (2 ^ wA o : Nat)) none)
    ∧ laneGives (.mad o) o (fun s t => intOf o (intA s o t * intB s o t + intC s o t) none)
    ∧ laneGives (.madhi o) o (fun s t => intOf o (intA s o t * intB s o t / (2 ^ wA o : Nat) + intC s o t) none)
    ∧ laneGives (.addc o) o (fun s t => intOf o (unsA s o t + unsB s o t + carryIn s o t : Nat)
        (some (2 ^ wA o ≤ unsA s o t + unsB s o t + carryIn s o t)))
    ∧ laneGives (.subb o) o (fun s t => intOf o ((unsA s o t : Int) - unsB s o t - carryIn s o t)
        (some (unsA s o t < unsB s o t + carryIn s o t)))
    ∧ laneGives (.min o) o (fun s t => intOf o (min (intA s o t) (intB s o t)) none)
    ∧ laneGives (.max o) o (fun s t => intOf o (max (intA s o t) (intB s o t)) none)
    ∧ laneGives (.abs o) o (fun s t => intOf o (intA s o t).natAbs none)
    ∧ laneGives (.neg o) o (fun s t => intOf o (-(intA s o t)) none)
    ∧ laneGives (.idiv o) o (fun s t => intOf o (
        if intB s o t = 0 then (if isSigned (tyA o) then -1 else intMax (tyA o))
        else if isSigned (tyA o) && intA s o t = intMin (tyA o) && intB s o t = -1 then intMin (tyA o)
        else (intA s o t).tdiv (intB s o t)) none)
    ∧ laneGives (.irem o) o (fun s t => intOf o (
        if intB s o t = 0 then intA s o t
        else if isSigned (tyA o) && intA s o t = intMin (tyA o) && intB s o t = -1 then 0
        else (intA s o t).tmod (intB s o t)) none)
    ∧ laneGives (.sad o) o (fun s t => intOf o ((intA s o t - intB s o t).natAbs + intC s o t) none)
    ∧ laneGives (.lea o) o (fun s t => bitsOf o (intBits (wA o) (opA s o t + leaExt o (count32B s o t) * 2 ^ bitsNat (WF.fnv o) 5 0)))
    ∧ laneGives (.clamp o) o (fun s t => intOf o (min (max (intA s o t) (intB s o t)) (intC s o t)) none)

/-- Logic, shifts, fields and counts of bits (R120 to R122). -/
def Obligations.LogicResults : Prop :=
  ∀ o : FmtA,
    laneGives (.and o) o (fun s t => bitsOf o (opA s o t &&& opB s o t))
    ∧ laneGives (.or o) o (fun s t => bitsOf o (opA s o t ||| opB s o t))
    ∧ laneGives (.xor o) o (fun s t => bitsOf o (opA s o t ^^^ opB s o t))
    ∧ laneGives (.andn o) o (fun s t => bitsOf o (opA s o t &&& notBits (wA o) (opB s o t)))
    ∧ laneGives (.not o) o (fun s t => bitsOf o (notBits (wA o) (opA s o t)))
    ∧ laneGives (.logt o) o (fun s t =>
        let r := logt (wA o) (bitsNat (WF.fnv o) 7 0) (opA s o t) (opB s o t) (opC s o t)
        { ty := tyA o, val := r, q := some (r ≠ 0) })
    ∧ laneGives (.shl o) o (fun s t => bitsOf o
        (if wA o ≤ shiftCount s o t then 0 else opA s o t * 2 ^ shiftCount s o t % 2 ^ wA o))
    ∧ laneGives (.shr o) o (fun s t => bitsOf o (if wA o ≤ shiftCount s o t then 0 else unsA s o t / 2 ^ shiftCount s o t))
    ∧ laneGives (.shra o) o (fun s t => bitsOf o (intBits (wA o) (intA s o t / (2 ^ min (wA o) (shiftCount s o t) : Nat))))
    ∧ laneGives (.rot o) o (fun s t =>
        let n := count32B s o t % wA o
        bitsOf o (rotLeft (wA o) (unsA s o t) (if (WF.fnv o).getLsbD 0 then (wA o - n) % wA o else n)))
    ∧ laneGives (.fshf o) o (fun s t =>
        let v := unsA s o t * 2 ^ wA o + unsB s o t
        let c := src32 s o.h.u o.c t
        let n := if (WF.fnv o).getLsbD 1 then c % wA o else min c (wA o)
        bitsOf o (if (WF.fnv o).getLsbD 0 then v * 2 ^ n / 2 ^ wA o % 2 ^ wA o else v / 2 ^ n % 2 ^ wA o))
    ∧ laneGives (.bfx o) o (fun s t => bitsOf o (intBits (wA o) (bfx (tyA o) (opA s o t) (count32B s o t))))
    ∧ laneGives (.bfi o) o (fun s t => bitsOf o (bfi (wA o) (opA s o t) (opB s o t) (src32 s o.h.u o.c t)))
    ∧ laneGives (.popc o) o (fun s t => asType 2 (popCount (wA o) (opA s o t)))
    ∧ laneGives (.clz o) o (fun s t => asType 2 (leadingZeros (wA o) (opA s o t)))
    ∧ laneGives (.ctz o) o (fun s t => asType 2 (trailingZeros (wA o) (opA s o t)))
    ∧ laneGives (.brev o) o (fun s t => bitsOf o (ofBits (wA o) fun k => (opA s o t).testBit (wA o - 1 - k)))

/-- Moves and selects; a uniform MOV reads a named thread of a v register, MOVH keeps the low half of D (R123 to R125). -/
def Obligations.MoveResults : Prop :=
  ∀ o : FmtA,
    laneGives (.movi o) o (fun s t => bitsOf o (opB s o t))
    ∧ laneGives (.sel o) o (fun s t => bitsOf o
        (if predAt s (o.h.u || (WF.fnv o).getLsbD 0) o.c t then opA s o t else opB s o t))
    ∧ laneGives (.bshuf o) o (fun s t => bitsOf o (bshuf (opA s o t) (opB s o t) (opC s o t)))
    ∧ (o.h.u = false → laneGives (.mov o) o (fun s t => bitsOf o (opA s o t)))
    -- a uniform MOV of a v register reads the entry of the thread that fn 5:0 names (R124)
    ∧ (o.h.u = true → WF.isV o.a = true → ∀ s, guardG s o.h = true →
        poisonAt s.seen (readsOf (.mov o)) (bitsNat (WF.fnv o) 5 0) = false →
        exec (.mov o) s = .next (writeAll (fun _ => o) [(0, bitsOf o (opA s o (bitsNat (WF.fnv o) 5 0)))] s))
    -- MOVH keeps the low half of its destination and sets the high half to imm32 (R123)
    ∧ (∀ s, (∀ t ∈ runners s o.h, poisonAt s.seen [(o.d, if WF.isV o.d then 2 else 1)] t = false) →
        exec (.movh o) s = .next (writeAll (fun _ => o)
          ((runners s o.h).map fun t => (t, bitsOf o (srcAs s o.h.u 3 o.d t % 2 ^ 32 + o.w.toNat * 2 ^ 32))) s))

/-- Compares write their truth combined with a predicate, PLOP its table, PMOV a whole predicate set (R126 to R128). -/
def Obligations.PredicateResults : Prop :=
  ∀ o : FmtA,
    laneGives (.cmp o) o (fun s t =>
        let c := cmpCond o.h.rm.toNat (intA s o t) (intB s o t)
        let p := predAt s (o.h.u || (WF.fnv o).getLsbD 5) o.c t
        { pred := some (comb (bitsNat (WF.fnv o) 4 3) c p), q := some (comb (bitsNat (WF.fnv o) 4 3) (!c) p) })
    ∧ laneGives (.fcmp o) o (fun s t =>
        let c := fpCompare o.h.rm.toNat ((WF.fnv o).getLsbD 0) (fpA s o t) (fpB s o t)
        let p := predAt s (o.h.u || (WF.fnv o).getLsbD 3) o.c t
        { pred := some (comb (bitsNat (WF.fnv o) 2 1) c.1 p), q := some (comb (bitsNat (WF.fnv o) 2 1) (!c.1) p), flags := c.2 })
    ∧ laneGives (.plop o) o (fun s t =>
        { pred := some ((WF.fnv o).getLsbD (plopIndex s o t)), q := some ((WF.fnv o).getLsbD (8 + plopIndex s o t)) })
    ∧ ((WF.fnv o).getLsbD 0 = false → laneGives (.pmov o) o (fun s t => asType 2 (predSet s o.h.u t)))
    ∧ ((WF.fnv o).getLsbD 0 = true → ∀ s, ready (.pmov o) o.h s →
        exec (.pmov o) s = .next (s.updMe fun x =>
          (runners s o.h).foldl (fun x t => setPreds o.h.u x t (bitsNat (WF.fnv o) 7 1) (opA s o t)) x))

/-! ### Floating point and conversions (R133 to R148) -/

/-- Floating-point arithmetic: the exact value rounded once by the effective mode, and the flags it raises (R133 to R139). -/
def Obligations.FloatResults : Prop :=
  ∀ o : FmtA,
    laneGives (.fadd o) o (fun s t => rounded s o (fpSum (modeA s o) [fpA s o t, fpB s o t]))
    ∧ laneGives (.fsub o) o (fun s t => rounded s o (fpSum (modeA s o) [fpA s o t, (fpB s o t).neg]))
    ∧ laneGives (.fmul o) o (fun s t => rounded s o (fpMul (fpA s o t) (fpB s o t)))
    ∧ laneGives (.ffma o) o (fun s t => rounded s o (fpDot (modeA s o) [(fpA s o t, fpB s o t)] (fpC s o t)))
    ∧ laneGives (.fdiv o) o (fun s t => rounded s o (fpDiv (fpA s o t) (fpB s o t)))
    ∧ laneGives (.fsqrt o) o (fun s t => rounded s o (fpSqrt (fpA s o t)))
    ∧ laneGives (.fscale o) o (fun s t => rounded s o (fpScale (fpA s o t) (scaleCount s o t)))
    ∧ laneGives (.fmin o) o (fun s t => sameResult o (fpMinMax false (fpA s o t) (fpB s o t)))
    ∧ laneGives (.fmax o) o (fun s t => sameResult o (fpMinMax true (fpA s o t) (fpB s o t)))
    ∧ laneGives (.fgetm o) o (fun s t => sameResult o (fpGetM (fpA s o t)))
    ∧ laneGives (.frnd o) o (fun s t => sameResult o (fpRnd (modeA s o) ((WF.fnv o).getLsbD 0) (fpA s o t)))
    ∧ laneGives (.fmed3 o) o (fun s t => sameResult o (fpMed3 (fpA s o t) (fpB s o t) (fpC s o t)))
    ∧ laneGives (.fclamp o) o (fun s t => sameResult o (fpClamp (fpA s o t) (fpB s o t) (fpC s o t)))
    ∧ laneGives (.fabs o) o (fun s t => bitsOf o (opA s o t % 2 ^ (wA o - 1)))
    ∧ laneGives (.fneg o) o (fun s t => bitsOf o
        (opA s o t % 2 ^ (wA o - 1) + if (opA s o t).testBit (wA o - 1) then 0 else 2 ^ (wA o - 1)))
    ∧ laneGives (.fcopys o) o (fun s t => bitsOf o
        (opA s o t % 2 ^ (wA o - 1) + if (opB s o t).testBit (wA o - 1) then 2 ^ (wA o - 1) else 0))
    ∧ laneGives (.fclass o) o (fun s t => asType 2 (fpClass (fmtA o) (opA s o t % 2 ^ wA o)))
    ∧ laneGives (.fgete o) o (fun s t => fpOf 6 (intBits 32 (fpGetE (fpA s o t)).1, (fpGetE (fpA s o t)).2))

/-- The approximations, and the instructions on packed pairs (R133, R140 to R142). -/
def Obligations.ApproximationAndPairResults : Prop :=
  ∀ o : FmtA,
    laneGives (.frcpa o) o (fun s t => fpOf (tyA o) (fpRcpa (fmtA o) (fpA s o t)))
    ∧ laneGives (.frsqa o) o (fun s t => fpOf (tyA o) (fpRsqa (fmtA o) (fpA s o t)))
    ∧ laneGives (.fex2 o) o (fun s t => fpOf (tyA o) (fpEx2 (fpA s o t)))
    ∧ laneGives (.flg2 o) o (fun s t => fpOf (tyA o) (fpLg2 (fpA s o t)))
    ∧ laneGives (.fsin o) o (fun s t => fpOf (tyA o) (fpSinCos false (fpA s o t)))
    ∧ laneGives (.fcos o) o (fun s t => fpOf (tyA o) (fpSinCos true (fpA s o t)))
    ∧ laneGives (.fdot2 o) o (fun s t => fpOf 10 (roundFlags (fmtOf 10) (modeA s o)
        (fpDot (modeA s o) [(pairA s o t 0, pairB s o t 0), (pairA s o t 1, pairB s o t 1)]
          (fpDecode (fmtOf 10) (srcAs s o.h.u 10 o.c t)))))
    ∧ laneGives (.fadd2 o) o (fun s t => pairResult s o fun k => fpSum (modeA s o) [pairA s o t k, pairB s o t k])
    ∧ laneGives (.fmul2 o) o (fun s t => pairResult s o fun k => fpMul (pairA s o t k) (pairB s o t k))
    ∧ laneGives (.ffma2 o) o (fun s t => pairResult s o fun k =>
        fpDot (modeA s o) [(pairA s o t k, pairB s o t k)] (pairC s o t k))

/-- Conversions between formats, and the packed and block formats (R143 to R148). -/
def Obligations.ConversionResults : Prop :=
  ∀ o : FmtA,
    (isFp (tyA o) = true → laneGives (.cvt o) o (fun s t =>
        fpOf (tyA o) (convertTo (fmtA o) (modeA s o) (satA o) (fpDecode (fmtOf (srcTy o)) (convA s o t)))))
    ∧ (isFp (tyA o) = false → laneGives (.cvt o) o (fun s t => intOf o (intVal (srcTy o) (convA s o t)) none))
    ∧ laneGives (.i2f o) o (fun s t =>
        fpOf (tyA o) (convertTo (fmtA o) (modeA s o) (satA o) (intFVal (intVal (srcTy o) (convA s o t)))))
    ∧ laneGives (.f2i o) o (fun s t =>
        let r := f2i (tyA o) (modeA s o) (fpDecode (fmtOf (srcTy o)) (convA s o t))
        fpOf (tyA o) (intBits (wA o) r.1, r.2))
    ∧ laneGives (.mxdq o) o (fun s t =>
        let a := src32 s o.h.u o.a t
        fpOf (tyA o) (roundTo (fmtA o) (modeA s o) (mxValue (srcTy o) (natBits a 7 0) (natBits a 15 8))))
    ∧ laneGives (.pack o) o (fun s t =>
        fpOf 2 ((packElem s o o.a t).1 + (packElem s o o.b t).1 * 2 ^ 16, (packElem s o o.a t).2 ||| (packElem s o o.b t).2))
    ∧ laneGives (.unpk o) o (fun s t =>
        let v := srcPair s o.h.u (tyA o) o.a t
        let a := unpkElem o (v % 2 ^ 16)
        let b := unpkElem o (v / 2 ^ 16 % 2 ^ 16)
        fpOf 3 (a.1 + b.1 * 2 ^ 32, a.2 ||| b.2))

/-! ### Instructions that span a group's threads (R129 to R132, R146) -/

/-- LXCH, GRED, GSCAN, POLL, MXQ and BFPQ: each participant gets its result from the operands of all (R129 to R132, R146).
The moments and choices of log 29 are the model's. -/
def Obligations.CollectiveResults : Prop :=
  ∀ o : FmtA,
    collectiveGives 0x45 (.lxch o) o (fun s ts t =>
        let c := copyA s o t
        let r := lxchSource o.h.rm.toNat (2 ^ (6 - bitsNat (WF.fnv o) 2 0)) t (count32B s c t)
        let ok := r.2 && ts.contains r.1.toNat
        { ty := tyA o, val := if ok then opA s (copyA s o r.1.toNat) r.1.toNat else opA s c t, q := some ok })
    ∧ collectiveGives 0x47 (.gscan o) o (fun s ts t =>
        let val := scanAll o (modeA s o) (tids.map (redIn s o ts))
        let v := if !(WF.fnv o).getLsbD 3 then (val[t]?).getD none else if t = 0 then none else (val[t - 1]?).getD none
        fpOf (tyA o) ((v.map (·.1)).getD (redIdentity o),
          val.foldl (fun f v => match v with | some r => f ||| r.2 | none => f) 0))
    ∧ collectiveGives 0x83 (.mxq o) o (quantise o
        { emax := if tyA o = 12 then 8 else if tyA o = 13 then 15 else 0, bfp := false, w := 8,
          fp8 := if tyA o = 4 then none else some (fmtA o) })
    ∧ collectiveGives 0x85 (.bfpq o) o (quantise o { emax := 0, bfp := true, w := bitsNat (WF.fnv o) 7 4, fp8 := none })
    ∧ (∀ s r, collectiveReady 0x46 o s → redTree o (modeA s o) (tids.map (redIn s o (participants s o.h))) = some r →
        enabledFlags s.me r.2 = 0 →
        exec (.gred o) s = .next (writeAll (copyA s o) ((participants s o.h).map fun t => (t, fpOf (tyA o) r)) s))
    ∧ (∀ s, collectiveReady 0x46 o s → redTree o (modeA s o) (tids.map (redIn s o (participants s o.h))) = none →
        exec (.gred o) s = .next s)
    -- the truth of .every, .some and .same, the mask and the count of POLL (R130)
    ∧ (∀ s, o.h.rm.toNat ≤ 2 →
        let v := pollTruth o.h.rm.toNat ((participants s o.h).map (pollIn s o))
        let r := writeAll (copyA s o) ((participants s o.h).map fun t => (t, { pred := some v })) s
        exec (.poll o) s = .next (if WF.pdc o && !o.h.s then r.updMe fun x => setG x (o.d.toNat % 8) v else r))
    ∧ (∀ s, 2 < o.h.rm.toNat →
        let held := (participants s o.h).filter (pollIn s o)
        let v := if o.h.rm.toNat = 3 then (maskOf fun t => held.contains t).toNat else held.length
        exec (.poll o) s = .next (writeAll (copyA s o) ((participants s o.h).map fun t => (t, asType o.h.t.toNat v)) s))

/-! ### Loads, stores and cache control (R243 to R249) -/

/-- LD and LDW put a load in flight at every runner's place; PREF requests its lines and writes nothing. The moments and
choices of log 8 (when a load samples) and 14 (a prefetch may be dropped) are the model's. -/
def Obligations.LoadResults : Prop :=
  ∀ (o : FmtM) (s : State),
    (let ps := placed o true needR noData s
     accessGood o true [] (moveBytes o) (moveBytes o) needR s → linesFull o ps s → loadReady o ps s →
       exec (.ld o) s = .next (if ps = [] then s else startLoad o false (moveBytes o) ps s))
    ∧ (let ps := placed o true needR noData s
       accessGood o true [] (wideBytes o) (wideBytes o) needR s → linesFull o ps s → loadReady o ps s →
         exec (.ldw o) s = .next (if ps = [] then s else startLoad o true (wideBytes o) ps s))
    ∧ exec (.pref o) s = .next (prefetch o s)

/-- ST stores the low bytes of its registers at every runner's place, in issue order. The moments and choices of log 9 and
22 are the model's. -/
def Obligations.StoreResults : Prop :=
  ∀ (o : FmtM) (s : State),
    let ps := placed o true needW (fun s t => (storeData s o t, 0)) s
    accessGood o true [(o.d, if o.h.u then 1 else WF.spanRegs o)] (moveBytes o) (moveBytes o) needW s →
    (o.space.toNat = 2 → (s.grpLch s.cur.g).flag 4 = true ∨ ps = []) → tokenHeld ps s →
    (ps ≠ [] → orderReady o s) →
      exec (.st o) s = .next (storeAll o (moveBytes o) ps s)

/-- CRESIZE changes the scratchpad ways if they hold what is in use; CFLUSH and CINV write lines back, CINV dropping them;
FEMARK marks lines full or empty; FETEST answers whether they are full (R246 to R249). The moments and choices of log 27 are
the model's. -/
def Obligations.CacheControlResults : Prop :=
  ∀ (o : FmtM) (s : State),
    (guardG s o.h = true → good s (use1 o.a) [0] →
      exec (.cresize o) s = .next (resizeTo o (signedNat 64 (srcAs s true 7 o.a 0)) s))
    ∧ (guardG s o.h = true → good s (addressUses o true) [0] →
      exec (.cflush o) s = .next (flushLines false (flushedLines s o) s)
      ∧ exec (.cinv o) s = .next (flushLines true (flushedLines s o) s))
    ∧ (let n := lengthB s o
       let ea := eaOf s { o with b := 0x148#10 } true 0
       guardG s o.h = true → good s (addressUses o true) [0] → (n ≠ 0 → 0 ≤ ea ∧ (ea / 128 + n) * 128 ≤ (s.blk s.me.block).spSize) →
       ea % 128 = 0 → exec (.femark o) s = .next (markLines (WF.bit79 o) s.me.block ea.toNat n s))
    ∧ (let ea (t : Nat) := eaOf s { o with b := 0x148#10 } true t
       let n := if o.h.u then lengthB s o else 1
       good s (addressUses o o.h.u) (runners s o.h) →
       (∀ t ∈ runners s o.h, n ≠ 0 → 0 ≤ ea t ∧
         if o.h.u then (ea t / 128 + n) * 128 ≤ (s.grpBlk s.cur.g).spSize else ea t < (s.grpBlk s.cur.g).spSize) →
       exec (.fetest o) s = .next (putTest o ((runners s o.h).map fun t =>
         (t, (List.range n).all fun i => lineFull (s.grpBlk s.cur.g) ((ea t).toNat / 128 + i))) s))
    -- with a false guard none of them has an effect
    ∧ (guardG s o.h = false → ∀ i ∈ [Instr.cresize o, .cflush o, .cinv o, .femark o], exec i s = .next s)

/-! ### Atomics, welts, fences, the Promenade token (R261 to R276) -/

/-- Atomics act at every runner's place in issue order, with the release before and the acquire after that they name, and
return the old values. The moments and choices of log 26 are the model's. -/
def Obligations.AtomicResults : Prop :=
  ∀ (o : FmtM) (s : State),
    let ps := placed o false needRW (dataBC o) s
    let go (us : List FieldUse) : Prop :=
      accessGood o false us (atomBytes o) (atomBytes o) needRW s ∧ linesFull o ps s ∧ tokenHeld ps s ∧ (ps ≠ [] → orderReady o s)
    (go (useTy o.h.t.toNat o.b) →
      exec (.atom o) s = .next (if ps = [] then s else around o (atomAll o (atomNew o) ps) s))
    ∧ (go (useTy o.h.t.toNat o.b ++ useTy o.h.t.toNat o.c) →
      exec (.cas o) s = .next (if ps = [] then s else around o (atomAll o casNew ps) s))
    ∧ (go (if WF.aop o = 7 then [] else useTy o.h.t.toNat o.b) →
      exec (.atomsc o) s = .next (if ps = [] then s else around o (atomscAll o ps) s))

/-- FADDW adds into welt entries; WREAD and WFLUSH read them rounded, WFLUSH freeing them. The moments and choices of log 26
are the model's. -/
def Obligations.WeltResults : Prop :=
  ∀ (o : FmtM) (s : State), o.space.toNat = 0 →
    (let ps := placed o false needRW (dataBC o) s
     accessGood o false (useTy o.h.t.toNat o.b) (atomBytes o) (atomBytes o) needRW s → (ps ≠ [] → orderReady o s) →
       exec (.faddw o) s = .next (if ps = [] then s else around o (fun s => ps.foldl (faddwAt (o.h.t.toNat = 11)) s) s))
    ∧ (let ps := placed o false needR noData s
       accessGood o false [] (atomBytes o) (atomBytes o) needR s → (ps ≠ [] → orderReady o s ∧ s.me.refused = none) →
         exec (.wread o) s = .next (if ps = [] then s else around o (weltReadAll o false ps) s))
    ∧ (let ps := placed o false needRW noData s
       accessGood o false [] (atomBytes o) (atomBytes o) needRW s → (ps ≠ [] → orderReady o s ∧ s.me.refused = none) → tokenHeld ps s →
         exec (.wflush o) s = .next (if ps = [] then s else around o (weltReadAll o true ps) s))

/-- REDIX offers each contribution in issue order: applied, parked or rejected by its index; it is held at one that finds no park
place free. The moments and choices of log 26 are the model's. -/
def Obligations.RedixResults : Prop :=
  ∀ (o : FmtM) (s : State),
    let ps := placed o false needRW (fun s t => (srcAs s o.h.u o.h.t.toNat o.b t, src32 s o.h.u o.c t)) s
    let s1 := if isRel o.order.toNat then doRelease s s.cur.g o.scope.toNat else s
    let r := redixRun o.h.t.toNat s1 (heldRest s1 ps) (heldGot s1)
    o.space.toNat = 0 → accessGood o false (useTy o.h.t.toNat o.b ++ use1 o.c) 16 16 needRW s → ps ≠ [] → orderReady o s →
    let after (f : State → State) : State :=
      if isAcq o.order.toNat then doAcquire (sampleAllOwn (f r.1) s.cur.g) s.cur.g o.scope.toNat else f r.1
    (r.2.2 = true → exec (.redix o) s = .next (after fun t => putGot o 2 ps r.2.1 (holdNone t)))
    ∧ (r.2.2 = false → exec (.redix o) s = .next (after fun t => stalled (holdAt r.2.1 t)))

/-- FENCE is the release and the acquire it names; OPFENCE writes the core's lines back; RECFENCE drops records; TOKWAIT
goes on with the token held, and TOKPASS passes it. The moments and choices of log 9 and 22 are the model's. -/
def Obligations.FenceResults : Prop :=
  ∀ (o : FmtM) (s : State),
    (guardG s o.h = true → (isRel o.order.toNat = true → s.me.refused = none) → readsReady s → exec (.fence o) s = .next (around o id s))
    ∧ (guardG s o.h = true → exec (.opfence o) s = .next (writeBackAll s (placeCore s.cur.g)))
    ∧ (guardG s o.h = true → good s (use1 o.a) [0] → exec (.recfence o) s = .next
        ((writeBackAll s (placeCore s.cur.g)).updCore (placeCore s.cur.g) fun x =>
          { x with records := if WF.un o.a then [] else x.records.filter fun r =>
              !(r.1 = s.ctxOf s.cur.g && (r.2.1 : Int) = eaOf s { o with space := 0 } false 0) }))
    ∧ (holdsToken s s.cur.g = true → exec (.tokwait o) s = .next s)
    ∧ (guardG s o.h = true → s.grpPavane s.cur.g = true → hasToken s s.cur.g = true → s.me.refused = none →
        exec (.tokpass o) s = .next (passToken s (s.grpBlk s.cur.g).launch))
    ∧ (guardG s o.h = false → ∀ i ∈ [Instr.fence o, .opfence o, .recfence o, .tokwait o, .tokpass o], exec i s = .next s)

/-! ### Control flow (R328 to R345) -/

/-- NOP, BRA, BRX and JOIN. A transfer whose every participant goes one way is taken or falls through; one that splits the
active threads keeps each path on the stack. -/
def Obligations.BranchResults : Prop :=
  ∀ (o : FmtC) (s s1 s2 : State),
    let t := offsetAt s o.tline o.tslot
    let taken := participantMask s o.h
    let fall := s.me.live &&& ~~~taken
    exec .nop s = .next s
    ∧ (lands s o.h.u (lineAt s o.tline) o.tslot.toNat s1 → convergenceLands s1 o s2 →
        (o.h.u = true → exec (.bra o) s = .next (if guardG s o.h then s2.updMe fun x => goTo x t else s2))
        ∧ (o.h.u = false → taken = 0 → exec (.bra o) s = .next s2)
        ∧ (o.h.u = false → taken ≠ 0 → fall = 0 → exec (.bra o) s = .next (s2.updMe fun x => goTo x t))
        ∧ (o.h.u = false → taken ≠ 0 → fall ≠ 0 → rcOf o = true → s2.me.stack.length + 2 ≤ 64 →
            exec (.bra o) s = .next (s2.updMe fun x =>
              { x with stack := { offset := t, kind := .deferred, mask := taken }
                         :: { offset := offsetAt s o.cline o.cslot, kind := .rejoin, mask := x.live } :: x.stack,
                       live := fall })))
    ∧ (o.h.u = true → guardG s o.h = true → landsAt s true (readK s.seen (o.a.toNat - 0x100) % 2 ^ 27) s1 →
        convergenceLands s1 o s2 → clean s2 (use1 o.a) →
        exec (.brx o) s = .next (s2.updMe fun x => goTo x (readK s.seen (o.a.toNat - 0x100) % 2 ^ 27)))
    ∧ (o.h.u = true → convergenceLands s o s1 → guardG s o.h = false → exec (.brx o) s = .next s1)
    ∧ (let ts := participants s o.h
       let tgt (t : Nat) : Nat := src32 s false (ownA s o t) t % 2 ^ 27
       let targets := ts.foldl (fun l t => insertAsc (tgt t) l) []
       o.h.u = false → (∀ t ∈ ts, poisonAt s.seen (use1 (ownA s o t)) t = false) → (∀ t ∈ targets, landsAt s false t s) →
       convergenceLands s o s →
       (targets.length + (if fall = 0 then 0 else 1) ≤ 1 ∨ (rcOf o = true ∧ s.me.stack.length + 1 + targets.length ≤ 64)) →
         exec (.brx o) s = .next (if ts = [] then s else s.updMe fun x =>
           brxPaths targets (fun t => maskOf fun i => ts.contains i && tgt i = t) fall (offsetAt s o.cline o.cslot) x))
    ∧ (joinPops s.me.stack s.cur.off = false → exec (.join o) s = .next s)
    ∧ (joinPops s.me.stack s.cur.off = true → ∀ e rest, s.me.stack = e :: rest →
        exec (.join o) s = .next (resume (s.updMe fun x => goTo { x with stack := rest, live := e.mask &&& x.resident } e.offset) s.cur.g))

/-- CALL, CALL.ind, RET, LOOP and EXIT. -/
def Obligations.CallResults : Prop :=
  ∀ (o : FmtC) (s s1 : State),
    let p := participantMask s o.h
    let entered (t : Nat) (s : State) : State := s.updMe fun x =>
      goTo { x with stack := { offset := (s.cur.off + 1) % 2 ^ 27, kind := .call, mask := x.live } :: x.stack, live := p } t
    (lands s o.h.u (lineAt s o.tline) o.tslot.toNat s1 → (p ≠ 0 → s1.me.stack.length + 1 ≤ 64) →
      exec (.call o) s = .next (if p = 0 then s1 else entered (offsetAt s o.tline o.tslot) s1))
    ∧ (let t := readK s.seen (o.a.toNat - 0x100) % 2 ^ 27
       landsAt s false t s1 → (p ≠ 0 → clean s1 (use1 o.a) ∧ s1.me.stack.length + 1 ≤ 64) →
       exec (.callInd o) s = .next (if p = 0 then s1 else entered t s1))
    ∧ (p = 0 → exec (.ret o) s = .next s ∧ exec (.exit o) s = .next s)
    ∧ (∀ i, p ≠ 0 → (s.me.stack.findIdx? fun e => e.kind = .call) = some i →
        exec (.ret o) s = .next (afterLeave (s.updMe fun x =>
          { x with live := x.live &&& ~~~p, stack := dropMask p (x.stack.take i) ++ x.stack.drop i })))
    ∧ ((s.me.stack.findIdx? fun e => e.kind = .call) = none → exec (.ret o) s = exec (.exit o) s)
    ∧ (let last := decide (s.me.resident &&& ~~~p = 0)
       p ≠ 0 → s.me.refused = none → (finishesAny s s.cur.g (maskTids p) = true → readsReady s) → (last = true → ∀ e ∈ s.oplog, e.g ≠ s.cur.g ∨ e.uid ≠ s.me.uid) →
       exec (.exit o) s = .next (exitThreads last p (finishOf s s.cur.g (maskTids p))))
    ∧ (lands s true (lineAt s o.tline) o.tslot.toNat s1 → guardG s o.h = false → exec (.loop o) s = .next s1)
    ∧ (let v := (readK s1.seen (o.a.toNat - 0x100) + (2 ^ 64 - 1)) % 2 ^ 64
       lands s true (lineAt s o.tline) o.tslot.toNat s1 → guardG s o.h = true → clean s1 (use1 o.a) →
       exec (.loop o) s = .next (s1.updMe fun x =>
         if v = 0 then writeDest x o.h o.a 3 0 v else goTo (writeDest x o.h o.a 3 0 v) (offsetAt s1 o.tline o.tslot)))

/-- SLEEP, SLEEP.tok, YIELD, PLN, PLNG. The moments and choices of log 16 and 54 are the model's. -/
def Obligations.WaitAndPlaneResults : Prop :=
  ∀ (o : FmtC) (s : State),
    (let a := min (2 ^ 32 - 1) (kOrImm s o.a)
     guardG s o.h = true → clean s (use1 o.a) → exec (.sleep o) s = .next (
       if a = 0 then s
       else if s.grpPavane s.cur.g then blockOn s s.cur.g (.sleepTurns ((s.core (placeCore s.cur.g)).turns + a))
       else blockOn s s.cur.g (.sleep (s.clock + a))))
    -- SLEEP.tok ends at the copy's promise or its completion
    ∧ (let t := readK s.seen (o.a.toNat - 0x100)
       guardG s o.h = true → tokenOk t = true → clean s (use1 o.a) →
       (∀ e, copyOf s s.me.block t = some e → e.2.complete = true ∨
         (copyWaitTrap s s.cur.g e.1 = none ∧ e.2.pavane = false
          ∧ reaches (cycleCount s (coreDie (placeCore s.cur.g))) e.2.promise = true)) →
       exec (.sleepTok o) s = .next s)
    ∧ (guardG s o.h = true → s.grpPavane s.cur.g = false → isControl s.cur.g = false →
        exec (.yield o) s = .next (swapOut s s.cur.g))
    ∧ (guardG s o.h = false → ∀ i ∈ [Instr.sleep o, .sleepTok o, .yield o, .plng o, .bara o, .barw o, .barx o, .bari o],
        exec i s = .next s)
    ∧ ((∀ t ∈ participants s o.h, src32 s false o.a t < s.me.np) →
       (∀ t ∈ participants s o.h, poisonAt s.seen (use1 o.a) t = false) →
       exec (.pln o) s = .next { s.updMe fun x => setPlanes x ((participants s o.h).map fun t => (t, src32 s false o.a t)) with
         cur := { s.cur with moved := s.cur.moved ||| participantMask s o.h } })
    ∧ (guardG s o.h = true → kOrImm s o.a < s.me.np → clean s (use1 o.a) →
       exec (.plng o) s = .next (s.updMe fun x => setPlanes x ((maskTids x.resident).map fun t => (t, kOrImm s o.a))))

/-- Barriers: an arrival, a wait, both, and the initialisation. -/
def Obligations.BarrierResults : Prop :=
  ∀ (o : FmtC) (s : State), guardG s o.h = true →
    (releaseReady s → exec (.bara o) s = .next (arrive s (barNum o)))
    ∧ (readsReady s → exec (.barw o) s = .next (await s (barNum o)))
    ∧ (releaseReady s → exec (.barx o) s = .next (await (arrive s (barNum o)) (barNum o)))
    ∧ (clean s (use1 o.a) → exec (.bari o) s = .next (barChange s s.me.block (barNum o) fun r =>
        { r with mode := o.cfn.getLsbD 4, b := natBits (kOrImm s o.a) 63 32,
                 e := if natBits (kOrImm s o.a) 4 0 = 0 then (s.blk s.me.block).ngroups else natBits (kOrImm s o.a) 4 0 }))

/-- TRAP, BRK, SVC and a slot that is no instruction take the exceptions the spec gives them; with no runner nothing happens. -/
def Obligations.SoftwareTrapResults : Prop :=
  ∀ (o : FmtC) (f : FmtS) (bits : BitVec 88) (s : State),
    (runners s o.h ≠ [] →
      takes (.trap o) s { cause := 0x10, code := o.cfn.toNat, mask := runnerMask s o.h.u (runners s o.h) }
      ∧ takes (.brk o) s { cause := 0x0F, code := o.cfn.toNat, mask := runnerMask s o.h.u (runners s o.h) })
    ∧ (runners s o.h = [] → exec (.trap o) s = .next s ∧ exec (.brk o) s = .next s)
    ∧ (guardG s f.h = true → clean s (use1 f.a) →
        takes (.svc f) s { cause := 0x1D, code := bitsNat f.sfn 7 0, addr := kOrImm64 s f.a, mask := s.me.resident })
    ∧ (guardG s f.h = false → exec (.svc f) s = .next s)
    ∧ takes (.invalid bits) s { cause := 0x01, mask := s.me.live }

/-! ### Control registers, the control core and the restart of work (R402 to R422) -/

/-- CSRR, CSRW and its two forms, RDCLK, RDTIME, PROGHINT. The moments and choices of log 3 (time) and 28 are the model's. -/
def Obligations.ControlRegisterResults : Prop :=
  ∀ (o : FmtS) (s : State),
    let n := o.csr.toNat
    let v : DWord := BitVec.ofNat 64 (readCsr s s.cur.g n)
    let a : DWord := BitVec.ofNat 64 (kOrImm64 s o.a)
    (guardG s o.h = true →
      (isControl s.cur.g = true ∨ n < 0x400 → exec (.csrr o) s = .next (putS o (readCsr s s.cur.g n) s))
      ∧ ((isControl s.cur.g = true ∨ n ≤ 2) → clean s (use1 o.a) →
          exec (.csrw o) s = .next (csrwAll o a s) ∧ exec (.csrwSet o) s = .next (csrwAll o (v ||| a) s)
          ∧ exec (.csrwClr o) s = .next (csrwAll o (v &&& ~~~a) s))
      ∧ exec (.rdclk o) s = .next (putS o
          ((if s.grpPavane s.cur.g then s.me.retired else cycleCount s (coreDie (placeCore s.cur.g))) % 2 ^ 64) s)
      ∧ exec (.rdtime o) s = .next (putS o (s.timeOf (coreDie (placeCore s.cur.g)) % 2 ^ 64) s)
      ∧ (clean s (use1 o.a) → exec (.proghint o) s = .next (s.updBlk s.me.block fun b =>
          { b with hint := kOrImm64 s o.a % 2 ^ 32, hintAt := s.clock }))
      -- a group that is no control core traps on the registers it may not reach
      ∧ (isControl s.cur.g = false → 0x400 ≤ n → takes (.csrr o) s (privTrap s))
      ∧ (isControl s.cur.g = false → 2 < n → ∀ i ∈ [Instr.csrw o, .csrwSet o, .csrwClr o], takes i s (privTrap s)))
    ∧ (guardG s o.h = false →
        ∀ i ∈ [Instr.csrr o, .csrw o, .csrwSet o, .csrwClr o, .rdclk o, .rdtime o, .proghint o], exec i s = .next s)

/-- The control core's instructions on the group that a handle names. The moments and choices of log 58 are the model's. -/
def Obligations.GroupAccessResults : Prop :=
  ∀ (o : FmtS) (s : State), isControl s.cur.g = true →
    (guardG s o.h = true →
      (clean s (use1 o.a) → exec (.gstatr o) s = .next (
        match handleArg s o.a with
        | some g =>
          if (s.grp g).halt then (putS o (readItem s g o.sfn) s).updMe fun x => setG x 0 true
          else (putS o 0 s).updMe fun x => setG x 0 false
        | none => (putS o 0 s).updMe fun x => setG x 0 false))
      ∧ (clean s (use1 o.d ++ use1 o.a) → exec (.gstatw o) s = .next (
        match handleArg s o.d with
        | some g =>
          if (s.grp g).halt then
            (s.updGrp g fun x => writeItem x o.sfn (readK s.seen (o.a.toNat - 0x100))).updMe fun x => setG x 0 true
          else s.updMe fun x => setG x 0 false
        | none => s.updMe fun x => setG x 0 false))
      ∧ (clean s (use1 o.a) → handleArg s o.a = none →
          ∀ i ∈ [Instr.gresume o, .gresumeReplay o, .halt o, .haltBlk o], exec i s = .next s)
      ∧ (∀ g, clean s (use1 o.a) → handleArg s o.a = some g →
          exec (.gresume o) s = .next (resumeGroup s g) ∧ exec (.gresumeReplay o) s = .next (replayGroup s g)
          ∧ exec (.halt o) s = .next (if (s.grp g).halt then s else haltGroup s g)
          ∧ exec (.haltBlk o) s = .next ((s.groupsOf (s.grp g).block).foldl haltOne s))
      ∧ exec (.eret o) s = .next (endHandler s (quadOf (placeCore s.cur.g))))
    ∧ (guardG s o.h = false →
        ∀ i ∈ [Instr.gstatr o, .gstatw o, .gresume o, .gresumeReplay o, .halt o, .haltBlk o, .eret o], exec i s = .next s)

/-- On any group but a control core's, the privileged instructions trap whatever their guard. The moments and choices of log
59 are the model's. -/
def Obligations.PrivilegedTraps : Prop :=
  ∀ (o : FmtS) (e : FmtE) (s : State), isControl s.cur.g = false →
    ∀ i ∈ [Instr.gstatr o, .gstatw o, .gresume o, .gresumeReplay o, .halt o, .haltBlk o, .eret o, .mdrain e, .mrestore e,
           .mresumeMatrix e, .mresumeCopy e, .mresumeQuery e],
      takes i s { cause := 0x1C, mask := s.me.resident }

/-- MDRAIN writes the block's drain image, poisoned where an element it reads is, and freezes its matrix work; MRESTORE takes an image; MRESUME lets one stopped
piece of work go on. The moments and choices of log 60 are the model's. -/
def Obligations.RestartResults : Prop :=
  ∀ (o : FmtE) (s : State), isControl s.cur.g = true →
    let va := readK s.seen (o.a.toNat - 0x100)
    (guardG s o.h = true → clean s (use1 o.a ++ use1 (WF.efF o 43)) →
      (va % 64 = 0 → (∀ g, handleE s o = some g → allHalted s (s.grp g).block = false) →
        exec (.mdrain o) s = .next (putK o 3 0 s) ∧ ((readRange s (xlGrp s s.cur.g needR) va 64).isOk = true →
          exec (.mrestore o) s = .next (putK o 3 1 s)))
      ∧ (∀ g t, va % 64 = 0 → handleE s o = some g → allHalted s (s.grp g).block = true →
          writeRange s (xlGrp s s.cur.g needW) va (drainImage s (s.grp g).block) = .ok t →
          exec (.mdrain o) s = .next (putK o 3 (drainImage s (s.grp g).block).length (freezeMat (s.grp g).block
            ((drainBad s (s.grp g).block).foldl (fun t k => spoilAt t (xlGrp s s.cur.g needW) (va + k)) t))))
      ∧ (∀ g hd bs, va % 64 = 0 → handleE s o = some g → allHalted s (s.grp g).block = true →
          readRange s (xlGrp s s.cur.g needR) va 64 = .ok hd → drainHeaderOk (s.blk (s.grp g).block) hd = true →
          readRange s (xlGrp s s.cur.g needR) va (drainSize hd) = .ok bs →
          (∀ x ∈ imageOps s (s.grp g).block g bs, x.isSome = true) →
          tablesHold s (s.grp g).block (s.blk (s.grp g).block).key ((imageOps s (s.grp g).block g bs).filterMap id) = true →
          exec (.mrestore o) s = .next (putK o 3 0 (restoreImage (s.grp g).block hd bs ((imageOps s (s.grp g).block g bs).filterMap id) s)))
      ∧ (∀ g, handleE s o = some g →
          (∀ e, stoppedMat s (s.grp g).block va = some e → resumeWaits s o = false →
            exec (.mresumeMatrix o) s = .next (putK o 3 0 (restartMat s e.1 e.2)))
          ∧ (∀ e, copyOf s (s.grp g).block va = some e → e.2.fault.isSome = true →
            exec (.mresumeCopy o) s = .next (putK o 3 0 { s with copies := spPut s.copies e.1 { e.2 with fault := none } }))
          ∧ (∀ e, s.queries.find? (fun e => e.2.block = (s.grp g).block && e.2.serial = va && e.2.state = .stopped) = some e →
            exec (.mresumeQuery o) s = .next (
              if (e.2.fault.map fun f => f.cause) = some badStruct then putK o 3 2 s
              else putK o 3 0 (s.setQry e.1 { e.2 with state := .running, fault := none, told := false })))))
    ∧ (guardG s o.h = false →
        ∀ i ∈ [Instr.mdrain o, .mrestore o, .mresumeMatrix o, .mresumeCopy o, .mresumeQuery o], exec i s = .next s)

/-! ### The copy engine and working sets (R282 to R298, R325) -/

/-- CPY, CPYG and CPYS queue the copy their shape record describes, moved by their tile coordinates; CPYI queues one run.
The moments and choices of log 10 (the promise) and 47 are the model's. -/
def Obligations.CopyResults : Prop :=
  ∀ (o : FmtE) (s : State),
    (guardG s o.h = true →
      (∀ bs s0 idx (i : Instr) (kind sk : Nat), (i, kind, sk) ∈ [(Instr.cpy o, 1, 0), (.cpyg o, 3, 1), (.cpys o, 4, 1)] →
        copyRecord s o % 64 = 0 → recordBytes s (copyRecord s o) 192 = .ok (bs, s0) →
        let s1 := if sk = 1 && (shapeOf bs).kind = 1 then
            settleRange s0 (xlGrp s0 s0.cur.g needR) (shapeOf bs).idxptr (4 * min 32 ((shapeOf bs).box.getD 1 0)) else s0
        copyIndices s1 sk (shapeOf bs) = .ok idx → copyShapeOk s1 o sk bs = true →
        copyGood o (newCopy o kind (copyShape s1 o (shapeOf bs)) idx false (copyRecord s o) s1) s1 →
        exec i s = .next (queueCopy o (newCopy o kind (copyShape s1 o (shapeOf bs)) idx false (copyRecord s o) s1) s1))
      ∧ (cpyiOk s o = true → copyGood o (newCopy o 2 (cpyiShape s o) [] true 0 s) s →
        exec (.cpyi o) s = .next (queueCopy o (newCopy o 2 (cpyiShape s o) [] true 0 s) s)))
    ∧ (guardG s o.h = false → ∀ i ∈ [Instr.cpy o, .cpyg o, .cpys o, .cpyi o], exec i s = .next s)

/-- CPYQ goes on when its copy is complete, CPYQ.all when all of the group's are; CPYQ.test and CPYQ.stat answer; CPYX
cancels. The moments and choices of log 47 and 50 are the model's. -/
def Obligations.CopyQueryResults : Prop :=
  ∀ (o : FmtE) (s : State),
    let t := readK s.seen (o.a.toNat - 0x100)
    (guardG s o.h = true → tokenOk t = true → clean s (use1 o.a) →
      ((∀ e, copyOf s s.me.block t = some e → e.2.complete = true) → exec (.cpyq o) s = .next s)
      ∧ exec (.cpyqTest o) s = .next (s.updMe fun x =>
          let x := latchRes x o.h 3 0 (if copyTested s t then 1 else 0)
          if o.h.s then x else setG x (WF.ef o 2 0) (copyTested s t))
      ∧ exec (.cpyqStat o) s = .next (putK o 3 (((copyOf s s.me.block t).map fun e => e.2.status).getD 1) s)
      ∧ exec (.cpyx o) s = .next (cancelCopy t s))
    ∧ (guardG s o.h = true → (∀ e ∈ s.copies, e.2.g = s.cur.g → e.2.uid = s.me.uid → e.2.complete = true) →
        exec (.cpyqAll o) s = .next s)
    -- a token that is none is a shape trap
    ∧ (guardG s o.h = true → tokenOk t = false → ∀ i ∈ [Instr.cpyq o, .cpyqTest o, .cpyqStat o, .cpyx o],
        takes i s { cause := 0x0B, addr := t, mask := s.me.resident, tok := t })
    ∧ (guardG s o.h = false → ∀ i ∈ [Instr.cpyq o, .cpyqAll o, .cpyqTest o, .cpyqStat o, .cpyx o], exec i s = .next s)

/-- WSSTAGE begins staging the ranges its mask selects to L2; WSDROP ends such staging. The moments and choices of log 62
are the model's. -/
def Obligations.WorkingSetResults : Prop :=
  ∀ (o : FmtE) (s : State) (pa : Nat) (h r : List Byte),
    let va := eAddr s o.a 0
    let s1 := settleRange s (xlGrp s s.cur.g needR) va 192
    structGood o (use1 o.a ++ use1 (WF.efF o 43)) 64 64 needR s pa →
    readRange s1 (xlGrp s1 s1.cur.g needR) va 64 = .ok h → headerOk h = true →
    readRange s1 (xlGrp s1 s1.cur.g needR) (va + 64) (16 * le h 0 1) = .ok r →
    let is := (List.range (le (h ++ r) 0 1)).filter fun i => (WF.ef o 42 35).testBit i && entryOk (h ++ r) i
    exec (.wsstage o) s = .next (stageRanges (WF.ef o 34 34 = 1) (h ++ r) (e32 s1 true (WF.efF o 43) 0) is s1)
    ∧ exec (.wsdrop o) s = .next (dropRanges (h ++ r) (e32 s1 true (WF.efF o 43) 0) is s1)

/-! ### The matrix engine and the accumulators (R171 to R190) -/

/-- MMS, MMX and MMI enter the reservation table with the operands their records describe. The moments and choices of log 47
and 56 are the model's. -/
def Obligations.MultiplyResults : Prop :=
  ∀ (o : FmtE) (s s1 s2 : State) (ab bb : List Byte) (i : Instr) (kind : Nat),
    (i, kind) ∈ [(Instr.mms o, 1), (.mmx o, 2), (.mmi o, 3)] →
    let op := mmOf kind i o s
    let ra := shapeOf ab
    let rb := shapeOf bb
    guardG s o.h = true → spFind (established s op.block) op.tile = some (kind != 1) → tileReady s op true →
    op.arec % 64 = 0 → op.brec % 64 = 0 →
    recordBytes s op.arec 192 = .ok (ab, s1) → recordBytes s1 op.brec 192 = .ok (bb, s2) →
    (matShape ab ra op.aspc && matType kind true ra.etype) = true → (matShape bb rb op.bspc && matType kind false rb.etype) = true →
    (op.aspc = 1 → inScratchpad s2 (opdBytes ra op.arow op.akp op.n)) →
    (op.bspc = 1 → inScratchpad s2 (opdBytes rb op.bcol op.bkp op.n)) →
    entryReady i s2 { op with a := ra, b := rb } →
    exec i s = .next (queueMat o { op with a := ra, b := rb } s2)

/-- ACZ, ACLD and ACST enter the transfer queue. The moments and choices of log 56 are the model's. -/
def Obligations.AccumulatorResults : Prop :=
  ∀ (o : FmtE) (s : State), guardG s o.h = true →
    (let op := aczOf o s
     tileReady s op false → entryReady (.acz o) s op → exec (.acz o) s = .next (queueMat o op s))
    ∧ (let op := acldOf o s
       let s1 := spaceSettle s op op.aspc (op.arec + rawTrailer op.w64) 64
       ∀ bs, tileReady s op false → op.arec % 64 = 0 → spaceOpen s op op.aspc (op.arec + rawTrailer op.w64) 64 = true →
         spaceRead s1 op op.aspc (op.arec + rawTrailer op.w64) 64 = .ok bs → trailerOk op.w64 bs = true →
         (op.aspc = 1 → inScratchpad s1 ((List.range (rawSize op.w64)).map (op.arec + ·))) →
         entryReady (.acld o) s1 op → exec (.acld o) s = .next (queueMat o op s1))
    ∧ (∀ w64, spFind (established s s.me.block) (WF.ef o 52 48) = some w64 → convergedGroup s.me = true →
       let op := acstOf o w64 s
       (op.kind = 6 → op.aspc = 2 → (s.grpLch s.cur.g).flag 4 = true) → op.arec % 64 = 0 →
         (op.fmt = 5 → (op.aspc = 1 → inScratchpad s ((List.range (rawSize w64)).map (op.arec + ·))) →
           entryReady (.acst o) s op → exec (.acst o) s = .next (queueMat o op s))
         ∧ (∀ bs s1, op.fmt ≠ 5 → recordBytes s op.arec 192 = .ok (bs, s1) →
             (matShape bs (shapeOf bs) op.aspc && (shapeOf bs).etype = outType op.fmt) = true →
             (op.aspc = 1 → inScratchpad s1 (outBytes op (shapeOf bs))) →
             (op.kind = 6 → op.aspc = 2 → (s1.grpLch s1.cur.g).flag 4 = true) →
             entryReady (.acst o) s1 { op with a := shapeOf bs } →
             exec (.acst o) s = .next (queueMat o { op with a := shapeOf bs } s1)))

/-- MWAIT, MSTATR, ACRD and SLICE; an ACRD that names a poisoned element traps. The moments and choices of log 56 are the model's. -/
def Obligations.MatrixReadResults : Prop :=
  ∀ (o : FmtE) (s : State),
    let t := readK s.seen (o.a.toNat - 0x100)
    let tile := WF.ef o 52 48
    let held := (spFind (established s (tileBlock s)) tile).isSome
    (guardG s o.h = true → clean s (use1 o.a) →
      (t < 2 ^ 32 && natBits t 7 5 ≠ 0 && natBits t 7 5 ≠ 7 && natBits t 4 0 < (s.blk s.me.block).acc) = true →
        (tokenOps s s.me.block t = [] → exec (.mwait o) s = .next s)
        ∧ exec (.mwaitTest o) s = .next (s.updMe fun x =>
            let x := latchRes x o.h 3 0 (if matTested s t then 1 else 0)
            if o.h.s then x else setG x (WF.ef o 2 0) (matTested s t)))
    ∧ (ownMat s = [] → exec (.mwaitAll o) s = .next s)
    ∧ (guardG s o.h = true → held = true → exec (.mstatr o) s = .next (
        let x := tileAt s (tileBlock s) tile
        (putK o 3 (tileStatus s (tileBlock s) tile) s).updMe fun y =>
          setK (setK y (WF.ef o 47 38 - 0x100) x.tileBound) (WF.ef o 37 28 - 0x100) x.sticky))
    ∧ (held = true → good s (use1 (WF.efF o 38)) (participants s o.h) → tileComing s (tileBlock s) tile = false → acrdBad o s (participants s o.h) = [] →
        exec (.acrd o) s = .next (if participants s o.h = [] then s else readElems o (participants s o.h) s))
    ∧ (held = true → good s (use1 (WF.efF o 38)) (participants s o.h) → tileComing s (tileBlock s) tile = false →
        acrdBad o s (participants s o.h) ≠ [] →
        takes (.acrd o) s { cause := cPoison, mask := maskOf fun t => (acrdBad o s (participants s o.h)).contains t })
    ∧ (good s (use2 o.a ++ use1 (WF.efF o 43)) (runners s o.h) →
        exec (.slice o) s = .next (putEach o (if o.h.rm.toNat = 0 then 6 else 11) ((runners s o.h).map fun t => (t, sliceVal o s t)) s))
    ∧ (guardG s o.h = false →
        ∀ i ∈ [Instr.mms o, .mmx o, .mmi o, .acz o, .acld o, .acst o, .mwait o, .mwaitTest o, .mwaitAll o, .mstatr o],
          exec i s = .next s)

/-! ### Rays, beams and coverage (R209 to R219) -/

/-- RQ and BQ start one query per participant from its record; RQR one per participant from a log. The moments and choices
of log 42 are the model's. -/
def Obligations.QueryResults : Prop :=
  ∀ (o : FmtE) (s : State),
    let ts := participants s o.h
    (∀ i beam, (i, beam) ∈ [(Instr.rq o, false), (.bq o, true)] →
      good s (queryUses o beam) ts → (∀ x ∈ queryTargets o beam s ts, targetGood s x) → arraysAligned o beam s ts →
      (beam = true → ∀ t ∈ ts, beamOk (efCrs o) (queryRec o beam s t) = true) →
      (efLog o = true → ∀ t ∈ ts, logFresh (structBytes s needRW (eAddr s (lsrcOf o) t) 64) = true) →
      bindingServes o s → exec i s = .next (startQueries o beam ts (settleTargets (queryTargets o beam s ts) s)))
    ∧ (let beam := decide (o.h.rm.toNat = 1)
       good s (replayUses o beam) ts → (∀ t ∈ ts, targetGood s (target s o.a 64 64 needR t)) → arraysAligned o beam s ts →
       (∀ t ∈ ts, logReplayable beam (replayHdr o s t) = true) → (∀ t ∈ ts, targetGood s (replayTarget o beam s t)) →
       (beam = true → ∀ t ∈ ts, beamOk (replayCoarse o s t) (replayRec o beam s t) = true) →
       bindingServes o s → exec (.rqr o) s = .next (startReplays o beam ts
         (settleTargets (ts.map (target s o.a 64 64 needR) ++ ts.map (replayTarget o beam s)) s)))

/-- HACC and HREJ finish the live records that their participants name, HACC with a hit inside the record's box. The moments
and choices of log 39 are the model's. -/
def Obligations.HitResults : Prop :=
  ∀ (o : FmtE) (s : State),
    let ts := participants s o.h
    let xs := ts.map fun t => (t, ((splitAt s (s.ctxOf s.cur.g) (eAddr s o.a t)).getD none).map (·.1))
    (∀ t ∈ ts, (splitAt s (s.ctxOf s.cur.g) (eAddr s o.a t)).isSome = true) → ((∃ x ∈ xs, x.2.isSome = true) → releaseReady s) →
    (good s (haccUses o) ts → (∀ x ∈ xs, ∀ k, x.2 = some k → outsideBox s k (haccT o s x.1) = false) →
      exec (.hacc o) s = .next (acceptHits o xs s))
    ∧ (good s (use2 o.a) ts → exec (.hrej o) s = .next (rejectHits xs s))

/-- SPCFG and BVHREF set a binding; COVER starts a coverage query; TRIEM appends triangles. The moments and choices of log
45 and 46 are the model's. -/
def Obligations.BindingResults : Prop :=
  ∀ (o : FmtE) (s : State),
    let va := eAddr s o.a 0
    let bs := structBytes s needR va 64
    (∀ core, record64 o (use1 o.a) s → spawnCfgOk bs = true → targetGood s (target64 (spawnCfg bs).ring needRW) →
      spawnRingOk s (spawnCfg bs) = true → spawnReserve s (efBind o) (spawnCfg bs) = some core →
      bindQuiet s s.me.block (efBind o) = true → exec (.spcfg o) s = .next
        (takeSpawn (efBind o) (spawnCfg bs) core (settleTargets [target64 va needR, target64 (spawnCfg bs).ring needRW] s)))
    ∧ (record64 o (use1 o.a) s → bvhOk bs = true → exec (.bvhref o) s = .next (
        let s := settleTargets [target64 va needR] s
        setBind s s.me.block (efBind o) { s.bindOf s.me.block (efBind o) with bvh := some (bvhOf bs) }))
    ∧ (record64 o (use1 o.a ++ use1 (WF.efF o 28) ++ use1 (WF.efF o 18)) s → streamOk bs = true →
        (s.bindOf s.me.block (efBind o)).spawn.isSome = true → inSpawn s = false →
        exec (.cover o) s = .next (acceptQuery (settleTargets [target64 va needR] s) (coverFor o s)))
    ∧ (let ts := participants s o.h
       good s (triemUses o) ts → (∀ t ∈ ts, targetGood s (target s o.a 64 64 needRW t)) →
        (∀ t ∈ ts, streamOk (structBytes s needRW (eAddr s o.a t) 64) = true) →
        exec (.triem o) s = .next (if ts = [] then s else appendTris o ts s))
    ∧ (guardG s o.h = false → ∀ i ∈ [Instr.spcfg o, .bvhref o, .cover o], exec i s = .next s)

/-! ### Rings and queues (R349 to R357) -/

/-- RAWAIT leaves its track; it is answered at once when the granules are there, else it becomes a waiter. RCLAIM, RCOMMIT
and RRETIRE at the ring's home slice, and what they answer on a header that is broken or a spawn ring's. The moments and
choices of log 30 and 32 are the model's. -/
def Obligations.RingResults : Prop :=
  ∀ (o : FmtE) (s : State) (pa : Nat),
    let va := eAddr s o.a 0
    let s1 := settleLine s (lineOf pa)
    let fits (n : Nat) : Prop := ringBad s1 pa = none ∧ ringSpawn (ringHdr s1 pa) = false ∧ countOk64 n = true
    (structGood o (use1 o.a ++ use1 (WF.efF o 43)) 64 64 needRW s pa →
      let n := eCount s (WF.efF o 43)
      (fits n → exec (.rclaim o) s = .next (eAcquire o (putK o 3 (claimRing s1 pa n).2 (claimRing s1 pa n).1)))
      ∧ (ringBad s1 pa = none → ringSpawn (ringHdr s1 pa) = true ∨ countOk64 n = false →
          exec (.rclaim o) s = .next (putK o 3 (2 ^ 63) s1))
      ∧ (∀ c, ringBad s1 pa = some c → exec (.rclaim o) s = .next (putK o 3 (2 ^ 63) (structFault s1 c va))))
    ∧ (structGood o (use1 o.a ++ use1 (WF.efF o 43) ++ use1 (WF.efF o 33)) 64 64 needRW s pa →
      let i := e64 s true (WF.efF o 43) 0
      let n := eCount s (WF.efF o 33)
      (∀ r, fits n → releaseReady s1 → settle (eRelease o s1) pa false i n = some r →
        exec (.rcommit o) s = .next (serveRing (putK o 2 r.2 r.1) pa))
      ∧ (∀ r, fits n → releaseReady s1 → settle (eRelease o s1) pa true i n = some r →
        exec (.rretire o) s = .next (serveRing (putK o 2 r.2 r.1) pa))
      ∧ (ringBad s1 pa = none → ringSpawn (ringHdr s1 pa) = true ∨ countOk64 n = false →
          exec (.rcommit o) s = .next (putK o 2 2 s1) ∧ exec (.rretire o) s = .next (putK o 2 2 s1)))
    ∧ (let g := s.cur.g
       let s2 := settleLine (blockOn s g .rawait) (lineOf pa)
       structGood o (use1 o.a ++ use1 (WF.efF o 43)) 64 64 needRW s pa → ringBad s2 pa = none → ringSpawn (ringHdr s2 pa) = false →
       (let n := eCount s (WF.efF o 43)
        countOk64 n = true → exec (.rawaitTake o) s = .next (
          match tryTake s2 pa n with
          | some r => makeReady (eAcquire o (replyK r.1 g s.me.uid o r.2)) g
          | none => addWaiter s2 pa (.take g s.me.uid n o)))
       ∧ (let n := e64 s true (WF.efF o 43) 0
          exec (.rawaitAt o) s = .next (
            if n ≤ (ringHdr s2 pa).committed then makeReady (eAcquire o s2) g else addWaiter s2 pa (.at_ g s2.me.uid n o))))

/-- ENQ and DEQ make one request for each queue header that their participants name. The moments and choices of log 30 to 32
are the model's. -/
def Obligations.QueueResults : Prop :=
  ∀ (o : FmtE) (s : State) (ps : List Named), runners s o.h ≠ [] →
    (structsGood o (use2 o.a ++ use2 (WF.efF o 43) ++ use2 (WF.efF o 33)) 64 64 needRW s ps → releaseReady s →
      exec (.enq o) s = .next ((byStruct ps).foldl (enqOne o s) (eRelease o s)))
    ∧ (structsGood o (use2 o.a) 64 64 needRW s ps →
      let r := (byStruct ps).foldl (deqOne o) (s, false)
      exec (.deq o) s = .next (if r.2 then blockOn r.1 r.1.cur.g .deq else eAcquire o r.1))

/-! ### Tasks, continuations and messages (R358 to R377) -/

/-- SIGNAL, PUBLISH, ITREP, LAUNCH and LAUNCH.graph. The moments and choices of log 63, 69 and 70 are the model's. -/
def Obligations.TaskResults : Prop :=
  ∀ (o : FmtE) (s : State) (pa : Nat) (ps : List Named),
    let va := eAddr s o.a 0
    let released := doRelease s s.cur.g 4
    releaseReady s →
    (runners s o.h ≠ [] → structsGood o (use2 o.a ++ use1 (WF.efF o 43)) 64 64 needRW s ps →
      (∀ t ∈ runners s o.h, sigCountOk o s t = true) → exec (.signal o) s = .next (signalEach o s ps s))
    ∧ (structGood o (use1 o.a ++ use1 (WF.efF o 43)) 64 64 needRW s pa → exec (.publish o) s = .next (publishNow o va pa s))
    ∧ (runners s o.h ≠ [] → structsGood o (use2 o.a ++ use2 (WF.efF o 43) ++ use2 (WF.efF o 33)) 32 32 needRW s ps →
        exec (.itrep o) s = .next (ps.foldl (offerOne o s) (eRelease o s)))
    ∧ (∀ bs, structGood o (use1 o.a) 64 128 needR s pa → readRange released (xlGrp released released.cur.g needR) va 128 = .ok bs →
        exec (.launch o) s = .next
          (submitRecord o va bs (settleRange released (xlGrp released released.cur.g needR) va 128)))
    ∧ (structGood o (graphUses o) 64 64 needR s pa → graphDone o s % 8 = 0 → pathsOn s (coreDie (placeCore s.cur.g)) < 256 →
        exec (.launchGraph o) s = .next (startWalk o va (graphDone o s) s))
    ∧ (runners s o.h = [] → ∀ i ∈ [Instr.signal o, .itrep o], exec i s = .next s)
    ∧ (guardG s o.h = false → ∀ i ∈ [Instr.publish o, .launch o, .launchGraph o], exec i s = .next s)

/-- CONT writes the record and suspends the group; a group that may not suspend traps. The moments and choices of log 68 are
the model's. -/
def Obligations.ContinuationResults : Prop :=
  ∀ (o : FmtE) (s t : State) (pa qa wpa : Nat),
    let va := eAddr s o.a 0
    let s1 := doRelease s s.cur.g 4
    (guardG s o.h = true → contAllowed s = true → good s (readsOf (.cont o)) [0] →
      structAt s 64 (contSize o) needW va pa → structAt s 64 64 needRW (contQueue o s) qa →
      (if contWk o = 0 then wpa = 0 else structAt s (contAlign o) (contAlign o) (contNeed o) (contWaddr o s) wpa) →
      releaseReady s → writeRange s1 (xlGrp s1 s1.cur.g needW) va (contRecord o s1) = .ok t →
      exec (.cont o) s = .next (suspend o s1 va wpa t))
    ∧ (guardG s o.h = true → contAllowed s = false → takes (.cont o) s { cause := 0x06, mask := s.me.resident })
    ∧ (guardG s o.h = false → exec (.cont o) s = .next s)

/-- SEND puts its message on the ring; RECVP posts a receive; RECVW answers a completed one, and waits for one that is not;
PROBE and PROBE.tok answer without waiting. The moments and choices of log 10 and 71 (a free value) are the model's. -/
def Obligations.MessageResults : Prop :=
  ∀ (o : FmtE) (s : State) (pa : Nat),
    let released := settleRange (eRelease o s) (xlGrp (eRelease o s) (eRelease o s).cur.g needR) (sendAddr o s) (sendLen o s)
    (∀ bs, guardG s o.h = true → good s (sendUses o) [0] → lenOk (sendLen o s) = true → destOk s (sendDest o s) = true →
      structAt s 16 (sendLen o s) needR (sendAddr o s) pa → sendFull s = false → releaseReady s →
      readRange released (xlGrp released released.cur.g needR) (sendAddr o s) (sendLen o s) = .ok bs →
      exec (.send o) s = .next (sendPacket o bs released))
    ∧ (guardG s o.h = true → good s (recvUses o) [0] → recvPort o s ≤ 63 → lenOk (recvCap o s) = true →
        structAt s 16 (recvCap o s) needW (eAddr s o.a 0) pa → recvFull s (ownPort s (recvPort o s)) = false →
        exec (.recvp o) s = .next (postRecv o (eAddr s o.a 0) s))
    ∧ (∀ r, guardG s o.h = true → good s (use1 o.a) [0] → recvOf s (readK s.seen (o.a.toNat - 0x100)) = some r →
        (r.status ≠ 0 → exec (.recvw o) s = .next (eAcquire o (putK o 3 r.status s)))
        ∧ (r.status = 0 → exec (.recvw o) s = .next (waitHere (.recv (readK s.seen (o.a.toNat - 0x100))) s))
        ∧ exec (.probeTok o) s = .next (putK o 3 r.status (s.updMe fun x => setG x (WF.ef o 18 16) (r.status ≠ 0))))
    ∧ (guardG s o.h = true → good s (probeUses o) [0] → recvPort o s ≤ 63 →
        exec (.probe o) s = .next (probeAnswer o (probeFind o s) s))
    ∧ (guardG s o.h = false → ∀ i ∈ [Instr.send o, .recvp o, .recvw o, .probe o, .probeTok o], exec i s = .next s)

/-! ### Acts of the groups, the cores and the control cores -/

/-- A line execution begins with the line that passes Table 3-2, or with its trap; a load completes; a posted write reaches
its home; a sleep ends; a parked group goes on; a quantum ends. Elsewhere these acts change nothing. The moments and choices
of log 1 to 3 are the model's. -/
def Obligations.GroupActResults : Prop :=
  ∀ (s : State) (g k core half : Nat),
    (let x := s.grp g
     let s0 : State := { s with cur := { g := g, off := x.pc } }
     canIssue s g = true → x.live ≠ 0 →
       (∀ r, checkLine s g (x.pc / 5) (x.pc % 5) false x.entering false = .ok r →
         exec (.lineExecution g) s = .next ((countCorrected s0 (coreDie (placeCore g)) r.2).updGrp g fun x =>
           beginLine x r.1 (idleImages s0 g (x.pc / 5))))
       ∧ (∀ t, checkLine s g (x.pc / 5) (x.pc % 5) false x.entering false = .error t →
         exec (.lineExecution g) s = .next (takeTrap s0 t)))
    ∧ (∀ l, spFind s.loads k = some l → loadWaits s l = false →
        exec (.loadDataArrival k) s = .next (completeLoad s k))
    ∧ (∀ w, spFind s.posted k = some w → ((s.posted.find? fun e => e.2.line = w.line && (e.2.core = w.core || e.2.written)).map (·.1)) = some k →
        exec (.writePerformed k) s = .next (
          if w.written then performTo (.near (w.invs.getD (s.fresh.1 % w.invs.length) 0)) s.fresh.2 k else performTo .home s k))
    ∧ (s.hasGrp g = true → sleepOver s g = true ∨ (emptyTurns s g).isSome = true →
        exec (.sleepWake g) s = .next (makeReady (s.updCore (placeCore g) fun c => { c with turns := max c.turns ((emptyTurns s g).getD 0) }) g))
    ∧ (s.hasGrp g = true → (s.grp g).parkWait = true → (s.grp g).parkAt + 512 ≤ s.clock →
        exec (.parkReissue g) s = .next (s.updGrp g fun x => { x with parkWait := false }))
    ∧ (∀ e, longestHeld s core half = some e → (pickReady s core half fun _ => false).isSome = true → 16384 ≤ e.2.tenure →
        s.grpPavane e.1 = false → exec (.quantum core half) s = .next (swapOut s e.1))
    ∧ (canIssue s g = false → exec (.lineExecution g) s = .next s)
    ∧ (spFind s.loads k = none → exec (.loadDataArrival k) s = .next s)
    ∧ (spFind s.posted k = none → exec (.writePerformed k) s = .next s)

/-- The control core takes its oldest trap when it runs no handler; a machine check and a reset act on a die that is
present; writes of control registers from outside the instruction stream; the power, thermal and refresh events. The moments
and choices of log 1, 24, 75 and 76 are the model's. -/
def Obligations.DieActResults : Prop :=
  ∀ (s : State) (quad g d csr : Nat) (v : DWord),
    (dieRuns s (quad / 12) = true → (s.handler quad).running = false → (s.handler quad).queue ≠ [] →
      exec (.trapDispatch quad) s = .next (takeOldest s quad))
    ∧ ((s.handler quad).running = true → exec (.trapDispatch quad) s = .next s)
    ∧ (diePresent s d = true → exec (.reset d) s = .next (resetDie s d)
        ∧ ((s.die d).mcheck = false → exec (.machineCheck d) s = .next (machineCheck (countLost s d 7 none) d))
        ∧ ((s.die d).mcheck = true → exec (.machineCheck d) s = .next s))
    ∧ (s.hasGrp g = true → exec (.modeWrite g v) s = .next (writeCsr s g 0 v)
      ∧ (csr = 1 ∨ csr = 2 ∨ (csr = 0x409 ∧ isControl g = true) → exec (.csrWrite g csr v) s = .next (writeCsr s g csr v)))
    ∧ (diePresent s d = true →
        exec (.rwaysWrite d v) s = .next (writeRways s d v) ∧ exec (.refcalWrite d v) s = .next (writeRefcal s d v)
        ∧ exec (.pavaneWrite d v) s = .next (writePavane s d v) ∧ exec (.ringpoolWrite d v) s = .next (writeRingpool s d v)
        ∧ exec (.errcntWrite d v) s = .next (writeErrcnt s d v))
    ∧ (diePresent s d = false →
        ∀ i ∈ [Instr.rwaysWrite d v, .refcalWrite d v, .pavaneWrite d v, .ringpoolWrite d v, .errcntWrite d v], exec i s = .next s)
    ∧ (∀ watts, exec (.powerLimitThrottle watts) s = .next { s with
          powerThrottle := if 11000 ≤ watts then true else if watts < 10800 then false else s.powerThrottle })
    ∧ (∀ c r watts, ∃ t, exec (.regionPowerWindow d c r watts) s = .next t
        ∧ (t.throttled.contains (d, c, r) = decide ((regionOf s c r).power ≠ 0 ∧ (regionOf s c r).power < watts)))
    ∧ (∀ out, exec (.thermalThrottle out) s = .next { s with thermal := out })
    ∧ exec (.wsRefreshWindow d) s = .next s

/-! ### Acts of the Caller -/

/-- A die's next move is an admission, a placement or a restore; staging begins, lands a line, and ends at dispatch; a
launch completes, is cut by its deadline, or pre-empts; a block that stops is saved or flushed. The moments and choices of
log 1 to 3 and 63 to 67 are the model's. -/
def Obligations.CallerActResults : Prop :=
  ∀ (s : State) (d l bid range k b : Nat),
    (∀ c t, nextMove s d = some (c, t) →
      (c.kind = 0 → exec (.admission d) s = .next (refreshHeads t))
      ∧ (c.kind = 1 → exec (.blockPlacement d) s = .next (refreshHeads t))
      ∧ (c.kind = 2 → exec (.blockRestore d) s = .next (refreshHeads t))
      ∧ (c.kind ≠ 0 → exec (.admission d) s = .next s)
      ∧ (c.kind ≠ 1 → exec (.blockPlacement d) s = .next s)
      ∧ (c.kind ≠ 2 → exec (.blockRestore d) s = .next s))
    ∧ (stagingOk s d l bid range = true → exec (.staging d l bid range) s = .next (beginStaging d l bid range s))
    ∧ (∀ j, spFind s.stages k = some j → 0 < j.left → j.stopped = false → stageServed s k j = true →
        exec (.stagingLineLand k) s = .next (landLine s k j))
    ∧ (∀ b, spFind s.blocks k = some b → b.state = .placed → b.placedAt + 80000 ≤ s.clock →
        exec (.dispatchTimeout k) s = .next (dispatchBlock s k))
    ∧ ((spFind s.launches l).isSome = true → launchOver s (s.lch l) l = true → exec (.launchCompletion l) s = .next (endLaunch s l))
    ∧ (deadlineDue s l = true → exec (.deadline l) s = .next
        ((deadlineGroups s l).foldl (fun s g => raiseAt s g (s.grp g).pc { cause := 0x1B, mask := (s.grp g).resident })
          (s.updLch l fun x => { x with reason := 0x1B })))
    ∧ (∀ i vs, headShare s d l = some i → tryHead s d l i = none → tryHead ((goingOut s).foldl discardBlock s) d l i = none →
        victimPrefix ((goingOut s).foldl discardBlock s) d l i [] (victimsOf s (victimFor s d l)) = some vs →
        exec (.preemptionRequest d l) s = .next (preemptAll (s.lch l) vs s))
    ∧ (leavesNow s b = true →
        ((s.blk b).flushing = true → exec (.blockSave b) s = .next (flushBlock s b))
        ∧ ((s.blk b).flushing = false → saveReady s b = true → exec (.blockSave b) s = .next (saveBlock (haltForSave s b) b)))
    ∧ (leavesNow s b = false → exec (.blockSave b) s = .next s)
    ∧ (deadlineDue s l = false → exec (.deadline l) s = .next s)
    ∧ (launchOver s (s.lch l) l = false → exec (.launchCompletion l) s = .next s)

/-! ### Acts of the engines and the home slices -/

/-- The matrix engine grants passes, commits K-steps and completes transfers; a row of a copy lands, a promise is missed; a
query takes its next step, tries a held record again, or completes; a spawn group forms and is placed. The moments and
choices of log 1 to 3, 17 and 43 are the model's. -/
def Obligations.EngineActResults : Prop :=
  ∀ (s : State) (quad k row block bind : Nat),
    (∀ e, nextGrant s quad = some e → exec (.passGrant quad) s = .next (grantPass s quad e.1))
    ∧ (nextGrant s quad = none → exec (.passGrant quad) s = .next s)
    ∧ (∀ o, spFind s.matOps k = some o → o.ready s = true →
        (o.multiplies = true → o.kstep < o.n → o.passes = o.needed → panelFull s o = true →
          exec (.kStepCommit k) s = .next (commitStep s k o))
        ∧ (o.multiplies = false → o.kind ≠ 5 ∨ imageFull s o = true → exec (.transferComplete k) s = .next (runTransfer s k o)))
    ∧ (∀ c, spFind s.copies k = some c →
        (rowReady s c row = true → exec (.copyRowLand k row) s = .next (landRow s k row))
        ∧ (rowReady s c row = false → exec (.copyRowLand k row) s = .next s)
        ∧ (promiseBroken s c = true → exec (.promiseMissed k) s = .next (missPromise k c s))
        ∧ (promiseBroken s c = false → exec (.promiseMissed k) s = .next s))
    ∧ (∀ q, s.qry k = some q →
      (q.state = .running → exec (.queryTraversal k) s = .next (stepQuery s k q))
      ∧ (q.state = .held → exec (.queryHeldResume k) s = .next (stepQuery s k { q with state := .running }))
      ∧ (q.open_ = 0 → q.state = .ended ∨ abandoned s q = true → exec (.queryComplete k) s = .next (completeQuery s k q)))
    ∧ (s.qry k = none → ∀ i ∈ [Instr.queryTraversal k, .queryHeldResume k, .queryComplete k], exec i s = .next s)
    ∧ (spawnDue s block bind = true → exec (.spawnGroupTimeout block bind) s = .next (formGroup s block bind))
    ∧ (spawnDue s block bind = false → exec (.spawnGroupTimeout block bind) s = .next s)
    ∧ (∀ d x ck, firstFormed s d = some (k, x) → spawnCore s x = some ck →
        exec (.spawnGroupPlace d) s = .next (placeSpawn s k x ck))

/-- A request that found its table full comes again; a pavane queue's quantum is served; a continuation is released and
resumed. The moments and choices of log 1 to 3, 32 and 68 are the model's. -/
def Obligations.ServiceActResults : Prop :=
  ∀ (s : State) (k d slice : Nat),
    (∀ w, spFind s.waiters k = some w → comesAgain s w = true → exec (.waiterReissue k) s = .next (askAgain k w s))
    ∧ (∀ w, quantumOpener s (d * 32 + slice) = some w → w.since + 128 ≤ s.clock →
        exec (.pavaneDeqQuantum d slice) s = .next ((gathered s w).foldl gatherServe s))
    ∧ (∀ c, spFind s.conts k = some c → c.wk = 0 → c.released = false →
        (c.block = none → exec (.continuationRelease k) s = .next (releaseCont k c s))
        ∧ (∀ b bs, c.block = some b → (s.blk b).state = .affine → contRead s c.ctx c.va = .ok bs → contOwn s c b bs = true →
            contRoom s c b = true → exec (.continuationRelease k) s = .next
              (resumeAffine (settleRange s (xlCtx s c.ctx needR) c.va bs.length) k c b bs)))
    ∧ (∀ c, spFind s.conts k = some c → c.wk ≠ 0 ∨ c.released = true → exec (.continuationRelease k) s = .next s)
    ∧ (∀ t, ((s.die d).resumeQueues.findSome? fun q => takeResume s d q.1 q.2) = some t → dieRuns s d = true →
        exec (.continuationResume d) s = .next t)

/-- A walker's path performs the node it stands at, whose record is sound; a path whose walk has failed ends, and a bad node
or a failed translation fails the walk. The moments and choices of log 1, 2 and 70 are the model's. -/
def Obligations.GraphActResults : Prop :=
  ∀ (s : State) (p : Nat) (x : Path) (w : Walk), pathWalk s p = some (x, w) → x.waiting = none →
    let does (i : Instr) (kind : Nat) (f : Walk → List Byte → Nat → State → Option State) : Prop :=
      (w.failed = true → exec i s = .next (endPath s p))
      ∧ (w.failed = false → x.node % 64 ≠ 0 → exec i s = .next (failWalk s p))
      ∧ (∀ bs, w.failed = false → x.node % 64 = 0 → readRange s (xlCtx s w.ctx needR) x.node 64 = .ok bs →
          (nodeSound bs = false → exec i s = .next (failWalk s p))
          ∧ (nodeSound bs = true → nodeKind bs = kind → (let t := settleRange s (xlCtx s w.ctx needR) x.node 64
            exec i s = .next ((f w bs x.node t).getD (failWalk t p))))
          ∧ (nodeSound bs = true → nodeKind bs ≠ kind → exec i s = .next s))
    (forkFull s p = false → does (.graphLaunchNode p) 1 (launchNode p))
    ∧ does (.graphCondNode p) 2 (condNode p) ∧ does (.graphWhileNode p) 3 (whileNode p) ∧ does (.graphJoinNode p) 4 (joinNode p)
    ∧ does (.graphSignalNode p) 5 (signalNode p)

/-- A packet's flit advances behind its head; the head of one that is first on its way moves to the next die with room for it; a
packet that is whole at its own die is delivered; one whose die does not serve is dropped. The moments and choices of log 1, 2 and 72 are the model's. -/
def Obligations.RingActResults : Prop :=
  ∀ (s : State) (k : Nat) (x : Packet), spFind s.packets k = some x →
    (∀ y, x.fill s = some y → exec (.ringHop k) s = .next { s with packets := spPut s.packets k y })
    ∧ (x.tail ≠ [] → exec (.messageArrival k) s = .next s)
    ∧ (x.fill s = none → firstOut s k x = true → x.at_ ≠ x.dst → dieServes s x.dst = true →
      (∀ p, poolFor s x = some p → exec (.ringHop k) s = .next (hop k x p s))
      ∧ (poolFor s x = none → exec (.ringHop k) s = .next s))
    ∧ (x.tail = [] → firstOut s k x = true → x.at_ = x.dst → dieServes s x.dst = true →
        exec (.messageArrival k) s = .next (deliver { s with packets := spDel s.packets k } x.dst x))
    ∧ (dieServes s x.dst = false → firstOut s k x = true →
        (x.fill s = none → x.at_ ≠ x.dst → exec (.ringHop k) s = .next (dropPacket s k x))
        ∧ (x.tail = [] → x.at_ = x.dst → exec (.messageArrival k) s = .next (dropPacket s k x)))

/-! ### Frames from the host -/

/-- Each kind of request of a sound frame, and each MGMT operation, is received by the frame's session; a frame that is not
sound or has no session is dropped and counted by its port; the timers of a session (R395). The moments and choices of log
1, 73 and 74 are the model's. -/
def Obligations.FrameResults : Prop :=
  (∀ (f : Frame) (s : State), f.dport = s.udpPort → ethPorts.contains f.port = true → diePresent s f.port = true →
    let op := arg f 0 2
    let mgmt (n : Nat) : Bool := f.kind = 7 && op = n
    let events : List (Instr × Bool) := [
      (.rlpWrite f, f.kind = 2), (.rlpRead f, f.kind = 3), (.rlpAtomic f, f.kind = 4), (.rlpLaunch f, f.kind = 5), (.rlpAck f, f.kind = 8),
      (.mgmtCtxtab f, mgmt 1), (.mgmtKey f, mgmt 2), (.mgmtInval f, mgmt 3), (.mgmtResume f, mgmt 4), (.mgmtHalt f, mgmt 5),
      (.mgmtKill f, mgmt 6), (.mgmtPreempt f, mgmt 7), (.mgmtCsrr f, mgmt 8), (.mgmtCsrw f, mgmt 9), (.mgmtAttest f, mgmt 10),
      (.mgmtFwload f, mgmt 11), (.mgmtSavepool f, mgmt 12), (.mgmtPort f, mgmt 13), (.mgmtStatus f, mgmt 14), (.mgmtPhysw f, mgmt 15),
      (.mgmtPhysr f, mgmt 16), (.mgmtCharges f, mgmt 17), (.mgmtReset f, mgmt 18),
      (.unknownMgmtOperation f, f.kind = 7 && (op = 0 || 18 < op))]
    (frameSound f = true → ∀ x, sessionOf s f = some x → ∀ e ∈ events, e.2 = true → exec e.1 s = .next (receive s x f))
    ∧ (frameSound f = true → sessionOf s f = none → ∀ e ∈ events, e.2 = true → exec e.1 s = .next (dropFrame s f.port))
    ∧ (frameSound f = false → ∀ e ∈ events, exec e.1 s = .next (dropFrame s f.port))
    ∧ (frameSound f = true → f.kind = 1 → exec (.rlpHello f) s = .next (hello s f))
    ∧ (frameSound f = false → exec (.rlpHello f) s = .next (dropFrame s f.port)))
  ∧ (∀ (s : State) (sid seq : Nat) (x : Session), spFind s.sessions sid = some x →
    (x.ackDue.isSome = true → exec (.ackTimer sid) s = .next (sendAck sid x s))
    ∧ (x.ackDue = none → exec (.ackTimer sid) s = .next s)
    ∧ (∀ u, (x.unacked.find? fun u => u.frame.seq.toNat = seq) = some u →
        (u.at_ + 400000 ≤ s.clock → u.times < 33 → exec (.retransmit sid seq) s = .next (resend sid x u s))
        ∧ (u.at_ + 400000 ≤ s.clock → 33 ≤ u.times → exec (.retransmit sid seq) s = .next { s with sessions := spDel s.sessions sid })
        ∧ (s.clock < u.at_ + 400000 → exec (.retransmit sid seq) s = .next s))
    ∧ (x.heard + 40000000000 ≤ s.clock → exec (.sessionTimeout sid) s = .next { s with sessions := spDel s.sessions sid })
    ∧ (s.clock < x.heard + 40000000000 → exec (.sessionTimeout sid) s = .next s))

/-! ### Frames: what an instruction leaves unchanged -/

/-- A Format A instruction that completes changes nothing but D, its predicates, its latch and FSTAT of the group being issued;
the collective ones, those that each participant's own copy names. -/
def Obligations.LaneFrame : Prop :=
  ∀ (o : FmtA) (s : State),
    (∀ e ∈ laneInstrs o, frame e.1 s (laneFrame (if o.h.s then [] else destsOf e.1) (predDestsP e.2 o) (predDestsG e.2 o) [o.h.l.toNat]))
    ∧ (let mask := (List.range 7).filter fun p => (bitsNat (WF.fnv o) 7 1).testBit p
       let sets := (WF.fnv o).getLsbD 0
       frame (.pmov o) s (laneFrame (if sets then [] else destsOf (.pmov o)) (if sets && !o.h.u then mask else predDestsP false o)
         (if sets && o.h.u then mask else predDestsG false o) (if sets then [] else [o.h.l.toNat])))
    ∧ (let ts := participants s o.h
       (∀ t ∈ ts, (copyA s o t).h.rm = o.h.rm ∧ (copyA s o t).h.t = o.h.t) →
       ∀ e ∈ collectives o, wellFormed false e.1 = true →
         let d := e.2 = 0x44 && o.h.rm.toNat ≤ 2
         frame e.1 s (laneFrame (ts.flatMap fun t => destA e.2 (copyA s o t)) (ts.flatMap fun t => predDestsP d (copyA s o t))
           ((ts.flatMap fun t => predDestsG d (copyA s o t)) ++ if d && WF.pdc o && !o.h.s then [o.d.toNat % 8] else [])
           (ts.map fun t => (copyA s o t).h.l.toNat)))

/-- A Format M instruction that completes leaves every byte of memory and scratchpad unchanged but those it stores to, at the
places of its accesses, and every register and predicate but its destinations; FADDW where the slices' tables have room for its entries. -/
def Obligations.AccessFrame : Prop :=
  ∀ (o : FmtM) (s : State),
    (∀ i ∈ [.ld o, .ldw o, .pref o, .cflush o, .cinv o, .femark o, .fence o, .opfence o, .recfence o, .tokwait o, .tokpass o],
      frame i s (accessFrame o 0 [] [] [] []))
    ∧ frame (.fetest o) s (accessFrame o 0 [] [] (if o.h.s || o.h.u then [] else [o.d.toNat % 8])
        (if o.h.s || !o.h.u then [] else [o.d.toNat % 8]))
    ∧ frame (.wread o) s (accessFrame o 0 [] (destsOf (.wread o)) [] [])
    ∧ (wellFormed false (.cresize o) = true → frame (.cresize o) s (accessFrame o 0 [] (destsOf (.cresize o)) [] []))
    ∧ frame (.st o) s (accessFrame o (moveBytes o) (placed o true needW (fun s t => (storeData s o t, 0)) s) [] [] [])
    ∧ (∀ i ∈ [.atom o, .cas o, .atomsc o],
        frame i s (accessFrame o (atomBytes o) (placed o false needRW (dataBC o) s) (destsOf i) [] []))
    ∧ (wellFormed false (.faddw o) = true → weltsFit (runners s o.h).length s → frame (.faddw o) s (accessFrame o (atomBytes o) (placed o false needRW (dataBC o) s) [] [] []))
    ∧ (o.space.toNat ≠ 1 → frame (.wflush o) s (accessFrame o (atomBytes o) (placed o false needRW noData s) (destsOf (.wflush o)) [] []))
    ∧ (o.space.toNat ≠ 1 → frame (.redix o) s (accessFrame o 16
        (placed o false needRW (fun s t => (srcAs s o.h.u o.h.t.toNat o.b t, src32 s o.h.u o.c t)) s) (destsOf (.redix o)) [] []))

/-- A control or system instruction that completes stores nothing, and changes no register or predicate but its destination,
GSTATR also g0, CSRW to MODE or FSTAT that register. -/
def Obligations.ControlFrame : Prop :=
  (∀ s, frame .nop s (stillFrame [] [] []))
  ∧ (∀ (o : FmtC) (s : State), ∀ i ∈ controls o, wellFormed false i = true → frame i s (stillFrame (destsOf i) [] []))
  ∧ ∀ (o : FmtS) (s : State),
    (∀ i ∈ [.csrr o, .rdclk o, .rdtime o, .proghint o, .svc o, .eret o, .halt o, .haltBlk o], wellFormed false i = true →
      frame i s (stillFrame (destsOf i) [] []))
    ∧ (wellFormed false (.gstatr o) = true → frame (.gstatr o) s (stillFrame (destsOf (.gstatr o)) [] [0]))
    ∧ ∀ i ∈ [.csrw o, .csrwSet o, .csrwClr o], wellFormed false i = true → frame i s (csrFrame o.csr.toNat (destsOf i))

/-- An engine instruction that completes stores nothing itself, and changes no register or predicate but its destination, the
tests also the g predicate that efn names; the engines' own acts do the rest. -/
def Obligations.EngineFrame : Prop :=
  ∀ (o : FmtE) (s : State),
    (∀ i ∈ [.cpyq o, .cpyqAll o, .mwait o, .mwaitAll o, .bvhref o], frame i s (stillFrame [] [] []))
    ∧ (efLog o = false → ∀ i ∈ [.rq o, .bq o], frame i s (stillFrame [] [] []))
    ∧ (∀ i ∈ [.cpyqTest o, .mwaitTest o], frame i s (stillFrame [] [] [WF.ef o 2 0]))
    ∧ (WF.kTok o = true →
        (∀ i ∈ tokenIssuers o, frame i s (stillFrame (destsOf i) [] []))
        ∧ ∀ i ∈ [.probe o, .probeTok o], frame i s (stillFrame (destsOf i) [] [WF.ef o 18 16]))
    ∧ (wellFormed false (.slice o) = true → frame (.slice o) s (stillFrame (destsOf (.slice o)) [] []))

/-! ### What a result leaves, exceptions, reset, steps, encoding -/

/-- The results of a Format A instruction land where it names: D extended to the register by Table 4-2, the latch of each
runner (of all 64 threads for a uniform instruction) extended to 64 bits and valid, a predicate and q, and the flags in FSTAT. -/
def Obligations.ResultsLand : Prop :=
  ∀ (o : FmtA) (s : State) (f : Nat → Res),
    let t := writeAll (fun _ => o) ((runners s o.h).map fun i => (i, f i)) s
    (∀ i ∈ runners s o.h, (f i).skip = false →
      ((f i).pred = none →
        (o.h.s = false → WF.isV o.d = true →
          (tyWidth (f i).ty < 64 → readV t.me o.d.toNat i = extend (f i).ty 32 (f i).val)
          ∧ (tyWidth (f i).ty = 64 → readVPair t.me o.d.toNat i = (f i).val % 2 ^ 64))
        ∧ (o.h.s = false → WF.isK o.d = true → o.h.u = true → readK t.me (o.d.toNat - 0x100) = extend (f i).ty 64 (f i).val)
        ∧ (o.h.u = false → latchValid t.me o.h.l.toNat i = true ∧ readLatch t.me o.h.l.toNat i = extend (f i).ty 64 (f i).val)
        ∧ (o.h.u = true → ∀ j, j < 64 →
            latchValid t.me o.h.l.toNat j = true ∧ readLatch t.me o.h.l.toNat j = extend (f i).ty 64 (f i).val))
      ∧ (∀ v, (f i).pred = some v → o.h.s = false → o.d.toNat % 8 ≠ 7 →
          ¬ (WF.qv o = true ∧ bitsNat (WF.fnv o) 30 28 = o.d.toNat % 8 ∧ (f i).q.isSome = true) →
          (WF.pdc o = false → predP t.me (o.d.toNat % 8) i = v) ∧ (WF.pdc o = true → o.h.u = true → predG t.me (o.d.toNat % 8) = v))
      ∧ (∀ v, (f i).q = some v → WF.qv o = true → bitsNat (WF.fnv o) 30 28 ≠ 7 →
          (WF.pdc o = false → predP t.me (bitsNat (WF.fnv o) 30 28) i = v)
          ∧ (WF.pdc o = true → o.h.u = true → predG t.me (bitsNat (WF.fnv o) 30 28) = v)))
    ∧ t.me.fstat = s.me.fstat ||| BitVec.ofNat 64 (((runners s o.h).foldl (fun a i => a ||| (f i).flags) 0) % 32)

/-- Taking an exception: an issue that traps halts its group at the instruction, changes no register and no memory, and
enters the quadrille's trap queue with its trap registers; TRAP_DISPATCH starts the handler at TVEC + 5·cause, and ERET ends
it. A trap of a control core's own instruction is a machine check (R400 to R402, R413, R421). The moments and choices of log
1 and 24 are the model's. -/
def Obligations.ExceptionEntry : Prop :=
  (∀ (s : State) (t : Trap), isControl s.cur.g = false → s.me.halt = false →
    let u := takeTrap s t
    let q := quadOf (placeCore s.cur.g)
    u.me.halt = true ∧ u.me.byhalt = false ∧ u.me.cause = t.cause ∧ u.me.pc = s.cur.off ∧ u.me.line = none
    ∧ (s.grpPavane s.cur.g = false → spSorted 0 s.groups = true → u.me.track = none)
    ∧ (∀ g, sameFile (s.grp g) (u.grp g)) ∧ u.mem = s.mem
    ∧ ∃ r : TrapRegs, (u.handler q).queue = (s.handler q).queue ++ [{ group := some s.cur.g, regs := r }]
      ∧ (t.cause < 256 → bitsNat r.tcause 7 0 = t.cause) ∧ r.tmask = t.mask ∧ r.taddr = BitVec.ofNat 64 t.addr
      ∧ (t.pc = none → bitsNat r.tpc 26 0 = s.cur.off % 2 ^ 27)
      ∧ r.tgroup = BitVec.ofNat 64 (handleOf s s.cur.g))
  ∧ (∀ (s : State) (t : Trap), isControl s.cur.g = true → diePresent s (coreDie (placeCore s.cur.g)) = true →
      ((takeTrap s t).die (coreDie (placeCore s.cur.g))).mcheck = true)
  ∧ (∀ (s : State) (q : Nat) (e : TrapEntry) (rest : List TrapEntry), (s.handler q).queue = e :: rest →
      let u := dispatchTrap s q
      (u.handler q).queue = rest ∧ (u.handler q).running = true
      ∧ (u.handler q).regs = { e.regs with tvec := (s.handler q).regs.tvec, mcpc := (s.handler q).regs.mcpc }
      ∧ (u.grp (controlPlace q)).halt = false ∧ (u.grp (controlPlace q)).wait = .none
      ∧ (u.grp (controlPlace q)).pc = (bitsNat (s.handler q).regs.tvec 26 0 + 5 * bitsNat e.regs.tcause 7 0) % 2 ^ 27)
  ∧ ∀ (s : State) (q : Nat),
      (∀ pc, (s.handler q).interrupted = some pc →
        ((endHandler s q).grp (controlPlace q)).pc = pc ∧ ((endHandler s q).handler q).interrupted = none)
      ∧ ((s.handler q).interrupted = none →
        ((endHandler s q).handler q).running = false ∧ ((endHandler s q).grp (controlPlace q)).halt = true)

/-- IDIV gives the quotient truncated toward zero and IREM the remainder, which has the sign of a; the two cases without a true
quotient give the fixed results, no flag is raised and nothing else traps (R118). -/
def Obligations.IntegerDivision : Prop :=
  ∀ (o : FmtA) (s : State),
    (ready (.idiv o) o.h s → ∃ q : Nat → Int,
      exec (.idiv o) s = .next (writeAll (fun _ => o) ((runners s o.h).map fun t => (t, bitsOf o (intBits (wA o) (q t)))) s)
      ∧ (∀ t ∈ runners s o.h,
          (intB s o t = 0 → q t = if isSigned (tyA o) then -1 else 2 ^ wA o - 1)
          ∧ (isSigned (tyA o) = true → intA s o t = -2 ^ (wA o - 1) → intB s o t = -1 → q t = -2 ^ (wA o - 1))
          ∧ (intB s o t ≠ 0 → (isSigned (tyA o) = true → ¬ (intA s o t = -2 ^ (wA o - 1) ∧ intB s o t = -1)) →
              ∃ r : Int, intA s o t = intB s o t * q t + r ∧ r.natAbs < (intB s o t).natAbs
                ∧ (0 ≤ intA s o t → 0 ≤ r) ∧ (intA s o t ≤ 0 → r ≤ 0))))
    ∧ (ready (.irem o) o.h s → ∃ r : Nat → Int,
      exec (.irem o) s = .next (writeAll (fun _ => o) ((runners s o.h).map fun t => (t, bitsOf o (intBits (wA o) (r t)))) s)
      ∧ (∀ t ∈ runners s o.h,
          (intB s o t = 0 → r t = intA s o t)
          ∧ (isSigned (tyA o) = true → intA s o t = -2 ^ (wA o - 1) → intB s o t = -1 → r t = 0)
          ∧ (intB s o t ≠ 0 → (isSigned (tyA o) = true → ¬ (intA s o t = -2 ^ (wA o - 1) ∧ intB s o t = -1)) →
              ∃ q : Int, intA s o t = intB s o t * q + r t ∧ (r t).natAbs < (intB s o t).natAbs
                ∧ (0 ≤ intA s o t → 0 ≤ r t) ∧ (intA s o t ≤ 0 → r t ≤ 0))))
    ∧ ∀ i ∈ [Instr.idiv o, .irem o], ready i o.h s → gives i s fun t => t.me.fstat = s.me.fstat ∧ t.cur = s.cur

/-- TOKWAIT waits until the group's block holds the Promenade token and with the token goes on at once; TOKPASS passes the token
when the block holds it and otherwise does nothing; neither writes a register (R275). -/
def Obligations.PromenadeToken : Prop :=
  ∀ (o : FmtM) (s : State), guardG s o.h = true →
    (holdsToken s s.cur.g = false →
      gives (.tokwait o) s fun t => t.me.wait = .tokwait ∧ t.me.pc = s.cur.off ∧ t.cur.out = .stalled)
    ∧ (holdsToken s s.cur.g = true → exec (.tokwait o) s = .next s)
    ∧ (let l := (s.grpBlk s.cur.g).launch
       s.grpPavane s.cur.g = true → hasToken s s.cur.g = true → s.me.refused = none →
        exec (.tokpass o) s = .next (passToken s l)
        ∧ ((passToken s l).lch l).token
            = nextBid (s.lch l).retiredBids (s.lch l).lr.nblk ((s.lch l).retiredBids.length + 1) ((s.lch l).token + 1))
    ∧ (s.grpPavane s.cur.g = false ∨ hasToken s s.cur.g = false → exec (.tokpass o) s = .next s)
    -- a refused FADDW is reported before the token goes (R265)
    ∧ (∀ a, s.grpPavane s.cur.g = true → hasToken s s.cur.g = true → s.me.refused = some a →
        takes (.tokpass o) s { cause := 0x18, addr := a, mask := s.me.live })
    ∧ ∀ i ∈ [Instr.tokwait o, .tokpass o], gives i s fun t => filesKept [] [] [] s t

/-- The package ring joins each die to its row neighbours and is closed by the two end rungs; its clockwise order is the one
listed, back from die 8 to die 0 over the dateline, and a packet that goes clockwise crosses as many links as its hop count (R12). -/
def Obligations.RingOrder : Prop :=
  (List.range 16).map ringDie = [0, 1, 2, 3, 4, 5, 6, 7, 15, 14, 13, 12, 11, 10, 9, 8]
  ∧ (∀ d < 16, ringPos d < 16 ∧ ringDie (ringPos d) = d) ∧ ringPos 8 = 15 ∧ ringPos 0 = 0
  ∧ (∀ d < 16,
      let e := ringDie ((ringPos d + 1) % 16)
      (d / 8 = e / 8 ∧ (d + 1 = e ∨ e + 1 = d)) ∨ (d = 7 ∧ e = 15) ∨ (d = 8 ∧ e = 0))
  ∧ (∀ (x : Packet) (n : Nat), x.src < 16 → x.dst < 16 → x.clockwise = true → n ≤ (ringPos x.dst + 16 - ringPos x.src) % 16 →
      (Nat.iterate (fun y : Packet => { y with at_ := y.nextDie }) n { x with at_ := x.src }).at_
        = ringDie ((ringPos x.src + n) % 16))
  ∧ (∀ (x : Packet) (n : Nat), x.src < 16 → x.dst < 16 → x.clockwise = true → n < (ringPos x.dst + 16 - ringPos x.src) % 16 →
      ((Nat.iterate (fun y : Packet => { y with at_ := y.nextDie }) n { x with at_ := x.src }).crossed = true
        ↔ ∃ m ≤ n, ringDie ((ringPos x.src + m) % 16) = 8))
  ∧ ∀ a b, a < 16 → b < 16 → ringDie ((ringPos a + (ringPos b + 16 - ringPos a) % 16) % 16) = b

/-- Reset: no group is resident, the memory form is canonical, and the control registers of every core hold the reset values of
Tables 9-3, 9-5, 9-6, 12-6, 14-9, 16-2, 16-7, 16-8 and 16-11. -/
def Obligations.ResetState : Prop :=
  let s := State.reset
  Memory.wf s.mem = true ∧ spSorted 0 s.groups = true ∧ s.groups = [] ∧ s.sessions = [] ∧ s.udpPort = 47120 ∧ s.powerThrottle = false
  ∧ (∀ g d, clockOf s g = 0 ∧ s.dies = [] ∧ s.timeOf d ≤ 20)
  ∧ ∀ g, readCsr s g 0x100 = 0 ∧ readCsr s g 0x300 = 2 ∧ readCsr s g 0x301 = 0 ∧ readCsr s g 0x302 = 1 ∧ readCsr s g 0x303 = 32
    ∧ readCsr s g 0x304 % 2 ^ 40 = 0x0001010001 ∧ readCsr s g 0x304 / 2 ^ 44 % 2 ^ 4 = 0 ∧ readCsr s g 0x305 = 0
    ∧ readCsr s g 0x306 = 0 ∧ readCsr s g 0x400 = 0 ∧ readCsr s g 0x401 = 0 ∧ readCsr s g 0x408 = 0 ∧ readCsr s g 0x40A = 0
    ∧ readCsr s g 0x40B = 0

/-- A step whose agenda begins with a group's issue runs the instruction that its line's slot decodes to, with the pc past
it (R33, R37, R45); a pair runs as two, the lane member reading the group as it stood before the pair (R24). An event at the
head of the agenda is that event's act. The moments and choices of log 1, 33 and 34 are the model's. -/
def Obligations.StepRunsDecoded : Prop :=
  ∀ (s : State) (rest : List Act),
    let u := { s with agenda := rest }
    (∀ i, s.agenda = .event i :: rest → step s = exec i u)
    ∧ ∀ (g p : Nat) (l : Line), s.agenda = .issue g :: rest → fetched u g p l →
      let n := (u.grp g).pc % 5
      let pc := (u.grp g).pc
      let w := lineSlot l n
      (∀ i t, linePair l n = false → issues u g n l i →
        let c : Copied := { plane := p, slot := w, instr := i, lane := none }
        let once := issuesOnce (u.grp g) n w
        noFaultNews u g c →
        exec i (prepare u g p pc (nextOffset (u.grp g) (lineInl l) false) once (if once then [(p, w)] else []) (parsOf l)) = .next t →
          step s = .next (if t.cur.out = .done then issueDone u g 1 c once t else t))
      ∧ ∀ i j t v, linePair l n = true → issues u g n l i → issues u g (n + 1) l j →
        let m := lineSlot l (n + 1)
        let c : Copied := { plane := p, slot := w, instr := i, lane := some (m, j) }
        let next := nextOffset (u.grp g) (lineInl l) true
        let one := issuesOnce (u.grp g) n w
        let once := issuesOnce (u.grp g) (n + 1) m
        let first := prepare u g p pc next one (if one then [(p, w)] else []) (parsOf l)
        noFaultNews u g c → exec i first = .next t → t.cur.out = .done →
        exec j { t with cur := { (prepare u g p pc next once (if once then [(p, m)] else []) (parsOf l)).cur with
                                 view := some (first.grp g), moved := t.cur.moved } } = .next v → v.cur.out = .done →
          step s = .next (issueDone u g 2 c false v)

/-- Every step keeps the canonical form of memory (addresses rising, no listed byte equal to what an unlisted one reads) and of
the table of groups (one entry for each place); both forms are the model's own. -/
def Obligations.TablesStayCanonical : Prop :=
  ∀ s t, Memory.wf s.mem = true → spSorted 0 s.groups = true → step s = .next t →
    Memory.wf t.mem = true ∧ spSorted 0 t.groups = true

/-- Decoding and encoding agree: the slot of a well-formed instruction decodes to it, with every operand at every value that the
encoding admits, and a slot that decodes to an instruction is the slot of that well-formed instruction. -/
def Obligations.EncodeDecode : Prop :=
  ∀ (inl : Bool) (w : Slot) (i : Instr),
    (wellFormed inl i = true → encode i = some w → decodeSlot inl w = .ok i)
    ∧ (decodeSlot inl w = .ok i → encode i = some w ∧ wellFormed inl i = true)

/-- Words written out from the encodings: the two examples of "Two encodings worked out", and one word for each other format. -/
def Obligations.DecodedWords : Prop :=
  decodeTableWord 96 0x12700C00A82A080000000000
    = some (.mul { h := ⟨false, 7, false, false, 0, 0, 6⟩, d := 1, a := 0x141, b := 0x141, c := 0, i := false, w := 0 })
  ∧ decodeTableWord 96 0x10700C010030280000000000
    = some (.add { h := ⟨false, 7, false, false, 0, 0, 6⟩, d := 2, a := 1, b := 0x205, c := 0, i := false, w := 0 })
  ∧ decodeTableWord 96 0x9070440420600A9000000040
    = some (.ld { h := ⟨false, 7, false, false, 0, 2, 2⟩, d := 8, a := 0x103, b := 1, c := 0x148, space := 0, order := 0, scope := 0,
                  hint := 0, off := 0x40 })
  ∧ decodeTableWord 96 0x019000000002800000500001
    = some (.bra { h := ⟨true, 1, false, false, 0, 0, 0⟩, tline := 1, tslot := 2, cline := 1, cslot := 2, hint := false, a := 0,
                   cfn := 1 })
  ∧ decodeTableWord 96 0xC07816822048182080400000
    = some (.mms { h := ⟨false, 7, true, false, 0, 0, 0xB⟩, k := 0x104, a := 0x102, efn := 0x08182080400000 })
  ∧ decodeTableWord 96 0xF07800828000020000000000
    = some (.csrr { h := ⟨false, 7, true, false, 0, 0, 0⟩, d := 0x105, a := 0, csr := 1, sfn := 0 })
  ∧ decodeTableWord 96 0xB07800832042600000000000
    = some (.cpy { h := ⟨false, 7, true, false, 0, 0, 0⟩, k := 0x106, a := 0x102, efn := 0x02600000000000 })
end

