-- ==== Sys2Proof/Laws/Sparse.lean ====
section
/-! SUPPORT. Sparse.lean (laws): read after write, and the canonical form, of the sparse maps that hold memory, registers and
tables. -/

namespace Sys2Proof

variable {α : Type}

/-! ### Reading after a write -/

theorem spGet_spPut (d : α) (m : List (Nat × α)) (k j : Nat) (v : α) :
    spGet d (spPut m k v) j = if k = j then v else spGet d m j := by
  induction m with
  | nil => simp [spPut, spGet]
  | cons e r ih =>
    obtain ⟨i, w⟩ := e
    simp only [spPut]
    split
    · simp only [spGet]
    · split
      · rename_i h
        subst h
        simp only [spGet]
        split <;> rfl
      · simp only [spGet, ih]
        split
        · rename_i h1 h2 h3
          subst h3
          simp [h2]
        · rfl

theorem spFind_spPut (m : List (Nat × α)) (k j : Nat) (v : α) :
    spFind (spPut m k v) j = if k = j then some v else spFind m j := by
  induction m with
  | nil => simp [spPut, spFind]
  | cons e r ih =>
    obtain ⟨i, w⟩ := e
    simp only [spPut]
    split
    · simp only [spFind]
    · split
      · rename_i h
        subst h
        simp only [spFind]
        split <;> rfl
      · simp only [spFind, ih]
        split
        · rename_i h1 h2 h3
          subst h3
          simp [h2]
        · rfl

@[simp] theorem spGet_spPut_self (d : α) (m : List (Nat × α)) (k : Nat) (v : α) : spGet d (spPut m k v) k = v := by
  simp [spGet_spPut]
@[simp] theorem spFind_spPut_self (m : List (Nat × α)) (k : Nat) (v : α) : spFind (spPut m k v) k = some v := by
  simp [spFind_spPut]
theorem spFind_spPut_ne (m : List (Nat × α)) (k j : Nat) (v : α) (h : k ≠ j) : spFind (spPut m k v) j = spFind m j := by
  simp [spFind_spPut, h]

/-! ### The canonical form -/

/-- Nothing is listed below the lower bound of a sorted map. -/
theorem spGet_below (d : α) (m : List (Nat × α)) (lo k : Nat) (h : spSorted lo m = true) (hk : k < lo) : spGet d m k = d := by
  induction m generalizing lo with
  | nil => rfl
  | cons e r ih =>
    obtain ⟨i, w⟩ := e
    simp only [spSorted, Bool.and_eq_true, decide_eq_true_eq] at h
    simp only [spGet]
    rw [if_neg (by omega)]
    exact ih (i + 1) h.2 (by omega)

theorem spSorted_mono (m : List (Nat × α)) (a b : Nat) (h : spSorted b m = true) (hab : a ≤ b) : spSorted a m = true := by
  cases m with
  | nil => rfl
  | cons e r =>
    obtain ⟨i, w⟩ := e
    simp only [spSorted, Bool.and_eq_true, decide_eq_true_eq] at h ⊢
    exact ⟨by omega, h.2⟩

theorem spSorted_spPut (m : List (Nat × α)) (lo k : Nat) (v : α) (h : spSorted lo m = true) (hk : lo ≤ k) :
    spSorted lo (spPut m k v) = true := by
  induction m generalizing lo with
  | nil => simp [spPut, spSorted, hk]
  | cons e r ih =>
    obtain ⟨i, w⟩ := e
    simp only [spSorted, Bool.and_eq_true, decide_eq_true_eq] at h
    simp only [spPut]
    split
    · simp only [spSorted, Bool.and_eq_true, decide_eq_true_eq]
      exact ⟨hk, by omega, h.2⟩
    · split
      · rename_i h2
        subst h2
        simp only [spSorted, Bool.and_eq_true, decide_eq_true_eq]
        exact h
      · simp only [spSorted, Bool.and_eq_true, decide_eq_true_eq]
        exact ⟨h.1, ih (i + 1) h.2 (by omega)⟩

theorem spSorted_spDel (m : List (Nat × α)) (lo k : Nat) (h : spSorted lo m = true) : spSorted lo (spDel m k) = true := by
  induction m generalizing lo with
  | nil => rfl
  | cons e r ih =>
    obtain ⟨i, w⟩ := e
    simp only [spSorted, Bool.and_eq_true, decide_eq_true_eq] at h
    simp only [spDel]
    split
    · exact spSorted_mono _ lo (i + 1) (ih (i + 1) h.2) (by omega)
    · simp only [spSorted, Bool.and_eq_true, decide_eq_true_eq]
      exact ⟨h.1, ih (i + 1) h.2⟩

theorem spGet_spDel (d : α) (m : List (Nat × α)) (k j : Nat) : spGet d (spDel m k) j = if k = j then d else spGet d m j := by
  induction m with
  | nil => simp [spDel, spGet]
  | cons e r ih =>
    obtain ⟨i, w⟩ := e
    simp only [spDel]
    by_cases hik : i = k
    · subst hik
      simp only [if_true, ih, spGet]
      split <;> rfl
    · simp only [hik, if_false, spGet, ih]
      by_cases hij : i = j
      · subst hij
        simp [Ne.symm hik]
      · simp [hij]

theorem spFind_spDel (m : List (Nat × α)) (k j : Nat) : spFind (spDel m k) j = if k = j then none else spFind m j := by
  induction m with
  | nil => simp [spDel, spFind]
  | cons e r ih =>
    obtain ⟨i, w⟩ := e
    simp only [spDel]
    by_cases hik : i = k
    · subst hik
      simp only [if_true, ih, spFind]
      split <;> rfl
    · simp only [hik, if_false, spFind, ih]
      by_cases hij : i = j
      · subst hij
        simp [Ne.symm hik]
      · simp [hij]

theorem all_spDel (m : List (Nat × α)) (k : Nat) (p : Nat × α → Bool) (h : m.all p = true) : (spDel m k).all p = true := by
  induction m with
  | nil => rfl
  | cons e r ih =>
    obtain ⟨i, w⟩ := e
    simp only [List.all_cons, Bool.and_eq_true] at h
    simp only [spDel]
    split
    · exact ih h.2
    · simp only [List.all_cons, Bool.and_eq_true]
      exact ⟨h.1, ih h.2⟩

theorem all_spPut (m : List (Nat × α)) (k : Nat) (v : α) (p : Nat × α → Bool) (h : m.all p = true) (hv : p (k, v) = true) :
    (spPut m k v).all p = true := by
  induction m with
  | nil => simp [spPut, hv]
  | cons e r ih =>
    obtain ⟨i, w⟩ := e
    simp only [List.all_cons, Bool.and_eq_true] at h
    simp only [spPut]
    split
    · simp [hv, h.1, h.2]
    · split
      · simp [hv, h.2]
      · simp [h.1, ih h.2]

variable [DecidableEq α]

/-- A write keeps the canonical form. -/
theorem spWf_spSet (d : α) (m : List (Nat × α)) (k : Nat) (v : α) (h : spWf d m = true) : spWf d (spSet d m k v) = true := by
  simp only [spWf, Bool.and_eq_true] at h ⊢
  unfold spSet
  split
  · exact ⟨spSorted_spDel m 0 k h.1, all_spDel m k _ h.2⟩
  · rename_i hv
    exact ⟨spSorted_spPut m 0 k v h.1 (by omega), all_spPut m k v _ h.2 (by simpa using hv)⟩

/-- Read after write. -/
theorem spGet_spSet (d : α) (m : List (Nat × α)) (k j : Nat) (v : α) :
    spGet d (spSet d m k v) j = if k = j then v else spGet d m j := by
  unfold spSet
  split
  · rename_i hv
    subst hv
    exact spGet_spDel v m k j
  · exact spGet_spPut d m k j v
@[simp] theorem spGet_spSet_self (d : α) (m : List (Nat × α)) (k : Nat) (v : α) : spGet d (spSet d m k v) k = v := by
  simp [spGet_spSet]
theorem spGet_spSet_ne (d : α) (m : List (Nat × α)) (k j : Nat) (v : α) (hkj : k ≠ j) : spGet d (spSet d m k v) j = spGet d m j := by
  simp [spGet_spSet, hkj]

/-! ### Memory -/

theorem memSet_wf (m : Memory) (a : Nat) (b : Byte) (h : Memory.wf m = true) : Memory.wf (memSet m a b) = true :=
  spWf_spSet memDefault m a b h

theorem memPut_wf (m : Memory) (a : Nat) (bs : List Byte) (h : Memory.wf m = true) : Memory.wf (memPut m a bs) = true := by
  induction bs generalizing m a with
  | nil => exact h
  | cons b r ih => exact ih (memSet m a b) (a + 1) (memSet_wf m a b h)

theorem memGet_memSet (m : Memory) (a j : Nat) (b : Byte) :
    memGet (memSet m a b) j = if a = j then b else memGet m j := spGet_spSet memDefault m a j b

theorem memGet_memSet_ne (m : Memory) (a j : Nat) (b : Byte) (h : a ≠ j) : memGet (memSet m a b) j = memGet m j :=
  spGet_spSet_ne memDefault m a j b h

/-- Bytes outside those written read as before. -/
theorem memGet_memPut_outside (m : Memory) (a j : Nat) (bs : List Byte) (h : j < a ∨ a + bs.length ≤ j) :
    memGet (memPut m a bs) j = memGet m j := by
  induction bs generalizing m a with
  | nil => rfl
  | cons b r ih =>
    simp only [List.length_cons] at h
    rw [memPut, ih (memSet m a b) (a + 1) (by omega), memGet_memSet_ne m a j b (by omega)]

theorem memBytes_memPut_self (m : Memory) (a : Nat) (bs : List Byte) : memBytes (memPut m a bs) a bs.length = bs := by
  induction bs generalizing m a with
  | nil => rfl
  | cons b r ih =>
    simp only [List.length_cons, memBytes, memPut]
    rw [ih (memSet m a b) (a + 1), memGet_memPut_outside (memSet m a b) (a + 1) a r (by omega), memGet_memSet m a a b]
    simp

end Sys2Proof
end

