-- ==== Sys2Proof/Laws/State.lean ====
section
/-! SUPPORT. State.lean (laws): what each update of State leaves of every field, and what the accessors read after it, so that
no proof unfolds a record update. -/

namespace Sys2Proof.Machine

variable (s : State)

/-! ### setGrp -/

@[simp] theorem State.setGrp_part (g : Nat) (x : Group) : (s.setGrp g x).part = s.part := rfl
@[simp] theorem State.setGrp_present (g : Nat) (x : Group) : (s.setGrp g x).present = s.present := rfl
@[simp] theorem State.setGrp_clock (g : Nat) (x : Group) : (s.setGrp g x).clock = s.clock := rfl
@[simp] theorem State.setGrp_mem (g : Nat) (x : Group) : (s.setGrp g x).mem = s.mem := rfl
@[simp] theorem State.setGrp_poison (g : Nat) (x : Group) : (s.setGrp g x).poison = s.poison := rfl
@[simp] theorem State.setGrp_tlb (g : Nat) (x : Group) : (s.setGrp g x).tlb = s.tlb := rfl
@[simp] theorem State.setGrp_replicas (g : Nat) (x : Group) : (s.setGrp g x).replicas = s.replicas := rfl
@[simp] theorem State.setGrp_posted (g : Nat) (x : Group) : (s.setGrp g x).posted = s.posted := rfl
@[simp] theorem State.setGrp_dies (g : Nat) (x : Group) : (s.setGrp g x).dies = s.dies := rfl
@[simp] theorem State.setGrp_cores (g : Nat) (x : Group) : (s.setGrp g x).cores = s.cores := rfl
@[simp] theorem State.setGrp_handlers (g : Nat) (x : Group) : (s.setGrp g x).handlers = s.handlers := rfl
@[simp] theorem State.setGrp_groups (g : Nat) (x : Group) : (s.setGrp g x).groups = spPut s.groups g x := rfl
@[simp] theorem State.setGrp_blocks (g : Nat) (x : Group) : (s.setGrp g x).blocks = s.blocks := rfl
@[simp] theorem State.setGrp_launches (g : Nat) (x : Group) : (s.setGrp g x).launches = s.launches := rfl
@[simp] theorem State.setGrp_nextUid (g : Nat) (x : Group) : (s.setGrp g x).nextUid = s.nextUid := rfl
@[simp] theorem State.setGrp_nextBlock (g : Nat) (x : Group) : (s.setGrp g x).nextBlock = s.nextBlock := rfl
@[simp] theorem State.setGrp_nextSerial (g : Nat) (x : Group) : (s.setGrp g x).nextSerial = s.nextSerial := rfl
@[simp] theorem State.setGrp_loads (g : Nat) (x : Group) : (s.setGrp g x).loads = s.loads := rfl
@[simp] theorem State.setGrp_oplog (g : Nat) (x : Group) : (s.setGrp g x).oplog = s.oplog := rfl
@[simp] theorem State.setGrp_welts (g : Nat) (x : Group) : (s.setGrp g x).welts = s.welts := rfl
@[simp] theorem State.setGrp_redParks (g : Nat) (x : Group) : (s.setGrp g x).redParks = s.redParks := rfl
@[simp] theorem State.setGrp_ringParks (g : Nat) (x : Group) : (s.setGrp g x).ringParks = s.ringParks := rfl
@[simp] theorem State.setGrp_sigParks (g : Nat) (x : Group) : (s.setGrp g x).sigParks = s.sigParks := rfl
@[simp] theorem State.setGrp_waiters (g : Nat) (x : Group) : (s.setGrp g x).waiters = s.waiters := rfl
@[simp] theorem State.setGrp_copies (g : Nat) (x : Group) : (s.setGrp g x).copies = s.copies := rfl
@[simp] theorem State.setGrp_matOps (g : Nat) (x : Group) : (s.setGrp g x).matOps = s.matOps := rfl
@[simp] theorem State.setGrp_queries (g : Nat) (x : Group) : (s.setGrp g x).queries = s.queries := rfl
@[simp] theorem State.setGrp_splits (g : Nat) (x : Group) : (s.setGrp g x).splits = s.splits := rfl
@[simp] theorem State.setGrp_spawns (g : Nat) (x : Group) : (s.setGrp g x).spawns = s.spawns := rfl
@[simp] theorem State.setGrp_conts (g : Nat) (x : Group) : (s.setGrp g x).conts = s.conts := rfl
@[simp] theorem State.setGrp_walks (g : Nat) (x : Group) : (s.setGrp g x).walks = s.walks := rfl
@[simp] theorem State.setGrp_paths (g : Nat) (x : Group) : (s.setGrp g x).paths = s.paths := rfl
@[simp] theorem State.setGrp_ports (g : Nat) (x : Group) : (s.setGrp g x).ports = s.ports := rfl
@[simp] theorem State.setGrp_packets (g : Nat) (x : Group) : (s.setGrp g x).packets = s.packets := rfl
@[simp] theorem State.setGrp_stages (g : Nat) (x : Group) : (s.setGrp g x).stages = s.stages := rfl
@[simp] theorem State.setGrp_sessions (g : Nat) (x : Group) : (s.setGrp g x).sessions = s.sessions := rfl
@[simp] theorem State.setGrp_outbox (g : Nat) (x : Group) : (s.setGrp g x).outbox = s.outbox := rfl
@[simp] theorem State.setGrp_frameDrops (g : Nat) (x : Group) : (s.setGrp g x).frameDrops = s.frameDrops := rfl
@[simp] theorem State.setGrp_keys (g : Nat) (x : Group) : (s.setGrp g x).keys = s.keys := rfl
@[simp] theorem State.setGrp_ctxTab (g : Nat) (x : Group) : (s.setGrp g x).ctxTab = s.ctxTab := rfl
@[simp] theorem State.setGrp_savePool (g : Nat) (x : Group) : (s.setGrp g x).savePool = s.savePool := rfl
@[simp] theorem State.setGrp_udpPort (g : Nat) (x : Group) : (s.setGrp g x).udpPort = s.udpPort := rfl
@[simp] theorem State.setGrp_measure (g : Nat) (x : Group) : (s.setGrp g x).measure = s.measure := rfl
@[simp] theorem State.setGrp_fwBase (g : Nat) (x : Group) : (s.setGrp g x).fwBase = s.fwBase := rfl
@[simp] theorem State.setGrp_powerThrottle (g : Nat) (x : Group) : (s.setGrp g x).powerThrottle = s.powerThrottle := rfl
@[simp] theorem State.setGrp_thermal (g : Nat) (x : Group) : (s.setGrp g x).thermal = s.thermal := rfl
@[simp] theorem State.setGrp_throttled (g : Nat) (x : Group) : (s.setGrp g x).throttled = s.throttled := rfl
@[simp] theorem State.setGrp_free (g : Nat) (x : Group) : (s.setGrp g x).free = s.free := rfl
@[simp] theorem State.setGrp_agenda (g : Nat) (x : Group) : (s.setGrp g x).agenda = s.agenda := rfl
@[simp] theorem State.setGrp_cur (g : Nat) (x : Group) : (s.setGrp g x).cur = s.cur := rfl

/-! ### updGrp -/

@[simp] theorem State.updGrp_part (g : Nat) (f : Group → Group) : (s.updGrp g f).part = s.part := rfl
@[simp] theorem State.updGrp_present (g : Nat) (f : Group → Group) : (s.updGrp g f).present = s.present := rfl
@[simp] theorem State.updGrp_clock (g : Nat) (f : Group → Group) : (s.updGrp g f).clock = s.clock := rfl
@[simp] theorem State.updGrp_mem (g : Nat) (f : Group → Group) : (s.updGrp g f).mem = s.mem := rfl
@[simp] theorem State.updGrp_poison (g : Nat) (f : Group → Group) : (s.updGrp g f).poison = s.poison := rfl
@[simp] theorem State.updGrp_tlb (g : Nat) (f : Group → Group) : (s.updGrp g f).tlb = s.tlb := rfl
@[simp] theorem State.updGrp_replicas (g : Nat) (f : Group → Group) : (s.updGrp g f).replicas = s.replicas := rfl
@[simp] theorem State.updGrp_posted (g : Nat) (f : Group → Group) : (s.updGrp g f).posted = s.posted := rfl
@[simp] theorem State.updGrp_dies (g : Nat) (f : Group → Group) : (s.updGrp g f).dies = s.dies := rfl
@[simp] theorem State.updGrp_cores (g : Nat) (f : Group → Group) : (s.updGrp g f).cores = s.cores := rfl
@[simp] theorem State.updGrp_handlers (g : Nat) (f : Group → Group) : (s.updGrp g f).handlers = s.handlers := rfl
@[simp] theorem State.updGrp_groups (g : Nat) (f : Group → Group) : (s.updGrp g f).groups = spPut s.groups g (f (s.grp g)) := rfl
@[simp] theorem State.updGrp_blocks (g : Nat) (f : Group → Group) : (s.updGrp g f).blocks = s.blocks := rfl
@[simp] theorem State.updGrp_launches (g : Nat) (f : Group → Group) : (s.updGrp g f).launches = s.launches := rfl
@[simp] theorem State.updGrp_nextUid (g : Nat) (f : Group → Group) : (s.updGrp g f).nextUid = s.nextUid := rfl
@[simp] theorem State.updGrp_nextBlock (g : Nat) (f : Group → Group) : (s.updGrp g f).nextBlock = s.nextBlock := rfl
@[simp] theorem State.updGrp_nextSerial (g : Nat) (f : Group → Group) : (s.updGrp g f).nextSerial = s.nextSerial := rfl
@[simp] theorem State.updGrp_loads (g : Nat) (f : Group → Group) : (s.updGrp g f).loads = s.loads := rfl
@[simp] theorem State.updGrp_oplog (g : Nat) (f : Group → Group) : (s.updGrp g f).oplog = s.oplog := rfl
@[simp] theorem State.updGrp_welts (g : Nat) (f : Group → Group) : (s.updGrp g f).welts = s.welts := rfl
@[simp] theorem State.updGrp_redParks (g : Nat) (f : Group → Group) : (s.updGrp g f).redParks = s.redParks := rfl
@[simp] theorem State.updGrp_ringParks (g : Nat) (f : Group → Group) : (s.updGrp g f).ringParks = s.ringParks := rfl
@[simp] theorem State.updGrp_sigParks (g : Nat) (f : Group → Group) : (s.updGrp g f).sigParks = s.sigParks := rfl
@[simp] theorem State.updGrp_waiters (g : Nat) (f : Group → Group) : (s.updGrp g f).waiters = s.waiters := rfl
@[simp] theorem State.updGrp_copies (g : Nat) (f : Group → Group) : (s.updGrp g f).copies = s.copies := rfl
@[simp] theorem State.updGrp_matOps (g : Nat) (f : Group → Group) : (s.updGrp g f).matOps = s.matOps := rfl
@[simp] theorem State.updGrp_queries (g : Nat) (f : Group → Group) : (s.updGrp g f).queries = s.queries := rfl
@[simp] theorem State.updGrp_splits (g : Nat) (f : Group → Group) : (s.updGrp g f).splits = s.splits := rfl
@[simp] theorem State.updGrp_spawns (g : Nat) (f : Group → Group) : (s.updGrp g f).spawns = s.spawns := rfl
@[simp] theorem State.updGrp_conts (g : Nat) (f : Group → Group) : (s.updGrp g f).conts = s.conts := rfl
@[simp] theorem State.updGrp_walks (g : Nat) (f : Group → Group) : (s.updGrp g f).walks = s.walks := rfl
@[simp] theorem State.updGrp_paths (g : Nat) (f : Group → Group) : (s.updGrp g f).paths = s.paths := rfl
@[simp] theorem State.updGrp_ports (g : Nat) (f : Group → Group) : (s.updGrp g f).ports = s.ports := rfl
@[simp] theorem State.updGrp_packets (g : Nat) (f : Group → Group) : (s.updGrp g f).packets = s.packets := rfl
@[simp] theorem State.updGrp_stages (g : Nat) (f : Group → Group) : (s.updGrp g f).stages = s.stages := rfl
@[simp] theorem State.updGrp_sessions (g : Nat) (f : Group → Group) : (s.updGrp g f).sessions = s.sessions := rfl
@[simp] theorem State.updGrp_outbox (g : Nat) (f : Group → Group) : (s.updGrp g f).outbox = s.outbox := rfl
@[simp] theorem State.updGrp_frameDrops (g : Nat) (f : Group → Group) : (s.updGrp g f).frameDrops = s.frameDrops := rfl
@[simp] theorem State.updGrp_keys (g : Nat) (f : Group → Group) : (s.updGrp g f).keys = s.keys := rfl
@[simp] theorem State.updGrp_ctxTab (g : Nat) (f : Group → Group) : (s.updGrp g f).ctxTab = s.ctxTab := rfl
@[simp] theorem State.updGrp_savePool (g : Nat) (f : Group → Group) : (s.updGrp g f).savePool = s.savePool := rfl
@[simp] theorem State.updGrp_udpPort (g : Nat) (f : Group → Group) : (s.updGrp g f).udpPort = s.udpPort := rfl
@[simp] theorem State.updGrp_measure (g : Nat) (f : Group → Group) : (s.updGrp g f).measure = s.measure := rfl
@[simp] theorem State.updGrp_fwBase (g : Nat) (f : Group → Group) : (s.updGrp g f).fwBase = s.fwBase := rfl
@[simp] theorem State.updGrp_powerThrottle (g : Nat) (f : Group → Group) : (s.updGrp g f).powerThrottle = s.powerThrottle := rfl
@[simp] theorem State.updGrp_thermal (g : Nat) (f : Group → Group) : (s.updGrp g f).thermal = s.thermal := rfl
@[simp] theorem State.updGrp_throttled (g : Nat) (f : Group → Group) : (s.updGrp g f).throttled = s.throttled := rfl
@[simp] theorem State.updGrp_free (g : Nat) (f : Group → Group) : (s.updGrp g f).free = s.free := rfl
@[simp] theorem State.updGrp_agenda (g : Nat) (f : Group → Group) : (s.updGrp g f).agenda = s.agenda := rfl
@[simp] theorem State.updGrp_cur (g : Nat) (f : Group → Group) : (s.updGrp g f).cur = s.cur := rfl

/-! ### updMe -/

@[simp] theorem State.updMe_part (f : Group → Group) : (s.updMe f).part = s.part := rfl
@[simp] theorem State.updMe_present (f : Group → Group) : (s.updMe f).present = s.present := rfl
@[simp] theorem State.updMe_clock (f : Group → Group) : (s.updMe f).clock = s.clock := rfl
@[simp] theorem State.updMe_mem (f : Group → Group) : (s.updMe f).mem = s.mem := rfl
@[simp] theorem State.updMe_poison (f : Group → Group) : (s.updMe f).poison = s.poison := rfl
@[simp] theorem State.updMe_tlb (f : Group → Group) : (s.updMe f).tlb = s.tlb := rfl
@[simp] theorem State.updMe_replicas (f : Group → Group) : (s.updMe f).replicas = s.replicas := rfl
@[simp] theorem State.updMe_posted (f : Group → Group) : (s.updMe f).posted = s.posted := rfl
@[simp] theorem State.updMe_dies (f : Group → Group) : (s.updMe f).dies = s.dies := rfl
@[simp] theorem State.updMe_cores (f : Group → Group) : (s.updMe f).cores = s.cores := rfl
@[simp] theorem State.updMe_handlers (f : Group → Group) : (s.updMe f).handlers = s.handlers := rfl
@[simp] theorem State.updMe_groups (f : Group → Group) : (s.updMe f).groups = spPut s.groups s.cur.g (f s.me) := rfl
@[simp] theorem State.updMe_blocks (f : Group → Group) : (s.updMe f).blocks = s.blocks := rfl
@[simp] theorem State.updMe_launches (f : Group → Group) : (s.updMe f).launches = s.launches := rfl
@[simp] theorem State.updMe_nextUid (f : Group → Group) : (s.updMe f).nextUid = s.nextUid := rfl
@[simp] theorem State.updMe_nextBlock (f : Group → Group) : (s.updMe f).nextBlock = s.nextBlock := rfl
@[simp] theorem State.updMe_nextSerial (f : Group → Group) : (s.updMe f).nextSerial = s.nextSerial := rfl
@[simp] theorem State.updMe_loads (f : Group → Group) : (s.updMe f).loads = s.loads := rfl
@[simp] theorem State.updMe_oplog (f : Group → Group) : (s.updMe f).oplog = s.oplog := rfl
@[simp] theorem State.updMe_welts (f : Group → Group) : (s.updMe f).welts = s.welts := rfl
@[simp] theorem State.updMe_redParks (f : Group → Group) : (s.updMe f).redParks = s.redParks := rfl
@[simp] theorem State.updMe_ringParks (f : Group → Group) : (s.updMe f).ringParks = s.ringParks := rfl
@[simp] theorem State.updMe_sigParks (f : Group → Group) : (s.updMe f).sigParks = s.sigParks := rfl
@[simp] theorem State.updMe_waiters (f : Group → Group) : (s.updMe f).waiters = s.waiters := rfl
@[simp] theorem State.updMe_copies (f : Group → Group) : (s.updMe f).copies = s.copies := rfl
@[simp] theorem State.updMe_matOps (f : Group → Group) : (s.updMe f).matOps = s.matOps := rfl
@[simp] theorem State.updMe_queries (f : Group → Group) : (s.updMe f).queries = s.queries := rfl
@[simp] theorem State.updMe_splits (f : Group → Group) : (s.updMe f).splits = s.splits := rfl
@[simp] theorem State.updMe_spawns (f : Group → Group) : (s.updMe f).spawns = s.spawns := rfl
@[simp] theorem State.updMe_conts (f : Group → Group) : (s.updMe f).conts = s.conts := rfl
@[simp] theorem State.updMe_walks (f : Group → Group) : (s.updMe f).walks = s.walks := rfl
@[simp] theorem State.updMe_paths (f : Group → Group) : (s.updMe f).paths = s.paths := rfl
@[simp] theorem State.updMe_ports (f : Group → Group) : (s.updMe f).ports = s.ports := rfl
@[simp] theorem State.updMe_packets (f : Group → Group) : (s.updMe f).packets = s.packets := rfl
@[simp] theorem State.updMe_stages (f : Group → Group) : (s.updMe f).stages = s.stages := rfl
@[simp] theorem State.updMe_sessions (f : Group → Group) : (s.updMe f).sessions = s.sessions := rfl
@[simp] theorem State.updMe_outbox (f : Group → Group) : (s.updMe f).outbox = s.outbox := rfl
@[simp] theorem State.updMe_frameDrops (f : Group → Group) : (s.updMe f).frameDrops = s.frameDrops := rfl
@[simp] theorem State.updMe_keys (f : Group → Group) : (s.updMe f).keys = s.keys := rfl
@[simp] theorem State.updMe_ctxTab (f : Group → Group) : (s.updMe f).ctxTab = s.ctxTab := rfl
@[simp] theorem State.updMe_savePool (f : Group → Group) : (s.updMe f).savePool = s.savePool := rfl
@[simp] theorem State.updMe_udpPort (f : Group → Group) : (s.updMe f).udpPort = s.udpPort := rfl
@[simp] theorem State.updMe_measure (f : Group → Group) : (s.updMe f).measure = s.measure := rfl
@[simp] theorem State.updMe_fwBase (f : Group → Group) : (s.updMe f).fwBase = s.fwBase := rfl
@[simp] theorem State.updMe_powerThrottle (f : Group → Group) : (s.updMe f).powerThrottle = s.powerThrottle := rfl
@[simp] theorem State.updMe_thermal (f : Group → Group) : (s.updMe f).thermal = s.thermal := rfl
@[simp] theorem State.updMe_throttled (f : Group → Group) : (s.updMe f).throttled = s.throttled := rfl
@[simp] theorem State.updMe_free (f : Group → Group) : (s.updMe f).free = s.free := rfl
@[simp] theorem State.updMe_agenda (f : Group → Group) : (s.updMe f).agenda = s.agenda := rfl
@[simp] theorem State.updMe_cur (f : Group → Group) : (s.updMe f).cur = s.cur := rfl

/-! ### setBlk -/

@[simp] theorem State.setBlk_part (b : Nat) (x : Block) : (s.setBlk b x).part = s.part := rfl
@[simp] theorem State.setBlk_present (b : Nat) (x : Block) : (s.setBlk b x).present = s.present := rfl
@[simp] theorem State.setBlk_clock (b : Nat) (x : Block) : (s.setBlk b x).clock = s.clock := rfl
@[simp] theorem State.setBlk_mem (b : Nat) (x : Block) : (s.setBlk b x).mem = s.mem := rfl
@[simp] theorem State.setBlk_poison (b : Nat) (x : Block) : (s.setBlk b x).poison = s.poison := rfl
@[simp] theorem State.setBlk_tlb (b : Nat) (x : Block) : (s.setBlk b x).tlb = s.tlb := rfl
@[simp] theorem State.setBlk_replicas (b : Nat) (x : Block) : (s.setBlk b x).replicas = s.replicas := rfl
@[simp] theorem State.setBlk_posted (b : Nat) (x : Block) : (s.setBlk b x).posted = s.posted := rfl
@[simp] theorem State.setBlk_dies (b : Nat) (x : Block) : (s.setBlk b x).dies = s.dies := rfl
@[simp] theorem State.setBlk_cores (b : Nat) (x : Block) : (s.setBlk b x).cores = s.cores := rfl
@[simp] theorem State.setBlk_handlers (b : Nat) (x : Block) : (s.setBlk b x).handlers = s.handlers := rfl
@[simp] theorem State.setBlk_groups (b : Nat) (x : Block) : (s.setBlk b x).groups = s.groups := rfl
@[simp] theorem State.setBlk_blocks (b : Nat) (x : Block) : (s.setBlk b x).blocks = spPut s.blocks b x := rfl
@[simp] theorem State.setBlk_launches (b : Nat) (x : Block) : (s.setBlk b x).launches = s.launches := rfl
@[simp] theorem State.setBlk_nextUid (b : Nat) (x : Block) : (s.setBlk b x).nextUid = s.nextUid := rfl
@[simp] theorem State.setBlk_nextBlock (b : Nat) (x : Block) : (s.setBlk b x).nextBlock = s.nextBlock := rfl
@[simp] theorem State.setBlk_nextSerial (b : Nat) (x : Block) : (s.setBlk b x).nextSerial = s.nextSerial := rfl
@[simp] theorem State.setBlk_loads (b : Nat) (x : Block) : (s.setBlk b x).loads = s.loads := rfl
@[simp] theorem State.setBlk_oplog (b : Nat) (x : Block) : (s.setBlk b x).oplog = s.oplog := rfl
@[simp] theorem State.setBlk_welts (b : Nat) (x : Block) : (s.setBlk b x).welts = s.welts := rfl
@[simp] theorem State.setBlk_redParks (b : Nat) (x : Block) : (s.setBlk b x).redParks = s.redParks := rfl
@[simp] theorem State.setBlk_ringParks (b : Nat) (x : Block) : (s.setBlk b x).ringParks = s.ringParks := rfl
@[simp] theorem State.setBlk_sigParks (b : Nat) (x : Block) : (s.setBlk b x).sigParks = s.sigParks := rfl
@[simp] theorem State.setBlk_waiters (b : Nat) (x : Block) : (s.setBlk b x).waiters = s.waiters := rfl
@[simp] theorem State.setBlk_copies (b : Nat) (x : Block) : (s.setBlk b x).copies = s.copies := rfl
@[simp] theorem State.setBlk_matOps (b : Nat) (x : Block) : (s.setBlk b x).matOps = s.matOps := rfl
@[simp] theorem State.setBlk_queries (b : Nat) (x : Block) : (s.setBlk b x).queries = s.queries := rfl
@[simp] theorem State.setBlk_splits (b : Nat) (x : Block) : (s.setBlk b x).splits = s.splits := rfl
@[simp] theorem State.setBlk_spawns (b : Nat) (x : Block) : (s.setBlk b x).spawns = s.spawns := rfl
@[simp] theorem State.setBlk_conts (b : Nat) (x : Block) : (s.setBlk b x).conts = s.conts := rfl
@[simp] theorem State.setBlk_walks (b : Nat) (x : Block) : (s.setBlk b x).walks = s.walks := rfl
@[simp] theorem State.setBlk_paths (b : Nat) (x : Block) : (s.setBlk b x).paths = s.paths := rfl
@[simp] theorem State.setBlk_ports (b : Nat) (x : Block) : (s.setBlk b x).ports = s.ports := rfl
@[simp] theorem State.setBlk_packets (b : Nat) (x : Block) : (s.setBlk b x).packets = s.packets := rfl
@[simp] theorem State.setBlk_stages (b : Nat) (x : Block) : (s.setBlk b x).stages = s.stages := rfl
@[simp] theorem State.setBlk_sessions (b : Nat) (x : Block) : (s.setBlk b x).sessions = s.sessions := rfl
@[simp] theorem State.setBlk_outbox (b : Nat) (x : Block) : (s.setBlk b x).outbox = s.outbox := rfl
@[simp] theorem State.setBlk_frameDrops (b : Nat) (x : Block) : (s.setBlk b x).frameDrops = s.frameDrops := rfl
@[simp] theorem State.setBlk_keys (b : Nat) (x : Block) : (s.setBlk b x).keys = s.keys := rfl
@[simp] theorem State.setBlk_ctxTab (b : Nat) (x : Block) : (s.setBlk b x).ctxTab = s.ctxTab := rfl
@[simp] theorem State.setBlk_savePool (b : Nat) (x : Block) : (s.setBlk b x).savePool = s.savePool := rfl
@[simp] theorem State.setBlk_udpPort (b : Nat) (x : Block) : (s.setBlk b x).udpPort = s.udpPort := rfl
@[simp] theorem State.setBlk_measure (b : Nat) (x : Block) : (s.setBlk b x).measure = s.measure := rfl
@[simp] theorem State.setBlk_fwBase (b : Nat) (x : Block) : (s.setBlk b x).fwBase = s.fwBase := rfl
@[simp] theorem State.setBlk_powerThrottle (b : Nat) (x : Block) : (s.setBlk b x).powerThrottle = s.powerThrottle := rfl
@[simp] theorem State.setBlk_thermal (b : Nat) (x : Block) : (s.setBlk b x).thermal = s.thermal := rfl
@[simp] theorem State.setBlk_throttled (b : Nat) (x : Block) : (s.setBlk b x).throttled = s.throttled := rfl
@[simp] theorem State.setBlk_free (b : Nat) (x : Block) : (s.setBlk b x).free = s.free := rfl
@[simp] theorem State.setBlk_agenda (b : Nat) (x : Block) : (s.setBlk b x).agenda = s.agenda := rfl
@[simp] theorem State.setBlk_cur (b : Nat) (x : Block) : (s.setBlk b x).cur = s.cur := rfl

/-! ### updBlk -/

@[simp] theorem State.updBlk_part (b : Nat) (f : Block → Block) : (s.updBlk b f).part = s.part := rfl
@[simp] theorem State.updBlk_present (b : Nat) (f : Block → Block) : (s.updBlk b f).present = s.present := rfl
@[simp] theorem State.updBlk_clock (b : Nat) (f : Block → Block) : (s.updBlk b f).clock = s.clock := rfl
@[simp] theorem State.updBlk_mem (b : Nat) (f : Block → Block) : (s.updBlk b f).mem = s.mem := rfl
@[simp] theorem State.updBlk_poison (b : Nat) (f : Block → Block) : (s.updBlk b f).poison = s.poison := rfl
@[simp] theorem State.updBlk_tlb (b : Nat) (f : Block → Block) : (s.updBlk b f).tlb = s.tlb := rfl
@[simp] theorem State.updBlk_replicas (b : Nat) (f : Block → Block) : (s.updBlk b f).replicas = s.replicas := rfl
@[simp] theorem State.updBlk_posted (b : Nat) (f : Block → Block) : (s.updBlk b f).posted = s.posted := rfl
@[simp] theorem State.updBlk_dies (b : Nat) (f : Block → Block) : (s.updBlk b f).dies = s.dies := rfl
@[simp] theorem State.updBlk_cores (b : Nat) (f : Block → Block) : (s.updBlk b f).cores = s.cores := rfl
@[simp] theorem State.updBlk_handlers (b : Nat) (f : Block → Block) : (s.updBlk b f).handlers = s.handlers := rfl
@[simp] theorem State.updBlk_groups (b : Nat) (f : Block → Block) : (s.updBlk b f).groups = s.groups := rfl
@[simp] theorem State.updBlk_blocks (b : Nat) (f : Block → Block) : (s.updBlk b f).blocks = spPut s.blocks b (f (s.blk b)) := rfl
@[simp] theorem State.updBlk_launches (b : Nat) (f : Block → Block) : (s.updBlk b f).launches = s.launches := rfl
@[simp] theorem State.updBlk_nextUid (b : Nat) (f : Block → Block) : (s.updBlk b f).nextUid = s.nextUid := rfl
@[simp] theorem State.updBlk_nextBlock (b : Nat) (f : Block → Block) : (s.updBlk b f).nextBlock = s.nextBlock := rfl
@[simp] theorem State.updBlk_nextSerial (b : Nat) (f : Block → Block) : (s.updBlk b f).nextSerial = s.nextSerial := rfl
@[simp] theorem State.updBlk_loads (b : Nat) (f : Block → Block) : (s.updBlk b f).loads = s.loads := rfl
@[simp] theorem State.updBlk_oplog (b : Nat) (f : Block → Block) : (s.updBlk b f).oplog = s.oplog := rfl
@[simp] theorem State.updBlk_welts (b : Nat) (f : Block → Block) : (s.updBlk b f).welts = s.welts := rfl
@[simp] theorem State.updBlk_redParks (b : Nat) (f : Block → Block) : (s.updBlk b f).redParks = s.redParks := rfl
@[simp] theorem State.updBlk_ringParks (b : Nat) (f : Block → Block) : (s.updBlk b f).ringParks = s.ringParks := rfl
@[simp] theorem State.updBlk_sigParks (b : Nat) (f : Block → Block) : (s.updBlk b f).sigParks = s.sigParks := rfl
@[simp] theorem State.updBlk_waiters (b : Nat) (f : Block → Block) : (s.updBlk b f).waiters = s.waiters := rfl
@[simp] theorem State.updBlk_copies (b : Nat) (f : Block → Block) : (s.updBlk b f).copies = s.copies := rfl
@[simp] theorem State.updBlk_matOps (b : Nat) (f : Block → Block) : (s.updBlk b f).matOps = s.matOps := rfl
@[simp] theorem State.updBlk_queries (b : Nat) (f : Block → Block) : (s.updBlk b f).queries = s.queries := rfl
@[simp] theorem State.updBlk_splits (b : Nat) (f : Block → Block) : (s.updBlk b f).splits = s.splits := rfl
@[simp] theorem State.updBlk_spawns (b : Nat) (f : Block → Block) : (s.updBlk b f).spawns = s.spawns := rfl
@[simp] theorem State.updBlk_conts (b : Nat) (f : Block → Block) : (s.updBlk b f).conts = s.conts := rfl
@[simp] theorem State.updBlk_walks (b : Nat) (f : Block → Block) : (s.updBlk b f).walks = s.walks := rfl
@[simp] theorem State.updBlk_paths (b : Nat) (f : Block → Block) : (s.updBlk b f).paths = s.paths := rfl
@[simp] theorem State.updBlk_ports (b : Nat) (f : Block → Block) : (s.updBlk b f).ports = s.ports := rfl
@[simp] theorem State.updBlk_packets (b : Nat) (f : Block → Block) : (s.updBlk b f).packets = s.packets := rfl
@[simp] theorem State.updBlk_stages (b : Nat) (f : Block → Block) : (s.updBlk b f).stages = s.stages := rfl
@[simp] theorem State.updBlk_sessions (b : Nat) (f : Block → Block) : (s.updBlk b f).sessions = s.sessions := rfl
@[simp] theorem State.updBlk_outbox (b : Nat) (f : Block → Block) : (s.updBlk b f).outbox = s.outbox := rfl
@[simp] theorem State.updBlk_frameDrops (b : Nat) (f : Block → Block) : (s.updBlk b f).frameDrops = s.frameDrops := rfl
@[simp] theorem State.updBlk_keys (b : Nat) (f : Block → Block) : (s.updBlk b f).keys = s.keys := rfl
@[simp] theorem State.updBlk_ctxTab (b : Nat) (f : Block → Block) : (s.updBlk b f).ctxTab = s.ctxTab := rfl
@[simp] theorem State.updBlk_savePool (b : Nat) (f : Block → Block) : (s.updBlk b f).savePool = s.savePool := rfl
@[simp] theorem State.updBlk_udpPort (b : Nat) (f : Block → Block) : (s.updBlk b f).udpPort = s.udpPort := rfl
@[simp] theorem State.updBlk_measure (b : Nat) (f : Block → Block) : (s.updBlk b f).measure = s.measure := rfl
@[simp] theorem State.updBlk_fwBase (b : Nat) (f : Block → Block) : (s.updBlk b f).fwBase = s.fwBase := rfl
@[simp] theorem State.updBlk_powerThrottle (b : Nat) (f : Block → Block) : (s.updBlk b f).powerThrottle = s.powerThrottle := rfl
@[simp] theorem State.updBlk_thermal (b : Nat) (f : Block → Block) : (s.updBlk b f).thermal = s.thermal := rfl
@[simp] theorem State.updBlk_throttled (b : Nat) (f : Block → Block) : (s.updBlk b f).throttled = s.throttled := rfl
@[simp] theorem State.updBlk_free (b : Nat) (f : Block → Block) : (s.updBlk b f).free = s.free := rfl
@[simp] theorem State.updBlk_agenda (b : Nat) (f : Block → Block) : (s.updBlk b f).agenda = s.agenda := rfl
@[simp] theorem State.updBlk_cur (b : Nat) (f : Block → Block) : (s.updBlk b f).cur = s.cur := rfl

/-! ### updLch -/

@[simp] theorem State.updLch_part (l : Nat) (f : Launch → Launch) : (s.updLch l f).part = s.part := rfl
@[simp] theorem State.updLch_present (l : Nat) (f : Launch → Launch) : (s.updLch l f).present = s.present := rfl
@[simp] theorem State.updLch_clock (l : Nat) (f : Launch → Launch) : (s.updLch l f).clock = s.clock := rfl
@[simp] theorem State.updLch_mem (l : Nat) (f : Launch → Launch) : (s.updLch l f).mem = s.mem := rfl
@[simp] theorem State.updLch_poison (l : Nat) (f : Launch → Launch) : (s.updLch l f).poison = s.poison := rfl
@[simp] theorem State.updLch_tlb (l : Nat) (f : Launch → Launch) : (s.updLch l f).tlb = s.tlb := rfl
@[simp] theorem State.updLch_replicas (l : Nat) (f : Launch → Launch) : (s.updLch l f).replicas = s.replicas := rfl
@[simp] theorem State.updLch_posted (l : Nat) (f : Launch → Launch) : (s.updLch l f).posted = s.posted := rfl
@[simp] theorem State.updLch_dies (l : Nat) (f : Launch → Launch) : (s.updLch l f).dies = s.dies := rfl
@[simp] theorem State.updLch_cores (l : Nat) (f : Launch → Launch) : (s.updLch l f).cores = s.cores := rfl
@[simp] theorem State.updLch_handlers (l : Nat) (f : Launch → Launch) : (s.updLch l f).handlers = s.handlers := rfl
@[simp] theorem State.updLch_groups (l : Nat) (f : Launch → Launch) : (s.updLch l f).groups = s.groups := rfl
@[simp] theorem State.updLch_blocks (l : Nat) (f : Launch → Launch) : (s.updLch l f).blocks = s.blocks := rfl
@[simp] theorem State.updLch_launches (l : Nat) (f : Launch → Launch) : (s.updLch l f).launches = spPut s.launches l (f (s.lch l)) := rfl
@[simp] theorem State.updLch_nextUid (l : Nat) (f : Launch → Launch) : (s.updLch l f).nextUid = s.nextUid := rfl
@[simp] theorem State.updLch_nextBlock (l : Nat) (f : Launch → Launch) : (s.updLch l f).nextBlock = s.nextBlock := rfl
@[simp] theorem State.updLch_nextSerial (l : Nat) (f : Launch → Launch) : (s.updLch l f).nextSerial = s.nextSerial := rfl
@[simp] theorem State.updLch_loads (l : Nat) (f : Launch → Launch) : (s.updLch l f).loads = s.loads := rfl
@[simp] theorem State.updLch_oplog (l : Nat) (f : Launch → Launch) : (s.updLch l f).oplog = s.oplog := rfl
@[simp] theorem State.updLch_welts (l : Nat) (f : Launch → Launch) : (s.updLch l f).welts = s.welts := rfl
@[simp] theorem State.updLch_redParks (l : Nat) (f : Launch → Launch) : (s.updLch l f).redParks = s.redParks := rfl
@[simp] theorem State.updLch_ringParks (l : Nat) (f : Launch → Launch) : (s.updLch l f).ringParks = s.ringParks := rfl
@[simp] theorem State.updLch_sigParks (l : Nat) (f : Launch → Launch) : (s.updLch l f).sigParks = s.sigParks := rfl
@[simp] theorem State.updLch_waiters (l : Nat) (f : Launch → Launch) : (s.updLch l f).waiters = s.waiters := rfl
@[simp] theorem State.updLch_copies (l : Nat) (f : Launch → Launch) : (s.updLch l f).copies = s.copies := rfl
@[simp] theorem State.updLch_matOps (l : Nat) (f : Launch → Launch) : (s.updLch l f).matOps = s.matOps := rfl
@[simp] theorem State.updLch_queries (l : Nat) (f : Launch → Launch) : (s.updLch l f).queries = s.queries := rfl
@[simp] theorem State.updLch_splits (l : Nat) (f : Launch → Launch) : (s.updLch l f).splits = s.splits := rfl
@[simp] theorem State.updLch_spawns (l : Nat) (f : Launch → Launch) : (s.updLch l f).spawns = s.spawns := rfl
@[simp] theorem State.updLch_conts (l : Nat) (f : Launch → Launch) : (s.updLch l f).conts = s.conts := rfl
@[simp] theorem State.updLch_walks (l : Nat) (f : Launch → Launch) : (s.updLch l f).walks = s.walks := rfl
@[simp] theorem State.updLch_paths (l : Nat) (f : Launch → Launch) : (s.updLch l f).paths = s.paths := rfl
@[simp] theorem State.updLch_ports (l : Nat) (f : Launch → Launch) : (s.updLch l f).ports = s.ports := rfl
@[simp] theorem State.updLch_packets (l : Nat) (f : Launch → Launch) : (s.updLch l f).packets = s.packets := rfl
@[simp] theorem State.updLch_stages (l : Nat) (f : Launch → Launch) : (s.updLch l f).stages = s.stages := rfl
@[simp] theorem State.updLch_sessions (l : Nat) (f : Launch → Launch) : (s.updLch l f).sessions = s.sessions := rfl
@[simp] theorem State.updLch_outbox (l : Nat) (f : Launch → Launch) : (s.updLch l f).outbox = s.outbox := rfl
@[simp] theorem State.updLch_frameDrops (l : Nat) (f : Launch → Launch) : (s.updLch l f).frameDrops = s.frameDrops := rfl
@[simp] theorem State.updLch_keys (l : Nat) (f : Launch → Launch) : (s.updLch l f).keys = s.keys := rfl
@[simp] theorem State.updLch_ctxTab (l : Nat) (f : Launch → Launch) : (s.updLch l f).ctxTab = s.ctxTab := rfl
@[simp] theorem State.updLch_savePool (l : Nat) (f : Launch → Launch) : (s.updLch l f).savePool = s.savePool := rfl
@[simp] theorem State.updLch_udpPort (l : Nat) (f : Launch → Launch) : (s.updLch l f).udpPort = s.udpPort := rfl
@[simp] theorem State.updLch_measure (l : Nat) (f : Launch → Launch) : (s.updLch l f).measure = s.measure := rfl
@[simp] theorem State.updLch_fwBase (l : Nat) (f : Launch → Launch) : (s.updLch l f).fwBase = s.fwBase := rfl
@[simp] theorem State.updLch_powerThrottle (l : Nat) (f : Launch → Launch) : (s.updLch l f).powerThrottle = s.powerThrottle := rfl
@[simp] theorem State.updLch_thermal (l : Nat) (f : Launch → Launch) : (s.updLch l f).thermal = s.thermal := rfl
@[simp] theorem State.updLch_throttled (l : Nat) (f : Launch → Launch) : (s.updLch l f).throttled = s.throttled := rfl
@[simp] theorem State.updLch_free (l : Nat) (f : Launch → Launch) : (s.updLch l f).free = s.free := rfl
@[simp] theorem State.updLch_agenda (l : Nat) (f : Launch → Launch) : (s.updLch l f).agenda = s.agenda := rfl
@[simp] theorem State.updLch_cur (l : Nat) (f : Launch → Launch) : (s.updLch l f).cur = s.cur := rfl

/-! ### updDie -/

@[simp] theorem State.updDie_part (d : Nat) (f : Die → Die) : (s.updDie d f).part = s.part := rfl
@[simp] theorem State.updDie_present (d : Nat) (f : Die → Die) : (s.updDie d f).present = s.present := rfl
@[simp] theorem State.updDie_clock (d : Nat) (f : Die → Die) : (s.updDie d f).clock = s.clock := rfl
@[simp] theorem State.updDie_mem (d : Nat) (f : Die → Die) : (s.updDie d f).mem = s.mem := rfl
@[simp] theorem State.updDie_poison (d : Nat) (f : Die → Die) : (s.updDie d f).poison = s.poison := rfl
@[simp] theorem State.updDie_tlb (d : Nat) (f : Die → Die) : (s.updDie d f).tlb = s.tlb := rfl
@[simp] theorem State.updDie_replicas (d : Nat) (f : Die → Die) : (s.updDie d f).replicas = s.replicas := rfl
@[simp] theorem State.updDie_posted (d : Nat) (f : Die → Die) : (s.updDie d f).posted = s.posted := rfl
@[simp] theorem State.updDie_dies (d : Nat) (f : Die → Die) : (s.updDie d f).dies = spPut s.dies d (f (s.die d)) := rfl
@[simp] theorem State.updDie_cores (d : Nat) (f : Die → Die) : (s.updDie d f).cores = s.cores := rfl
@[simp] theorem State.updDie_handlers (d : Nat) (f : Die → Die) : (s.updDie d f).handlers = s.handlers := rfl
@[simp] theorem State.updDie_groups (d : Nat) (f : Die → Die) : (s.updDie d f).groups = s.groups := rfl
@[simp] theorem State.updDie_blocks (d : Nat) (f : Die → Die) : (s.updDie d f).blocks = s.blocks := rfl
@[simp] theorem State.updDie_launches (d : Nat) (f : Die → Die) : (s.updDie d f).launches = s.launches := rfl
@[simp] theorem State.updDie_nextUid (d : Nat) (f : Die → Die) : (s.updDie d f).nextUid = s.nextUid := rfl
@[simp] theorem State.updDie_nextBlock (d : Nat) (f : Die → Die) : (s.updDie d f).nextBlock = s.nextBlock := rfl
@[simp] theorem State.updDie_nextSerial (d : Nat) (f : Die → Die) : (s.updDie d f).nextSerial = s.nextSerial := rfl
@[simp] theorem State.updDie_loads (d : Nat) (f : Die → Die) : (s.updDie d f).loads = s.loads := rfl
@[simp] theorem State.updDie_oplog (d : Nat) (f : Die → Die) : (s.updDie d f).oplog = s.oplog := rfl
@[simp] theorem State.updDie_welts (d : Nat) (f : Die → Die) : (s.updDie d f).welts = s.welts := rfl
@[simp] theorem State.updDie_redParks (d : Nat) (f : Die → Die) : (s.updDie d f).redParks = s.redParks := rfl
@[simp] theorem State.updDie_ringParks (d : Nat) (f : Die → Die) : (s.updDie d f).ringParks = s.ringParks := rfl
@[simp] theorem State.updDie_sigParks (d : Nat) (f : Die → Die) : (s.updDie d f).sigParks = s.sigParks := rfl
@[simp] theorem State.updDie_waiters (d : Nat) (f : Die → Die) : (s.updDie d f).waiters = s.waiters := rfl
@[simp] theorem State.updDie_copies (d : Nat) (f : Die → Die) : (s.updDie d f).copies = s.copies := rfl
@[simp] theorem State.updDie_matOps (d : Nat) (f : Die → Die) : (s.updDie d f).matOps = s.matOps := rfl
@[simp] theorem State.updDie_queries (d : Nat) (f : Die → Die) : (s.updDie d f).queries = s.queries := rfl
@[simp] theorem State.updDie_splits (d : Nat) (f : Die → Die) : (s.updDie d f).splits = s.splits := rfl
@[simp] theorem State.updDie_spawns (d : Nat) (f : Die → Die) : (s.updDie d f).spawns = s.spawns := rfl
@[simp] theorem State.updDie_conts (d : Nat) (f : Die → Die) : (s.updDie d f).conts = s.conts := rfl
@[simp] theorem State.updDie_walks (d : Nat) (f : Die → Die) : (s.updDie d f).walks = s.walks := rfl
@[simp] theorem State.updDie_paths (d : Nat) (f : Die → Die) : (s.updDie d f).paths = s.paths := rfl
@[simp] theorem State.updDie_ports (d : Nat) (f : Die → Die) : (s.updDie d f).ports = s.ports := rfl
@[simp] theorem State.updDie_packets (d : Nat) (f : Die → Die) : (s.updDie d f).packets = s.packets := rfl
@[simp] theorem State.updDie_stages (d : Nat) (f : Die → Die) : (s.updDie d f).stages = s.stages := rfl
@[simp] theorem State.updDie_sessions (d : Nat) (f : Die → Die) : (s.updDie d f).sessions = s.sessions := rfl
@[simp] theorem State.updDie_outbox (d : Nat) (f : Die → Die) : (s.updDie d f).outbox = s.outbox := rfl
@[simp] theorem State.updDie_frameDrops (d : Nat) (f : Die → Die) : (s.updDie d f).frameDrops = s.frameDrops := rfl
@[simp] theorem State.updDie_keys (d : Nat) (f : Die → Die) : (s.updDie d f).keys = s.keys := rfl
@[simp] theorem State.updDie_ctxTab (d : Nat) (f : Die → Die) : (s.updDie d f).ctxTab = s.ctxTab := rfl
@[simp] theorem State.updDie_savePool (d : Nat) (f : Die → Die) : (s.updDie d f).savePool = s.savePool := rfl
@[simp] theorem State.updDie_udpPort (d : Nat) (f : Die → Die) : (s.updDie d f).udpPort = s.udpPort := rfl
@[simp] theorem State.updDie_measure (d : Nat) (f : Die → Die) : (s.updDie d f).measure = s.measure := rfl
@[simp] theorem State.updDie_fwBase (d : Nat) (f : Die → Die) : (s.updDie d f).fwBase = s.fwBase := rfl
@[simp] theorem State.updDie_powerThrottle (d : Nat) (f : Die → Die) : (s.updDie d f).powerThrottle = s.powerThrottle := rfl
@[simp] theorem State.updDie_thermal (d : Nat) (f : Die → Die) : (s.updDie d f).thermal = s.thermal := rfl
@[simp] theorem State.updDie_throttled (d : Nat) (f : Die → Die) : (s.updDie d f).throttled = s.throttled := rfl
@[simp] theorem State.updDie_free (d : Nat) (f : Die → Die) : (s.updDie d f).free = s.free := rfl
@[simp] theorem State.updDie_agenda (d : Nat) (f : Die → Die) : (s.updDie d f).agenda = s.agenda := rfl
@[simp] theorem State.updDie_cur (d : Nat) (f : Die → Die) : (s.updDie d f).cur = s.cur := rfl

/-! ### updCore -/

@[simp] theorem State.updCore_part (c : Nat) (f : Core → Core) : (s.updCore c f).part = s.part := rfl
@[simp] theorem State.updCore_present (c : Nat) (f : Core → Core) : (s.updCore c f).present = s.present := rfl
@[simp] theorem State.updCore_clock (c : Nat) (f : Core → Core) : (s.updCore c f).clock = s.clock := rfl
@[simp] theorem State.updCore_mem (c : Nat) (f : Core → Core) : (s.updCore c f).mem = s.mem := rfl
@[simp] theorem State.updCore_poison (c : Nat) (f : Core → Core) : (s.updCore c f).poison = s.poison := rfl
@[simp] theorem State.updCore_tlb (c : Nat) (f : Core → Core) : (s.updCore c f).tlb = s.tlb := rfl
@[simp] theorem State.updCore_replicas (c : Nat) (f : Core → Core) : (s.updCore c f).replicas = s.replicas := rfl
@[simp] theorem State.updCore_posted (c : Nat) (f : Core → Core) : (s.updCore c f).posted = s.posted := rfl
@[simp] theorem State.updCore_dies (c : Nat) (f : Core → Core) : (s.updCore c f).dies = s.dies := rfl
@[simp] theorem State.updCore_cores (c : Nat) (f : Core → Core) : (s.updCore c f).cores = spPut s.cores c (f (s.core c)) := rfl
@[simp] theorem State.updCore_handlers (c : Nat) (f : Core → Core) : (s.updCore c f).handlers = s.handlers := rfl
@[simp] theorem State.updCore_groups (c : Nat) (f : Core → Core) : (s.updCore c f).groups = s.groups := rfl
@[simp] theorem State.updCore_blocks (c : Nat) (f : Core → Core) : (s.updCore c f).blocks = s.blocks := rfl
@[simp] theorem State.updCore_launches (c : Nat) (f : Core → Core) : (s.updCore c f).launches = s.launches := rfl
@[simp] theorem State.updCore_nextUid (c : Nat) (f : Core → Core) : (s.updCore c f).nextUid = s.nextUid := rfl
@[simp] theorem State.updCore_nextBlock (c : Nat) (f : Core → Core) : (s.updCore c f).nextBlock = s.nextBlock := rfl
@[simp] theorem State.updCore_nextSerial (c : Nat) (f : Core → Core) : (s.updCore c f).nextSerial = s.nextSerial := rfl
@[simp] theorem State.updCore_loads (c : Nat) (f : Core → Core) : (s.updCore c f).loads = s.loads := rfl
@[simp] theorem State.updCore_oplog (c : Nat) (f : Core → Core) : (s.updCore c f).oplog = s.oplog := rfl
@[simp] theorem State.updCore_welts (c : Nat) (f : Core → Core) : (s.updCore c f).welts = s.welts := rfl
@[simp] theorem State.updCore_redParks (c : Nat) (f : Core → Core) : (s.updCore c f).redParks = s.redParks := rfl
@[simp] theorem State.updCore_ringParks (c : Nat) (f : Core → Core) : (s.updCore c f).ringParks = s.ringParks := rfl
@[simp] theorem State.updCore_sigParks (c : Nat) (f : Core → Core) : (s.updCore c f).sigParks = s.sigParks := rfl
@[simp] theorem State.updCore_waiters (c : Nat) (f : Core → Core) : (s.updCore c f).waiters = s.waiters := rfl
@[simp] theorem State.updCore_copies (c : Nat) (f : Core → Core) : (s.updCore c f).copies = s.copies := rfl
@[simp] theorem State.updCore_matOps (c : Nat) (f : Core → Core) : (s.updCore c f).matOps = s.matOps := rfl
@[simp] theorem State.updCore_queries (c : Nat) (f : Core → Core) : (s.updCore c f).queries = s.queries := rfl
@[simp] theorem State.updCore_splits (c : Nat) (f : Core → Core) : (s.updCore c f).splits = s.splits := rfl
@[simp] theorem State.updCore_spawns (c : Nat) (f : Core → Core) : (s.updCore c f).spawns = s.spawns := rfl
@[simp] theorem State.updCore_conts (c : Nat) (f : Core → Core) : (s.updCore c f).conts = s.conts := rfl
@[simp] theorem State.updCore_walks (c : Nat) (f : Core → Core) : (s.updCore c f).walks = s.walks := rfl
@[simp] theorem State.updCore_paths (c : Nat) (f : Core → Core) : (s.updCore c f).paths = s.paths := rfl
@[simp] theorem State.updCore_ports (c : Nat) (f : Core → Core) : (s.updCore c f).ports = s.ports := rfl
@[simp] theorem State.updCore_packets (c : Nat) (f : Core → Core) : (s.updCore c f).packets = s.packets := rfl
@[simp] theorem State.updCore_stages (c : Nat) (f : Core → Core) : (s.updCore c f).stages = s.stages := rfl
@[simp] theorem State.updCore_sessions (c : Nat) (f : Core → Core) : (s.updCore c f).sessions = s.sessions := rfl
@[simp] theorem State.updCore_outbox (c : Nat) (f : Core → Core) : (s.updCore c f).outbox = s.outbox := rfl
@[simp] theorem State.updCore_frameDrops (c : Nat) (f : Core → Core) : (s.updCore c f).frameDrops = s.frameDrops := rfl
@[simp] theorem State.updCore_keys (c : Nat) (f : Core → Core) : (s.updCore c f).keys = s.keys := rfl
@[simp] theorem State.updCore_ctxTab (c : Nat) (f : Core → Core) : (s.updCore c f).ctxTab = s.ctxTab := rfl
@[simp] theorem State.updCore_savePool (c : Nat) (f : Core → Core) : (s.updCore c f).savePool = s.savePool := rfl
@[simp] theorem State.updCore_udpPort (c : Nat) (f : Core → Core) : (s.updCore c f).udpPort = s.udpPort := rfl
@[simp] theorem State.updCore_measure (c : Nat) (f : Core → Core) : (s.updCore c f).measure = s.measure := rfl
@[simp] theorem State.updCore_fwBase (c : Nat) (f : Core → Core) : (s.updCore c f).fwBase = s.fwBase := rfl
@[simp] theorem State.updCore_powerThrottle (c : Nat) (f : Core → Core) : (s.updCore c f).powerThrottle = s.powerThrottle := rfl
@[simp] theorem State.updCore_thermal (c : Nat) (f : Core → Core) : (s.updCore c f).thermal = s.thermal := rfl
@[simp] theorem State.updCore_throttled (c : Nat) (f : Core → Core) : (s.updCore c f).throttled = s.throttled := rfl
@[simp] theorem State.updCore_free (c : Nat) (f : Core → Core) : (s.updCore c f).free = s.free := rfl
@[simp] theorem State.updCore_agenda (c : Nat) (f : Core → Core) : (s.updCore c f).agenda = s.agenda := rfl
@[simp] theorem State.updCore_cur (c : Nat) (f : Core → Core) : (s.updCore c f).cur = s.cur := rfl

/-! ### updHandler -/

@[simp] theorem State.updHandler_part (q : Nat) (f : Handler → Handler) : (s.updHandler q f).part = s.part := rfl
@[simp] theorem State.updHandler_present (q : Nat) (f : Handler → Handler) : (s.updHandler q f).present = s.present := rfl
@[simp] theorem State.updHandler_clock (q : Nat) (f : Handler → Handler) : (s.updHandler q f).clock = s.clock := rfl
@[simp] theorem State.updHandler_mem (q : Nat) (f : Handler → Handler) : (s.updHandler q f).mem = s.mem := rfl
@[simp] theorem State.updHandler_poison (q : Nat) (f : Handler → Handler) : (s.updHandler q f).poison = s.poison := rfl
@[simp] theorem State.updHandler_tlb (q : Nat) (f : Handler → Handler) : (s.updHandler q f).tlb = s.tlb := rfl
@[simp] theorem State.updHandler_replicas (q : Nat) (f : Handler → Handler) : (s.updHandler q f).replicas = s.replicas := rfl
@[simp] theorem State.updHandler_posted (q : Nat) (f : Handler → Handler) : (s.updHandler q f).posted = s.posted := rfl
@[simp] theorem State.updHandler_dies (q : Nat) (f : Handler → Handler) : (s.updHandler q f).dies = s.dies := rfl
@[simp] theorem State.updHandler_cores (q : Nat) (f : Handler → Handler) : (s.updHandler q f).cores = s.cores := rfl
@[simp] theorem State.updHandler_handlers (q : Nat) (f : Handler → Handler) : (s.updHandler q f).handlers = spPut s.handlers q (f (s.handler q)) := rfl
@[simp] theorem State.updHandler_groups (q : Nat) (f : Handler → Handler) : (s.updHandler q f).groups = s.groups := rfl
@[simp] theorem State.updHandler_blocks (q : Nat) (f : Handler → Handler) : (s.updHandler q f).blocks = s.blocks := rfl
@[simp] theorem State.updHandler_launches (q : Nat) (f : Handler → Handler) : (s.updHandler q f).launches = s.launches := rfl
@[simp] theorem State.updHandler_nextUid (q : Nat) (f : Handler → Handler) : (s.updHandler q f).nextUid = s.nextUid := rfl
@[simp] theorem State.updHandler_nextBlock (q : Nat) (f : Handler → Handler) : (s.updHandler q f).nextBlock = s.nextBlock := rfl
@[simp] theorem State.updHandler_nextSerial (q : Nat) (f : Handler → Handler) : (s.updHandler q f).nextSerial = s.nextSerial := rfl
@[simp] theorem State.updHandler_loads (q : Nat) (f : Handler → Handler) : (s.updHandler q f).loads = s.loads := rfl
@[simp] theorem State.updHandler_oplog (q : Nat) (f : Handler → Handler) : (s.updHandler q f).oplog = s.oplog := rfl
@[simp] theorem State.updHandler_welts (q : Nat) (f : Handler → Handler) : (s.updHandler q f).welts = s.welts := rfl
@[simp] theorem State.updHandler_redParks (q : Nat) (f : Handler → Handler) : (s.updHandler q f).redParks = s.redParks := rfl
@[simp] theorem State.updHandler_ringParks (q : Nat) (f : Handler → Handler) : (s.updHandler q f).ringParks = s.ringParks := rfl
@[simp] theorem State.updHandler_sigParks (q : Nat) (f : Handler → Handler) : (s.updHandler q f).sigParks = s.sigParks := rfl
@[simp] theorem State.updHandler_waiters (q : Nat) (f : Handler → Handler) : (s.updHandler q f).waiters = s.waiters := rfl
@[simp] theorem State.updHandler_copies (q : Nat) (f : Handler → Handler) : (s.updHandler q f).copies = s.copies := rfl
@[simp] theorem State.updHandler_matOps (q : Nat) (f : Handler → Handler) : (s.updHandler q f).matOps = s.matOps := rfl
@[simp] theorem State.updHandler_queries (q : Nat) (f : Handler → Handler) : (s.updHandler q f).queries = s.queries := rfl
@[simp] theorem State.updHandler_splits (q : Nat) (f : Handler → Handler) : (s.updHandler q f).splits = s.splits := rfl
@[simp] theorem State.updHandler_spawns (q : Nat) (f : Handler → Handler) : (s.updHandler q f).spawns = s.spawns := rfl
@[simp] theorem State.updHandler_conts (q : Nat) (f : Handler → Handler) : (s.updHandler q f).conts = s.conts := rfl
@[simp] theorem State.updHandler_walks (q : Nat) (f : Handler → Handler) : (s.updHandler q f).walks = s.walks := rfl
@[simp] theorem State.updHandler_paths (q : Nat) (f : Handler → Handler) : (s.updHandler q f).paths = s.paths := rfl
@[simp] theorem State.updHandler_ports (q : Nat) (f : Handler → Handler) : (s.updHandler q f).ports = s.ports := rfl
@[simp] theorem State.updHandler_packets (q : Nat) (f : Handler → Handler) : (s.updHandler q f).packets = s.packets := rfl
@[simp] theorem State.updHandler_stages (q : Nat) (f : Handler → Handler) : (s.updHandler q f).stages = s.stages := rfl
@[simp] theorem State.updHandler_sessions (q : Nat) (f : Handler → Handler) : (s.updHandler q f).sessions = s.sessions := rfl
@[simp] theorem State.updHandler_outbox (q : Nat) (f : Handler → Handler) : (s.updHandler q f).outbox = s.outbox := rfl
@[simp] theorem State.updHandler_frameDrops (q : Nat) (f : Handler → Handler) : (s.updHandler q f).frameDrops = s.frameDrops := rfl
@[simp] theorem State.updHandler_keys (q : Nat) (f : Handler → Handler) : (s.updHandler q f).keys = s.keys := rfl
@[simp] theorem State.updHandler_ctxTab (q : Nat) (f : Handler → Handler) : (s.updHandler q f).ctxTab = s.ctxTab := rfl
@[simp] theorem State.updHandler_savePool (q : Nat) (f : Handler → Handler) : (s.updHandler q f).savePool = s.savePool := rfl
@[simp] theorem State.updHandler_udpPort (q : Nat) (f : Handler → Handler) : (s.updHandler q f).udpPort = s.udpPort := rfl
@[simp] theorem State.updHandler_measure (q : Nat) (f : Handler → Handler) : (s.updHandler q f).measure = s.measure := rfl
@[simp] theorem State.updHandler_fwBase (q : Nat) (f : Handler → Handler) : (s.updHandler q f).fwBase = s.fwBase := rfl
@[simp] theorem State.updHandler_powerThrottle (q : Nat) (f : Handler → Handler) : (s.updHandler q f).powerThrottle = s.powerThrottle := rfl
@[simp] theorem State.updHandler_thermal (q : Nat) (f : Handler → Handler) : (s.updHandler q f).thermal = s.thermal := rfl
@[simp] theorem State.updHandler_throttled (q : Nat) (f : Handler → Handler) : (s.updHandler q f).throttled = s.throttled := rfl
@[simp] theorem State.updHandler_free (q : Nat) (f : Handler → Handler) : (s.updHandler q f).free = s.free := rfl
@[simp] theorem State.updHandler_agenda (q : Nat) (f : Handler → Handler) : (s.updHandler q f).agenda = s.agenda := rfl
@[simp] theorem State.updHandler_cur (q : Nat) (f : Handler → Handler) : (s.updHandler q f).cur = s.cur := rfl

/-! ### Accessors after an update of another map -/

@[simp] theorem State.setGrp_acc_blk (g : Nat) (x : Group) (k : Nat) : (s.setGrp g x).blk k = s.blk k := rfl
@[simp] theorem State.setGrp_acc_lch (g : Nat) (x : Group) (k : Nat) : (s.setGrp g x).lch k = s.lch k := rfl
@[simp] theorem State.setGrp_acc_die (g : Nat) (x : Group) (k : Nat) : (s.setGrp g x).die k = s.die k := rfl
@[simp] theorem State.setGrp_acc_core (g : Nat) (x : Group) (k : Nat) : (s.setGrp g x).core k = s.core k := rfl
@[simp] theorem State.setGrp_acc_handler (g : Nat) (x : Group) (k : Nat) : (s.setGrp g x).handler k = s.handler k := rfl
@[simp] theorem State.updGrp_acc_blk (g : Nat) (f : Group → Group) (k : Nat) : (s.updGrp g f).blk k = s.blk k := rfl
@[simp] theorem State.updGrp_acc_lch (g : Nat) (f : Group → Group) (k : Nat) : (s.updGrp g f).lch k = s.lch k := rfl
@[simp] theorem State.updGrp_acc_die (g : Nat) (f : Group → Group) (k : Nat) : (s.updGrp g f).die k = s.die k := rfl
@[simp] theorem State.updGrp_acc_core (g : Nat) (f : Group → Group) (k : Nat) : (s.updGrp g f).core k = s.core k := rfl
@[simp] theorem State.updGrp_acc_handler (g : Nat) (f : Group → Group) (k : Nat) : (s.updGrp g f).handler k = s.handler k := rfl
@[simp] theorem State.updMe_acc_blk (f : Group → Group) (k : Nat) : (s.updMe f).blk k = s.blk k := rfl
@[simp] theorem State.updMe_acc_lch (f : Group → Group) (k : Nat) : (s.updMe f).lch k = s.lch k := rfl
@[simp] theorem State.updMe_acc_die (f : Group → Group) (k : Nat) : (s.updMe f).die k = s.die k := rfl
@[simp] theorem State.updMe_acc_core (f : Group → Group) (k : Nat) : (s.updMe f).core k = s.core k := rfl
@[simp] theorem State.updMe_acc_handler (f : Group → Group) (k : Nat) : (s.updMe f).handler k = s.handler k := rfl
@[simp] theorem State.setBlk_acc_grp (b : Nat) (x : Block) (k : Nat) : (s.setBlk b x).grp k = s.grp k := rfl
@[simp] theorem State.setBlk_acc_lch (b : Nat) (x : Block) (k : Nat) : (s.setBlk b x).lch k = s.lch k := rfl
@[simp] theorem State.setBlk_acc_die (b : Nat) (x : Block) (k : Nat) : (s.setBlk b x).die k = s.die k := rfl
@[simp] theorem State.setBlk_acc_core (b : Nat) (x : Block) (k : Nat) : (s.setBlk b x).core k = s.core k := rfl
@[simp] theorem State.setBlk_acc_handler (b : Nat) (x : Block) (k : Nat) : (s.setBlk b x).handler k = s.handler k := rfl
@[simp] theorem State.updBlk_acc_grp (b : Nat) (f : Block → Block) (k : Nat) : (s.updBlk b f).grp k = s.grp k := rfl
@[simp] theorem State.updBlk_acc_lch (b : Nat) (f : Block → Block) (k : Nat) : (s.updBlk b f).lch k = s.lch k := rfl
@[simp] theorem State.updBlk_acc_die (b : Nat) (f : Block → Block) (k : Nat) : (s.updBlk b f).die k = s.die k := rfl
@[simp] theorem State.updBlk_acc_core (b : Nat) (f : Block → Block) (k : Nat) : (s.updBlk b f).core k = s.core k := rfl
@[simp] theorem State.updBlk_acc_handler (b : Nat) (f : Block → Block) (k : Nat) : (s.updBlk b f).handler k = s.handler k := rfl
@[simp] theorem State.updLch_acc_grp (l : Nat) (f : Launch → Launch) (k : Nat) : (s.updLch l f).grp k = s.grp k := rfl
@[simp] theorem State.updLch_acc_blk (l : Nat) (f : Launch → Launch) (k : Nat) : (s.updLch l f).blk k = s.blk k := rfl
@[simp] theorem State.updLch_acc_die (l : Nat) (f : Launch → Launch) (k : Nat) : (s.updLch l f).die k = s.die k := rfl
@[simp] theorem State.updLch_acc_core (l : Nat) (f : Launch → Launch) (k : Nat) : (s.updLch l f).core k = s.core k := rfl
@[simp] theorem State.updLch_acc_handler (l : Nat) (f : Launch → Launch) (k : Nat) : (s.updLch l f).handler k = s.handler k := rfl
@[simp] theorem State.updDie_acc_grp (d : Nat) (f : Die → Die) (k : Nat) : (s.updDie d f).grp k = s.grp k := rfl
@[simp] theorem State.updDie_acc_blk (d : Nat) (f : Die → Die) (k : Nat) : (s.updDie d f).blk k = s.blk k := rfl
@[simp] theorem State.updDie_acc_lch (d : Nat) (f : Die → Die) (k : Nat) : (s.updDie d f).lch k = s.lch k := rfl
@[simp] theorem State.updDie_acc_core (d : Nat) (f : Die → Die) (k : Nat) : (s.updDie d f).core k = s.core k := rfl
@[simp] theorem State.updDie_acc_handler (d : Nat) (f : Die → Die) (k : Nat) : (s.updDie d f).handler k = s.handler k := rfl
@[simp] theorem State.updCore_acc_grp (c : Nat) (f : Core → Core) (k : Nat) : (s.updCore c f).grp k = s.grp k := rfl
@[simp] theorem State.updCore_acc_blk (c : Nat) (f : Core → Core) (k : Nat) : (s.updCore c f).blk k = s.blk k := rfl
@[simp] theorem State.updCore_acc_lch (c : Nat) (f : Core → Core) (k : Nat) : (s.updCore c f).lch k = s.lch k := rfl
@[simp] theorem State.updCore_acc_die (c : Nat) (f : Core → Core) (k : Nat) : (s.updCore c f).die k = s.die k := rfl
@[simp] theorem State.updCore_acc_handler (c : Nat) (f : Core → Core) (k : Nat) : (s.updCore c f).handler k = s.handler k := rfl
@[simp] theorem State.updHandler_acc_grp (q : Nat) (f : Handler → Handler) (k : Nat) : (s.updHandler q f).grp k = s.grp k := rfl
@[simp] theorem State.updHandler_acc_blk (q : Nat) (f : Handler → Handler) (k : Nat) : (s.updHandler q f).blk k = s.blk k := rfl
@[simp] theorem State.updHandler_acc_lch (q : Nat) (f : Handler → Handler) (k : Nat) : (s.updHandler q f).lch k = s.lch k := rfl
@[simp] theorem State.updHandler_acc_die (q : Nat) (f : Handler → Handler) (k : Nat) : (s.updHandler q f).die k = s.die k := rfl
@[simp] theorem State.updHandler_acc_core (q : Nat) (f : Handler → Handler) (k : Nat) : (s.updHandler q f).core k = s.core k := rfl

/-! ### Accessors after an update of their own map -/

theorem State.grp_setGrp (g h : Nat) (x : Group) : (s.setGrp g x).grp h = if g = h then x else s.grp h := by
  simp only [State.grp, State.setGrp, spFind_spPut]
  split <;> simp_all
@[simp] theorem State.grp_setGrp_self (g : Nat) (x : Group) : (s.setGrp g x).grp g = x := by simp [State.grp_setGrp]
theorem State.grp_updGrp (g h : Nat) (f : Group → Group) : (s.updGrp g f).grp h = if g = h then f (s.grp g) else s.grp h :=
  State.grp_setGrp s g h (f (s.grp g))
@[simp] theorem State.grp_updGrp_self (g : Nat) (f : Group → Group) : (s.updGrp g f).grp g = f (s.grp g) := by
  simp [State.grp_updGrp]
@[simp] theorem State.me_updMe (f : Group → Group) : (s.updMe f).me = f s.me := State.grp_updGrp_self s s.cur.g f
theorem State.blk_setBlk (b c : Nat) (x : Block) : (s.setBlk b x).blk c = if b = c then x else s.blk c := by
  simp only [State.blk, State.setBlk, spFind_spPut]
  split <;> simp_all
@[simp] theorem State.blk_updBlk_self (b : Nat) (f : Block → Block) : (s.updBlk b f).blk b = f (s.blk b) := by
  simp [State.updBlk, State.blk_setBlk]
theorem State.lch_updLch (l k : Nat) (f : Launch → Launch) : (s.updLch l f).lch k = if l = k then f (s.lch l) else s.lch k := by
  simp only [State.lch, State.updLch, spFind_spPut]
  split <;> simp_all
theorem State.die_updDie (d e : Nat) (f : Die → Die) : (s.updDie d f).die e = if d = e then f (s.die d) else s.die e := by
  simp only [State.die, State.updDie, spFind_spPut]
  split <;> simp_all
theorem State.core_updCore (c k : Nat) (f : Core → Core) : (s.updCore c f).core k = if c = k then f (s.core c) else s.core k := by
  simp only [State.core, State.updCore, spFind_spPut]
  split <;> simp_all
theorem State.handler_updHandler (q k : Nat) (f : Handler → Handler) :
    (s.updHandler q f).handler k = if q = k then f (s.handler q) else s.handler k := by
  simp only [State.handler, State.updHandler, spFind_spPut]
  split <;> simp_all

end Sys2Proof.Machine
end

