-- ==== Sys2Proof/Laws/Meaning.lean ====
section
/-! SUPPORT. Meaning.lean (laws): the meaning monad, one step at a time, and how a meaning ends. The steps are proved so that a
rewrite by one keeps it in the proof, and nothing is unfolded to check it. -/

namespace Sys2Proof.Machine

variable {α β : Type}

@[simp] theorem M_pure (a : α) (s : State) : (pure a : M α) s = .ok (a, s) := Eq.trans rfl rfl
@[simp] theorem M_get (s : State) : (get : M State) s = .ok (s, s) := Eq.trans rfl rfl
@[simp] theorem M_set (t s : State) : (set t : M PUnit) s = .ok (PUnit.unit, t) := Eq.trans rfl rfl
@[simp] theorem M_upd (f : State → State) (s : State) : upd f s = .ok ((), f s) := Eq.trans rfl rfl
@[simp] theorem M_trap (t : Trap) (s : State) : (trapM t : M α) s = .error (.trap t) := Eq.trans rfl rfl
@[simp] theorem M_stall (s : State) : (stallM : M α) s = .error .stall := Eq.trans rfl rfl
@[simp] theorem M_idle (s : State) : (idleM : M α) s = .error .idle := Eq.trans rfl rfl

/-- A sequence: the first part's outcome, then the second's from there. -/
theorem M_bind (m : M α) (f : α → M β) (s : State) :
    (m >>= f) s = match m s with
      | .ok (a, t) => f a t
      | .error e => .error e := by
  cases h : m s <;> simp [bind, StateT.bind, Except.bind, h]
theorem M_bind_ok (m : M α) (f : α → M β) (s t : State) (a : α) (h : m s = .ok (a, t)) : (m >>= f) s = f a t := by
  rw [M_bind, h]
theorem M_bind_error (m : M α) (f : α → M β) (s : State) (e : Stop) (h : m s = .error e) : (m >>= f) s = .error e := by
  rw [M_bind, h]
@[simp] theorem M_get_bind (f : State → M β) (s : State) : ((get : M State) >>= f) s = f s s := Eq.trans rfl rfl
@[simp] theorem M_pure_bind (a : α) (f : α → M β) (s : State) : ((pure a : M α) >>= f) s = f a s := Eq.trans rfl rfl
@[simp] theorem M_upd_bind (u : State → State) (f : Unit → M β) (s : State) : (upd u >>= f) s = f () (u s) := Eq.trans rfl rfl
@[simp] theorem M_set_bind (t : State) (f : PUnit → M β) (s : State) : ((set t : M PUnit) >>= f) s = f PUnit.unit t := Eq.trans rfl rfl
@[simp] theorem M_trap_bind (t : Trap) (f : α → M β) (s : State) : ((trapM t : M α) >>= f) s = .error (.trap t) := Eq.trans rfl rfl
@[simp] theorem M_stall_bind (f : α → M β) (s : State) : ((stallM : M α) >>= f) s = .error .stall := Eq.trans rfl rfl
@[simp] theorem M_idle_bind (f : α → M β) (s : State) : ((idleM : M α) >>= f) s = .error .idle := Eq.trans rfl rfl

theorem need_ok (b : Bool) (t : Trap) (s : State) (h : b = true) : need b t s = .ok ((), s) := by simp [need, h]
theorem need_trap (b : Bool) (t : Trap) (s : State) (h : b = false) : need b t s = .error (.trap t) := by simp [need, h]
theorem onlyIf_ok (b : Bool) (s : State) (h : b = true) : onlyIf b s = .ok ((), s) := by simp [onlyIf, h]
@[simp] theorem M_need_bind (b : Bool) (t : Trap) (f : Unit → M β) (s : State) :
    (need b t >>= f) s = if b = true then f () s else .error (.trap t) := by
  cases b <;> rfl
@[simp] theorem M_onlyIf_bind (b : Bool) (f : Unit → M β) (s : State) :
    (onlyIf b >>= f) s = if b = true then f () s else .error .idle := by
  cases b <;> rfl

/-! ### How a meaning ends -/

theorem finish_ok (m : M Unit) (s t : State) (h : m s = .ok ((), t)) : finish m s = .next t := by simp [finish, h]
theorem finish_trap (m : M Unit) (s : State) (t : Trap) (h : m s = .error (.trap t)) : finish m s = .next (takeTrap s t) := by
  simp [finish, h]
theorem finish_stall (m : M Unit) (s : State) (h : m s = .error .stall) : finish m s = .next (stalled s) := by simp [finish, h]
theorem finish_idle (m : M Unit) (s : State) (h : m s = .error .idle) : finish m s = .next s := by simp [finish, h]
/-- A meaning always answers a next state: it never faults and is never refused. -/
theorem finish_next (m : M Unit) (s : State) : ∃ t, finish m s = .next t := by
  unfold finish
  split
  · exact ⟨_, rfl⟩
  · exact ⟨_, rfl⟩
  · exact ⟨_, rfl⟩
  · exact ⟨_, rfl⟩

/-- Taking a trap saves the offset of the instruction: a group that runs halts, with the cause, at that offset. -/
theorem takeTrap_out (s : State) (t : Trap) : (takeTrap s t).cur.out = .trapped t := rfl

end Sys2Proof.Machine
end

