-- ==== Sys2Proof/Laws/Lane.lean ====
section
/-! SUPPORT. Lane.lean (laws): what the shared frame of Format A does when its sources are good and no enabled flag is raised. -/

namespace Sys2Proof.Machine

theorem checkStale_ok (u : Bool) (fs : List FieldUse) (ts : List Nat) (s : State) (h : ∀ t ∈ ts, staleAt s.seen fs t = false) :
    checkStale u fs ts s = .ok ((), s) := by
  have h0 : ts.filter (staleAt s.seen fs) = [] := by simpa [List.filter_eq_nil_iff] using h
  simp only [checkStale, h0, M_get_bind, need, decide_true, if_true, M_pure]
theorem checkPoison_ok (u : Bool) (fs : List FieldUse) (ts : List Nat) (s : State) (h : ∀ t ∈ ts, poisonAt s.seen fs t = false) :
    checkPoison u fs ts s = .ok ((), s) := by
  have h0 : ts.filter (poisonAt s.seen fs) = [] := by simpa [List.filter_eq_nil_iff] using h
  simp only [checkPoison, h0, M_get_bind, need, decide_true, if_true, M_pure]
theorem checkSources_ok (u : Bool) (fs : List FieldUse) (ts : List Nat) (s : State)
    (h : ∀ t ∈ ts, staleAt s.seen fs t = false ∧ poisonAt s.seen fs t = false) : checkSources u fs ts s = .ok ((), s) := by
  unfold checkSources
  rw [M_bind_ok _ _ _ _ _ (checkStale_ok u fs ts s fun t ht => (h t ht).1)]
  exact checkPoison_ok u fs ts s fun t ht => (h t ht).2

theorem putAll_ok (u : Bool) (o : Nat → FmtA) (rs : List (Nat × Res)) (s : State)
    (h : ∀ r ∈ rs, enabledFlags s.me r.2.flags = 0) : putAll u o rs s = .ok ((), writeAll o rs s) := by
  have h0 : (rs.filter fun r => enabledFlags s.me r.2.flags ≠ 0) = [] := by simpa [List.filter_eq_nil_iff] using h
  simp only [putAll, h0, M_get_bind, List.map_nil, M_need_bind, decide_true, if_true, M_upd]

/-- The shared frame completes: every runner's result, computed from the state before, is written. -/
theorem runA_ok (op : Nat) (o : FmtA) (f : State → Nat → Res) (s : State)
    (h : ∀ t ∈ runners s o.h, staleAt s.seen (readsA op o) t = false ∧ poisonAt s.seen (readsA op o) t = false)
    (hf : ∀ t ∈ runners s o.h, enabledFlags s.me (f s t).flags = 0) :
    finish (runA op o f) s = .next (writeAll (fun _ => o) ((runners s o.h).map fun t => (t, f s t)) s) := by
  apply finish_ok
  unfold runA
  simp only [M_get_bind]
  rw [M_bind_ok _ _ _ _ _ (checkSources_ok o.h.u (readsA op o) (runners s o.h) s h)]
  exact putAll_ok o.h.u _ _ s (by simpa using hf)

end Sys2Proof.Machine
end

