-- ==== Sys2Proof/Laws/Access.lean ====
section
/-! SUPPORT. Access.lean (laws): what the shared frame of Format M does when every access passes Table 9-2: the body runs on
every runner's place and data. -/

namespace Sys2Proof.Machine

open Claim

/-- The checks pass and give each runner's place. -/
theorem checkAccess_ok (o : FmtM) (f : Nat → Int) (ts : List Nat) (n al : Nat) (nd : Need) (s : State)
    (h : ∀ t ∈ ts, 0 ≤ f t ∧ f t + n ≤ spaceEnd s o ∧ f t % al = 0 ∧ ∃ pa prom, physical s o nd (f t).toNat = .ok pa prom) :
    checkAccess o (ts.map fun t => (t, f t)) n al nd s = .ok (.ok (ts.filterMap fun t =>
      match physical s o nd (f t).toNat with
      | .ok pa prom => some { tid := t, ea := (f t).toNat, pa := pa, prom := prom }
      | .bad _ => none), s) := by
  have h1 : (ts.map fun t => (t, f t)).filter (fun e => e.2 < 0 || e.2 + (n : Int) > (spaceEnd s o : Int)) = [] := by
    simp only [List.filter_eq_nil_iff, List.mem_map]
    rintro e ⟨t, ht, rfl⟩
    have := h t ht
    simp only [Bool.or_eq_true, decide_eq_true_eq]
    omega
  have h2 : (ts.map fun t => (t, f t)).filter (fun e => e.2 % (al : Int) ≠ 0) = [] := by
    simp only [List.filter_eq_nil_iff, List.mem_map]
    rintro e ⟨t, ht, rfl⟩
    simp [(h t ht).2.2.1]
  have h3 (c : Nat) : (((ts.map fun t => (t, f t)).map fun e => (e, physical s o nd e.2.toNat)).filter
      fun e => e.2 = .bad c).map (·.1) = [] := by
    rw [List.map_eq_nil_iff, List.filter_eq_nil_iff]
    simp only [List.mem_map]
    rintro e ⟨_, ⟨t, ht, rfl⟩, rfl⟩
    obtain ⟨pa, prom, hp⟩ := (h t ht).2.2.2
    simp [hp]
  unfold checkAccess
  simp only [M_get_bind, h1, h2, h3, M_need_bind, decide_true, if_true, ne_eq, not_true, if_false, M_pure, List.filterMap_map]
  rfl

/-- A Format M instruction whose accesses are good runs its body on every runner's place. -/
theorem runM_ok (i : Instr) (o : FmtM) (indexed : Bool) (data : List FieldUse) (n al : Nat) (nd : Need)
    (extra : List Place → M Unit) (mk : State → Nat → Nat × Nat) (body : List (Place × Part) → M Unit) (s : State)
    (h : accessGood o indexed data n al nd s)
    (he : extra ((placed o indexed nd mk s).map (·.1)) s = .ok ((), s)) :
    runM i o indexed data n al nd extra mk body s = body (placed o indexed nd mk s) s := by
  have hp : (placed o indexed nd mk s).map (·.1) = (runners s o.h).filterMap fun t =>
      match physical s o nd (eaOf s o indexed t).toNat with
      | .ok pa prom => some { tid := t, ea := (eaOf s o indexed t).toNat, pa := pa, prom := prom }
      | .bad _ => none := by
    unfold placed
    rw [List.map_filterMap]
    congr 1
    funext t
    cases hx : physical s o nd (eaOf s o indexed t).toNat <;> simp [hx]
  have hq : ((placed o indexed nd mk s).map (·.1)).map (fun p =>
      (p, ({ tid := p.tid, ea := p.ea, b := (mk s p.tid).1, c := (mk s p.tid).2 } : Part))) = placed o indexed nd mk s := by
    rw [List.map_map]
    conv => rhs; rw [← List.map_id (placed o indexed nd mk s)]
    apply List.map_congr_left
    intro p hp
    simp only [placed, List.mem_filterMap] at hp
    obtain ⟨t, -, ht⟩ := hp
    cases hx : physical s o nd (eaOf s o indexed t).toNat with
    | ok pa prom => simp only [hx, Option.some.injEq] at ht; subst ht; rfl
    | bad c => simp [hx] at ht
  unfold runM
  simp only [M_get_bind]
  rw [M_bind_ok _ _ _ _ _ (checkStale_ok o.h.u _ (runners s o.h) s fun t ht => (h.1 t ht).1)]
  rw [M_bind_ok _ _ _ _ _ (checkAccess_ok o (eaOf s o indexed) (runners s o.h) n al nd s h.2)]
  simp only [← hp]
  rw [M_bind_ok _ _ _ _ _ he, M_bind_ok _ _ _ _ _ (checkPoison_ok o.h.u _ (runners s o.h) s fun t ht => (h.1 t ht).2)]
  rw [hq]

end Sys2Proof.Machine
end

