-- ==== Sys2Proof/Laws/Struct.lean ====
section
/-! SUPPORT. Struct.lean (laws): what the shared frames of Format E do when the structures an instruction names are in order. -/

namespace Sys2Proof.Machine

open Claim

theorem structs_ok (u perThread : Bool) (al n : Nat) (nd : Need) (f : Nat → Nat) (ps : List Named) (s : State)
    (h : ∀ p ∈ ps, structAt s al n nd (f p.1) p.2) :
    structs u perThread al n nd ((ps.map (·.1)).map fun t => (t, f t)) s = .ok (ps, s) := by
  have h1 : (((ps.map (·.1)).map fun t => (t, f t)).filter fun x => x.2 % al ≠ 0) = [] := by
    simp only [List.filter_eq_nil_iff, List.mem_map]
    rintro x ⟨t, ⟨p, hp, rfl⟩, rfl⟩
    simp [(h p hp).1]
  have h2 (c : Nat) : structFails s n nd c ((ps.map (·.1)).map fun t => (t, f t)) = [] := by
    simp only [structFails, List.filter_eq_nil_iff, List.mem_map]
    rintro x ⟨t, ⟨p, hp, rfl⟩, rfl⟩
    obtain ⟨k, rest, hx⟩ := (h p hp).2
    simp [hx]
  have h3 : structPlaces s n nd ((ps.map (·.1)).map fun t => (t, f t)) = ps := by
    unfold structPlaces
    rw [List.map_map, List.filterMap_map]
    conv => rhs; rw [← List.filterMap_some (l := ps)]
    apply List.filterMap_congr
    intro p hp
    obtain ⟨k, rest, hx⟩ := (h p hp).2
    simp [hx]
  unfold structs
  simp only [M_get_bind, h1, h2, h3, M_need_bind, decide_true, if_true, M_pure]

theorem uniStruct_ok (o : FmtE) (us : List FieldUse) (al n : Nat) (nd : Need) (body : Nat → Nat → M Unit) (s : State) (pa : Nat)
    (h : structGood o us al n nd s pa) : uniStruct o us al n nd body s = body (eAddr s o.a 0) pa s := by
  obtain ⟨hg, hu, hs⟩ := h
  unfold uniStruct
  simp only [M_get_bind, hg, Bool.not_true, Bool.false_eq_true, if_false]
  rw [M_bind_ok _ _ _ _ _ (checkStale_ok true us [0] s fun t ht => (hu t ht).1)]
  have hx := structs_ok true false al n nd (fun _ => eAddr s o.a 0) [(0, pa)] s (by simpa using hs)
  simp only [List.map_cons, List.map_nil] at hx
  rw [M_bind_ok _ _ _ _ _ hx]
  rw [M_bind_ok _ _ _ _ _ (checkPoison_ok true us [0] s fun t ht => (hu t ht).2)]
  rfl

theorem uniStruct_off (o : FmtE) (us : List FieldUse) (al n : Nat) (nd : Need) (body : Nat → Nat → M Unit) (s : State)
    (h : guardG s o.h = false) : uniStruct o us al n nd body s = .ok ((), s) := by
  unfold uniStruct
  simp [h]

theorem eachStruct_ok (o : FmtE) (us : List FieldUse) (al n : Nat) (nd : Need) (body : List Named → M Unit) (s : State)
    (ps : List Named) (h : structsGood o us al n nd s ps) (h0 : runners s o.h ≠ []) :
    eachStruct o us al n nd body s = body ps s := by
  obtain ⟨hu, hp, hs⟩ := h
  unfold eachStruct
  simp only [M_get_bind, h0, if_false]
  rw [M_bind_ok _ _ _ _ _ (checkStale_ok o.h.u us (runners s o.h) s fun t ht => (hu t ht).1)]
  rw [← hp]
  rw [M_bind_ok _ _ _ _ _ (structs_ok o.h.u (WF.isV o.a) al n nd (eAddr s o.a) ps s hs)]
  rw [hp]
  rw [M_bind_ok _ _ _ _ _ (checkPoison_ok o.h.u us (runners s o.h) s fun t ht => (hu t ht).2)]

theorem eachStruct_off (o : FmtE) (us : List FieldUse) (al n : Nat) (nd : Need) (body : List Named → M Unit) (s : State)
    (h : runners s o.h = []) : eachStruct o us al n nd body s = .ok ((), s) := by
  unfold eachStruct
  simp [h]

theorem guarded_ok (o : FmtE) (b : M Unit) (s t : State) (hg : guardG s o.h = true) (h : b s = .ok ((), t)) :
    guarded o b s = .ok ((), t) := by
  simp [guarded, hg, h]
/-- With the guard true, the first part's failure is the instruction's. -/
theorem guarded_error {β : Type} (o : FmtE) (m : M β) (f : β → M Unit) (s : State) (e : Stop) (hg : guardG s o.h = true) (h : m s = .error e) :
    guarded o (m >>= f) s = .error e := by
  unfold guarded
  simp only [M_get_bind, hg, if_true]
  exact M_bind_error _ _ _ _ h
theorem guarded_off (o : FmtE) (b : M Unit) (s : State) (hg : guardG s o.h = false) : guarded o b s = .ok ((), s) := by
  simp [guarded, hg]

end Sys2Proof.Machine
end

