-- ==== Sys2Proof/Laws/Complete.lean ====
section
/-! SUPPORT. Complete.lean (laws): each check and each shared frame of a meaning goes through where the terms of Safety.lean
(namespace Claim) hold. -/

namespace Sys2Proof.Machine

open Claim

theorem laneGives_of (i op o f) (h1 : readsOf i = readsA op o) (h2 : ∀ s, exec i s = finish (runA op o f) s) : laneGives i o f := by
  intro s hr hf
  rw [h2]
  exact runA_ok op o f s (by rw [← h1]; exact hr) hf
theorem enabledFlags_zero (x : Group) : enabledFlags x 0 = 0 := by simp [enabledFlags]
theorem firstEmpty_none (o : FmtM) (ps : List (Place × Part)) (s : State) (h : linesFull o ps s) :
   (if o.space.toNat = 1 then firstEmpty s (ps.map (·.1)) else none) = none := by
  split
  · rename_i h1
    simp only [firstEmpty, Option.map_eq_none_iff, List.find?_eq_none, List.mem_map]
    rintro x ⟨p, hp, rfl⟩
    simp [h h1 p hp]
  · rfl
theorem beforeEmpty_none (o : FmtM) (ps : List (Place × Part)) (s : State) (h : linesFull o ps s) :
    (if o.space.toNat = 1 then (beforeEmpty s (heldRest s ps)).2 else none) = none := by
  split
  · rename_i h1
    simp only [beforeEmpty, Option.map_eq_none_iff, List.find?_eq_none]
    intro x hx
    simp [h h1 x (List.mem_of_mem_filter hx)]
  · rfl
theorem needReads_ok (s : State) (h : readsReady s) : needReads s = .ok ((), s) := by
  unfold needReads
  simp only [M_get_bind]
  rw [if_neg]
  · rfl
  · simp only [List.any_eq_true, not_exists, not_and]
    intro e he
    by_cases hg : e.2.g = s.cur.g
    · simp [h e he hg]
    · simp [hg]
theorem weltBudget_ok (s : State) (h : s.me.refused = none) : weltBudget s = .ok ((), s) := by
  simp [weltBudget, h]
theorem beforeRelease_ok (s : State) (h : releaseReady s) : beforeRelease s = .ok ((), s) := by
  unfold beforeRelease
  rw [M_bind_ok _ _ _ _ _ (weltBudget_ok s h.1)]
  exact needReads_ok s h.2
/-- A check that goes through where its condition holds. -/
theorem ifM_ok {β : Type} (c : Prop) [Decidable c] (m : M Unit) (f : M β) (s : State) (h : c → m s = .ok ((), s)) :
    (if c then (m >>= fun _ => f) else f) s = f s := by
  split
  · rename_i hc; rw [M_bind_ok _ _ _ _ _ (h hc)]
  · rfl
theorem loadBanks_ok (o ps) (s : State) (h : loadReady o ps s) : loadBanks o ps s = .ok ((), s) := by
  unfold loadBanks
  simp only [M_get_bind]
  rw [ifM_ok _ needReads _ _ fun hc => needReads_ok s (h.1 (by simpa using hc)), if_neg]
  · rfl
  · simp only [Bool.and_eq_true, Bool.or_eq_true, decide_eq_true_eq, List.any_eq_true, not_and, not_exists]
    rintro ⟨h1, h2⟩ p hp hb hn
    have := h.2 h1 h2 p hp hb
    rw [Option.isNone_iff_eq_none] at hn
    simp [hn] at this
theorem loadBody_ok (o w n ps s) (h : linesFull o ps s) (hb : loadReady o ps s) :
    loadBody o w n ps s = .ok ((), if ps = [] then s else startLoad o w n ps s) := by
  unfold loadBody
  simp only [M_get_bind, beforeEmpty_none o ps s h]
  by_cases hp : ps = []
  · simp [hp]
  · rw [if_neg hp, M_bind_ok _ _ _ _ _ (loadBanks_ok o ps s hb)]
    simp [hp]
theorem promWaits_false (ps s) (h : tokenHeld ps s) : promWaits s (ps.map (·.1)) = false := by
  rcases h with h | h
  · simp [promWaits, h]
  · simp only [promWaits, Bool.and_eq_false_iff, List.any_eq_false, List.mem_map]
    right
    rintro x ⟨p, hp, rfl⟩
    simp [h p hp]
theorem not_guardG (s : State) (h : Hdr) (hg : guardG s h = true) : (!guardG s h) = false := by simp [hg]
theorem ordered_ok (o ps prom f s) (h1 : linesFull o ps s) (h2 : prom = true → promWaits s (ps.map (·.1)) = false) (h3 : ps ≠ [] → orderReady o s) :
    ordered o ps prom f s = .ok ((), if ps = [] then s else around o f s) := by
  unfold ordered
  simp only [M_get_bind, firstEmpty_none o ps s h1]
  rw [if_neg]
  · by_cases hp : ps = []
    · simp [hp]
    · have h3 := h3 hp
      simp only [hp, if_false]
      rw [ifM_ok _ weltBudget _ _ fun hc => weltBudget_ok s (h3.1 hc),
        ifM_ok _ needReads _ _ fun hc => needReads_ok s (h3.2 (((Bool.or_eq_true _ _).mp hc).imp_right .inl))]
      simp
  · cases prom
    · simp
    · simp [h2 rfl]
theorem linesFull_memory (o ps s) (h : o.space.toNat = 0) : linesFull o ps s := by intro h1; omega
theorem checkTarget_ok (u line slot) (s t : State) (h : lands s u line slot t) : ∃ n, checkTarget u line slot s = .ok (n, t) := by
  obtain ⟨h1, h2, h3, r, hr, rfl⟩ := h
  refine ⟨r.2, ?_⟩
  unfold checkTarget
  simp only [M_get_bind]
  rw [if_neg]
  · simp only [hr]
    rfl
  · simp; omega
theorem keepCount_ok (n : Nat) (m : M Unit) (s t : State) (h : m s = .ok ((), t)) : keepCount n m s = .ok ((), t) := by
  simp [keepCount, h]
/-- A transfer whose target is good goes on with what follows its check. -/
theorem checkField_ok (u l slot rest) (s t v : State) (h : lands s u (lineAt s l) slot.toNat t) (hr : rest t = .ok ((), v)) :
    checkField u l slot rest s = .ok ((), v) := by
  obtain ⟨n, hn⟩ := checkTarget_ok _ _ _ _ _ h
  unfold checkField
  simp only [M_get_bind]
  rw [M_bind_ok _ _ _ _ _ hn]
  exact keepCount_ok _ _ _ _ hr
theorem checkOffset_ok (u off rest) (s t v : State) (h : landsAt s u off t) (hr : rest t = .ok ((), v)) :
    checkOffset u off rest s = .ok ((), v) := by
  obtain ⟨n, hn⟩ := checkTarget_ok _ _ _ _ _ h
  unfold checkOffset
  rw [M_bind_ok _ _ _ _ _ hn]
  exact keepCount_ok _ _ _ _ hr
theorem checkRc_ok (o : FmtC) (rest) (s t v : State) (h : convergenceLands s o t) (hr : rest t = .ok ((), v)) :
    checkRc o rest s = .ok ((), v) := by
  unfold convergenceLands at h
  unfold checkRc
  split at h
  · rename_i hc; rw [if_pos hc]; exact checkField_ok _ _ _ _ _ _ _ h hr
  · rename_i hc; rw [if_neg hc, ← h]; exact hr
/-- The targets of a BRX are good, and no line of them was corrected. -/
theorem checkOffsets_ok (l : List Nat) (rest) (s v : State) (h : ∀ t ∈ l, landsAt s false t s) (hr : rest s = .ok ((), v)) :
    l.foldr (checkOffset false) rest s = .ok ((), v) := by
  induction l with
  | nil => exact hr
  | cons a r ih => exact checkOffset_ok _ _ _ _ _ _ (h a (by simp)) (ih fun t ht => h t (by simp [ht]))
theorem needDepth_ok (n s) (h : s.me.stack.length + n ≤ 64) : needDepth n s = .ok ((), s) := by
  unfold needDepth
  simp only [M_get_bind]
  exact need_ok _ _ _ (by simpa using h)
theorem clean_good (s us) (h : clean s us) : ∀ t ∈ [0], poisonAt s.seen us t = false := by simpa [clean] using h
theorem forM_ok (l : List Nat) (f : Nat → M PUnit) (s : State) (h : ∀ t ∈ l, f t s = .ok (PUnit.unit, s)) : l.forM f s = .ok (PUnit.unit, s) := by
  induction l with
  | nil => rfl
  | cons a r ih => 
    show (f a >>= fun _ => r.forM f) s = _
    rw [M_bind_ok _ _ _ _ _ (h a (by simp))]
    exact ih fun t ht => h t (by simp [ht])
theorem guardedS_ok (o : FmtS) (b : M Unit) (s t : State) (hg : guardG s o.h = true) (h : b s = .ok ((), t)) : guardedS o b s = .ok ((), t) := by
  simp [guardedS, hg, h]
theorem priv_ok (h : Hdr) (b : M Unit) (s t : State) (hc : isControl s.cur.g = true) (hg : guardG s h = true) (hb : b s = .ok ((), t)) :
   privileged h b s = .ok ((), t) := by
  simp [privileged, hc, hg, hb]
theorem priv_neg (h : Hdr) (b : M Unit) (s : State) (hc : isControl s.cur.g = true) (hg : guardG s h = false) :
   privileged h b s = .ok ((), s) := by
  simp [privileged, hc, hg]
theorem fetchRecord_ok (va : Nat) (s t : State) (bs) (h : va % 64 = 0) (hr : recordBytes s va 192 = .ok (bs, t)) : fetchRecord va s = .ok (bs, t) := by
  simp only [fetchRecord, h, ne_eq, not_true, if_false, M_get_bind, hr]
  rfl
theorem issueCopy_ok (o c s) (h : copyGood o c s) : issueCopy o c s = .ok ((), queueCopy o c s) := by
  obtain ⟨h1, h2, h3, h4, h5, h6⟩ := h
  unfold issueCopy
  simp only [M_get_bind, h2, h3]
  rw [if_neg, if_neg, M_bind_ok _ _ _ _ _ (checkPoison_ok _ _ _ s (clean_good _ _ h5)), if_neg (by omega)]
  · rfl
  · by_cases ha : c.toMem = true <;> by_cases hb : c.ws = true <;> simp [ha, hb]
    exact h4 ha hb
  · by_cases ha : c.shape.bmode = 1 <;> by_cases hb : c.linear = true <;> simp [ha, hb]
    exact h1 ha (by simpa using hb)
theorem tokenArg_ok (o : FmtE) (s) (h : tokenOk (readK s.seen (o.a.toNat - 0x100)) = true) (hc : clean s (use1 o.a)) :
   tokenArg o s = .ok (readK s.seen (o.a.toNat - 0x100), s) := by
  unfold tokenArg
  simp only [M_get_bind, M_need_bind]
  rw [if_pos h, M_bind_ok _ _ _ _ _ (checkPoison_ok _ _ _ s (clean_good _ _ hc))]
  rfl
theorem tokenArg_bad (o : FmtE) (s) (h : tokenOk (readK s.seen (o.a.toNat - 0x100)) = false) :
    tokenArg o s = .error (.trap { cause := 0x0B, addr := readK s.seen (o.a.toNat - 0x100), mask := s.me.resident,
                                   tok := readK s.seen (o.a.toNat - 0x100) }) := by
  unfold tokenArg
  simp only [M_get_bind, M_need_bind, h, Bool.false_eq_true, if_false]
theorem wsCore_ok (o s pa h r body) (hs : structGood o (use1 o.a ++ use1 (WF.efF o 43)) 64 64 needR s pa) :
    let s1 := settleRange s (xlGrp s s.cur.g needR) (eAddr s o.a 0) 192
    readRange s1 (xlGrp s1 s1.cur.g needR) (eAddr s o.a 0) 64 = .ok h → headerOk h = true →
    readRange s1 (xlGrp s1 s1.cur.g needR) (eAddr s o.a 0 + 64) (16 * le h 0 1) = .ok r →
    wsCore o body s = .ok ((), body (h ++ r) (e32 s1 true (WF.efF o 43) 0)
      ((List.range (le (h ++ r) 0 1)).filter fun i => (WF.ef o 42 35).testBit i && entryOk (h ++ r) i) s1) := by
  intro s1 h1 h2 h3
  unfold wsCore
  rw [uniStruct_ok _ _ _ _ _ _ _ _ hs]
  simp only [M_upd_bind, M_get_bind]
  rw [h1]
  simp only [M_need_bind]
  rw [if_pos h2]
  rw [h3]
  rfl
theorem conv_okE (s) (h : convergedGroup s.me = true) : engineConverged s = .ok ((), s) := by
  simp [engineConverged, need, h]
theorem owner_ok (s m t w) (h : tileFree s m t w = true) : checkOwner m t w s = .ok ((), s) := by
  simp [checkOwner, need, h]
theorem checkSp_ok (l s) (h : inScratchpad s l) : checkSp l s = .ok ((), s) := by
  have : l.find? (fun a => (s.blk s.me.block).spSize ≤ a) = none := by
    rw [List.find?_eq_none]; intro a ha; have := h a ha; simp; omega
  simp [checkSp, this]
theorem enterMat_ok (i e o s) (h : entryReady i s o) : enterMat i e o s = .ok ((), queueMat e o s) := by
  unfold enterMat
  simp only [M_get_bind]
  rw [M_bind_ok _ _ _ _ _ (checkPoison_ok _ _ _ s (clean_good _ _ h.1)), if_pos h.2]
  rfl
theorem ifSp_ok {β} (c : Prop) [Decidable c] (l s) (h : c → inScratchpad s l) (f : M β) : (if c then (checkSp l >>= fun _ => f) else f) s = f s := by
  split
  · rename_i hc; rw [M_bind_ok _ _ _ _ _ (checkSp_ok l s (h hc))]
  · rfl
theorem matToken_ok (o : FmtE) (s) (hc : clean s (use1 o.a))
   (h : (readK s.seen (o.a.toNat - 0x100) < 2 ^ 32 && natBits (readK s.seen (o.a.toNat - 0x100)) 7 5 ≠ 0 && natBits (readK s.seen (o.a.toNat - 0x100)) 7 5 ≠ 7 && natBits (readK s.seen (o.a.toNat - 0x100)) 4 0 < (s.blk s.me.block).acc) = true) :
   matToken o s = .ok (readK s.seen (o.a.toNat - 0x100), s) := by
  unfold matToken
  simp only [M_get_bind, M_need_bind]
  rw [if_pos h, M_bind_ok _ _ _ _ _ (checkPoison_ok _ _ _ s (clean_good _ _ hc))]
  rfl
theorem laneIssue_ok (o uses body) (s t : State) (h : good s uses (participants s o.h))
   (hb : body (participants s o.h) s = .ok ((), t)) (h0 : participants s o.h = [] → t = s) : laneIssue o uses body s = .ok ((), t) := by
  unfold laneIssue
  simp only [M_get_bind]
  split
  · rename_i h1; rw [h0 h1]; rfl
  · rw [M_bind_ok _ _ _ _ _ (checkStale_ok _ _ _ s fun t ht => (h t ht).1)]
    exact hb
theorem alignTargets_ok (u xs s) (h : ∀ x ∈ xs, x.va % x.al = 0) : alignTargets u xs s = .ok ((), s) := by
  have h1 : xs.filter (fun x => x.va % x.al ≠ 0) = [] := by
    simp only [List.filter_eq_nil_iff]
    intro x hx
    simp [h x hx]
  unfold alignTargets
  simp only [M_get_bind, h1, M_need_bind, List.filter_nil, List.isEmpty_nil, if_true]
  exact need_ok _ _ _ rfl
theorem readTargets_ok (u xs s) (h : ∀ x ∈ xs, targetGood s x) : readTargets u xs s = .ok ((), s) := by
  have h2 (c : Nat) : targetFails s c xs = [] := by
    simp only [targetFails, List.filter_eq_nil_iff]
    intro x hx
    obtain ⟨bs, hb⟩ := (h x hx).2
    simp [hb]
  unfold readTargets
  simp only [M_get_bind, h2, M_need_bind, List.isEmpty_nil, if_true]
  exact need_ok _ _ _ rfl
theorem checkTargets_ok (u xs s) (h : ∀ x ∈ xs, targetGood s x) : checkTargets u xs s = .ok ((), s) := by
  unfold checkTargets
  rw [M_bind_ok _ _ _ _ _ (alignTargets_ok u xs s fun x hx => (h x hx).1)]
  exact readTargets_ok u xs s h
/-- Hit arrays that are aligned, beside structures that are. -/
theorem arrays_aligned (o beam ts s) (xs : List Target) (h : arraysAligned o beam s ts) (hx : ∀ x ∈ xs, targetGood s x) :
    ∀ x ∈ xs ++ arrayTargets o beam s ts, x.va % x.al = 0 := by
  intro x hm
  rcases List.mem_append.1 hm with hm | hm
  · exact (hx x hm).1
  · unfold arrayTargets at hm
    split at hm
    · rename_i hb
      obtain ⟨t, ht, rfl⟩ := List.mem_map.1 hm
      exact h hb t ht
    · simp at hm
theorem filter_unless_nil {c : Prop} [Decidable c] (ts : List Nat) (f : Nat → Bool) (h : c → ∀ t ∈ ts, f t = true) : (if c then ts.filter (fun t => !f t) else []) = [] := by
  split
  · rename_i hb
    simp only [List.filter_eq_nil_iff]
    intro t ht; simp [h hb t ht]
  · rfl
theorem bindChecks_ok (o ts va s) (h : bindingServes o s) : bindChecks ts (efBind o) va s = .ok ((), s) := by
  simp [bindChecks, need, h.1]
theorem spawnCheck_ok (u ts s) (h : inSpawn s = false) : spawnCheck u ts s = .ok ((), s) := by
  simp [spawnCheck, need, h]
theorem structs1_ok (u b al n nd va pa s) (h : structAt s al n nd va pa) : structs u b al n nd [(0, va)] s = .ok ([(0, pa)], s) := by
  have hx := structs_ok u b al n nd (fun _ => va) [(0, pa)] s (by simpa using h)
  simpa using hx
theorem tokenRecv_ok (o r s) (h : recvOf s (readK s.seen (o.a.toNat - 0x100)) = some r) : tokenRecv o s = .ok (r, s) := by
  simp [tokenRecv, h]

end Sys2Proof.Machine
end

