-- ==== Sys2Proof/Laws/Encode.lean ====
section
/-! SUPPORT. Encode.lean (laws): the fields of a slot and the slot of fields are inverse, format by format. -/

namespace Sys2Proof

theorem opOf_encA (op o) : opOf (encA op o) = op.toNat := by
  unfold opOf encA encHdr; congr 1; ext i hi
  rw [BitVec.getElem_extractLsb']
  simp only [BitVec.getLsbD_append]
  rw [if_neg (by omega), if_neg (by omega)]
  rw [← BitVec.getLsbD_eq_getElem]
  congr 1; omega
theorem fieldsA_encA (op o) : fieldsA (encA op o) = o := by
  unfold fieldsA hdrOf encA encHdr
  rcases o with ⟨⟨n,pg,u,s,l,rm,t⟩,x0,x1,x2,x3,x4,x5⟩
  simp only [FmtA.mk.injEq, Hdr.mk.injEq]
  refine ⟨⟨?_,?_,?_,?_,?_,?_,?_⟩,?_,?_,?_,?_,?_,?_⟩
  all_goals first
    | (ext j hj
       rw [BitVec.getElem_extractLsb', ← BitVec.getLsbD_eq_getElem]
       simp only [BitVec.getLsbD_append, BitVec.getLsbD_ofBool]
       repeat (first | rw [if_neg (by omega)] | rw [if_pos (by omega)])
       first | rfl | (congr 1; omega))
    | (simp only [BitVec.getLsbD_append, BitVec.getLsbD_ofBool]
       repeat (first | rw [if_neg (by omega)] | rw [if_pos (by omega)])
       simp)
theorem encA_fieldsA (s : Slot) (op : BitVec 8) (h : opOf s = op.toNat) : encA op (fieldsA s) = s := by
  have h8 : op = s.extractLsb' 88 8 := by apply BitVec.eq_of_toNat_eq; rw [← h]; rfl
  subst h8
  unfold fieldsA hdrOf encA encHdr
  ext j hj
  rw [← BitVec.getLsbD_eq_getElem, ← BitVec.getLsbD_eq_getElem]
  simp only [BitVec.getLsbD_append, BitVec.getLsbD_ofBool, BitVec.getLsbD_extractLsb']
  repeat' split
  all_goals first
    | (simp only [Bool.and_eq_true, decide_eq_true_eq]; rw [decide_eq_true (by omega), Bool.true_and]; congr 1; omega)
    | (rw [decide_eq_true (by omega), Bool.true_and]; congr 1; omega)

theorem opOf_encM (op o) : opOf (encM op o) = op.toNat := by
  unfold opOf encM encHdr; congr 1; ext i hi
  rw [BitVec.getElem_extractLsb']
  simp only [BitVec.getLsbD_append]
  rw [if_neg (by omega), if_neg (by omega)]
  rw [← BitVec.getLsbD_eq_getElem]
  congr 1; omega
theorem fieldsM_encM (op o) : fieldsM (encM op o) = o := by
  unfold fieldsM hdrOf encM encHdr
  rcases o with ⟨⟨n,pg,u,s,l,rm,t⟩,x0,x1,x2,x3,x4,x5,x6,x7,x8⟩
  simp only [FmtM.mk.injEq, Hdr.mk.injEq]
  refine ⟨⟨?_,?_,?_,?_,?_,?_,?_⟩,?_,?_,?_,?_,?_,?_,?_,?_,?_⟩
  all_goals first
    | (ext j hj
       rw [BitVec.getElem_extractLsb', ← BitVec.getLsbD_eq_getElem]
       simp only [BitVec.getLsbD_append, BitVec.getLsbD_ofBool]
       repeat (first | rw [if_neg (by omega)] | rw [if_pos (by omega)])
       first | rfl | (congr 1; omega))
    | (simp only [BitVec.getLsbD_append, BitVec.getLsbD_ofBool]
       repeat (first | rw [if_neg (by omega)] | rw [if_pos (by omega)])
       simp)
theorem encM_fieldsM (s : Slot) (op : BitVec 8) (h : opOf s = op.toNat) : encM op (fieldsM s) = s := by
  have h8 : op = s.extractLsb' 88 8 := by apply BitVec.eq_of_toNat_eq; rw [← h]; rfl
  subst h8
  unfold fieldsM hdrOf encM encHdr
  ext j hj
  rw [← BitVec.getLsbD_eq_getElem, ← BitVec.getLsbD_eq_getElem]
  simp only [BitVec.getLsbD_append, BitVec.getLsbD_ofBool, BitVec.getLsbD_extractLsb']
  repeat' split
  all_goals first
    | (simp only [Bool.and_eq_true, decide_eq_true_eq]; rw [decide_eq_true (by omega), Bool.true_and]; congr 1; omega)
    | (rw [decide_eq_true (by omega), Bool.true_and]; congr 1; omega)

theorem opOf_encC (op o) : opOf (encC op o) = op.toNat := by
  unfold opOf encC encHdr; congr 1; ext i hi
  rw [BitVec.getElem_extractLsb']
  simp only [BitVec.getLsbD_append]
  rw [if_neg (by omega), if_neg (by omega)]
  rw [← BitVec.getLsbD_eq_getElem]
  congr 1; omega
theorem fieldsC_encC (op o) : fieldsC (encC op o) = o := by
  unfold fieldsC hdrOf encC encHdr
  rcases o with ⟨⟨n,pg,u,s,l,rm,t⟩,x0,x1,x2,x3,x4,x5,x6⟩
  simp only [FmtC.mk.injEq, Hdr.mk.injEq]
  refine ⟨⟨?_,?_,?_,?_,?_,?_,?_⟩,?_,?_,?_,?_,?_,?_,?_⟩
  all_goals first
    | (ext j hj
       rw [BitVec.getElem_extractLsb', ← BitVec.getLsbD_eq_getElem]
       simp only [BitVec.getLsbD_append, BitVec.getLsbD_ofBool]
       repeat (first | rw [if_neg (by omega)] | rw [if_pos (by omega)])
       first | rfl | (congr 1; omega))
    | (simp only [BitVec.getLsbD_append, BitVec.getLsbD_ofBool]
       repeat (first | rw [if_neg (by omega)] | rw [if_pos (by omega)])
       simp)
theorem encC_fieldsC (s : Slot) (op : BitVec 8) (h : opOf s = op.toNat) : encC op (fieldsC s) = s := by
  have h8 : op = s.extractLsb' 88 8 := by apply BitVec.eq_of_toNat_eq; rw [← h]; rfl
  subst h8
  unfold fieldsC hdrOf encC encHdr
  ext j hj
  rw [← BitVec.getLsbD_eq_getElem, ← BitVec.getLsbD_eq_getElem]
  simp only [BitVec.getLsbD_append, BitVec.getLsbD_ofBool, BitVec.getLsbD_extractLsb']
  repeat' split
  all_goals first
    | (simp only [Bool.and_eq_true, decide_eq_true_eq]; rw [decide_eq_true (by omega), Bool.true_and]; congr 1; omega)
    | (rw [decide_eq_true (by omega), Bool.true_and]; congr 1; omega)

theorem opOf_encE (op o) : opOf (encE op o) = op.toNat := by
  unfold opOf encE encHdr; congr 1; ext i hi
  rw [BitVec.getElem_extractLsb']
  simp only [BitVec.getLsbD_append]
  rw [if_neg (by omega), if_neg (by omega)]
  rw [← BitVec.getLsbD_eq_getElem]
  congr 1; omega
theorem fieldsE_encE (op o) : fieldsE (encE op o) = o := by
  unfold fieldsE hdrOf encE encHdr
  rcases o with ⟨⟨n,pg,u,s,l,rm,t⟩,x0,x1,x2⟩
  simp only [FmtE.mk.injEq, Hdr.mk.injEq]
  refine ⟨⟨?_,?_,?_,?_,?_,?_,?_⟩,?_,?_,?_⟩
  all_goals first
    | (ext j hj
       rw [BitVec.getElem_extractLsb', ← BitVec.getLsbD_eq_getElem]
       simp only [BitVec.getLsbD_append, BitVec.getLsbD_ofBool]
       repeat (first | rw [if_neg (by omega)] | rw [if_pos (by omega)])
       first | rfl | (congr 1; omega))
    | (simp only [BitVec.getLsbD_append, BitVec.getLsbD_ofBool]
       repeat (first | rw [if_neg (by omega)] | rw [if_pos (by omega)])
       simp)
theorem encE_fieldsE (s : Slot) (op : BitVec 8) (h : opOf s = op.toNat) : encE op (fieldsE s) = s := by
  have h8 : op = s.extractLsb' 88 8 := by apply BitVec.eq_of_toNat_eq; rw [← h]; rfl
  subst h8
  unfold fieldsE hdrOf encE encHdr
  ext j hj
  rw [← BitVec.getLsbD_eq_getElem, ← BitVec.getLsbD_eq_getElem]
  simp only [BitVec.getLsbD_append, BitVec.getLsbD_ofBool, BitVec.getLsbD_extractLsb']
  repeat' split
  all_goals first
    | (simp only [Bool.and_eq_true, decide_eq_true_eq]; rw [decide_eq_true (by omega), Bool.true_and]; congr 1; omega)
    | (rw [decide_eq_true (by omega), Bool.true_and]; congr 1; omega)

theorem opOf_encS (op o) : opOf (encS op o) = op.toNat := by
  unfold opOf encS encHdr; congr 1; ext i hi
  rw [BitVec.getElem_extractLsb']
  simp only [BitVec.getLsbD_append]
  rw [if_neg (by omega), if_neg (by omega)]
  rw [← BitVec.getLsbD_eq_getElem]
  congr 1; omega
theorem fieldsS_encS (op o) : fieldsS (encS op o) = o := by
  unfold fieldsS hdrOf encS encHdr
  rcases o with ⟨⟨n,pg,u,s,l,rm,t⟩,x0,x1,x2,x3⟩
  simp only [FmtS.mk.injEq, Hdr.mk.injEq]
  refine ⟨⟨?_,?_,?_,?_,?_,?_,?_⟩,?_,?_,?_,?_⟩
  all_goals first
    | (ext j hj
       rw [BitVec.getElem_extractLsb', ← BitVec.getLsbD_eq_getElem]
       simp only [BitVec.getLsbD_append, BitVec.getLsbD_ofBool]
       repeat (first | rw [if_neg (by omega)] | rw [if_pos (by omega)])
       first | rfl | (congr 1; omega))
    | (simp only [BitVec.getLsbD_append, BitVec.getLsbD_ofBool]
       repeat (first | rw [if_neg (by omega)] | rw [if_pos (by omega)])
       simp)
theorem encS_fieldsS (s : Slot) (op : BitVec 8) (h : opOf s = op.toNat) : encS op (fieldsS s) = s := by
  have h8 : op = s.extractLsb' 88 8 := by apply BitVec.eq_of_toNat_eq; rw [← h]; rfl
  subst h8
  unfold fieldsS hdrOf encS encHdr
  ext j hj
  rw [← BitVec.getLsbD_eq_getElem, ← BitVec.getLsbD_eq_getElem]
  simp only [BitVec.getLsbD_append, BitVec.getLsbD_ofBool, BitVec.getLsbD_extractLsb']
  repeat' split
  all_goals first
    | (simp only [Bool.and_eq_true, decide_eq_true_eq]; rw [decide_eq_true (by omega), Bool.true_and]; congr 1; omega)
    | (rw [decide_eq_true (by omega), Bool.true_and]; congr 1; omega)
end Sys2Proof
end

