-- ==== Sys2Proof/Laws/PerInstr.lean ====
section
/-! SUPPORT. PerInstr.lean (laws): the family Encoded, instruction by instruction: the slot of a well-formed instruction decodes
to it. An event of another agent has no slot. -/

namespace Sys2Proof.Laws.Encoded

/-- Decoding the slot of i gives i, wherever i is well formed. -/
def Statement (i : Instr) : Prop := ∀ inl w, wellFormed inl i = true → encode i = some w → decodeSlot inl w = .ok i

theorem bit_of_toNat {w n : Nat} {x : BitVec w} {j : Nat} (h : x.toNat = n) : x.getLsbD j = n.testBit j := by
  rw [← h, BitVec.testBit_toNat]
theorem bit_of_bits {w n : Nat} {x : BitVec w} {hi lo j : Nat} (h : bitsNat x hi lo = n) (h1 : lo ≤ j) (h2 : j ≤ hi) :
    x.getLsbD j = n.testBit (j - lo) := by
  rw [← h, bitsNat, Nat.testBit_mod_two_pow, Nat.testBit_shiftRight, BitVec.testBit_toNat, decide_eq_true (by omega), Bool.true_and]
  congr 1; omega

/-- The statement from the raw decoding of the one slot. -/
theorem of_raw (i : Instr) (x : Slot) (he : encode i = some x) (h : ∀ inl, wellFormed inl i = true → decodeRaw x = .ok i) :
    Statement i := by
  intro inl w hw hx
  rw [he] at hx
  cases hx
  simp [decodeSlot, h inl hw, hw]

theorem nop : Statement .nop := of_raw _ _ rfl fun _ _ => by decide

theorem bra (o : FmtC) : Statement (.bra o) := of_raw _ _ rfl fun _ _ => by
  unfold decodeRaw decodeRow0
  rw [opOf_encC]
  exact congrArg (fun o => Except.ok (Instr.bra o)) (fieldsC_encC _ _)

theorem brx (o : FmtC) : Statement (.brx o) := of_raw _ _ rfl fun _ _ => by
  unfold decodeRaw decodeRow0
  rw [opOf_encC]
  exact congrArg (fun o => Except.ok (Instr.brx o)) (fieldsC_encC _ _)

theorem call (o : FmtC) : Statement (.call o) := of_raw _ _ rfl fun _ hw => by
  change WF.wfCall o = true at hw
  simp only [WF.wfCall, Bool.and_eq_true, decide_eq_true_eq] at hw
  have b0 : o.cfn.getLsbD 1 = false := by rw [bit_of_toNat hw.1.2]; rfl
  unfold decodeRaw decodeRow0
  rw [opOf_encC]
  dsimp only [BitVec.toNat_ofNat, Nat.reducePow, Nat.reduceMod, Nat.reduceDiv]
  simp only [fieldsC_encC]
  simp only [b0]
  rfl

theorem callInd (o : FmtC) : Statement (.callInd o) := of_raw _ _ rfl fun _ hw => by
  change WF.wfCallInd o = true at hw
  simp only [WF.wfCallInd, Bool.and_eq_true, decide_eq_true_eq] at hw
  have b0 : o.cfn.getLsbD 1 = true := by rw [bit_of_toNat hw.1.1.2]; rfl
  unfold decodeRaw decodeRow0
  rw [opOf_encC]
  dsimp only [BitVec.toNat_ofNat, Nat.reducePow, Nat.reduceMod, Nat.reduceDiv]
  simp only [fieldsC_encC]
  simp only [b0]
  rfl

theorem ret (o : FmtC) : Statement (.ret o) := of_raw _ _ rfl fun _ _ => by
  unfold decodeRaw decodeRow0
  rw [opOf_encC]
  exact congrArg (fun o => Except.ok (Instr.ret o)) (fieldsC_encC _ _)

theorem join (o : FmtC) : Statement (.join o) := of_raw _ _ rfl fun _ _ => by
  unfold decodeRaw decodeRow0
  rw [opOf_encC]
  exact congrArg (fun o => Except.ok (Instr.join o)) (fieldsC_encC _ _)

theorem exit (o : FmtC) : Statement (.exit o) := of_raw _ _ rfl fun _ _ => by
  unfold decodeRaw decodeRow0
  rw [opOf_encC]
  exact congrArg (fun o => Except.ok (Instr.exit o)) (fieldsC_encC _ _)

theorem sleep (o : FmtC) : Statement (.sleep o) := of_raw _ _ rfl fun _ hw => by
  change WF.wfSleep o = true at hw
  simp only [WF.wfSleep, Bool.and_eq_true, decide_eq_true_eq] at hw
  have b0 : o.cfn.getLsbD 0 = false := by rw [bit_of_toNat hw.2]; rfl
  unfold decodeRaw decodeRow0
  rw [opOf_encC]
  dsimp only [BitVec.toNat_ofNat, Nat.reducePow, Nat.reduceMod, Nat.reduceDiv]
  simp only [fieldsC_encC]
  simp only [b0]
  rfl

theorem sleepTok (o : FmtC) : Statement (.sleepTok o) := of_raw _ _ rfl fun _ hw => by
  change WF.wfSleepTok o = true at hw
  simp only [WF.wfSleepTok, Bool.and_eq_true, decide_eq_true_eq] at hw
  have b0 : o.cfn.getLsbD 0 = true := by rw [bit_of_toNat hw.2]; rfl
  unfold decodeRaw decodeRow0
  rw [opOf_encC]
  dsimp only [BitVec.toNat_ofNat, Nat.reducePow, Nat.reduceMod, Nat.reduceDiv]
  simp only [fieldsC_encC]
  simp only [b0]
  rfl

theorem yield (o : FmtC) : Statement (.yield o) := of_raw _ _ rfl fun _ _ => by
  unfold decodeRaw decodeRow0
  rw [opOf_encC]
  exact congrArg (fun o => Except.ok (Instr.yield o)) (fieldsC_encC _ _)

theorem pln (o : FmtC) : Statement (.pln o) := of_raw _ _ rfl fun _ _ => by
  unfold decodeRaw decodeRow0
  rw [opOf_encC]
  exact congrArg (fun o => Except.ok (Instr.pln o)) (fieldsC_encC _ _)

theorem plng (o : FmtC) : Statement (.plng o) := of_raw _ _ rfl fun _ _ => by
  unfold decodeRaw decodeRow0
  rw [opOf_encC]
  exact congrArg (fun o => Except.ok (Instr.plng o)) (fieldsC_encC _ _)

theorem trap (o : FmtC) : Statement (.trap o) := of_raw _ _ rfl fun _ _ => by
  unfold decodeRaw decodeRow0
  rw [opOf_encC]
  exact congrArg (fun o => Except.ok (Instr.trap o)) (fieldsC_encC _ _)

theorem brk (o : FmtC) : Statement (.brk o) := of_raw _ _ rfl fun _ _ => by
  unfold decodeRaw decodeRow0
  rw [opOf_encC]
  exact congrArg (fun o => Except.ok (Instr.brk o)) (fieldsC_encC _ _)

theorem loop (o : FmtC) : Statement (.loop o) := of_raw _ _ rfl fun _ _ => by
  unfold decodeRaw decodeRow0
  rw [opOf_encC]
  exact congrArg (fun o => Except.ok (Instr.loop o)) (fieldsC_encC _ _)

theorem add (o : FmtA) : Statement (.add o) := of_raw _ _ rfl fun _ _ => by
  unfold decodeRaw decodeRow1
  rw [opOf_encA]
  exact congrArg (fun o => Except.ok (Instr.add o)) (fieldsA_encA _ _)

theorem sub (o : FmtA) : Statement (.sub o) := of_raw _ _ rfl fun _ _ => by
  unfold decodeRaw decodeRow1
  rw [opOf_encA]
  exact congrArg (fun o => Except.ok (Instr.sub o)) (fieldsA_encA _ _)

theorem mul (o : FmtA) : Statement (.mul o) := of_raw _ _ rfl fun _ _ => by
  unfold decodeRaw decodeRow1
  rw [opOf_encA]
  exact congrArg (fun o => Except.ok (Instr.mul o)) (fieldsA_encA _ _)

theorem mulhi (o : FmtA) : Statement (.mulhi o) := of_raw _ _ rfl fun _ _ => by
  unfold decodeRaw decodeRow1
  rw [opOf_encA]
  exact congrArg (fun o => Except.ok (Instr.mulhi o)) (fieldsA_encA _ _)

theorem mad (o : FmtA) : Statement (.mad o) := of_raw _ _ rfl fun _ _ => by
  unfold decodeRaw decodeRow1
  rw [opOf_encA]
  exact congrArg (fun o => Except.ok (Instr.mad o)) (fieldsA_encA _ _)

theorem madhi (o : FmtA) : Statement (.madhi o) := of_raw _ _ rfl fun _ _ => by
  unfold decodeRaw decodeRow1
  rw [opOf_encA]
  exact congrArg (fun o => Except.ok (Instr.madhi o)) (fieldsA_encA _ _)

theorem addc (o : FmtA) : Statement (.addc o) := of_raw _ _ rfl fun _ _ => by
  unfold decodeRaw decodeRow1
  rw [opOf_encA]
  exact congrArg (fun o => Except.ok (Instr.addc o)) (fieldsA_encA _ _)

theorem subb (o : FmtA) : Statement (.subb o) := of_raw _ _ rfl fun _ _ => by
  unfold decodeRaw decodeRow1
  rw [opOf_encA]
  exact congrArg (fun o => Except.ok (Instr.subb o)) (fieldsA_encA _ _)

theorem min (o : FmtA) : Statement (.min o) := of_raw _ _ rfl fun _ _ => by
  unfold decodeRaw decodeRow1
  rw [opOf_encA]
  exact congrArg (fun o => Except.ok (Instr.min o)) (fieldsA_encA _ _)

theorem max (o : FmtA) : Statement (.max o) := of_raw _ _ rfl fun _ _ => by
  unfold decodeRaw decodeRow1
  rw [opOf_encA]
  exact congrArg (fun o => Except.ok (Instr.max o)) (fieldsA_encA _ _)

theorem abs (o : FmtA) : Statement (.abs o) := of_raw _ _ rfl fun _ _ => by
  unfold decodeRaw decodeRow1
  rw [opOf_encA]
  exact congrArg (fun o => Except.ok (Instr.abs o)) (fieldsA_encA _ _)

theorem neg (o : FmtA) : Statement (.neg o) := of_raw _ _ rfl fun _ _ => by
  unfold decodeRaw decodeRow1
  rw [opOf_encA]
  exact congrArg (fun o => Except.ok (Instr.neg o)) (fieldsA_encA _ _)

theorem idiv (o : FmtA) : Statement (.idiv o) := of_raw _ _ rfl fun _ _ => by
  unfold decodeRaw decodeRow1
  rw [opOf_encA]
  exact congrArg (fun o => Except.ok (Instr.idiv o)) (fieldsA_encA _ _)

theorem irem (o : FmtA) : Statement (.irem o) := of_raw _ _ rfl fun _ _ => by
  unfold decodeRaw decodeRow1
  rw [opOf_encA]
  exact congrArg (fun o => Except.ok (Instr.irem o)) (fieldsA_encA _ _)

theorem sad (o : FmtA) : Statement (.sad o) := of_raw _ _ rfl fun _ _ => by
  unfold decodeRaw decodeRow1
  rw [opOf_encA]
  exact congrArg (fun o => Except.ok (Instr.sad o)) (fieldsA_encA _ _)

theorem lea (o : FmtA) : Statement (.lea o) := of_raw _ _ rfl fun _ _ => by
  unfold decodeRaw decodeRow1
  rw [opOf_encA]
  exact congrArg (fun o => Except.ok (Instr.lea o)) (fieldsA_encA _ _)

theorem and (o : FmtA) : Statement (.and o) := of_raw _ _ rfl fun _ _ => by
  unfold decodeRaw decodeRow2
  rw [opOf_encA]
  exact congrArg (fun o => Except.ok (Instr.and o)) (fieldsA_encA _ _)

theorem or (o : FmtA) : Statement (.or o) := of_raw _ _ rfl fun _ _ => by
  unfold decodeRaw decodeRow2
  rw [opOf_encA]
  exact congrArg (fun o => Except.ok (Instr.or o)) (fieldsA_encA _ _)

theorem xor (o : FmtA) : Statement (.xor o) := of_raw _ _ rfl fun _ _ => by
  unfold decodeRaw decodeRow2
  rw [opOf_encA]
  exact congrArg (fun o => Except.ok (Instr.xor o)) (fieldsA_encA _ _)

theorem andn (o : FmtA) : Statement (.andn o) := of_raw _ _ rfl fun _ _ => by
  unfold decodeRaw decodeRow2
  rw [opOf_encA]
  exact congrArg (fun o => Except.ok (Instr.andn o)) (fieldsA_encA _ _)

theorem not (o : FmtA) : Statement (.not o) := of_raw _ _ rfl fun _ _ => by
  unfold decodeRaw decodeRow2
  rw [opOf_encA]
  exact congrArg (fun o => Except.ok (Instr.not o)) (fieldsA_encA _ _)

theorem logt (o : FmtA) : Statement (.logt o) := of_raw _ _ rfl fun _ _ => by
  unfold decodeRaw decodeRow2
  rw [opOf_encA]
  exact congrArg (fun o => Except.ok (Instr.logt o)) (fieldsA_encA _ _)

theorem shl (o : FmtA) : Statement (.shl o) := of_raw _ _ rfl fun _ _ => by
  unfold decodeRaw decodeRow2
  rw [opOf_encA]
  exact congrArg (fun o => Except.ok (Instr.shl o)) (fieldsA_encA _ _)

theorem shr (o : FmtA) : Statement (.shr o) := of_raw _ _ rfl fun _ _ => by
  unfold decodeRaw decodeRow2
  rw [opOf_encA]
  exact congrArg (fun o => Except.ok (Instr.shr o)) (fieldsA_encA _ _)

theorem shra (o : FmtA) : Statement (.shra o) := of_raw _ _ rfl fun _ _ => by
  unfold decodeRaw decodeRow2
  rw [opOf_encA]
  exact congrArg (fun o => Except.ok (Instr.shra o)) (fieldsA_encA _ _)

theorem rot (o : FmtA) : Statement (.rot o) := of_raw _ _ rfl fun _ _ => by
  unfold decodeRaw decodeRow2
  rw [opOf_encA]
  exact congrArg (fun o => Except.ok (Instr.rot o)) (fieldsA_encA _ _)

theorem fshf (o : FmtA) : Statement (.fshf o) := of_raw _ _ rfl fun _ _ => by
  unfold decodeRaw decodeRow2
  rw [opOf_encA]
  exact congrArg (fun o => Except.ok (Instr.fshf o)) (fieldsA_encA _ _)

theorem bfx (o : FmtA) : Statement (.bfx o) := of_raw _ _ rfl fun _ _ => by
  unfold decodeRaw decodeRow2
  rw [opOf_encA]
  exact congrArg (fun o => Except.ok (Instr.bfx o)) (fieldsA_encA _ _)

theorem bfi (o : FmtA) : Statement (.bfi o) := of_raw _ _ rfl fun _ _ => by
  unfold decodeRaw decodeRow2
  rw [opOf_encA]
  exact congrArg (fun o => Except.ok (Instr.bfi o)) (fieldsA_encA _ _)

theorem popc (o : FmtA) : Statement (.popc o) := of_raw _ _ rfl fun _ _ => by
  unfold decodeRaw decodeRow2
  rw [opOf_encA]
  exact congrArg (fun o => Except.ok (Instr.popc o)) (fieldsA_encA _ _)

theorem clz (o : FmtA) : Statement (.clz o) := of_raw _ _ rfl fun _ _ => by
  unfold decodeRaw decodeRow2
  rw [opOf_encA]
  exact congrArg (fun o => Except.ok (Instr.clz o)) (fieldsA_encA _ _)

theorem ctz (o : FmtA) : Statement (.ctz o) := of_raw _ _ rfl fun _ _ => by
  unfold decodeRaw decodeRow2
  rw [opOf_encA]
  exact congrArg (fun o => Except.ok (Instr.ctz o)) (fieldsA_encA _ _)

theorem brev (o : FmtA) : Statement (.brev o) := of_raw _ _ rfl fun _ _ => by
  unfold decodeRaw decodeRow3
  rw [opOf_encA]
  exact congrArg (fun o => Except.ok (Instr.brev o)) (fieldsA_encA _ _)

theorem mov (o : FmtA) : Statement (.mov o) := of_raw _ _ rfl fun _ _ => by
  unfold decodeRaw decodeRow3
  rw [opOf_encA]
  exact congrArg (fun o => Except.ok (Instr.mov o)) (fieldsA_encA _ _)

theorem movi (o : FmtA) : Statement (.movi o) := of_raw _ _ rfl fun _ _ => by
  unfold decodeRaw decodeRow3
  rw [opOf_encA]
  exact congrArg (fun o => Except.ok (Instr.movi o)) (fieldsA_encA _ _)

theorem movh (o : FmtA) : Statement (.movh o) := of_raw _ _ rfl fun _ _ => by
  unfold decodeRaw decodeRow3
  rw [opOf_encA]
  exact congrArg (fun o => Except.ok (Instr.movh o)) (fieldsA_encA _ _)

theorem sel (o : FmtA) : Statement (.sel o) := of_raw _ _ rfl fun _ _ => by
  unfold decodeRaw decodeRow3
  rw [opOf_encA]
  exact congrArg (fun o => Except.ok (Instr.sel o)) (fieldsA_encA _ _)

theorem bshuf (o : FmtA) : Statement (.bshuf o) := of_raw _ _ rfl fun _ _ => by
  unfold decodeRaw decodeRow3
  rw [opOf_encA]
  exact congrArg (fun o => Except.ok (Instr.bshuf o)) (fieldsA_encA _ _)

theorem clamp (o : FmtA) : Statement (.clamp o) := of_raw _ _ rfl fun _ _ => by
  unfold decodeRaw decodeRow3
  rw [opOf_encA]
  exact congrArg (fun o => Except.ok (Instr.clamp o)) (fieldsA_encA _ _)

theorem cmp (o : FmtA) : Statement (.cmp o) := of_raw _ _ rfl fun _ _ => by
  unfold decodeRaw decodeRow4
  rw [opOf_encA]
  exact congrArg (fun o => Except.ok (Instr.cmp o)) (fieldsA_encA _ _)

theorem fcmp (o : FmtA) : Statement (.fcmp o) := of_raw _ _ rfl fun _ _ => by
  unfold decodeRaw decodeRow4
  rw [opOf_encA]
  exact congrArg (fun o => Except.ok (Instr.fcmp o)) (fieldsA_encA _ _)

theorem plop (o : FmtA) : Statement (.plop o) := of_raw _ _ rfl fun _ _ => by
  unfold decodeRaw decodeRow4
  rw [opOf_encA]
  exact congrArg (fun o => Except.ok (Instr.plop o)) (fieldsA_encA _ _)

theorem pmov (o : FmtA) : Statement (.pmov o) := of_raw _ _ rfl fun _ _ => by
  unfold decodeRaw decodeRow4
  rw [opOf_encA]
  exact congrArg (fun o => Except.ok (Instr.pmov o)) (fieldsA_encA _ _)

theorem poll (o : FmtA) : Statement (.poll o) := of_raw _ _ rfl fun _ _ => by
  unfold decodeRaw decodeRow4
  rw [opOf_encA]
  exact congrArg (fun o => Except.ok (Instr.poll o)) (fieldsA_encA _ _)

theorem lxch (o : FmtA) : Statement (.lxch o) := of_raw _ _ rfl fun _ _ => by
  unfold decodeRaw decodeRow4
  rw [opOf_encA]
  exact congrArg (fun o => Except.ok (Instr.lxch o)) (fieldsA_encA _ _)

theorem gred (o : FmtA) : Statement (.gred o) := of_raw _ _ rfl fun _ _ => by
  unfold decodeRaw decodeRow4
  rw [opOf_encA]
  exact congrArg (fun o => Except.ok (Instr.gred o)) (fieldsA_encA _ _)

theorem gscan (o : FmtA) : Statement (.gscan o) := of_raw _ _ rfl fun _ _ => by
  unfold decodeRaw decodeRow4
  rw [opOf_encA]
  exact congrArg (fun o => Except.ok (Instr.gscan o)) (fieldsA_encA _ _)

theorem fadd (o : FmtA) : Statement (.fadd o) := of_raw _ _ rfl fun _ _ => by
  unfold decodeRaw decodeRow5
  rw [opOf_encA]
  exact congrArg (fun o => Except.ok (Instr.fadd o)) (fieldsA_encA _ _)

theorem fsub (o : FmtA) : Statement (.fsub o) := of_raw _ _ rfl fun _ _ => by
  unfold decodeRaw decodeRow5
  rw [opOf_encA]
  exact congrArg (fun o => Except.ok (Instr.fsub o)) (fieldsA_encA _ _)

theorem fmul (o : FmtA) : Statement (.fmul o) := of_raw _ _ rfl fun _ _ => by
  unfold decodeRaw decodeRow5
  rw [opOf_encA]
  exact congrArg (fun o => Except.ok (Instr.fmul o)) (fieldsA_encA _ _)

theorem ffma (o : FmtA) : Statement (.ffma o) := of_raw _ _ rfl fun _ _ => by
  unfold decodeRaw decodeRow5
  rw [opOf_encA]
  exact congrArg (fun o => Except.ok (Instr.ffma o)) (fieldsA_encA _ _)

theorem fmin (o : FmtA) : Statement (.fmin o) := of_raw _ _ rfl fun _ _ => by
  unfold decodeRaw decodeRow5
  rw [opOf_encA]
  exact congrArg (fun o => Except.ok (Instr.fmin o)) (fieldsA_encA _ _)

theorem fmax (o : FmtA) : Statement (.fmax o) := of_raw _ _ rfl fun _ _ => by
  unfold decodeRaw decodeRow5
  rw [opOf_encA]
  exact congrArg (fun o => Except.ok (Instr.fmax o)) (fieldsA_encA _ _)

theorem fabs (o : FmtA) : Statement (.fabs o) := of_raw _ _ rfl fun _ _ => by
  unfold decodeRaw decodeRow5
  rw [opOf_encA]
  exact congrArg (fun o => Except.ok (Instr.fabs o)) (fieldsA_encA _ _)

theorem fneg (o : FmtA) : Statement (.fneg o) := of_raw _ _ rfl fun _ _ => by
  unfold decodeRaw decodeRow5
  rw [opOf_encA]
  exact congrArg (fun o => Except.ok (Instr.fneg o)) (fieldsA_encA _ _)

theorem fdiv (o : FmtA) : Statement (.fdiv o) := of_raw _ _ rfl fun _ _ => by
  unfold decodeRaw decodeRow5
  rw [opOf_encA]
  exact congrArg (fun o => Except.ok (Instr.fdiv o)) (fieldsA_encA _ _)

theorem fsqrt (o : FmtA) : Statement (.fsqrt o) := of_raw _ _ rfl fun _ _ => by
  unfold decodeRaw decodeRow5
  rw [opOf_encA]
  exact congrArg (fun o => Except.ok (Instr.fsqrt o)) (fieldsA_encA _ _)

theorem frcpa (o : FmtA) : Statement (.frcpa o) := of_raw _ _ rfl fun _ _ => by
  unfold decodeRaw decodeRow5
  rw [opOf_encA]
  exact congrArg (fun o => Except.ok (Instr.frcpa o)) (fieldsA_encA _ _)

theorem frsqa (o : FmtA) : Statement (.frsqa o) := of_raw _ _ rfl fun _ _ => by
  unfold decodeRaw decodeRow5
  rw [opOf_encA]
  exact congrArg (fun o => Except.ok (Instr.frsqa o)) (fieldsA_encA _ _)

theorem fclass (o : FmtA) : Statement (.fclass o) := of_raw _ _ rfl fun _ _ => by
  unfold decodeRaw decodeRow5
  rw [opOf_encA]
  exact congrArg (fun o => Except.ok (Instr.fclass o)) (fieldsA_encA _ _)

theorem fscale (o : FmtA) : Statement (.fscale o) := of_raw _ _ rfl fun _ _ => by
  unfold decodeRaw decodeRow5
  rw [opOf_encA]
  exact congrArg (fun o => Except.ok (Instr.fscale o)) (fieldsA_encA _ _)

theorem fgete (o : FmtA) : Statement (.fgete o) := of_raw _ _ rfl fun _ _ => by
  unfold decodeRaw decodeRow5
  rw [opOf_encA]
  exact congrArg (fun o => Except.ok (Instr.fgete o)) (fieldsA_encA _ _)

theorem fgetm (o : FmtA) : Statement (.fgetm o) := of_raw _ _ rfl fun _ _ => by
  unfold decodeRaw decodeRow5
  rw [opOf_encA]
  exact congrArg (fun o => Except.ok (Instr.fgetm o)) (fieldsA_encA _ _)

theorem fcopys (o : FmtA) : Statement (.fcopys o) := of_raw _ _ rfl fun _ _ => by
  unfold decodeRaw decodeRow6
  rw [opOf_encA]
  exact congrArg (fun o => Except.ok (Instr.fcopys o)) (fieldsA_encA _ _)

theorem frnd (o : FmtA) : Statement (.frnd o) := of_raw _ _ rfl fun _ _ => by
  unfold decodeRaw decodeRow6
  rw [opOf_encA]
  exact congrArg (fun o => Except.ok (Instr.frnd o)) (fieldsA_encA _ _)

theorem fmed3 (o : FmtA) : Statement (.fmed3 o) := of_raw _ _ rfl fun _ _ => by
  unfold decodeRaw decodeRow6
  rw [opOf_encA]
  exact congrArg (fun o => Except.ok (Instr.fmed3 o)) (fieldsA_encA _ _)

theorem fclamp (o : FmtA) : Statement (.fclamp o) := of_raw _ _ rfl fun _ _ => by
  unfold decodeRaw decodeRow6
  rw [opOf_encA]
  exact congrArg (fun o => Except.ok (Instr.fclamp o)) (fieldsA_encA _ _)

theorem fex2 (o : FmtA) : Statement (.fex2 o) := of_raw _ _ rfl fun _ _ => by
  unfold decodeRaw decodeRow6
  rw [opOf_encA]
  exact congrArg (fun o => Except.ok (Instr.fex2 o)) (fieldsA_encA _ _)

theorem flg2 (o : FmtA) : Statement (.flg2 o) := of_raw _ _ rfl fun _ _ => by
  unfold decodeRaw decodeRow6
  rw [opOf_encA]
  exact congrArg (fun o => Except.ok (Instr.flg2 o)) (fieldsA_encA _ _)

theorem fsin (o : FmtA) : Statement (.fsin o) := of_raw _ _ rfl fun _ _ => by
  unfold decodeRaw decodeRow6
  rw [opOf_encA]
  exact congrArg (fun o => Except.ok (Instr.fsin o)) (fieldsA_encA _ _)

theorem fcos (o : FmtA) : Statement (.fcos o) := of_raw _ _ rfl fun _ _ => by
  unfold decodeRaw decodeRow6
  rw [opOf_encA]
  exact congrArg (fun o => Except.ok (Instr.fcos o)) (fieldsA_encA _ _)

theorem fdot2 (o : FmtA) : Statement (.fdot2 o) := of_raw _ _ rfl fun _ _ => by
  unfold decodeRaw decodeRow6
  rw [opOf_encA]
  exact congrArg (fun o => Except.ok (Instr.fdot2 o)) (fieldsA_encA _ _)

theorem fadd2 (o : FmtA) : Statement (.fadd2 o) := of_raw _ _ rfl fun _ _ => by
  unfold decodeRaw decodeRow6
  rw [opOf_encA]
  exact congrArg (fun o => Except.ok (Instr.fadd2 o)) (fieldsA_encA _ _)

theorem fmul2 (o : FmtA) : Statement (.fmul2 o) := of_raw _ _ rfl fun _ _ => by
  unfold decodeRaw decodeRow6
  rw [opOf_encA]
  exact congrArg (fun o => Except.ok (Instr.fmul2 o)) (fieldsA_encA _ _)

theorem ffma2 (o : FmtA) : Statement (.ffma2 o) := of_raw _ _ rfl fun _ _ => by
  unfold decodeRaw decodeRow6
  rw [opOf_encA]
  exact congrArg (fun o => Except.ok (Instr.ffma2 o)) (fieldsA_encA _ _)

theorem cvt (o : FmtA) : Statement (.cvt o) := of_raw _ _ rfl fun _ _ => by
  unfold decodeRaw decodeRow8
  rw [opOf_encA]
  exact congrArg (fun o => Except.ok (Instr.cvt o)) (fieldsA_encA _ _)

theorem i2f (o : FmtA) : Statement (.i2f o) := of_raw _ _ rfl fun _ _ => by
  unfold decodeRaw decodeRow8
  rw [opOf_encA]
  exact congrArg (fun o => Except.ok (Instr.i2f o)) (fieldsA_encA _ _)

theorem f2i (o : FmtA) : Statement (.f2i o) := of_raw _ _ rfl fun _ _ => by
  unfold decodeRaw decodeRow8
  rw [opOf_encA]
  exact congrArg (fun o => Except.ok (Instr.f2i o)) (fieldsA_encA _ _)

theorem mxq (o : FmtA) : Statement (.mxq o) := of_raw _ _ rfl fun _ _ => by
  unfold decodeRaw decodeRow8
  rw [opOf_encA]
  exact congrArg (fun o => Except.ok (Instr.mxq o)) (fieldsA_encA _ _)

theorem mxdq (o : FmtA) : Statement (.mxdq o) := of_raw _ _ rfl fun _ _ => by
  unfold decodeRaw decodeRow8
  rw [opOf_encA]
  exact congrArg (fun o => Except.ok (Instr.mxdq o)) (fieldsA_encA _ _)

theorem bfpq (o : FmtA) : Statement (.bfpq o) := of_raw _ _ rfl fun _ _ => by
  unfold decodeRaw decodeRow8
  rw [opOf_encA]
  exact congrArg (fun o => Except.ok (Instr.bfpq o)) (fieldsA_encA _ _)

theorem pack (o : FmtA) : Statement (.pack o) := of_raw _ _ rfl fun _ _ => by
  unfold decodeRaw decodeRow8
  rw [opOf_encA]
  exact congrArg (fun o => Except.ok (Instr.pack o)) (fieldsA_encA _ _)

theorem unpk (o : FmtA) : Statement (.unpk o) := of_raw _ _ rfl fun _ _ => by
  unfold decodeRaw decodeRow8
  rw [opOf_encA]
  exact congrArg (fun o => Except.ok (Instr.unpk o)) (fieldsA_encA _ _)

theorem ld (o : FmtM) : Statement (.ld o) := of_raw _ _ rfl fun _ _ => by
  unfold decodeRaw decodeRow9
  rw [opOf_encM]
  exact congrArg (fun o => Except.ok (Instr.ld o)) (fieldsM_encM _ _)

theorem st (o : FmtM) : Statement (.st o) := of_raw _ _ rfl fun _ _ => by
  unfold decodeRaw decodeRow9
  rw [opOf_encM]
  exact congrArg (fun o => Except.ok (Instr.st o)) (fieldsM_encM _ _)

theorem ldw (o : FmtM) : Statement (.ldw o) := of_raw _ _ rfl fun _ _ => by
  unfold decodeRaw decodeRow9
  rw [opOf_encM]
  exact congrArg (fun o => Except.ok (Instr.ldw o)) (fieldsM_encM _ _)

theorem pref (o : FmtM) : Statement (.pref o) := of_raw _ _ rfl fun _ _ => by
  unfold decodeRaw decodeRow9
  rw [opOf_encM]
  exact congrArg (fun o => Except.ok (Instr.pref o)) (fieldsM_encM _ _)

theorem cresize (o : FmtM) : Statement (.cresize o) := of_raw _ _ rfl fun _ _ => by
  unfold decodeRaw decodeRow9
  rw [opOf_encM]
  exact congrArg (fun o => Except.ok (Instr.cresize o)) (fieldsM_encM _ _)

theorem cflush (o : FmtM) : Statement (.cflush o) := of_raw _ _ rfl fun _ _ => by
  unfold decodeRaw decodeRow9
  rw [opOf_encM]
  exact congrArg (fun o => Except.ok (Instr.cflush o)) (fieldsM_encM _ _)

theorem cinv (o : FmtM) : Statement (.cinv o) := of_raw _ _ rfl fun _ _ => by
  unfold decodeRaw decodeRow9
  rw [opOf_encM]
  exact congrArg (fun o => Except.ok (Instr.cinv o)) (fieldsM_encM _ _)

theorem femark (o : FmtM) : Statement (.femark o) := of_raw _ _ rfl fun _ _ => by
  unfold decodeRaw decodeRow9
  rw [opOf_encM]
  exact congrArg (fun o => Except.ok (Instr.femark o)) (fieldsM_encM _ _)

theorem fetest (o : FmtM) : Statement (.fetest o) := of_raw _ _ rfl fun _ _ => by
  unfold decodeRaw decodeRow9
  rw [opOf_encM]
  exact congrArg (fun o => Except.ok (Instr.fetest o)) (fieldsM_encM _ _)

theorem atom (o : FmtM) : Statement (.atom o) := of_raw _ _ rfl fun _ _ => by
  unfold decodeRaw decodeRowA
  rw [opOf_encM]
  exact congrArg (fun o => Except.ok (Instr.atom o)) (fieldsM_encM _ _)

theorem cas (o : FmtM) : Statement (.cas o) := of_raw _ _ rfl fun _ _ => by
  unfold decodeRaw decodeRowA
  rw [opOf_encM]
  exact congrArg (fun o => Except.ok (Instr.cas o)) (fieldsM_encM _ _)

theorem atomsc (o : FmtM) : Statement (.atomsc o) := of_raw _ _ rfl fun _ _ => by
  unfold decodeRaw decodeRowA
  rw [opOf_encM]
  exact congrArg (fun o => Except.ok (Instr.atomsc o)) (fieldsM_encM _ _)

theorem faddw (o : FmtM) : Statement (.faddw o) := of_raw _ _ rfl fun _ _ => by
  unfold decodeRaw decodeRowA
  rw [opOf_encM]
  exact congrArg (fun o => Except.ok (Instr.faddw o)) (fieldsM_encM _ _)

theorem wread (o : FmtM) : Statement (.wread o) := of_raw _ _ rfl fun _ _ => by
  unfold decodeRaw decodeRowA
  rw [opOf_encM]
  exact congrArg (fun o => Except.ok (Instr.wread o)) (fieldsM_encM _ _)

theorem wflush (o : FmtM) : Statement (.wflush o) := of_raw _ _ rfl fun _ _ => by
  unfold decodeRaw decodeRowA
  rw [opOf_encM]
  exact congrArg (fun o => Except.ok (Instr.wflush o)) (fieldsM_encM _ _)

theorem fence (o : FmtM) : Statement (.fence o) := of_raw _ _ rfl fun _ _ => by
  unfold decodeRaw decodeRowA
  rw [opOf_encM]
  exact congrArg (fun o => Except.ok (Instr.fence o)) (fieldsM_encM _ _)

theorem opfence (o : FmtM) : Statement (.opfence o) := of_raw _ _ rfl fun _ _ => by
  unfold decodeRaw decodeRowA
  rw [opOf_encM]
  exact congrArg (fun o => Except.ok (Instr.opfence o)) (fieldsM_encM _ _)

theorem recfence (o : FmtM) : Statement (.recfence o) := of_raw _ _ rfl fun _ _ => by
  unfold decodeRaw decodeRowA
  rw [opOf_encM]
  exact congrArg (fun o => Except.ok (Instr.recfence o)) (fieldsM_encM _ _)

theorem bara (o : FmtC) : Statement (.bara o) := of_raw _ _ rfl fun _ _ => by
  unfold decodeRaw decodeRowA
  rw [opOf_encC]
  exact congrArg (fun o => Except.ok (Instr.bara o)) (fieldsC_encC _ _)

theorem barw (o : FmtC) : Statement (.barw o) := of_raw _ _ rfl fun _ _ => by
  unfold decodeRaw decodeRowA
  rw [opOf_encC]
  exact congrArg (fun o => Except.ok (Instr.barw o)) (fieldsC_encC _ _)

theorem barx (o : FmtC) : Statement (.barx o) := of_raw _ _ rfl fun _ _ => by
  unfold decodeRaw decodeRowA
  rw [opOf_encC]
  exact congrArg (fun o => Except.ok (Instr.barx o)) (fieldsC_encC _ _)

theorem bari (o : FmtC) : Statement (.bari o) := of_raw _ _ rfl fun _ _ => by
  unfold decodeRaw decodeRowA
  rw [opOf_encC]
  exact congrArg (fun o => Except.ok (Instr.bari o)) (fieldsC_encC _ _)

theorem tokwait (o : FmtM) : Statement (.tokwait o) := of_raw _ _ rfl fun _ _ => by
  unfold decodeRaw decodeRowA
  rw [opOf_encM]
  exact congrArg (fun o => Except.ok (Instr.tokwait o)) (fieldsM_encM _ _)

theorem tokpass (o : FmtM) : Statement (.tokpass o) := of_raw _ _ rfl fun _ _ => by
  unfold decodeRaw decodeRowA
  rw [opOf_encM]
  exact congrArg (fun o => Except.ok (Instr.tokpass o)) (fieldsM_encM _ _)

theorem redix (o : FmtM) : Statement (.redix o) := of_raw _ _ rfl fun _ _ => by
  unfold decodeRaw decodeRowA
  rw [opOf_encM]
  exact congrArg (fun o => Except.ok (Instr.redix o)) (fieldsM_encM _ _)

theorem cpy (o : FmtE) : Statement (.cpy o) := of_raw _ _ rfl fun _ _ => by
  unfold decodeRaw decodeRowB
  rw [opOf_encE]
  exact congrArg (fun o => Except.ok (Instr.cpy o)) (fieldsE_encE _ _)

theorem cpyi (o : FmtE) : Statement (.cpyi o) := of_raw _ _ rfl fun _ _ => by
  unfold decodeRaw decodeRowB
  rw [opOf_encE]
  exact congrArg (fun o => Except.ok (Instr.cpyi o)) (fieldsE_encE _ _)

theorem cpyg (o : FmtE) : Statement (.cpyg o) := of_raw _ _ rfl fun _ _ => by
  unfold decodeRaw decodeRowB
  rw [opOf_encE]
  exact congrArg (fun o => Except.ok (Instr.cpyg o)) (fieldsE_encE _ _)

theorem cpys (o : FmtE) : Statement (.cpys o) := of_raw _ _ rfl fun _ _ => by
  unfold decodeRaw decodeRowB
  rw [opOf_encE]
  exact congrArg (fun o => Except.ok (Instr.cpys o)) (fieldsE_encE _ _)

theorem cpyq (o : FmtE) : Statement (.cpyq o) := of_raw _ _ rfl fun _ hw => by
  change WF.wfWait o = true at hw
  simp only [WF.wfWait, Bool.and_eq_true, decide_eq_true_eq] at hw
  have b0 : o.efn.getLsbD 5 = false := by rw [bit_of_toNat hw.2]; rfl
  have b1 : o.efn.getLsbD 4 = false := by rw [bit_of_toNat hw.2]; rfl
  have b2 : o.efn.getLsbD 3 = false := by rw [bit_of_toNat hw.2]; rfl
  unfold decodeRaw decodeRowB
  rw [opOf_encE]
  dsimp only [BitVec.toNat_ofNat, Nat.reducePow, Nat.reduceMod, Nat.reduceDiv]
  simp only [fieldsE_encE]
  simp only [b0, b1, b2]
  rfl

theorem cpyqTest (o : FmtE) : Statement (.cpyqTest o) := of_raw _ _ rfl fun _ hw => by
  change WF.wfWaitTest o = true at hw
  simp only [WF.wfWaitTest, Bool.and_eq_true, decide_eq_true_eq] at hw
  have b0 : o.efn.getLsbD 5 = false := by rw [bit_of_bits hw.1.2 (by decide) (by decide)]; rfl
  have b1 : o.efn.getLsbD 4 = false := by rw [bit_of_bits hw.1.2 (by decide) (by decide)]; rfl
  have b2 : o.efn.getLsbD 3 = true := by rw [bit_of_bits hw.2 (by decide) (by decide)]; rfl
  unfold decodeRaw decodeRowB
  rw [opOf_encE]
  dsimp only [BitVec.toNat_ofNat, Nat.reducePow, Nat.reduceMod, Nat.reduceDiv]
  simp only [fieldsE_encE]
  simp only [b0, b1, b2]
  rfl

theorem cpyqAll (o : FmtE) : Statement (.cpyqAll o) := of_raw _ _ rfl fun _ hw => by
  change WF.wfWaitAll o = true at hw
  simp only [WF.wfWaitAll, Bool.and_eq_true, decide_eq_true_eq] at hw
  have b0 : o.efn.getLsbD 5 = false := by rw [bit_of_toNat hw.2]; rfl
  have b1 : o.efn.getLsbD 4 = true := by rw [bit_of_toNat hw.2]; rfl
  unfold decodeRaw decodeRowB
  rw [opOf_encE]
  dsimp only [BitVec.toNat_ofNat, Nat.reducePow, Nat.reduceMod, Nat.reduceDiv]
  simp only [fieldsE_encE]
  simp only [b0, b1]
  rfl

theorem cpyqStat (o : FmtE) : Statement (.cpyqStat o) := of_raw _ _ rfl fun _ hw => by
  change WF.wfCpyqStat o = true at hw
  simp only [WF.wfCpyqStat, Bool.and_eq_true, decide_eq_true_eq] at hw
  have b0 : o.efn.getLsbD 5 = true := by rw [bit_of_toNat hw.2]; rfl
  unfold decodeRaw decodeRowB
  rw [opOf_encE]
  dsimp only [BitVec.toNat_ofNat, Nat.reducePow, Nat.reduceMod, Nat.reduceDiv]
  simp only [fieldsE_encE]
  simp only [b0]
  rfl

theorem cpyx (o : FmtE) : Statement (.cpyx o) := of_raw _ _ rfl fun _ _ => by
  unfold decodeRaw decodeRowB
  rw [opOf_encE]
  exact congrArg (fun o => Except.ok (Instr.cpyx o)) (fieldsE_encE _ _)

theorem wsstage (o : FmtE) : Statement (.wsstage o) := of_raw _ _ rfl fun _ _ => by
  unfold decodeRaw decodeRowB
  rw [opOf_encE]
  exact congrArg (fun o => Except.ok (Instr.wsstage o)) (fieldsE_encE _ _)

theorem wsdrop (o : FmtE) : Statement (.wsdrop o) := of_raw _ _ rfl fun _ _ => by
  unfold decodeRaw decodeRowB
  rw [opOf_encE]
  exact congrArg (fun o => Except.ok (Instr.wsdrop o)) (fieldsE_encE _ _)

theorem mms (o : FmtE) : Statement (.mms o) := of_raw _ _ rfl fun _ _ => by
  unfold decodeRaw decodeRowC
  rw [opOf_encE]
  exact congrArg (fun o => Except.ok (Instr.mms o)) (fieldsE_encE _ _)

theorem mmx (o : FmtE) : Statement (.mmx o) := of_raw _ _ rfl fun _ _ => by
  unfold decodeRaw decodeRowC
  rw [opOf_encE]
  exact congrArg (fun o => Except.ok (Instr.mmx o)) (fieldsE_encE _ _)

theorem mmi (o : FmtE) : Statement (.mmi o) := of_raw _ _ rfl fun _ _ => by
  unfold decodeRaw decodeRowC
  rw [opOf_encE]
  exact congrArg (fun o => Except.ok (Instr.mmi o)) (fieldsE_encE _ _)

theorem acz (o : FmtE) : Statement (.acz o) := of_raw _ _ rfl fun _ _ => by
  unfold decodeRaw decodeRowC
  rw [opOf_encE]
  exact congrArg (fun o => Except.ok (Instr.acz o)) (fieldsE_encE _ _)

theorem acld (o : FmtE) : Statement (.acld o) := of_raw _ _ rfl fun _ _ => by
  unfold decodeRaw decodeRowC
  rw [opOf_encE]
  exact congrArg (fun o => Except.ok (Instr.acld o)) (fieldsE_encE _ _)

theorem acst (o : FmtE) : Statement (.acst o) := of_raw _ _ rfl fun _ _ => by
  unfold decodeRaw decodeRowC
  rw [opOf_encE]
  exact congrArg (fun o => Except.ok (Instr.acst o)) (fieldsE_encE _ _)

theorem acrd (o : FmtE) : Statement (.acrd o) := of_raw _ _ rfl fun _ _ => by
  unfold decodeRaw decodeRowC
  rw [opOf_encE]
  exact congrArg (fun o => Except.ok (Instr.acrd o)) (fieldsE_encE _ _)

theorem mwait (o : FmtE) : Statement (.mwait o) := of_raw _ _ rfl fun _ hw => by
  change WF.wfWait o = true at hw
  simp only [WF.wfWait, Bool.and_eq_true, decide_eq_true_eq] at hw
  have b0 : o.efn.getLsbD 4 = false := by rw [bit_of_toNat hw.2]; rfl
  have b1 : o.efn.getLsbD 3 = false := by rw [bit_of_toNat hw.2]; rfl
  unfold decodeRaw decodeRowC
  rw [opOf_encE]
  dsimp only [BitVec.toNat_ofNat, Nat.reducePow, Nat.reduceMod, Nat.reduceDiv]
  simp only [fieldsE_encE]
  simp only [b0, b1]
  rfl

theorem mwaitTest (o : FmtE) : Statement (.mwaitTest o) := of_raw _ _ rfl fun _ hw => by
  change WF.wfWaitTest o = true at hw
  simp only [WF.wfWaitTest, Bool.and_eq_true, decide_eq_true_eq] at hw
  have b0 : o.efn.getLsbD 4 = false := by rw [bit_of_bits hw.1.2 (by decide) (by decide)]; rfl
  have b1 : o.efn.getLsbD 3 = true := by rw [bit_of_bits hw.2 (by decide) (by decide)]; rfl
  unfold decodeRaw decodeRowC
  rw [opOf_encE]
  dsimp only [BitVec.toNat_ofNat, Nat.reducePow, Nat.reduceMod, Nat.reduceDiv]
  simp only [fieldsE_encE]
  simp only [b0, b1]
  rfl

theorem mwaitAll (o : FmtE) : Statement (.mwaitAll o) := of_raw _ _ rfl fun _ hw => by
  change WF.wfWaitAll o = true at hw
  simp only [WF.wfWaitAll, Bool.and_eq_true, decide_eq_true_eq] at hw
  have b0 : o.efn.getLsbD 4 = true := by rw [bit_of_toNat hw.2]; rfl
  unfold decodeRaw decodeRowC
  rw [opOf_encE]
  dsimp only [BitVec.toNat_ofNat, Nat.reducePow, Nat.reduceMod, Nat.reduceDiv]
  simp only [fieldsE_encE]
  simp only [b0]
  rfl

theorem mstatr (o : FmtE) : Statement (.mstatr o) := of_raw _ _ rfl fun _ _ => by
  unfold decodeRaw decodeRowC
  rw [opOf_encE]
  exact congrArg (fun o => Except.ok (Instr.mstatr o)) (fieldsE_encE _ _)

theorem mdrain (o : FmtE) : Statement (.mdrain o) := of_raw _ _ rfl fun _ _ => by
  unfold decodeRaw decodeRowC
  rw [opOf_encE]
  exact congrArg (fun o => Except.ok (Instr.mdrain o)) (fieldsE_encE _ _)

theorem mrestore (o : FmtE) : Statement (.mrestore o) := of_raw _ _ rfl fun _ _ => by
  unfold decodeRaw decodeRowC
  rw [opOf_encE]
  exact congrArg (fun o => Except.ok (Instr.mrestore o)) (fieldsE_encE _ _)

theorem mresumeMatrix (o : FmtE) : Statement (.mresumeMatrix o) := of_raw _ _ rfl fun _ hw => by
  change WF.wfCtl o 0 = true at hw
  simp only [WF.wfCtl, Bool.and_eq_true, decide_eq_true_eq] at hw
  have b := hw.1.2
  unfold decodeRaw decodeRowC
  rw [opOf_encE]
  dsimp only [BitVec.toNat_ofNat, Nat.reducePow, Nat.reduceMod, Nat.reduceDiv]
  simp only [fieldsE_encE]
  change bitsNat o.efn 42 41 = _ at b
  simp only [b]
  rfl

theorem mresumeCopy (o : FmtE) : Statement (.mresumeCopy o) := of_raw _ _ rfl fun _ hw => by
  change WF.wfCtl o 1 = true at hw
  simp only [WF.wfCtl, Bool.and_eq_true, decide_eq_true_eq] at hw
  have b := hw.1.2
  unfold decodeRaw decodeRowC
  rw [opOf_encE]
  dsimp only [BitVec.toNat_ofNat, Nat.reducePow, Nat.reduceMod, Nat.reduceDiv]
  simp only [fieldsE_encE]
  change bitsNat o.efn 42 41 = _ at b
  simp only [b]
  rfl

theorem mresumeQuery (o : FmtE) : Statement (.mresumeQuery o) := of_raw _ _ rfl fun _ hw => by
  change WF.wfCtl o 2 = true at hw
  simp only [WF.wfCtl, Bool.and_eq_true, decide_eq_true_eq] at hw
  have b := hw.1.2
  unfold decodeRaw decodeRowC
  rw [opOf_encE]
  dsimp only [BitVec.toNat_ofNat, Nat.reducePow, Nat.reduceMod, Nat.reduceDiv]
  simp only [fieldsE_encE]
  change bitsNat o.efn 42 41 = _ at b
  simp only [b]
  rfl

theorem slice (o : FmtE) : Statement (.slice o) := of_raw _ _ rfl fun _ _ => by
  unfold decodeRaw decodeRowC
  rw [opOf_encE]
  exact congrArg (fun o => Except.ok (Instr.slice o)) (fieldsE_encE _ _)

theorem rq (o : FmtE) : Statement (.rq o) := of_raw _ _ rfl fun _ _ => by
  unfold decodeRaw decodeRowD
  rw [opOf_encE]
  exact congrArg (fun o => Except.ok (Instr.rq o)) (fieldsE_encE _ _)

theorem bq (o : FmtE) : Statement (.bq o) := of_raw _ _ rfl fun _ _ => by
  unfold decodeRaw decodeRowD
  rw [opOf_encE]
  exact congrArg (fun o => Except.ok (Instr.bq o)) (fieldsE_encE _ _)

theorem rqr (o : FmtE) : Statement (.rqr o) := of_raw _ _ rfl fun _ _ => by
  unfold decodeRaw decodeRowD
  rw [opOf_encE]
  exact congrArg (fun o => Except.ok (Instr.rqr o)) (fieldsE_encE _ _)

theorem hacc (o : FmtE) : Statement (.hacc o) := of_raw _ _ rfl fun _ _ => by
  unfold decodeRaw decodeRowD
  rw [opOf_encE]
  exact congrArg (fun o => Except.ok (Instr.hacc o)) (fieldsE_encE _ _)

theorem hrej (o : FmtE) : Statement (.hrej o) := of_raw _ _ rfl fun _ _ => by
  unfold decodeRaw decodeRowD
  rw [opOf_encE]
  exact congrArg (fun o => Except.ok (Instr.hrej o)) (fieldsE_encE _ _)

theorem spcfg (o : FmtE) : Statement (.spcfg o) := of_raw _ _ rfl fun _ _ => by
  unfold decodeRaw decodeRowD
  rw [opOf_encE]
  exact congrArg (fun o => Except.ok (Instr.spcfg o)) (fieldsE_encE _ _)

theorem cover (o : FmtE) : Statement (.cover o) := of_raw _ _ rfl fun _ _ => by
  unfold decodeRaw decodeRowD
  rw [opOf_encE]
  exact congrArg (fun o => Except.ok (Instr.cover o)) (fieldsE_encE _ _)

theorem triem (o : FmtE) : Statement (.triem o) := of_raw _ _ rfl fun _ _ => by
  unfold decodeRaw decodeRowD
  rw [opOf_encE]
  exact congrArg (fun o => Except.ok (Instr.triem o)) (fieldsE_encE _ _)

theorem bvhref (o : FmtE) : Statement (.bvhref o) := of_raw _ _ rfl fun _ _ => by
  unfold decodeRaw decodeRowD
  rw [opOf_encE]
  exact congrArg (fun o => Except.ok (Instr.bvhref o)) (fieldsE_encE _ _)

theorem rclaim (o : FmtE) : Statement (.rclaim o) := of_raw _ _ rfl fun _ _ => by
  unfold decodeRaw decodeRowE
  rw [opOf_encE]
  exact congrArg (fun o => Except.ok (Instr.rclaim o)) (fieldsE_encE _ _)

theorem rcommit (o : FmtE) : Statement (.rcommit o) := of_raw _ _ rfl fun _ _ => by
  unfold decodeRaw decodeRowE
  rw [opOf_encE]
  exact congrArg (fun o => Except.ok (Instr.rcommit o)) (fieldsE_encE _ _)

theorem rawaitTake (o : FmtE) : Statement (.rawaitTake o) := of_raw _ _ rfl fun _ hw => by
  change WF.wfRawaitTake o = true at hw
  simp only [WF.wfRawaitTake, WF.wfRclaim, Bool.and_eq_true, decide_eq_true_eq] at hw
  have b0 : o.efn.getLsbD 19 = false := by rw [bit_of_bits hw.2 (by decide) (by decide)]; rfl
  unfold decodeRaw decodeRowE
  rw [opOf_encE]
  dsimp only [BitVec.toNat_ofNat, Nat.reducePow, Nat.reduceMod, Nat.reduceDiv]
  simp only [fieldsE_encE]
  simp only [b0]
  rfl

theorem rawaitAt (o : FmtE) : Statement (.rawaitAt o) := of_raw _ _ rfl fun _ hw => by
  change WF.wfRawaitAt o = true at hw
  simp only [WF.wfRawaitAt, Bool.and_eq_true, decide_eq_true_eq] at hw
  have b0 : o.efn.getLsbD 19 = true := by rw [bit_of_bits hw.2 (by decide) (by decide)]; rfl
  unfold decodeRaw decodeRowE
  rw [opOf_encE]
  dsimp only [BitVec.toNat_ofNat, Nat.reducePow, Nat.reduceMod, Nat.reduceDiv]
  simp only [fieldsE_encE]
  simp only [b0]
  rfl

theorem rretire (o : FmtE) : Statement (.rretire o) := of_raw _ _ rfl fun _ _ => by
  unfold decodeRaw decodeRowE
  rw [opOf_encE]
  exact congrArg (fun o => Except.ok (Instr.rretire o)) (fieldsE_encE _ _)

theorem enq (o : FmtE) : Statement (.enq o) := of_raw _ _ rfl fun _ _ => by
  unfold decodeRaw decodeRowE
  rw [opOf_encE]
  exact congrArg (fun o => Except.ok (Instr.enq o)) (fieldsE_encE _ _)

theorem deq (o : FmtE) : Statement (.deq o) := of_raw _ _ rfl fun _ _ => by
  unfold decodeRaw decodeRowE
  rw [opOf_encE]
  exact congrArg (fun o => Except.ok (Instr.deq o)) (fieldsE_encE _ _)

theorem cont (o : FmtE) : Statement (.cont o) := of_raw _ _ rfl fun _ _ => by
  unfold decodeRaw decodeRowE
  rw [opOf_encE]
  exact congrArg (fun o => Except.ok (Instr.cont o)) (fieldsE_encE _ _)

theorem launch (o : FmtE) : Statement (.launch o) := of_raw _ _ rfl fun _ hw => by
  change WF.wfLaunch o = true at hw
  simp only [WF.wfLaunch, Bool.and_eq_true, decide_eq_true_eq] at hw
  have b0 : o.efn.getLsbD 19 = false := by rw [bit_of_toNat hw.2]; rfl
  unfold decodeRaw decodeRowE
  rw [opOf_encE]
  dsimp only [BitVec.toNat_ofNat, Nat.reducePow, Nat.reduceMod, Nat.reduceDiv]
  simp only [fieldsE_encE]
  simp only [b0]
  rfl

theorem launchGraph (o : FmtE) : Statement (.launchGraph o) := of_raw _ _ rfl fun _ hw => by
  change WF.wfLaunchGraph o = true at hw
  simp only [WF.wfLaunchGraph, Bool.and_eq_true, decide_eq_true_eq] at hw
  have b0 : o.efn.getLsbD 19 = true := by rw [bit_of_bits hw.1.2 (by decide) (by decide)]; rfl
  unfold decodeRaw decodeRowE
  rw [opOf_encE]
  dsimp only [BitVec.toNat_ofNat, Nat.reducePow, Nat.reduceMod, Nat.reduceDiv]
  simp only [fieldsE_encE]
  simp only [b0]
  rfl

theorem signal (o : FmtE) : Statement (.signal o) := of_raw _ _ rfl fun _ _ => by
  unfold decodeRaw decodeRowE
  rw [opOf_encE]
  exact congrArg (fun o => Except.ok (Instr.signal o)) (fieldsE_encE _ _)

theorem publish (o : FmtE) : Statement (.publish o) := of_raw _ _ rfl fun _ _ => by
  unfold decodeRaw decodeRowE
  rw [opOf_encE]
  exact congrArg (fun o => Except.ok (Instr.publish o)) (fieldsE_encE _ _)

theorem send (o : FmtE) : Statement (.send o) := of_raw _ _ rfl fun _ _ => by
  unfold decodeRaw decodeRowE
  rw [opOf_encE]
  exact congrArg (fun o => Except.ok (Instr.send o)) (fieldsE_encE _ _)

theorem recvp (o : FmtE) : Statement (.recvp o) := of_raw _ _ rfl fun _ _ => by
  unfold decodeRaw decodeRowE
  rw [opOf_encE]
  exact congrArg (fun o => Except.ok (Instr.recvp o)) (fieldsE_encE _ _)

theorem recvw (o : FmtE) : Statement (.recvw o) := of_raw _ _ rfl fun _ _ => by
  unfold decodeRaw decodeRowE
  rw [opOf_encE]
  exact congrArg (fun o => Except.ok (Instr.recvw o)) (fieldsE_encE _ _)

theorem probe (o : FmtE) : Statement (.probe o) := of_raw _ _ rfl fun _ hw => by
  change WF.wfProbe o = true at hw
  simp only [WF.wfProbe, Bool.and_eq_true, decide_eq_true_eq] at hw
  have b0 : o.efn.getLsbD 19 = false := by rw [bit_of_bits hw.1.2 (by decide) (by decide)]; rfl
  unfold decodeRaw decodeRowE
  rw [opOf_encE]
  dsimp only [BitVec.toNat_ofNat, Nat.reducePow, Nat.reduceMod, Nat.reduceDiv]
  simp only [fieldsE_encE]
  simp only [b0]
  rfl

theorem probeTok (o : FmtE) : Statement (.probeTok o) := of_raw _ _ rfl fun _ hw => by
  change WF.wfProbeTok o = true at hw
  simp only [WF.wfProbeTok, Bool.and_eq_true, decide_eq_true_eq] at hw
  have b0 : o.efn.getLsbD 19 = true := by rw [bit_of_bits hw.1.2 (by decide) (by decide)]; rfl
  unfold decodeRaw decodeRowE
  rw [opOf_encE]
  dsimp only [BitVec.toNat_ofNat, Nat.reducePow, Nat.reduceMod, Nat.reduceDiv]
  simp only [fieldsE_encE]
  simp only [b0]
  rfl

theorem itrep (o : FmtE) : Statement (.itrep o) := of_raw _ _ rfl fun _ _ => by
  unfold decodeRaw decodeRowE
  rw [opOf_encE]
  exact congrArg (fun o => Except.ok (Instr.itrep o)) (fieldsE_encE _ _)

theorem csrr (o : FmtS) : Statement (.csrr o) := of_raw _ _ rfl fun _ _ => by
  unfold decodeRaw decodeRowF
  rw [opOf_encS]
  exact congrArg (fun o => Except.ok (Instr.csrr o)) (fieldsS_encS _ _)

theorem csrw (o : FmtS) : Statement (.csrw o) := of_raw _ _ rfl fun _ hw => by
  change WF.wfCsrw o 0 = true at hw
  simp only [WF.wfCsrw, Bool.and_eq_true, decide_eq_true_eq] at hw
  have b : bitsNat o.sfn 1 0 = 0 := by rw [bitsNat, hw.2]; rfl
  unfold decodeRaw decodeRowF
  rw [opOf_encS]
  dsimp only [BitVec.toNat_ofNat, Nat.reducePow, Nat.reduceMod, Nat.reduceDiv]
  simp only [fieldsS_encS]
  simp only [b]
  rfl

theorem csrwSet (o : FmtS) : Statement (.csrwSet o) := of_raw _ _ rfl fun _ hw => by
  change WF.wfCsrw o 1 = true at hw
  simp only [WF.wfCsrw, Bool.and_eq_true, decide_eq_true_eq] at hw
  have b : bitsNat o.sfn 1 0 = 1 := by rw [bitsNat, hw.2]; rfl
  unfold decodeRaw decodeRowF
  rw [opOf_encS]
  dsimp only [BitVec.toNat_ofNat, Nat.reducePow, Nat.reduceMod, Nat.reduceDiv]
  simp only [fieldsS_encS]
  simp only [b]
  rfl

theorem csrwClr (o : FmtS) : Statement (.csrwClr o) := of_raw _ _ rfl fun _ hw => by
  change WF.wfCsrw o 2 = true at hw
  simp only [WF.wfCsrw, Bool.and_eq_true, decide_eq_true_eq] at hw
  have b : bitsNat o.sfn 1 0 = 2 := by rw [bitsNat, hw.2]; rfl
  unfold decodeRaw decodeRowF
  rw [opOf_encS]
  dsimp only [BitVec.toNat_ofNat, Nat.reducePow, Nat.reduceMod, Nat.reduceDiv]
  simp only [fieldsS_encS]
  simp only [b]
  rfl

theorem rdclk (o : FmtS) : Statement (.rdclk o) := of_raw _ _ rfl fun _ _ => by
  unfold decodeRaw decodeRowF
  rw [opOf_encS]
  exact congrArg (fun o => Except.ok (Instr.rdclk o)) (fieldsS_encS _ _)

theorem rdtime (o : FmtS) : Statement (.rdtime o) := of_raw _ _ rfl fun _ _ => by
  unfold decodeRaw decodeRowF
  rw [opOf_encS]
  exact congrArg (fun o => Except.ok (Instr.rdtime o)) (fieldsS_encS _ _)

theorem gstatr (o : FmtS) : Statement (.gstatr o) := of_raw _ _ rfl fun _ _ => by
  unfold decodeRaw decodeRowF
  rw [opOf_encS]
  exact congrArg (fun o => Except.ok (Instr.gstatr o)) (fieldsS_encS _ _)

theorem gstatw (o : FmtS) : Statement (.gstatw o) := of_raw _ _ rfl fun _ _ => by
  unfold decodeRaw decodeRowF
  rw [opOf_encS]
  exact congrArg (fun o => Except.ok (Instr.gstatw o)) (fieldsS_encS _ _)

theorem gresume (o : FmtS) : Statement (.gresume o) := of_raw _ _ rfl fun _ hw => by
  change WF.wfHandle o 0 = true at hw
  simp only [WF.wfHandle, Bool.and_eq_true, decide_eq_true_eq] at hw
  have b0 : o.sfn.getLsbD 0 = false := by rw [bit_of_toNat hw.2]; rfl
  unfold decodeRaw decodeRowF
  rw [opOf_encS]
  dsimp only [BitVec.toNat_ofNat, Nat.reducePow, Nat.reduceMod, Nat.reduceDiv]
  simp only [fieldsS_encS]
  simp only [b0]
  rfl

theorem gresumeReplay (o : FmtS) : Statement (.gresumeReplay o) := of_raw _ _ rfl fun _ hw => by
  change WF.wfHandle o 1 = true at hw
  simp only [WF.wfHandle, Bool.and_eq_true, decide_eq_true_eq] at hw
  have b0 : o.sfn.getLsbD 0 = true := by rw [bit_of_toNat hw.2]; rfl
  unfold decodeRaw decodeRowF
  rw [opOf_encS]
  dsimp only [BitVec.toNat_ofNat, Nat.reducePow, Nat.reduceMod, Nat.reduceDiv]
  simp only [fieldsS_encS]
  simp only [b0]
  rfl

theorem halt (o : FmtS) : Statement (.halt o) := of_raw _ _ rfl fun _ hw => by
  change WF.wfHandle o 0 = true at hw
  simp only [WF.wfHandle, Bool.and_eq_true, decide_eq_true_eq] at hw
  have b0 : o.sfn.getLsbD 0 = false := by rw [bit_of_toNat hw.2]; rfl
  unfold decodeRaw decodeRowF
  rw [opOf_encS]
  dsimp only [BitVec.toNat_ofNat, Nat.reducePow, Nat.reduceMod, Nat.reduceDiv]
  simp only [fieldsS_encS]
  simp only [b0]
  rfl

theorem haltBlk (o : FmtS) : Statement (.haltBlk o) := of_raw _ _ rfl fun _ hw => by
  change WF.wfHandle o 1 = true at hw
  simp only [WF.wfHandle, Bool.and_eq_true, decide_eq_true_eq] at hw
  have b0 : o.sfn.getLsbD 0 = true := by rw [bit_of_toNat hw.2]; rfl
  unfold decodeRaw decodeRowF
  rw [opOf_encS]
  dsimp only [BitVec.toNat_ofNat, Nat.reducePow, Nat.reduceMod, Nat.reduceDiv]
  simp only [fieldsS_encS]
  simp only [b0]
  rfl

theorem svc (o : FmtS) : Statement (.svc o) := of_raw _ _ rfl fun _ _ => by
  unfold decodeRaw decodeRowF
  rw [opOf_encS]
  exact congrArg (fun o => Except.ok (Instr.svc o)) (fieldsS_encS _ _)

theorem eret (o : FmtS) : Statement (.eret o) := of_raw _ _ rfl fun _ _ => by
  unfold decodeRaw decodeRowF
  rw [opOf_encS]
  exact congrArg (fun o => Except.ok (Instr.eret o)) (fieldsS_encS _ _)

theorem proghint (o : FmtS) : Statement (.proghint o) := of_raw _ _ rfl fun _ _ => by
  unfold decodeRaw decodeRowF
  rw [opOf_encS]
  exact congrArg (fun o => Except.ok (Instr.proghint o)) (fieldsS_encS _ _)

theorem invalid (bits : BitVec 88) : Statement (.invalid bits) := of_raw _ _ rfl fun _ _ => by
  have h : opOf (0xFF#8 ++ bits) = 0xFF := by
    unfold opOf
    rw [show (0xFF#8 ++ bits).extractLsb' 88 8 = 0xFF#8 by
      ext i hi
      rw [BitVec.getElem_extractLsb']
      refine BitVec.getLsbD_append.trans ?_
      rw [if_neg (by omega), ← BitVec.getLsbD_eq_getElem]
      congr 1; omega]
    rfl
  unfold decodeRaw decodeRowF
  rw [h]
  refine congrArg (fun o => Except.ok (Instr.invalid o)) ?_
  ext i hi
  rw [BitVec.getElem_extractLsb']
  refine BitVec.getLsbD_append.trans ?_
  rw [if_pos (by omega), ← BitVec.getLsbD_eq_getElem, Nat.zero_add]

theorem lineExecution (g : Nat) : Statement (.lineExecution g) := by
  intro inl w _ h
  cases h

theorem loadDataArrival (load : Nat) : Statement (.loadDataArrival load) := by
  intro inl w _ h
  cases h

theorem writePerformed (write : Nat) : Statement (.writePerformed write) := by
  intro inl w _ h
  cases h

theorem trapDispatch (quad : Nat) : Statement (.trapDispatch quad) := by
  intro inl w _ h
  cases h

theorem machineCheck (die : Nat) : Statement (.machineCheck die) := by
  intro inl w _ h
  cases h

theorem admission (die : Nat) : Statement (.admission die) := by
  intro inl w _ h
  cases h

theorem blockPlacement (die : Nat) : Statement (.blockPlacement die) := by
  intro inl w _ h
  cases h

theorem staging (die launch bid range : Nat) : Statement (.staging die launch bid range) := by
  intro inl w _ h
  cases h

theorem stagingLineLand (job : Nat) : Statement (.stagingLineLand job) := by
  intro inl w _ h
  cases h

theorem dispatchTimeout (block : Nat) : Statement (.dispatchTimeout block) := by
  intro inl w _ h
  cases h

theorem quantum (core half : Nat) : Statement (.quantum core half) := by
  intro inl w _ h
  cases h

theorem sleepWake (g : Nat) : Statement (.sleepWake g) := by
  intro inl w _ h
  cases h

theorem launchCompletion (launch : Nat) : Statement (.launchCompletion launch) := by
  intro inl w _ h
  cases h

theorem preemptionRequest (die launch : Nat) : Statement (.preemptionRequest die launch) := by
  intro inl w _ h
  cases h

theorem blockSave (block : Nat) : Statement (.blockSave block) := by
  intro inl w _ h
  cases h

theorem blockRestore (die : Nat) : Statement (.blockRestore die) := by
  intro inl w _ h
  cases h

theorem passGrant (quad : Nat) : Statement (.passGrant quad) := by
  intro inl w _ h
  cases h

theorem kStepCommit (op : Nat) : Statement (.kStepCommit op) := by
  intro inl w _ h
  cases h

theorem transferComplete (op : Nat) : Statement (.transferComplete op) := by
  intro inl w _ h
  cases h

theorem copyRowLand (copy row : Nat) : Statement (.copyRowLand copy row) := by
  intro inl w _ h
  cases h

theorem promiseMissed (copy : Nat) : Statement (.promiseMissed copy) := by
  intro inl w _ h
  cases h

theorem queryTraversal (query : Nat) : Statement (.queryTraversal query) := by
  intro inl w _ h
  cases h

theorem queryHeldResume (query : Nat) : Statement (.queryHeldResume query) := by
  intro inl w _ h
  cases h

theorem queryComplete (query : Nat) : Statement (.queryComplete query) := by
  intro inl w _ h
  cases h

theorem spawnGroupTimeout (block bind : Nat) : Statement (.spawnGroupTimeout block bind) := by
  intro inl w _ h
  cases h

theorem spawnGroupPlace (die : Nat) : Statement (.spawnGroupPlace die) := by
  intro inl w _ h
  cases h

theorem waiterReissue (waiter : Nat) : Statement (.waiterReissue waiter) := by
  intro inl w _ h
  cases h

theorem parkReissue (g : Nat) : Statement (.parkReissue g) := by
  intro inl w _ h
  cases h

theorem continuationRelease (cont : Nat) : Statement (.continuationRelease cont) := by
  intro inl w _ h
  cases h

theorem continuationResume (die : Nat) : Statement (.continuationResume die) := by
  intro inl w _ h
  cases h

theorem graphLaunchNode (path : Nat) : Statement (.graphLaunchNode path) := by
  intro inl w _ h
  cases h

theorem graphCondNode (path : Nat) : Statement (.graphCondNode path) := by
  intro inl w _ h
  cases h

theorem graphWhileNode (path : Nat) : Statement (.graphWhileNode path) := by
  intro inl w _ h
  cases h

theorem graphJoinNode (path : Nat) : Statement (.graphJoinNode path) := by
  intro inl w _ h
  cases h

theorem graphSignalNode (path : Nat) : Statement (.graphSignalNode path) := by
  intro inl w _ h
  cases h

theorem deadline (launch : Nat) : Statement (.deadline launch) := by
  intro inl w _ h
  cases h

theorem messageArrival (packet : Nat) : Statement (.messageArrival packet) := by
  intro inl w _ h
  cases h

theorem ringHop (packet : Nat) : Statement (.ringHop packet) := by
  intro inl w _ h
  cases h

theorem wsRefreshWindow (die : Nat) : Statement (.wsRefreshWindow die) := by
  intro inl w _ h
  cases h

theorem powerLimitThrottle (watts : Nat) : Statement (.powerLimitThrottle watts) := by
  intro inl w _ h
  cases h

theorem regionPowerWindow (die ctx region watts : Nat) : Statement (.regionPowerWindow die ctx region watts) := by
  intro inl w _ h
  cases h

theorem thermalThrottle (outside : Bool) : Statement (.thermalThrottle outside) := by
  intro inl w _ h
  cases h

theorem reset (die : Nat) : Statement (.reset die) := by
  intro inl w _ h
  cases h

theorem rlpHello (f : Frame) : Statement (.rlpHello f) := by
  intro inl w _ h
  cases h

theorem rlpWrite (f : Frame) : Statement (.rlpWrite f) := by
  intro inl w _ h
  cases h

theorem rlpRead (f : Frame) : Statement (.rlpRead f) := by
  intro inl w _ h
  cases h

theorem rlpAtomic (f : Frame) : Statement (.rlpAtomic f) := by
  intro inl w _ h
  cases h

theorem rlpLaunch (f : Frame) : Statement (.rlpLaunch f) := by
  intro inl w _ h
  cases h

theorem rlpAck (f : Frame) : Statement (.rlpAck f) := by
  intro inl w _ h
  cases h

theorem ackTimer (sid : Nat) : Statement (.ackTimer sid) := by
  intro inl w _ h
  cases h

theorem retransmit (sid seq : Nat) : Statement (.retransmit sid seq) := by
  intro inl w _ h
  cases h

theorem sessionTimeout (sid : Nat) : Statement (.sessionTimeout sid) := by
  intro inl w _ h
  cases h

theorem mgmtCtxtab (f : Frame) : Statement (.mgmtCtxtab f) := by
  intro inl w _ h
  cases h

theorem mgmtKey (f : Frame) : Statement (.mgmtKey f) := by
  intro inl w _ h
  cases h

theorem mgmtInval (f : Frame) : Statement (.mgmtInval f) := by
  intro inl w _ h
  cases h

theorem mgmtResume (f : Frame) : Statement (.mgmtResume f) := by
  intro inl w _ h
  cases h

theorem mgmtHalt (f : Frame) : Statement (.mgmtHalt f) := by
  intro inl w _ h
  cases h

theorem mgmtKill (f : Frame) : Statement (.mgmtKill f) := by
  intro inl w _ h
  cases h

theorem mgmtPreempt (f : Frame) : Statement (.mgmtPreempt f) := by
  intro inl w _ h
  cases h

theorem mgmtCsrr (f : Frame) : Statement (.mgmtCsrr f) := by
  intro inl w _ h
  cases h

theorem mgmtCsrw (f : Frame) : Statement (.mgmtCsrw f) := by
  intro inl w _ h
  cases h

theorem mgmtAttest (f : Frame) : Statement (.mgmtAttest f) := by
  intro inl w _ h
  cases h

theorem mgmtFwload (f : Frame) : Statement (.mgmtFwload f) := by
  intro inl w _ h
  cases h

theorem mgmtSavepool (f : Frame) : Statement (.mgmtSavepool f) := by
  intro inl w _ h
  cases h

theorem mgmtPort (f : Frame) : Statement (.mgmtPort f) := by
  intro inl w _ h
  cases h

theorem mgmtStatus (f : Frame) : Statement (.mgmtStatus f) := by
  intro inl w _ h
  cases h

theorem mgmtPhysw (f : Frame) : Statement (.mgmtPhysw f) := by
  intro inl w _ h
  cases h

theorem mgmtPhysr (f : Frame) : Statement (.mgmtPhysr f) := by
  intro inl w _ h
  cases h

theorem mgmtCharges (f : Frame) : Statement (.mgmtCharges f) := by
  intro inl w _ h
  cases h

theorem mgmtReset (f : Frame) : Statement (.mgmtReset f) := by
  intro inl w _ h
  cases h

theorem modeWrite (g : Nat) (v : DWord) : Statement (.modeWrite g v) := by
  intro inl w _ h
  cases h

theorem rwaysWrite (die : Nat) (v : DWord) : Statement (.rwaysWrite die v) := by
  intro inl w _ h
  cases h

theorem refcalWrite (die : Nat) (v : DWord) : Statement (.refcalWrite die v) := by
  intro inl w _ h
  cases h

theorem pavaneWrite (die : Nat) (v : DWord) : Statement (.pavaneWrite die v) := by
  intro inl w _ h
  cases h

theorem ringpoolWrite (die : Nat) (v : DWord) : Statement (.ringpoolWrite die v) := by
  intro inl w _ h
  cases h

theorem errcntWrite (die : Nat) (v : DWord) : Statement (.errcntWrite die v) := by
  intro inl w _ h
  cases h

theorem csrWrite (at_ : Nat) (csr : Nat) (v : DWord) : Statement (.csrWrite at_ csr v) := by
  intro inl w _ h
  cases h

theorem pavaneDeqQuantum (die slice : Nat) : Statement (.pavaneDeqQuantum die slice) := by
  intro inl w _ h
  cases h

theorem unknownMgmtOperation (f : Frame) : Statement (.unknownMgmtOperation f) := by
  intro inl w _ h
  cases h

end Sys2Proof.Laws.Encoded
end

