-- ==== Sys2Proof/Laws/Decoding.lean ====
section
/-! SUPPORT. Decoding.lean (laws): a slot that the decoder reads as an instruction is that instruction's slot. -/

namespace Sys2Proof

theorem invalid_slot (s : Slot) (h : opOf s = 255) : 0xFF#8 ++ s.extractLsb' 0 88 = s := by
  have h8 : (0xFF#8) = s.extractLsb' 88 8 := by apply BitVec.eq_of_toNat_eq; show 255 = opOf s; rw [h]
  rw [h8]
  ext j hj
  rw [← BitVec.getLsbD_eq_getElem, ← BitVec.getLsbD_eq_getElem]
  simp only [BitVec.getLsbD_append, BitVec.getLsbD_extractLsb']
  split
  · rw [decide_eq_true (by omega), Bool.true_and]; congr 1; omega
  · rw [decide_eq_true (by omega), Bool.true_and]; congr 1; omega
theorem decodeRow0_encode (s : Slot) (i : Instr) (h : decodeRow0 s = .ok i) : encode i = some s := by
  unfold decodeRow0 at h
  split at h
  all_goals (rename_i hop; try (dsimp only at h))
  all_goals repeat' (split at h)
  all_goals first
    | (cases h; done)
    | (injection h with h; subst h; clear * - hop
       exact congrArg some (encC_fieldsC s _ hop))
    | (rename_i h0; injection h with h; subst h; subst h0; rfl)
theorem decodeRow1_encode (s : Slot) (i : Instr) (h : decodeRow1 s = .ok i) : encode i = some s := by
  unfold decodeRow1 at h
  split at h
  all_goals (rename_i hop; try (dsimp only at h))
  all_goals repeat' (split at h)
  all_goals first
    | (cases h; done)
    | (injection h with h; subst h; clear * - hop
       exact congrArg some (encA_fieldsA s _ hop))
theorem decodeRow2_encode (s : Slot) (i : Instr) (h : decodeRow2 s = .ok i) : encode i = some s := by
  unfold decodeRow2 at h
  split at h
  all_goals (rename_i hop; try (dsimp only at h))
  all_goals repeat' (split at h)
  all_goals first
    | (cases h; done)
    | (injection h with h; subst h; clear * - hop
       exact congrArg some (encA_fieldsA s _ hop))
theorem decodeRow3_encode (s : Slot) (i : Instr) (h : decodeRow3 s = .ok i) : encode i = some s := by
  unfold decodeRow3 at h
  split at h
  all_goals (rename_i hop; try (dsimp only at h))
  all_goals repeat' (split at h)
  all_goals first
    | (cases h; done)
    | (injection h with h; subst h; clear * - hop
       exact congrArg some (encA_fieldsA s _ hop))
theorem decodeRow4_encode (s : Slot) (i : Instr) (h : decodeRow4 s = .ok i) : encode i = some s := by
  unfold decodeRow4 at h
  split at h
  all_goals (rename_i hop; try (dsimp only at h))
  all_goals repeat' (split at h)
  all_goals first
    | (cases h; done)
    | (injection h with h; subst h; clear * - hop
       exact congrArg some (encA_fieldsA s _ hop))
theorem decodeRow5_encode (s : Slot) (i : Instr) (h : decodeRow5 s = .ok i) : encode i = some s := by
  unfold decodeRow5 at h
  split at h
  all_goals (rename_i hop; try (dsimp only at h))
  all_goals repeat' (split at h)
  all_goals first
    | (cases h; done)
    | (injection h with h; subst h; clear * - hop
       exact congrArg some (encA_fieldsA s _ hop))
theorem decodeRow6_encode (s : Slot) (i : Instr) (h : decodeRow6 s = .ok i) : encode i = some s := by
  unfold decodeRow6 at h
  split at h
  all_goals (rename_i hop; try (dsimp only at h))
  all_goals repeat' (split at h)
  all_goals first
    | (cases h; done)
    | (injection h with h; subst h; clear * - hop
       exact congrArg some (encA_fieldsA s _ hop))
theorem decodeRow8_encode (s : Slot) (i : Instr) (h : decodeRow8 s = .ok i) : encode i = some s := by
  unfold decodeRow8 at h
  split at h
  all_goals (rename_i hop; try (dsimp only at h))
  all_goals repeat' (split at h)
  all_goals first
    | (cases h; done)
    | (injection h with h; subst h; clear * - hop
       exact congrArg some (encA_fieldsA s _ hop))
theorem decodeRow9_encode (s : Slot) (i : Instr) (h : decodeRow9 s = .ok i) : encode i = some s := by
  unfold decodeRow9 at h
  split at h
  all_goals (rename_i hop; try (dsimp only at h))
  all_goals repeat' (split at h)
  all_goals first
    | (cases h; done)
    | (injection h with h; subst h; clear * - hop
       exact congrArg some (encM_fieldsM s _ hop))
theorem decodeRowA_encode (s : Slot) (i : Instr) (h : decodeRowA s = .ok i) : encode i = some s := by
  unfold decodeRowA at h
  split at h
  all_goals (rename_i hop; try (dsimp only at h))
  all_goals repeat' (split at h)
  all_goals first
    | (cases h; done)
    | (injection h with h; subst h; clear * - hop
       by_cases hlt : opOf s < 0xA9 ∨ 0xAC < opOf s
       · first | (exfalso; omega) | exact congrArg some (encM_fieldsM s _ hop)
       · first | (exfalso; omega) | exact congrArg some (encC_fieldsC s _ hop))
theorem decodeRowB_encode (s : Slot) (i : Instr) (h : decodeRowB s = .ok i) : encode i = some s := by
  unfold decodeRowB at h
  split at h
  all_goals (rename_i hop; try (dsimp only at h))
  all_goals repeat' (split at h)
  all_goals first
    | (cases h; done)
    | (injection h with h; subst h; clear * - hop
       exact congrArg some (encE_fieldsE s _ hop))
theorem decodeRowC_encode (s : Slot) (i : Instr) (h : decodeRowC s = .ok i) : encode i = some s := by
  unfold decodeRowC at h
  split at h
  all_goals (rename_i hop; try (dsimp only at h))
  all_goals repeat' (split at h)
  all_goals first
    | (cases h; done)
    | (injection h with h; subst h; clear * - hop
       exact congrArg some (encE_fieldsE s _ hop))
theorem decodeRowD_encode (s : Slot) (i : Instr) (h : decodeRowD s = .ok i) : encode i = some s := by
  unfold decodeRowD at h
  split at h
  all_goals (rename_i hop; try (dsimp only at h))
  all_goals repeat' (split at h)
  all_goals first
    | (cases h; done)
    | (injection h with h; subst h; clear * - hop
       exact congrArg some (encE_fieldsE s _ hop))
theorem decodeRowE_encode (s : Slot) (i : Instr) (h : decodeRowE s = .ok i) : encode i = some s := by
  unfold decodeRowE at h
  split at h
  all_goals (rename_i hop; try (dsimp only at h))
  all_goals repeat' (split at h)
  all_goals first
    | (cases h; done)
    | (injection h with h; subst h; clear * - hop
       exact congrArg some (encE_fieldsE s _ hop))
theorem decodeRowF_encode (s : Slot) (i : Instr) (h : decodeRowF s = .ok i) : encode i = some s := by
  unfold decodeRowF at h
  split at h
  all_goals (rename_i hop; try (dsimp only at h))
  all_goals repeat' (split at h)
  all_goals first
    | (cases h; done)
    | (injection h with h; subst h; clear * - hop
       by_cases hlt : opOf s = 255
       · first | (exfalso; omega) | exact congrArg some (invalid_slot s hop)
       · first | (exfalso; omega) | exact congrArg some (encS_fieldsS s _ hop))
/-- What the raw decoder reads from a slot, the encoder gives back. -/
theorem decodeRaw_encode (s : Slot) (i : Instr) (h : decodeRaw s = .ok i) : encode i = some s := by
  unfold decodeRaw at h
  split at h
  all_goals first
    | exact decodeRow0_encode s i h | exact decodeRow1_encode s i h | exact decodeRow2_encode s i h | exact decodeRow3_encode s i h
    | exact decodeRow4_encode s i h | exact decodeRow5_encode s i h | exact decodeRow6_encode s i h | exact decodeRow8_encode s i h
    | exact decodeRow9_encode s i h | exact decodeRowA_encode s i h | exact decodeRowB_encode s i h | exact decodeRowC_encode s i h
    | exact decodeRowD_encode s i h | exact decodeRowE_encode s i h | exact decodeRowF_encode s i h | cases h

end Sys2Proof
end

