-- ==== Sys2Proof/Laws/Memory.lean ====
section
/-! SUPPORT. Memory.lean (laws): every memory operation keeps the canonical form of memory, and memory after reset has it. -/

namespace Sys2Proof.Machine

/-- A property that every step of a fold keeps holds after the fold. -/
theorem foldl_keeps {α β : Type} (P : β → Prop) (f : β → α → β) (l : List α) (b : β) (h : ∀ b a, P b → P (f b a)) (hb : P b) :
    P (l.foldl f b) := by
  induction l generalizing b with
  | nil => exact hb
  | cons a r ih => exact ih (f b a) (h b a hb)

/-- The memory of a state keeps the canonical form. -/
abbrev State.memWf (s : State) : Prop := Memory.wf s.mem = true

theorem reset_memWf : State.reset.memWf := rfl

theorem flushWelts_memWf (s : State) (pa n : Nat) (h : s.memWf) : (flushWelts s pa n).memWf := by
  refine foldl_keeps State.memWf _ _ s ?_ h
  intro t e ht
  exact memPut_wf t.mem e.1 _ ht

@[simp] theorem dropReplicas_mem (s : State) (line : Nat) : (dropReplicas s line).mem = s.mem := rfl
@[simp] theorem touchWatches_mem (s : State) (pa n : Nat) : (touchWatches s pa n).mem = s.mem := rfl

theorem homeWrite_memWf (s : State) (pa : Nat) (bs : List Byte) (h : s.memWf) : (homeWrite s pa bs).memWf := by
  unfold homeWrite
  split
  · exact h
  · have h1 : Memory.wf (memPut (flushWelts s pa bs.length).mem pa bs) = true := memPut_wf _ _ _ (flushWelts_memWf s pa bs.length h)
    simp only [State.memWf, touchWatches_mem]
    split <;> exact h1

theorem homeWriteNat_memWf (s : State) (pa n x : Nat) (h : s.memWf) : (homeWriteNat s pa n x).memWf :=
  homeWrite_memWf s pa (natBytes n x) h

theorem memMasked_wf (m : Memory) (pa : Nat) (mask : BitVec 128) (data : BitVec 1024) (l : List Nat) (h : Memory.wf m = true) :
    Memory.wf (l.foldl (fun m i => if mask.getLsbD i then memSet m (pa + i) (lineByte data i) else m) m) = true := by
  refine foldl_keeps (fun m => Memory.wf m = true) _ l m ?_ h
  intro m i hm
  split
  · exact memSet_wf m _ _ hm
  · exact hm

theorem homePutMasked_memWf (s : State) (line : Nat) (mask : BitVec 128) (data : BitVec 1024) (h : s.memWf) :
    (homePutMasked s line mask data).memWf := by
  unfold homePutMasked
  dsimp only
  split
  · exact h
  · simp only [State.memWf, touchWatches_mem]
    split
    all_goals
      refine memMasked_wf _ _ _ _ _ ?_
      refine foldl_keeps State.memWf _ _ s ?_ h
      intro t e ht
      exact memPut_wf t.mem e.1 _ ht

theorem ackDies_memWf (s : State) (line : Nat) (ds : List Nat) (h : s.memWf) : (ackDies s line ds).memWf := h
theorem awaitAcks_memWf (s : State) (ck line : Nat) (ds : List Nat) (h : s.memWf) : (awaitAcks s ck line ds).memWf := by
  unfold awaitAcks
  split <;> exact h
theorem commitLine_memWf (r : Reach) (s : State) (ck line : Nat) (mask : BitVec 128) (data : BitVec 1024) (h : s.memWf) :
    (commitLine r s ck line mask data).memWf :=
  awaitAcks_memWf _ _ _ _ (homePutMasked_memWf s line mask data h)

theorem performTo_memWf (r : Reach) (s : State) (k : Nat) (h : s.memWf) : (performTo r s k).memWf := by
  unfold performTo
  split
  · exact h
  · dsimp only
    split
    · split <;> exact h
    · exact commitLine_memWf r { s with posted := spDel s.posted k } _ _ _ _ h

theorem performAll_memWf (r : Reach) (s : State) (p : PostedWrite → Bool) (h : s.memWf) : (performAll r s p).memWf :=
  foldl_keeps State.memWf _ _ s (performTo_memWf r) h
theorem performWhere_memWf (s : State) (p : PostedWrite → Bool) (h : s.memWf) : (performWhere s p).memWf := performAll_memWf _ s p h

theorem settleLine_memWf (s : State) (line : Nat) (h : s.memWf) : (settleLine s line).memWf := performWhere_memWf s _ h

theorem writeBackTo_memWf (r : Reach) (s : State) (ck line : Nat) (h : s.memWf) : (writeBackTo r s ck line).memWf := by
  unfold writeBackTo
  split
  · exact h
  · split
    · exact h
    · exact commitLine_memWf r _ ck line _ _ (performAll_memWf r s _ h)

theorem writeBack_memWf (s : State) (ck line : Nat) (h : s.memWf) : (writeBack s ck line).memWf := writeBackTo_memWf _ s ck line h
theorem writeBackReach_memWf (r : Reach) (s : State) (ck : Nat) (h : s.memWf) : (writeBackReach r s ck).memWf :=
  foldl_keeps State.memWf _ _ _ (fun t l => writeBackTo_memWf r t ck l) (performAll_memWf r s _ h)
theorem writeBackAll_memWf (s : State) (ck : Nat) (h : s.memWf) : (writeBackAll s ck).memWf := writeBackReach_memWf _ s ck h

@[simp] theorem l1Put_mem (s : State) (ck line : Nat) (x : L1Line) : (l1Put s ck line x).mem = s.mem := rfl
@[simp] theorem l1Drop_mem (s : State) (ck line : Nat) : (l1Drop s ck line).mem = s.mem := rfl
@[simp] theorem invalidateClean_mem (s : State) (ck : Nat) : (invalidateClean s ck).mem = s.mem := rfl

theorem flushLine_memWf (s : State) (ck line : Nat) (h : s.memWf) : (flushLine s ck line).memWf := writeBack_memWf s ck line h

@[simp] theorem evictLine_mem (s : State) (ck line : Nat) : (evictLine s ck line).mem = s.mem := by
  unfold evictLine
  split
  · rfl
  · simp only [l1Drop_mem]
    split <;> rfl
@[simp] theorem l1Room_mem (s : State) (ck line : Nat) : (l1Room s ck line).1.mem = s.mem := by
  unfold l1Room
  dsimp only
  split
  · rfl
  · split
    · exact evictLine_mem ..
    · rfl
@[simp] theorem l1Alloc_mem (s : State) (ck line : Nat) (f : L1Line → L1Line) : (l1Alloc s ck line f).mem = s.mem := by
  unfold l1Alloc
  split
  · rfl
  · simp
theorem evictLine_memWf (s : State) (ck line : Nat) (h : s.memWf) : (evictLine s ck line).memWf := by
  simpa [State.memWf] using h

theorem spillEntry_memWf (s : State) (pa : Nat) (w : Welt) (place : Nat × List Nat) (h : s.memWf) : (spillEntry s pa w place).memWf := by
  unfold spillEntry
  exact foldl_keeps State.memWf _ _ _ (fun t p ht => homeWrite_memWf t _ _ ht) h
theorem weltRoom_memWf (s t : State) (slice : Nat) (h : s.memWf) (ht : weltRoom s slice = some t) : t.memWf := by
  unfold weltRoom at ht
  dsimp only at ht
  split at ht
  · cases ht; exact h
  · split at ht
    · cases ht
    · cases ht; exact spillEntry_memWf _ _ _ _ h
theorem weltFetch_memWf (s : State) (pa : Nat) (h : s.memWf) : (weltFetch s pa).memWf := by
  unfold weltFetch
  split
  · exact h
  · dsimp only
    split
    · exact h
    · split
      · rename_i v hv; exact weltRoom_memWf s v _ h hv
      · exact h
theorem weltTouch_memWf (s : State) (pa n : Nat) (h : s.memWf) : (weltTouch s pa n).memWf :=
  foldl_keeps State.memWf _ _ s weltFetch_memWf h

@[simp] theorem keepReplica_mem (s : State) (d line : Nat) (data : BitVec 1024) : (keepReplica s d line data).mem = s.mem := by
  unfold keepReplica
  dsimp only
  split
  · rfl
  · split <;> rfl
theorem fetchLineAt_memWf (s : State) (d line : Nat) (h : s.memWf) : (fetchLineAt s d line).2.2.memWf := by
  unfold fetchLineAt
  dsimp only
  split
  · exact weltTouch_memWf s _ _ h
  · split
    · exact h
    · split
      · dsimp only
        split
        · simpa [State.memWf] using h
        · exact h
      · exact weltTouch_memWf s _ _ h

theorem loadBytes_memWf (s : State) (ck pa n hint : Nat) (h : s.memWf) : (loadBytes s ck pa n hint).2.2.memWf := by
  have h0 (t : State) (ht : t.memWf) (line : Nat) : (if readWaits t (coreDie ck) line then settleLine t line else t).memWf := by
    split
    · exact settleLine_memWf _ _ ht
    · exact ht
  have h1 (t : State) (ht : t.memWf) (c : Prop) [Decidable c] (ck line : Nat) (f : L1Line → L1Line) :
      (if c then l1Alloc t ck line f else t).memWf := by
    split
    · simpa [State.memWf] using ht
    · exact ht
  unfold loadBytes
  dsimp only
  split
  · exact h
  · exact h1 _ (fetchLineAt_memWf _ _ _ (h0 _ (performAll_memWf _ s _ h) _)) _ _ _ _

theorem samplePart_memWf (s : State) (l : Load) (p : Part) (h : s.memWf) : (samplePart s l p).2.2.memWf := by
  unfold samplePart
  dsimp only
  split
  · exact h
  · exact loadBytes_memWf s _ _ _ _ h

theorem sampleLoad_memWf (s : State) (k : Nat) (q : Part → Bool) (h : s.memWf) : (sampleLoad s k q).memWf := by
  unfold sampleLoad
  split
  · exact h
  · rename_i l _
    refine foldl_keeps (fun acc : List (Part × Option (List Byte × Bool)) × State => acc.2.memWf) _ _ _ ?_ h
    intro acc e hacc
    dsimp only
    split
    · exact hacc
    · split
      · exact samplePart_memWf acc.2 l e.1 hacc
      · exact hacc

theorem sampleOwn_memWf (s : State) (g pa n : Nat) (h : s.memWf) : (sampleOwn s g pa n).memWf :=
  foldl_keeps State.memWf _ _ s (fun t k => sampleLoad_memWf t k _) h

theorem sampleAllOwn_memWf (s : State) (g : Nat) (h : s.memWf) : (sampleAllOwn s g).memWf :=
  foldl_keeps State.memWf _ _ s (fun t k => sampleLoad_memWf t k _) h

theorem doRelease_memWf (s : State) (g scope : Nat) (h : s.memWf) : (doRelease s g scope).memWf := by
  unfold doRelease
  dsimp only
  split
  · exact writeBackAll_memWf _ _ (sampleAllOwn_memWf s g h)
  · split
    · exact writeBackReach_memWf _ _ _ (sampleAllOwn_memWf s g h)
    · exact sampleAllOwn_memWf s g h

theorem doAcquire_memWf (s : State) (g scope : Nat) (h : s.memWf) : (doAcquire s g scope).memWf := by
  unfold doAcquire
  split <;> exact h

theorem storeL1_memWf (s : State) (ck pa : Nat) (bs : List Byte) (hint : Nat) (h : s.memWf) : (storeL1 s ck pa bs hint).memWf := by
  simpa [State.memWf, storeL1] using h

theorem storeNoL1_memWf (s : State) (ck pa : Nat) (bs : List Byte) (h : s.memWf) : (storeNoL1 s ck pa bs).memWf := by
  unfold storeNoL1 postWrite
  dsimp only [State.memWf]
  split <;> exact h

theorem storeWs_memWf (s : State) (ck pa : Nat) (bs : List Byte) (h : s.memWf) : (storeWs s ck pa bs).memWf := by
  unfold storeWs
  dsimp only
  refine homeWrite_memWf _ _ _ ?_
  split <;> exact h

theorem atHome_memWf (s : State) (pa n : Nat) (h : s.memWf) : (atHome s pa n).memWf :=
  settleLine_memWf _ _ (flushLine_memWf _ _ _ (performWhere_memWf _ _ (sampleOwn_memWf s _ _ _ h)))

theorem writeParts_memWf (s : State) (ps : List (Nat × Nat)) (bs : List Byte) (h : s.memWf) : (writeParts s ps bs).memWf := by
  induction ps generalizing s bs with
  | nil => exact h
  | cons p r ih => exact ih _ _ (homeWrite_memWf s _ _ h)

theorem writeRange_memWf (s t : State) (xl : Nat → Xlat) (va : Nat) (bs : List Byte) (h : s.memWf)
    (ht : writeRange s xl va bs = .ok t) : t.memWf := by
  unfold writeRange at ht
  cases hx : xlatRange xl va bs.length with
  | error e => rw [hx] at ht; simp [bind, Except.bind] at ht
  | ok ps =>
    rw [hx] at ht
    simp only [bind, Except.bind, pure, Except.pure, Except.ok.injEq] at ht
    subst ht
    exact writeParts_memWf s ps bs h

end Sys2Proof.Machine
end

