-- ==== Sys2Proof/Laws/Kept.lean ====
section
/-! SUPPORT. Kept.lean (laws): what each operation of the memory hierarchy leaves of a byte that it does not store to. -/

namespace Sys2Proof.Machine

open Claim

/-! ### Lists -/

theorem mem_spPut {α : Type} (m : List (Nat × α)) (k : Nat) (v : α) (e : Nat × α) (h : e ∈ spPut m k v) : e ∈ m ∨ e = (k, v) := by
  induction m with
  | nil => simp [spPut] at h; exact .inr h
  | cons a r ih =>
    unfold spPut at h
    split at h
    · rcases List.mem_cons.1 h with h | h
      · exact .inr h
      · exact .inl h
    · split at h
      · rcases List.mem_cons.1 h with h | h
        · exact .inr h
        · exact .inl (List.mem_cons_of_mem _ h)
      · rcases List.mem_cons.1 h with h | h
        · exact .inl (h ▸ List.mem_cons_self ..)
        · rcases ih h with h | h
          · exact .inl (List.mem_cons_of_mem _ h)
          · exact .inr h
theorem mem_spDel {α : Type} (m : List (Nat × α)) (k : Nat) (e : Nat × α) (h : e ∈ spDel m k) : e ∈ m ∧ e.1 ≠ k := by
  induction m with
  | nil => cases h
  | cons a r ih =>
    unfold spDel at h
    split at h
    · exact ⟨List.mem_cons_of_mem _ (ih h).1, (ih h).2⟩
    · rcases List.mem_cons.1 h with h | h
      · subst h; exact ⟨List.mem_cons_self .., by assumption⟩
      · exact ⟨List.mem_cons_of_mem _ (ih h).1, (ih h).2⟩
theorem spFind_mem {α : Type} (m : List (Nat × α)) (k : Nat) (v : α) (h : spFind m k = some v) : (k, v) ∈ m := by
  induction m with
  | nil => cases h
  | cons a r ih =>
    unfold spFind at h
    split at h
    · rename_i hk; cases h; subst hk; exact List.mem_cons_self ..
    · exact List.mem_cons_of_mem _ (ih h)

/-! ### Bytes of a line -/

theorem bytesNat_byte (bs : List Byte) (j : Nat) (h : j < bs.length) : bytesNat bs / 2 ^ (8 * j) % 256 = (bs[j]).toNat := by
  induction bs generalizing j with
  | nil => simp at h
  | cons b r ih =>
    have hb := b.isLt
    cases j with
    | zero => simp only [bytesNat, Nat.mul_zero, Nat.pow_zero, Nat.div_one, List.getElem_cons_zero]; omega
    | succ j =>
      have hj : j < r.length := by simpa using h
      rw [show 8 * (j + 1) = 8 + 8 * j by omega, Nat.pow_add, ← Nat.div_div_eq_div_mul]
      have : bytesNat (b :: r) / 2 ^ 8 = bytesNat r := by simp only [bytesNat]; omega
      rw [this, ih j hj]
      simp
theorem lineByte_toNat (d : BitVec 1024) (j : Nat) : (lineByte d j).toNat = d.toNat / 2 ^ (8 * j) % 256 := by
  simp [lineByte, BitVec.extractLsb'_toNat, Nat.shiftRight_eq_div_pow]
theorem lineByte_ofList (bs : List Byte) (j : Nat) (hl : bs.length = 128) (h : j < 128) : lineByte (lineOfList bs) j = bs[j] := by
  apply BitVec.eq_of_toNat_eq
  rw [lineByte_toNat, lineOfList, BitVec.toNat_ofNat, ← bytesNat_byte bs j (by omega)]
  rw [show (1024 : Nat) = 8 * j + (1024 - 8 * j) by omega, Nat.pow_add, Nat.mod_mul_right_div_self]
  rw [show (256 : Nat) = 2 ^ 8 by rfl, Nat.mod_mod_of_dvd]
  exact Nat.pow_dvd_pow 2 (by omega)
theorem lineByte_bit (d : BitVec 1024) (j k : Nat) (hk : k < 8) : (lineByte d j).getLsbD k = d.getLsbD (8 * j + k) := by
  simp [lineByte, hk]
theorem lineByte_ext (d e : BitVec 1024) (j : Nat) (h : ∀ k, k < 8 → d.getLsbD (8 * j + k) = e.getLsbD (8 * j + k)) :
    lineByte d j = lineByte e j := by
  ext k hk
  rw [← BitVec.getLsbD_eq_getElem, ← BitVec.getLsbD_eq_getElem, lineByte_bit _ _ _ hk, lineByte_bit _ _ _ hk]
  exact h k hk
theorem spread_fold (m : BitVec 128) (n : Nat) (j : Nat) :
    let x := (List.range n).foldl (fun n i => if m.getLsbD i then n + 255 * 2 ^ (8 * i) else n) 0
    x < 2 ^ (8 * n) ∧ (x.testBit j = (decide (j < 8 * n) && m.getLsbD (j / 8))) := by
  induction n with
  | zero => simp
  | succ n ih =>
    obtain ⟨h1, h2⟩ := ih
    rw [List.range_succ, List.foldl_append, List.foldl_cons, List.foldl_nil]
    generalize (List.range n).foldl (fun n i => if m.getLsbD i then n + 255 * 2 ^ (8 * i) else n) 0 = x at h1 h2
    have hp : 2 ^ (8 * (n + 1)) = 256 * 2 ^ (8 * n) := by rw [show 8 * (n + 1) = 8 * n + 8 by omega, Nat.pow_add]; omega
    split
    · rename_i hm
      refine ⟨by omega, ?_⟩
      rw [Nat.add_comm, Nat.mul_comm, Nat.testBit_two_pow_mul_add _ h1]
      split
      · rename_i hj
        rw [h2, decide_eq_true hj, decide_eq_true (by omega)]
      · rename_i hj
        by_cases hj2 : j < 8 * (n + 1)
        · rw [decide_eq_true hj2, show j / 8 = n by omega, hm]
          rw [show (255 : Nat) = 2 ^ 8 - 1 by rfl, Nat.testBit_two_pow_sub_one]
          simp; omega
        · rw [decide_eq_false hj2, show (255 : Nat) = 2 ^ 8 - 1 by rfl, Nat.testBit_two_pow_sub_one]
          simp; omega
    · rename_i hm
      refine ⟨by omega, ?_⟩
      rw [h2]
      by_cases hj : j < 8 * n
      · rw [decide_eq_true hj, decide_eq_true (by omega)]
      · by_cases hj2 : j < 8 * (n + 1)
        · rw [show j / 8 = n by omega, Bool.eq_false_iff.2 hm, Bool.and_false, Bool.and_false]
        · rw [decide_eq_false hj, decide_eq_false hj2]
theorem spreadMask_bit (m : BitVec 128) (j : Nat) (h : j < 1024) : (spreadMask m).getLsbD j = m.getLsbD (j / 8) := by
  unfold spreadMask
  rw [BitVec.getLsbD_ofNat, (spread_fold m 128 j).2, decide_eq_true h]
  simp only [Bool.true_and]
/-- A merged line holds the new byte where the mask is set, else the old one. -/
theorem lineByte_mergeLine (old new : BitVec 1024) (m : BitVec 128) (j : Nat) (h : j < 128) :
    lineByte (mergeLine old new m) j = if m.getLsbD j then lineByte new j else lineByte old j := by
  have hb (k : Nat) (hk : k < 8) : (mergeLine old new m).getLsbD (8 * j + k) =
      if m.getLsbD j then new.getLsbD (8 * j + k) else old.getLsbD (8 * j + k) := by
    simp only [mergeLine, BitVec.getLsbD_or, BitVec.getLsbD_and, BitVec.getLsbD_not, spreadMask_bit m (8 * j + k) (by omega),
      show (8 * j + k) / 8 = j by omega, decide_eq_true (show 8 * j + k < 1024 by omega)]
    cases m.getLsbD j <;> simp
  split
  · rename_i hm
    exact lineByte_ext _ _ _ fun k hk => by rw [hb k hk, if_pos hm]
  · rename_i hm
    exact lineByte_ext _ _ _ fun k hk => by rw [hb k hk, if_neg hm]
theorem byteMask_bit (i n j : Nat) (h : (byteMask i n).getLsbD j = true) : j < 128 ∧ i ≤ j ∧ j < i + n := by
  simp only [byteMask, BitVec.getLsbD_ofNat, Bool.and_eq_true, decide_eq_true_eq] at h
  refine ⟨h.1, ?_⟩
  have h2 := h.2
  rw [Nat.mul_comm, Nat.testBit_two_pow_mul, Nat.testBit_two_pow_sub_one] at h2
  simp at h2
  omega

/-! ### A byte through one operation -/

variable {a : Nat} {s t u : State}

theorem byteKept_refl (a : Nat) (s : State) : byteKept a s s := fun h => ⟨h, fun _ h => h, fun h => ⟨h, rfl⟩⟩
theorem byteKept_trans (h1 : byteKept a s t) (h2 : byteKept a t u) : byteKept a s u := by
  intro hw
  obtain ⟨w1, a1, b1⟩ := h1 hw
  obtain ⟨w2, a2, b2⟩ := h2 w1
  exact ⟨w2, fun b h => a1 b (a2 b h), fun h => ⟨(b2 (b1 h).1).1, (b2 (b1 h).1).2.trans (b1 h).2⟩⟩
theorem byteKept_foldl {α : Type} (f : State → α → State) (l : List α) (s : State) (h : ∀ s, ∀ x ∈ l, byteKept a s (f s x)) :
    byteKept a s (l.foldl f s) := by
  induction l generalizing s with
  | nil => exact byteKept_refl a s
  | cons x r ih => exact byteKept_trans (h s x (List.mem_cons_self ..)) (ih _ fun s y hy => h s y (List.mem_cons_of_mem _ hy))
/-- The memory hierarchy is as before, or lists fewer L1 lines. -/
def sameHw (s t : State) : Prop :=
  t.mem = s.mem ∧ (∀ e, l1Entry t e → l1Entry s e) ∧ t.replicas = s.replicas ∧ t.posted = s.posted ∧ t.welts = s.welts
/-- Part of what was there is there: fewer lines, replicas, writes and welts, and the same memory. -/
theorem byteKept_less (hm : memGet t.mem a = memGet s.mem a)
    (hl : ∀ e, l1Entry t e → e.1 = lineOf a → ∃ f, l1Entry s f ∧ f.1 = lineOf a
      ∧ ((e.2.valid ||| e.2.dirty).getLsbD (a % 128) = true → (f.2.valid ||| f.2.dirty).getLsbD (a % 128) = true)
      ∧ lineByte e.2.data (a % 128) = lineByte f.2.data (a % 128)
      ∧ (e.2.dirty.getLsbD (a % 128) = true → f.2.dirty.getLsbD (a % 128) = true))
    (hr : ∀ e ∈ t.replicas, e ∈ s.replicas) (hp : ∀ e ∈ t.posted, e ∈ s.posted) (hw : ∀ e ∈ t.welts, e ∈ s.welts) :
    byteKept a s t := by
  intro w
  refine ⟨fun e he => w e (hw e he), fun b hb => ?_, fun hs => ⟨⟨fun e hx hk => ?_, fun e he => hs.2 e (hp e he)⟩, hm⟩⟩
  · rcases hb with hb | ⟨e, he, hk, hv, hb⟩ | ⟨e, he, hb⟩ | ⟨e, he, hb⟩
    · exact .inl (by rw [← hm]; exact hb)
    · obtain ⟨f, hf, hk', h1, h2, _⟩ := hl e he hk
      exact .inr (.inl ⟨f, hf, hk', h1 hv, by rw [← h2]; exact hb⟩)
    · exact .inr (.inr (.inl ⟨e, hr e he, hb⟩))
    · exact .inr (.inr (.inr ⟨e, hp e he, hb⟩))
  · obtain ⟨f, hf, hk', _, _, h3⟩ := hl e hx hk
    have := hs.1 f hf hk'
    cases hd : e.2.dirty.getLsbD (a % 128)
    · rfl
    · rw [h3 hd] at this; cases this
theorem l1Same (h : ∀ e, l1Entry t e → l1Entry s e) : ∀ e, l1Entry t e → e.1 = lineOf a → ∃ f, l1Entry s f ∧ f.1 = lineOf a
      ∧ ((e.2.valid ||| e.2.dirty).getLsbD (a % 128) = true → (f.2.valid ||| f.2.dirty).getLsbD (a % 128) = true)
      ∧ lineByte e.2.data (a % 128) = lineByte f.2.data (a % 128)
      ∧ (e.2.dirty.getLsbD (a % 128) = true → f.2.dirty.getLsbD (a % 128) = true) :=
  fun e he hk => ⟨e, h e he, hk, id, rfl, id⟩
theorem byteKept_same (h : sameHw s t) : byteKept a s t :=
  byteKept_less (by rw [h.1]) (l1Same h.2.1) (fun _ he => h.2.2.1 ▸ he) (fun _ he => h.2.2.2.1 ▸ he) (fun _ he => h.2.2.2.2 ▸ he)
theorem entry_core (s : State) (ck : Nat) (e : Nat × L1Line) (h : e ∈ (s.core ck).l1) : l1Entry s e := by
  unfold State.core at h
  cases hc : spFind s.cores ck with
  | none => rw [hc] at h; cases h
  | some c => rw [hc] at h; exact ⟨(ck, c), spFind_mem _ _ _ hc, h⟩
theorem entry_updCore (s : State) (ck : Nat) (f : Core → Core) (e : Nat × L1Line) (h : l1Entry (s.updCore ck f) e) :
    l1Entry s e ∨ e ∈ (f (s.core ck)).l1 := by
  obtain ⟨c, hc, he⟩ := h
  rcases mem_spPut _ _ _ _ hc with hc | hc
  · exact .inl ⟨c, hc, he⟩
  · subst hc; exact .inr he
theorem sameHw_updCore (s : State) (ck : Nat) (f : Core → Core) (h : ∀ e ∈ (f (s.core ck)).l1, e ∈ (s.core ck).l1) :
    sameHw s (s.updCore ck f) :=
  ⟨rfl, fun e he => (entry_updCore s ck f e he).elim id fun he => entry_core s ck e (h e he), rfl, rfl, rfl⟩
theorem entry_find (s : State) (ck line : Nat) (x : L1Line) (h : l1Find s ck line = some x) : l1Entry s (line, x) :=
  entry_core s ck _ (spFind_mem _ _ _ h)

theorem byteKept_dropReplicas (s : State) (line : Nat) : byteKept a s (dropReplicas s line) :=
  byteKept_less rfl (l1Same fun _ h => h) (fun _ h => List.mem_of_mem_filter h) (fun _ h => h) (fun _ h => h)
theorem sameHw_touchWatches (s : State) (pa n : Nat) : sameHw s (touchWatches s pa n) := ⟨rfl, fun _ h => h, rfl, rfl, rfl⟩
theorem sameHw_updDie (s : State) (d : Nat) (f : Die → Die) : sameHw s (s.updDie d f) := ⟨rfl, fun _ h => h, rfl, rfl, rfl⟩
theorem size_natBytes (n x : Nat) : (natBytes n x).length = n := by
  induction n generalizing x with
  | zero => rfl
  | succ n ih => simp [natBytes, ih]
/-- The words of welt entries, none of which covers byte a, are written and their entries freed. -/
theorem byteKept_freeWelts (s : State) (l : List (Nat × Welt)) (hl : ∀ e ∈ l, e ∈ s.welts) :
    byteKept a s (l.foldl (fun s e => { s with mem := memPut s.mem e.1 (natBytes e.2.size e.2.bits), welts := spDel s.welts e.1 }) s) := by
  intro w
  have key : ∀ (l : List (Nat × Welt)) (t : State), (∀ e ∈ l, ¬ (e.1 ≤ a ∧ a < e.1 + e.2.size)) →
      byteKept a t (l.foldl (fun s e => { s with mem := memPut s.mem e.1 (natBytes e.2.size e.2.bits), welts := spDel s.welts e.1 }) t) := by
    intro l t h
    refine byteKept_foldl _ _ _ fun s e he => ?_
    refine byteKept_less ?_ (l1Same fun _ h => h) (fun _ h => h) (fun _ h => h) (fun _ h => (mem_spDel _ _ _ h).1)
    refine memGet_memPut_outside _ _ _ _ ?_
    have := h e he
    rw [size_natBytes]
    omega
  exact key l s (fun e he => (w e (hl e he)).1) w
theorem byteKept_flushWelts (s : State) (pa n : Nat) : byteKept a s (flushWelts s pa n) :=
  byteKept_freeWelts s _ fun _ h => List.mem_of_mem_filter h
theorem byteKept_homeWrite (s : State) (pa : Nat) (bs : List Byte) (h : ¬ (pa ≤ a ∧ a < pa + bs.length)) : byteKept a s (homeWrite s pa bs) := by
  unfold homeWrite
  split
  · exact byteKept_same (sameHw_updDie _ _ _)
  · refine byteKept_trans (byteKept_flushWelts s pa bs.length) ?_
    refine byteKept_trans (t := dropReplicas { flushWelts s pa bs.length with mem := memPut (flushWelts s pa bs.length).mem pa bs } (lineOf pa)) ?_ ?_
    · refine byteKept_trans (t := { flushWelts s pa bs.length with mem := memPut (flushWelts s pa bs.length).mem pa bs }) ?_ (byteKept_dropReplicas _ _)
      refine byteKept_less ?_ (l1Same fun _ h => h) (fun _ h => h) (fun _ h => h) (fun _ h => h)
      exact memGet_memPut_outside _ _ _ _ (by omega)
    · refine byteKept_same ?_
      dsimp only
      split <;> exact ⟨rfl, fun _ h => h, rfl, rfl, rfl⟩

theorem masked_fold (m : Memory) (line : Nat) (mask : BitVec 128) (data : BitVec 1024) (n j : Nat) (hn : n ≤ 128) :
    memGet ((List.range n).foldl (fun m i => if mask.getLsbD i then memSet m (line * 128 + i) (lineByte data i) else m) m) j
      = if lineOf j = line ∧ j % 128 < n ∧ mask.getLsbD (j % 128) = true then lineByte data (j % 128) else memGet m j := by
  induction n with
  | zero => simp
  | succ n ih =>
    rw [List.range_succ, List.foldl_append, List.foldl_cons, List.foldl_nil]
    have ih := ih (by omega)
    have hd : lineOf j = j / 128 := rfl
    split
    · rename_i hm
      rw [memGet_memSet, ih]
      by_cases hj : line * 128 + n = j
      · rw [if_pos hj, show j % 128 = n by omega, if_pos ⟨by omega, by omega, hm⟩]
      · rw [if_neg hj]
        by_cases hc : lineOf j = line ∧ j % 128 < n ∧ mask.getLsbD (j % 128) = true
        · rw [if_pos hc, if_pos ⟨hc.1, by omega, hc.2.2⟩]
        · rw [if_neg hc, if_neg]
          rintro ⟨h1, h2, h3⟩
          exact hc ⟨h1, by omega, h3⟩
    · rename_i hm
      rw [ih]
      by_cases hc : lineOf j = line ∧ j % 128 < n ∧ mask.getLsbD (j % 128) = true
      · rw [if_pos hc, if_pos ⟨hc.1, by omega, hc.2.2⟩]
      · rw [if_neg hc, if_neg]
        rintro ⟨h1, h2, h3⟩
        refine hc ⟨h1, ?_, h3⟩
        have : j % 128 ≠ n := by intro e; rw [e] at h3; exact hm h3
        omega
/-- A masked line write at the home, in a state t that came from s, moves values that some agent held there in s. -/
theorem byteKept_homePutMasked (s t : State) (line : Nat) (mask : BitVec 128) (data : BitVec 1024) (h0 : byteKept a s t)
    (h : lineOf a = line → mask.getLsbD (a % 128) = true → holds s a (lineByte data (a % 128)) ∧ ¬ settled s a) :
    byteKept a s (homePutMasked t line mask data) := by
  unfold homePutMasked
  dsimp only
  split
  · exact byteKept_trans h0 (byteKept_same (sameHw_updDie _ _ _))
  · generalize hl : (t.welts.filter fun e =>
      (List.range e.2.size).any fun i => e.1 + i < line * 128 + 128 && line * 128 ≤ e.1 + i && mask.getLsbD (e.1 + i - line * 128)) = l
    have h1 : byteKept a s (l.foldl (fun s e => { s with mem := memPut s.mem e.1 (natBytes e.2.size e.2.bits), welts := spDel s.welts e.1 }) t) :=
      byteKept_trans h0 (byteKept_freeWelts t l fun e he => by rw [← hl] at he; exact List.mem_of_mem_filter he)
    have hr : ∀ (l : List (Nat × Welt)) (s : State),
        sameHw { s with mem := [], welts := [] }
          { l.foldl (fun s e => { s with mem := memPut s.mem e.1 (natBytes e.2.size e.2.bits), welts := spDel s.welts e.1 }) s
            with mem := [], welts := [] } := by
      intro l
      induction l with
      | nil => intro s; exact ⟨rfl, fun _ h => h, rfl, rfl, rfl⟩
      | cons e r ih => intro s; exact ih _
    have hr := hr l t
    generalize (l.foldl (fun s e => { s with mem := memPut s.mem e.1 (natBytes e.2.size e.2.bits), welts := spDel s.welts e.1 }) t) = u at h1 hr
    intro hw
    obtain ⟨w1, a1, b1⟩ := h1 hw
    have hm : ∀ (x : State), x.mem = ((List.range 128).foldl (fun m i =>
        if mask.getLsbD i then memSet m (line * 128 + i) (lineByte data i) else m) u.mem) → x.cores = u.cores →
        x.replicas = u.replicas → x.posted = u.posted → x.welts = u.welts →
        noWelt x a ∧ (∀ b, holds x a b → holds s a b) ∧ (settled s a → settled x a ∧ memGet x.mem a = memGet s.mem a) := by
      intro x x1 x2 x3 x4 x5
      have hg := masked_fold u.mem line mask data 128 a (by omega)
      rw [← x1] at hg
      refine ⟨by unfold noWelt; rw [x5]; exact w1, fun b hb => ?_, fun hs => ?_⟩
      · rcases hb with hb | ⟨e, he, hb⟩ | hb | hb
        · rw [hg] at hb
          split at hb
          · rename_i hc; rw [← hb]; exact (h hc.1 hc.2.2).1
          · exact a1 b (.inl hb)
        · exact a1 b (.inr (.inl ⟨e, by unfold l1Entry at he ⊢; rw [← x2]; exact he, hb⟩))
        · exact a1 b (.inr (.inr (.inl (by unfold inReplica at hb; rw [x3] at hb; exact hb))))
        · exact a1 b (.inr (.inr (.inr (by unfold onItsWay at hb; rw [x4] at hb; exact hb))))
      · have hc : ¬ (lineOf a = line ∧ a % 128 < 128 ∧ mask.getLsbD (a % 128) = true) := fun hc => (h hc.1 hc.2.2).2 hs
        refine ⟨⟨fun e he => (b1 hs).1.1 e (by unfold l1Entry at he ⊢; rw [← x2]; exact he), by rw [x4]; exact (b1 hs).1.2⟩, ?_⟩
        rw [hg, if_neg hc]; exact (b1 hs).2
    apply hm
    · simp only [touchWatches_mem]; split <;> rfl
    · dsimp only [touchWatches]; split <;> rfl
    · dsimp only [touchWatches]; split <;> rfl
    · dsimp only [touchWatches]; split <;> rfl
    · dsimp only [touchWatches]; split <;> rfl

theorem mem_foldl_spDel {α β : Type} (l : List β) (f : β → Nat) (m : List (Nat × α)) (e) (h : e ∈ l.foldl (fun m d => spDel m (f d)) m) : e ∈ m := by
  induction l generalizing m with
  | nil => exact h
  | cons d r ih => exact (mem_spDel _ _ _ (ih _ h)).1
theorem byteKept_ackDies (s : State) (line : Nat) (ds : List Nat) : byteKept a s (ackDies s line ds) :=
  byteKept_less rfl (l1Same fun _ h => h) (fun e h => mem_foldl_spDel _ _ _ e h) (fun _ h => h) (fun _ h => h)
/-- Writes added on their way, of bytes that the mask leaves out, are none of byte a. -/
theorem byteKept_posted (s : State) (w : Nat × PostedWrite) (h : w.2.line = lineOf a → w.2.mask.getLsbD (a % 128) = false) :
    byteKept a s { s with posted := s.posted ++ [w] } := by
  intro hw
  have hx : ∀ e ∈ s.posted ++ [w], e ∈ s.posted ∨ e = w := fun e he => by simpa using he
  refine ⟨hw, fun b hb => ?_, fun hs => ⟨⟨hs.1, fun e he hk => ?_⟩, rfl⟩⟩
  · rcases hb with hb | hb | hb | ⟨e, he, hk, hm, hb⟩
    · exact .inl hb
    · exact .inr (.inl hb)
    · exact .inr (.inr (.inl hb))
    · rcases hx e he with he | rfl
      · exact .inr (.inr (.inr ⟨e, he, hk, hm, hb⟩))
      · rw [h hk] at hm; cases hm
  · rcases hx e he with he | rfl
    · exact hs.2 e he hk
    · exact h hk
theorem byteKept_awaitAcks (s : State) (ck line : Nat) (ds : List Nat) : byteKept a s (awaitAcks s ck line ds) := by
  unfold awaitAcks
  split
  · exact byteKept_refl a s
  · exact byteKept_posted s _ fun _ => by simp
theorem byteKept_commitLine (r : Reach) (s t : State) (ck line : Nat) (mask : BitVec 128) (data : BitVec 1024) (h0 : byteKept a s t)
    (h : lineOf a = line → mask.getLsbD (a % 128) = true → holds s a (lineByte data (a % 128)) ∧ ¬ settled s a) :
    byteKept a s (commitLine r t ck line mask data) :=
  byteKept_trans (byteKept_trans (byteKept_homePutMasked s t line mask data h0 h) (byteKept_ackDies _ _ _)) (byteKept_awaitAcks _ _ _ _)
theorem byteKept_lessPosted (s : State) (k : Nat) : byteKept a s { s with posted := spDel s.posted k } :=
  byteKept_less rfl (l1Same fun _ h => h) (fun _ h => h) (fun _ h => (mem_spDel _ _ _ h).1) (fun _ h => h)

theorem byteKept_performTo (r : Reach) (s : State) (k : Nat) : byteKept a s (performTo r s k) := by
  unfold performTo
  split
  · exact byteKept_refl a s
  · rename_i w hw
    have hm := spFind_mem _ _ _ hw
    dsimp only
    split
    · have h1 := byteKept_trans (byteKept_lessPosted (a := a) s k) (byteKept_ackDies _ w.line (w.invs.filter r.acks))
      split
      · exact h1
      · have hp : ∀ e ∈ spPut (spDel s.posted k) k { w with invs := w.invs.filter fun d => !r.acks d },
            ∃ f ∈ s.posted, f.2.line = e.2.line ∧ f.2.mask = e.2.mask ∧ f.2.data = e.2.data := by
          intro e he
          rcases mem_spPut _ _ _ _ he with he | rfl
          · exact ⟨e, (mem_spDel _ _ _ he).1, rfl, rfl, rfl⟩
          · exact ⟨(k, w), hm, rfl, rfl, rfl⟩
        intro hn
        obtain ⟨n1, a1, b1⟩ := h1 hn
        refine ⟨n1, fun b hb => ?_, fun hs => ⟨⟨(b1 hs).1.1, fun e he hk => ?_⟩, (b1 hs).2⟩⟩
        · rcases hb with hb | hb | hb | ⟨e, he, hk, hb1, hb2⟩
          · exact a1 b (.inl hb)
          · exact a1 b (.inr (.inl hb))
          · exact a1 b (.inr (.inr (.inl hb)))
          · obtain ⟨f, hf, h1, h2, h3⟩ := hp e he
            exact .inr (.inr (.inr ⟨f, hf, h1.trans hk, by rw [h2]; exact hb1, by rw [h3]; exact hb2⟩))
        · obtain ⟨f, hf, h1, h2, h3⟩ := hp e he
          rw [← h2]; exact hs.2 f hf (h1.trans hk)
    · refine byteKept_commitLine r s _ _ _ _ _ (byteKept_lessPosted s k) fun hl hb => ⟨?_, fun hs => ?_⟩
      · exact .inr (.inr (.inr ⟨(k, w), hm, hl.symm, hb, rfl⟩))
      · have := hs.2 (k, w) hm hl.symm
        rw [hb] at this; cases this
theorem byteKept_performWrite (s : State) (k : Nat) : byteKept a s (performWrite s k) := byteKept_performTo _ s k
theorem byteKept_performAll (r : Reach) (s : State) (p : PostedWrite → Bool) : byteKept a s (performAll r s p) :=
  byteKept_foldl _ _ _ fun s _ _ => byteKept_performTo r s _
theorem byteKept_performWhere (s : State) (p : PostedWrite → Bool) : byteKept a s (performWhere s p) := byteKept_performAll _ s p
theorem byteKept_settleLine (s : State) (line : Nat) : byteKept a s (settleLine s line) := byteKept_performWhere s _
/-- A line put into an L1, in a state t that came from s: in s some agent held its byte a, and if it is dirty the byte was not
settled. -/
theorem byteKept_l1Put (s t : State) (ck line : Nat) (x : L1Line) (h0 : byteKept a s t)
    (h : lineOf a = line → noWelt s a → ((x.valid ||| x.dirty).getLsbD (a % 128) = true → holds s a (lineByte x.data (a % 128)))
      ∧ (x.dirty.getLsbD (a % 128) = true → ¬ settled s a)) :
    byteKept a s (l1Put t ck line x) := by
  have he : ∀ e, l1Entry (l1Put t ck line x) e → l1Entry t e ∨ e = (line, x) := by
    intro e he
    rcases entry_updCore _ _ _ _ he with he | he
    · exact .inl he
    · rcases mem_spPut _ _ _ _ he with he | he
      · exact .inl (entry_core _ _ _ he)
      · exact .inr he
  intro hw
  obtain ⟨w0, a0, b0⟩ := h0 hw
  refine ⟨w0, fun b hb => ?_, fun hs => ⟨⟨fun e hx hk => ?_, (b0 hs).1.2⟩, (b0 hs).2⟩⟩
  · rcases hb with hb | ⟨e, hx, hk, hv, hb⟩ | hb | hb
    · exact a0 b (.inl hb)
    · rcases he e hx with hx | hx
      · exact a0 b (.inr (.inl ⟨e, hx, hk, hv, hb⟩))
      · subst hx; rw [← hb]; exact (h hk.symm hw).1 hv
    · exact a0 b (.inr (.inr (.inl hb)))
    · exact a0 b (.inr (.inr (.inr hb)))
  · rcases he e hx with hx | hx
    · exact (b0 hs).1.1 e hx hk
    · subst hx
      cases hd : x.dirty.getLsbD (a % 128)
      · rfl
      · exact absurd hs ((h hk.symm hw).2 hd)
theorem byteKept_l1Drop (s : State) (ck line : Nat) : byteKept a s (l1Drop s ck line) :=
  byteKept_same (sameHw_updCore s ck _ fun _ h => (mem_spDel _ _ _ h).1)

theorem homePutMasked_cores (s : State) (line : Nat) (mask : BitVec 128) (data : BitVec 1024) :
    (homePutMasked s line mask data).cores = s.cores := by
  unfold homePutMasked
  dsimp only
  split
  · rfl
  · dsimp only [touchWatches]
    have h (l : List (Nat × Welt)) : (l.foldl (fun s e =>
        { s with mem := memPut s.mem e.1 (natBytes e.2.size e.2.bits), welts := spDel s.welts e.1 }) s).cores = s.cores :=
      foldl_keeps (fun t : State => t.cores = s.cores) _ l s (fun _ _ h => h) rfl
    split <;> exact h _
theorem commitLine_cores (r : Reach) (s : State) (ck line : Nat) (mask : BitVec 128) (data : BitVec 1024) :
    (commitLine r s ck line mask data).cores = s.cores := by
  have h : ∀ (t : State) (ds : List Nat), (awaitAcks t ck line ds).cores = t.cores := fun t ds => by unfold awaitAcks; split <;> rfl
  unfold commitLine
  rw [h]
  exact homePutMasked_cores s line mask data
theorem performTo_cores (r : Reach) (s : State) (k : Nat) : (performTo r s k).cores = s.cores := by
  unfold performTo
  split
  · rfl
  · dsimp only
    split
    · split <;> rfl
    · exact commitLine_cores r { s with posted := spDel s.posted k } _ _ _ _
theorem performAll_cores (r : Reach) (s : State) (p : PostedWrite → Bool) : (performAll r s p).cores = s.cores :=
  foldl_keeps (fun t : State => t.cores = s.cores) _ _ s (fun t k h => by rw [performTo_cores, h]) rfl
theorem l1Find_cores (h : t.cores = s.cores) (ck line : Nat) : l1Find t ck line = l1Find s ck line := by
  unfold l1Find State.core; rw [h]

theorem byteKept_writeBackTo (r : Reach) (s : State) (ck line : Nat) : byteKept a s (writeBackTo r s ck line) := by
  unfold writeBackTo
  split
  · exact byteKept_refl a s
  · rename_i x hx
    split
    · exact byteKept_refl a s
    · have hx := entry_find s ck line x hx
      have h2 : byteKept a s (commitLine r (performAll r s fun w => w.core = ck && w.line = line) ck line x.dirty x.data) := by
        refine byteKept_commitLine r s _ _ _ _ _ (byteKept_performAll r s _) fun hl hd => ⟨?_, fun hs => ?_⟩
        · exact .inr (.inl ⟨_, hx, hl.symm, by simp only [BitVec.getLsbD_or, hd, Bool.or_true], rfl⟩)
        · have := hs.1 _ hx hl.symm
          rw [hd] at this; cases this
      refine byteKept_l1Put s _ _ _ _ h2 fun hl _ => ⟨fun hv => ?_, fun hd => ?_⟩
      · refine .inr (.inl ⟨(line, x), hx, hl.symm, ?_, rfl⟩)
        have hv' : x.valid.getLsbD (a % 128) = true := by simpa using hv
        simp only [BitVec.getLsbD_or, hv', Bool.true_or]
      · simp at hd
theorem byteKept_writeBack (s : State) (ck line : Nat) : byteKept a s (writeBack s ck line) := byteKept_writeBackTo _ s ck line
theorem byteKept_flushLine (s : State) (ck line : Nat) : byteKept a s (flushLine s ck line) :=
  byteKept_trans (byteKept_writeBack s ck line) (byteKept_l1Drop _ _ _)
theorem byteKept_writeBackReach (r : Reach) (s : State) (ck : Nat) : byteKept a s (writeBackReach r s ck) :=
  byteKept_trans (byteKept_performAll r s _) (byteKept_foldl _ _ _ fun s _ _ => byteKept_writeBackTo r s ck _)
theorem byteKept_writeBackAll (s : State) (ck : Nat) : byteKept a s (writeBackAll s ck) := byteKept_writeBackReach _ s ck
theorem byteKept_evictLine (s : State) (ck line : Nat) : byteKept a s (evictLine s ck line) := by
  unfold evictLine
  split
  · exact byteKept_refl a s
  · rename_i x hx
    refine byteKept_trans ?_ (byteKept_l1Drop _ ck line)
    split
    · exact byteKept_refl a s
    · intro hw
      refine ⟨hw, fun b hb => ?_, fun hs => ⟨⟨hs.1, fun e he hk => ?_⟩, rfl⟩⟩
      · rcases hb with hb | hb | hb | ⟨e, he, hk, hm, hb⟩
        · exact .inl hb
        · exact .inr (.inl hb)
        · exact .inr (.inr (.inl hb))
        · rcases List.mem_append.1 he with he | he
          · exact .inr (.inr (.inr ⟨e, he, hk, hm, hb⟩))
          · rw [List.mem_singleton] at he
            subst he
            exact .inr (.inl ⟨(line, x), entry_find s ck line x hx, hk, by
              have hm' : x.dirty.getLsbD (a % 128) = true := hm
              simp only [BitVec.getLsbD_or, hm', Bool.or_true], hb⟩)
      · rcases List.mem_append.1 he with he | he
        · exact hs.2 e he hk
        · rw [List.mem_singleton] at he
          subst he
          exact hs.1 (line, x) (entry_find s ck line x hx) hk
theorem byteKept_l1Room (s : State) (ck line : Nat) : byteKept a s (l1Room s ck line).1 := by
  unfold l1Room
  dsimp only
  split
  · exact byteKept_refl a s
  · split
    · exact byteKept_trans (byteKept_same (t := s.fresh.2) ⟨rfl, fun _ h => h, rfl, rfl, rfl⟩) (byteKept_evictLine _ _ _)
    · exact byteKept_same ⟨rfl, fun _ h => h, rfl, rfl, rfl⟩
/-- As byteKept_l1Put, for a line of t that changes, or a new one. -/
theorem byteKept_l1Alloc (s t : State) (ck line : Nat) (f : L1Line → L1Line) (h0 : byteKept a s t)
    (h : ∀ x, (l1Entry t (line, x) ∨ x.valid = 0 ∧ x.dirty = 0) → lineOf a = line → noWelt s a →
      (((f x).valid ||| (f x).dirty).getLsbD (a % 128) = true → holds s a (lineByte (f x).data (a % 128)))
      ∧ ((f x).dirty.getLsbD (a % 128) = true → ¬ settled s a)) :
    byteKept a s (l1Alloc t ck line f) := by
  unfold l1Alloc
  split
  · rename_i x hx
    exact byteKept_l1Put s t ck line _ h0 (h x (.inl (entry_find t ck line x hx)))
  · exact byteKept_l1Put s _ ck line _ (byteKept_trans h0 (byteKept_l1Room t ck line)) (h _ (.inr ⟨rfl, rfl⟩))
theorem byteKept_invalidateClean (s : State) (ck : Nat) : byteKept a s (invalidateClean s ck) := by
  refine byteKept_less rfl (fun e he hk => ?_) (fun _ h => h) (fun _ h => h) (fun _ h => h)
  rcases entry_updCore _ _ _ _ he with he | he
  · exact ⟨e, he, hk, id, rfl, id⟩
  · have he := List.mem_of_mem_filter he
    obtain ⟨f, hf, rfl⟩ := List.mem_map.1 he
    refine ⟨f, entry_core s ck f hf, ?_, ?_, ?_, ?_⟩
    · split at hk <;> exact hk
    · split
      · simp only [BitVec.getLsbD_or, BitVec.getLsbD_and]
        intro h
        cases h1 : f.2.dirty.getLsbD (a % 128) <;> simp [h1] at h ⊢
      · exact id
    · split <;> rfl
    · split <;> exact id
theorem homeBytes_byte (s : State) (pa n j : Nat) (hj : j < n) (hw : noWelt s (pa + j)) :
    (homeBytes s pa n)[j]? = some (memGet s.mem (pa + j)) := by
  have h1 : ∀ (l : List (Nat × Welt)) (m : Memory), (∀ e ∈ l, ¬ (e.1 ≤ pa + j ∧ pa + j < e.1 + e.2.size)) →
      memGet (l.foldl (fun m e => memPut m e.1 (natBytes e.2.size e.2.bits)) m) (pa + j) = memGet m (pa + j) := by
    intro l
    induction l with
    | nil => intro m _; rfl
    | cons e r ih =>
      intro m h
      rw [List.foldl_cons, ih _ fun f hf => h f (List.mem_cons_of_mem _ hf)]
      refine memGet_memPut_outside _ _ _ _ ?_
      have := h e (List.mem_cons_self ..)
      rw [size_natBytes]; omega
  have h2 : ∀ (n : Nat) (m : Memory) (x j : Nat), j < n → (memBytes m x n)[j]? = some (memGet m (x + j)) := by
    intro n
    induction n with
    | zero => intro m x j h; omega
    | succ n ih =>
      intro m x j h
      cases j with
      | zero => rfl
      | succ j =>
        simp only [memBytes, List.getElem?_cons_succ]
        rw [ih m (x + 1) j (by omega), show x + 1 + j = x + (j + 1) by omega]
  unfold homeBytes
  rw [h2 _ _ _ _ hj, h1 (weltsIn s pa n) _ fun e he => (hw e (List.mem_of_mem_filter he)).1]
theorem memBytes_length (m : Memory) (x n : Nat) : (memBytes m x n).length = n := by
  induction n generalizing x with
  | zero => rfl
  | succ n ih => simp [memBytes, ih]
theorem homeLine_byte (s : State) (hw : noWelt s a) : lineByte (lineOfList (homeBytes s (lineOf a * 128) 128)) (a % 128) = memGet s.mem a := by
  have hl : (homeBytes s (lineOf a * 128) 128).length = 128 := memBytes_length ..
  have hx : lineOf a * 128 + a % 128 = a := by unfold lineOf; omega
  rw [lineByte_ofList _ _ hl (Nat.mod_lt _ (by decide))]
  have := homeBytes_byte s (lineOf a * 128) 128 (a % 128) (Nat.mod_lt _ (by decide)) (by rw [hx]; exact hw)
  rw [hx] at this
  have h2 := List.getElem?_eq_getElem (l := homeBytes s (lineOf a * 128) 128) (i := a % 128) (by rw [hl]; exact Nat.mod_lt _ (by decide))
  rw [this] at h2
  exact (Option.some.inj h2).symm
/-- With no entry spilled, an access of a word only makes its entry the latest used. -/
theorem byteKept_weltFetch (s : State) (pa : Nat) : byteKept a s (weltFetch s pa) := by
  unfold weltFetch
  split
  · exact byteKept_refl a s
  · rename_i w hw
    intro hn
    have hm := hn _ (spFind_mem _ _ _ hw)
    rw [if_pos (by rw [hm.2]; rfl)]
    refine ⟨fun e he => ?_, fun b hb => hb, fun hs => ⟨hs, rfl⟩⟩
    rcases mem_spPut _ _ _ _ he with he | rfl
    · exact hn e he
    · exact hm
theorem byteKept_weltTouch (s : State) (pa n : Nat) : byteKept a s (weltTouch s pa n) :=
  byteKept_foldl _ _ _ fun s _ _ => byteKept_weltFetch s _
theorem byteKept_replicas (s : State) (f : Nat) (rs : List (Nat × Replica))
    (h : noWelt s a → ∀ e ∈ rs, e.1 / 16 = lineOf a → e ∈ s.replicas ∨ holds s a (lineByte e.2.data (a % 128))) :
    byteKept a s { s with free := f, replicas := rs } := by
  intro hw
  refine ⟨hw, fun b hb => ?_, fun hs => ⟨hs, rfl⟩⟩
  rcases hb with hb | hb | ⟨e, he, hk, hb⟩ | hb
  · exact .inl hb
  · exact .inr (.inl hb)
  · rcases h hw e he hk with h | h
    · exact .inr (.inr (.inl ⟨e, h, hk, hb⟩))
    · rw [← hb]; exact h
  · exact .inr (.inr (.inr hb))
theorem byteKept_keepReplica (s : State) (d line : Nat) (data : BitVec 1024) (hd : d < 16)
    (h : lineOf a = line → noWelt s a → holds s a (lineByte data (a % 128))) : byteKept a s (keepReplica s d line data) := by
  unfold keepReplica
  dsimp only
  split
  · refine byteKept_replicas s s.free _ fun hw e he hk => ?_
    rcases mem_spPut _ _ _ _ he with he | rfl
    · exact .inl he
    · exact .inr (h (by dsimp only at hk; omega) hw)
  · split
    · refine byteKept_replicas s (s.free + 1) _ fun hw e he hk => ?_
      rcases mem_spPut _ _ _ _ he with he | rfl
      · exact .inl (mem_spDel _ _ _ he).1
      · exact .inr (h (by dsimp only at hk; omega) hw)
    · exact byteKept_same ⟨rfl, fun _ h => h, rfl, rfl, rfl⟩
/-- A line fetched for a die: byte a of it is a value some agent held, and what the fetch keeps changes no byte. -/
theorem fetchLineAt_kept (s : State) (d line : Nat) (hd : d < 16) :
    (lineOf a = line → noWelt s a → holds s a (lineByte (fetchLineAt s d line).1 (a % 128))) ∧ byteKept a s (fetchLineAt s d line).2.2 := by
  have hh : lineOf a = line → noWelt s a → holds s a (lineByte (lineOfList (homeBytes s (line * 128) 128)) (a % 128)) :=
    fun hl hw => by subst hl; rw [homeLine_byte s hw]; exact .inl rfl
  unfold fetchLineAt
  dsimp only
  split
  · exact ⟨hh, byteKept_weltTouch s _ _⟩
  · split
    · rename_i r hr
      exact ⟨fun hl hw => .inr (.inr (.inl ⟨_, spFind_mem _ _ _ hr, by subst hl; dsimp only; omega, rfl⟩)), byteKept_refl a s⟩
    · split
      · refine ⟨hh, ?_⟩
        dsimp only
        split
        · exact byteKept_keepReplica s d line _ hd hh
        · exact byteKept_refl a s
      · exact ⟨hh, byteKept_weltTouch s _ _⟩
theorem coreDie_lt (ck : Nat) : coreDie ck < 16 := Nat.mod_lt _ (by decide)

theorem byteKept_loadBytes (s : State) (ck pa n hint : Nat) : byteKept a s (loadBytes s ck pa n hint).2.2 := by
  unfold loadBytes
  dsimp only
  split
  · exact byteKept_refl a s
  · have h1 : byteKept a s (performAll (.near (coreDie ck)) s fun w => w.core = ck && w.line = lineOf pa) := byteKept_performAll _ s _
    generalize (performAll (.near (coreDie ck)) s fun w => w.core = ck && w.line = lineOf pa) = u at h1
    have h2 : byteKept a s (if readWaits u (coreDie ck) (lineOf pa) then settleLine u (lineOf pa) else u) := by
      split
      · exact byteKept_trans h1 (byteKept_settleLine u _)
      · exact h1
    generalize (if readWaits u (coreDie ck) (lineOf pa) then settleLine u (lineOf pa) else u) = v at h2
    obtain ⟨h3, h4⟩ := fetchLineAt_kept (a := a) v (coreDie ck) (lineOf pa) (coreDie_lt ck)
    have h5 := byteKept_trans h2 h4
    split
    · refine byteKept_l1Alloc s _ _ _ _ h5 fun x hx hl hw => ⟨fun _ => ?_, fun hd hs => ?_⟩
      · simp only [hinted]
        rw [lineByte_mergeLine _ _ _ _ (Nat.mod_lt _ (by decide))]
        split
        · rename_i hv
          cases hx : l1Find s ck (lineOf pa) with
          | none => rw [hx] at hv; simp at hv
          | some x =>
            rw [hx] at hv
            refine .inr (.inl ⟨(lineOf pa, x), entry_find s ck _ _ hx, hl.symm, ?_, rfl⟩)
            have hv' : x.valid.getLsbD (a % 128) = true := hv
            simp only [BitVec.getLsbD_or, hv', Bool.true_or]
        · exact (h2 hw).2.1 _ (h3 hl (h2 hw).1)
      · have hd' : x.dirty.getLsbD (a % 128) = true := hd
        rcases hx with hx | hx
        · have := ((h5 hw).2.2 hs).1.1 _ hx hl.symm
          rw [hd'] at this; cases this
        · rw [hx.2] at hd'; simp at hd'
    · exact h5
theorem byteKept_samplePart (s : State) (l : Load) (p : Part) : byteKept a s (samplePart s l p).2.2 := by
  unfold samplePart
  dsimp only
  split
  · exact byteKept_refl a s
  · exact byteKept_loadBytes s _ _ _ _
theorem byteKept_sampleLoad (s : State) (k : Nat) (q : Part → Bool) : byteKept a s (sampleLoad s k q) := by
  unfold sampleLoad
  split
  · exact byteKept_refl a s
  · rename_i l _
    dsimp only
    have h : ∀ (ps : List (Part × Option (List Byte × Bool))) (acc : List (Part × Option (List Byte × Bool)) × State),
        byteKept a acc.2 (ps.foldl (fun acc e =>
          match e.2 with
          | some _ => (acc.1 ++ [e], acc.2)
          | none =>
            if q e.1 then
              let v := samplePart acc.2 l e.1
              (acc.1 ++ [(e.1, some (v.1, v.2.1))], v.2.2)
            else (acc.1 ++ [e], acc.2)) acc).2 := by
      intro ps
      induction ps with
      | nil => intro acc; exact byteKept_refl a _
      | cons e r ih =>
        intro acc
        refine byteKept_trans ?_ (ih _)
        dsimp only
        split
        · exact byteKept_refl a _
        · split
          · exact byteKept_samplePart acc.2 l e.1
          · exact byteKept_refl a _
    exact byteKept_trans (h l.parts ([], s)) (byteKept_same ⟨rfl, fun _ h => h, rfl, rfl, rfl⟩)
theorem byteKept_sampleOwn (s : State) (g pa n : Nat) : byteKept a s (sampleOwn s g pa n) :=
  byteKept_foldl _ _ _ fun s _ _ => byteKept_sampleLoad s _ _
theorem byteKept_sampleAllOwn (s : State) (g : Nat) : byteKept a s (sampleAllOwn s g) :=
  byteKept_foldl _ _ _ fun s _ _ => byteKept_sampleLoad s _ _
theorem byteKept_doRelease (s : State) (g scope : Nat) : byteKept a s (doRelease s g scope) := by
  unfold doRelease
  dsimp only
  split
  · exact byteKept_trans (byteKept_sampleAllOwn s g) (byteKept_writeBackAll _ _)
  · split
    · exact byteKept_trans (byteKept_sampleAllOwn s g) (byteKept_writeBackReach _ _ _)
    · exact byteKept_sampleAllOwn s g
theorem byteKept_doAcquire (s : State) (g scope : Nat) : byteKept a s (doAcquire s g scope) := by
  unfold doAcquire
  split
  · exact byteKept_invalidateClean s _
  · exact byteKept_refl a s
theorem byteKept_atHome (s : State) (pa n : Nat) : byteKept a s (atHome s pa n) :=
  byteKept_trans (byteKept_sampleOwn s _ pa n) (byteKept_trans (byteKept_performWhere _ _)
    (byteKept_trans (byteKept_flushLine _ _ _) (byteKept_settleLine _ _)))

/-! ### Stores -/

/-- A byte of a line under an n-byte mask at pa is one of the n bytes. -/
theorem mask_in (pa n : Nat) (hl : lineOf a = lineOf pa) (h : (byteMask (pa % 128) n).getLsbD (a % 128) = true) : pa ≤ a ∧ a < pa + n := by
  have := byteMask_bit _ _ _ h
  unfold lineOf at hl
  omega
theorem byteKept_storeL1 (s : State) (ck pa : Nat) (bs : List Byte) (hint : Nat) (h : ¬ (pa ≤ a ∧ a < pa + bs.length)) :
    byteKept a s (storeL1 s ck pa bs hint) := by
  unfold storeL1
  dsimp only
  refine byteKept_l1Alloc s s _ _ _ (byteKept_refl a s) fun x hx hl _ => ?_
  have hm : (byteMask (pa % 128) bs.length).getLsbD (a % 128) = false := by
    cases hm : (byteMask (pa % 128) bs.length).getLsbD (a % 128)
    · rfl
    · exact absurd (mask_in pa _ hl hm) h
  simp only [hinted]
  rcases hx with he | hx
  · refine ⟨fun hv => ?_, fun hd hs => ?_⟩
    · rw [lineByte_mergeLine _ _ _ _ (Nat.mod_lt _ (by decide)), hm]
      have hv' : (x.valid ||| x.dirty).getLsbD (a % 128) = true := by simpa [BitVec.getLsbD_or, hm] using hv
      exact .inr (.inl ⟨_, he, hl.symm, hv', rfl⟩)
    · have := hs.1 _ he hl.symm
      have hd' : x.dirty.getLsbD (a % 128) = true := by simpa [BitVec.getLsbD_or, hm] using hd
      rw [hd'] at this; cases this
  · exact ⟨fun hv => by simp [hm, hx.1, hx.2] at hv, fun hd => by simp [hm, hx.2] at hd⟩
/-- An L1 line whose data changed under a mask only, and whose dirty bytes are fewer. -/
theorem byteKept_l1Patch (s : State) (ck pa n : Nat) (x : L1Line) (m d bad : BitVec 128) (new : BitVec 1024) (hx : l1Find s ck (lineOf pa) = some x)
    (h : ¬ (pa ≤ a ∧ a < pa + n)) (hm : ∀ j, m.getLsbD j = true → (byteMask (pa % 128) n).getLsbD j = true)
    (hd : ∀ j, d.getLsbD j = true → x.dirty.getLsbD j = true) :
    byteKept a s (l1Put s ck (lineOf pa) { x with data := mergeLine x.data new m, dirty := d, bad := bad }) := by
  refine byteKept_l1Put s s _ _ _ (byteKept_refl a s) fun hl _ => ?_
  have he := entry_find s ck _ x hx
  have h0 : m.getLsbD (a % 128) = false := by
    cases h1 : m.getLsbD (a % 128)
    · rfl
    · exact absurd (mask_in pa n hl (hm _ h1)) h
  refine ⟨fun hv => ?_, fun hv hs => ?_⟩
  · rw [lineByte_mergeLine _ _ _ _ (Nat.mod_lt _ (by decide)), h0]
    refine .inr (.inl ⟨_, he, hl.symm, ?_, rfl⟩)
    simp only [BitVec.getLsbD_or, Bool.or_eq_true] at hv ⊢
    rcases hv with hv | hv
    · exact .inl hv
    · exact .inr (hd _ hv)
  · have := hs.1 _ he hl.symm
    rw [hd _ hv] at this; cases this
theorem byteKept_postWrite (s : State) (ck line : Nat) (m : BitVec 128) (d : BitVec 1024) (bad : Bool)
    (h : lineOf a = line → m.getLsbD (a % 128) = false) : byteKept a s (postWrite s ck line m d bad) := by
  exact byteKept_posted s _ fun hk => h hk.symm
theorem byteKept_storeNoL1 (s : State) (ck pa : Nat) (bs : List Byte) (h : ¬ (pa ≤ a ∧ a < pa + bs.length)) :
    byteKept a s (storeNoL1 s ck pa bs) := by
  have hp (t : State) (d : BitVec 1024) : byteKept a t (postWrite t ck (lineOf pa) (byteMask (pa % 128) bs.length) d false) := by
    refine byteKept_postWrite _ _ _ _ _ _ fun hl => ?_
    cases h1 : (byteMask (pa % 128) bs.length).getLsbD (a % 128)
    · rfl
    · exact absurd (mask_in pa _ hl h1) h
  unfold storeNoL1
  dsimp only
  split
  · rename_i x hx
    refine byteKept_trans ?_ (hp _ _)
    refine byteKept_l1Patch s ck pa bs.length x _ _ _ _ hx h (fun j hj => ?_) (fun j hj => ?_)
    · simp only [BitVec.getLsbD_and, Bool.and_eq_true] at hj; exact hj.1
    · simp only [BitVec.getLsbD_and, Bool.and_eq_true] at hj; exact hj.1
  · exact hp _ _
theorem byteKept_storeWs (s : State) (ck pa : Nat) (bs : List Byte) (h : ¬ (pa ≤ a ∧ a < pa + bs.length)) :
    byteKept a s (storeWs s ck pa bs) := by
  unfold storeWs
  dsimp only
  refine byteKept_trans ?_ (byteKept_homeWrite _ pa bs h)
  split
  · rename_i x hx
    refine byteKept_l1Patch s ck pa bs.length x _ x.dirty _ _ hx h (fun j hj => ?_) (fun j hj => hj)
    simp only [BitVec.getLsbD_and, Bool.and_eq_true] at hj; exact hj.1
  · exact byteKept_refl a s
end Sys2Proof.Machine
end

