-- ==== Sys2Proof/Laws/Files.lean ====
section
/-! SUPPORT. Files.lean (laws): what blocking, waking, traps and the operations on memory leave of the groups' registers, the
scratchpads and the issue record. -/

namespace Sys2Proof.Machine

open Claim

/-! ### Registers of every group -/

/-- Every group's registers, the scratchpads and the issue record are unchanged. -/
def filesAll (s t : State) : Prop :=
  (∀ g, sameFile (s.grp g) (t.grp g)) ∧ t.cur = s.cur ∧ (∀ g, (t.grp g).block = (s.grp g).block) ∧ ∀ b, (t.blk b).sp = (s.blk b).sp
theorem sameFile_refl (x : Group) : sameFile x x := ⟨rfl, rfl, rfl, rfl, rfl, rfl, rfl, rfl⟩
theorem sameFile_trans {x y z : Group} (h1 : sameFile x y) (h2 : sameFile y z) : sameFile x z := by
  obtain ⟨a1, a2, a3, a4, a5, a6, a7, a8⟩ := h1
  obtain ⟨b1, b2, b3, b4, b5, b6, b7, b8⟩ := h2
  exact ⟨b1.trans a1, b2.trans a2, b3.trans a3, b4.trans a4, b5.trans a5, b6.trans a6, b7.trans a7, b8.trans a8⟩

variable {s t u : State}

theorem filesAll_refl (s : State) : filesAll s s := ⟨fun _ => sameFile_refl _, rfl, fun _ => rfl, fun _ => rfl⟩
theorem filesAll_trans (h1 : filesAll s t) (h2 : filesAll t u) : filesAll s u :=
  ⟨fun g => sameFile_trans (h1.1 g) (h2.1 g), h2.2.1.trans h1.2.1, fun g => (h2.2.2.1 g).trans (h1.2.2.1 g),
   fun b => (h2.2.2.2 b).trans (h1.2.2.2 b)⟩
theorem filesAll_foldl {α : Type} (f : State → α → State) (l : List α) (s : State) (h : ∀ s, ∀ x ∈ l, filesAll s (f s x)) :
    filesAll s (l.foldl f s) := by
  induction l generalizing s with
  | nil => exact filesAll_refl s
  | cons x r ih => exact filesAll_trans (h s x (List.mem_cons_self ..)) (ih _ fun s y hy => h s y (List.mem_cons_of_mem _ hy))
/-- Groups, blocks and the issue record are as they were. -/
theorem filesAll_same (h1 : t.groups = s.groups) (h2 : t.cur = s.cur) (h3 : t.blocks = s.blocks) : filesAll s t := by
  have hg (g : Nat) : t.grp g = s.grp g := by unfold State.grp; rw [h1]
  exact ⟨fun g => by rw [hg]; exact sameFile_refl _, h2, fun g => by rw [hg], fun b => by unfold State.blk; rw [h3]⟩
theorem filesAll_updGrp (s : State) (g : Nat) (f : Group → Group) (h : sameFile (s.grp g) (f (s.grp g)))
    (hb : (f (s.grp g)).block = (s.grp g).block) : filesAll s (s.updGrp g f) := by
  have hg (k : Nat) : (s.updGrp g f).grp k = if g = k then f (s.grp g) else s.grp k := by
    unfold State.updGrp State.setGrp State.grp
    dsimp only
    rw [spFind_spPut]
    split
    · rfl
    · rfl
  refine ⟨fun k => ?_, rfl, fun k => ?_, fun _ => rfl⟩
  · rw [hg]
    split
    · rename_i hk; subst hk; exact h
    · exact sameFile_refl _
  · rw [hg]
    split
    · rename_i hk; subst hk; exact hb
    · rfl
theorem spFind_map {α : Type} (f : Nat × α → Nat × α) (hf : ∀ e, (f e).1 = e.1) (l : List (Nat × α)) (k : Nat) :
    spFind (l.map f) k = (spFind l k).map fun v => (f (k, v)).2 := by
  induction l with
  | nil => rfl
  | cons a r ih =>
    obtain ⟨i, v⟩ := a
    have hi : (f (i, v)).1 = i := hf _
    rw [List.map_cons, show f (i, v) = (i, (f (i, v)).2) from Prod.ext hi rfl]
    unfold spFind
    split
    · rename_i h; subst h; rfl
    · exact ih
theorem filesAll_map (s : State) (f : Nat × Group → Nat × Group) (hf : ∀ e, (f e).1 = e.1)
    (h : ∀ e, sameFile e.2 (f e).2 ∧ (f e).2.block = e.2.block) : filesAll s { s with groups := s.groups.map f } := by
  have hg (k : Nat) : sameFile (s.grp k) (State.grp { s with groups := s.groups.map f } k)
      ∧ (State.grp { s with groups := s.groups.map f } k).block = (s.grp k).block := by
    unfold State.grp
    dsimp only
    rw [spFind_map f hf]
    cases spFind s.groups k with
    | none => exact ⟨sameFile_refl _, rfl⟩
    | some v => exact h (k, v)
  exact ⟨fun k => (hg k).1, rfl, fun k => (hg k).2, fun _ => rfl⟩
theorem filesAll_takeTrack (s : State) (core half t g : Nat) (w : Bool) : filesAll s (takeTrack s core half t g w) := by
  refine filesAll_map s _ (fun e => ?_) (fun e => ?_)
  · split
    · rfl
    · split <;> rfl
  · split
    · exact ⟨⟨rfl, rfl, rfl, rfl, rfl, rfl, rfl, rfl⟩, rfl⟩
    · split
      · exact ⟨⟨rfl, rfl, rfl, rfl, rfl, rfl, rfl, rfl⟩, rfl⟩
      · exact ⟨sameFile_refl _, rfl⟩
theorem filesAll_fillTracks (core half k : Nat) (s : State) : filesAll s (fillTracks s core half k) := by
  induction k generalizing s with
  | zero => exact filesAll_refl s
  | succ k ih =>
    unfold fillTracks
    split
    · exact filesAll_trans (filesAll_takeTrack s _ _ _ _ _) (ih _)
    · exact filesAll_refl s
theorem filesAll_fillCore (s : State) (core : Nat) : filesAll s (fillCore s core) :=
  filesAll_trans (filesAll_fillTracks core 0 8 s) (filesAll_fillTracks core 1 8 _)
theorem sameFile_endLine (x : Group) : sameFile x (endLine x) := ⟨rfl, rfl, rfl, rfl, rfl, rfl, rfl, rfl⟩
theorem filesAll_leaveTrack (s : State) (g : Nat) : filesAll s (leaveTrack s g) := by
  unfold leaveTrack
  split
  · exact filesAll_updGrp s g _ (sameFile_endLine _) rfl
  · split
    · exact filesAll_refl s
    · exact filesAll_trans (filesAll_updGrp s g _ ⟨rfl, rfl, rfl, rfl, rfl, rfl, rfl, rfl⟩ rfl) (filesAll_fillCore _ _)
theorem filesAll_blockOn (s : State) (g : Nat) (w : Wait) : filesAll s (blockOn s g w) :=
  filesAll_trans (filesAll_updGrp s g _ ⟨rfl, rfl, rfl, rfl, rfl, rfl, rfl, rfl⟩ rfl) (filesAll_leaveTrack _ g)
theorem filesAll_makeReady (s : State) (g : Nat) : filesAll s (makeReady s g) :=
  filesAll_trans (filesAll_updGrp s g _ ⟨rfl, rfl, rfl, rfl, rfl, rfl, rfl, rfl⟩ rfl) (filesAll_fillCore _ _)
theorem filesAll_updHandler (s : State) (q : Nat) (f : Handler → Handler) : filesAll s (s.updHandler q f) := filesAll_same rfl rfl rfl
theorem filesAll_updDie (s : State) (d : Nat) (f : Die → Die) : filesAll s (s.updDie d f) := filesAll_same rfl rfl rfl
theorem filesAll_sendOn (s : State) (sid kind flags : Nat) (p : List Byte) : filesAll s (sendOn s sid kind flags p) := by
  unfold sendOn
  split
  · exact filesAll_refl s
  · exact filesAll_same rfl rfl rfl
theorem filesAll_sendEvent (s : State) (e : EventRec) : filesAll s (sendEvent s e) := by
  unfold sendEvent
  dsimp only
  split
  · exact filesAll_updDie s _ _
  · exact filesAll_foldl _ _ _ fun s _ _ => filesAll_sendOn s _ _ _ _
theorem filesAll_machineCheck (s : State) (d : Nat) : filesAll s (machineCheck s d) := by
  unfold machineCheck
  split
  · exact filesAll_refl s
  · dsimp only
    refine filesAll_trans (filesAll_trans ?_ (filesAll_foldl _ _ _ fun s q _ => ?_)) (filesAll_same rfl rfl rfl)
    · refine filesAll_trans (filesAll_updDie s d _) (filesAll_foldl _ _ _ fun s e _ => ?_)
      exact filesAll_updGrp s e.1 _ ⟨rfl, rfl, rfl, rfl, rfl, rfl, rfl, rfl⟩ rfl
    · exact filesAll_trans (filesAll_updHandler s q _) (filesAll_updGrp _ _ _ ⟨rfl, rfl, rfl, rfl, rfl, rfl, rfl, rfl⟩ rfl)
theorem filesAll_raiseAt (s : State) (g off : Nat) (t : Trap) : filesAll s (raiseAt s g off t) := by
  unfold raiseAt
  split
  · exact filesAll_machineCheck s _
  · dsimp only
    split
    · exact filesAll_updGrp s g _ ⟨rfl, rfl, rfl, rfl, rfl, rfl, rfl, rfl⟩ rfl
    · refine filesAll_trans ?_ (filesAll_leaveTrack _ g)
      have h1 : filesAll s ((queueTrap s (quadOf (placeCore g)) (some g) (trapRegs s (some g) off t)).updGrp g fun x =>
          { endLine x with halt := true, byhalt := false, cause := t.cause, refused := if t.cause = 0x18 then none else x.refused }) :=
        filesAll_trans (filesAll_updHandler s _ _) (filesAll_updGrp _ g _ ⟨rfl, rfl, rfl, rfl, rfl, rfl, rfl, rfl⟩ rfl)
      have h2 (u : State) : filesAll u (match t.stage with
          | some j => { u with stages := u.stages.map fun e => if e.1 = j then (e.1, { e.2 with told := true }) else e }
          | none => u) := by
        cases t.stage
        · exact filesAll_refl u
        · exact filesAll_same rfl rfl rfl
      have h3 (u : State) : filesAll u (if t.cause ≠ 0x12 then u else
          { u with copies := u.copies.map fun e =>
              if e.2.token = t.tok && e.2.g = g && e.2.uid = (s.grp g).uid then (e.1, { e.2 with ptrapped := true }) else e }) := by
        split
        · exact filesAll_refl u
        · exact filesAll_same rfl rfl rfl
      exact filesAll_trans h1 (filesAll_trans (h2 _) (h3 _))

/-! ### The memory hierarchy does not touch them -/

/-- Groups, blocks, loads' owners and the issue record are as they were. -/
def quiet (s t : State) : Prop := t.groups = s.groups ∧ t.cur = s.cur ∧ t.blocks = s.blocks
theorem quiet_refl (s : State) : quiet s s := ⟨rfl, rfl, rfl⟩
theorem quiet_trans (h1 : quiet s t) (h2 : quiet t u) : quiet s u :=
  ⟨h2.1.trans h1.1, h2.2.1.trans h1.2.1, h2.2.2.trans h1.2.2⟩
theorem quiet_foldl {α : Type} (f : State → α → State) (l : List α) (s : State) (h : ∀ s, ∀ x ∈ l, quiet s (f s x)) :
    quiet s (l.foldl f s) := by
  induction l generalizing s with
  | nil => exact quiet_refl s
  | cons x r ih => exact quiet_trans (h s x (List.mem_cons_self ..)) (ih _ fun s y hy => h s y (List.mem_cons_of_mem _ hy))
theorem quiet_files (h : quiet s t) : filesAll s t := filesAll_same h.1 h.2.1 h.2.2
theorem quiet_flushWelts (s : State) (pa n : Nat) : quiet s (flushWelts s pa n) := quiet_foldl _ _ _ fun _ _ _ => ⟨rfl, rfl, rfl⟩
theorem quiet_homeWrite (s : State) (pa : Nat) (bs : List Byte) : quiet s (homeWrite s pa bs) := by
  unfold homeWrite
  split
  · exact ⟨rfl, rfl, rfl⟩
  · refine quiet_trans (quiet_flushWelts s pa bs.length) ?_
    dsimp only
    split <;> exact ⟨rfl, rfl, rfl⟩
theorem quiet_homePutMasked (s : State) (line : Nat) (m : BitVec 128) (d : BitVec 1024) : quiet s (homePutMasked s line m d) := by
  unfold homePutMasked
  dsimp only
  split
  · exact ⟨rfl, rfl, rfl⟩
  · have h (l : List (Nat × Welt)) (s : State) : quiet s (l.foldl (fun s e =>
        { s with mem := memPut s.mem e.1 (natBytes e.2.size e.2.bits), welts := spDel s.welts e.1 }) s) :=
      quiet_foldl _ _ _ fun _ _ _ => ⟨rfl, rfl, rfl⟩
    generalize List.filter _ s.welts = l
    have h := h l s
    split <;> exact h
theorem quiet_awaitAcks (s : State) (ck line : Nat) (ds : List Nat) : quiet s (awaitAcks s ck line ds) := by
  unfold awaitAcks
  split <;> exact ⟨rfl, rfl, rfl⟩
theorem quiet_commitLine (r : Reach) (s : State) (ck line : Nat) (m : BitVec 128) (d : BitVec 1024) : quiet s (commitLine r s ck line m d) :=
  quiet_trans (t := ackDies (homePutMasked s line m d) line ((replicaDies s line).filter r.acks)) (quiet_homePutMasked s line m d)
    (quiet_awaitAcks _ _ _ _)
theorem quiet_performTo (r : Reach) (s : State) (k : Nat) : quiet s (performTo r s k) := by
  unfold performTo
  split
  · exact quiet_refl s
  · dsimp only
    split
    · split <;> exact ⟨rfl, rfl, rfl⟩
    · exact quiet_trans (t := { s with posted := spDel s.posted k }) ⟨rfl, rfl, rfl⟩ (quiet_commitLine r _ _ _ _ _)
theorem quiet_performAll (r : Reach) (s : State) (p : PostedWrite → Bool) : quiet s (performAll r s p) :=
  quiet_foldl _ _ _ fun s _ _ => quiet_performTo r s _
theorem quiet_performWhere (s : State) (p : PostedWrite → Bool) : quiet s (performWhere s p) := quiet_performAll _ s p
theorem quiet_settleLine (s : State) (line : Nat) : quiet s (settleLine s line) := quiet_performWhere s _
theorem quiet_writeBackTo (r : Reach) (s : State) (ck line : Nat) : quiet s (writeBackTo r s ck line) := by
  unfold writeBackTo
  split
  · exact quiet_refl s
  · split
    · exact quiet_refl s
    · exact quiet_trans (quiet_performAll r s _) (quiet_trans (quiet_commitLine r _ ck line _ _) ⟨rfl, rfl, rfl⟩)
theorem quiet_writeBack (s : State) (ck line : Nat) : quiet s (writeBack s ck line) := quiet_writeBackTo _ s ck line
theorem quiet_flushLine (s : State) (ck line : Nat) : quiet s (flushLine s ck line) := quiet_trans (quiet_writeBack s ck line) ⟨rfl, rfl, rfl⟩
theorem quiet_writeBackReach (r : Reach) (s : State) (ck : Nat) : quiet s (writeBackReach r s ck) :=
  quiet_trans (quiet_performAll r s _) (quiet_foldl _ _ _ fun s _ _ => quiet_writeBackTo r s ck _)
theorem quiet_writeBackAll (s : State) (ck : Nat) : quiet s (writeBackAll s ck) := quiet_writeBackReach _ s ck
theorem quiet_evictLine (s : State) (ck line : Nat) : quiet s (evictLine s ck line) := by
  unfold evictLine
  split
  · exact quiet_refl s
  · split <;> exact ⟨rfl, rfl, rfl⟩
theorem quiet_l1Alloc (s : State) (ck line : Nat) (f : L1Line → L1Line) : quiet s (l1Alloc s ck line f) := by
  unfold l1Alloc
  split
  · exact ⟨rfl, rfl, rfl⟩
  · refine quiet_trans (t := (l1Room s ck line).1) ?_ ⟨rfl, rfl, rfl⟩
    unfold l1Room
    dsimp only
    split
    · exact quiet_refl s
    · split
      · exact quiet_trans (t := s.fresh.2) ⟨rfl, rfl, rfl⟩ (quiet_evictLine _ _ _)
      · exact ⟨rfl, rfl, rfl⟩
theorem quiet_spillEntry (s : State) (pa : Nat) (w : Welt) (place : Nat × List Nat) : quiet s (spillEntry s pa w place) := by
  refine quiet_trans (t := s.fresh.2) ⟨rfl, rfl, rfl⟩ (quiet_trans (quiet_foldl _ _ _ fun s p _ => quiet_homeWrite s p.1 _) ⟨rfl, rfl, rfl⟩)
theorem quiet_weltRoom (s t : State) (slice : Nat) (h : weltRoom s slice = some t) : quiet s t := by
  unfold weltRoom at h
  dsimp only at h
  split at h
  · cases h; exact quiet_refl s
  · split at h
    · cases h
    · cases h; exact quiet_spillEntry _ _ _ _
theorem quiet_weltFetch (s : State) (pa : Nat) : quiet s (weltFetch s pa) := by
  unfold weltFetch
  split
  · exact quiet_refl s
  · dsimp only
    split
    · exact ⟨rfl, rfl, rfl⟩
    · split
      · rename_i v hv; exact quiet_trans (quiet_weltRoom s v _ hv) ⟨rfl, rfl, rfl⟩
      · exact ⟨rfl, rfl, rfl⟩
theorem quiet_weltTouch (s : State) (pa n : Nat) : quiet s (weltTouch s pa n) := quiet_foldl _ _ _ fun s _ _ => quiet_weltFetch s _
theorem quiet_keepReplica (s : State) (d line : Nat) (data : BitVec 1024) : quiet s (keepReplica s d line data) := by
  unfold keepReplica
  dsimp only
  split
  · exact ⟨rfl, rfl, rfl⟩
  · split <;> exact ⟨rfl, rfl, rfl⟩
theorem quiet_fetchLineAt (s : State) (d line : Nat) : quiet s (fetchLineAt s d line).2.2 := by
  unfold fetchLineAt
  dsimp only
  split
  · exact quiet_weltTouch s _ _
  · split
    · exact quiet_refl s
    · split
      · dsimp only
        split
        · exact quiet_keepReplica s _ _ _
        · exact quiet_refl s
      · exact quiet_weltTouch s _ _
theorem quiet_loadBytes (s : State) (ck pa n hint : Nat) : quiet s (loadBytes s ck pa n hint).2.2 := by
  unfold loadBytes
  dsimp only
  split
  · exact quiet_refl s
  · refine quiet_trans (quiet_performAll (.near (coreDie ck)) s fun w => w.core = ck && w.line = lineOf pa) ?_
    have h1 (u : State) : quiet u (if readWaits u (coreDie ck) (lineOf pa) then settleLine u (lineOf pa) else u) := by
      split
      · exact quiet_settleLine u _
      · exact quiet_refl u
    have h2 (c : Prop) [Decidable c] (v : State) (f : L1Line → L1Line) : quiet v (if c then l1Alloc v ck (lineOf pa) f else v) := by
      split
      · exact quiet_l1Alloc ..
      · exact quiet_refl v
    exact quiet_trans (h1 _) (quiet_trans (quiet_fetchLineAt _ (coreDie ck) (lineOf pa)) (h2 _ _ _))
theorem quiet_samplePart (s : State) (l : Load) (p : Part) : quiet s (samplePart s l p).2.2 := by
  unfold samplePart
  dsimp only
  split
  · exact quiet_refl s
  · exact quiet_loadBytes s _ _ _ _
theorem quiet_sampleLoad (s : State) (k : Nat) (q : Part → Bool) : quiet s (sampleLoad s k q) := by
  unfold sampleLoad
  split
  · exact quiet_refl s
  · rename_i l _
    have h : ∀ (ps : List (Part × Option (List Byte × Bool))) (acc : List (Part × Option (List Byte × Bool)) × State),
        quiet acc.2 (ps.foldl (fun acc e =>
          match e.2 with
          | some _ => (acc.1 ++ [e], acc.2)
          | none =>
            if q e.1 then
              let v := samplePart acc.2 l e.1
              (acc.1 ++ [(e.1, some (v.1, v.2.1))], v.2.2)
            else (acc.1 ++ [e], acc.2)) acc).2 := by
      intro ps
      induction ps with
      | nil => intro acc; exact quiet_refl _
      | cons e r ih =>
        intro acc
        refine quiet_trans ?_ (ih _)
        dsimp only
        split
        · exact quiet_refl _
        · split
          · exact quiet_samplePart acc.2 l e.1
          · exact quiet_refl _
    exact quiet_trans (h l.parts ([], s)) ⟨rfl, rfl, rfl⟩
theorem quiet_sampleOwn (s : State) (g pa n : Nat) : quiet s (sampleOwn s g pa n) := quiet_foldl _ _ _ fun s _ _ => quiet_sampleLoad s _ _
theorem quiet_sampleAllOwn (s : State) (g : Nat) : quiet s (sampleAllOwn s g) := quiet_foldl _ _ _ fun s _ _ => quiet_sampleLoad s _ _
theorem quiet_doRelease (s : State) (g scope : Nat) : quiet s (doRelease s g scope) := by
  unfold doRelease
  dsimp only
  split
  · exact quiet_trans (quiet_sampleAllOwn s g) (quiet_writeBackAll _ _)
  · split
    · exact quiet_trans (quiet_sampleAllOwn s g) (quiet_writeBackReach _ _ _)
    · exact quiet_sampleAllOwn s g
theorem quiet_doAcquire (s : State) (g scope : Nat) : quiet s (doAcquire s g scope) := by
  unfold doAcquire
  split <;> exact ⟨rfl, rfl, rfl⟩
theorem quiet_atHome (s : State) (pa n : Nat) : quiet s (atHome s pa n) :=
  quiet_trans (quiet_sampleOwn s _ pa n) (quiet_trans (quiet_performWhere _ _) (quiet_trans (quiet_flushLine _ _ _) (quiet_settleLine _ _)))

end Sys2Proof.Machine
end

