-- ==== Sys2Proof/Laws/Frame.lean ====
section
/-! SUPPORT. Frame.lean (laws): inversion of the shared operations (what a meaning that answers can have done) and the frames of
register writes and of memory accesses, from which the frame statements are assembled. -/

namespace Sys2Proof.Machine

open Claim

variable {s t u : State}

/-! ### Register writes of Format A -/

/-- The part of laneFrame that speaks of the group. -/
def gFrame (us : List FieldUse) (ps gs ls : List Nat) (x y : Group) : Prop :=
  regsKept us x y ∧ predsKept ps gs x y ∧ latchesKept ls x y ∧ restKept x y

theorem gFrame_refl (us ps gs ls x) : gFrame us ps gs ls x x :=
  ⟨⟨fun _ _ _ _ => ⟨rfl, rfl⟩, fun _ _ => ⟨rfl, rfl⟩⟩, ⟨fun _ _ _ _ => rfl, fun _ _ => rfl⟩, fun _ _ _ _ => ⟨rfl, rfl⟩,
   rfl, by simp⟩
theorem gFrame_trans {us ps gs ls x y z} (h1 : gFrame us ps gs ls x y) (h2 : gFrame us ps gs ls y z) : gFrame us ps gs ls x z := by
  obtain ⟨⟨a1,a2⟩,⟨b1,b2⟩,c,d,e⟩ := h1
  obtain ⟨⟨a1',a2'⟩,⟨b1',b2'⟩,c',d',e'⟩ := h2
  refine ⟨⟨fun r t ht hr => ?_, fun r hr => ?_⟩, ⟨fun p t ht hp => (b1' p t ht hp).trans (b1 p t ht hp), fun p hp => (b2' p hp).trans (b2 p hp)⟩, fun l t ht hl => ?_, ?_, ?_⟩
  · exact ⟨((a1' r t ht hr).1).trans (a1 r t ht hr).1, ((a1' r t ht hr).2).trans (a1 r t ht hr).2⟩
  · exact ⟨((a2' r hr).1).trans (a2 r hr).1, ((a2' r hr).2).trans (a2 r hr).2⟩
  · exact ⟨((c' l t ht hl).1).trans (c l t ht hl).1, ((c' l t ht hl).2).trans (c l t ht hl).2⟩
  · rw [d', d]
  · rw [← e, ← BitVec.and_assoc, e']

theorem gFrame_setV (us ps gs ls) (x : Group) (r t v : Nat) (ht : t < 64) (h : namesV us r = true) : gFrame us ps gs ls x (setV x r t v) := by
  refine ⟨⟨fun r' t' ht' hr' => ?_, fun _ _ => ⟨rfl, rfl⟩⟩, ⟨fun _ _ _ _ => rfl, fun _ _ => rfl⟩, fun _ _ _ _ => ⟨rfl, rfl⟩, rfl, by simp [setV]⟩
  have : r * 64 + t ≠ r' * 64 + t' := by
    intro e
    have : r = r' := by omega
    subst this; rw [h] at hr'; cases hr'
  simp only [setV, readV]
  rw [spGet_spSet_ne _ _ _ _ _ this, spGet_spDel, if_neg this]
  exact ⟨rfl, rfl⟩
theorem gFrame_setK (us ps gs ls) (x : Group) (r v : Nat) (h : namesK us r = true) : gFrame us ps gs ls x (setK x r v) := by
  refine ⟨⟨fun _ _ _ _ => ⟨rfl, rfl⟩, fun r' hr' => ?_⟩, ⟨fun _ _ _ _ => rfl, fun _ _ => rfl⟩, fun _ _ _ _ => ⟨rfl, rfl⟩, rfl, by simp [setK]⟩
  have : r ≠ r' := by intro e; subst e; rw [h] at hr'; cases hr'
  simp only [setK, readK]
  rw [spGet_spSet_ne _ _ _ _ _ this, spGet_spDel, if_neg this]
  exact ⟨rfl, rfl⟩
theorem testBit_pow_ne (p q : Nat) (h : q ≠ p) (w : Nat) : (BitVec.ofNat w (2 ^ q)).getLsbD p = false := by
  rw [BitVec.getLsbD_ofNat, Nat.testBit_two_pow]
  simp [h]
theorem gFrame_setP (us ps gs ls) (x : Group) (p t : Nat) (v : Bool) (ht : t < 64) (h : p ∈ ps) : gFrame us ps gs ls x (setP x p t v) := by
  unfold setP
  split
  · exact gFrame_refl ..
  · refine ⟨⟨fun _ _ _ _ => ⟨rfl, rfl⟩, fun _ _ => ⟨rfl, rfl⟩⟩, ⟨fun p' t' ht' hp' => ?_, fun _ _ => rfl⟩, fun _ _ _ _ => ⟨rfl, rfl⟩, rfl, by simp⟩
    have : p ≠ p' := by intro e; subst e; simp [h] at hp'
    simp only [predP]
    rw [spGet_spSet_ne _ _ _ _ _ this]
theorem gFrame_setG (us ps gs ls) (x : Group) (p : Nat) (v : Bool) (h : p ∈ gs) : gFrame us ps gs ls x (setG x p v) := by
  unfold setG
  split
  · exact gFrame_refl ..
  · refine ⟨⟨fun _ _ _ _ => ⟨rfl, rfl⟩, fun _ _ => ⟨rfl, rfl⟩⟩, ⟨fun _ _ _ _ => rfl, fun p' hp' => ?_⟩, fun _ _ _ _ => ⟨rfl, rfl⟩, rfl, by simp⟩
    have : p ≠ p' := by intro e; subst e; simp [h] at hp'
    simp only [predG]
    cases v
    · simp only [Bool.false_eq_true, if_false, BitVec.getLsbD_and, BitVec.getLsbD_not, testBit_pow_ne _ _ this]
      by_cases h8 : p' < 8
      · simp [h8]
      · simp [BitVec.getLsbD_of_ge _ _ (Nat.le_of_not_lt h8)]
    · simp only [if_true, BitVec.getLsbD_or, testBit_pow_ne _ _ this, Bool.or_false]
theorem gFrame_setLatch (us ps gs ls) (x : Group) (l t v : Nat) (ht : t < 64) (h : l ∈ ls) : gFrame us ps gs ls x (setLatch x l t v) := by
  refine ⟨⟨fun _ _ _ _ => ⟨rfl, rfl⟩, fun _ _ => ⟨rfl, rfl⟩⟩, ⟨fun _ _ _ _ => rfl, fun _ _ => rfl⟩, fun l' t' ht' hl' => ?_, rfl, by simp [setLatch]⟩
  have hne : l ≠ l' := by intro e; subst e; simp [h] at hl'
  simp only [setLatch, readLatch, latchValid]
  rw [spGet_spSet_ne _ _ _ _ _ (by omega), spGet_spSet_ne _ _ _ _ _ hne]
  exact ⟨rfl, rfl⟩
theorem gFrame_setLatchAll (us ps gs ls) (x : Group) (l v : Nat) (h : l ∈ ls) : gFrame us ps gs ls x (setLatchAll x l v) := by
  refine ⟨⟨fun _ _ _ _ => ⟨rfl, rfl⟩, fun _ _ => ⟨rfl, rfl⟩⟩, ⟨fun _ _ _ _ => rfl, fun _ _ => rfl⟩, fun l' t' ht' hl' => ?_, rfl, by simp [setLatchAll]⟩
  have hne : l ≠ l' := by intro e; subst e; simp [h] at hl'
  simp only [setLatchAll, readLatch, latchValid]
  rw [spGet_spSet_ne _ _ _ _ _ hne]
  refine ⟨?_, rfl⟩
  have : ∀ (ts : List Nat) (m : List (Nat × DWord)), (∀ t ∈ ts, t < 64) →
      spGet 0 (ts.foldl (fun m t => spSet 0 m (l * 64 + t) (BitVec.ofNat 64 v)) m) (l' * 64 + t') = spGet 0 m (l' * 64 + t') := by
    intro ts
    induction ts with
    | nil => intro m _; rfl
    | cons a r ih =>
      intro m hm
      rw [List.foldl_cons, ih _ (fun t h => hm t (List.mem_cons_of_mem _ h))]
      have := hm a (List.mem_cons_self ..)
      rw [spGet_spSet_ne _ _ _ _ _ (by omega)]
  rw [this]
  intro t ht
  simpa [tids] using ht
theorem gFrame_latchRes (us ps gs ls) (x : Group) (h : Hdr) (ty t b : Nat) (ht : t < 64) (hl : h.l.toNat ∈ ls) :
    gFrame us ps gs ls x (latchRes x h ty t b) := by
  unfold latchRes
  split
  · exact gFrame_setLatchAll _ _ _ _ _ _ _ hl
  · exact gFrame_setLatch _ _ _ _ _ _ _ _ ht hl
/-- The field and its span at a type lie in us. -/
def inUs (us : List FieldUse) (f : BitVec 10) (ty : Nat) : Prop :=
  (f.toNat < 0x100 → namesV us f.toNat = true ∧ (tyWidth ty = 64 → namesV us (f.toNat + 1) = true))
  ∧ (0x100 ≤ f.toNat → f.toNat < 0x140 → namesK us (f.toNat - 0x100) = true)
theorem gFrame_setReg (us ps gs ls) (x : Group) (f : BitVec 10) (ty t b : Nat) (ht : t < 64) (h : inUs us f ty) :
    gFrame us ps gs ls x (setReg x f ty t b) := by
  unfold setReg
  dsimp only
  split
  · rename_i hv
    split
    · rename_i hw
      exact gFrame_trans (gFrame_setV _ _ _ _ _ _ _ _ ht (h.1 hv).1) (gFrame_setV _ _ _ _ _ _ _ _ ht ((h.1 hv).2 hw))
    · exact gFrame_setV _ _ _ _ _ _ _ _ ht (h.1 hv).1
  · rename_i hv
    split
    · rename_i hk
      exact gFrame_setK _ _ _ _ _ _ _ (h.2 (by omega) hk)
    · exact gFrame_refl ..
theorem gFrame_writeDest (us ps gs ls) (x : Group) (h : Hdr) (f : BitVec 10) (ty t b : Nat) (ht : t < 64) (hl : h.l.toNat ∈ ls)
    (hf : h.s = false → inUs us f ty) : gFrame us ps gs ls x (writeDest x h f ty t b) := by
  unfold writeDest
  dsimp only
  refine gFrame_trans (gFrame_latchRes _ _ _ _ x h ty t b ht hl) ?_
  split
  · exact gFrame_refl ..
  · rename_i hs
    exact gFrame_setReg _ _ _ _ _ _ _ _ _ ht (hf (by simpa using hs))
theorem gFrame_setPred (us ps gs ls) (x : Group) (g : Bool) (p t : Nat) (v : Bool) (ht : t < 64) (hp : g = false → p ∈ ps)
    (hg : g = true → p ∈ gs) : gFrame us ps gs ls x (setPred x g p t v) := by
  unfold setPred
  split
  · rename_i h; exact gFrame_setG _ _ _ _ _ _ _ (hg h)
  · rename_i h; exact gFrame_setP _ _ _ _ _ _ _ _ ht (hp (by simpa using h))
/-- What a result touches. -/
def resIn (us : List FieldUse) (ps gs ls : List Nat) (o : FmtA) (r : Res) : Prop :=
  o.h.l.toNat ∈ ls ∧ (o.h.s = false → r.pred = none → inUs us o.d r.ty)
  ∧ (∀ p ∈ predDestsP r.pred.isSome o, p ∈ ps) ∧ (∀ p ∈ predDestsG r.pred.isSome o, p ∈ gs)
theorem gFrame_putRes (us ps gs ls) (o : FmtA) (x : Group) (t : Nat) (r : Res) (ht : t < 64) (h : resIn us ps gs ls o r) :
    gFrame us ps gs ls x (putRes o x t r) := by
  obtain ⟨hl, hd, hp, hg⟩ := h
  unfold putRes
  split
  · exact gFrame_refl ..
  · dsimp only
    have hq (x : Group) : gFrame us ps gs ls x (match r.q with
      | some v => if WF.qv o = true then setPred x (WF.pdc o) (bitsNat (WF.fnv o) 30 28) t v else x
      | none => x) := by
      split
      · split
        · rename_i hqv
          refine gFrame_setPred _ _ _ _ _ _ _ _ _ ht (fun e => hp _ ?_) (fun e => hg _ ?_) <;> simp [predDestsP, predDestsG, predDests, hqv, e]
        · exact gFrame_refl ..
      · exact gFrame_refl ..
    refine gFrame_trans ?_ (hq _)
    split
    · rename_i v hv
      refine gFrame_trans (gFrame_latchRes _ _ _ _ x o.h 2 t (if v = true then 1 else 0) ht hl) ?_
      by_cases hs : o.h.s = true
      · rw [if_pos hs]; exact gFrame_refl ..
      · rw [if_neg hs]
        refine gFrame_setPred _ _ _ _ _ _ _ _ _ ht (fun e => hp _ ?_) (fun e => hg _ ?_) <;> simp [predDestsP, predDestsG, predDests, hv, hs, e]
    · rename_i hv
      exact gFrame_writeDest _ _ _ _ _ _ _ _ _ _ ht hl fun hs => hd hs hv
theorem gFrame_foldl {α} (us ps gs ls) (f : Group → α → Group) (l : List α) (x : Group) (h : ∀ x, ∀ a ∈ l, gFrame us ps gs ls x (f x a)) :
    gFrame us ps gs ls x (l.foldl f x) := by
  induction l generalizing x with
  | nil => exact gFrame_refl ..
  | cons a r ih => exact gFrame_trans (h x a (List.mem_cons_self ..)) (ih _ fun x b hb => h x b (List.mem_cons_of_mem _ hb))
theorem gFrame_orFstat (us ps gs ls) (x : Group) (f : Flags) : gFrame us ps gs ls x (orFstat x f) := by
  refine ⟨⟨fun _ _ _ _ => ⟨rfl, rfl⟩, fun _ _ => ⟨rfl, rfl⟩⟩, ⟨fun _ _ _ _ => rfl, fun _ _ => rfl⟩, fun _ _ _ _ => ⟨rfl, rfl⟩, rfl, ?_⟩
  simp only [orFstat]
  ext i hi
  simp only [BitVec.getElem_and, BitVec.getElem_or]
  cases x.fstat[i] <;> simp

theorem laneFrame_updMe (us ps gs ls) (s : State) (f : Group → Group) (h : gFrame us ps gs ls s.me (f s.me)) :
    laneFrame us ps gs ls s (s.updMe f) := by
  have hme : (s.updMe f).me = f s.me := by simp [State.me, State.updMe, State.updGrp]
  refine ⟨rfl, fun g hg => ?_, ?_⟩
  · simp only [State.updMe, State.updGrp, State.grp, State.setGrp_groups]
    rw [spFind_spPut_ne _ _ _ _ (Ne.symm hg)]
  · rw [hme]; exact ⟨h.1, h.2.1, h.2.2.1, h.2.2.2⟩
theorem laneFrame_refl (us ps gs ls) (s : State) : laneFrame us ps gs ls s s :=
  ⟨rfl, fun _ _ => rfl, (gFrame_refl us ps gs ls s.me).1, (gFrame_refl us ps gs ls s.me).2.1, (gFrame_refl us ps gs ls s.me).2.2.1, (gFrame_refl us ps gs ls s.me).2.2.2⟩
theorem laneFrame_trans (us ps gs ls) (s t u : State) (hc : t.cur = s.cur) (h1 : laneFrame us ps gs ls s t) (h2 : laneFrame us ps gs ls t u) : laneFrame us ps gs ls s u := by
  obtain ⟨a, b, c⟩ := h1
  obtain ⟨a', b', c'⟩ := h2
  refine ⟨by rw [a', a], fun g hg => (b' g (by rw [hc]; exact hg)).trans (b g hg), ?_⟩
  exact gFrame_trans c c'
theorem writeAll_frame (us ps gs ls) (o : Nat → FmtA) (rs : List (Nat × Res)) (s : State)
    (h : ∀ r ∈ rs, r.1 < 64 ∧ resIn us ps gs ls (o r.1) r.2) : laneFrame us ps gs ls s (writeAll o rs s) := by
  unfold writeAll
  refine laneFrame_updMe _ _ _ _ _ _ ?_
  exact gFrame_trans (gFrame_foldl _ _ _ _ _ _ _ fun x r hr => gFrame_putRes _ _ _ _ _ _ _ _ (h r hr).1 (h r hr).2) (gFrame_orFstat ..)


/-! ### Inversion -/

theorem need_inv {b : Bool} {t : Trap} {s u : State} {a : Unit} (h : need b t s = .ok (a, u)) : u = s := by
  cases b
  · cases h
  · cases h; rfl
theorem checkStale_inv {u fs ts s t a} (h : checkStale u fs ts s = .ok (a, t)) : t = s := need_inv h
theorem checkPoison_inv {u fs ts s t a} (h : checkPoison u fs ts s = .ok (a, t)) : t = s := need_inv h
theorem bind_inv {α β} {m : M α} {f : α → M β} {s t : State} {b : β} (h : (m >>= f) s = .ok (b, t)) : ∃ a u, m s = .ok (a, u) ∧ f a u = .ok (b, t) := by
  rw [M_bind] at h
  split at h
  · rename_i a u hu; exact ⟨a, u, hu, h⟩
  · cases h
theorem checkSources_inv {u fs ts s t a} (h : checkSources u fs ts s = .ok (a, t)) : t = s := by
  obtain ⟨_, _, h1, h2⟩ := bind_inv h
  rw [checkPoison_inv h2, checkStale_inv h1]
/-- The instruction completed as R says, or it waits. -/
def done (R : State → State → Prop) (s t : State) : Prop := t.cur.out = .stalled ∨ R s t
theorem frame_done (i : Instr) (s : State) (m : M Unit) (R : State → State → Prop) (he : exec i s = finish m s) (hr : R s s)
    (h : ∀ t, m s = .ok ((), t) → done R s t) : frame i s R := by
  intro t ho ht hd
  rw [he] at ht
  unfold finish at ht
  split at ht
  · rename_i t' h'
    cases ht
    rcases h _ h' with h | h
    · rw [hd] at h; cases h
    · exact h
  · cases ht; cases hd
  · cases ht; cases hd
  · cases ht; exact hr

/-- As frame_done, for a meaning that never waits. -/
theorem frame_finish (i : Instr) (s : State) (m : M Unit) (R : State → State → Prop) (he : exec i s = finish m s) (hr : R s s)
    (h : ∀ t, m s = .ok ((), t) → R s t) : frame i s R :=
  frame_done i s m R he hr fun t ht => .inr (h t ht)

theorem putAll_inv {u o rs s t a} (h : putAll u o rs s = .ok (a, t)) : t = writeAll o rs s := by
  unfold putAll at h
  simp only [M_get_bind] at h
  obtain ⟨_, _, h1, h2⟩ := bind_inv h
  cases need_inv h1
  cases h2; rfl
theorem runA_inv {op o f s t a} (h : runA op o f s = .ok (a, t)) : t = writeAll (fun _ => o) ((runners s o.h).map fun i => (i, f s i)) s := by
  unfold runA at h
  simp only [M_get_bind] at h
  obtain ⟨_, _, h1, h2⟩ := bind_inv h
  cases checkSources_inv h1
  exact putAll_inv h2
theorem runners_lt {s h t} (ht : t ∈ runners s h) : t < 64 := by
  unfold runners at ht
  split at ht
  · split at ht
    · simp at ht; omega
    · cases ht
  · simp [participants, tids] at ht; exact ht.1
theorem inUs_use1 (f : BitVec 10) (ty : Nat) (h : tyWidth ty ≠ 64) : inUs (use1 f) f ty := by
  refine ⟨fun hv => ⟨?_, fun e => absurd e h⟩, fun h1 h2 => ?_⟩
  · simp [namesV, use1, WF.isV, hv]
  · simp [namesK, use1, WF.isK, h1, h2]
theorem inUs_use2 (f : BitVec 10) (ty : Nat) : inUs (use2 f) f ty := by
  refine ⟨fun hv => ?_, fun h1 h2 => ?_⟩
  · simp [namesV, use2, WF.isV, hv]
  · have : ¬ f.toNat < 256 := by omega
    simp [namesK, use2, WF.isK, WF.isV, h1, h2, this]
theorem inUs_useTy (f : BitVec 10) (ty : Nat) : inUs (useTy ty f) f ty := by
  unfold useTy
  split
  · exact inUs_use2 f ty
  · rename_i h; exact inUs_use1 f ty h
theorem resIn_self (us : List FieldUse) (o : FmtA) (r : Res) (d : Bool) (hd : r.pred.isSome = d)
    (h : o.h.s = false → r.pred = none → inUs us o.d r.ty) :
    resIn (if o.h.s then [] else us) (predDestsP d o) (predDestsG d o) [o.h.l.toNat] o r := by
  subst hd
  refine ⟨by simp, fun hs hp => ?_, fun _ h => h, fun _ h => h⟩
  simp only [hs, Bool.false_eq_true, if_false]
  exact h hs hp
theorem runA_frame (i : Instr) (op : Nat) (o : FmtA) (f : State → Nat → Res) (us) (d : Bool) (s : State) (he : exec i s = finish (runA op o f) s)
    (hd : ∀ t, (f s t).pred.isSome = d)
    (h : ∀ t, o.h.s = false → (f s t).pred = none → inUs us o.d (f s t).ty) :
    frame i s (laneFrame (if o.h.s then [] else us) (predDestsP d o) (predDestsG d o) [o.h.l.toNat]) := by
  refine frame_finish _ _ _ _ he (laneFrame_refl ..) fun t ht => ?_
  rw [runA_inv ht]
  refine writeAll_frame _ _ _ _ _ _ _ ?_
  simp only [List.mem_map]
  rintro r ⟨t, ht, rfl⟩
  exact ⟨runners_lt ht, resIn_self _ _ _ _ (hd t) (h t)⟩
theorem d_ty (op : Nat) (o : FmtA) (e : WF.AEnt) (h1 : op ≠ 0x33) (h2 : op ≠ 0x44) (he : WF.aEnt op = some e) (hd : e.d = .ty) (hs : o.h.s = false) :
    destA op o = useTy o.h.t.toNat o.d := by
  simp [destA, h1, h2, he, hd, unlessS, hs]
theorem d_raw (op : Nat) (o : FmtA) (e : WF.AEnt) (h1 : op ≠ 0x33) (h2 : op ≠ 0x44) (he : WF.aEnt op = some e) (hd : e.d = .raw) (hs : o.h.s = false) :
    destA op o = use1 o.d := by
  simp [destA, h1, h2, he, hd, unlessS, hs]

theorem writeAll_lane (us : List FieldUse) (d : Bool) (o : FmtA) (s : State) (ts : List Nat) (f : Nat → Res) (ht : ∀ t ∈ ts, t < 64)
    (hd : ∀ t, (f t).pred.isSome = d) (h : ∀ t, o.h.s = false → (f t).pred = none → inUs us o.d (f t).ty) :
    laneFrame (if o.h.s then [] else us) (predDestsP d o) (predDestsG d o) [o.h.l.toNat] s (writeAll (fun _ => o) (ts.map fun t => (t, f t)) s) := by
  refine writeAll_frame _ _ _ _ _ _ _ ?_
  simp only [List.mem_map]
  rintro r ⟨t, h1, rfl⟩
  exact ⟨ht t h1, resIn_self _ _ _ _ (hd t) (h t)⟩
theorem in_ty (op : Nat) (o : FmtA) (e : WF.AEnt) (h1 : op ≠ 0x33) (h2 : op ≠ 0x44) (he : WF.aEnt op = some e) (hd : e.d = .ty) (hs : o.h.s = false) :
    inUs (destA op o) o.d o.h.t.toNat := by
  rw [d_ty op o e h1 h2 he hd hs]; exact inUs_useTy _ _
theorem in_raw (op ty : Nat) (o : FmtA) (e : WF.AEnt) (h1 : op ≠ 0x33) (h2 : op ≠ 0x44) (he : WF.aEnt op = some e) (hd : e.d = .raw) (hs : o.h.s = false) (ht : tyWidth ty ≠ 64) :
    inUs (destA op o) o.d ty := by
  rw [d_raw op o e h1 h2 he hd hs]; exact inUs_use1 _ _ ht
theorem setPreds_frame (us ls) (o : FmtA) (x : Group) (t mask a : Nat) (ht : t < 64) :
    gFrame us (if !o.h.u then (List.range 7).filter fun p => mask.testBit p else []) (if o.h.u then (List.range 7).filter fun p => mask.testBit p else []) ls x (setPreds o.h.u x t mask a) := by
  unfold setPreds
  refine gFrame_foldl _ _ _ _ _ _ _ fun x i hi => ?_
  by_cases hm : mask.testBit i = true
  · rw [if_pos hm]
    refine gFrame_setPred _ _ _ _ _ _ _ _ _ ht (fun e => ?_) (fun e => ?_)
    · simp only [e, Bool.not_false, if_true, List.mem_filter]; exact ⟨hi, hm⟩
    · simp only [e, if_true, List.mem_filter]; exact ⟨hi, hm⟩
  · rw [if_neg hm]; exact gFrame_refl ..
theorem gFrame_mono {us ps gs ls us' ps' gs' ls' x y} (h : gFrame us ps gs ls x y) (h1 : ∀ r, namesV us r = true → namesV us' r = true)
    (h1' : ∀ r, namesK us r = true → namesK us' r = true) (h2 : ∀ p ∈ ps, p ∈ ps') (h3 : ∀ p ∈ gs, p ∈ gs') (h4 : ∀ p ∈ ls, p ∈ ls') :
    gFrame us' ps' gs' ls' x y := by
  obtain ⟨⟨a1,a2⟩,⟨b1,b2⟩,c,d⟩ := h
  refine ⟨⟨fun r t ht hr => a1 r t ht ?_, fun r hr => a2 r ?_⟩, ⟨fun p t ht hp => b1 p t ht ?_, fun p hp => b2 p ?_⟩, fun l t ht hl => c l t ht ?_, d⟩
  · cases h : namesV us r; rfl; rw [h1 r h] at hr; cases hr
  · cases h : namesK us r; rfl; rw [h1' r h] at hr; cases hr
  · have : p ∉ ps' := by simpa using hp
    simp only [List.contains_eq_mem, decide_eq_false_iff_not]; exact fun e => this (h2 p e)
  · have : p ∉ gs' := by simpa using hp
    simp only [List.contains_eq_mem, decide_eq_false_iff_not]; exact fun e => this (h3 p e)
  · have : l ∉ ls' := by simpa using hl
    simp only [List.contains_eq_mem, decide_eq_false_iff_not]; exact fun e => this (h4 l e)
theorem namesV_flat {α} (l : List α) (f : α → List FieldUse) (r : Nat) (a : α) (ha : a ∈ l) (h : namesV (f a) r = true) : namesV (l.flatMap f) r = true := by
  simp only [namesV, List.any_eq_true, List.mem_flatMap] at h ⊢
  obtain ⟨x, hx, hy⟩ := h
  exact ⟨x, ⟨a, ha, hx⟩, hy⟩
theorem namesK_flat {α} (l : List α) (f : α → List FieldUse) (r : Nat) (a : α) (ha : a ∈ l) (h : namesK (f a) r = true) : namesK (l.flatMap f) r = true := by
  simp only [namesK, List.any_eq_true, List.mem_flatMap] at h ⊢
  obtain ⟨x, hx, hy⟩ := h
  exact ⟨x, ⟨a, ha, hx⟩, hy⟩
theorem checkCollective_inv {op o ts s t a} (h : checkCollective op o ts s = .ok (a, t)) : t = s := by
  unfold checkCollective at h
  simp only [M_get_bind] at h
  obtain ⟨_, _, h1, h2⟩ := bind_inv h
  rw [need_inv h2, need_inv h1]
theorem putCollective_inv {o rs s t a} (h : putCollective o rs s = .ok (a, t)) : t = writeAll (copyA s o) rs s := by
  unfold putCollective at h
  simp only [M_get_bind] at h
  exact putAll_inv h
theorem part_lt {s h t} (ht : t ∈ participants s h) : t < 64 := by
  simp [participants, tids] at ht; exact ht.1
theorem coll_write (op : Nat) (o : FmtA) (s : State) (f : Nat → Res) (d : Bool) (gs : List Nat)
    (hd : ∀ t, (f t).pred.isSome = d)
    (h : ∀ t ∈ participants s o.h, (copyA s o t).h.s = false → (f t).pred = none → inUs (destA op (copyA s o t)) (copyA s o t).d (f t).ty) :
    let ts := participants s o.h
    laneFrame (ts.flatMap fun t => destA op (copyA s o t)) (ts.flatMap fun t => predDestsP d (copyA s o t))
           ((ts.flatMap fun t => predDestsG d (copyA s o t)) ++ gs)
           (ts.map fun t => (copyA s o t).h.l.toNat) s (writeAll (copyA s o) (ts.map fun t => (t, f t)) s) := by
  intro ts
  refine writeAll_frame _ _ _ _ _ _ _ ?_
  simp only [List.mem_map]
  rintro r ⟨t, h1, rfl⟩
  refine ⟨part_lt h1, ?_, fun hs hp => ?_, fun p hp => ?_, fun p hp => ?_⟩
  · exact List.mem_map_of_mem h1
  · have := h t h1 hs hp
    exact ⟨fun hv => ⟨namesV_flat _ _ _ t h1 (this.1 hv).1, fun hw => namesV_flat _ _ _ t h1 ((this.1 hv).2 hw)⟩,
      fun h2 h3 => namesK_flat _ _ _ t h1 (this.2 h2 h3)⟩
  · dsimp only at hp; rw [hd] at hp; exact List.mem_flatMap.2 ⟨t, h1, hp⟩
  · dsimp only at hp; rw [hd] at hp; exact List.mem_append_left _ (List.mem_flatMap.2 ⟨t, h1, hp⟩)

theorem runCollective_inv {op o f s t a} (h : runCollective op o f s = .ok (a, t)) :
    t = writeAll (copyA s o) ((participants s o.h).map fun i => (i, f s (participants s o.h) i)) s := by
  unfold runCollective at h
  simp only [M_get_bind] at h
  obtain ⟨_, _, h1, h2⟩ := bind_inv h
  cases checkCollective_inv h1
  exact putCollective_inv h2

theorem coll_frame (i : Instr) (op : Nat) (o : FmtA) (f : State → List Nat → Nat → Res) (s : State) (d : Bool) (hop : d = false)
    (he : exec i s = finish (runCollective op o f) s) (hd : ∀ ts t, (f s ts t).pred.isSome = false) (gs)
    (h : ∀ ts, ∀ t ∈ participants s o.h, (copyA s o t).h.s = false → inUs (destA op (copyA s o t)) (copyA s o t).d (f s ts t).ty) :
    let ts := participants s o.h
    frame i s (laneFrame (ts.flatMap fun t => destA op (copyA s o t)) (ts.flatMap fun t => predDestsP d (copyA s o t))
           ((ts.flatMap fun t => predDestsG d (copyA s o t)) ++ gs) (ts.map fun t => (copyA s o t).h.l.toNat)) := by
  subst hop
  intro ts
  refine frame_finish _ _ _ _ he (laneFrame_refl ..) fun t ht => ?_
  rw [runCollective_inv ht]
  exact coll_write op o s _ false gs (fun t => hd _ t) fun t h1 hs _ => h _ t h1 hs

/-! ### Memory accesses -/

/-- Outside the bytes that p and q select, memory and scratchpads are unchanged, and so are the registers of every group. -/
def eff (p q : Nat → Bool) (b : Nat) (s t : State) : Prop :=
  (∀ a, p a = false → byteKept a s t) ∧ spKept b q s t ∧ (∀ g, sameFile (s.grp g) (t.grp g)) ∧ t.cur = s.cur
  ∧ ∀ g, (t.grp g).block = (s.grp g).block
theorem eff_refl (p q b) (s : State) : eff p q b s s :=
  ⟨fun a _ => byteKept_refl a s, fun _ _ => .inr rfl, fun _ => sameFile_refl _, rfl, fun _ => rfl⟩
theorem eff_trans {p q b} (h1 : eff p q b s t) (h2 : eff p q b t u) : eff p q b s u := by
  refine ⟨fun a ha => byteKept_trans (h1.1 a ha) (h2.1 a ha), fun k a => ?_, fun g => sameFile_trans (h1.2.2.1 g) (h2.2.2.1 g),
    h2.2.2.2.1.trans h1.2.2.2.1, fun g => (h2.2.2.2.2 g).trans (h1.2.2.2.2 g)⟩
  rcases h1.2.1 k a with h | h
  · exact .inl h
  · rcases h2.2.1 k a with h' | h'
    · exact .inl h'
    · exact .inr (h'.trans h)
theorem eff_of (p q b) (hb : ∀ a, p a = false → byteKept a s t) (hf : filesAll s t) : eff p q b s t :=
  ⟨hb, fun k a => .inr (by rw [hf.2.2.2 k]), hf.1, hf.2.1, hf.2.2.1⟩
theorem eff_foldl {α} (p q b) (f : State → α → State) (l : List α) (s : State) (h : ∀ t, eff p q b s t → ∀ x ∈ l, eff p q b t (f t x)) :
    eff p q b s (l.foldl f s) := by
  have : ∀ (l' : List α) (t : State), (∀ x ∈ l', x ∈ l) → eff p q b s t → eff p q b s (l'.foldl f t) := by
    intro l'
    induction l' with
    | nil => intro t _ h; exact h
    | cons x r ih => intro t hx ht; exact ih _ (fun y hy => hx y (List.mem_cons_of_mem _ hy)) (eff_trans ht (h t ht x (hx x (List.mem_cons_self ..))))
  exact this l s (fun _ h => h) (eff_refl ..)
theorem eff_access {o n ps us qs gs} (h : eff (storedGl o n ps) (storedSp o n ps) s.me.block s t) : accessFrame o n ps us qs gs s t := by
  have hc := h.2.2.2.1
  have hm : sameFile s.me t.me := by unfold State.me; rw [hc]; exact h.2.2.1 _
  obtain ⟨m1, m2, m3, m4, m5, m6, m7, m8⟩ := hm
  refine ⟨h.1, h.2.1, fun g _ => h.2.2.1 g, ⟨fun r t _ _ => ?_, fun r _ => ?_⟩, ⟨fun p t _ _ => ?_, fun p _ => ?_⟩, m5, m6⟩
  · simp only [readV, m1, m7, and_self]
  · simp only [readK, m2, m8, and_self]
  · simp only [predP, m3]
  · simp only [predG, m4]

/-! release / acquire -/
theorem eff_doRelease (p q b s g sc) : eff p q b s (doRelease s g sc) := eff_of _ _ _ (fun a _ => byteKept_doRelease s g sc) (quiet_files (quiet_doRelease s g sc))
theorem eff_doAcquire (p q b s g sc) : eff p q b s (doAcquire s g sc) := eff_of _ _ _ (fun a _ => byteKept_doAcquire s g sc) (quiet_files (quiet_doAcquire s g sc))
theorem eff_sampleAllOwn (p q b s g) : eff p q b s (sampleAllOwn s g) := eff_of _ _ _ (fun a _ => byteKept_sampleAllOwn s g) (quiet_files (quiet_sampleAllOwn s g))
theorem eff_sampleOwn (p q b s g pa n) : eff p q b s (sampleOwn s g pa n) := eff_of _ _ _ (fun a _ => byteKept_sampleOwn s g pa n) (quiet_files (quiet_sampleOwn s g pa n))
theorem eff_sampleLoad (p q b s k f) : eff p q b s (sampleLoad s k f) := eff_of _ _ _ (fun a _ => byteKept_sampleLoad s k f) (quiet_files (quiet_sampleLoad s k f))
theorem eff_writeBackAll (p q b s ck) : eff p q b s (writeBackAll s ck) := eff_of _ _ _ (fun a _ => byteKept_writeBackAll s ck) (quiet_files (quiet_writeBackAll s ck))
theorem eff_writeBack (p q b s ck l) : eff p q b s (writeBack s ck l) := eff_of _ _ _ (fun a _ => byteKept_writeBack s ck l) (quiet_files (quiet_writeBack s ck l))
theorem eff_flushLine (p q b s ck l) : eff p q b s (flushLine s ck l) := eff_of _ _ _ (fun a _ => byteKept_flushLine s ck l) (quiet_files (quiet_flushLine s ck l))
theorem eff_performWhere (p q b s f) : eff p q b s (performWhere s f) := eff_of _ _ _ (fun a _ => byteKept_performWhere s f) (quiet_files (quiet_performWhere s f))
theorem eff_atHome (p q b s pa n) : eff p q b s (atHome s pa n) := eff_of _ _ _ (fun a _ => byteKept_atHome s pa n) (quiet_files (quiet_atHome s pa n))
theorem eff_flushWelts (p q b s pa n) : eff p q b s (flushWelts s pa n) := eff_of _ _ _ (fun a _ => byteKept_flushWelts s pa n) (quiet_files (quiet_flushWelts s pa n))
theorem eff_homeWrite (p q b s pa) (bs : List Byte) (h : ∀ a, pa ≤ a → a < pa + bs.length → p a = true) : eff p q b s (homeWrite s pa bs) :=
  eff_of _ _ _ (fun a ha => byteKept_homeWrite s pa bs fun hx => by rw [h a hx.1 hx.2] at ha; cases ha) (quiet_files (quiet_homeWrite s pa bs))
theorem eff_homeWriteNat (p q b s pa n v) (h : ∀ a, pa ≤ a → a < pa + n → p a = true) : eff p q b s (homeWriteNat s pa n v) :=
  eff_homeWrite _ _ _ _ _ _ (by rw [size_natBytes]; exact h)
theorem eff_same (p q b) (h : sameHw s t) (hf : filesAll s t) : eff p q b s t := eff_of _ _ _ (fun _ _ => byteKept_same h) hf
theorem eff_misc (p q b) (h1 : t.mem = s.mem) (h2 : t.cores = s.cores) (h3 : t.replicas = s.replicas) (h4 : t.posted = s.posted) (h5 : t.welts = s.welts)
    (g1 : t.groups = s.groups) (g2 : t.cur = s.cur) (g3 : t.blocks = s.blocks) : eff p q b s t :=
  eff_same _ _ _ ⟨h1, fun e he => by unfold l1Entry at he ⊢; rw [← h2]; exact he, h3, h4, h5⟩ (filesAll_same g1 g2 g3)

/-! loads -/
theorem eff_group (p q b) (s : State) (g : Nat) (f : Group → Group) (h : sameFile (s.grp g) (f (s.grp g)))
    (hb : (f (s.grp g)).block = (s.grp g).block) : eff p q b s (s.updGrp g f) :=
  eff_same _ _ _ ⟨rfl, fun _ h => h, rfl, rfl, rfl⟩ (filesAll_updGrp s g f h hb)
/-- A held instruction's results are of threads 0 to 63. -/
theorem heldGot_lt (s : State) : ∀ r ∈ heldGot s, r.1 < 64 := by
  unfold heldGot
  split
  · split
    · intro r hr; simpa using (List.mem_filter.mp hr).2
    · simp
  · simp
theorem heldRest_mem {s : State} {ps : List (Place × Part)} {x : Place × Part} (h : x ∈ heldRest s ps) : x ∈ ps := List.mem_of_mem_filter h
theorem eff_holdNone (p q b) (s : State) : eff p q b s (holdNone s) := eff_group _ _ _ s s.cur.g _ ⟨rfl, rfl, rfl, rfl, rfl, rfl, rfl, rfl⟩ rfl
theorem eff_holdAt (p q b) (got) (s : State) : eff p q b s (holdAt got s) := eff_group _ _ _ s s.cur.g _ ⟨rfl, rfl, rfl, rfl, rfl, rfl, rfl, rfl⟩ rfl
theorem eff_ite {p q b} {c : Bool} (h : c = true → eff p q b s t) : eff p q b s (if c then t else s) := by
  split
  · rename_i hc; exact h hc
  · exact eff_refl ..
theorem eff_startLoad (p q b o w n ps s) : eff p q b s (startLoad o w n ps s) := by
  unfold startLoad
  dsimp only
  have h1 : eff p q b s (if o.space.toNat = 1 then s else ps.foldl (fun s p => sampleOwn s s.cur.g p.1.pa n) s) := by
    split
    · exact eff_refl ..
    · exact eff_foldl _ _ _ _ _ _ fun t _ x _ => eff_sampleOwn ..
  have h1 : eff p q b s (if o.space.toNat = 1 then s else ps.foldl (fun s' p => sampleOwn s' s.cur.g p.1.pa n) s) := by
    split
    · exact eff_refl ..
    · exact eff_foldl _ _ _ _ _ _ fun t _ x _ => eff_sampleOwn ..
  generalize (if o.space.toNat = 1 then s else ps.foldl (fun s' p => sampleOwn s' s.cur.g p.1.pa n) s) = v at h1
  refine eff_trans h1 ?_
  have h2 (k : Nat) (l : Load) : eff p q b v (holdNone { v with loads := spPut v.loads k l }) :=
    eff_trans (t := { v with loads := spPut v.loads k l }) (eff_misc _ _ _ rfl rfl rfl rfl rfl rfl rfl rfl) (eff_holdNone ..)
  split
  · exact eff_trans (h2 _ _) (eff_trans (eff_sampleAllOwn ..) (eff_trans (eff_sampleLoad ..) (eff_doAcquire ..)))
  · split
    · exact eff_trans (h2 _ _) (eff_sampleLoad ..)
    · exact h2 _ _
theorem blockHere_inv {w s t} {a : Unit} (h : blockHere w s = .ok (a, t)) : t.cur.out = .stalled := by
  unfold blockHere at h
  rw [M_upd] at h
  cases h; rfl
theorem raiseCopyWait_inv {k s t a} (h : raiseCopyWait k s = .ok (a, t)) : t = s := by
  unfold raiseCopyWait at h
  simp only [M_get_bind] at h
  cases hc : copyWaitTrap s s.cur.g k with
  | some t => rw [hc] at h; cases h
  | none => rw [hc] at h; cases h; rfl
theorem waitFull_inv {l s t} {a : Unit} (h : waitFull l s = .ok (a, t)) : t.cur.out = .stalled ∨ t = s := by
  unfold waitFull at h
  simp only [M_get_bind] at h
  cases hc : spFind (s.blk s.me.block).empty l with
  | none => rw [hc] at h; cases h; exact .inr rfl
  | some k =>
    rw [hc] at h
    dsimp only at h
    have key : ∀ u, (if farPromise s s.me.block l && !s.grpPavane s.cur.g then blockHere (.fullEmpty l) else upd stalled) u = .ok (a, t) → t.cur.out = .stalled := by
      intro u h
      split at h
      · exact blockHere_inv h
      · rw [M_upd] at h; cases h; rfl
    split at h
    · obtain ⟨_, u, h1, h2⟩ := bind_inv h
      exact .inl (key _ h2)
    · cases hx : stageTrap s s.me.block l with
      | some t => rw [hx] at h; dsimp only at h; obtain ⟨_, u, h1, h2⟩ := bind_inv h; cases h1
      | none => rw [hx] at h; exact .inl (key _ h)
theorem needReads_inv {s t a} (h : needReads s = .ok (a, t)) : t = s := by
  unfold needReads at h
  simp only [M_get_bind] at h
  split at h <;> cases h
  rfl
theorem ifM_inv {β : Type} {c : Prop} [Decidable c] {m : M Unit} {f : M β} {s t : State} {a : β}
    (h : (if c then (m >>= fun _ => f) else f) s = .ok (a, t)) (hm : ∀ {v : State} {x : Unit}, m s = .ok (x, v) → v = s) : f s = .ok (a, t) := by
  split at h
  · obtain ⟨_, u, h1, h2⟩ := bind_inv h
    cases hm h1; exact h2
  · exact h
theorem loadBanks_inv {o ps s t a} (h : loadBanks o ps s = .ok (a, t)) : t = s := by
  unfold loadBanks at h
  simp only [M_get_bind] at h
  have h := ifM_inv h needReads_inv
  split at h <;> cases h
  rfl
theorem loadBody_inv {o w n ps s t} {a : Unit} (p q b) (h : loadBody o w n ps s = .ok (a, t)) : done (eff p q b) s t := by
  unfold loadBody at h
  simp only [M_get_bind] at h
  cases hc : (if o.space.toNat = 1 then (beforeEmpty s (heldRest s ps)).2 else none) with
  | some l =>
    rw [hc] at h
    obtain ⟨_, u, h1, h⟩ := bind_inv h
    rw [M_upd] at h1; cases h1
    exact (waitFull_inv h).imp id fun e => by rw [e]; exact eff_holdAt ..
  | none =>
    rw [hc] at h
    dsimp only at h
    split at h
    · cases h; exact .inr (eff_refl ..)
    · obtain ⟨_, u, h1, h⟩ := bind_inv h
      cases loadBanks_inv h1
      cases h; exact .inr (eff_startLoad ..)
theorem queueTrap_eff (p q b s k g r) : eff p q b s (queueTrap s k g r) := eff_misc _ _ _ rfl rfl rfl rfl rfl rfl rfl rfl
theorem deferAccess_inv {i tr parts s t} {a : Unit} (p q b) (h : deferAccess i tr parts s = .ok (a, t)) : done (eff p q b) s t := by
  unfold deferAccess at h
  simp only [M_get_bind] at h
  split at h
  · cases h
  · split at h
    · exact .inl (blockHere_inv h)
    · cases h
      refine .inr (eff_trans (t := { s with oplog := _ }) ?_ (queueTrap_eff ..))
      exact eff_misc _ _ _ rfl rfl rfl rfl rfl rfl rfl rfl
theorem checkAccess_inv {o} {f : Nat → Int} {ts : List Nat} {n al nd s t r} (h : checkAccess o (ts.map fun t => (t, f t)) n al nd s = .ok (r, t)) :
    t = s ∧ ∀ ps, r = .ok ps → ps = ts.filterMap fun t =>
      match physical s o nd (f t).toNat with
      | .ok pa prom => some { tid := t, ea := (f t).toNat, pa := pa, prom := prom }
      | .bad _ => none := by
  unfold checkAccess at h
  simp only [M_get_bind] at h
  obtain ⟨_, _, h1, h⟩ := bind_inv h; cases need_inv h1
  obtain ⟨_, _, h1, h⟩ := bind_inv h; cases need_inv h1
  obtain ⟨_, _, h1, h⟩ := bind_inv h; cases need_inv h1
  obtain ⟨_, _, h1, h⟩ := bind_inv h; cases need_inv h1
  split at h
  · cases h
    exact ⟨rfl, fun ps e => by cases e⟩
  · cases h
    refine ⟨rfl, fun ps e => ?_⟩
    cases e
    simp only [List.filterMap_map]
    rfl
theorem runM_inv {i o ix data n al nd extra mk body s t} {a : Unit} (p q b) (hx : ∀ ps s t a, extra ps s = .ok (a, t) → t = s)
    (h : runM i o ix data n al nd extra mk body s = .ok (a, t)) :
    done (eff p q b) s t ∨ body (placed o ix nd mk s) s = .ok (a, t) := by
  unfold runM at h
  simp only [M_get_bind] at h
  obtain ⟨_, _, h1, h⟩ := bind_inv h; cases checkStale_inv h1
  obtain ⟨r, _, h1, h⟩ := bind_inv h
  obtain ⟨h2, h3⟩ := checkAccess_inv h1
  subst h2
  split at h
  · exact .inl (deferAccess_inv _ _ _ h)
  · rename_i ps
    obtain ⟨_, _, h4, h⟩ := bind_inv h
    cases hx _ _ _ _ h4
    obtain ⟨_, _, h4, h⟩ := bind_inv h; cases checkPoison_inv h4
    right
    have := h3 ps rfl
    subst this
    convert h using 2
    simp only [List.map_filterMap, placed]
    congr 1
    funext t
    split <;> simp_all

/-! ### Tracks, waits and traps do not touch memory -/

/-- Home memory, caches, replicas, writes on their way and welt entries are as they were. -/
def mem5 (s t : State) : Prop :=
  t.mem = s.mem ∧ t.cores = s.cores ∧ t.replicas = s.replicas ∧ t.posted = s.posted ∧ t.welts = s.welts
theorem mem5_refl (s : State) : mem5 s s := ⟨rfl, rfl, rfl, rfl, rfl⟩
theorem mem5_trans (h1 : mem5 s t) (h2 : mem5 t u) : mem5 s u :=
  ⟨h2.1.trans h1.1, h2.2.1.trans h1.2.1, h2.2.2.1.trans h1.2.2.1, h2.2.2.2.1.trans h1.2.2.2.1, h2.2.2.2.2.trans h1.2.2.2.2⟩
theorem mem5_hw (h : mem5 s t) : sameHw s t :=
  ⟨h.1, fun e he => by unfold l1Entry at he ⊢; rw [← h.2.1]; exact he, h.2.2.1, h.2.2.2.1, h.2.2.2.2⟩
theorem mem5_foldl {α : Type} (f : State → α → State) (l : List α) (s : State) (h : ∀ s, ∀ x ∈ l, mem5 s (f s x)) :
    mem5 s (l.foldl f s) := by
  induction l generalizing s with
  | nil => exact mem5_refl s
  | cons x r ih => exact mem5_trans (h s x (List.mem_cons_self ..)) (ih _ fun s y hy => h s y (List.mem_cons_of_mem _ hy))
theorem mem5_fillTracks (core half k : Nat) (s : State) : mem5 s (fillTracks s core half k) := by
  induction k generalizing s with
  | zero => exact mem5_refl s
  | succ k ih =>
    unfold fillTracks
    split
    · exact mem5_trans (mem5_refl s) (ih _)
    · exact mem5_refl s
theorem mem5_fillCore (s : State) (core : Nat) : mem5 s (fillCore s core) :=
  mem5_trans (mem5_fillTracks core 0 8 s) (mem5_fillTracks core 1 8 _)
theorem mem5_leaveTrack (s : State) (g : Nat) : mem5 s (leaveTrack s g) := by
  unfold leaveTrack
  split
  · exact mem5_refl s
  · split
    · exact mem5_refl s
    · exact mem5_trans (mem5_refl s) (mem5_fillCore _ _)
theorem mem5_blockOn (s : State) (g : Nat) (w : Wait) : mem5 s (blockOn s g w) := mem5_trans (mem5_refl s) (mem5_leaveTrack _ g)
theorem mem5_makeReady (s : State) (g : Nat) : mem5 s (makeReady s g) := mem5_trans (mem5_refl s) (mem5_fillCore _ _)
theorem mem5_sendOn (s : State) (sid kind flags : Nat) (p : List Byte) : mem5 s (sendOn s sid kind flags p) := by
  unfold sendOn
  split
  · exact mem5_refl s
  · exact mem5_refl s
theorem mem5_sendEvent (s : State) (e : EventRec) : mem5 s (sendEvent s e) := by
  unfold sendEvent
  dsimp only
  split
  · exact mem5_refl s
  · exact mem5_foldl _ _ _ fun s _ _ => mem5_sendOn s _ _ _ _
theorem mem5_machineCheck (s : State) (d : Nat) : mem5 s (machineCheck s d) := by
  unfold machineCheck
  split
  · exact mem5_refl s
  · dsimp only
    unfold mem5
    dsimp only
    refine mem5_trans (t := List.foldl _ _ _) ?_ (mem5_foldl _ _ _ fun s q _ => ⟨rfl, rfl, rfl, rfl, rfl⟩)
    exact mem5_trans (t := s.updDie d _) ⟨rfl, rfl, rfl, rfl, rfl⟩ (mem5_foldl _ _ _ fun s e _ => ⟨rfl, rfl, rfl, rfl, rfl⟩)
theorem mem5_raiseAt (s : State) (g off : Nat) (t : Trap) : mem5 s (raiseAt s g off t) := by
  unfold raiseAt
  split
  · exact mem5_machineCheck s _
  · dsimp only
    split
    · exact mem5_refl s
    · refine mem5_trans ?_ (mem5_leaveTrack _ g)
      have h2 (u : State) : mem5 u (match t.stage with
          | some j => { u with stages := u.stages.map fun e => if e.1 = j then (e.1, { e.2 with told := true }) else e }
          | none => u) := by
        cases t.stage <;> exact mem5_refl u
      have h3 (u : State) : mem5 u (if t.cause ≠ 0x12 then u else
          { u with copies := u.copies.map fun e =>
              if e.2.token = t.tok && e.2.g = g && e.2.uid = (s.grp g).uid then (e.1, { e.2 with ptrapped := true }) else e }) := by
        split <;> exact mem5_refl u
      have h1 : mem5 s ((queueTrap s (quadOf (placeCore g)) (some g) (trapRegs s (some g) off t)).updGrp g fun x =>
          { endLine x with halt := true, byhalt := false, cause := t.cause, refused := if t.cause = 0x18 then none else x.refused }) :=
        mem5_refl s
      exact mem5_trans h1 (mem5_trans (h2 _) (h3 _))

theorem eff_hw (p q b) (h : mem5 s t) (hf : filesAll s t) : eff p q b s t := eff_same _ _ _ (mem5_hw h) hf
theorem eff_raiseAt (p q b s g off tr) : eff p q b s (raiseAt s g off tr) :=
  eff_hw _ _ _ (mem5_raiseAt s g off tr) (filesAll_raiseAt s g off tr)
theorem eff_makeReady (p q b s g) : eff p q b s (makeReady s g) := eff_hw _ _ _ (mem5_makeReady s g) (filesAll_makeReady s g)

/-! ### Results of accesses -/

/-- As eff, but registers us and predicates ps and gs of the group being issued change too. -/
def effR (p q : Nat → Bool) (b : Nat) (us : List FieldUse) (ps gs : List Nat) (s t : State) : Prop :=
  memKept p s t ∧ spKept b q s t ∧ filesKept us ps gs s t ∧ t.cur = s.cur
theorem filesKept_of (us : List FieldUse) (ps gs : List Nat) (hc : t.cur = s.cur) (h : ∀ g, sameFile (s.grp g) (t.grp g)) :
    filesKept us ps gs s t := by
  have hm : sameFile s.me t.me := by unfold State.me; rw [hc]; exact h _
  obtain ⟨m1, m2, m3, m4, m5, m6, m7, m8⟩ := hm
  refine ⟨fun g _ => h g, ⟨fun r t _ _ => ?_, fun r _ => ?_⟩, ⟨fun p t _ _ => ?_, fun p _ => ?_⟩, m5, m6⟩
  · simp only [readV, m1, m7, and_self]
  · simp only [readK, m2, m8, and_self]
  · simp only [predP, m3]
  · simp only [predG, m4]
theorem filesKept_trans {us ps gs} (hc : t.cur = s.cur) (h1 : filesKept us ps gs s t) (h2 : filesKept us ps gs t u) :
    filesKept us ps gs s u := by
  obtain ⟨a1, ⟨a2, a3⟩, ⟨a4, a5⟩, a6, a7⟩ := h1
  obtain ⟨b1, ⟨b2, b3⟩, ⟨b4, b5⟩, b6, b7⟩ := h2
  refine ⟨fun g hg => sameFile_trans (a1 g hg) (b1 g (hc ▸ hg)), ⟨fun r t ht hr => ?_, fun r hr => ?_⟩,
    ⟨fun p t ht hp => (b4 p t ht hp).trans (a4 p t ht hp), fun p hp => (b5 p hp).trans (a5 p hp)⟩, b6.trans a6, b7.trans a7⟩
  · exact ⟨(b2 r t ht hr).1.trans (a2 r t ht hr).1, (b2 r t ht hr).2.trans (a2 r t ht hr).2⟩
  · exact ⟨(b3 r hr).1.trans (a3 r hr).1, (b3 r hr).2.trans (a3 r hr).2⟩
theorem effR_of {p q b} (us : List FieldUse) (ps gs : List Nat) (h : eff p q b s t) : effR p q b us ps gs s t :=
  ⟨h.1, h.2.1, filesKept_of _ _ _ h.2.2.2.1 h.2.2.1, h.2.2.2.1⟩
theorem effR_trans {p q b us ps gs} (h1 : effR p q b us ps gs s t) (h2 : effR p q b us ps gs t u) :
    effR p q b us ps gs s u := by
  refine ⟨fun a ha => byteKept_trans (h1.1 a ha) (h2.1 a ha), fun k a => ?_, filesKept_trans h1.2.2.2 h1.2.2.1 h2.2.2.1, h2.2.2.2.trans h1.2.2.2⟩
  rcases h1.2.1 k a with h | h
  · exact .inl h
  · rcases h2.2.1 k a with h' | h'
    · exact .inl h'
    · exact .inr (h'.trans h)
theorem effR_updMe {p q b us ps gs ls} (s : State) (f : Group → Group) (h : gFrame us ps gs ls s.me (f s.me))
    (hf : (f s.me).fstat = s.me.fstat) : effR p q b us ps gs s (s.updMe f) := by
  have hme : (s.updMe f).me = f s.me := by simp [State.me, State.updMe, State.updGrp]
  refine ⟨fun a _ => byteKept_same ⟨rfl, fun _ h => h, rfl, rfl, rfl⟩, fun _ _ => .inr rfl, ⟨fun g hg => ?_, ?_, ?_, ?_, ?_⟩, rfl⟩
  · have : (s.updMe f).grp g = s.grp g := by
      simp only [State.updMe, State.updGrp, State.grp, State.setGrp_groups]
      rw [spFind_spPut_ne _ _ _ _ (Ne.symm hg)]
    rw [this]; exact sameFile_refl _
  · rw [hme]; exact h.1
  · rw [hme]; exact h.2.1
  · rw [hme, h.2.2.2.1]
  · rw [hme]; exact hf

end Sys2Proof.Machine
end

