-- ==== Sys2Proof/Laws/Effects.lean ====
section
/-! SUPPORT. Effects.lean (laws): what the operations under the memory instructions change (eff: nothing but the bytes selected;
effR: besides, the registers named), and the inversion of their bodies. -/

namespace Sys2Proof.Machine

open Claim

variable {s t u : State}

theorem spWrite_get (b : Block) (a : Nat) (bs : List Byte) (x : Nat) (h : ¬ (a ≤ x ∧ x < a + bs.length)) :
    spGet 0 (spWrite b a bs).sp x = spGet 0 b.sp x := by
  have : ∀ (bs : List Byte) (m : List (Nat × Byte)) (a : Nat), ¬ (a ≤ x ∧ x < a + bs.length) →
      spGet 0 (bs.foldl (fun r y => (spSet 0 r.1 r.2 y, r.2 + 1)) (m, a)).1 x = spGet 0 m x := by
    intro bs
    induction bs with
    | nil => intro m a _; rfl
    | cons y r ih =>
      intro m a h
      simp only [List.foldl_cons]
      simp only [List.length_cons] at h
      rw [ih _ _ (by omega), spGet_spSet_ne]
      omega
  exact this bs b.sp a h
theorem eff_updBlk {p q b} (s : State) (f : Block → Block) (h : ∀ x, q x = false → spGet 0 (f (s.blk b)).sp x = spGet 0 (s.blk b).sp x) :
    eff p q b s (s.updBlk b f) := by
  refine ⟨fun a _ => byteKept_same ⟨rfl, fun _ h => h, rfl, rfl, rfl⟩, fun k a => ?_, fun g => sameFile_refl _, rfl, fun _ => rfl⟩
  by_cases hk : k = b
  · subst hk
    cases hq : q a
    · right
      rw [← h a hq]
      simp only [State.updBlk, State.setBlk, State.blk]
      rw [spFind_spPut_self]; rfl
    · exact .inl ⟨rfl, rfl⟩
  · right
    simp only [State.updBlk, State.setBlk, State.blk]
    rw [spFind_spPut_ne _ _ _ _ (Ne.symm hk)]
theorem eff_spWrite {p q b} (s : State) (a : Nat) (bs : List Byte) (h : ∀ x, a ≤ x → x < a + bs.length → q x = true) :
    eff p q b s (s.updBlk b fun x => spWrite x a bs) :=
  eff_updBlk s _ fun x hx => spWrite_get _ _ _ _ fun hc => by rw [h x hc.1 hc.2] at hx; cases hx
theorem eff_me {p q b} (h : eff p q b s t) : t.me.block = s.me.block := by
  unfold State.me; rw [h.2.2.2.1]; exact h.2.2.2.2 _
theorem need_eff {p q b} {c : Bool} {tr : Trap} {a : Unit} (h : need c tr s = .ok (a, t)) : eff p q b s t := by
  rw [need_inv h]; exact eff_refl ..
theorem weltBudget_inv {a : Unit} (h : weltBudget s = .ok (a, t)) : t = s := by
  unfold weltBudget at h
  simp only [M_get_bind] at h
  cases hx : s.me.refused with
  | some w => rw [hx] at h; cases h
  | none => rw [hx] at h; cases h; rfl
theorem ifBudget_inv {c : Prop} [Decidable c] {m : M Unit} {a : Unit}
    (h : (if c then (weltBudget >>= fun _ => m) else m) s = .ok (a, t)) : m s = .ok (a, t) := ifM_inv h weltBudget_inv
theorem ifReads_inv {c : Prop} [Decidable c] {m : M Unit} {a : Unit}
    (h : (if c then (needReads >>= fun _ => m) else m) s = .ok (a, t)) : m s = .ok (a, t) := ifM_inv h needReads_inv
theorem beforeRelease_inv {a : Unit} (h : beforeRelease s = .ok (a, t)) : t = s := by
  unfold beforeRelease at h
  obtain ⟨_, u, h1, h⟩ := bind_inv h
  cases weltBudget_inv h1
  exact needReads_inv h
theorem upd_inv {f : State → State} {a : Unit} (h : upd f s = .ok (a, t)) : t = f s := by
  rw [M_upd] at h; cases h; rfl

/-! ### ST -/
theorem eff_storeAt (o : FmtM) (n : Nat) (ps : List (Place × Part)) (s : State) (x : Place × Part) (hx : x ∈ ps) (b) (hb : s.me.block = b) :
    eff (storedGl o n ps) (storedSp o n ps) b s (storeAt o n s x) := by
  have hp : o.space.toNat ≠ 1 → ∀ a, x.1.pa ≤ a → a < x.1.pa + n → storedGl o n ps a = true := by
    intro h1 a h2 h3
    simp only [storedGl, ne_eq, h1, not_false_eq_true, decide_true, Bool.true_and, List.any_eq_true, Bool.and_eq_true, decide_eq_true_eq]
    exact ⟨x, hx, h2, h3⟩
  have hq : o.space.toNat = 1 → ∀ a, x.1.ea ≤ a → a < x.1.ea + n → storedSp o n ps a = true := by
    intro h1 a h2 h3
    simp only [storedSp, h1, decide_true, Bool.true_and, List.any_eq_true, Bool.and_eq_true, decide_eq_true_eq]
    exact ⟨x, hx, h2, h3⟩
  have hbk (c : State → State) (hc : ∀ u a, ¬ (x.1.pa ≤ a ∧ a < x.1.pa + (natBytes n x.2.b).length) → byteKept a u (c u)) (hf : ∀ u, quiet u (c u)) (h1 : o.space.toNat ≠ 1) (u : State) :
      eff (storedGl o n ps) (storedSp o n ps) b u (c u) :=
    eff_of _ _ _ (fun a ha => hc u a fun hx => by rw [size_natBytes] at hx; rw [hp h1 a hx.1 hx.2] at ha; cases ha) (quiet_files (hf u))
  unfold storeAt
  dsimp only
  split
  · rename_i h0
    have h1 : o.space.toNat ≠ 1 := by omega
    refine eff_trans (eff_sampleOwn _ _ _ s s.cur.g x.1.pa n) ?_
    split
    · exact hbk (fun u => storeNoL1 u (placeCore s.cur.g) x.1.pa (natBytes n x.2.b)) (fun u a h => byteKept_storeNoL1 u _ _ _ h) (fun u => by
        unfold storeNoL1; dsimp only; split <;> exact ⟨rfl, rfl, rfl⟩) h1 _
    · exact hbk (fun u => storeL1 u (placeCore s.cur.g) x.1.pa (natBytes n x.2.b) o.hint.toNat) (fun u a h => byteKept_storeL1 u _ _ _ _ h)
        (fun u => quiet_l1Alloc ..) h1 _
  · rename_i h0
    subst hb
    exact eff_spWrite s _ _ (by rw [size_natBytes]; exact hq h0)
  · rename_i h0 h1
    refine eff_trans (eff_sampleOwn _ _ _ s s.cur.g x.1.pa n) ?_
    refine hbk (fun u => storeWs u (placeCore s.cur.g) x.1.pa (natBytes n x.2.b)) (fun u a h => byteKept_storeWs u _ _ _ h) (fun u => ?_) h1 _
    unfold storeWs; dsimp only
    refine quiet_trans ?_ (quiet_homeWrite _ _ _)
    split <;> exact ⟨rfl, rfl, rfl⟩
theorem eff_storeAll (o : FmtM) (n : Nat) (ps : List (Place × Part)) (s : State) :
    eff (storedGl o n ps) (storedSp o n ps) s.me.block s (storeAll o n ps s) := by
  unfold storeAll
  dsimp only
  have h1 : eff (storedGl o n ps) (storedSp o n ps) s.me.block s (if (isRel o.order.toNat && decide (ps ≠ [])) = true then doRelease s s.cur.g o.scope.toNat else s) := by
    split
    · exact eff_doRelease ..
    · exact eff_refl ..
  generalize (if (isRel o.order.toNat && decide (ps ≠ [])) = true then doRelease s s.cur.g o.scope.toNat else s) = v at h1
  have h2 := eff_foldl (storedGl o n ps) (storedSp o n ps) s.me.block (storeAt o n) ps v fun t ht x hx =>
    eff_storeAt o n ps t x hx _ ((eff_me ht).trans (eff_me h1))
  refine eff_trans h1 ?_
  split
  · exact eff_trans h2 (eff_doRelease ..)
  · exact h2
theorem st_body (o : FmtM) (n : Nat) (ps : List (Place × Part)) {a : Unit} (h : storeBody o n ps s = .ok (a, t)) :
    done (eff (storedGl o n ps) (storedSp o n ps) s.me.block) s t := by
  unfold storeBody at h
  simp only [M_get_bind] at h
  split at h
  · exact .inl (blockHere_inv h)
  · have h := ifReads_inv (ifBudget_inv h)
    rw [upd_inv h]
    exact .inr (eff_storeAll ..)
theorem done_imp {R Q : State → State → Prop} (h : done R s t) (hi : R s t → Q s t) : done Q s t := h.imp id hi

/-! ### loads -/
/-! ### quiet -/
theorem quiet_access {o : FmtM} (h : eff (storedGl o 0 []) (storedSp o 0 []) s.me.block s t) : accessFrame o 0 [] [] [] [] s t := eff_access h
theorem eff_performAll (p q b r s f) : eff p q b s (performAll r s f) :=
  eff_of _ _ _ (fun _ _ => byteKept_performAll r s f) (quiet_files (quiet_performAll r s f))
theorem eff_writeBackTo (p q b r s ck l) : eff p q b s (writeBackTo r s ck l) :=
  eff_of _ _ _ (fun _ _ => byteKept_writeBackTo r s ck l) (quiet_files (quiet_writeBackTo r s ck l))
theorem eff_l1Drop (p q b s ck l) : eff p q b s (l1Drop s ck l) :=
  eff_of _ _ _ (fun _ _ => byteKept_l1Drop s ck l) (filesAll_same rfl rfl rfl)
theorem eff_flushLines (p q b drop ls s) : eff p q b s (flushLines drop ls s) := by
  unfold flushLines
  dsimp only
  refine eff_trans (eff_foldl _ _ _ _ _ _ fun t _ x _ => eff_performAll ..) (eff_foldl _ _ _ _ _ _ fun t _ x _ => ?_)
  split
  · exact eff_trans (eff_writeBackTo ..) (eff_l1Drop ..)
  · exact eff_writeBackTo ..
theorem eff_setEmpty (p q b' s b line) : eff p q b' s (setEmpty s b line) := by
  unfold setEmpty
  refine ⟨fun a _ => byteKept_same ⟨rfl, fun _ h => h, rfl, rfl, rfl⟩, fun k a => .inr ?_, fun g => sameFile_refl _, rfl, fun _ => rfl⟩
  by_cases hk : k = b
  · subst hk; simp only [State.updBlk, State.setBlk, State.blk]; rw [spFind_spPut_self]; rfl
  · simp only [State.updBlk, State.setBlk, State.blk]; rw [spFind_spPut_ne _ _ _ _ (Ne.symm hk)]
theorem eff_setFull (p q b' s b line) : eff p q b' s (setFull s b line) := by
  unfold setFull
  refine eff_trans (t := s.updBlk b fun x => { x with empty := spDel x.empty line }) ?_ ?_
  · refine ⟨fun a _ => byteKept_same ⟨rfl, fun _ h => h, rfl, rfl, rfl⟩, fun k a => .inr ?_, fun g => sameFile_refl _, rfl, fun _ => rfl⟩
    by_cases hk : k = b
    · subst hk; simp only [State.updBlk, State.setBlk, State.blk]; rw [spFind_spPut_self]; rfl
    · simp only [State.updBlk, State.setBlk, State.blk]; rw [spFind_spPut_ne _ _ _ _ (Ne.symm hk)]
  · unfold wakeLine
    exact eff_foldl _ _ _ _ _ _ fun t _ x _ => eff_makeReady ..
theorem eff_around {p q b} (o : FmtM) (f : State → State) (s : State) (h : ∀ u, eff p q b s u → eff p q b u (f u)) : eff p q b s (around o f s) := by
  unfold around
  dsimp only
  have h1 : eff p q b s (if isRel o.order.toNat = true then doRelease s s.cur.g o.scope.toNat else s) := by
    split
    · exact eff_doRelease ..
    · exact eff_refl ..
  generalize (if isRel o.order.toNat = true then doRelease s s.cur.g o.scope.toNat else s) = v at h1
  have h2 := eff_trans h1 (h v h1)
  split
  · exact eff_trans h2 (eff_trans (eff_sampleAllOwn ..) (eff_doAcquire ..))
  · exact h2
theorem eff_updCore (p q b) (s : State) (ck : Nat) (f : Core → Core) (h : ∀ e ∈ (f (s.core ck)).l1, e ∈ (s.core ck).l1) : eff p q b s (s.updCore ck f) :=
  eff_same _ _ _ (sameHw_updCore s ck f h) (filesAll_same rfl rfl rfl)
theorem eff_receiveToken (p q b s l) : eff p q b s (receiveToken s l) := by
  unfold receiveToken
  split
  · rename_i b' _
    unfold wakeToken
    refine eff_trans (t := invalidateClean s ((s.blk b').die * 64 + (s.blk b').core)) (eff_of _ _ _ (fun a _ => byteKept_invalidateClean _ _) (filesAll_same rfl rfl rfl)) ?_
    exact eff_foldl _ _ _ _ _ _ fun t _ x _ => eff_makeReady ..
  · exact eff_refl ..
theorem eff_passToken (p q b s l) : eff p q b s (passToken s l) := by
  unfold passToken
  dsimp only
  have h1 : eff p q b s (match blockOfBid s l (s.lch l).token with
    | some b => writeBackAll s ((s.blk b).die * 64 + (s.blk b).core)
    | none => s) := by
    cases blockOfBid s l (s.lch l).token
    · exact eff_refl ..
    · exact eff_writeBackAll ..
  refine eff_trans ?_ (eff_receiveToken p q b _ l)
  refine eff_trans h1 ?_
  exact eff_misc _ _ _ rfl rfl rfl rfl rfl rfl rfl rfl
/-! ### accesses at the home -/
theorem mem_foldl_spPut {α : Type} (l m : List (Nat × α)) (e) (h : e ∈ l.foldl (fun m x => spPut m x.1 x.2) m) : e ∈ m ∨ e ∈ l := by
  induction l generalizing m with
  | nil => exact .inl h
  | cons x r ih =>
    rcases ih _ h with h | h
    · rcases mem_spPut _ _ _ _ h with h | h
      · exact .inl h
      · exact .inr (h ▸ List.mem_cons_self ..)
    · exact .inr (List.mem_cons_of_mem _ h)
theorem byteKept_homeWriteBy (a : Nat) (s : State) (ck pa : Nat) (bs : List Byte) (h : ¬ (pa ≤ a ∧ a < pa + bs.length)) :
    byteKept a s (homeWriteBy s ck pa bs) := by
  have h1 := byteKept_homeWrite (a := a) s pa bs h
  unfold homeWriteBy
  dsimp only
  split
  · exact h1
  · generalize homeWrite s pa bs = v at h1
    intro hn
    obtain ⟨w1, a1, b1⟩ := h1 hn
    have hp : ∀ e ∈ v.posted ++ [(spFresh v.posted, ({ core := ck, line := lineOf pa, mask := 0, data := 0, written := true, invs :=
        (s.replicas.filter fun e => decide (e.1 / 16 = lineOf pa)).map fun e => e.1 % 16 } : PostedWrite))], e ∈ v.posted ∨ e.2.mask = 0 := by
      intro e he
      rcases List.mem_append.1 he with he | he
      · exact .inl he
      · rw [List.mem_singleton] at he; subst he; exact .inr rfl
    refine ⟨w1, fun b hb => ?_, fun hs => ⟨⟨(b1 hs).1.1, fun e he hk => ?_⟩, (b1 hs).2⟩⟩
    · rcases hb with hb | hb | ⟨e, he, hk, hb⟩ | ⟨e, he, hk, hm, hb⟩
      · exact a1 b (.inl hb)
      · exact a1 b (.inr (.inl hb))
      · rcases mem_foldl_spPut _ _ _ he with he | he
        · exact a1 b (.inr (.inr (.inl ⟨e, he, hk, hb⟩)))
        · exact .inr (.inr (.inl ⟨e, List.mem_of_mem_filter he, hk, hb⟩))
      · rcases hp e he with he | he
        · exact a1 b (.inr (.inr (.inr ⟨e, he, hk, hm, hb⟩)))
        · rw [he] at hm; simp at hm
    · rcases hp e he with he | he
      · exact (b1 hs).1.2 e he hk
      · rw [he]; simp
theorem eff_homeWriteMe (p q b s pa n v) (h : ∀ a, pa ≤ a → a < pa + n → p a = true) : eff p q b s (homeWriteMe s pa n v) := by
  refine eff_of _ _ _ (fun a ha => byteKept_homeWriteBy a s _ pa _ fun hx => ?_) (quiet_files ?_)
  · rw [size_natBytes] at hx; rw [h a hx.1 hx.2] at ha; cases ha
  · unfold homeWriteMe homeWriteBy
    dsimp only
    split
    · exact quiet_homeWrite ..
    · exact quiet_trans (quiet_homeWrite s pa (natBytes n v)) ⟨rfl, rfl, rfl⟩
theorem eff_takeTicket (p q b sc s x) : eff p q b s (takeTicket sc s x) := by
  unfold takeTicket
  split
  · exact eff_misc _ _ _ rfl rfl rfl rfl rfl rfl rfl rfl
  · exact eff_misc _ _ _ rfl rfl rfl rfl rfl rfl rfl rfl
theorem eff_atomicAt (o : FmtM) (f : Part → Nat → Option Nat) (ps : List (Place × Part)) (acc : State × List Got) (x : Place × Part) (hx : x ∈ ps) (b) (hb : acc.1.me.block = b) :
    eff (storedGl o (atomBytes o) ps) (storedSp o (atomBytes o) ps) b acc.1 (atomicAt o f acc x).1 := by
  have hp : o.space.toNat ≠ 1 → ∀ a, x.1.pa ≤ a → a < x.1.pa + atomBytes o → storedGl o (atomBytes o) ps a = true := by
    intro h1 a h2 h3
    simp only [storedGl, ne_eq, h1, not_false_eq_true, decide_true, Bool.true_and, List.any_eq_true, Bool.and_eq_true, decide_eq_true_eq]
    exact ⟨x, hx, h2, h3⟩
  have hq : o.space.toNat = 1 → ∀ a, x.1.ea ≤ a → a < x.1.ea + atomBytes o → storedSp o (atomBytes o) ps a = true := by
    intro h1 a h2 h3
    simp only [storedSp, h1, decide_true, Bool.true_and, List.any_eq_true, Bool.and_eq_true, decide_eq_true_eq]
    exact ⟨x, hx, h2, h3⟩
  unfold atomicAt
  dsimp only
  split
  · rename_i h1
    subst hb
    split
    · exact eff_refl ..
    · dsimp only
      split
      · exact eff_spWrite acc.1 _ _ (by rw [size_natBytes]; exact hq h1)
      · exact eff_refl ..
  · rename_i h1
    refine eff_trans (eff_atHome _ _ _ acc.1 x.1.pa (tyWidth o.h.t.toNat / 8)) ?_
    split
    · dsimp only
      split
      · split
        · exact eff_refl ..
        · exact eff_homeWriteNat _ _ _ _ _ _ _ (hp h1)
      · exact eff_refl ..
    · refine eff_trans (eff_flushWelts _ _ _ _ x.1.pa (tyWidth o.h.t.toNat / 8)) ?_
      dsimp only
      split
      · exact eff_homeWriteMe _ _ _ _ _ _ _ (hp h1)
      · exact eff_refl ..
theorem eff_foldAcc {β} (p q b) (ps : List (Place × Part)) (f : State × β → Place × Part → State × β) (s : State) (r : β)
    (h : ∀ acc, eff p q b s acc.1 → ∀ x ∈ ps, eff p q b acc.1 (f acc x).1) : eff p q b s (ps.foldl f (s, r)).1 := by
  have : ∀ (l : List (Place × Part)) (acc : State × β), (∀ x ∈ l, x ∈ ps) → eff p q b s acc.1 → eff p q b s (l.foldl f acc).1 := by
    intro l
    induction l with
    | nil => intro acc _ h; exact h
    | cons x r ih => intro acc hx ha; exact ih _ (fun y hy => hx y (List.mem_cons_of_mem _ hy)) (eff_trans ha (h acc ha x (hx x (List.mem_cons_self ..))))
  exact this ps (s, r) (fun _ h => h) (eff_refl ..)

theorem gFrame_poison (us ps gs ls) (x : Group) (t : Nat) (ht : t < 64) : gFrame us ps gs ls x (poisonUses us x t) := by
  unfold poisonUses
  refine gFrame_foldl _ _ _ _ _ _ _ fun x f hf => gFrame_foldl _ _ _ _ _ _ _ fun x i hi => ?_
  have hi : i < f.2 := List.mem_range.1 hi
  split
  · rename_i hv
    refine ⟨⟨fun r' t' ht' hr' => ⟨rfl, ?_⟩, fun _ _ => ⟨rfl, rfl⟩⟩, ⟨fun _ _ _ _ => rfl, fun _ _ => rfl⟩, fun _ _ _ _ => ⟨rfl, rfl⟩, rfl, by simp⟩
    rw [spGet_spPut, if_neg]
    intro e
    have e : r' = f.1.toNat + i := by omega
    simp only [namesV, List.any_eq_false] at hr'
    have := hr' f hf
    simp only [hv, Bool.true_and, Bool.and_eq_true, decide_eq_true_eq, not_and, not_lt] at this
    omega
  · split
    · rename_i hk
      refine ⟨⟨fun _ _ _ _ => ⟨rfl, rfl⟩, fun r' hr' => ⟨rfl, ?_⟩⟩, ⟨fun _ _ _ _ => rfl, fun _ _ => rfl⟩, fun _ _ _ _ => ⟨rfl, rfl⟩, rfl, by simp⟩
      rw [spGet_spPut, if_neg]
      rintro rfl
      simp only [namesK, List.any_eq_false] at hr'
      have := hr' f hf
      simp only [hk, Bool.true_and, Bool.and_eq_true, decide_eq_true_eq, not_and, not_lt] at this
      omega
    · exact gFrame_refl ..

theorem writeDest_fstat (x : Group) (h : Hdr) (f : BitVec 10) (ty t b : Nat) : (writeDest x h f ty t b).fstat = x.fstat := by
  have h1 : (latchRes x h ty t b).fstat = x.fstat := by unfold latchRes; split <;> rfl
  have h2 (y : Group) : (setReg y f ty t b).fstat = y.fstat := by
    unfold setReg; dsimp only; split
    · split <;> rfl
    · split <;> rfl
  unfold writeDest
  dsimp only
  split
  · exact h1
  · rw [h2, h1]
theorem poisonUses_fstat (us : List FieldUse) (x : Group) (t : Nat) : (poisonUses us x t).fstat = x.fstat := by
  unfold poisonUses
  refine foldl_keeps (fun y : Group => y.fstat = x.fstat) _ _ _ (fun y f h => ?_) rfl
  refine foldl_keeps (fun y : Group => y.fstat = x.fstat) _ _ _ (fun y i h => ?_) h
  split
  · exact h
  · split <;> exact h
theorem effR_putGot (p q b) (ls : List Nat) (o : FmtM) (ty : Nat) (ps : List (Place × Part)) (rs : List Got) (s : State) (hl : o.h.l.toNat ∈ ls) (hr : ∀ r ∈ rs, r.1 < 64) :
    effR p q b (unlessS o.h (useTy ty o.d)) [] [] s (putGot o ty ps rs s) := by
  unfold putGot
  dsimp only
  have h1 : gFrame (unlessS o.h (useTy ty o.d)) [] [] ls s.me (rs.foldl (fun x r =>
    match r.2 with
    | some v => writeDest x o.h o.d ty r.1 v
    | none => poisonUses (unlessS o.h (useTy ty o.d)) x r.1) s.me) := by
    refine gFrame_foldl _ _ _ _ _ _ _ fun x r h => ?_
    split
    · refine gFrame_writeDest _ _ _ _ _ _ _ _ _ _ (hr r h) hl fun hs => ?_
      simp only [unlessS, hs, Bool.false_eq_true, if_false]
      exact inUs_useTy _ _
    · exact gFrame_poison _ _ _ _ _ _ (hr r h)
  have h2 : effR p q b (unlessS o.h (useTy ty o.d)) [] [] s (s.updMe fun x => rs.foldl (fun x r =>
    match r.2 with
    | some v => writeDest x o.h o.d ty r.1 v
    | none => poisonUses (unlessS o.h (useTy ty o.d)) x r.1) x) := by
    refine effR_updMe s _ h1 ?_
    refine foldl_keeps (fun x : Group => x.fstat = s.me.fstat) _ _ _ (fun x r h => ?_) rfl
    split
    · rw [writeDest_fstat]; exact h
    · rw [poisonUses_fstat]; exact h
  generalize (s.updMe fun x => rs.foldl (fun x r =>
    match r.2 with
    | some v => writeDest x o.h o.d ty r.1 v
    | none => poisonUses (unlessS o.h (useTy ty o.d)) x r.1) x) = v at *
  split
  · exact h2
  · exact effR_trans h2 (effR_of _ _ _ (eff_raiseAt ..))

theorem effR_around {p q b us qs gs} (o : FmtM) (f : State → State) (s : State) (h : ∀ u, eff p q b s u → effR p q b us qs gs u (f u)) :
    effR p q b us qs gs s (around o f s) := by
  unfold around
  dsimp only
  have h1 : eff p q b s (if isRel o.order.toNat = true then doRelease s s.cur.g o.scope.toNat else s) := by
    split
    · exact eff_doRelease ..
    · exact eff_refl ..
  generalize (if isRel o.order.toNat = true then doRelease s s.cur.g o.scope.toNat else s) = v at h1
  have h2 := effR_trans (effR_of us qs gs h1) (h v h1)
  split
  · exact effR_trans h2 (effR_of _ _ _ (eff_trans (eff_sampleAllOwn ..) (eff_doAcquire ..)))
  · exact h2
theorem ordered_inv {o ps prom f} {a : Unit} (h : ordered o ps prom f s = .ok (a, t)) : t.cur.out = .stalled ∨ t = s ∨ t = around o f s := by
  unfold ordered at h
  simp only [M_get_bind] at h
  cases hc : (if o.space.toNat = 1 then firstEmpty s (ps.map (·.1)) else none) with
  | some l =>
    rw [hc] at h
    exact (waitFull_inv h).imp id .inl
  | none =>
    rw [hc] at h
    dsimp only at h
    split at h
    · exact .inl (blockHere_inv h)
    · split at h
      · cases h; exact .inr (.inl rfl)
      · have h := ifReads_inv (ifBudget_inv h)
        exact .inr (.inr (upd_inv h))
theorem effR_access {o n ps us qs gs} (h : effR (storedGl o n ps) (storedSp o n ps) s.me.block us qs gs s t) : accessFrame o n ps us qs gs s t :=
  ⟨h.1, h.2.1, h.2.2.1⟩
theorem placed_tid {o ix nd mk x} (h : x ∈ placed o ix nd mk s) : x.1.tid < 64 := by
  simp only [placed, List.mem_filterMap] at h
  obtain ⟨t, ht, h⟩ := h
  split at h
  · cases h; exact runners_lt ht
  · cases h
/-- the pieces: a meaning with body `ordered` -/
theorem frame_ordered (i : Instr) (o : FmtM) (ix data n al nd mk prom) (f : List (Place × Part) → State → State) (us : List FieldUse) (s : State)
    (m : Nat) (ps : List (Place × Part)) (he : exec i s = finish (runM i o ix data n al nd noExtra mk fun ps => ordered o ps prom (f ps)) s)
    (h : ∀ u, eff (storedGl o m ps) (storedSp o m ps) s.me.block s u →
      effR (storedGl o m ps) (storedSp o m ps) s.me.block us [] [] u (f (placed o ix nd mk s) u)) :
    frame i s (accessFrame o m ps us [] []) := by
  refine frame_done _ _ _ _ he (effR_access (effR_of _ _ _ (eff_refl ..))) fun t ht => ?_
  rcases runM_inv (storedGl o m ps) (storedSp o m ps) s.me.block (fun ps s t a h => by cases h; rfl) ht with hd | hd
  · exact done_imp hd fun h => effR_access (effR_of _ _ _ h)
  · rcases ordered_inv hd with hd | hd | hd
    · exact .inl hd
    · rw [hd]; exact .inr (effR_access (effR_of _ _ _ (eff_refl ..)))
    · rw [hd]; exact .inr (effR_access (effR_around _ _ _ h))
theorem eff_block {p q b} (h : eff p q b s u) : u.me.block = s.me.block := by
  unfold State.me; rw [h.2.2.2.1]; exact h.2.2.2.2 _

/-- results of the accesses are of placed threads -/
theorem fold_tids {β} (f : β → Place × Part → β) (g : β → List Got) (ps : List (Place × Part)) (b0 : β) (h0 : ∀ r ∈ g b0, r.1 < 64)
    (hf : ∀ b, ∀ x ∈ ps, ∀ r ∈ g (f b x), r ∈ g b ∨ r.1 = x.1.tid) (hp : ∀ x ∈ ps, x.1.tid < 64) : ∀ r ∈ g (ps.foldl f b0), r.1 < 64 := by
  induction ps generalizing b0 with
  | nil => exact h0
  | cons x r ih =>
    refine ih (f b0 x) (fun r' hr => ?_) (fun b y hy => hf b y (List.mem_cons_of_mem _ hy)) (fun y hy => hp y (List.mem_cons_of_mem _ hy))
    rcases hf b0 x (List.mem_cons_self ..) r' hr with h | h
    · exact h0 r' h
    · rw [h]; exact hp x (List.mem_cons_self ..)
theorem atomicAt_got (o : FmtM) (f) (acc : State × List Got) (x : Place × Part) : ∀ r ∈ (atomicAt o f acc x).2, r ∈ acc.2 ∨ r.1 = x.1.tid := by
  intro r hr
  unfold atomicAt at hr
  dsimp only at hr
  split at hr
  · split at hr
    all_goals
      simp only [List.mem_append, List.mem_singleton] at hr
      exact hr.imp id fun h => by rw [h]
  · split at hr
    all_goals
      simp only [List.mem_append, List.mem_singleton] at hr
      exact hr.imp id fun h => by rw [h]
/-! ### welts -/
theorem eff_welts (p q b) (s : State) (w : List (Nat × Welt)) (h : ∀ a, p a = false → noWelt s a → noWelt { s with welts := w } a) :
    eff p q b s { s with welts := w } :=
  ⟨fun a ha hn => ⟨h a ha hn, fun _ h => h, fun hs => ⟨hs, rfl⟩⟩, fun _ _ => .inr rfl, fun g => sameFile_refl _, rfl, fun _ => rfl⟩
/-- With room in its slice's table a new entry spills none. -/
theorem weltRoom_fits (n : Nat) (s : State) (slice : Nat) (h : weltsFit (n + 1) s) : weltRoom s slice = some s := by
  have h1 := h.2.2 slice
  have h2 : (s.welts.filter fun e => sliceKey e.1 = slice && e.2.spilled.isNone).length ≤ (s.welts.filter fun e => sliceKey e.1 = slice).length := by
    refine List.Sublist.length_le (List.monotone_filter_right _ fun e he => ?_)
    simp only [Bool.and_eq_true] at he; exact he.1
  unfold weltRoom
  dsimp only
  rw [if_pos (by omega)]
theorem eff_weltFetch (p q b) (s : State) (pa : Nat) : eff p q b s (weltFetch s pa) :=
  eff_of _ _ _ (fun _ _ => byteKept_weltFetch s pa) (quiet_files (quiet_weltFetch s pa))
theorem eff_updGrp (p q b) (s : State) (g : Nat) (f : Group → Group) (h : sameFile (s.grp g) (f (s.grp g))) (hb : (f (s.grp g)).block = (s.grp g).block) :
    eff p q b s (s.updGrp g f) := eff_hw _ _ _ ⟨rfl, rfl, rfl, rfl, rfl⟩ (filesAll_updGrp s g f h hb)
theorem eff_putWelt (p q b) (s : State) (pa : Nat) (w : Welt) (hs : (∀ e ∈ s.welts, e.2.spilled = none) → w.spilled = none) (h : ∀ a, pa ≤ a → a < pa + w.size → p a = true) :
    eff p q b s { s with welts := spPut s.welts pa w } := by
  refine eff_welts _ _ _ _ _ fun a ha hn x hx => ?_
  rcases mem_spPut _ _ _ _ hx with hx | hx
  · exact hn x hx
  · rw [hx]; exact ⟨fun hc => (by rw [h a hc.1 hc.2] at ha; cases ha), hs fun e he => (hn e he).2⟩
theorem add_spilled (w : Welt) (b : Nat) : (w.add b).spilled = w.spilled := rfl
/-- FADDW at a place whose slice's table has room. -/
theorem eff_faddwAt (p q b) (f64 : Bool) (s : State) (x : Place × Part) (h : ∀ a, x.1.pa ≤ a → a < x.1.pa + (if f64 then 8 else 4) → p a = true)
    (hr : ∀ z, weltRoom (flushWelts (weltFetch (atHome s x.1.pa (if f64 then 8 else 4)) x.1.pa) x.1.pa (if f64 then 8 else 4)) (sliceKey x.1.pa)
      = some z → z = flushWelts (weltFetch (atHome s x.1.pa (if f64 then 8 else 4)) x.1.pa) x.1.pa (if f64 then 8 else 4)) :
    eff p q b s (faddwAt f64 s x) := by
  unfold faddwAt
  dsimp only
  have h0 : eff p q b s (weltFetch (atHome s x.1.pa (if f64 = true then 8 else 4)) x.1.pa) := eff_trans (eff_atHome ..) (eff_weltFetch ..)
  generalize weltFetch (atHome s x.1.pa (if f64 = true then 8 else 4)) x.1.pa = v at h0 hr
  refine eff_trans h0 ?_
  split
  · exact eff_misc _ _ _ rfl rfl rfl rfl rfl rfl rfl rfl
  · have hnew : eff p q b v (if linePoisoned v (lineOf x.1.pa) then v else
        match weltRoom (flushWelts v x.1.pa (if f64 = true then 8 else 4)) (sliceKey x.1.pa) with
        | none => (flushWelts v x.1.pa (if f64 = true then 8 else 4)).updMe fun y => { y with refused := some x.1.ea }
        | some z =>
          let u := homeNat z x.1.pa (if f64 = true then 8 else 4)
          let w : Welt := { f64 := f64, sum := (weltOf f64 u).1, tag := (weltOf f64 u).2, negZero := isNegZero f64 u,
                            ctx := (z.grpLch z.cur.g).ctx, region := (z.grpLch z.cur.g).region }
          let z := awaitAcks z (placeCore z.cur.g) (lineOf x.1.pa) (replicaDies z (lineOf x.1.pa))
          { z with welts := spPut z.welts x.1.pa { (w.add x.2.b) with used := weltStamp v } }) := by
      split
      · exact eff_refl ..
      · have h1 : eff p q b v (flushWelts v x.1.pa (if f64 = true then 8 else 4)) := eff_flushWelts ..
        generalize flushWelts v x.1.pa (if f64 = true then 8 else 4) = y at h1 hr
        refine eff_trans h1 ?_
        cases hz : weltRoom y (sliceKey x.1.pa) with
        | none => exact eff_updGrp p q b y y.cur.g _ ⟨rfl, rfl, rfl, rfl, rfl, rfl, rfl, rfl⟩ rfl
        | some z =>
          have hz := hr z hz
          subst hz
          dsimp only
          refine eff_trans (t := awaitAcks z (placeCore z.cur.g) (lineOf x.1.pa) (replicaDies z (lineOf x.1.pa)))
            (eff_of _ _ _ (fun a _ => byteKept_awaitAcks z _ _ _) (quiet_files (quiet_awaitAcks z _ _ _))) ?_
          refine eff_putWelt _ _ _ _ _ _ (fun _ => rfl) fun a h1 h2 => h a h1 ?_
          refine lt_of_lt_of_eq h2 ?_
          cases f64 <;> rfl
    cases hf : spFind v.welts x.1.pa with
    | none => rw [if_neg (by simp)]; exact hnew
    | some w =>
      dsimp only
      by_cases hs : (w.f64 == f64) = true
      · rw [if_pos hs]
        simp only [beq_iff_eq] at hs
        refine eff_putWelt p q b v x.1.pa _ (fun hn => ?_) fun a h1 h2 => h a h1 ?_
        · exact hn _ (spFind_mem _ _ _ hf)
        · simpa only [Option.getD_some, Welt.size, Welt.add, hs] using h2
      · rw [if_neg hs]; exact hnew
theorem storedGl_mem {o : FmtM} {n : Nat} {ps : List (Place × Part)} {x : Place × Part} (hx : x ∈ ps) (h1 : o.space.toNat ≠ 1) :
    ∀ a, x.1.pa ≤ a → a < x.1.pa + n → storedGl o n ps a = true := by
  intro a h2 h3
  simp only [storedGl, ne_eq, h1, not_false_eq_true, decide_true, Bool.true_and, List.any_eq_true, Bool.and_eq_true, decide_eq_true_eq]
  exact ⟨x, hx, h2, h3⟩
theorem eff_weltReadAt (p q b) (o : FmtM) (free : Bool) (acc : State × List Got) (x : Place × Part)
    (h : free = true → ∀ a, x.1.pa ≤ a → a < x.1.pa + atomBytes o → p a = true) :
    eff p q b acc.1 (weltReadAt o free acc x).1 := by
  unfold weltReadAt
  dsimp only
  have h0 : eff p q b acc.1 (weltFetch (atHome acc.1 x.1.pa (atomBytes o)) x.1.pa) := eff_trans (eff_atHome ..) (eff_weltFetch ..)
  generalize weltFetch (atHome acc.1 x.1.pa (atomBytes o)) x.1.pa = v at h0
  refine eff_trans h0 ?_
  split
  · exact eff_refl ..
  · dsimp only
    split
    · rename_i hf
      simp only [Bool.and_eq_true] at hf
      exact eff_homeWriteMe _ _ _ _ _ _ _ (h hf.1)
    · exact eff_refl ..
theorem weltReadAt_got (o : FmtM) (free) (acc : State × List Got) (x : Place × Part) : ∀ r ∈ (weltReadAt o free acc x).2, r ∈ acc.2 ∨ r.1 = x.1.tid := by
  intro r hr
  unfold weltReadAt at hr
  dsimp only at hr
  split at hr
  · simp only [List.mem_append, List.mem_singleton] at hr
    exact hr.imp id fun h => by rw [h]
  · simp only [List.mem_append, List.mem_singleton] at hr
    exact hr.imp id fun h => by rw [h]
theorem weltReadBody_inv {o free ps} {a : Unit} (h : weltReadBody o free ps s = .ok (a, t)) :
    t.cur.out = .stalled ∨ ordered o ps false (weltReadAll o free ps) s = .ok (a, t) := by
  unfold weltReadBody at h
  simp only [M_get_bind] at h
  split at h
  · exact .inl (blockHere_inv h)
  · exact .inr (ifBudget_inv h)
/-! ### REDIX -/
theorem eff_redApply (p q b) (s : State) (slot ty v : Nat) (h : ∀ a, slot ≤ a → a < slot + 16 → p a = true) (hw : tyWidth ty / 8 ≤ 8) :
    eff p q b s (redApply s slot ty v) := by
  unfold redApply
  dsimp only
  refine eff_trans (eff_homeWriteMe _ _ _ _ _ _ _ fun a h1 h2 => h a h1 ?_) (eff_homeWriteMe _ _ _ _ _ _ _ fun a h1 h2 => h a ?_ ?_)
  · omega
  · omega
  · omega
theorem tyWidth_le (ty : Nat) : tyWidth ty / 8 ≤ 8 := by unfold tyWidth; split <;> decide
theorem eff_redDrain (p q b) (slot k : Nat) (s : State) (h : ∀ a, slot ≤ a → a < slot + 16 → p a = true) :
    eff p q b s (redDrain s slot k) := by
  induction k generalizing s with
  | zero => exact eff_refl ..
  | succ k ih =>
    unfold redDrain
    dsimp only
    split
    · rename_i x _
      refine eff_trans (eff_trans (t := { s with redParks := s.redParks.filter (· ≠ x) }) ?_ (eff_redApply _ _ _ _ _ _ _ h (tyWidth_le _))) (ih _)
      exact eff_misc _ _ _ rfl rfl rfl rfl rfl rfl rfl rfl
    · exact eff_refl ..
theorem redOffer_eff (p q b) (s : State) (slot ty index v : Nat) (r) (h : ∀ a, slot ≤ a → a < slot + 16 → p a = true)
    (hr : redOffer s slot ty index v = some r) : eff p q b s r.1 := by
  unfold redOffer at hr
  dsimp only at hr
  have h1 : eff p q b s (flushWelts s slot 16) := eff_flushWelts ..
  generalize flushWelts s slot 16 = y at h1 hr
  split at hr
  · cases hr; exact h1
  · split at hr
    · cases hr; exact eff_trans h1 (eff_trans (eff_redApply _ _ _ _ _ _ _ h (tyWidth_le _)) (eff_redDrain _ _ _ _ _ _ h))
    · split at hr
      · cases hr
      · cases hr; exact eff_trans h1 (eff_misc _ _ _ rfl rfl rfl rfl rfl rfl rfl rfl)
theorem redixRun_eff (p q b) (ty : Nat) (ps : List (Place × Part)) (s : State) (rs : List Got)
    (h : ∀ x ∈ ps, ∀ a, x.1.pa ≤ a → a < x.1.pa + 16 → p a = true) : eff p q b s (redixRun ty s ps rs).1 := by
  induction ps generalizing s rs with
  | nil => exact eff_refl ..
  | cons x l ih =>
    unfold redixRun
    dsimp only
    have h1 : eff p q b s (atHome s x.1.pa 16) := eff_atHome ..
    generalize atHome s x.1.pa 16 = y at h1
    split
    · exact eff_trans h1 (ih y _ (fun x hx => h x (List.mem_cons_of_mem _ hx)))
    · split
      · rename_i z ho
        exact eff_trans h1 (eff_trans (redOffer_eff _ _ _ _ _ _ _ _ _ (h x (List.mem_cons_self ..)) ho)
          (ih _ _ (fun x hx => h x (List.mem_cons_of_mem _ hx))))
      · exact h1
theorem redixRun_tids (ty : Nat) (ps : List (Place × Part)) (s : State) (rs : List Got) (h0 : ∀ r ∈ rs, r.1 < 64) (hp : ∀ x ∈ ps, x.1.tid < 64) :
    ∀ x ∈ (redixRun ty s ps rs).2.1, x.1 < 64 := by
  induction ps generalizing s rs with
  | nil => exact h0
  | cons x l ih =>
    have key (g : Option Nat) : ∀ r ∈ rs ++ [(x.1.tid, g)], r.1 < 64 := by
      intro r hr
      rcases List.mem_append.1 hr with h | h
      · exact h0 r h
      · rw [List.mem_singleton.1 h]; exact hp x (List.mem_cons_self ..)
    unfold redixRun
    dsimp only
    split
    · exact ih _ _ (key _) fun x hx => hp x (List.mem_cons_of_mem _ hx)
    · split
      · exact ih _ _ (key _) fun x hx => hp x (List.mem_cons_of_mem _ hx)
      · exact h0
theorem placed_part {o ix nd mk x} (h : x ∈ placed o ix nd mk s) : x.2.tid = x.1.tid := by
  simp only [placed, List.mem_filterMap] at h
  obtain ⟨t, ht, h⟩ := h
  split at h
  · cases h; rfl
  · cases h
/-! ### CRESIZE, FETEST -/
theorem eff_setWays (p q b s ck m) : eff p q b s (setWays s ck m) := by
  unfold setWays
  dsimp only
  refine eff_trans (eff_foldl _ _ _ _ _ _ fun t _ x _ => ?_) (eff_updCore _ _ _ _ _ _ fun e he => he)
  exact eff_trans (eff_writeBackTo ..) (eff_l1Drop ..)
theorem eff_prefetchLine (p q b) (o : FmtM) (s : State) (t : Nat) : eff p q b s (prefetchLine o s t) := by
  have h0 : eff p q b s s.fresh.2 := eff_of _ _ _ (fun a _ => byteKept_same ⟨rfl, fun _ he => he, rfl, rfl, rfl⟩) (quiet_files ⟨rfl, rfl, rfl⟩)
  unfold prefetchLine
  dsimp only
  split
  · exact h0
  · split
    · exact h0
    · split
      · exact h0
      · exact eff_trans h0 (eff_of _ _ _ (fun a _ => byteKept_loadBytes _ _ _ _ _) (quiet_files (quiet_loadBytes _ _ _ _ _)))
theorem eff_prefetch (p q b) (o : FmtM) (s : State) : eff p q b s (prefetch o s) := by
  unfold prefetch
  generalize runners s o.h = l
  induction l generalizing s with
  | nil => exact eff_refl _ _ _ s
  | cons t r ih => exact eff_trans (eff_prefetchLine p q b o s t) (ih _)
end Sys2Proof.Machine
end

