-- ==== Sys2Proof/Laws/Tracks.lean ====
section
/-! SUPPORT. Tracks.lean (laws): a group that is not ready keeps its entry while the tracks of its core are filled, and the table
of groups keeps its order. -/

namespace Sys2Proof.Machine

theorem updMe_me (s : State) (f : Group → Group) : (s.updMe f).me = f s.me := by simp [State.me, State.updMe, State.updGrp, State.setGrp, State.grp]
theorem pickReady_mem {s : State} {core half : Nat} {skip : Nat → Bool} {p : Nat} (h : pickReady s core half skip = some p) :
    ∃ e ∈ s.groups, e.1 = p ∧ readyPending e.2 = true := by
  unfold pickReady at h
  have key : ∀ (l : List (Nat × Group)) (b : Option Nat), (∀ q, b = some q → ∃ e ∈ s.groups, e.1 = q ∧ readyPending e.2 = true) → (∀ e ∈ l, e ∈ s.groups) →
      ∀ p, l.foldl (fun best e =>
    if placeCore e.1 = core && !isControl e.1 && halfOf e.2 = half && readyPending e.2 && !skip e.1 then
      match best with
      | some b => if betterReady (s.grp b) e.2 then some b else some e.1
      | none => some e.1
    else best) b = some p → ∃ e ∈ s.groups, e.1 = p ∧ readyPending e.2 = true := by
    intro l
    induction l with
    | nil => intro b hb _ p h; exact hb p h
    | cons e l ih =>
      intro b hb hl p h
      simp only [List.foldl_cons] at h
      refine ih _ ?_ (fun e he => hl e (List.mem_cons_of_mem _ he)) p h
      intro q hq
      split at hq
      · rename_i hc
        simp only [Bool.and_eq_true] at hc
        cases b with
        | none => simp only at hq; cases hq; exact ⟨e, hl e (List.mem_cons_self ..), rfl, hc.1.2⟩
        | some b =>
          simp only at hq
          split at hq
          · exact hb q hq
          · cases hq; exact ⟨e, hl e (List.mem_cons_self ..), rfl, hc.1.2⟩
      · exact hb q hq
  exact key s.groups none (fun q h => by cases h) (fun e h => h) p h
theorem spFind_of_mem {α : Type} (m : List (Nat × α)) (lo k : Nat) (v : α) (h : spSorted lo m = true) (hm : (k, v) ∈ m) : spFind m k = some v := by
  induction m generalizing lo with
  | nil => cases hm
  | cons e m ih =>
    obtain ⟨i, w⟩ := e
    simp only [spSorted, Bool.and_eq_true, decide_eq_true_eq] at h
    rcases List.mem_cons.mp hm with hh | hh
    · cases hh; simp [spFind]
    · have hlt : ∀ (m : List (Nat × α)) lo, spSorted lo m = true → ∀ e ∈ m, lo ≤ e.1 := by
        intro m; induction m with
        | nil => intro _ _ _ h; cases h
        | cons a m ih =>
          intro lo h e he
          obtain ⟨j, x⟩ := a
          simp only [spSorted, Bool.and_eq_true, decide_eq_true_eq] at h
          rcases List.mem_cons.mp he with rfl | he
          · exact h.1
          · exact Nat.le_trans (Nat.le_succ_of_le h.1) (ih _ h.2 e he)
      have := hlt m _ h.2 _ hh
      simp only [spFind]
      rw [if_neg (by simp at this; omega)]
      exact ih _ h.2 hh
theorem spSorted_map {α : Type} (f : Nat × α → Nat × α) (hf : ∀ e, (f e).1 = e.1) (m : List (Nat × α)) (lo : Nat) : spSorted lo (m.map f) = spSorted lo m := by
  induction m generalizing lo with
  | nil => rfl
  | cons e m ih =>
    obtain ⟨i, w⟩ := e
    have h1 := hf (i, w)
    simp only [List.map_cons]
    cases hx : f (i, w) with
    | mk j x =>
      rw [hx] at h1
      cases h1
      simp only [spSorted, ih]
theorem takeTrack_other {s : State} {core half tr g p : Nat} {w : Bool} {x : Group} (hg : spFind s.groups g = some x) (hr : readyPending x = false) (hp : p ≠ g) :
    spFind (takeTrack s core half tr p w).groups g = some x := by
  unfold takeTrack
  dsimp only
  rw [spFind_map _ (by intro e; split; · rfl
                       split <;> rfl), hg]
  simp only [Option.map_some, if_neg (Ne.symm hp), hr, Bool.and_false]
  rfl
theorem fillTracks_other {core half g : Nat} {x : Group} (hr : readyPending x = false) (k : Nat) : ∀ (s : State), spSorted 0 s.groups = true →
    spFind s.groups g = some x → spFind (fillTracks s core half k).groups g = some x ∧ spSorted 0 (fillTracks s core half k).groups = true := by
  induction k with
  | zero => intro s hs hg; exact ⟨hg, hs⟩
  | succ k ih =>
    intro s hs hg
    unfold fillTracks
    split
    · rename_i tr p _ hp
      obtain ⟨e, he, h1, h2⟩ := pickReady_mem hp
      have hne : p ≠ g := by
        rintro rfl
        have := spFind_of_mem s.groups 0 p e.2 hs (by rw [← h1]; exact he)
        rw [hg] at this; cases this; rw [hr] at h2; cases h2
      refine ih _ ?_ (takeTrack_other hg hr hne)
      unfold takeTrack
      dsimp only
      rw [spSorted_map _ (by intro e; split; · rfl
                             split <;> rfl)]
      exact hs
    · exact ⟨hg, hs⟩
theorem fillCore_other {core g : Nat} {x : Group} (hr : readyPending x = false) (s : State) (hs : spSorted 0 s.groups = true)
    (hg : spFind s.groups g = some x) : spFind (fillCore s core).groups g = some x := by
  unfold fillCore
  obtain ⟨h1, h2⟩ := fillTracks_other (core := core) (half := 0) hr 8 s hs hg
  exact (fillTracks_other (core := core) (half := 1) hr 8 _ h2 h1).1
theorem updGrp_sorted (s : State) (g : Nat) (f : Group → Group) (h : spSorted 0 s.groups = true) : spSorted 0 (s.updGrp g f).groups = true :=
  spSorted_spPut _ _ _ _ h (Nat.zero_le _)
theorem updGrp_find (s : State) (g : Nat) (f : Group → Group) : spFind (s.updGrp g f).groups g = some (f (s.grp g)) := by
  simp [State.updGrp, State.setGrp]
theorem grp_of_find {s : State} {g : Nat} {x : Group} (h : spFind s.groups g = some x) : s.grp g = x := by simp [State.grp, h]
theorem leaveTrack_me (s : State) (g : Nat) : (leaveTrack s g).cur = s.cur := by
  unfold leaveTrack
  split; · rfl
  split; · rfl
  exact (filesAll_fillCore _ _).2.1
/-- A group that stays not ready keeps what it has when it leaves its track. -/
theorem leaveTrack_find (s : State) (g : Nat) (h : spSorted 0 s.groups = true) (hr : readyPending { endLine (s.grp g) with track := none } = false)
    (hc : isControl g = false) (hp : s.grpPavane g = false) :
    (leaveTrack s g).grp g = { endLine (s.grp g) with track := none } := by
  unfold leaveTrack
  rw [if_neg (by simp [hc]), if_neg (by simp [hp])]
  exact grp_of_find (fillCore_other hr _ (updGrp_sorted _ _ _ h) (updGrp_find _ _ _))
/-- What leaving a track keeps of the group itself. -/
def tied (x y : Group) : Prop := { x with track := y.track, tenure := y.tenure, passed := y.passed } = y
theorem tied_refl (x : Group) : tied x x := rfl
theorem tied_trans {x y z : Group} (h1 : tied x y) (h2 : tied y z) : tied x z := by
  unfold tied at *; rw [← h2, ← h1]
theorem takeTrack_tied (s : State) (core half tr p : Nat) (w : Bool) (g : Nat) : tied (s.grp g) ((takeTrack s core half tr p w).grp g) := by
  unfold State.grp takeTrack
  dsimp only
  rw [spFind_map _ (by intro e; split; · rfl
                       split <;> rfl)]
  cases spFind s.groups g with
  | none => exact tied_refl _
  | some x =>
    simp only [Option.map_some, Option.getD_some]
    split; · rfl
    split <;> rfl
theorem fillTracks_tied (core half k : Nat) (g : Nat) : ∀ (s : State), tied (s.grp g) ((fillTracks s core half k).grp g) := by
  induction k with
  | zero => intro s; exact tied_refl _
  | succ k ih =>
    intro s
    unfold fillTracks
    split
    · exact tied_trans (takeTrack_tied ..) (ih _)
    · exact tied_refl _
theorem fillCore_tied (s : State) (core g : Nat) : tied (s.grp g) ((fillCore s core).grp g) :=
  tied_trans (fillTracks_tied ..) (fillTracks_tied ..)
/-- What is left of a group's line execution when it leaves its track: all of it in a pavane block, which keeps its track (R321). -/
def waitLine (s : State) (g : Nat) : Group := if !isControl g && s.grpPavane g then s.grp g else endLine (s.grp g)
theorem leaveTrack_tied (s : State) (g : Nat) : tied { waitLine s g with track := ((leaveTrack s g).grp g).track } ((leaveTrack s g).grp g) := by
  have hme (s : State) (f : Group → Group) : (s.updGrp g f).grp g = f (s.grp g) := by simp [State.updGrp, State.setGrp, State.grp]
  unfold leaveTrack waitLine
  cases hc : isControl g
  · cases hp : s.grpPavane g
    · simp only [Bool.false_eq_true, if_false, Bool.not_false, Bool.and_false]
      have h := fillCore_tied (s.updGrp g fun x => { endLine x with track := none }) (placeCore g) g
      rw [hme] at h
      unfold tied at *
      rw [← h]
    · simp only [Bool.false_eq_true, if_false, if_true, Bool.not_false, Bool.and_self]
      exact tied_refl _
  · simp only [if_true, Bool.not_true, Bool.false_and, Bool.false_eq_true, if_false]
    rw [hme]; rfl
/-- The state from which a waiting instruction leaves its track. -/
def waitFrom (w : Wait) (s : State) : State :=
  (s.updMe fun x => { x with pc := s.cur.off }).updGrp s.cur.g fun x => { x with wait := w }
theorem waitFrom_grp (w : Wait) (s : State) : (waitFrom w s).grp s.cur.g = { s.me with pc := s.cur.off, wait := w } := by
  simp [waitFrom, State.me, State.updMe, State.updGrp, State.setGrp, State.grp]
theorem waitHere_grp (w : Wait) (s : State) (g : Nat) : (waitHere w s).grp g = (leaveTrack (waitFrom w s) s.cur.g).grp g := rfl
theorem waitHere_cur (w : Wait) (s : State) : (waitHere w s).cur.g = s.cur.g :=
  (congrArg (fun c => c.g) (leaveTrack_me (waitFrom w s) s.cur.g) : (leaveTrack (waitFrom w s) s.cur.g).cur.g = (waitFrom w s).cur.g)
theorem waitHere_me' (w : Wait) (s : State) : (waitHere w s).me = (leaveTrack (waitFrom w s) s.cur.g).grp s.cur.g := by
  show (waitHere w s).grp (waitHere w s).cur.g = _
  rw [waitHere_cur]; rfl
theorem waitFrom_pavane (w : Wait) (s : State) : (waitFrom w s).grpPavane s.cur.g = s.grpPavane s.cur.g := by
  have hb : ((waitFrom w s).grp s.cur.g).block = (s.grp s.cur.g).block := by rw [waitFrom_grp]; rfl
  unfold State.grpPavane State.grpLch State.grpBlk
  rw [hb]; rfl
/-- The group that waits, its line execution ended unless its block is a pavane block's (R33, R321). -/
theorem waitHere_me (w : Wait) (s : State) : ∃ tr te pa, (waitHere w s).me = { waitLine s s.cur.g with pc := s.cur.off, wait := w, track := tr, tenure := te, passed := pa } := by
  have h := leaveTrack_tied (waitFrom w s) s.cur.g
  have hw : waitLine (waitFrom w s) s.cur.g = { waitLine s s.cur.g with pc := s.cur.off, wait := w } := by
    unfold waitLine
    rw [waitFrom_pavane, waitFrom_grp]
    split <;> rfl
  rw [hw, ← waitHere_me'] at h
  exact ⟨(waitHere w s).me.track, (waitHere w s).me.tenure, (waitHere w s).me.passed, h.symm⟩
theorem waitHere_track (w : Wait) (s : State) (hw : w ≠ .none) (hs : spSorted 0 s.groups = true) (hc : isControl s.cur.g = false) (hp : s.grpPavane s.cur.g = false) :
    (waitHere w s).me.track = none := by
  rw [waitHere_me', leaveTrack_find]
  · exact updGrp_sorted _ _ _ (updGrp_sorted _ _ _ hs)
  · rw [waitFrom_grp]; simp [readyPending, endLine, hw]
  · exact hc
  · rw [waitFrom_pavane]; exact hp

/-! ### What passing the token keeps -/

theorem launches_foldl {α : Type} (f : State → α → State) (l : List α) (s : State) (h : ∀ s, ∀ x ∈ l, (f s x).launches = s.launches) :
    (l.foldl f s).launches = s.launches := by
  induction l generalizing s with
  | nil => rfl
  | cons a l ih => rw [List.foldl_cons, ih _ (fun s x hx => h s x (List.mem_cons_of_mem _ hx)), h s a (List.mem_cons_self ..)]
theorem launches_homePutMasked (s : State) (line : Nat) (m : BitVec 128) (d : BitVec 1024) : (homePutMasked s line m d).launches = s.launches := by
  unfold homePutMasked
  dsimp only
  split
  · rfl
  · have h (l : List (Nat × Welt)) (s : State) : (l.foldl (fun s e =>
        { s with mem := memPut s.mem e.1 (natBytes e.2.size e.2.bits), welts := spDel s.welts e.1 }) s).launches = s.launches :=
      launches_foldl _ _ _ fun _ _ _ => rfl
    generalize List.filter _ s.welts = l
    have h := h l s
    split <;> exact h
theorem launches_commitLine (r : Reach) (s : State) (ck line : Nat) (m : BitVec 128) (d : BitVec 1024) :
    (commitLine r s ck line m d).launches = s.launches := by
  have h : ∀ (t : State) (ds : List Nat), (awaitAcks t ck line ds).launches = t.launches := fun t ds => by unfold awaitAcks; split <;> rfl
  unfold commitLine
  rw [h]
  exact launches_homePutMasked s line m d
theorem launches_performTo (r : Reach) (s : State) (k : Nat) : (performTo r s k).launches = s.launches := by
  unfold performTo
  split
  · rfl
  · dsimp only
    split
    · split <;> rfl
    · exact launches_commitLine r { s with posted := spDel s.posted k } _ _ _ _
theorem launches_performAll (r : Reach) (s : State) (p : PostedWrite → Bool) : (performAll r s p).launches = s.launches :=
  launches_foldl _ _ _ fun s _ _ => launches_performTo r s _
theorem launches_writeBackTo (r : Reach) (s : State) (ck line : Nat) : (writeBackTo r s ck line).launches = s.launches := by
  unfold writeBackTo
  split
  · rfl
  · split
    · rfl
    · exact (launches_commitLine r (performAll r s _) ck line _ _).trans (launches_performAll r s _)
theorem launches_writeBackAll (s : State) (ck : Nat) : (writeBackAll s ck).launches = s.launches :=
  (launches_foldl _ _ _ fun s _ _ => launches_writeBackTo _ s ck _).trans (launches_performAll _ _ _)
theorem launches_fillTracks (core half k : Nat) (s : State) : (fillTracks s core half k).launches = s.launches := by
  induction k generalizing s with
  | zero => rfl
  | succ k ih => unfold fillTracks; split; exact (ih _).trans rfl; rfl
theorem launches_makeReady (s : State) (g : Nat) : (makeReady s g).launches = s.launches :=
  ((launches_fillTracks ..).trans (launches_fillTracks ..)).trans rfl
theorem launches_receiveToken (s : State) (l : Nat) : (receiveToken s l).launches = s.launches := by
  unfold receiveToken
  split
  · unfold wakeToken
    exact (launches_foldl _ _ _ fun s _ _ => launches_makeReady s _).trans rfl
  · rfl
theorem passToken_token (s : State) (l : Nat) : ((passToken s l).lch l).token
    = nextBid (s.lch l).retiredBids (s.lch l).lr.nblk ((s.lch l).retiredBids.length + 1) ((s.lch l).token + 1) := by
  unfold passToken
  dsimp only
  unfold State.lch
  rw [launches_receiveToken]
  have h : ∀ u : State, u.launches = s.launches → ∀ n, ((spFind (u.updLch l fun x => { x with token := nextBid x.retiredBids n (x.retiredBids.length + 1) (x.token + 1) }).launches l).getD {}).token =
      nextBid (s.lch l).retiredBids n ((s.lch l).retiredBids.length + 1) ((s.lch l).token + 1) := by
    intro u hu n
    simp only [State.updLch, spFind_spPut_self, Option.getD_some, State.lch, hu]
  split
  · exact h _ (launches_writeBackAll ..) _
  · exact h _ rfl _
open Claim

theorem filesAll_waitHere (w : Wait) (s : State) (g : Nat) : sameFile (s.grp g) ((waitHere w s).grp g) := by
  rw [waitHere_grp]
  refine sameFile_trans ?_ ((filesAll_leaveTrack _ _).1 g)
  have h1 := (filesAll_updGrp s s.cur.g (fun x => { x with pc := s.cur.off }) ⟨rfl, rfl, rfl, rfl, rfl, rfl, rfl, rfl⟩ rfl).1 g
  have h2 := (filesAll_updGrp (s.updMe fun x => { x with pc := s.cur.off }) s.cur.g (fun x => { x with wait := w }) ⟨rfl, rfl, rfl, rfl, rfl, rfl, rfl, rfl⟩ rfl).1 g
  exact sameFile_trans h1 h2
theorem filesKept_cur {us ps gs} {s t u : State} (h : filesKept us ps gs s t) (hg : u.groups = t.groups) (hc : u.cur.g = t.cur.g) : filesKept us ps gs s u := by
  have h1 : ∀ g, u.grp g = t.grp g := fun g => by unfold State.grp; rw [hg]
  have h2 : u.me = t.me := by unfold State.me; rw [hc, h1]
  unfold filesKept
  rw [h2]
  exact ⟨fun g hh => by rw [h1]; exact h.1 g hh, h.2⟩

end Sys2Proof.Machine
end

