-- ==== Sys2Proof/Laws/Trap.lean ====
section
/-! SUPPORT. Trap.lean (laws): taking a trap: what enters the trap queue, what the trapped group keeps, and that a machine check
marks its die. -/

namespace Sys2Proof.Machine
theorem updGrp_grp (s : State) (g : Nat) (f : Group → Group) : (s.updGrp g f).grp g = f (s.grp g) := by simp [State.updGrp, State.setGrp, State.grp]
theorem fillTracks_handlers (core half k : Nat) (s : State) : (fillTracks s core half k).handlers = s.handlers := by
  induction k generalizing s with
  | zero => rfl
  | succ k ih => unfold fillTracks; split; exact (ih _).trans rfl; rfl
theorem leaveTrack_handlers (s : State) (g : Nat) : (leaveTrack s g).handlers = s.handlers := by
  unfold leaveTrack
  split; · rfl
  split; · rfl
  exact ((fillTracks_handlers ..).trans (fillTracks_handlers ..)).trans rfl
/-- The state in which a trapped group leaves its track. -/
def trapFrom (s : State) (g off : Nat) (t : Trap) : State :=
  let x := s.grp g
  let s := queueTrap s (quadOf (placeCore g)) (some g) (trapRegs s (some g) off t)
  let s := s.updGrp g fun x =>
    { endLine x with halt := true, byhalt := false, cause := t.cause, refused := if t.cause = 0x18 then none else x.refused }
  let s := match t.stage with
    | some j => { s with stages := s.stages.map fun e => if e.1 = j then (e.1, { e.2 with told := true }) else e }
    | none => s
  if t.cause ≠ 0x12 then s else
    { s with copies := s.copies.map fun e =>
        if e.2.token = t.tok && e.2.g = g && e.2.uid = x.uid then (e.1, { e.2 with ptrapped := true }) else e }
theorem raiseAt_live (s : State) (g off : Nat) (t : Trap) (hc : isControl g = false) (hh : (s.grp g).halt = false) :
    raiseAt s g off t = leaveTrack (trapFrom s g off t) g := by
  unfold raiseAt trapFrom
  simp only [hc, hh]
  rfl
theorem trapFrom_groups (s : State) (g off : Nat) (t : Trap) : (trapFrom s g off t).groups =
    (s.updGrp g fun x => { endLine x with halt := true, byhalt := false, cause := t.cause, refused := if t.cause = 0x18 then none else x.refused }).groups := by
  unfold trapFrom
  dsimp only
  split <;> split <;> rfl
theorem trapFrom_handlers (s : State) (g off : Nat) (t : Trap) : (trapFrom s g off t).handlers =
    (queueTrap s (quadOf (placeCore g)) (some g) (trapRegs s (some g) off t)).handlers := by
  unfold trapFrom
  dsimp only
  split <;> split <;> rfl
theorem trapFrom_pavane (s : State) (g off : Nat) (t : Trap) (k : Nat) : (trapFrom s g off t).grpPavane k = s.grpPavane k := by
  have h1 : (trapFrom s g off t).blocks = s.blocks := by unfold trapFrom; dsimp only; split <;> split <;> rfl
  have h2 : (trapFrom s g off t).launches = s.launches := by unfold trapFrom; dsimp only; split <;> split <;> rfl
  have h3 : ((trapFrom s g off t).grp k).block = (s.grp k).block := by
    unfold State.grp; rw [trapFrom_groups]
    by_cases hk : k = g
    · subst hk; simp only [State.updGrp, State.setGrp, spFind_spPut_self, Option.getD_some, State.grp]; rfl
    · simp only [State.updGrp, State.setGrp]; rw [spFind_spPut_ne _ _ _ _ (Ne.symm hk)]
  unfold State.grpPavane State.grpLch State.grpBlk State.blk State.lch
  rw [h1, h2, h3]
theorem trapRegs_tcause (s : State) (g off : Nat) (t : Trap) (h : t.cause < 256) : bitsNat (trapRegs s (some g) off t).tcause 7 0 = t.cause := by
  have key : ∀ a b d : Nat, a % 256 = 0 → b % 256 = 0 → d % 256 = 0 → (t.cause + t.code * 256 + a + b + d) % 18446744073709551616 % 256 = t.cause := by
    intro a b d ha hb hd
    omega
  unfold trapRegs
  simp only [bitsNat, BitVec.toNat_ofNat, Nat.shiftRight_zero, Nat.sub_zero, Nat.reduceAdd, Nat.reducePow]
  refine key _ _ _ ?_ ?_ ?_
  all_goals split <;> rfl
theorem trapRegs_tpc (s : State) (g off : Nat) (t : Trap) (h : t.pc = none) : bitsNat (trapRegs s (some g) off t).tpc 26 0 = off % 2 ^ 27 := by
  unfold trapRegs
  simp only [h, Option.getD_none, pcWord, bitsNat, BitVec.toNat_ofNat, Nat.shiftRight_zero, Nat.sub_zero, Nat.reduceAdd, Nat.reducePow]
  generalize planeOf _ _ = m
  omega
theorem trapRegs_rest (s : State) (g off : Nat) (t : Trap) : (trapRegs s (some g) off t).tmask = t.mask
    ∧ (trapRegs s (some g) off t).taddr = BitVec.ofNat 64 t.addr ∧ (trapRegs s (some g) off t).tgroup = BitVec.ofNat 64 (handleOf s g) := by
  have e : ∀ (f : Nat → Nat), ((some g).map f).getD 0 = f g := fun _ => rfl
  refine ⟨rfl, rfl, ?_⟩
  unfold trapRegs
  exact congrArg (BitVec.ofNat 64) (e (handleOf s))
theorem trapRegs_parts (s : State) (g off : Nat) (t : Trap) :
    (t.cause < 256 → bitsNat (trapRegs s (some g) off t).tcause 7 0 = t.cause) ∧ (trapRegs s (some g) off t).tmask = t.mask
    ∧ (trapRegs s (some g) off t).taddr = BitVec.ofNat 64 t.addr
    ∧ (t.pc = none → bitsNat (trapRegs s (some g) off t).tpc 26 0 = off % 2 ^ 27)
    ∧ (trapRegs s (some g) off t).tgroup = BitVec.ofNat 64 (handleOf s g) :=
  ⟨trapRegs_tcause s g off t, (trapRegs_rest s g off t).1, (trapRegs_rest s g off t).2.1, trapRegs_tpc s g off t, (trapRegs_rest s g off t).2.2⟩
theorem foldl_keep {α : Type} (P : State → Prop) (f : State → α → State) (l : List α) (s : State) (h : ∀ s, ∀ x ∈ l, P s → P (f s x)) (hs : P s) :
    P (l.foldl f s) := by
  induction l generalizing s with
  | nil => exact hs
  | cons a l ih => exact ih _ (fun s x hx => h s x (List.mem_cons_of_mem _ hx)) (h s a (List.mem_cons_self ..) hs)
theorem mcheck_sendOn (s : State) (sid k f : Nat) (p : List Byte) : (sendOn s sid k f p).dies = s.dies := by
  unfold sendOn
  split <;> rfl
theorem mcheck_sendEvent (s : State) (e : EventRec) (d : Nat) (h : (s.die d).mcheck = true) : ((sendEvent s e).die d).mcheck = true := by
  have hu : ∀ f : Die → Die, (∀ x, (f x).mcheck = x.mcheck) → ((s.updDie e.die f).die d).mcheck = true := by
    intro f hf
    by_cases hd : e.die = d
    · subst hd; simp only [State.die, State.updDie, spFind_spPut_self, Option.getD_some]; rw [hf]; exact h
    · simp only [State.die, State.updDie]; rw [spFind_spPut_ne _ _ _ _ hd]; exact h
  unfold sendEvent
  dsimp only
  split
  · exact hu _ fun x => by split <;> rfl
  · refine foldl_keep (fun s => (s.die d).mcheck = true) _ _ _ (fun s x _ hs => ?_) h
    unfold State.die at hs ⊢
    rw [mcheck_sendOn]; exact hs
theorem machineCheck_mcheck (u : State) (d : Nat) (hd : diePresent u d = true) : ((machineCheck u d).die d).mcheck = true := by
  unfold machineCheck
  cases hk : (u.die d).mcheck
  · simp only [hd]
    rw [if_neg (by decide)]
    unfold State.die
    dsimp only
    refine foldl_keep (fun s => (s.die d).mcheck = true) _ _ _ (fun s x _ hs => hs) ?_
    refine foldl_keep (fun s => (s.die d).mcheck = true) _ _ _ (fun s x _ hs => hs) ?_
    simp [State.die, State.updDie]
  · simp only [Bool.true_or, if_true, hk]

end Sys2Proof.Machine
end

