-- ==== Sys2Proof/Laws/Results.lean ====
section
/-! SUPPORT. Results.lean (laws): what the writes of a Format A result leave: the destination, the latch, the predicates, and the
entries of other threads. -/

namespace Sys2Proof.Machine

open Claim

theorem key_ne {r r' t t' : Nat} (ht : t < 64) (ht' : t' < 64) (h : ¬ (r = r' ∧ t = t')) : r * 64 + t ≠ r' * 64 + t' := by omega
theorem readV_setV (x : Group) (r t v r' t' : Nat) (ht : t < 64) (ht' : t' < 64) :
    readV (setV x r t v) r' t' = if r = r' ∧ t = t' then v % 2 ^ 32 else readV x r' t' := by
  unfold readV setV
  dsimp only
  split
  · rename_i h; obtain ⟨rfl, rfl⟩ := h; rw [spGet_spSet_self]; simp
  · rename_i h; rw [spGet_spSet_ne _ _ _ _ _ (key_ne ht ht' h)]
theorem readK_setK (x : Group) (r v : Nat) : readK (setK x r v) r = v % 2 ^ 64 := by simp [readK, setK]
theorem bit_pow (t i : Nat) (ht : t < 64) (hi : i < 64) : (BitVec.ofNat 64 (2 ^ t)).getLsbD i = decide (t = i) := by
  rw [BitVec.getLsbD_ofNat, Nat.testBit_two_pow]; simp [hi]
theorem latch_setLatch (x : Group) (l t v l' t' : Nat) (ht : t < 64) (ht' : t' < 64) :
    (readLatch (setLatch x l t v) l' t' = if l = l' ∧ t = t' then v % 2 ^ 64 else readLatch x l' t')
    ∧ (latchValid (setLatch x l t v) l' t' = if l = l' ∧ t = t' then true else latchValid x l' t') := by
  constructor
  · unfold readLatch setLatch
    dsimp only
    split
    · rename_i h; obtain ⟨rfl, rfl⟩ := h; rw [spGet_spSet_self]; simp
    · rename_i h; rw [spGet_spSet_ne _ _ _ _ _ (key_ne ht ht' h)]
  · unfold latchValid setLatch
    dsimp only
    by_cases hl : l = l'
    · subst hl
      rw [spGet_spSet_self, BitVec.getLsbD_or, bit_pow t t' ht ht']
      by_cases h : t = t' <;> simp [h]
    · rw [spGet_spSet_ne _ _ _ _ _ hl, if_neg (by simp [hl])]
theorem latch_setLatchAll (x : Group) (l v t' : Nat) (ht' : t' < 64) :
    readLatch (setLatchAll x l v) l t' = v % 2 ^ 64 ∧ latchValid (setLatchAll x l v) l t' = true := by
  constructor
  · unfold readLatch setLatchAll
    dsimp only
    have key : ∀ (ts : List Nat) (m : List (Nat × DWord)), (∀ t ∈ ts, t < 64) → t' ∈ ts →
        spGet 0 (ts.foldl (fun m t => spSet 0 m (l * 64 + t) (BitVec.ofNat 64 v)) m) (l * 64 + t') = BitVec.ofNat 64 v := by
      intro ts
      induction ts with
      | nil => intro _ _ h; cases h
      | cons a ts ih =>
        intro m hlt hm
        simp only [List.foldl_cons]
        by_cases h : t' ∈ ts
        · exact ih _ (fun t ht => hlt t (List.mem_cons_of_mem _ ht)) h
        · have ha : a = t' := by rcases List.mem_cons.mp hm with rfl | h'; rfl; exact absurd h' h
          subst ha
          have : ∀ (us : List Nat) (m : List (Nat × DWord)), (∀ t ∈ us, t < 64) → a ∉ us → spGet 0 (us.foldl (fun m t => spSet 0 m (l * 64 + t) (BitVec.ofNat 64 v)) m) (l * 64 + a) = spGet 0 m (l * 64 + a) := by
            intro us
            induction us with
            | nil => intro m _ _; rfl
            | cons b us ih' =>
              intro m hb hn
              simp only [List.foldl_cons]
              rw [ih' _ (fun t ht => hb t (List.mem_cons_of_mem _ ht)) (fun h => hn (List.mem_cons_of_mem _ h)), spGet_spSet_ne _ _ _ _ _ (by have : b ≠ a := fun h => hn (h ▸ List.mem_cons_self ..); omega)]
          rw [this ts _ (fun t ht => hlt t (List.mem_cons_of_mem _ ht)) h, spGet_spSet_self]
    rw [key tids x.lat (fun t ht => by simpa [tids] using ht) (by simpa [tids] using ht')]
    simp
  · unfold latchValid setLatchAll
    dsimp only
    rw [spGet_spSet_self, BitVec.getLsbD_allOnes]
    simp [ht']
theorem predP_setP (x : Group) (p t : Nat) (v : Bool) (p' t' : Nat) (ht : t < 64) (ht' : t' < 64) (hp : p ≠ 7) :
    predP (setP x p t v) p' t' = if p = p' ∧ t = t' then v else predP x p' t' := by
  unfold predP setP
  rw [if_neg hp]
  dsimp only
  by_cases h : p = p'
  · subst h
    rw [spGet_spSet_self]
    cases v
    · simp only [Bool.false_eq_true, if_false, BitVec.getLsbD_and, BitVec.getLsbD_not, bit_pow t t' ht ht', ht', decide_true, Bool.true_and]
      by_cases h : t = t' <;> simp [h, hp]
    · simp only [if_true, BitVec.getLsbD_or, bit_pow t t' ht ht']
      by_cases h : t = t' <;> simp [h, hp]
  · rw [spGet_spSet_ne _ _ _ _ _ h, if_neg (by simp [h])]
theorem predG_setG (x : Group) (p : Nat) (v : Bool) (p' : Nat) (hp : p < 7) : predG (setG x p v) p' = if p = p' then v else predG x p' := by
  have hb : ∀ i, (BitVec.ofNat 8 (2 ^ p)).getLsbD i = decide (p = i) := by
    intro i; rw [BitVec.getLsbD_ofNat, Nat.testBit_two_pow]
    by_cases h : p = i
    · subst h; simp; omega
    · simp [h]
  unfold predG setG
  rw [if_neg (by omega)]
  dsimp only
  cases v
  · simp only [Bool.false_eq_true, if_false, BitVec.getLsbD_and, BitVec.getLsbD_not, hb]
    by_cases h : p = p'
    · subst h; simp; omega
    · rw [if_neg h]
      by_cases h8 : p' < 8
      · simp [h, h8]
      · rw [BitVec.getLsbD_of_ge x.gp p' (by omega)]; simp
  · simp only [if_true, BitVec.getLsbD_or, hb]
    by_cases h : p = p'
    · subst h; simp
    · simp [h]

/-- setPred touches nothing but predicates. -/
theorem setPred_rest (x : Group) (g : Bool) (p t : Nat) (v : Bool) :
    (setPred x g p t v).vr = x.vr ∧ (setPred x g p t v).kr = x.kr ∧ (setPred x g p t v).lat = x.lat ∧ (setPred x g p t v).latOk = x.latOk
    ∧ (setPred x g p t v).fstat = x.fstat := by
  unfold setPred setG setP
  split <;> split <;> exact ⟨rfl, rfl, rfl, rfl, rfl⟩
theorem latchRes_rest (x : Group) (h : Hdr) (ty t b : Nat) :
    (latchRes x h ty t b).vr = x.vr ∧ (latchRes x h ty t b).kr = x.kr ∧ (latchRes x h ty t b).pr = x.pr ∧ (latchRes x h ty t b).gp = x.gp
    ∧ (latchRes x h ty t b).fstat = x.fstat := by
  unfold latchRes setLatch setLatchAll
  split <;> exact ⟨rfl, rfl, rfl, rfl, rfl⟩
theorem setReg_rest (x : Group) (f : BitVec 10) (ty t b : Nat) :
    (setReg x f ty t b).lat = x.lat ∧ (setReg x f ty t b).latOk = x.latOk ∧ (setReg x f ty t b).pr = x.pr ∧ (setReg x f ty t b).gp = x.gp
    ∧ (setReg x f ty t b).fstat = x.fstat := by
  unfold setReg setV setK
  dsimp only
  split
  · split <;> exact ⟨rfl, rfl, rfl, rfl, rfl⟩
  · split <;> exact ⟨rfl, rfl, rfl, rfl, rfl⟩
theorem extend_lt (ty w b : Nat) : extend ty w b < 2 ^ w := by
  unfold extend
  dsimp only
  split
  · unfold intBits
    have : (0:Int) < ((2 ^ w : Nat) : Int) := by positivity
    have h1 := Int.emod_nonneg (signedNat (tyWidth ty) b) (ne_of_gt this)
    have h2 := Int.emod_lt_of_pos (signedNat (tyWidth ty) b) this
    omega
  · exact Nat.mod_lt _ (Nat.pos_of_ne_zero (by positivity))
/-- What setReg writes to a v register of the thread, and to others. -/
theorem setReg_v (x : Group) (f : BitVec 10) (ty t b : Nat) (ht : t < 64) (hf : WF.isV f = true) :
    (tyWidth ty < 64 → readV (setReg x f ty t b) f.toNat t = extend ty 32 b)
    ∧ (tyWidth ty = 64 → readVPair (setReg x f ty t b) f.toNat t = b % 2 ^ 64) := by
  simp only [WF.isV, decide_eq_true_eq] at hf
  unfold setReg
  dsimp only
  rw [if_pos hf]
  refine ⟨fun h => ?_, fun h => ?_⟩
  · rw [if_neg (by omega), readV_setV _ _ _ _ _ _ ht ht, if_pos ⟨rfl, rfl⟩, Nat.mod_eq_of_lt (extend_lt ..)]
  · rw [if_pos h]
    unfold readVPair
    rw [readV_setV _ _ _ _ _ _ ht ht, if_neg (by omega), readV_setV _ _ _ _ _ _ ht ht, if_pos ⟨rfl, rfl⟩, readV_setV _ _ _ _ _ _ ht ht, if_pos ⟨rfl, rfl⟩]
    omega
theorem setReg_v_other (x : Group) (f : BitVec 10) (ty t b r i : Nat) (ht : t < 64) (hi : i < 64) (h : t ≠ i) :
    readV (setReg x f ty t b) r i = readV x r i := by
  unfold setReg
  dsimp only
  split
  · split
    · rw [readV_setV _ _ _ _ _ _ ht hi, if_neg (by simp [h]), readV_setV _ _ _ _ _ _ ht hi, if_neg (by simp [h])]
    · rw [readV_setV _ _ _ _ _ _ ht hi, if_neg (by simp [h])]
  · split
    · rfl
    · rfl
theorem setReg_k (x : Group) (f : BitVec 10) (ty t b : Nat) (hf : WF.isK f = true) : readK (setReg x f ty t b) (f.toNat - 0x100) = extend ty 64 b := by
  simp only [WF.isK, Bool.and_eq_true, decide_eq_true_eq] at hf
  unfold setReg
  dsimp only
  rw [if_neg (by omega), if_pos hf.2, readK_setK, Nat.mod_eq_of_lt (extend_lt ..)]
/-- Entries of thread i are the same. -/
def threadSame (i : Nat) (x y : Group) : Prop :=
  (∀ r, readV y r i = readV x r i) ∧ (∀ l, readLatch y l i = readLatch x l i ∧ latchValid y l i = latchValid x l i) ∧ (∀ p, predP y p i = predP x p i)
theorem threadSame_refl (i : Nat) (x : Group) : threadSame i x x := ⟨fun _ => rfl, fun _ => ⟨rfl, rfl⟩, fun _ => rfl⟩
theorem threadSame_trans {i : Nat} {x y z : Group} (h1 : threadSame i x y) (h2 : threadSame i y z) : threadSame i x z :=
  ⟨fun r => (h2.1 r).trans (h1.1 r), fun l => ⟨(h2.2.1 l).1.trans (h1.2.1 l).1, (h2.2.1 l).2.trans (h1.2.1 l).2⟩, fun p => (h2.2.2 p).trans (h1.2.2 p)⟩
theorem threadSame_latchRes (x : Group) (h : Hdr) (ty t b i : Nat) (hu : h.u = false) (ht : t < 64) (hi : i < 64) (hne : t ≠ i) :
    threadSame i x (latchRes x h ty t b) := by
  unfold latchRes
  rw [if_neg (by simp [hu])]
  refine ⟨fun _ => rfl, fun l => ?_, fun _ => rfl⟩
  obtain ⟨h1, h2⟩ := latch_setLatch x h.l.toNat t (extend ty 64 b) l i ht hi
  rw [h1, h2, if_neg (by simp [hne]), if_neg (by simp [hne])]; exact ⟨rfl, rfl⟩
theorem threadSame_setReg (x : Group) (f : BitVec 10) (ty t b i : Nat) (ht : t < 64) (hi : i < 64) (hne : t ≠ i) :
    threadSame i x (setReg x f ty t b) := by
  obtain ⟨h1, h2, h3, _⟩ := setReg_rest x f ty t b
  refine ⟨fun r => setReg_v_other _ _ _ _ _ _ _ ht hi hne, fun l => ?_, fun p => ?_⟩
  · unfold readLatch latchValid; rw [h1, h2]; exact ⟨rfl, rfl⟩
  · unfold predP; rw [h3]
theorem threadSame_setPred (x : Group) (g : Bool) (p t : Nat) (v : Bool) (i : Nat) (ht : t < 64) (hi : i < 64) (hne : t ≠ i) :
    threadSame i x (setPred x g p t v) := by
  obtain ⟨h1, h2, h3, h4, _⟩ := setPred_rest x g p t v
  refine ⟨fun r => by unfold readV; rw [h1], fun l => by unfold readLatch latchValid; rw [h3, h4]; exact ⟨rfl, rfl⟩, fun p' => ?_⟩
  unfold setPred
  split
  · unfold setG; split <;> rfl
  · by_cases hp : p = 7
    · unfold setP; rw [if_pos hp]
    · rw [predP_setP _ _ _ _ _ _ ht hi hp, if_neg (by simp [hne])]
theorem threadSame_putRes (o : FmtA) (x : Group) (t i : Nat) (r : Res) (hu : o.h.u = false) (ht : t < 64) (hi : i < 64) (hne : t ≠ i) :
    threadSame i x (putRes o x t r) := by
  unfold putRes
  split
  · exact threadSame_refl ..
  have h2 : ∀ y, threadSame i x y → threadSame i x (match r.q with
    | some v => if WF.qv o then setPred y (WF.pdc o) (bitsNat (WF.fnv o) 30 28) t v else y
    | none => y) := by
    intro y hy
    split
    · split
      · exact threadSame_trans hy (threadSame_setPred _ _ _ _ _ _ ht hi hne)
      · exact hy
    · exact hy
  apply h2
  split
  · rename_i v _
    have := threadSame_latchRes x o.h 2 t (if v then 1 else 0) i hu ht hi hne
    dsimp only
    split
    · exact this
    · exact threadSame_trans this (threadSame_setPred _ _ _ _ _ _ ht hi hne)
  · unfold writeDest
    have := threadSame_latchRes x o.h r.ty t r.val i hu ht hi hne
    dsimp only
    split
    · exact this
    · exact threadSame_trans this (threadSame_setReg _ _ _ _ _ _ ht hi hne)
theorem putRes_fstat (o : FmtA) (x : Group) (t : Nat) (r : Res) : (putRes o x t r).fstat = x.fstat := by
  unfold putRes
  split
  · rfl
  have h2 : ∀ y : Group, y.fstat = x.fstat → (match r.q with
    | some v => if WF.qv o then setPred y (WF.pdc o) (bitsNat (WF.fnv o) 30 28) t v else y
    | none => y).fstat = x.fstat := by
    intro y hy
    split
    · split
      · rw [(setPred_rest ..).2.2.2.2]; exact hy
      · exact hy
    · exact hy
  apply h2
  split
  · dsimp only
    split
    · exact (latchRes_rest ..).2.2.2.2
    · rw [(setPred_rest ..).2.2.2.2]; exact (latchRes_rest ..).2.2.2.2
  · unfold writeDest
    dsimp only
    split
    · exact (latchRes_rest ..).2.2.2.2
    · rw [(setReg_rest ..).2.2.2.2]; exact (latchRes_rest ..).2.2.2.2

/-- q's write, last of a result's. -/
def putQ (o : FmtA) (t : Nat) (r : Res) (y : Group) : Group :=
  match r.q with
  | some v => if WF.qv o then setPred y (WF.pdc o) (bitsNat (WF.fnv o) 30 28) t v else y
  | none => y
theorem putQ_rest (o : FmtA) (t : Nat) (r : Res) (y : Group) :
    (putQ o t r y).vr = y.vr ∧ (putQ o t r y).kr = y.kr ∧ (putQ o t r y).lat = y.lat ∧ (putQ o t r y).latOk = y.latOk := by
  unfold putQ
  split
  · split
    · have := setPred_rest y (WF.pdc o) (bitsNat (WF.fnv o) 30 28) t (by assumption)
      exact ⟨this.1, this.2.1, this.2.2.1, this.2.2.2.1⟩
    · exact ⟨rfl, rfl, rfl, rfl⟩
  · exact ⟨rfl, rfl, rfl, rfl⟩
theorem putRes_none (o : FmtA) (x : Group) (t : Nat) (r : Res) (hs : r.skip = false) (hp : r.pred = none) :
    putRes o x t r = putQ o t r (writeDest x o.h o.d r.ty t r.val) := by
  unfold putRes putQ
  rw [hs, hp]; rfl
theorem putRes_some (o : FmtA) (x : Group) (t : Nat) (r : Res) (v : Bool) (hs : r.skip = false) (hp : r.pred = some v) :
    putRes o x t r = putQ o t r (if o.h.s then latchRes x o.h 2 t (if v then 1 else 0)
      else setPred (latchRes x o.h 2 t (if v then 1 else 0)) (WF.pdc o) (o.d.toNat % 8) t v) := by
  unfold putRes putQ
  rw [hs, hp]; rfl
theorem predP_setPred (x : Group) (g : Bool) (p t : Nat) (v : Bool) (ht : t < 64) (hp : p ≠ 7) (hg : g = false) : predP (setPred x g p t v) p t = v := by
  subst hg
  show predP (setP x p t v) p t = v
  rw [predP_setP _ _ _ _ _ _ ht ht hp, if_pos ⟨rfl, rfl⟩]
theorem predG_setPred (x : Group) (g : Bool) (p t : Nat) (v : Bool) (hp : p < 7) (hg : g = true) : predG (setPred x g p t v) p = v := by
  subst hg
  show predG (setG x p v) p = v
  rw [predG_setG _ _ _ _ hp, if_pos rfl]
theorem putQ_q (o : FmtA) (t : Nat) (r : Res) (y : Group) (v : Bool) (ht : t < 64) (hq : r.q = some v) (hv : WF.qv o = true) (h7 : bitsNat (WF.fnv o) 30 28 ≠ 7) :
    (WF.pdc o = false → predP (putQ o t r y) (bitsNat (WF.fnv o) 30 28) t = v) ∧ (WF.pdc o = true → predG (putQ o t r y) (bitsNat (WF.fnv o) 30 28) = v) := by
  have h8 : bitsNat (WF.fnv o) 30 28 < 8 := Nat.mod_lt _ (by decide)
  unfold putQ
  rw [hq]
  dsimp only
  rw [if_pos hv]
  exact ⟨predP_setPred _ _ _ _ _ ht h7, predG_setPred _ _ _ _ _ (by omega)⟩
theorem putQ_other (o : FmtA) (t : Nat) (r : Res) (y : Group) (p : Nat) (ht : t < 64)
    (h : ¬ (WF.qv o = true ∧ bitsNat (WF.fnv o) 30 28 = p ∧ r.q.isSome = true)) :
    predP (putQ o t r y) p t = predP y p t ∧ predG (putQ o t r y) p = predG y p := by
  have h8 : bitsNat (WF.fnv o) 30 28 < 8 := Nat.mod_lt _ (by decide)
  unfold putQ
  cases hq : r.q with
  | none => exact ⟨rfl, rfl⟩
  | some v =>
    dsimp only
    by_cases hv : WF.qv o = true
    · rw [if_pos hv]
      have hne : bitsNat (WF.fnv o) 30 28 ≠ p := fun e => h ⟨hv, e, by rw [hq]; rfl⟩
      unfold setPred
      by_cases h7 : bitsNat (WF.fnv o) 30 28 = 7
      · rw [h7]; unfold setG setP; split <;> exact ⟨rfl, rfl⟩
      · split
        · refine ⟨?_, ?_⟩
          · unfold setG; rw [if_neg h7]; rfl
          · rw [predG_setG _ _ _ _ (by omega), if_neg hne]
        · refine ⟨?_, ?_⟩
          · rw [predP_setP _ _ _ _ _ _ ht ht h7, if_neg (by simp [hne])]
          · unfold setP; rw [if_neg h7]; rfl
    · rw [if_neg hv]; exact ⟨rfl, rfl⟩
/-- What one result leaves for its own thread. -/
theorem putRes_self (o : FmtA) (x : Group) (i : Nat) (r : Res) (hi : i < 64) (hs : r.skip = false) :
    (r.pred = none →
      (o.h.s = false → WF.isV o.d = true → (tyWidth r.ty < 64 → readV (putRes o x i r) o.d.toNat i = extend r.ty 32 r.val)
        ∧ (tyWidth r.ty = 64 → readVPair (putRes o x i r) o.d.toNat i = r.val % 2 ^ 64))
      ∧ (o.h.s = false → WF.isK o.d = true → readK (putRes o x i r) (o.d.toNat - 0x100) = extend r.ty 64 r.val)
      ∧ (o.h.u = false → latchValid (putRes o x i r) o.h.l.toNat i = true ∧ readLatch (putRes o x i r) o.h.l.toNat i = extend r.ty 64 r.val)
      ∧ (o.h.u = true → ∀ j, j < 64 → latchValid (putRes o x i r) o.h.l.toNat j = true ∧ readLatch (putRes o x i r) o.h.l.toNat j = extend r.ty 64 r.val))
    ∧ (∀ v, r.pred = some v → o.h.s = false → o.d.toNat % 8 ≠ 7 →
        ¬ (WF.qv o = true ∧ bitsNat (WF.fnv o) 30 28 = o.d.toNat % 8 ∧ r.q.isSome = true) →
        (WF.pdc o = false → predP (putRes o x i r) (o.d.toNat % 8) i = v) ∧ (WF.pdc o = true → predG (putRes o x i r) (o.d.toNat % 8) = v))
    ∧ (∀ v, r.q = some v → WF.qv o = true → bitsNat (WF.fnv o) 30 28 ≠ 7 →
        (WF.pdc o = false → predP (putRes o x i r) (bitsNat (WF.fnv o) 30 28) i = v)
        ∧ (WF.pdc o = true → predG (putRes o x i r) (bitsNat (WF.fnv o) 30 28) = v)) := by
  refine ⟨fun hp => ?_, fun v hp hss h7 hn => ?_, fun v hq hv h7 => ?_⟩
  · rw [putRes_none o x i r hs hp]
    obtain ⟨q1, q2, q3, q4⟩ := putQ_rest o i r (writeDest x o.h o.d r.ty i r.val)
    have hl : (writeDest x o.h o.d r.ty i r.val).lat = (latchRes x o.h r.ty i r.val).lat ∧ (writeDest x o.h o.d r.ty i r.val).latOk = (latchRes x o.h r.ty i r.val).latOk := by
      unfold writeDest; dsimp only; split
      · exact ⟨rfl, rfl⟩
      · exact ⟨(setReg_rest ..).1, (setReg_rest ..).2.1⟩
    refine ⟨fun hss hv => ?_, fun hss hk => ?_, fun hu => ?_, fun hu j hj => ?_⟩
    · have := setReg_v (latchRes x o.h r.ty i r.val) o.d r.ty i r.val hi hv
      unfold readVPair readV at this ⊢
      rw [q1]
      unfold writeDest
      dsimp only
      rw [if_neg (by simp [hss])]
      exact this
    · have := setReg_k (latchRes x o.h r.ty i r.val) o.d r.ty i r.val hk
      unfold readK at this ⊢
      rw [q2]
      unfold writeDest
      dsimp only
      rw [if_neg (by simp [hss])]
      exact this
    · have := latch_setLatch x o.h.l.toNat i (extend r.ty 64 r.val) o.h.l.toNat i hi hi
      rw [if_pos ⟨rfl, rfl⟩, if_pos ⟨rfl, rfl⟩, Nat.mod_eq_of_lt (extend_lt ..)] at this
      unfold readLatch latchValid at this ⊢
      rw [q3, q4, hl.1, hl.2]
      unfold latchRes
      rw [if_neg (by simp [hu])]
      exact ⟨this.2, this.1⟩
    · have := latch_setLatchAll x o.h.l.toNat (extend r.ty 64 r.val) j hj
      rw [Nat.mod_eq_of_lt (extend_lt ..)] at this
      unfold readLatch latchValid at this ⊢
      rw [q3, q4, hl.1, hl.2]
      unfold latchRes
      rw [if_pos hu]
      exact ⟨this.2, this.1⟩
  · rw [putRes_some o x i r v hs hp, if_neg (by simp [hss])]
    obtain ⟨h1, h2⟩ := putQ_other o i r (setPred (latchRes x o.h 2 i (if v then 1 else 0)) (WF.pdc o) (o.d.toNat % 8) i v) (o.d.toNat % 8) hi hn
    rw [h1, h2]
    exact ⟨predP_setPred _ _ _ _ _ hi h7, predG_setPred _ _ _ _ _ (by omega)⟩
  · cases hp : r.pred with
    | none => rw [putRes_none o x i r hs hp]; exact putQ_q _ _ _ _ _ hi hq hv h7
    | some w => rw [putRes_some o x i r w hs hp]; exact putQ_q _ _ _ _ _ hi hq hv h7
theorem runners_nodup (s : State) (h : Hdr) : (runners s h).Nodup := by
  unfold runners
  split
  · split <;> simp
  · unfold participants tids
    exact List.Nodup.filter _ List.nodup_range

end Sys2Proof.Machine
end

