-- ==== Sys2Proof/Laws/IssueOne.lean ====
section
/-! SUPPORT. IssueOne.lean (laws): the plan of a group with one occupied plane, and what issuing it does, for one instruction and
for a pair. -/

namespace Sys2Proof.Machine

open Claim

theorem lone (w : Slot) (p : Nat) : (decide (opOf w = 255) && decide ([p].length > 1)) = false := by simp
theorem decodeCopy_one (u : State) (g n p : Nat) (l : Line) (i : Instr) (ho : occupied (u.grp g) = [p]) (hp : linePair l n = false)
    (hd : decodeAt u g (parsOf l) (lineSlot l n) = .ok i) :
    decodeCopy u g n p l = .ok { plane := p, slot := lineSlot l n, instr := i, lane := none } := by
  unfold parsOf at hd
  unfold decodeCopy
  simp only [hd, ho, hp]
  rw [if_neg (by simp)]
  rfl
theorem decodeCopy_pair (u : State) (g n p : Nat) (l : Line) (i j : Instr) (ho : occupied (u.grp g) = [p]) (hp : linePair l n = true)
    (hd : decodeAt u g (parsOf l) (lineSlot l n) = .ok i) (he : decodeAt u g (parsOf l) (lineSlot l (n + 1)) = .ok j) :
    decodeCopy u g n p l = .ok { plane := p, slot := lineSlot l n, instr := i, lane := some (lineSlot l (n + 1), j) } := by
  unfold parsOf at hd he
  unfold decodeCopy
  simp only [hd, he, ho, hp]
  rw [if_neg (by simp), if_neg (by simp)]
  rfl
/-- The plan of one copy without a pair. -/
def planOne (once : Bool) (p : Nat) (c : Copied) : Plan :=
  { copies := [c], whole := once, runs := [{ plane := p, instr := c.instr, whole := once, copies := (if once then [(p, c.slot)] else []) }] }
theorem plan_one (u : State) (g p : Nat) (l : Line) (c : Copied) (ho : occupied (u.grp g) = [p]) (hi : spFind (u.grp g).images p = some l)
    (hd : decodeCopy u g ((u.grp g).pc % 5) p l = .ok c) (hl : c.lane = none) (hp : c.plane = p) :
    issuePlan u g = .ok (planOne (issuesOnce (u.grp g) ((u.grp g).pc % 5) c.slot) p c) := by
  unfold issuePlan
  have hm : ([p].mapM fun q => decodeCopy u g ((u.grp g).pc % 5) q ((spFind (u.grp g).images q).getD 0)) = (.ok [c] : Except Trap (List Copied)) := by
    simp only [List.mapM_cons, List.mapM_nil, hi, Option.getD_some, hd]; rfl
  simp only [ho]
  rw [hm]
  show (if _ then _ else _) = _
  obtain ⟨pl, sl, ins, ln⟩ := c
  dsimp only at hl hp ⊢
  subst hl; subst hp
  simp only [pointOf, List.map_cons, List.map_nil, List.any_cons, List.any_nil, Bool.or_false, List.all_nil, List.filterMap_cons, List.filterMap_nil, Option.map_none, Bool.not_true, Bool.and_false, Bool.false_and, Bool.or_self, if_neg, planOne, issuesOnce, Bool.or_assoc]
  generalize ((u.grp g).others.any fun e => idlePoint ((u.grp g).pc % 5) e.2) = b1
  generalize opControl (opOf sl) = b2
  generalize opCollective (opOf sl) = b3
  generalize actsOnce sl = b4
  cases b1 <;> cases b2 <;> cases b3 <;> cases b4 <;> rfl
/-- The plan of one pair. -/
def planPair (one once : Bool) (p : Nat) (c : Copied) (m : Slot) (j : Instr) : Plan :=
  let first : Run := { plane := p, instr := c.instr, whole := one, snap := true, copies := (if one then [(p, c.slot)] else []) }
  let last : Run := { plane := p, instr := j, whole := once, lane := true, copies := (if once then [(p, m)] else []) }
  { copies := [c], runs := [first, last] }
theorem plan_pair (u : State) (g p : Nat) (l : Line) (c : Copied) (m : Slot) (j : Instr) (ho : occupied (u.grp g) = [p]) (hi : spFind (u.grp g).images p = some l)
    (hd : decodeCopy u g ((u.grp g).pc % 5) p l = .ok c) (hl : c.lane = some (m, j)) (hp : c.plane = p) :
    issuePlan u g = .ok (planPair (issuesOnce (u.grp g) ((u.grp g).pc % 5) c.slot) (issuesOnce (u.grp g) ((u.grp g).pc % 5 + 1) m) p c m j) := by
  unfold issuePlan
  have hm : ([p].mapM fun q => decodeCopy u g ((u.grp g).pc % 5) q ((spFind (u.grp g).images q).getD 0)) = (.ok [c] : Except Trap (List Copied)) := by
    simp only [List.mapM_cons, List.mapM_nil, hi, Option.getD_some, hd]; rfl
  simp only [ho]
  rw [hm]
  show (if _ then _ else _) = _
  obtain ⟨pl, sl, ins, ln⟩ := c
  dsimp only at hl hp ⊢
  subst hl; subst hp
  simp only [pointOf, List.map_cons, List.map_nil, List.any_cons, List.any_nil, Bool.or_false, List.all_nil, List.filterMap_cons, List.filterMap_nil, Option.map_some, Bool.not_true, Bool.and_false, Bool.false_and, Bool.or_self, if_neg, planPair, issuesOnce, Bool.or_assoc]
  generalize ((u.grp g).others.any fun e => idlePoint ((u.grp g).pc % 5) e.2) = b1
  generalize opControl (opOf sl) = b2
  generalize opCollective (opOf sl) = b3
  generalize actsOnce sl = b4
  generalize ((u.grp g).others.any fun e => idlePoint ((u.grp g).pc % 5 + 1) e.2) = c1
  generalize opControl (opOf m) = c2
  generalize opCollective (opOf m) = c3
  generalize actsOnce m = c4
  have h1 : (b1 || (b2 || b3)) = false ∨ (b1 || (b2 || b3)) = true := by cases (b1 || (b2 || b3)) <;> simp
  have h2 : (c1 || (c2 || c3)) = false ∨ (c1 || (c2 || c3)) = true := by cases (c1 || (c2 || c3)) <;> simp
  rcases h1 with h1 | h1 <;> rcases h2 with h2 | h2 <;> simp only [h1, h2] <;> cases b4 <;> cases c4 <;> simp <;> rfl
theorem runAll_two (ex : Meaning) (s0 : State) (g next : Nat) (par : Option (List Slot)) (r1 r2 : Run) (s t v : State)
    (h1 : r1.snap = true) (h2 : r1.lane = false) (h3 : r2.snap = false) (h4 : r2.lane = true)
    (e1 : ex r1.instr { s with cur := { (prepare s0 g r1.plane (s0.grp g).pc next r1.whole r1.copies par).cur with
      view := none, moved := s.cur.moved } } = .next t)
    (o1 : t.cur.out = .done)
    (e2 : ex r2.instr { t with cur := { (prepare s0 g r2.plane (s0.grp g).pc next r2.whole r2.copies par).cur with
      view := some (s.grp g), moved := t.cur.moved } } = .next v)
    (o2 : v.cur.out = .done) : runAll ex s0 g next par [r1, r2] none s = .next v := by
  unfold runAll
  simp only [h1, h2, if_true, Bool.false_eq_true, if_false]
  rw [e1]
  dsimp only
  rw [o1]
  dsimp only
  unfold runAll
  simp only [h3, h4, if_true, Bool.false_eq_true, if_false]
  rw [e2]
  dsimp only
  rw [o2]
  rfl
theorem issueWith_plan (ex : Meaning) (u : State) (g p : Nat) (l : Line) (plan : Plan) (c : Copied) (hf : fetched u g p l) (hpl : issuePlan u g = .ok plan)
    (hcs : plan.copies = [c]) (hc : c.plane = p) (hn : noFaultNews u g c)
    (hs : scoreboardHolds u g (parsOf l) c.slot c.instr = false)
    (hs2 : ∀ q, c.lane = some q → scoreboardHolds u g (parsOf l) q.1 q.2 = false) (t : State)
    (he : (∃ r, plan.runs = [r] ∧ ex r.instr (prepare u g r.plane (u.grp g).pc (nextOffset (u.grp g) (lineInl l) c.lane.isSome) r.whole r.copies (parsOf l)) = .next t)
      ∨ (∃ a b, plan.runs = [a, b] ∧ runAll ex u g (nextOffset (u.grp g) (lineInl l) c.lane.isSome) (parsOf l) [a, b] none
          (prepare u g 0 (u.grp g).pc (nextOffset (u.grp g) (lineInl l) c.lane.isSome) false [] (parsOf l)) = .next t)) :
    issueWith ex g u = .next (if t.cur.out = .done then issueDone u g (if c.lane.isSome then 2 else 1) c plan.whole t else t) := by
  obtain ⟨h1, h2, h3, h4, h5⟩ := hf
  obtain ⟨n1, n2⟩ := hn
  unfold issueWith
  rw [if_neg (by simp [h1]), if_neg h2, if_neg (by simp [h3, h4, h5])]
  dsimp only
  rw [hpl]
  dsimp only
  rw [hcs]
  simp only [n1, List.any_cons, List.any_nil, Bool.or_false, List.head?_cons, Option.map_some, Option.getD_some, hc, h5]
  unfold parsOf at hs hs2 he
  rw [if_neg]
  · unfold issueDone
    simp only [n2, List.foldl_nil]
    rcases he with ⟨r, hr, he⟩ | ⟨a, b, hr, he⟩
    · rw [hr]; dsimp only; rw [he]
    · rw [hr]; dsimp only; rw [he]
  · cases hl : c.lane with
    | none => simp [hs]
    | some q => simp [hs, hs2 q hl]

end Sys2Proof.Machine
end

