-- ==== Sys2Proof/Laws/Still.lean ====
section
/-! SUPPORT. Still.lean (laws): what the checks and the shared operations of the control, system and engine instructions change:
no memory, no scratchpad, and no register but those named. -/

namespace Sys2Proof.Machine

open Claim

variable {s t u : State}

abbrev noByte : Nat → Bool := fun _ => false
abbrev eff0 (s t : State) := eff noByte noByte 0 s t
theorem still_of {us ps gs} (h : effR noByte noByte 0 us ps gs s t) : stillFrame us ps gs s t := ⟨h.1, h.2.1, h.2.2.1⟩
theorem still0 {us ps gs} (h : eff0 s t) : stillFrame us ps gs s t := still_of (effR_of _ _ _ h)
theorem checkTarget_inv {u line slot s t} {n : Nat} (h : checkTarget u line slot s = .ok (n, t)) : eff0 s t := by
  unfold checkTarget at h
  simp only [M_get_bind] at h
  split at h
  · cases h
  · cases hc : checkLine s s.cur.g line.toNat slot u true true with
    | error e => rw [hc] at h; cases h
    | ok r =>
      rw [hc] at h; cases h
      unfold countCorrected
      split
      · exact eff_refl ..
      · exact eff_misc _ _ _ rfl rfl rfl rfl rfl rfl rfl rfl
theorem keepCount_inv {n m} {a : Unit} (h : keepCount n m s = .ok (a, t)) : m s = .ok (a, t) := by
  unfold keepCount at h
  cases hm : m s with
  | ok r => rw [hm] at h; exact h
  | error e => rw [hm] at h; cases e <;> cases h
theorem checkField_inv {u l slot rest} {a : Unit} (h : checkField u l slot rest s = .ok (a, t)) : ∃ v, eff0 s v ∧ rest v = .ok (a, t) := by
  unfold checkField at h
  simp only [M_get_bind] at h
  obtain ⟨_, v, h1, h⟩ := bind_inv h
  exact ⟨v, checkTarget_inv h1, keepCount_inv h⟩
theorem checkOffset_inv {u off rest} {a : Unit} (h : checkOffset u off rest s = .ok (a, t)) : ∃ v, eff0 s v ∧ rest v = .ok (a, t) := by
  unfold checkOffset at h
  obtain ⟨_, v, h1, h⟩ := bind_inv h
  exact ⟨v, checkTarget_inv h1, keepCount_inv h⟩
theorem checkRc_inv {o rest} {a : Unit} (h : checkRc o rest s = .ok (a, t)) : ∃ v, eff0 s v ∧ rest v = .ok (a, t) := by
  unfold checkRc at h
  split at h
  · exact checkField_inv h
  · exact ⟨s, eff_refl .., h⟩
theorem checkOffsets_inv (l : List Nat) {u rest} {a : Unit} (h : l.foldr (checkOffset u) rest s = .ok (a, t)) : ∃ v, eff0 s v ∧ rest v = .ok (a, t) := by
  induction l generalizing s with
  | nil => exact ⟨s, eff_refl .., h⟩
  | cons x r ih =>
    obtain ⟨v, h1, h⟩ := checkOffset_inv h
    obtain ⟨w, h2, h⟩ := ih h
    exact ⟨w, eff_trans h1 h2, h⟩
theorem eff_goTo {p q b} (s : State) (f : Group → Group) (h : sameFile s.me (f s.me)) (hb : (f s.me).block = s.me.block) : eff p q b s (s.updMe f) :=
  eff_updGrp _ _ _ _ _ _ h hb
theorem same8 {x y : Group} (h : y = { x with pc := y.pc, stack := y.stack, live := y.live, resident := y.resident, line := y.line, images := y.images, latOk := y.latOk, lat := y.lat }) :
    sameFile x y ∧ y.block = x.block := by
  rw [h]; exact ⟨⟨rfl, rfl, rfl, rfl, rfl, rfl, rfl, rfl⟩, rfl⟩
theorem needDepth_inv {n} {a : Unit} (h : needDepth n s = .ok (a, t)) : t = s := by
  unfold needDepth at h
  simp only [M_get_bind] at h
  exact need_inv h
theorem sameFile_resume (x : Group) (l : List StackEntry) : sameFile x (resumePath x l) ∧ (resumePath x l).block = x.block := by
  induction l generalizing x with
  | nil => exact ⟨⟨rfl, rfl, rfl, rfl, rfl, rfl, rfl, rfl⟩, rfl⟩
  | cons e r ih =>
    unfold resumePath
    split
    · exact ih _
    · exact ⟨⟨rfl, rfl, rfl, rfl, rfl, rfl, rfl, rfl⟩, rfl⟩
theorem eff_resume (p q b s g) : eff p q b s (resume s g) := by
  unfold resume
  refine eff_updGrp _ _ _ _ _ _ ?_ ?_
  · split
    · exact sameFile_trans (sameFile_resume _ _).1 (sameFile_endLine _)
    · exact sameFile_refl _
  · split
    · exact (sameFile_resume _ _).2
    · rfl
theorem forM_inv (l : List Nat) (f : Nat → M PUnit) {a : PUnit} (h : l.forM f s = .ok (a, t)) (hf : ∀ x s t a, f x s = .ok (a, t) → eff0 s t) : eff0 s t := by
  induction l generalizing s with
  | nil => cases h; exact eff_refl ..
  | cons x r ih =>
    obtain ⟨_, u, h1, h2⟩ := bind_inv (show (f x >>= fun _ => r.forM f) s = .ok (a, t) from h)
    exact eff_trans (hf _ _ _ _ h1) (ih h2)
theorem brxPaths_same (ts th f c x) : sameFile x (brxPaths ts th f c x) ∧ (brxPaths ts th f c x).block = x.block := by
  unfold brxPaths
  dsimp only
  split
  · exact ⟨sameFile_refl _, rfl⟩
  · split
    · exact ⟨⟨rfl, rfl, rfl, rfl, rfl, rfl, rfl, rfl⟩, rfl⟩
    · split
      · exact ⟨⟨rfl, rfl, rfl, rfl, rfl, rfl, rfl, rfl⟩, rfl⟩
      · exact ⟨⟨rfl, rfl, rfl, rfl, rfl, rfl, rfl, rfl⟩, rfl⟩
theorem callTo_inv {p m k} {a : Unit} (h : callTo p m k s = .ok (a, t)) : eff0 s t := by
  unfold callTo at h
  split at h
  · cases h; exact eff_refl ..
  · obtain ⟨_, _, h1, h⟩ := bind_inv h; cases needDepth_inv h1
    obtain ⟨_, _, h1, h⟩ := bind_inv h; cases checkPoison_inv h1
    rw [upd_inv h]; exact eff_goTo _ _ ⟨rfl, rfl, rfl, rfl, rfl, rfl, rfl, rfl⟩ rfl
theorem effR_updMe2 {p q b us ps gs ls} (s : State) (f : Group → Group) (y : Group) (h : gFrame us ps gs ls s.me y) (hs : sameFile y (f s.me))
    (hf : y.fstat = s.me.fstat) : effR p q b us ps gs s (s.updMe f) := by
  have hme : (s.updMe f).me = f s.me := by simp [State.me, State.updMe, State.updGrp]
  obtain ⟨m1, m2, m3, m4, m5, m6, m7, m8⟩ := hs
  refine ⟨fun a _ => byteKept_same ⟨rfl, fun _ h => h, rfl, rfl, rfl⟩, fun _ _ => .inr rfl, ⟨fun g hg => ?_, ⟨fun r t ht hr => ?_, fun r hr => ?_⟩,
    ⟨fun p t ht hp => ?_, fun p hp => ?_⟩, ?_, ?_⟩, rfl⟩
  · have : (s.updMe f).grp g = s.grp g := by
      simp only [State.updMe, State.updGrp, State.grp, State.setGrp_groups]
      rw [spFind_spPut_ne _ _ _ _ (Ne.symm hg)]
    rw [this]; exact sameFile_refl _
  · rw [hme]; have := h.1.1 r t ht hr; simpa only [readV, m1, m7] using this
  · rw [hme]; have := h.1.2 r hr; simpa only [readK, m2, m8] using this
  · rw [hme]; have := h.2.1.1 p t ht hp; simpa only [predP, m3] using this
  · rw [hme]; have := h.2.1.2 p hp; simpa only [predG, m4] using this
  · rw [hme, m5, h.2.2.2.1]
  · rw [hme, m6]; exact hf
theorem eff_blockOn (p q b s g w) : eff p q b s (blockOn s g w) := eff_hw _ _ _ (mem5_blockOn s g w) (filesAll_blockOn s g w)
theorem eff_takeTrack (p q b s core half t g w) : eff p q b s (takeTrack s core half t g w) :=
  eff_hw _ _ _ ⟨rfl, rfl, rfl, rfl, rfl⟩ (filesAll_takeTrack ..)
theorem eff_swapOut (p q b s g) : eff p q b s (swapOut s g) := by
  unfold swapOut
  dsimp only
  split
  · refine eff_trans ?_ (eff_updGrp _ _ _ _ _ _ ⟨rfl, rfl, rfl, rfl, rfl, rfl, rfl, rfl⟩ rfl)
    refine eff_trans ?_ (eff_takeTrack ..)
    exact eff_updGrp _ _ _ s g _ ⟨rfl, rfl, rfl, rfl, rfl, rfl, rfl, rfl⟩ rfl
  · exact eff_refl ..
theorem softTrap_inv {o c} {a : Unit} (h : softTrap o c s = .ok (a, t)) : t = s := by
  unfold softTrap at h
  simp only [M_get_bind] at h
  split at h
  · cases h; rfl
  · cases h
theorem eff_updBlkSp {p q b} (s : State) (k : Nat) (f : Block → Block) (h : (f (s.blk k)).sp = (s.blk k).sp) : eff p q b s (s.updBlk k f) := by
  refine ⟨fun a _ => byteKept_same ⟨rfl, fun _ h => h, rfl, rfl, rfl⟩, fun j a => .inr ?_, fun g => sameFile_refl _, rfl, fun _ => rfl⟩
  by_cases hk : j = k
  · subst hk; simp only [State.updBlk, State.setBlk, State.blk]; rw [spFind_spPut_self]; exact congrArg (fun m => spGet 0 m a) h
  · simp only [State.updBlk, State.setBlk, State.blk]; rw [spFind_spPut_ne _ _ _ _ (Ne.symm hk)]
theorem eff_barComplete (p q b' s b n) : eff p q b' s (barComplete s b n) := by
  unfold barComplete
  dsimp only
  split <;> split
  all_goals first
    | exact eff_refl ..
    | (refine eff_trans (eff_updBlkSp _ _ _ rfl) (eff_foldl _ _ _ _ _ _ fun t _ g _ => ?_)
       split
       · split
         · exact eff_makeReady ..
         · exact eff_refl ..
       · exact eff_refl ..)
theorem eff_barChange (p q b' s b n f) : eff p q b' s (barChange s b n f) :=
  eff_trans (eff_updBlkSp _ _ _ rfl) (eff_barComplete ..)
theorem eff_arrive (p q b' s n) : eff p q b' s (arrive s n) := by
  unfold arrive
  dsimp only
  refine eff_trans (eff_trans (eff_doRelease _ _ _ s s.cur.g 1) ?_) (eff_barChange ..)
  exact eff_updGrp _ _ _ _ _ _ ⟨rfl, rfl, rfl, rfl, rfl, rfl, rfl, rfl⟩ rfl
theorem eff_await (p q b' s n) : eff p q b' s (await s n) := by
  unfold await
  dsimp only
  have h1 : eff p q b' s (s.updMe fun x => { x with pendBar := spPut x.pendBar n false }) := eff_updGrp _ _ _ _ _ _ ⟨rfl, rfl, rfl, rfl, rfl, rfl, rfl, rfl⟩ rfl
  have h2 := eff_trans h1 (eff_trans (eff_sampleAllOwn p q b' (s.updMe fun x => { x with pendBar := spPut x.pendBar n false }) s.cur.g) (eff_doAcquire p q b' _ s.cur.g 1))
  refine eff_trans h2 ?_
  generalize doAcquire (sampleAllOwn (s.updMe fun x => { x with pendBar := spPut x.pendBar n false }) s.cur.g) s.cur.g 1 = v
  split <;> split <;> try split
  all_goals first
    | exact eff_refl ..
    | exact eff_blockOn ..
    | exact eff_trans (eff_blockOn ..) (eff_passToken ..)
theorem barrier_inv {o body} {a : Unit} (h : barrier o body s = .ok (a, t)) : t = s ∨ body s = .ok (a, t) := by
  unfold barrier at h
  simp only [M_get_bind] at h
  split at h
  · exact .inr h
  · cases h; exact .inl rfl
theorem guardedS_inv {o body} {a : Unit} (h : guardedS o body s = .ok (a, t)) : t = s ∨ body s = .ok (a, t) := by
  unfold guardedS at h
  simp only [M_get_bind] at h
  split at h
  · exact .inr h
  · cases h; exact .inl rfl
theorem privileged_inv {o body} {a : Unit} (h : privileged o body s = .ok (a, t)) : t = s ∨ body s = .ok (a, t) := by
  unfold privileged at h
  simp only [M_get_bind] at h
  obtain ⟨_, _, h1, h⟩ := bind_inv h; cases need_inv h1
  split at h
  · exact .inr h
  · cases h; exact .inl rfl
theorem gFrame_k {us ps gs ls} (x : Group) (h : Hdr) (d : BitVec 10) (v : Nat) (hl : h.l.toNat ∈ ls) (hk : h.s = false → WF.isK d = true)
    (hus : us = unlessS h (use1 d)) : gFrame us ps gs ls x (writeDest x h d 3 0 v) := by
  refine gFrame_writeDest _ _ _ _ _ _ _ _ _ _ (by decide) hl fun hs => ?_
  have h3 := hk hs
  subst hus
  simp only [WF.isK, Bool.and_eq_true, decide_eq_true_eq] at h3
  refine ⟨fun h => by omega, fun h4 h5 => ?_⟩
  simp [unlessS, hs, namesK, use1, WF.isK, h4, h5]
theorem effR_putS {p q b ps gs} (o : FmtS) (v : Nat) (s : State) (hk : o.h.s = false → WF.isK o.d = true) :
    effR p q b (unlessS o.h (use1 o.d)) ps gs s (putS o v s) :=
  effR_updMe (ls := [o.h.l.toNat]) s _ (gFrame_k _ _ _ _ (by simp) hk rfl) (writeDest_fstat ..)
theorem kdst (o : FmtS) (h : WF.kDst o = true) : o.h.s = false → WF.isK o.d = true := by
  intro hs; simpa [WF.kDst, hs] using h
theorem eff_fillCore (p q b s c) : eff p q b s (fillCore s c) := eff_hw _ _ _ (mem5_fillCore s c) (filesAll_fillCore s c)
theorem eff_haltOne (p q b s g) : eff p q b s (haltOne s g) := by
  unfold haltOne
  split
  · exact eff_refl ..
  · unfold haltGroup
    dsimp only
    have h1 : eff p q b s (s.updGrp g fun x => { x with halt := true, byhalt := true }) := eff_updGrp _ _ _ _ _ _ ⟨rfl, rfl, rfl, rfl, rfl, rfl, rfl, rfl⟩ rfl
    refine eff_trans h1 ?_
    split
    · exact eff_updGrp _ _ _ _ _ _ ⟨rfl, rfl, rfl, rfl, rfl, rfl, rfl, rfl⟩ rfl
    · refine eff_trans ?_ (eff_fillCore ..)
      exact eff_updGrp _ _ _ _ _ _ ⟨rfl, rfl, rfl, rfl, rfl, rfl, rfl, rfl⟩ rfl
theorem effR_setG {p q b us ps gs} (s : State) (i : Nat) (v : Bool) (h : i ∈ gs) : effR p q b us ps gs s (s.updMe fun x => setG x i v) :=
  effR_updMe (ls := []) s _ (gFrame_setG _ _ _ _ _ _ _ h) (by unfold setG; split <;> rfl)
theorem eff_writeDieCsr (p q b s d csr v) : eff p q b s (writeDieCsr s d csr v) := by
  unfold writeDieCsr
  split
  · unfold writeRways
    dsimp only
    split
    · exact eff_refl ..
    · split
      · exact eff_of _ _ _ (fun a _ => byteKept_less rfl (l1Same fun _ h => h) (fun _ h => List.mem_of_mem_filter h) (fun _ h => h) (fun _ h => h)) (filesAll_same rfl rfl rfl)
      · exact eff_misc _ _ _ rfl rfl rfl rfl rfl rfl rfl rfl
  · unfold writeRefcal
    dsimp only
    split
    · exact eff_refl ..
    · exact eff_misc _ _ _ rfl rfl rfl rfl rfl rfl rfl rfl
  · exact eff_misc _ _ _ rfl rfl rfl rfl rfl rfl rfl rfl
  · unfold writeRingpool
    dsimp only
    split
    · exact eff_refl ..
    · exact eff_misc _ _ _ rfl rfl rfl rfl rfl rfl rfl rfl
  · exact eff_misc _ _ _ rfl rfl rfl rfl rfl rfl rfl rfl
  · exact eff_refl ..
theorem csr_of {n us} (h : effR noByte noByte 0 us [] [] s t) : csrFrame n us s t :=
  ⟨h.1, h.2.1, h.2.2.1.1, h.2.2.1.2.1, h.2.2.1.2.2.1, fun _ => h.2.2.1.2.2.2.1, fun _ => h.2.2.1.2.2.2.2⟩
theorem csr_trans {n us} (hc : t.cur = s.cur) (h1 : csrFrame n us s t) (h : effR noByte noByte 0 us [] [] t u) : csrFrame n us s u := by
  obtain ⟨a1, a2, a3, ⟨a4, a5⟩, ⟨a6, a7⟩, a8, a9⟩ := h1
  obtain ⟨b1, b2, ⟨b3, ⟨b4, b5⟩, ⟨b6, b7⟩, b8, b9⟩, _⟩ := h
  refine ⟨fun a ha => byteKept_trans (a1 a ha) (b1 a ha), fun k a => ?_, fun g hg => sameFile_trans (a3 g hg) (b3 g (by rw [hc]; exact hg)),
    ⟨fun r t ht hr => ?_, fun r hr => ?_⟩, ⟨fun p t ht hp => (b6 p t ht hp).trans (a6 p t ht hp), fun p hp => (b7 p hp).trans (a7 p hp)⟩,
    fun h => b8.trans (a8 h), fun h => b9.trans (a9 h)⟩
  · rcases a2 k a with h | h
    · exact .inl h
    · rcases b2 k a with h' | h'
      · exact .inl h'
      · exact .inr (h'.trans h)
  · exact ⟨(b4 r t ht hr).1.trans (a4 r t ht hr).1, (b4 r t ht hr).2.trans (a4 r t ht hr).2⟩
  · exact ⟨(b5 r hr).1.trans (a5 r hr).1, (b5 r hr).2.trans (a5 r hr).2⟩
theorem writeCsr_frame (us) (s : State) (n : Nat) (v : DWord) : csrFrame n us s (writeCsr s s.cur.g n v) ∧ (writeCsr s s.cur.g n v).cur = s.cur := by
  unfold writeCsr
  split
  · refine ⟨?_, rfl⟩
    have hme (f : Group → Group) : (s.updMe f).me = f s.me := by simp [State.me, State.updMe, State.updGrp]
    have hg (f : Group → Group) (g) (h : g ≠ s.cur.g) : (s.updMe f).grp g = s.grp g := by
      simp only [State.updMe, State.updGrp, State.grp, State.setGrp_groups]
      rw [spFind_spPut_ne _ _ _ _ (Ne.symm h)]
    change csrFrame n us s (s.updMe fun x => writeGroupCsr x n v)
    refine ⟨fun a _ => byteKept_same ⟨rfl, fun _ h => h, rfl, rfl, rfl⟩, fun _ _ => .inr rfl, fun g h => by rw [hg _ g h]; exact sameFile_refl _, ?_, ?_, ?_, ?_⟩
    · rw [hme]; unfold writeGroupCsr; split <;> exact ⟨fun _ _ _ _ => ⟨rfl, rfl⟩, fun _ _ => ⟨rfl, rfl⟩⟩
    · rw [hme]; unfold writeGroupCsr; split <;> exact ⟨fun _ _ _ _ => rfl, fun _ _ => rfl⟩
    · rw [hme]; unfold writeGroupCsr; split <;> intro h <;> first | rfl | exact absurd rfl h
    · rw [hme]; unfold writeGroupCsr; split <;> intro h <;> first | rfl | exact absurd rfl h
  · split
    · have h1 : eff0 s (s.updHandler (quadOf (placeCore s.cur.g)) fun h => { h with regs := { h.regs with tvec := BitVec.ofNat 64 (bitsNat v 26 0) } }) :=
        eff_misc _ _ _ rfl rfl rfl rfl rfl rfl rfl rfl
      exact ⟨csr_of (effR_of _ _ _ h1), rfl⟩
    · split
      · exact ⟨csr_of (effR_of _ _ _ (eff_refl ..)), rfl⟩
      · have h1 := eff_writeDieCsr noByte noByte 0 s (coreDie (placeCore s.cur.g)) n v
        exact ⟨csr_of (effR_of _ _ _ h1), h1.2.2.2.1⟩
theorem guarded_inv {o body} {a : Unit} (h : guarded o body s = .ok (a, t)) : t = s ∨ body s = .ok (a, t) := by
  unfold guarded at h
  simp only [M_get_bind] at h
  split at h
  · exact .inr h
  · cases h; exact .inl rfl
theorem uniTrap_inv {c x} {a : Unit} (h : uniTrap c x s = .ok (a, t)) : False := by
  unfold uniTrap at h
  simp only [M_get_bind] at h
  cases h
theorem kTok_of (o : FmtE) (h : WF.kTok o = true) : o.h.s = false → WF.isK o.k = true := by
  intro hs; simpa [WF.kTok, hs] using h
theorem effR_putK {p q b ps gs} (o : FmtE) (v : Nat) (s : State) (hk : WF.kTok o = true) :
    effR p q b (unlessS o.h (use1 o.k)) ps gs s (putK o 3 v s) :=
  effR_updMe (ls := [o.h.l.toNat]) s _ (gFrame_k _ _ _ _ (by simp) (kTok_of o hk) rfl) (writeDest_fstat ..)
theorem eff_settleRange (p q b s xl va n) : eff p q b s (settleRange s xl va n) := by
  unfold settleRange
  split
  · exact eff_foldl _ _ _ _ _ _ fun t _ x _ => eff_performWhere ..
  · exact eff_refl ..
theorem recordBytes_inv {va n bs} (h : recordBytes s va n = .ok (bs, t)) : eff0 s t := by
  unfold recordBytes at h
  dsimp only at h
  cases hx : xlatRange (xlGrp s s.cur.g needR) va n with
  | error e => rw [hx] at h; cases h
  | ok l =>
    rw [hx] at h
    change (match (s.core (placeCore s.cur.g)).records.find? _ with | some e => _ | none => _) = _ at h
    split at h
    · cases h; exact eff_refl ..
    · cases hr : readRange s (xlGrp s s.cur.g needR) va n with
      | error e => rw [hr] at h; cases h
      | ok l =>
        rw [hr] at h
        cases h
        exact eff_trans (eff_settleRange ..) (eff_updCore _ _ _ _ _ _ fun e he => he)
theorem fetchRecord_inv {va bs} (h : fetchRecord va s = .ok (bs, t)) : eff0 s t := by
  unfold fetchRecord at h
  have key : ∀ u, (get >>= fun s : State => match recordBytes s va 192 with
      | .ok r => do set r.2; pure r.1
      | .error e => do uniTrap e.1 e.2; pure []) u = Except.ok (bs, t) → eff0 u t := by
    intro u h
    simp only [M_get_bind] at h
    cases hr : recordBytes u va 192 with
    | ok r => rw [hr] at h; cases h; exact recordBytes_inv hr
    | error e =>
      rw [hr] at h
      obtain ⟨_, _, h1, _⟩ := bind_inv h
      exact (uniTrap_inv h1).elim
  split at h
  · obtain ⟨_, _, h1, _⟩ := bind_inv h
    exact (uniTrap_inv h1).elim
  · exact key _ h
theorem effR_queueCopy (p q b ps gs) (o : FmtE) (c : Copy) (s : State) (hk : WF.kTok o = true) :
    effR p q b (unlessS o.h (use1 o.k)) ps gs s (queueCopy o c s) := by
  unfold queueCopy
  dsimp only
  refine effR_trans (effR_of _ _ _ ?_) (effR_putK o _ _ hk)
  have h1 : eff p q b s s.fresh.2 := eff_misc _ _ _ rfl rfl rfl rfl rfl rfl rfl rfl
  have h2 (u : State) (k : Nat) (f : Block → Block) (hf : ∀ x, (f x).sp = x.sp) : eff p q b u (u.updBlk k f) := eff_updBlkSp _ _ _ (hf _)
  have h3 (u : State) (x : List (Nat × Copy)) : eff p q b u { u with copies := x } := eff_misc _ _ _ rfl rfl rfl rfl rfl rfl rfl rfl
  refine eff_trans ?_ (h3 _ _)
  refine eff_trans (eff_trans h1 (h2 s.fresh.2 c.block (fun x => { x with copySeq := x.copySeq + 1 }) fun _ => rfl)) ?_
  split
  · exact eff_refl ..
  · exact eff_foldl _ _ _ _ _ _ fun t _ x _ => h2 _ _ _ fun _ => rfl
theorem unlessTrap_inv {c : Prop} [Decidable c] {x y} {m : M Unit} {a : Unit} (h : (if c then (uniTrap x y >>= fun _ => m) else m) s = .ok (a, t)) : m s = .ok (a, t) := by
  split at h
  · obtain ⟨_, _, h1, _⟩ := bind_inv h; exact (uniTrap_inv h1).elim
  · exact h
theorem issueCopy_inv {o c} {a : Unit} (h : issueCopy o c s = .ok (a, t)) : t = queueCopy o c s := by
  unfold issueCopy at h
  simp only [M_get_bind] at h
  have h := unlessTrap_inv h
  cases h1 : c.beyondSp s with
  | some u => rw [h1] at h; obtain ⟨_, _, h1, _⟩ := bind_inv h; exact (uniTrap_inv h1).elim
  | none =>
    rw [h1] at h
    cases h2 : c.beyondMem s with
    | some u => rw [h2] at h; obtain ⟨_, _, h1, _⟩ := bind_inv h; exact (uniTrap_inv h1).elim
    | none =>
      rw [h2] at h
      have h := unlessTrap_inv h
      obtain ⟨_, _, h1, h⟩ := bind_inv h; cases checkPoison_inv h1
      split at h
      · cases h
      · exact upd_inv h
theorem tokenArg_inv {o n} (h : tokenArg o s = .ok (n, t)) : t = s := by
  unfold tokenArg at h
  simp only [M_get_bind] at h
  obtain ⟨_, _, h1, h⟩ := bind_inv h; cases need_inv h1
  obtain ⟨_, _, h1, h⟩ := bind_inv h; cases checkPoison_inv h1
  cases h; rfl
theorem matToken_inv {o n} (h : matToken o s = .ok (n, t)) : t = s := by
  unfold matToken at h
  simp only [M_get_bind] at h
  obtain ⟨_, _, h1, h⟩ := bind_inv h; cases need_inv h1
  obtain ⟨_, _, h1, h⟩ := bind_inv h; cases checkPoison_inv h1
  cases h; rfl
theorem waitCopy_inv {e} {a : Unit} (h : waitCopy e s = .ok (a, t)) : t = s := by
  unfold waitCopy at h
  split at h
  · cases h; rfl
  · obtain ⟨_, _, _, h⟩ := bind_inv h; cases h
theorem waitMat_inv {l} {a : Unit} (h : waitMat l s = .ok (a, t)) : t = s := by
  unfold waitMat at h
  simp only [M_get_bind] at h
  cases hf : l.findSome? fun e => e.2.fault with
  | some x => rw [hf] at h; cases h
  | none =>
    rw [hf] at h
    dsimp only at h
    split at h
    · cases h; rfl
    · cases h
theorem forM_same {α} (l : List α) (f : α → M Unit) {a : PUnit} (h : l.forM f s = .ok (a, t)) (hf : ∀ x s t a, f x s = .ok (a, t) → t = s) : t = s := by
  induction l generalizing s with
  | nil => cases h; rfl
  | cons x r ih =>
    obtain ⟨_, u, h1, h2⟩ := bind_inv (show (f x >>= fun _ => r.forM f) s = .ok (a, t) from h)
    cases hf _ _ _ _ h1
    exact ih h2
theorem frame_guarded (i : Instr) (o : FmtE) (m : M Unit) (s : State) (us ps gs) (he : exec i s = finish (guarded o m) s)
    (hm : ∀ t a, m s = .ok (a, t) → effR noByte noByte 0 us ps gs s t) : frame i s (stillFrame us ps gs) := by
  refine frame_finish _ _ _ _ he (still0 (eff_refl ..)) fun t h => still_of ?_
  rcases guarded_inv h with h | h
  · rw [h]; exact effR_of _ _ _ (eff_refl ..)
  · exact hm _ _ h
theorem refl0 {us ps gs} (h : t = s) : effR noByte noByte 0 us ps gs s t := by rw [h]; exact effR_of _ _ _ (eff_refl ..)
theorem effR_test {p q b us ps} (o : FmtE) (n : Nat) (c : Bool) (s : State) :
    effR p q b us ps [WF.ef o 2 0] s (s.updMe fun x => setG (latchRes x o.h 3 0 n) (WF.ef o 2 0) c) := by
  refine effR_updMe (ls := [o.h.l.toNat]) s _ (gFrame_trans (gFrame_latchRes _ _ _ _ _ o.h 3 0 n (by decide) (by simp)) (gFrame_setG _ _ _ _ _ _ _ (by simp))) ?_
  have h1 : (latchRes s.me o.h 3 0 n).fstat = s.me.fstat := by unfold latchRes; split <;> rfl
  rw [← h1]; unfold setG; split <;> rfl
/-- What CPYQ.test and MWAIT.test write: the latch, and without S the g predicate too. -/
theorem effR_tested (o : FmtE) (s : State) (c : Bool) : effR noByte noByte 0 [] [] [WF.ef o 2 0] s (s.updMe fun x =>
    let x := latchRes x o.h 3 0 (if c then 1 else 0)
    if o.h.s then x else setG x (WF.ef o 2 0) c) := by
  dsimp only
  cases hs : o.h.s with
  | false => simp only [Bool.false_eq_true, if_false]; exact effR_test ..
  | true =>
    simp only [if_true]
    refine effR_updMe (ls := [o.h.l.toNat]) s _ (gFrame_latchRes _ _ _ _ _ o.h 3 0 _ (by decide) (by simp)) ?_
    unfold latchRes; split <;> rfl
theorem eff_matDone (p q b s k o) : eff p q b s (matDone s k o) := by
  unfold matDone
  dsimp only
  have h1 : eff p q b s { s with matOps := spDel s.matOps k } := eff_misc _ _ _ rfl rfl rfl rfl rfl rfl rfl rfl
  split
  · exact h1
  · exact eff_trans h1 (eff_updBlkSp _ _ _ rfl)
theorem eff_settleEmpty (p q b' b k s) : eff p q b' s (settleEmpty s b k) := by
  induction k generalizing s with
  | zero => exact eff_refl ..
  | succ k ih =>
    unfold settleEmpty
    split
    · exact eff_trans (eff_matDone ..) (ih _)
    · exact eff_refl ..
theorem effR_queueMat (p q b ps gs) (o : FmtE) (m : MatOp) (s : State) (hk : WF.kTok o = true) :
    effR p q b (unlessS o.h (use1 o.k)) ps gs s (queueMat o m s) := by
  unfold queueMat
  dsimp only
  refine effR_trans ?_ (effR_of _ _ _ (eff_settleEmpty ..))
  refine effR_trans (effR_of _ _ _ ?_) (effR_putK o _ _ hk)
  refine eff_trans (eff_updBlkSp s s.me.block (fun x => { x with matSeq := x.matSeq + 1 }) rfl) ?_
  unfold enterTable State.setMat
  exact eff_misc _ _ _ rfl rfl rfl rfl rfl rfl rfl rfl
theorem enterMat_inv {i e o} {a : Unit} (h : enterMat i e o s = .ok (a, t)) : t = queueMat e o s := by
  unfold enterMat at h
  simp only [M_get_bind] at h
  obtain ⟨_, _, h1, h⟩ := bind_inv h; cases checkPoison_inv h1
  split at h
  · exact upd_inv h
  · cases h
theorem converged_inv {a : Unit} (h : engineConverged s = .ok (a, t)) : t = s := by
  unfold engineConverged at h
  simp only [M_get_bind] at h
  exact need_inv h
theorem owner_inv {m x w} {a : Unit} (h : checkOwner m x w s = .ok (a, t)) : t = s := by
  unfold checkOwner at h
  simp only [M_get_bind] at h
  exact need_inv h
theorem checkSp_inv {l} {a : Unit} (h : checkSp l s = .ok (a, t)) : t = s := by
  unfold checkSp at h
  simp only [M_get_bind] at h
  cases hf : l.find? fun a => (s.blk s.me.block).spSize ≤ a with
  | some x => rw [hf] at h; exact (uniTrap_inv h).elim
  | none => rw [hf] at h; cases h; rfl
theorem ws_inv {o} {a : Unit} (h : checkWsWriter o s = .ok (a, t)) : t = s := by
  unfold checkWsWriter at h
  simp only [M_get_bind] at h
  exact need_inv h
theorem ifSp_inv {c : Prop} [Decidable c] {l} {m : M Unit} {a : Unit} (h : (if c then (checkSp l >>= fun _ => m) else m) s = .ok (a, t)) : m s = .ok (a, t) := by
  split at h
  · obtain ⟨_, _, h1, h⟩ := bind_inv h; cases checkSp_inv h1; exact h
  · exact h
theorem alignTargets_inv {u xs} {a : Unit} (h : alignTargets u xs s = .ok (a, t)) : t = s := by
  unfold alignTargets at h
  simp only [M_get_bind] at h
  obtain ⟨_, _, h1, h⟩ := bind_inv h; cases need_inv h1
  exact need_inv h
theorem readTargets_inv {u xs} {a : Unit} (h : readTargets u xs s = .ok (a, t)) : t = s := by
  unfold readTargets at h
  simp only [M_get_bind] at h
  obtain ⟨_, _, h1, h⟩ := bind_inv h; cases need_inv h1
  obtain ⟨_, _, h1, h⟩ := bind_inv h; cases need_inv h1
  exact need_inv h
theorem checkTargets_inv {u xs} {a : Unit} (h : checkTargets u xs s = .ok (a, t)) : t = s := by
  unfold checkTargets at h
  obtain ⟨_, _, h1, h⟩ := bind_inv h; cases alignTargets_inv h1
  exact readTargets_inv h
theorem eff_settleTargets (p q b xs s) : eff p q b s (settleTargets xs s) := eff_foldl _ _ _ _ _ _ fun t _ x _ => eff_settleRange ..
theorem tokenRecv_inv {o r} (h : tokenRecv o s = .ok (r, t)) : t = s := by
  unfold tokenRecv at h
  simp only [M_get_bind] at h
  cases hr : recvOf s (readK s.seen (o.a.toNat - 0x100)) with
  | some r => rw [hr] at h; cases h; rfl
  | none => rw [hr] at h; cases h
theorem logWrite_none (v : State) (y : Query) (n : Nat) (bs : List Byte) (hy : y.log = none) : logWrite v y n bs = (v, y) := by
  unfold logWrite; rw [hy]
theorem sameFile_foldl {α : Type} (f : Group → α → Group) (l : List α) (x : Group) (h : ∀ x a, sameFile x (f x a) ∧ (f x a).block = x.block) :
    sameFile x (l.foldl f x) ∧ (l.foldl f x).block = x.block := by
  induction l generalizing x with
  | nil => exact ⟨sameFile_refl _, rfl⟩
  | cons a r ih => exact ⟨sameFile_trans (h x a).1 (ih _).1, (ih _).2.trans (h x a).2⟩
theorem acceptQuery_eff (p q b) (s : State) (x : Query) (h : x.log = none) : eff p q b s (acceptQuery s x) := by
  have key : ∀ (v : State) (y : Query) (n : Nat) (bs : List Byte) (k : Nat), y.log = none →
      eff p q b v ((if x.kind = .replay then (v, y) else logWrite v y n bs).1.setQry k (if x.kind = .replay then (v, y) else logWrite v y n bs).2) := by
    intro v y n bs k hy
    rw [logWrite_none _ _ _ _ hy, ite_self]
    exact eff_misc _ _ _ rfl rfl rfl rfl rfl rfl rfl rfl
  have last (v : State) (g l : Nat) (ts : List Nat) : eff p q b v (v.updGrp g fun y => ts.foldl (fun y t => openLatch y l t) y) := by
    have hf := sameFile_foldl (fun y t => openLatch y l t) ts (v.grp g) fun y t => ⟨⟨rfl, rfl, rfl, rfl, rfl, rfl, rfl, rfl⟩, rfl⟩
    exact eff_updGrp _ _ _ v g _ hf.1 hf.2
  refine eff_trans (eff_trans (eff_updBlkSp s x.block (fun k => { k with binds := spPut k.binds x.bind { s.bindOf x.block x.bind with serial := ((s.bindOf x.block x.bind).serial + 1) % 2 ^ 32 } }) rfl) ?_) (last _ _ _ _)
  exact key _ { x with serial := ((s.bindOf x.block x.bind).serial + 1) % 2 ^ 32, bvh := (s.bindOf x.block x.bind).bvh, spawn := (s.bindOf x.block x.bind).spawn } _ _ _ h
theorem laneIssue_inv {o uses body} {a : Unit} (h : laneIssue o uses body s = .ok (a, t)) : t = s ∨ body (participants s o.h) s = .ok (a, t) := by
  unfold laneIssue at h
  simp only [M_get_bind] at h
  split at h
  · cases h; exact .inl rfl
  · obtain ⟨_, _, h1, h⟩ := bind_inv h; cases checkStale_inv h1
    exact .inr h

end Sys2Proof.Machine
end

