-- ==== Sys2Proof/Laws/Welts.lean ====
section
/-! SUPPORT. Welts.lean (laws): the operations on memory add no welt entry, so that a table with room keeps it, and FADDW on
such a table spills none (R265). -/

namespace Sys2Proof.Machine

open Claim

variable {s t u : State}

/-- Room in the welt tables is kept. -/
def roomKept (s t : State) : Prop := ∀ n, weltsFit n s → weltsFit n t
theorem roomKept_refl (s : State) : roomKept s s := fun _ h => h
theorem roomKept_trans (h1 : roomKept s t) (h2 : roomKept t u) : roomKept s u := fun n h => h2 n (h1 n h)
theorem roomKept_same (h : t.welts = s.welts) : roomKept s t := fun n hn => by unfold weltsFit at *; rw [h]; exact hn
theorem roomKept_foldl {α : Type} (f : State → α → State) (l : List α) (s : State) (h : ∀ s, ∀ x ∈ l, roomKept s (f s x)) :
    roomKept s (l.foldl f s) := by
  induction l generalizing s with
  | nil => exact roomKept_refl s
  | cons x r ih => exact roomKept_trans (h s x (List.mem_cons_self ..)) (ih _ fun s y hy => h s y (List.mem_cons_of_mem _ hy))
theorem spDel_sublist {α : Type} (l : List (Nat × α)) (k : Nat) : (spDel l k).Sublist l := by
  induction l with
  | nil => exact List.Sublist.slnil
  | cons a r ih =>
    obtain ⟨i, v⟩ := a
    unfold spDel
    split
    · exact .cons _ ih
    · exact .cons_cons _ ih
theorem roomKept_del (k : Nat) (h : t.welts = spDel s.welts k) : roomKept s t := by
  rintro n ⟨h1, h2, h3⟩
  unfold weltsFit
  rw [h]
  refine ⟨spSorted_spDel _ _ _ h1, fun e he => h2 e (mem_spDel _ _ _ he).1, fun slice => ?_⟩
  have := ((spDel_sublist s.welts k).filter fun e => decide (sliceKey e.1 = slice)).length_le
  have := h3 slice
  omega
/-- A listed key put again: the same keys. -/
theorem spPut_keys {α : Type} (l : List (Nat × α)) (lo k : Nat) (v w : α) (hs : spSorted lo l = true) (h : spFind l k = some w) :
    (spPut l k v).map (·.1) = l.map (·.1) := by
  induction l generalizing lo with
  | nil => cases h
  | cons a r ih =>
    obtain ⟨i, x⟩ := a
    simp only [spSorted, Bool.and_eq_true, decide_eq_true_eq] at hs
    unfold spFind at h
    unfold spPut
    split at h
    · rename_i hi; subst hi
      rw [if_neg (by omega), if_pos rfl]; rfl
    · rename_i hi
      have hk : i + 1 ≤ k := by
        by_contra hk
        have := spGet_below false (r.map fun e => (e.1, true)) (i + 1) k
        have h4 : ∀ (l : List (Nat × α)) (lo : Nat), spSorted lo l = true → k < lo → spFind l k = none := by
          intro l
          induction l with
          | nil => intro _ _ _; rfl
          | cons b l ih =>
            intro lo hl hk
            obtain ⟨j, y⟩ := b
            simp only [spSorted, Bool.and_eq_true, decide_eq_true_eq] at hl
            unfold spFind
            rw [if_neg (by omega)]
            exact ih _ hl.2 (by omega)
        rw [h4 r (i + 1) hs.2 (by omega)] at h
        cases h
      rw [if_neg (by omega), if_neg (by omega), List.map_cons, List.map_cons, ih _ hs.2 h]
theorem filter_keys {α : Type} (p : Nat → Bool) (l : List (Nat × α)) : (l.filter fun e => p e.1).length = ((l.map (·.1)).filter p).length := by
  induction l with
  | nil => rfl
  | cons a r ih =>
    simp only [List.filter_cons, List.map_cons]
    split <;> simp [ih]
theorem spPut_count {α : Type} (p : Nat → Bool) (l : List (Nat × α)) (k : Nat) (v : α) :
    ((spPut l k v).filter fun e => p e.1).length ≤ (l.filter fun e => p e.1).length + 1 := by
  induction l with
  | nil =>
    simp only [spPut, List.filter_cons, List.filter_nil]
    split <;> simp
  | cons a r ih =>
    obtain ⟨i, x⟩ := a
    unfold spPut
    split
    · rw [List.filter_cons]; split
      · simp
      · omega
    · split
      · rename_i hk; subst hk
        simp only [List.filter_cons]
        split <;> simp
      · simp only [List.filter_cons]
        split
        · simp only [List.length_cons]; omega
        · exact ih
theorem weltsFit_put (n : Nat) (k : Nat) (w : Welt) (hw : w.spilled = none) (h : weltsFit (n + 1) s) (ht : t.welts = spPut s.welts k w) : weltsFit n t := by
  obtain ⟨h1, h2, h3⟩ := h
  unfold weltsFit
  rw [ht]
  refine ⟨spSorted_spPut _ _ _ _ h1 (Nat.zero_le _), fun e he => ?_, fun slice => ?_⟩
  · rcases mem_spPut _ _ _ _ he with he | rfl
    · exact h2 e he
    · exact hw
  · have := spPut_count (fun a => decide (sliceKey a = slice)) s.welts k w
    have := h3 slice
    omega
theorem weltsFit_again (n : Nat) (k : Nat) (v w : Welt) (hw : w.spilled = none) (hf : spFind s.welts k = some v) (h : weltsFit n s)
    (ht : t.welts = spPut s.welts k w) : weltsFit n t := by
  obtain ⟨h1, h2, h3⟩ := h
  unfold weltsFit
  rw [ht]
  refine ⟨spSorted_spPut _ _ _ _ h1 (Nat.zero_le _), fun e he => ?_, fun slice => ?_⟩
  · rcases mem_spPut _ _ _ _ he with he | rfl
    · exact h2 e he
    · exact hw
  · have e1 := filter_keys (fun a => decide (sliceKey a = slice)) (spPut s.welts k w)
    have e2 := filter_keys (fun a => decide (sliceKey a = slice)) s.welts
    rw [spPut_keys s.welts 0 k w v h1 hf] at e1
    have := h3 slice
    omega
theorem weltsFit_mono {m n : Nat} (h : weltsFit n s) (hm : m ≤ n) : weltsFit m s := ⟨h.1, h.2.1, fun slice => by have := h.2.2 slice; omega⟩

/-! ### The operations on memory -/

theorem roomKept_freeWelts (l : List (Nat × Welt)) (s : State) :
    roomKept s (l.foldl (fun s e => { s with mem := memPut s.mem e.1 (natBytes e.2.size e.2.bits), welts := spDel s.welts e.1 }) s) :=
  roomKept_foldl _ _ _ fun _ x _ => roomKept_del x.1 rfl
theorem roomKept_flushWelts (s : State) (pa n : Nat) : roomKept s (flushWelts s pa n) := roomKept_freeWelts _ s
theorem roomKept_homePutMasked (s : State) (line : Nat) (mask : BitVec 128) (data : BitVec 1024) : roomKept s (homePutMasked s line mask data) := by
  unfold homePutMasked
  dsimp only
  split
  · exact roomKept_same rfl
  · generalize hl : (s.welts.filter _) = l
    refine roomKept_trans (roomKept_freeWelts l s) (roomKept_same ?_)
    dsimp only [touchWatches]
    split <;> rfl
theorem awaitAcks_welts (t : State) (ck l : Nat) (ds : List Nat) : (awaitAcks t ck l ds).welts = t.welts := by
  unfold awaitAcks; split <;> rfl
theorem roomKept_commitLine (r : Reach) (s : State) (ck line : Nat) (mask : BitVec 128) (data : BitVec 1024) :
    roomKept s (commitLine r s ck line mask data) :=
  roomKept_trans (roomKept_homePutMasked s line mask data) (roomKept_same (awaitAcks_welts _ _ _ _))
theorem roomKept_performTo (r : Reach) (s : State) (k : Nat) : roomKept s (performTo r s k) := by
  unfold performTo
  split
  · exact roomKept_refl s
  · dsimp only
    split
    · split <;> exact roomKept_same rfl
    · exact roomKept_trans (t := { s with posted := spDel s.posted k }) (roomKept_same rfl) (roomKept_commitLine r _ _ _ _ _)
theorem roomKept_performAll (r : Reach) (s : State) (p : PostedWrite → Bool) : roomKept s (performAll r s p) :=
  roomKept_foldl _ _ _ fun s _ _ => roomKept_performTo r s _
theorem roomKept_writeBackTo (r : Reach) (s : State) (ck line : Nat) : roomKept s (writeBackTo r s ck line) := by
  unfold writeBackTo
  split
  · exact roomKept_refl s
  · split
    · exact roomKept_refl s
    · exact roomKept_trans (roomKept_performAll r s _) (roomKept_trans (roomKept_commitLine r _ ck line _ _) (roomKept_same rfl))
theorem roomKept_writeBackReach (r : Reach) (s : State) (ck : Nat) : roomKept s (writeBackReach r s ck) :=
  roomKept_trans (roomKept_performAll r s _) (roomKept_foldl _ _ _ fun s _ _ => roomKept_writeBackTo r s ck _)
theorem roomKept_weltFetch (s : State) (pa : Nat) : roomKept s (weltFetch s pa) := by
  unfold weltFetch
  split
  · exact roomKept_refl s
  · rename_i w hw
    intro n hn
    have hm := hn.2.1 _ (spFind_mem _ _ _ hw)
    dsimp only at hm ⊢
    rw [if_pos (by rw [hm]; rfl)]
    exact weltsFit_again n pa w { w with used := weltStamp s } hm hw hn rfl
theorem roomKept_weltTouch (s : State) (pa n : Nat) : roomKept s (weltTouch s pa n) := roomKept_foldl _ _ _ fun s _ _ => roomKept_weltFetch s _
theorem l1Alloc_welts (s : State) (ck line : Nat) (f : L1Line → L1Line) : (l1Alloc s ck line f).welts = s.welts := by
  have he (t : State) (l : Nat) : (evictLine t ck l).welts = t.welts := by
    unfold evictLine
    split
    · rfl
    · split <;> rfl
  unfold l1Alloc
  split
  · rfl
  · show (l1Room s ck line).1.welts = _
    unfold l1Room
    dsimp only
    split
    · rfl
    · split
      · exact he _ _
      · rfl
theorem roomKept_fetchLineAt (s : State) (d line : Nat) : roomKept s (fetchLineAt s d line).2.2 := by
  have hk (x : BitVec 1024) : (keepReplica s d line x).welts = s.welts := by
    unfold keepReplica
    dsimp only
    split
    · rfl
    · split <;> rfl
  unfold fetchLineAt
  dsimp only
  split
  · exact roomKept_weltTouch s _ _
  · split
    · exact roomKept_refl s
    · split
      · dsimp only
        split
        · exact roomKept_same (hk _)
        · exact roomKept_refl s
      · exact roomKept_weltTouch s _ _
theorem roomKept_loadBytes (s : State) (ck pa n hint : Nat) : roomKept s (loadBytes s ck pa n hint).2.2 := by
  unfold loadBytes
  dsimp only
  split
  · exact roomKept_refl s
  · refine roomKept_trans (roomKept_performAll (.near (coreDie ck)) s fun w => w.core = ck && w.line = lineOf pa) ?_
    have h1 (u : State) : roomKept u (if readWaits u (coreDie ck) (lineOf pa) then settleLine u (lineOf pa) else u) := by
      split
      · exact roomKept_performAll _ u _
      · exact roomKept_refl u
    have h2 (c : Prop) [Decidable c] (v : State) (f : L1Line → L1Line) : roomKept v (if c then l1Alloc v ck (lineOf pa) f else v) := by
      split
      · exact roomKept_same (l1Alloc_welts ..)
      · exact roomKept_refl v
    exact roomKept_trans (h1 _) (roomKept_trans (roomKept_fetchLineAt _ (coreDie ck) (lineOf pa)) (h2 _ _ _))
theorem roomKept_sampleLoad (s : State) (k : Nat) (q : Part → Bool) : roomKept s (sampleLoad s k q) := by
  unfold sampleLoad
  split
  · exact roomKept_refl s
  · rename_i l _
    have hp (v : State) (p : Part) : roomKept v (samplePart v l p).2.2 := by
      unfold samplePart
      dsimp only
      split
      · exact roomKept_refl v
      · exact roomKept_loadBytes v _ _ _ _
    have h : ∀ (ps : List (Part × Option (List Byte × Bool))) (acc : List (Part × Option (List Byte × Bool)) × State),
        roomKept acc.2 (ps.foldl (fun acc e =>
          match e.2 with
          | some _ => (acc.1 ++ [e], acc.2)
          | none =>
            if q e.1 then
              let v := samplePart acc.2 l e.1
              (acc.1 ++ [(e.1, some (v.1, v.2.1))], v.2.2)
            else (acc.1 ++ [e], acc.2)) acc).2 := by
      intro ps
      induction ps with
      | nil => intro acc; exact roomKept_refl _
      | cons e r ih =>
        intro acc
        refine roomKept_trans ?_ (ih _)
        dsimp only
        split
        · exact roomKept_refl _
        · split
          · exact hp acc.2 e.1
          · exact roomKept_refl _
    exact roomKept_trans (h l.parts ([], s)) (roomKept_same rfl)
theorem roomKept_sampleAllOwn (s : State) (g : Nat) : roomKept s (sampleAllOwn s g) := roomKept_foldl _ _ _ fun s _ _ => roomKept_sampleLoad s _ _
theorem roomKept_doRelease (s : State) (g scope : Nat) : roomKept s (doRelease s g scope) := by
  unfold doRelease
  dsimp only
  split
  · exact roomKept_trans (roomKept_sampleAllOwn s g) (roomKept_writeBackReach _ _ _)
  · split
    · exact roomKept_trans (roomKept_sampleAllOwn s g) (roomKept_writeBackReach _ _ _)
    · exact roomKept_sampleAllOwn s g
theorem roomKept_settleLine (s : State) (line : Nat) : roomKept s (settleLine s line) := roomKept_performAll _ s _
theorem roomKept_flushLine (s : State) (ck line : Nat) : roomKept s (flushLine s ck line) :=
  roomKept_trans (roomKept_writeBackTo .all s ck line) (roomKept_same rfl)
theorem roomKept_sampleOwn (s : State) (g pa n : Nat) : roomKept s (sampleOwn s g pa n) :=
  roomKept_foldl _ _ _ fun s _ _ => roomKept_sampleLoad s _ _
theorem roomKept_atHome (s : State) (pa n : Nat) : roomKept s (atHome s pa n) := by
  unfold atHome
  dsimp only
  have h1 := roomKept_sampleOwn s s.cur.g pa n
  generalize sampleOwn s s.cur.g pa n = a at *
  have h2 : roomKept a (performWhere a fun w => w.core = placeCore s.cur.g && w.line = lineOf pa) := roomKept_performAll _ a _
  generalize performWhere a _ = b at *
  exact roomKept_trans h1 (roomKept_trans h2 (roomKept_trans (roomKept_flushLine _ _ _) (roomKept_settleLine _ _)))

/-! ### FADDW -/

/-- A new entry where the table has room. -/
theorem roomKept_new (n : Nat) (u : State) (slice pa : Nat) (e f : State → State) (w : State → Welt) (hw : ∀ z, (w z).spilled = none)
    (hf : ∀ z, (f z).welts = z.welts) (h : weltsFit (n + 1) u) :
    weltsFit n (match weltRoom u slice with
      | none => e u
      | some z => { f z with welts := spPut (f z).welts pa (w z) }) := by
  rw [weltRoom_fits n _ _ h]
  exact weltsFit_put n pa (w u) (hw u) h (by dsimp only; rw [hf])
/-- One FADDW takes at most one place, and spills none where there is one. -/
theorem faddwAt_room (f64 : Bool) (n : Nat) (s : State) (x : Place × Part) (h : weltsFit (n + 1) s) :
    weltsFit n (faddwAt f64 s x)
    ∧ ∀ z, weltRoom (flushWelts (weltFetch (atHome s x.1.pa (if f64 then 8 else 4)) x.1.pa) x.1.pa (if f64 then 8 else 4)) (sliceKey x.1.pa)
      = some z → z = flushWelts (weltFetch (atHome s x.1.pa (if f64 then 8 else 4)) x.1.pa) x.1.pa (if f64 then 8 else 4) := by
  unfold faddwAt
  dsimp only
  have h0 := roomKept_weltFetch _ x.1.pa _ (roomKept_atHome s x.1.pa (if f64 = true then 8 else 4) _ h)
  generalize weltFetch (atHome s x.1.pa (if f64 = true then 8 else 4)) x.1.pa = v at h0
  have h1 := roomKept_flushWelts v x.1.pa (if f64 = true then 8 else 4) _ h0
  have hv := weltsFit_mono h0 (Nat.le_succ n)
  refine ⟨?_, fun z hz => by rw [weltRoom_fits n _ _ h1] at hz; exact (Option.some.inj hz).symm⟩
  have hnew := roomKept_new n _ (sliceKey x.1.pa) x.1.pa (fun u => u.updMe fun y => { y with refused := some x.1.ea })
    (fun z => awaitAcks z (placeCore z.cur.g) (lineOf x.1.pa) (replicaDies z (lineOf x.1.pa)))
    (fun z => { (Welt.add { f64 := f64, sum := (weltOf f64 (homeNat z x.1.pa (if f64 = true then 8 else 4))).1, tag := (weltOf f64 (homeNat z x.1.pa (if f64 = true then 8 else 4))).2, negZero := isNegZero f64 (homeNat z x.1.pa (if f64 = true then 8 else 4)), ctx := (z.grpLch z.cur.g).ctx, region := (z.grpLch z.cur.g).region } x.2.b) with used := weltStamp v })
    (fun _ => rfl) (fun _ => awaitAcks_welts _ _ _ _) h1
  refine if hd : (!dieServes v (homeDie x.1.pa)) = true then ?_ else ?_
  · rw [if_pos hd]; exact roomKept_same rfl n hv
  rw [if_neg hd]
  cases hf : spFind v.welts x.1.pa with
  | none =>
    dsimp only
    rw [if_neg (by simp)]
    split
    · exact hv
    · exact hnew
  | some w =>
    dsimp only
    refine if hs : (w.f64 == f64) = true then ?_ else ?_
    · rw [if_pos hs]
      exact weltsFit_again n x.1.pa w _ (by exact h0.2.1 _ (spFind_mem _ _ _ hf)) hf hv rfl
    · rw [if_neg hs]
      split
      · exact hv
      · exact hnew
/-- FADDW at places whose slices' tables have room for them all. -/
theorem eff_faddwAll (p q b) (f64 : Bool) (ps : List (Place × Part)) (s : State) (hf : weltsFit ps.length s)
    (h : ∀ x ∈ ps, ∀ a, x.1.pa ≤ a → a < x.1.pa + (if f64 then 8 else 4) → p a = true) : eff p q b s (ps.foldl (faddwAt f64) s) := by
  induction ps generalizing s with
  | nil => exact eff_refl ..
  | cons x r ih =>
    have hx := faddwAt_room f64 r.length s x hf
    exact eff_trans (eff_faddwAt p q b f64 s x (h x (List.mem_cons_self ..)) hx.2)
      (ih _ hx.1 fun y hy => h y (List.mem_cons_of_mem _ hy))

end Sys2Proof.Machine
end

