-- ==== Sys2Proof/Tests/Slice0.lean ====
section
/-! SUPPORT. Slice0.lean: the model's own tests. Words are written out from the encoding tables of spec/03 and the field tables of
the instruction chapters; witnesses show that the hypotheses of each statement of Obligations.lean are met together. -/

namespace Sys2Proof.Tests

open Machine Claim

-- The proofs below are many and small: one after the other they need little memory.
set_option Elab.async false

/-! ### States -/

/-- An ordinary group of 64 threads at place 0, its block with 4 KiB of scratchpad, its launch. -/
def lane : State := State.reset.withFetchWord 96 0
/-- The control core of quadrille 0, which uses physical addresses, issuing; it stands in the same block. -/
def ctl : State :=
  { (lane.withFetchWord 96 (0xF4 * 2 ^ 88)).updGrp (controlPlace 0) (fun x => { x with block := 0 }) with
    cur := { g := controlPlace 0 }, agenda := [] }
/-- A line of five NOPs, every slot a target, with its check code (R44, R49). -/
def codeLine : Line :=
  let base : Line := BitVec.ofNat 512 ((2 ^ 26 + 0x1F) * 2 ^ 480)
  base + BitVec.ofNat 512 (lineCheck base * 2 ^ 496)
/-- The control core with that line as line 0 of its code. -/
def coded : State := homeWriteNat ctl 0 64 codeLine.toNat
/-- A group of a pavane block that holds the Promenade token. -/
def pavane : State := lane.updLch 0 fun l => { l with lr := { l.lr with flags := 4 } }

/-! ### Instructions by form -/

/-- A lane header and a uniform header of type T under no guard, and one whose guard is false (p0, g0). -/
def hl (t : BitVec 4) : Hdr := ⟨false, 7, false, false, 0, 0, t⟩
def hu (t : BitVec 4) : Hdr := ⟨false, 7, true, false, 0, 0, t⟩
def hOff : Hdr := ⟨false, 0, true, false, 0, 0, 0⟩
def fa (t : BitVec 4) : FmtA := { h := hl t, d := 1, a := 2, b := 3, c := 4, i := false, w := 0 }
def fm (u : Bool) (space : BitVec 2) (t : BitVec 4) (b : BitVec 10) : FmtM :=
  { h := if u then hu t else hl t, d := if u then 0x102 else 2, a := 0x100, b := b, c := 0x148, space := space, order := 0, scope := 0,
    hint := 0, off := 0 }
def fc (h : Hdr) (a : BitVec 10) (cfn : BitVec 8) : FmtC :=
  { h := h, tline := 0, tslot := 0, cline := 0, cslot := 0, hint := false, a := a, cfn := cfn }
def fe (h : Hdr) (k a : BitVec 10) (efn : BitVec 53) : FmtE := { h := h, k := k, a := a, efn := efn }
def fs (h : Hdr) (csr : BitVec 12) : FmtS := { h := h, d := 0x105, a := 0x100, csr := csr, sfn := 0 }

/-! ### Decoding: words written out from the spec's encodings -/

/-- LXCH.idx b32 v12, v4, k11: op 0x45, rm 3, T 2. -/
theorem test_decode_lxch : decodeTableWord 96 0x457064060088580000000000
    = some (.lxch { h := ⟨false, 7, false, false, 0, 3, 2⟩, d := 0xC, a := 4, b := 0x10B, c := 0, i := false, w := 0 }) := by
  decide
theorem test_decode_cmp : decodeTableWord 96 0x40704C008000080028000000
    = some (.cmp { h := ⟨false, 7, false, false, 0, 2, 6⟩, d := 1, a := 0, b := 1, c := 0, i := false, w := 0x28000000 }) := by
  decide
/-- A uniform CAS, agent order acq, scope blk. -/
theorem test_decode_cas : (decodeTableWord 96 0xA178048121EA4292A4000000).isSome = true := by decide
theorem test_decode_atomsc : (decodeTableWord 96 0xA27006022060329070000000).map (fun i => match i with
    | .atomsc o => (o.d.toNat, o.a.toNat, o.b.toNat, o.order.toNat, o.scope.toNat) | _ => (0, 0, 0, 0, 0))
    = some (4, 0x103, 6, 3, 4) := by decide
theorem test_decode_cpy : (decodeTableWord 96 0xB07800832042600000000000).map (fun i => match i with
    | .cpy o => (o.k.toNat, o.a.toNat) | _ => (0, 0)) = some (0x106, 0x102) := by decide
theorem test_decode_bq : (decodeTableWord 96 0xD17000040045419050000000).map (fun i => match i with
    | .bq o => (o.k.toNat, o.a.toNat, o.efn.toNat) | _ => (0, 0, 0)) = some (8, 2, 0x05419050000000) := by decide
/-- rm 0 of opcode 0xE2 is RAWAIT.take. -/
theorem test_decode_rawait : decodeTableWord 96 0xE27800822050100000300000
    = some (.rawaitTake (fe (hu 0) 0x104 0x102 0x10100000300000)) := by decide
theorem test_decode_send : decodeTableWord 96 0xEA78000020E8221D30400000
    = some (.send (fe (hu 0) 0 0x107 0x08221D30400000)) := by decide
theorem test_decode_proghint : (decodeTableWord 96 0xFA78000020A0000000000000).map (fun i => match i with
    | .proghint o => o.a.toNat | _ => 0) = some 0x105 := by decide
/-- Opcode 0x0F is not assigned (Table 3-10). -/
theorem test_decode_unassigned : decodeTableWord 96 (0x0F * 2 ^ 88) = none := by decide
/-- The check code of an all-NOP line corrects any single bit of slot 2 (R49). -/
theorem test_line_corrects : lineCorrect (codeLine ^^^ (1#512 <<< 250)) = some (codeLine, true) := by decide +kernel

/-! ### Well-formedness: for each check an ill-formed term, which it refuses -/

/-- An efn with the given fields: low bit and value of each. -/
def ef (l : List (Nat × Nat)) : BitVec 53 := BitVec.ofNat 53 (l.foldl (fun n p => n + p.2 * 2 ^ p.1) 0)
/-- The first term of each pair is well formed and the second, with one illegal field, is not. -/
def refused (l : List (Instr × Instr)) : Bool := l.all fun p => wellFormed false p.1 && !wellFormed false p.2

/-- Format A: type, form, rm, reserved function bits, pdc, unused operand, operand, destination, imm32, and the checks of single
entries (R110 to R113, R119, R126, R129, R143). -/
theorem test_wf_formatA :
    let b := { fa 6 with c := 0 }
    let u := { b with b := 0 }
    refused [
      (.add b, .add { b with h := hl 0xF }), (.idiv b, .idiv { b with h := hu 6, d := 0x101, a := 0x102, b := 0x103 }),
      (.add b, .add { b with h := { hl 6 with rm := 3 } }), (.add b, .add { b with w := 1 }), (.add b, .add { b with w := 0x80000000 }),
      (.add b, .add { b with c := 4 }), (.add b, .add { b with a := 0x160 }), (.add b, .add { b with d := 0x101 }),
      (.fadd { b with h := hl 8, i := true, w := 0xFFFF }, .fadd { b with h := hl 8, i := true, w := 0x10000 }),
      (.lea { b with h := hl 2, w := 31 }, .lea { b with h := hl 2, w := 32 }),
      (.mov u, .mov { u with w := 5 }), (.movi { u with a := 0, i := true }, .movi { u with a := 0 }),
      (.movh { u with h := hl 3, d := 2, a := 0, i := true }, .movh { u with h := hl 3, d := 3, a := 0, i := true }),
      (.cmp b, .cmp { b with c := 2 }), (.fcmp { b with h := hl 10 }, .fcmp { b with h := { hl 10 with rm := 6 }, w := 1 }),
      (.plop { b with h := hl 0, c := 2 }, .plop { b with h := hl 0, a := 9, c := 2 }),
      (.pmov { u with h := hl 2, a := 0 }, .pmov { u with h := hl 2, a := 1 }),
      (.poll { u with h := hl 0 }, .poll { u with h := { hl 0 with rm := 5 } }),
      (.lxch { b with h := hl 2 }, .lxch { b with h := hl 2, w := 7 }), (.gred { u with w := 2 }, .gred { u with w := 3 }),
      (.gscan u, .gscan { u with w := 6 }), (.cvt { u with h := hl 10, w := 11, d := 1 }, .cvt { u with h := hl 10, w := 3 }),
      (.i2f { u with h := hl 10, w := 6 }, .i2f { u with h := hl 10, w := 10 }), (.f2i { u with w := 10 }, .f2i { u with w := 6 }),
      (.mxq { u with h := hl 12, w := 10 }, .mxq { u with h := hl 12, w := 6 }),
      (.mxdq { u with h := hl 10, w := 12 }, .mxdq { u with h := hl 10, w := 10 }),
      (.bfpq { u with h := hl 0, w := 0x8A }, .bfpq { u with h := hl 0, w := 0x9A }),
      (.pack { b with h := hl 8, w := 10 }, .pack { b with h := hl 8, w := 11 }),
      (.sel { b with c := 1 }, .sel { b with c := 9 }),
      (.unpk { u with h := hl 8, d := 2 }, .unpk { u with h := hl 8, d := 1 })] = true := by decide +kernel

/-- Format M: type, form, space, hint, order and scope, data, base, index, vector count (R224, R242, R269). -/
theorem test_wf_formatM :
    let m := fm false 0 2 0x148
    let s := { fm true 0 0 0x148 with d := 0 }
    let bare := { s with a := 0x148 }
    refused [
      (.ld m, .ld { m with h := hl 6 |> fun h => { h with t := 8 } }), (.ld m, .ld { m with space := 3 }),
      (.ld { m with space := 1 }, .ld { m with space := 1, hint := 1 }), (.ld m, .ld { m with order := 2 }),
      (.ld m, .ld { m with scope := 1 }), (.ld m, .ld { m with d := 0x102 }), (.ld m, .ld { m with a := 3 }),
      (.ld m, .ld { m with b := 0x150 }), (.ld m, .ld { m with h := { hl 2 with rm := 3 } }), (.ld m, .ld { m with c := 0 }),
      (.st m, .st { m with order := 1 }), (.ldw { s with h := hu 3, d := 0x102 }, .ldw { s with h := hu 3, d := 0x103 }),
      (.pref s, .pref { s with space := 1 }), (.cresize { s with d := 0x101 }, .cresize { s with d := 0x101, hint := 1 }),
      (.cflush { s with b := 0x101 }, .cflush { s with b := 0x101, space := 1 }), (.cinv { s with b := 0x101 }, .cinv { s with b := 0x150 }),
      (.femark { s with space := 1, b := 0x201 }, .femark { s with b := 0x201 }),
      (.fetest { s with space := 1, b := 0x201 }, .fetest { s with space := 1 }),
      (.atom { m with b := 3 }, .atom { m with b := 3, space := 2 }), (.atom { m with b := 3 }, .atom { m with b := 3, c := 4 }),
      (.cas { m with b := 3, c := 4 }, .cas { m with b := 3, c := 4, hint := 1 }),
      (.atomsc { m with b := 3, order := 3, scope := 4 }, .atomsc { m with b := 3, order := 3, scope := 2 }),
      (.faddw { m with h := hl 10, d := 0, b := 3 }, .faddw { m with h := hl 10, d := 2, b := 3 }),
      (.wread { m with h := hl 10 }, .wread { m with h := hl 10, order := 2 }),
      (.wflush { m with h := hl 10 }, .wflush { m with h := hl 10, b := 3 }),
      (.fence { bare with order := 3, scope := 4 }, .fence bare), (.opfence bare, .opfence { bare with off := 8 }),
      (.recfence bare, .recfence { bare with b := 0 }), (.tokwait bare, .tokwait { bare with hint := 1 }),
      (.tokpass bare, .tokpass { bare with h := hl 0 }),
      (.redix { m with b := 3, c := 4 }, .redix { m with b := 3, c := 4, space := 1 })] = true := by decide +kernel

/-- Format C: header, unused fields, operand (R66, Table 13-1). -/
theorem test_wf_formatC :
    let u := fc (hu 0) 0 0
    let l := fc (hl 0) 0 0
    refused [
      (.bra u, .bra (fc (hu 1) 0 0)), (.bra u, .bra { u with cline := 1 }), (.bra u, .bra { u with a := 3 }),
      (.brx { u with a := 0x100 }, .brx { u with a := 0x100, tline := 1 }), (.call l, .call u),
      (.callInd (fc (hl 0) 0x100 2), .callInd (fc (hl 0) 0x100 0)), (.ret l, .ret { l with hint := true }),
      (.join l, .join { l with h := { hl 0 with pg := 0 } }), (.exit l, .exit { l with tslot := 1 }),
      (.sleep { u with a := 0x205 }, .sleep { u with a := 0x205, cfn := 1 }), (.sleepTok (fc (hu 0) 0x100 1), .sleepTok (fc (hu 0) 0x205 1)),
      (.yield u, .yield l), (.pln { l with a := 0x207 }, .pln { l with a := 0x208 }), (.plng { u with a := 0x100 }, .plng u),
      (.trap (fc (hu 0) 0 9), .trap (fc (hu 0) 1 9)), (.brk l, .brk { l with h := { hl 0 with rm := 1 } }),
      (.loop { u with a := 0x101 }, .loop u), (.bara (fc (hu 0) 0 15), .bara (fc (hu 0) 0 16)), (.barw u, .barw l),
      (.barx u, .barx { u with cslot := 1 }), (.bari (fc (hu 0) 0x205 31), .bari (fc (hu 0) 0x205 32))] = true := by decide +kernel
/-- JOIN takes no guard, and a slot of NOP's opcode with another bit set is no instruction (R70). -/
theorem test_decode_nop : decodeTableWord 96 0 = some .nop ∧ decodeTableWord 96 1 = none := by decide

/-- Format E: header, K, A and each field of efn (R67, the tables of the engines). -/
theorem test_wf_formatE :
    let z := fe (hu 0) 0 0x100 0
    let k := fe (hu 0) 0x101 0x100 0
    let k0 := fe (hu 0) 0x101 0 0
    let l := fe (hl 0) 2 0x100 0
    refused [
      (.cpy k, .cpy z), (.cpy k, .cpy { k with efn := 1 }), (.cpyg k, .cpyg { k with efn := ef [(52, 1)] }),
      (.cpys { k with efn := ef [(52, 1)] }, .cpys k), (.cpyi { k with efn := ef [(24, 0x101), (14, 0x102)] }, .cpyi { k with efn := ef [(24, 0x101)] }),
      (.cpyq z, .cpyq k), (.cpyqTest { z with efn := 8 }, .cpyqTest z), (.cpyqAll { z with a := 0, efn := 16 }, .cpyqAll { z with efn := 16 }),
      (.cpyqStat { k with efn := 32 }, .cpyqStat k), (.cpyx z, .cpyx { z with h := hl 0 }),
      (.wsstage { z with efn := ef [(43, 0x101)] }, .wsstage z), (.wsdrop { z with efn := ef [(43, 0x101)] }, .wsdrop { z with efn := ef [(43, 0x101), (34, 1)] }),
      (.mms { k with h := hu 11, efn := ef [(43, 0x102), (34, 10), (22, 0x201)] }, .mms { k with h := hu 11, efn := ef [(43, 0x102), (34, 11), (22, 0x201)] }),
      (.mmx { k with efn := ef [(43, 0x102), (22, 0x201)] }, .mmx { k with efn := ef [(43, 0x102), (34, 1), (22, 0x201)] }),
      (.mmi { k with efn := ef [(43, 0x102), (22, 0x201)] }, .mmi { k with efn := ef [(43, 0x102), (22, 0x201), (10, 3)] }),
      (.acz k0, .acz { k0 with efn := ef [(48, 2)] }), (.acld k, .acld { k with efn := ef [(32, 3)] }),
      (.acst k, .acst { k with efn := ef [(34, 7)] }),
      (.acrd { l with h := hl 11, a := 0, efn := ef [(38, 3), (28, 0x104)] }, .acrd { l with h := hl 8, a := 0, efn := ef [(38, 3), (28, 0x104)] }),
      (.mwait z, .mwait { z with efn := 1 }), (.mwaitTest { z with efn := 8 }, .mwaitTest { z with efn := 24 }),
      (.mwaitAll { z with a := 0, efn := 16 }, .mwaitAll { z with a := 0 }),
      (.mstatr { k0 with efn := ef [(38, 0x104), (28, 0x105)] }, .mstatr { k0 with efn := ef [(38, 0x104)] }),
      (.mdrain { k with efn := ef [(43, 0x102)] }, .mdrain k), (.mrestore { k with efn := ef [(43, 0x102)] }, .mrestore { k with efn := ef [(43, 0x102), (41, 1)] }),
      (.mresumeMatrix { k with efn := ef [(43, 0x102)] }, .mresumeMatrix { k with efn := ef [(43, 0x102), (41, 1)] }),
      (.mresumeCopy { k with efn := ef [(43, 0x102), (41, 1)] }, .mresumeCopy { k with efn := ef [(43, 0x102)] }),
      (.mresumeQuery { k with efn := ef [(43, 0x102), (41, 2)] }, .mresumeQuery { k with efn := ef [(43, 0x102), (41, 3)] }),
      (.slice { fe (hu 11) 0x101 0x102 (ef [(43, 0x103)]) with h := { hu 11 with rm := 0 } }, .slice (fe { hu 11 with rm := 1 } 0x101 0x102 (ef [(43, 0x103)])))]
      = true := by decide +kernel
theorem test_wf_formatE_rays_and_tasks :
    let z := fe (hu 0) 0 0x100 0
    let k := fe (hu 0) 0x101 0x100 0
    let l := fe (hl 0) 2 0x100 0
    let lz := fe (hl 0) 0 0x100 0
    let c (x : FmtE) (p : List (Nat × Nat)) : FmtE := { x with efn := ef p }
    refused [
      (.rq (c l [(38, 0x148)]), .rq l), (.bq (c l [(38, 0x148), (28, 0x102)]), .bq (c l [(38, 0x148), (28, 3)])),
      (.rqr (c l [(28, 0x148)]), .rqr { c l [(28, 0x148)] with h := { hl 0 with rm := 2 } }),
      (.hacc (c lz [(43, 2), (33, 3)]), .hacc (c lz [(43, 3), (33, 3)])), (.hrej lz, .hrej { lz with efn := 1 }),
      (.spcfg z, .spcfg { z with efn := 1 }), (.bvhref z, .bvhref { z with k := 1 }),
      (.cover (c k [(28, 0x101), (18, 0x201)]), .cover (c k [(28, 0x101), (18, 0x3FF)])),
      (.triem (c l [(43, 4), (33, 3)]), .triem (c l [(43, 0x100), (33, 3)])),
      (.rclaim (c k [(43, 0x240)]), .rclaim (c k [(43, 0x241)])), (.rcommit (c k [(43, 0x102), (33, 0x201)]), .rcommit (c k [(43, 0x102), (33, 0x200)])),
      (.rretire (c k [(43, 0x102), (33, 0x201)]), .rretire (c k [(43, 0x102), (33, 0x201), (20, 6)])),
      (.rawaitTake (c k [(43, 0x201)]), .rawaitTake (c k [(43, 0x201), (19, 1)])), (.rawaitAt (c z [(43, 0x101), (19, 1)]), .rawaitAt (c k [(43, 0x101), (19, 1)])),
      (.enq (c l [(43, 4), (33, 6)]), .enq (c l [(43, 5), (33, 6)])), (.deq l, .deq { l with k := 3 }),
      (.cont (c z [(43, 0x101), (33, 0x148)]), .cont (c z [(43, 0x101), (33, 0x148), (23, 9)])),
      (.launch k, .launch (c k [(0, 1)])), (.launchGraph (c k [(19, 1)]), .launchGraph k), (.signal (c z [(43, 0x2FF)]), .signal (c z [(43, 0x200)])),
      (.publish (c z [(43, 0x201)]), .publish z),
      (.send (c z [(43, 0x101), (33, 0x148), (23, 0x210)]), .send (c z [(43, 0x101), (33, 0x150), (23, 0x210)])),
      (.recvp (c k [(43, 0x23F), (33, 0x101), (23, 0x102), (10, 0x210)]), .recvp (c k [(43, 0x240), (33, 0x101), (23, 0x102), (10, 0x210)])),
      (.recvw k, .recvw (c k [(20, 7)])), (.probe { c k [(43, 0x201), (33, 0x101), (23, 0x102)] with a := 0 }, .probe (c k [(43, 0x201), (33, 0x101), (23, 0x102)])),
      (.probeTok (c k [(19, 1)]), .probeTok k), (.itrep (c z [(43, 0x101), (33, 0x102)]), .itrep (c z [(43, 0x101), (33, 3)]))] = true := by decide +kernel

/-- Format S: header, D, A, register number, function (R68, R415). -/
theorem test_wf_formatS :
    let r := { fs (hu 0) 1 with a := 0 }
    let h := { fs (hu 0) 0 with d := 0 }
    refused [
      (.csrr r, .csrr { r with csr := 3 }), (.csrr r, .csrr { r with h := hl 0 }), (.csrw (fs (hu 0) 1), .csrw { fs (hu 0) 1 with sfn := 1 }),
      (.csrwSet { fs (hu 0) 1 with sfn := 1 }, .csrwSet (fs (hu 0) 1)), (.csrwClr { fs (hu 0) 1 with sfn := 2 }, .csrwClr { fs (hu 0) 1 with sfn := 2, a := 2 }),
      (.rdclk { r with csr := 0 }, .rdclk r), (.rdtime { r with csr := 0 }, .rdtime { r with csr := 0, a := 0x100 }),
      (.gstatr (fs (hu 0) 0), .gstatr { fs (hu 0) 0 with sfn := 1 }), (.gstatw (fs (hu 0) 0), .gstatw h),
      (.gresume h, .gresume { h with sfn := 1 }), (.gresumeReplay { h with sfn := 1 }, .gresumeReplay h), (.halt h, .halt { h with a := 0 }),
      (.haltBlk { h with sfn := 1 }, .haltBlk { h with sfn := 2 }), (.svc h, .svc { h with csr := 1 }),
      (.eret { h with a := 0 }, .eret h), (.proghint h, .proghint { h with a := 0x148 })] = true := by decide +kernel

/-! ### Witnesses: decidable forms of the hypotheses -/

def accessB (o : FmtM) (indexed : Bool) (data : List FieldUse) (n al : Nat) (nd : Need) (s : State) : Bool :=
  decide (∀ t ∈ runners s o.h, staleAt s.seen (addressUses o indexed ++ data) t = false ∧ poisonAt s.seen (addressUses o indexed ++ data) t = false)
  && (runners s o.h).all fun t => 0 ≤ eaOf s o indexed t && eaOf s o indexed t + n ≤ spaceEnd s o && eaOf s o indexed t % al = 0
    && (match physical s o nd (eaOf s o indexed t).toNat with | .ok _ _ => true | .bad _ => false)
theorem access_of {o indexed data n al nd s} (h : accessB o indexed data n al nd s = true) : accessGood o indexed data n al nd s := by
  simp only [accessB, Bool.and_eq_true, decide_eq_true_eq, List.all_eq_true] at h
  refine ⟨h.1, fun t ht => ⟨(h.2 t ht).1.1.1, (h.2 t ht).1.1.2, (h.2 t ht).1.2, ?_⟩⟩
  have := (h.2 t ht).2
  revert this
  cases physical s o nd (eaOf s o indexed t).toNat with
  | ok pa prom => exact fun _ => ⟨pa, prom, rfl⟩
  | bad _ => intro h; cases h
def structB (s : State) (al n : Nat) (nd : Need) (va pa : Nat) : Bool :=
  va % al = 0 && (match xlatRange (xlGrp s s.cur.g nd) va n with | .ok (p :: _) => p.1 = pa | _ => false)
theorem struct_of {s al n nd va pa} (h : structB s al n nd va pa = true) : structAt s al n nd va pa := by
  unfold structB at h
  rw [Bool.and_eq_true, decide_eq_true_eq] at h
  refine ⟨h.1, ?_⟩
  have h2 := h.2
  revert h2
  cases xlatRange (xlGrp s s.cur.g nd) va n with
  | error _ => intro h; cases h
  | ok l =>
    cases l with
    | nil => intro h; cases h
    | cons p r => intro h; exact ⟨p.2, r, by rw [← of_decide_eq_true h]⟩
def targetB (s : State) (x : Target) : Bool := x.va % x.al = 0 && (readRange s (xlGrp s s.cur.g x.nd) x.va x.n).isOk
theorem target_of {s x} (h : targetB s x = true) : targetGood s x := by
  unfold targetB at h
  rw [Bool.and_eq_true, decide_eq_true_eq] at h
  refine ⟨h.1, ?_⟩
  have h2 := h.2
  revert h2
  cases readRange s (xlGrp s s.cur.g x.nd) x.va x.n with
  | error _ => intro h; cases h
  | ok l => exact fun _ => ⟨l, rfl⟩
def landsB (s : State) (u : Bool) (line : Int) (slot : Nat) : Bool :=
  0 ≤ line * 5 + slot && line * 5 + slot ≤ 134217724 && slot ≤ 4 && (checkLine s s.cur.g line.toNat slot u true true).isOk
theorem lands_of {s u line slot} (h : landsB s u line slot = true) : ∃ t, lands s u line slot t := by
  simp only [landsB, Bool.and_eq_true, decide_eq_true_eq] at h
  have h2 := h.2
  revert h2
  cases hc : checkLine s s.cur.g line.toNat slot u true true with
  | error _ => intro h; cases h
  | ok r => exact fun _ => ⟨_, h.1.1.1, h.1.1.2, h.1.2, r, hc, rfl⟩

/-! ### Witnesses: Format A -/

/-- All 64 threads run, with good sources, and no flag is enabled, for every Format A instruction at once (IntegerResults,
LogicResults, MoveResults, PredicateResults, FloatResults, ApproximationAndPairResults, ConversionResults, IntegerDivision,
ResultsLand, LaneFrame). -/
theorem witness_lane : (runners lane (hl 6)).length = 64 ∧ (∀ e ∈ laneInstrs (fa 6), ready e.1 (hl 6) lane)
    ∧ ready (.pmov (fa 6)) (hl 6) lane ∧ ready (.clamp (fa 6)) (hl 6) lane := by
  unfold ready good; decide +kernel
theorem witness_flags (f : Nat → Res) : flagsQuiet (hl 6) lane f := by
  intro t _
  show enabledFlags lane.me _ = 0
  have h : lane.me.mode = 1 := by decide
  unfold enabledFlags; rw [h, show bitsNat (1 : DWord) 8 4 = 0 from by decide, Nat.and_zero]
/-- The divisors 0 and −1 and an ordinary one (IntegerDivision): B is an immediate. -/
theorem witness_divisors :
    (∀ t ∈ runners lane (hl 6), intB lane { fa 6 with b := 0x200 } t = 0 ∧ intB lane { fa 6 with b := 0x3FF } t = -1
      ∧ intB lane { fa 6 with b := 0x207 } t = 7)
    ∧ ∃ s : State, ∀ t ∈ runners s (hl 6), isSigned (tyA (fa 6)) = true ∧ intA s { fa 6 with i := true, w := 0xFFFFFFFF } t = -2 ^ 31 := by
  refine ⟨by decide +kernel, lane.updMe fun x => { x with vr := (List.range 64).map fun t => (2 * 64 + t, 0x80000000) }, by decide +kernel⟩
/-- A uniform MOV of a v register, MOVH, both forms of PMOV, and CVT to either kind of type. -/
theorem witness_MoveResults : guardG lane (hu 6) = true ∧ WF.isV (fa 6).a = true
    ∧ poisonAt lane.seen (readsOf (.mov { fa 6 with h := hu 6 })) 5 = false
    ∧ (∀ t ∈ runners lane (hl 3), poisonAt lane.seen [(2, 2)] t = false)
    ∧ (WF.fnv { fa 2 with w := 1 }).getLsbD 0 = true ∧ (WF.fnv (fa 2)).getLsbD 0 = false
    ∧ isFp (tyA (fa 10)) = true ∧ isFp (tyA (fa 6)) = false := by decide +kernel
/-- The collective instructions: participants with good sources, and none under a false guard (GRED's two cases). -/
theorem witness_CollectiveResults :
    (∀ op ∈ [0x44, 0x45, 0x46, 0x47, 0x83, 0x85], collectiveReady op (fa 6) lane)
    ∧ (redTree (fa 6) (modeA lane (fa 6)) (tids.map (redIn lane (fa 6) (participants lane (hl 6))))).isSome = true
    ∧ redTree { fa 6 with h := { hl 6 with pg := 0 } } 1 (tids.map (redIn lane { fa 6 with h := { hl 6 with pg := 0 } }
        (participants lane { hl 6 with pg := 0 }))) = none
    ∧ (∀ t ∈ participants lane (hl 6), (copyA lane (fa 6) t).h.rm = 0 ∧ (copyA lane (fa 6) t).h.t = 6) := by
  unfold collectiveReady; decide +kernel

/-! ### Witnesses: Format M -/

/-- Loads at physical addresses of the control core, and at empty-free scratchpad lines of the ordinary group. -/
theorem witness_LoadResults :
    accessGood (fm true 0 2 0x148) true [] 4 4 needR ctl ∧ placed (fm true 0 2 0x148) true needR noData ctl ≠ []
    ∧ loadReady { fm true 2 2 0x148 with order := 1 } (placed (fm true 0 2 0x148) true needR noData ctl) ctl
    ∧ accessGood (fm true 0 3 0x148) true [] 16 16 needR ctl
    ∧ accessGood (fm false 1 2 0x148) true [] 4 4 needR lane
    ∧ linesFull (fm false 1 2 0x148) (placed (fm false 1 2 0x148) true needR noData lane) lane :=
  ⟨access_of (by decide +kernel), by decide +kernel, by unfold loadReady readsReady; decide +kernel, access_of (by decide +kernel),
    access_of (by decide +kernel), by unfold linesFull; decide +kernel⟩
/-- A store whose last byte is the last of the scratchpad: the offset is 4,092. -/
theorem witness_StoreResults :
    let o : FmtM := { fm true 1 2 0x148 with off := 4092 }
    accessGood o true [(o.d, 1)] 4 4 needW ctl ∧ tokenHeld (placed o true needW noData ctl) ctl ∧ orderReady { o with order := 3 } ctl
    ∧ accessGood (fm true 0 2 0x148) true [(0x102, 1)] 4 4 needW ctl :=
  ⟨access_of (by decide +kernel), .inl (by decide +kernel), by unfold orderReady readsReady; decide +kernel, access_of (by decide +kernel)⟩
/-- FEMARK of the last scratchpad line, FETEST of it and of no line, a CRESIZE operand, and a false guard. -/
theorem witness_CacheControlResults :
    let o : FmtM := { fm true 1 0 0x201 with off := 3968 }
    guardG ctl o.h = true ∧ good ctl (use1 o.a) [0] ∧ good ctl (addressUses o true) [0] ∧ lengthB ctl o = 1
    ∧ (0 ≤ eaOf ctl { o with b := 0x148 } true 0 ∧ eaOf ctl { o with b := 0x148 } true 0 + 128 = (ctl.grpBlk ctl.cur.g).spSize)
    ∧ (∀ t ∈ runners ctl o.h, (eaOf ctl { o with b := 0x148 } true t / 128 + 1) * 128 ≤ (ctl.grpBlk ctl.cur.g).spSize)
    ∧ (∀ t ∈ runners lane (hl 0), eaOf lane { fm false 1 0 0x148 with off := 4095 } true t < (lane.grpBlk lane.cur.g).spSize)
    ∧ lengthB ctl { o with b := 0x200 } = 0 ∧ guardG ctl hOff = false := by
  unfold good; decide +kernel
/-- Atomics at a physical address and in the scratchpad. -/
theorem witness_AtomicResults :
    let o := { fm true 0 2 0x103 with c := 0x104 }
    accessGood o false (useTy 2 o.b ++ useTy 2 o.c) (atomBytes o) (atomBytes o) needRW ctl
    ∧ accessGood o false [] (atomBytes o) (atomBytes o) needRW ctl ∧ accessGood o false (useTy 2 o.b) (atomBytes o) (atomBytes o) needRW ctl
    ∧ linesFull o (placed o false needRW (dataBC o) ctl) ctl ∧ tokenHeld (placed o false needRW (dataBC o) ctl) ctl
    ∧ orderReady { o with order := 3 } ctl
    ∧ placed o false needRW (dataBC o) ctl ≠ [] :=
  ⟨access_of (by decide +kernel), access_of (by decide +kernel), access_of (by decide +kernel), by unfold linesFull; decide +kernel,
    .inl (by decide +kernel), by unfold orderReady readsReady; decide +kernel, by decide +kernel⟩
theorem witness_WeltResults :
    let o := { fm true 0 10 0x103 with d := 0x104 }
    accessGood o false (useTy 10 o.b) 4 4 needRW ctl ∧ accessGood o false [] 4 4 needR ctl ∧ accessGood o false [] 4 4 needRW ctl
    ∧ ctl.me.refused = none ∧ tokenHeld (placed o false needRW noData ctl) ctl ∧ orderReady { o with order := 3 } ctl :=
  ⟨access_of (by decide +kernel), access_of (by decide +kernel), access_of (by decide +kernel), by decide +kernel, .inl (by decide +kernel),
    by unfold orderReady readsReady; decide +kernel⟩
/-- A slot whose next is 4: index 0 is rejected, and index 9 finds its slice's park full. -/
theorem witness_RedixResults :
    let o := { fm true 0 6 0x103 with c := 0x104 }
    let s := homeWriteNat ctl 8 4 4
    let ps := placed o false needRW (fun s t => (srcAs s o.h.u 6 o.b t, src32 s o.h.u o.c t)) s
    accessGood o false (useTy 6 o.b ++ use1 o.c) 16 16 needRW s ∧ ps ≠ [] ∧ orderReady { o with order := 3 } s ∧ (redixRun 6 s (heldRest s ps) (heldGot s)).2.2 = true
    ∧ (let s : State := { s.updMe (fun x => setK x 4 9) with
          redParks := List.replicate 256 { slice := sliceKey 0, slot := 64, t := 6, index := 7, value := 0 } }
       let ps := placed o false needRW (fun s t => (srcAs s o.h.u 6 o.b t, src32 s o.h.u o.c t)) s
       (redixRun 6 s (heldRest s ps) (heldGot s)).2.2 = false) :=
  ⟨access_of (by decide +kernel), by decide +kernel, by unfold orderReady readsReady; decide +kernel, by decide +kernel, by decide +kernel⟩
theorem witness_FenceResults : guardG ctl (hu 0) = true ∧ ctl.me.refused = none ∧ readsReady ctl ∧ good ctl (use1 0x148) [0]
    ∧ holdsToken ctl ctl.cur.g = true ∧ guardG ctl hOff = false
    ∧ (guardG pavane (hu 0) = true ∧ pavane.grpPavane pavane.cur.g = true ∧ holdsToken pavane pavane.cur.g = true
      ∧ hasToken pavane pavane.cur.g = true)
    ∧ (let s := pavane.updLch 0 fun l => { l with token := 1 }
       holdsToken s s.cur.g = false) :=
  ⟨by decide +kernel, by decide +kernel, by unfold readsReady; decide +kernel, by unfold good; decide +kernel, by decide +kernel, by decide +kernel, by decide +kernel, by decide +kernel⟩

/-! ### Witnesses: Format C -/

/-- As lands_of, when no bit of the line is corrected. -/
theorem lands_same {s : State} {u : Bool} {line : Int} {slot : Nat} (h : landsB s u line slot = true)
    (hn : (match checkLine s s.cur.g line.toNat slot u true true with | .ok r => r.2 | .error _ => 1) = 0) : lands s u line slot s := by
  simp only [landsB, Bool.and_eq_true, decide_eq_true_eq] at h
  revert hn
  have h2 := h.2
  revert h2
  cases hc : checkLine s s.cur.g line.toNat slot u true true with
  | error _ => intro h; cases h
  | ok r => exact fun _ hn => ⟨h.1.1.1, h.1.1.2, h.1.2, r, hc, by rw [show r.2 = 0 from hn]; rfl⟩
/-- The control core with two threads, of which thread 0 holds p0: a lane branch guarded by p0 splits them. -/
def two : State := coded.updMe fun x => { x with live := 3, resident := 3, pr := [(0, 1)] }
def split : FmtC := { fc { hl 0 with pg := 0 } 0 1 with tslot := 4, cslot := 1 }

theorem witness_BranchResults :
    (lands coded true (lineAt coded 0) 4 coded ∧ convergenceLands coded (fc (hu 0) 0 1) coded ∧ guardG coded (hu 0) = true)
    ∧ (lands two false (lineAt two 0) 4 two ∧ convergenceLands two split two ∧ participantMask two split.h = 1 ∧ rcOf split = true
      ∧ two.me.live &&& ~~~(participantMask two split.h) = 2 ∧ two.me.stack.length + 2 ≤ 64)
    ∧ (participantMask two { hl 0 with pg := 1 } = 0 ∧ participantMask two (hl 0) = 3)
    ∧ (clean coded (use1 0x100) ∧ landsAt coded true (readK coded.seen 0 % 2 ^ 27) coded ∧ guardG coded hOff = false)
    ∧ (let s := two.updMe fun x => { x with vr := [(0, 3)] }
       (∀ t ∈ participants s (hl 0), poisonAt s.seen (use1 (ownA s (fc (hl 0) 0 1) t)) t = false)
       ∧ (participants s (hl 0)).map (fun t => src32 s false (ownA s (fc (hl 0) 0 1) t) t % 2 ^ 27) = [3, 0]
       ∧ landsAt s false 0 s ∧ landsAt s false 3 s ∧ convergenceLands s (fc (hl 0) 0 1) s ∧ s.me.stack.length + 1 + 2 ≤ 64)
    ∧ joinPops lane.me.stack lane.cur.off = false
    ∧ joinPops [{ offset := coded.cur.off, kind := .rejoin, mask := 3 }] coded.cur.off = true :=
  ⟨⟨lands_same (by decide +kernel) (by decide +kernel), (if_pos (by decide)).mpr (lands_same (by decide +kernel) (by decide +kernel)), by decide +kernel⟩,
    ⟨lands_same (by decide +kernel) (by decide +kernel), (if_pos (by decide)).mpr (lands_same (by decide +kernel) (by decide +kernel)),
      by decide +kernel, by decide, by decide +kernel, by decide +kernel⟩,
    by decide +kernel, ⟨by unfold clean; decide +kernel, lands_same (by decide +kernel) (by decide +kernel), by decide +kernel⟩,
    ⟨by decide +kernel, by decide +kernel, lands_same (by decide +kernel) (by decide +kernel), lands_same (by decide +kernel) (by decide +kernel),
      (if_pos (by decide)).mpr (lands_same (by decide +kernel) (by decide +kernel)), by decide +kernel⟩, by decide +kernel, by decide +kernel⟩
/-- Calls of the control core (it has one thread, so each EXIT ends its last), a RET with a call on the stack, a LOOP. -/
theorem witness_CallResults :
    (lands two false (lineAt two 0) 4 two ∧ participantMask two (hl 0) ≠ 0 ∧ two.me.stack.length + 1 ≤ 64)
    ∧ (landsAt two false (readK two.seen 0 % 2 ^ 27) two ∧ clean two (use1 0x100)) ∧ participantMask two { hl 0 with pg := 1 } = 0
    ∧ (let s := two.updMe fun x => { x with stack := [{ offset := 3, kind := .rejoin, mask := 3 }, { offset := 4, kind := .call, mask := 3 }] }
       (s.me.stack.findIdx? fun e => e.kind = .call) = some 1)
    ∧ readsReady two ∧ ((two.me.stack.findIdx? fun e => e.kind = .call) = none ∧ two.me.refused = none ∧ two.oplog = []
       ∧ two.me.resident &&& ~~~(participantMask two (hl 0)) = 0)
    ∧ (lands coded true (lineAt coded 0) 4 coded ∧ guardG coded (hu 0) = true ∧ guardG coded hOff = false ∧ clean coded (use1 0x101)) :=
  ⟨⟨lands_same (by decide +kernel) (by decide +kernel), by decide +kernel, by decide +kernel⟩,
    ⟨lands_same (by decide +kernel) (by decide +kernel), by unfold clean; decide +kernel⟩, by decide +kernel, by decide +kernel,
    by unfold readsReady; decide +kernel, by decide +kernel, lands_same (by decide +kernel) (by decide +kernel), by decide +kernel, by decide +kernel, by unfold clean; decide +kernel⟩
/-- A copy token of a group's first copy, complete long ago; the planes 0 to np − 1. -/
theorem witness_WaitAndPlaneResults :
    guardG lane (hu 0) = true ∧ clean lane (use1 0x100) ∧ kOrImm lane 0x23F = 63 ∧ kOrImm lane 0x200 = 0
    ∧ (let s := lane.updMe fun x => { x with kr := [(0, 2 ^ 56)] }
       tokenOk (readK s.seen 0) = true ∧ copyOf s s.me.block (readK s.seen 0) = none)
    ∧ (lane.grpPavane lane.cur.g = false ∧ isControl lane.cur.g = false) ∧ pavane.grpPavane pavane.cur.g = true ∧ guardG lane hOff = false
    ∧ (let s := lane.updMe fun x => { x with np := 2 }
       (∀ t ∈ participants s (hl 0), src32 s false 0x201 t < s.me.np) ∧ kOrImm s 0x201 < s.me.np
       ∧ ∀ t ∈ participants s (hl 0), poisonAt s.seen (use1 0x201) t = false) := by
  unfold clean; decide +kernel
theorem witness_BarrierResults : guardG lane (hu 0) = true ∧ clean lane (use1 0x100) ∧ releaseReady lane := by
  unfold clean releaseReady readsReady; decide +kernel
/-- The software traps by a lane and by a uniform instruction, and with no runner. -/
theorem witness_SoftwareTrapResults : runners lane (hl 0) ≠ [] ∧ runners lane (hu 0) ≠ [] ∧ runners lane hOff = []
    ∧ clean lane (use1 0x100) ∧ guardG lane (hu 0) = true ∧ guardG lane hOff = false := by unfold clean; decide +kernel

/-! ### Witnesses: Format S, the control core -/

theorem witness_ControlRegisterResults : (isControl ctl.cur.g = true ∧ guardG ctl (hu 0) = true ∧ clean ctl (use1 0x100))
    ∧ (isControl lane.cur.g = false ∧ guardG lane (hu 0) = true ∧ clean lane (use1 0x100)) ∧ guardG ctl hOff = false := by
  unfold clean; decide +kernel
/-- Handle 0 names the group at place 0 of core 0; handle 1 names none. -/
theorem witness_GroupAccessResults : isControl ctl.cur.g = true ∧ guardG ctl (hu 0) = true ∧ guardG ctl hOff = false
    ∧ clean ctl (use1 0x105 ++ use1 0x100) ∧ handleArg ctl 0x100 = some 0
    ∧ handleArg (ctl.updMe fun x => { x with kr := [(0, 1)] }) 0x100 = none
    ∧ ((ctl.updGrp 0 fun x => { x with halt := true }).grp 0).halt = true ∧ (ctl.grp 0).halt = false := by
  unfold clean; decide +kernel
theorem witness_PrivilegedTraps : isControl lane.cur.g = false := by decide +kernel

/-! ### Witnesses: engines -/

/-- Bytes written at physical addresses: address, length, value of each. -/
def put (s : State) (l : List (Nat × Nat × Nat)) : State := l.foldl (fun s x => homeWriteNat s x.1 x.2.1 x.2.2) s
/-- k registers of the group being issued. -/
def withK (s : State) (l : List (Nat × Nat)) : State := s.updMe fun x => l.foldl (fun x e => setK x e.1 e.2) x
/-- A context 0 whose host window maps the first TiB as it stands, with one region that may reserve a spawn slot per die. -/
def world : State :=
  put { lane with ctxTab := 0x100000 }
    [(0x100000, 4, 1), (0x100006, 2, 1), (0x100020, 8, 2 ^ 40), (0x100030, 8, 0x200000), (0x200000, 2, 0xFFFF), (0x200002, 2, 0x10),
     (0x20000A, 2, 1)]
/-- The control core beside a block that is not its own, whose one group is halted; k0 names that group. -/
def drained : State := (ctl.updGrp 0 fun x => { x with halt := true }).updMe fun x => { x with block := 99 }

/-- MDRAIN of a block without matrix work and MRESTORE of a header of zeros, which is good for it; stopped work of each kind. -/
theorem witness_RestartResults :
    let o : FmtE := { fe (hu 0) 0x101 0x102 0 with efn := ef [(43, 0x100)] }
    let tr : Trap := { cause := 0x13 }
    isControl drained.cur.g = true ∧ guardG drained o.h = true ∧ guardG drained hOff = false
    ∧ clean drained (use1 o.a ++ use1 (WF.efF o 43)) ∧ readK drained.seen 2 % 64 = 0
    ∧ handleE drained o = some 0 ∧ allHalted drained (drained.grp 0).block = true ∧ allHalted ctl (ctl.grp 0).block = false
    ∧ (writeRange drained (xlGrp drained drained.cur.g needW) 0 (drainImage drained 0)).isOk = true
    ∧ (∃ hd, readRange drained (xlGrp drained drained.cur.g needR) 0 64 = .ok hd ∧ drainHeaderOk (drained.blk 0) hd = true
        ∧ drainSize hd = 64 ∧ imageOps drained 0 0 hd = []
        ∧ tablesHold drained 0 (drained.blk 0).key [] = true)
    ∧ (let s : State := { drained with matOps := [(0, { kind := 1, block := 0, core := 0, g := 0, uid := 0, tile := 0, fault := some tr })] }
       (stoppedMat s 0 0).isSome = true ∧ resumeWaits s o = false)
    ∧ (let s : State := { drained.updBlk 0 (fun b => { b with copySeq := 1 }) with copies := [(0, { newCopy o 1 {} [] false 0 lane with fault := some tr })] }
       (copyOf s 0 (readK s.seen 2)).isSome = true ∧ s.copies.all (fun e => e.2.fault.isSome) = true)
    ∧ (let s : State := { drained with queries := [(0, { newQuery lane .ray 0 0 0 o with state := .stopped })] }
       (s.queries.find? fun e => e.2.block = 0 && e.2.serial = 0 && e.2.state = .stopped).isSome = true) := by
  intro o tr
  exact ⟨by decide +kernel, by decide +kernel, by decide +kernel, by unfold clean; decide +kernel, by decide +kernel, by decide +kernel,
    by decide +kernel, by decide +kernel, by decide +kernel, ⟨List.replicate 64 0, by decide +kernel, by decide +kernel, by decide +kernel,
      by decide +kernel⟩, by decide +kernel, by decide +kernel, by decide +kernel⟩

/-- A linear record of 64 words and an indexed one of 4 rows. -/
def records : State :=
  withK (put ctl [(1024, 4, 0x00010600), (1040, 4, 64), (1060, 2, 64), (1072, 8, 4), (1112, 8, 0x8000), (1144, 4, 256),
                  (2048, 4, 0x00020601), (2064, 8, 64 + 8 * 2 ^ 32), (2084, 4, 64 + 4 * 2 ^ 16), (2096, 8, 4), (2104, 8, 256),
                  (2136, 8, 0x8000), (2168, 4, 256)]) [(2, 1024), (3, 2048)]
/-- The hypotheses of CPY, CPYG and CPYS on a record. -/
def copyB (o : FmtE) (kind sk : Nat) (s : State) : Bool :=
  copyRecord s o % 64 = 0 &&
  match recordBytes s (copyRecord s o) 192 with
  | .error _ => false
  | .ok (bs, s0) =>
    let s1 := if sk = 1 && (shapeOf bs).kind = 1 then
        settleRange s0 (xlGrp s0 s0.cur.g needR) (shapeOf bs).idxptr (4 * min 32 ((shapeOf bs).box.getD 1 0)) else s0
    match copyIndices s1 sk (shapeOf bs) with
    | .error _ => false
    | .ok idx =>
      let c := newCopy o kind (copyShape s1 o (shapeOf bs)) idx false (copyRecord s o) s1
      copyShapeOk s1 o sk bs && (c.shape.bmode ≠ 1 || c.linear || c.allIn) && c.beyondSp s1 = none && c.beyondMem s1 = none
      && (!c.toMem || !c.ws || (s1.grpLch s1.cur.g).flag 4) && !poisonAt s1.seen (copyUses o s1 c.linear) 0 && channelUsed s1 c.core < 16
theorem witness_CopyResults :
    guardG records (hu 0) = true ∧ guardG records hOff = false ∧ copyB (fe (hu 0) 0x101 0x102 0) 1 0 records = true
    ∧ copyB (fe (hu 0) 0x101 0x103 0) 3 1 records = true ∧ copyB { fe (hu 0) 0x101 0x103 0 with efn := ef [(52, 1)] } 4 1 records = true
    ∧ (let o := { fe (hu 0) 0x101 0x100 0 with efn := ef [(24, 0x210), (14, 0x200)] }
       let c := newCopy o 2 (cpyiShape ctl o) [] true 0 ctl
       cpyiOk ctl o = true ∧ (c.shape.bmode ≠ 1) ∧ c.beyondSp ctl = none ∧ c.beyondMem ctl = none ∧ (c.toMem = true → c.ws = false)
       ∧ poisonAt ctl.seen (copyUses o ctl c.linear) 0 = false ∧ channelUsed ctl c.core < 16) := by decide +kernel
/-- The tokens 1 and 4 of bits 58:56, one that is none, a copy that is complete. -/
theorem witness_CopyQueryResults :
    tokenOk (readK (withK lane [(0, 2 ^ 56)]).seen 0) = true ∧ tokenOk (readK (withK lane [(0, 4 * 2 ^ 56)]).seen 0) = true
    ∧ tokenOk (readK lane.seen 0) = false ∧ tokenOk (readK (withK lane [(0, 5 * 2 ^ 56)]).seen 0) = false
    ∧ guardG lane (hu 0) = true ∧ guardG lane hOff = false ∧ clean lane (use1 0x100) ∧ lane.copies = []
    ∧ ({ newCopy (fe (hu 0) 0x101 0x102 0) 1 {} [] false 0 lane with done := true } : Copy).complete = true := by
  unfold clean; decide +kernel
/-- A declaration of one range of 128 bytes to L2. -/
theorem witness_WorkingSetResults :
    let s := put ctl [(0, 1, 1), (72, 4, 128)]
    let s1 := settleRange s (xlGrp s s.cur.g needR) 0 192
    ∃ pa h r, structGood (fe (hu 0) 0 0x100 (ef [(43, 0x101)])) (use1 0x100 ++ use1 0x101) 64 64 needR s pa
      ∧ readRange s1 (xlGrp s1 s1.cur.g needR) 0 64 = .ok h ∧ headerOk h = true ∧ le h 0 1 = 1
      ∧ readRange s1 (xlGrp s1 s1.cur.g needR) 64 16 = .ok r ∧ entryOk (h ++ r) 0 = true :=
  ⟨0, 1 :: List.replicate 63 0, List.replicate 8 0 ++ [128, 0, 0, 0, 0, 0, 0, 0],
    ⟨by decide +kernel, by unfold good; decide +kernel, struct_of (by decide +kernel)⟩, by decide +kernel, by decide +kernel, by decide +kernel,
    by decide +kernel, by decide +kernel⟩

/-- Records of 32 columns in f64, the block type 0x10 and type 4, and tile 0 of either kind established. -/
def operands (w64 : Bool) : State :=
  (withK (put world [(1024, 4, 0x00020B00), (1040, 8, 32 + 8 * 2 ^ 32), (1060, 4, 32 + 8 * 2 ^ 16), (1072, 8, 8), (1080, 8, 256), (1112, 8, 0x8000),
                   (2048, 4, 0x00021000), (2064, 8, 32 + 8 * 2 ^ 32), (2084, 4, 32 + 8 * 2 ^ 16), (2104, 8, 64), (2136, 8, 0x8000), (2176, 8, 0x9000),
                   (3072, 4, 0x00020400), (3088, 8, 32 + 8 * 2 ^ 32), (3108, 4, 32 + 8 * 2 ^ 16), (3120, 8, 1), (3128, 8, 64), (3160, 8, 0x8000)])
    [(2, 1024), (3, 2048), (4, 3072), (5, 4096)]).updBlk 0 fun b => { b with tiles := [(0, { w64 := w64 })] }
def mulB (o : FmtE) (s : State) (i : Instr) (kind : Nat) : Bool :=
  let op := mmOf kind i o s
  guardG s o.h && spFind (established s op.block) op.tile = some (kind != 1)
  && convergedGroup s.me && tileFree s true op.tile op.w64 && op.arec % 64 = 0 && op.brec % 64 = 0
  && match recordBytes s op.arec 192 with
    | .error _ => false
    | .ok (ab, s1) =>
      match recordBytes s1 op.brec 192 with
      | .error _ => false
      | .ok (bb, s2) =>
        matShape ab (shapeOf ab) op.aspc && matType kind true (shapeOf ab).etype && matShape bb (shapeOf bb) op.bspc
        && matType kind false (shapeOf bb).etype && op.aspc ≠ 1 && op.bspc ≠ 1
        && !poisonAt s2.seen (readsOf i ++ parUses (s2.cur.par.getD []) i) 0 && matRoom s2 { op with a := shapeOf ab, b := shapeOf bb }
/-- One panel of each kind; the guard is uniform. -/
theorem witness_MultiplyResults :
    let o (f : Nat) (t : BitVec 4) : FmtE := fe (hu t) 0x101 (BitVec.ofNat 10 f) (ef [(43, f), (34, 10), (22, 0x201)])
    mulB (o 0x102 11) (operands false) (.mms (o 0x102 11)) 1 = true ∧ mulB (o 0x103 0) (operands true) (.mmx (o 0x103 0)) 2 = true
    ∧ mulB (o 0x104 0) (operands true) (.mmi (o 0x104 0)) 3 = true := by decide +kernel
/-- ACZ and ACLD of tile 0, ACST of it as an output of type f64 and as a raw image. -/
theorem witness_AccumulatorResults :
    let s := operands false
    let z := fe (hu 0) 0x101 0 0
    let l := fe (hu 0) 0x101 0x105 0
    let w := fe (hu 0) 0x101 0x102 0
    let r := fe (hu 0) 0x101 0x105 (ef [(34, 5)])
    guardG s (hu 0) = true ∧ tileReady s (aczOf z s) false ∧ entryReady (.acz z) s (aczOf z s)
    ∧ (let op := acldOf l s
       let s1 := spaceSettle s op op.aspc (op.arec + rawTrailer op.w64) 64
       tileReady s op false ∧ op.arec % 64 = 0 ∧ op.aspc = 0 ∧ entryReady (.acld l) s1 op
       ∧ spaceOpen s op op.aspc (op.arec + rawTrailer op.w64) 64 = true
       ∧ spaceRead s1 op op.aspc (op.arec + rawTrailer op.w64) 64 = .ok (List.replicate 64 0) ∧ trailerOk op.w64 (List.replicate 64 0) = true)
    ∧ spFind (established s s.me.block) 0 = some false ∧ convergedGroup s.me = true
    ∧ (let op := acstOf r false s
       op.fmt = 5 ∧ op.aspc = 0 ∧ op.arec % 64 = 0 ∧ entryReady (.acst r) s op)
    ∧ (let op := acstOf w false s
       op.fmt = 0 ∧ op.aspc = 0 ∧ op.arec % 64 = 0
       ∧ (match recordBytes s op.arec 192 with
          | .error _ => false
          | .ok (bs, s1) => matShape bs (shapeOf bs) op.aspc && (shapeOf bs).etype = outType op.fmt
            && !poisonAt s1.seen (readsOf (.acst w) ++ parUses (s1.cur.par.getD []) (.acst w)) 0 && matRoom s1 { op with a := shapeOf bs }) = true) := by
  unfold tileReady entryReady clean; decide +kernel
/-- MWAIT of a token of an operation that ended, MSTATR and ACRD of an established tile, SLICE. -/
theorem witness_MatrixReadResults :
    let s := withK (operands false) [(0, 32)]
    guardG s (hu 0) = true ∧ guardG s hOff = false ∧ clean s (use1 0x100) ∧ ownMat s = []
    ∧ ((32 : Nat) < 2 ^ 32 && natBits 32 7 5 ≠ 0 && natBits 32 7 5 ≠ 7 && natBits 32 4 0 < (s.blk s.me.block).acc) = true
    ∧ readK s.seen 0 = 32 ∧ tokenOps s s.me.block 32 = []
    ∧ (spFind (established s (tileBlock s)) 0).isSome = true ∧ tileComing s (tileBlock s) 0 = false ∧ good s (use1 0x100) (participants s (hl 0))
    ∧ good s (use2 0x100 ++ use1 0x101) (runners s (hl 11))
    ∧ (let o : FmtE := fe (hl 0) 2 0x100 (ef [(38, 0x100), (28, 0x100)])
       let p := s.updBlk s.me.block fun b => { b with tiles := spPut b.tiles 0 { tileAt s s.me.block 0 with bad := [(32, true)] } }
       acrdBad o s (participants s o.h) = [] ∧ acrdBad o p (participants p o.h) ≠ [] ∧ tileComing p (tileBlock p) 0 = false
       ∧ (spFind (established p (tileBlock p)) 0).isSome = true ∧ good p (use1 0x100) (participants p o.h)) := by
  unfold clean good; decide +kernel

/-! ### Witnesses: rays -/

/-- The control core's block, whose binding 0 has a hierarchy. -/
def bound : State := ctl.updBlk 0 fun b => { b with binds := [(0, { bvh := some { nodes := 0, tris := 0, custom := 0, root := 0, nnode := 1, ntri := 0, ncus := 0 } })] }
theorem witness_QueryResults :
    let q : FmtE := fe (hl 0) 2 0x100 (ef [(38, 0x148), (28, 0x100)])
    let g : FmtE := fe (hl 0) 2 0x101 (ef [(48, 1), (38, 0x102), (28, 0x148)])
    let b : FmtE := { q with h := hl 0 }
    let s := withK (put bound [(1024, 4, 4), (2048, 4, 4), (2056, 4, 2), (2064, 8, 0), (3072, 4, 4), (3080, 4, 6)]) [(1, 0), (2, 1024), (3, 2048), (4, 3072)]
    participants s (hl 0) = [0] ∧ good s (queryUses q false) [0] ∧ (queryTargets q false s [0]).all (targetB s) = true ∧ arraysAligned b true s [0]
    ∧ (queryTargets b true s [0]).all (targetB s) = true ∧ beamOk (efCrs b) (queryRec b true s 0) = true
    ∧ ((queryTargets g false s [0]).all (targetB s) = true ∧ efLog g = true ∧ logFresh (structBytes s needRW (eAddr s (lsrcOf g) 0) 64) = true)
    ∧ (let r : FmtE := fe (hl 0) 2 0x103 (ef [(28, 0x148)])
       good s (replayUses r false) [0] ∧ targetB s (target s r.a 64 64 needR 0) = true ∧ logReplayable false (replayHdr r s 0) = true
       ∧ targetB s (replayTarget r false s 0) = true)
    ∧ (let r : FmtE := fe { hl 0 with rm := 1 } 2 0x104 (ef [(28, 0x100)])
       logReplayable true (replayHdr r s 0) = true ∧ targetB s (replayTarget r true s 0) = true
       ∧ beamOk (replayCoarse r s 0) (replayRec r true s 0) = true ∧ arraysAligned r true s [0])
    ∧ bindingServes q s := by
  unfold good arraysAligned bindingServes; decide +kernel

/-- A spawn ring of four granules at 0x4000 with header 0x3000, a live record in granule 0, a finished position in granule 2. -/
def splitWorld : State :=
  { (withK (put world [(0x3000, 8, 0x4000), (0x3008, 4, 4)]) [(0, 0x4000), (1, 0x4080)]).updBlk 0 fun b =>
      { b with binds := [(0, { spawn := some { entry := 0, regs := 8, uregs := 8, planes := 1, sp := 0, ring := 0x3000, param := 0, core := 0 } })] }
    with splits := [(5, { ctx := 0, va := 0x4000, ring := 0x3000, granule := 0, query := 0, sample := 0, frag := true })] }
theorem witness_HitResults :
    let o (k : Nat) : FmtE := fe { hl 0 with pg := 7 } 0 (BitVec.ofNat 10 (0x100 + k)) (ef [(43, 0x148), (33, 0x148)])
    let s := splitWorld
    ((splitAt s (s.ctxOf s.cur.g) (eAddr s (o 0).a 0)).getD none).map (·.1) = some 5 ∧ (splitAt s (s.ctxOf s.cur.g) (eAddr s (o 1).a 0)) = some none
    ∧ good s (haccUses (o 0)) (participants s (hl 0)) ∧ good s (use2 (o 0).a) (participants s (hl 0))
    ∧ outsideBox s 5 (haccT (o 0) s 0) = false ∧ participants s (hl 0) ≠ [] ∧ releaseReady s := by
  unfold good releaseReady readsReady; decide +kernel
def record64B (o : FmtE) (s : State) : Bool := guardG s o.h && targetB s (target64 (eAddr s o.a 0) needR)
/-- A spawn configuration with 8 registers and a ring of 128 granules, a hierarchy, a coverage stream, a fragment stream. -/
theorem witness_BindingResults :
    let s := withK (put world [(1024, 8, 8 * 2 ^ 32 + 0), (1030, 2, 8 + 1 * 2 ^ 8), (1040, 8, 0x3000), (0x3000, 8, 0x8000), (0x3008, 4, 128),
                                (2076, 4, 1), (3072, 8, 16)]) [(0, 1024), (1, 2048), (2, 3072)]
    let o (k : Nat) : FmtE := fe (hu 0) 0 (BitVec.ofNat 10 (0x100 + k)) 0
    let va := eAddr s (o 0).a 0
    let bs := structBytes s needR va 64
    record64B (o 0) s = true ∧ spawnCfgOk bs = true ∧ targetB s (target64 (spawnCfg bs).ring needRW) = true ∧ spawnRingOk s (spawnCfg bs) = true
    ∧ (spawnReserve s 0 (spawnCfg bs)).isSome = true ∧ bindQuiet s s.me.block 0 = true ∧ good s (use1 0x100) [0]
    ∧ (record64B (o 1) s = true ∧ bvhOk (structBytes s needR (eAddr s (o 1).a 0) 64) = true)
    ∧ (let c : FmtE := fe (hu 0) 0x101 0x102 (ef [(28, 0x103), (18, 0x201)])
       record64B c s = true ∧ streamOk (structBytes s needR (eAddr s c.a 0) 64) = true
       ∧ (splitWorld.bindOf splitWorld.me.block (efBind c)).spawn.isSome = true ∧ inSpawn splitWorld = false)
    ∧ guardG s hOff = false := by unfold good; decide +kernel
theorem witness_TriemResults :
    let s := withK (put world [(3072, 8, 16)]) [(0, 3072)]
    let o : FmtE := fe { hu 0 with u := false } 2 0x100 (ef [(43, 4), (33, 3)])
    (∀ t ∈ runners s o.h, structB s 64 64 needRW (eAddr s o.a t) 3072 = true ∧ streamOk (structBytes s needRW (eAddr s o.a t) 64) = true)
    ∧ good s (triemUses o) (runners s o.h) := by unfold good; decide +kernel

/-! ### Witnesses: rings, queues, tasks, messages -/

theorem structGood_of {o us al n nd s pa} (h : (guardG s o.h && structB s al n nd (eAddr s o.a 0) pa) = true) (g : good s us [0]) :
    structGood o us al n nd s pa := by
  rw [Bool.and_eq_true] at h
  exact ⟨h.1, g, struct_of h.2⟩
/-- A ring of four granules of which one is claimed; a broken header of zeros; a spawn ring. -/
def ringWorld : State :=
  withK (put ctl [(1024, 8, 0x8000), (1032, 4, 4), (1040, 8, 1), (3072, 8, 0x8000), (3080, 8, 4 + 2 ^ 32)]) [(0, 1024), (1, 2048), (2, 3072)]
theorem witness_RingResults :
    let s := ringWorld
    let o : FmtE := fe (hu 0) 0x104 0x100 (ef [(43, 0x203), (33, 0x201)])
    let s1 := settleLine s (lineOf 1024)
    releaseReady s1 ∧ structGood o (use1 o.a ++ use1 (WF.efF o 43)) 64 64 needRW s 1024
    ∧ structGood o (use1 o.a ++ use1 (WF.efF o 43) ++ use1 (WF.efF o 33)) 64 64 needRW s 1024
    ∧ ringBad s1 1024 = none ∧ ringSpawn (ringHdr s1 1024) = false ∧ countOk64 1 = true ∧ countOk64 64 = true ∧ countOk64 0 = false
    ∧ countOk64 65 = false ∧ (settle (eRelease o s1) 1024 false 0 1).isSome = true ∧ (settle (eRelease o s1) 1024 true 0 1).isSome = true
    ∧ (ringBad (settleLine s (lineOf 2048)) 2048 = some 0x0B ∧ ringSpawn (ringHdr (settleLine s (lineOf 3072)) 3072) = true)
    ∧ structB s 64 64 needRW (eAddr s 0x101 0) 2048 = true ∧ structB s 64 64 needRW (eAddr s 0x102 0) 3072 = true
    ∧ (let s2 := settleLine (blockOn s s.cur.g .rawait) (lineOf 1024)
       ringBad s2 1024 = none ∧ ringSpawn (ringHdr s2 1024) = false) :=
  ⟨by unfold releaseReady readsReady; decide +kernel, structGood_of (by decide +kernel) (by unfold good; decide +kernel),
    structGood_of (by decide +kernel) (by unfold good; decide +kernel), by decide +kernel⟩
theorem structsGood_of {o us al n nd s ps} (hg : good s us (runners s o.h)) (hm : ps.map (·.1) = runners s o.h)
    (h : ps.all (fun p => structB s al n nd (eAddr s o.a p.1) p.2) = true) : structsGood o us al n nd s ps :=
  ⟨hg, hm, fun p hp => struct_of (List.all_eq_true.mp h p hp)⟩
/-- 64 participants that name one queue header. -/
theorem witness_QueueResults :
    let s := withK world [(0, 1024)]
    let o : FmtE := fe { hu 0 with u := false } 2 0x100 (ef [(43, 4), (33, 6)])
    runners s o.h ≠ [] ∧ releaseReady s
    ∧ structsGood o (use2 o.a ++ use2 (WF.efF o 43) ++ use2 (WF.efF o 33)) 64 64 needRW s (tids.map fun t => (t, 1024))
    ∧ structsGood o (use2 o.a) 64 64 needRW s (tids.map fun t => (t, 1024)) :=
  ⟨by decide +kernel, by unfold releaseReady readsReady; decide +kernel,
    structsGood_of (by unfold good; decide +kernel) (by decide +kernel) (by decide +kernel),
    structsGood_of (by unfold good; decide +kernel) (by decide +kernel) (by decide +kernel)⟩
theorem witness_TaskResults :
    let s := withK world [(0, 1024)]
    let o : FmtE := fe (hu 0) 0x101 0x100 (ef [(43, 0x201), (33, 0x148)])
    let r := doRelease s s.cur.g 4
    runners s o.h ≠ [] ∧ releaseReady s ∧ structsGood o (use2 o.a ++ use1 (WF.efF o 43)) 64 64 needRW s [(0, 1024)]
    ∧ structsGood o (use2 o.a ++ use2 (WF.efF o 43) ++ use2 (WF.efF o 33)) 32 32 needRW s [(0, 1024)]
    ∧ (∀ t ∈ runners s o.h, sigCountOk o s t = true) ∧ structGood o (use1 o.a ++ use1 (WF.efF o 43)) 64 64 needRW s 1024
    ∧ structGood o (use1 o.a) 64 128 needR s 1024 ∧ (readRange r (xlGrp r r.cur.g needR) 1024 128).isOk = true
    ∧ structGood { o with efn := 0 } (graphUses { o with efn := 0 }) 64 64 needR s 1024
    ∧ graphDone { o with efn := 0 } s % 8 = 0 ∧ pathsOn s (coreDie (placeCore s.cur.g)) < 256
    ∧ runners s hOff = [] ∧ guardG s hOff = false :=
  ⟨by decide +kernel, by unfold releaseReady readsReady; decide +kernel,
    structsGood_of (by unfold good; decide +kernel) (by decide +kernel) (by decide +kernel),
    structsGood_of (by unfold good; decide +kernel) (by decide +kernel) (by decide +kernel), by decide +kernel,
    structGood_of (by decide +kernel) (by unfold good; decide +kernel), structGood_of (by decide +kernel) (by unfold good; decide +kernel),
    by decide +kernel, structGood_of (by decide +kernel) (by unfold good; decide +kernel), by decide +kernel⟩
/-- A converged group alone in its block, waiting on nothing (wk 0) and on a word (wk 3); a group that may not suspend. -/
theorem witness_ContinuationResults :
    let s := withK world [(0, 1024), (1, 4096), (2, 8)]
    let o (wk : Nat) : FmtE := fe (hu 0) 0 0x100 (ef [(43, 0x101), (33, 0x102), (21, wk)])
    let s1 := doRelease s s.cur.g 4
    guardG s (hu 0) = true ∧ contAllowed s = true ∧ releaseReady s ∧ good s (readsOf (.cont (o 3))) [0]
    ∧ structAt s 64 (contSize (o 3)) needW (eAddr s 0x100 0) 1024 ∧ structAt s 64 64 needRW (contQueue (o 3) s) 4096
    ∧ structAt s (contAlign (o 3)) (contAlign (o 3)) (contNeed (o 3)) (contWaddr (o 3) s) 8 ∧ contWk (o 0) = 0 ∧ contWk (o 3) = 3
    ∧ (writeRange s1 (xlGrp s1 s1.cur.g needW) 1024 (contRecord (o 3) s1)).isOk = true
    ∧ contAllowed ctl = false ∧ guardG ctl (hu 0) = true ∧ guardG s hOff = false :=
  ⟨by decide +kernel, by decide +kernel, by unfold releaseReady readsReady; decide +kernel, by unfold good; decide +kernel,
    struct_of (by decide +kernel), struct_of (by decide +kernel), struct_of (by decide +kernel), by decide +kernel, by decide +kernel, by decide +kernel, by decide +kernel, by decide +kernel, by decide +kernel⟩
/-- A message of 224 bytes to port 63 of die 0, a receive on port 63, receives that are complete and that are not. -/
theorem witness_MessageResults :
    let s := withK world [(0, 63 * 2 ^ 8), (1, 1024)]
    let o : FmtE := fe (hu 0) 0x104 0x100 (ef [(43, 0x205), (33, 0x101), (23, 0x2E0)])
    let p : FmtE := fe (hu 0) 0x104 0x101 (ef [(43, 0x23F), (33, 0x200), (23, 0x200), (10, 0x2E0)])
    let w (st : Nat) : State := { withK s [(0, 0)] with ports := [(ownPort s 0, { recvs := [{ seq := 0, block := 0, ctx := 0, buf := 0, cap := 0, tag := 0, mask := 0, status := st }] })] }
    let r := settleRange (eRelease o s) (xlGrp (eRelease o s) (eRelease o s).cur.g needR) (sendAddr o s) (sendLen o s)
    guardG s o.h = true ∧ releaseReady s ∧ good s (sendUses o) [0] ∧ lenOk (sendLen o s) = true ∧ sendLen o s = 224 ∧ destOk s (sendDest o s) = true
    ∧ structAt s 16 (sendLen o s) needR (sendAddr o s) 1024 ∧ sendFull s = false
    ∧ (readRange r (xlGrp r r.cur.g needR) (sendAddr o s) 224).isOk = true
    ∧ good s (recvUses p) [0] ∧ recvPort p s = 63 ∧ lenOk (recvCap p s) = true ∧ structAt s 16 (recvCap p s) needW (eAddr s p.a 0) 1024
    ∧ recvFull s (ownPort s (recvPort p s)) = false ∧ good s (use1 o.a) [0] ∧ good s (probeUses p) [0]
    ∧ (recvOf (w 0) 0).map (·.status) = some 0 ∧ (recvOf (w 1) 0).map (·.status) = some 1 ∧ guardG s hOff = false :=
  ⟨by decide +kernel, by unfold releaseReady readsReady; decide +kernel, by unfold good; decide +kernel, by decide +kernel, by decide +kernel,
    by decide +kernel, struct_of (by decide +kernel), by decide +kernel, by decide +kernel, by unfold good; decide +kernel, by decide +kernel, by decide +kernel, struct_of (by decide +kernel),
    by decide +kernel, by unfold good; decide +kernel, by unfold good; decide +kernel, by decide +kernel, by decide +kernel, by decide +kernel⟩

/-! ### Witnesses: acts -/

/-- The ordinary group on its track, of class 5 in its half; a group that waits for a track. -/
theorem witness_GroupActResults :
    canIssue coded coded.cur.g = true ∧ (coded.grp coded.cur.g).live ≠ 0
    ∧ (checkLine (coded.updMe fun x => { x with pc := 0 }) coded.cur.g 0 0 false false false).isOk = true
    ∧ (checkLine lane 0 0 0 false false false).isOk = false ∧ canIssue lane 0 = true
    ∧ (let o := fm true 0 2 0x148
       let l : Load := { g := ctl.cur.g, uid := 0, off := 0, plane := 0, lx := 0, o := o, wide := false, parts := [({ tid := 0, ea := 0 }, none)] }
       loadWaits ctl l = false)
    ∧ (let w (x : Bool) : PostedWrite := { core := 0, line := 3, mask := 1, data := 0, written := x }
       let s (x : Bool) : State := { lane with posted := [(7, w x)] }
       ((s true).posted.find? fun e => e.2.line = 3 && (e.2.core = 0 || e.2.written)).map (·.1) = some 7
       ∧ ((s false).posted.find? fun e => e.2.line = 3 && (e.2.core = 0 || e.2.written)).map (·.1) = some 7
       ∧ replicaDies (s false) 3 = [] ∧ replicaDies { s false with replicas := [(48, { data := 0 })] } 3 = [0])
    ∧ (lane.hasGrp 0 = true ∧ sleepOver (lane.updMe fun x => { x with wait := .sleep 0 }) 0 = true
       ∧ (let s := { lane with clock := 512 }.updMe fun x => { x with parkWait := true }
          (s.grp 0).parkWait = true ∧ (s.grp 0).parkAt + 512 ≤ s.clock))
    ∧ (let s := (lane.updMe fun x => { x with tenure := 16384 }).setGrp 2 { block := 0, live := 1, resident := 1 }
       ((longestHeld s 0 0).map fun e => (e.1, e.2.tenure)) = some (0, 16384) ∧ (pickReady s 0 0 fun _ => false).isSome = true
       ∧ s.grpPavane 0 = false)
    ∧ canIssue (lane.updMe fun x => { x with halt := true }) 0 = false ∧ spFind lane.loads 0 = none ∧ spFind lane.posted 0 = none := by
  decide +kernel
/-- A trap in the queue of quadrille 0; dies 0 and 15, which are there, and 16, which is none. -/
theorem witness_DieActResults :
    let s := takeTrap lane { cause := 0x10, mask := 1 }
    dieRuns s 0 = true ∧ (s.handler 0).running = false ∧ (s.handler 0).queue ≠ []
    ∧ ((dispatchTrap s 0).handler 0).running = true ∧ diePresent lane 0 = true ∧ diePresent lane 15 = true ∧ diePresent lane 16 = false
    ∧ (lane.die 0).mcheck = false ∧ ((machineCheck lane 0).die 0).mcheck = true ∧ lane.hasGrp 0 = true
    ∧ (isControl (controlPlace 0) = true ∧ lane.hasGrp (controlPlace 0) = true) := by decide +kernel
/-- A launch of one block of priority 6, queued at die 0. -/
def queuedLaunch : Launch := { lr := { prio := 6, acc := 4, region := 0 }, shares := [{ die := 0, next := 0, stop := 1 }] }
def admits : State := { world with launches := spPut world.launches 1 queuedLaunch }
/-- The three kinds of move; staging of the first range of block 1; a placed block whose time is over; each end of a launch. -/
theorem witness_CallerActResults :
    (nextMove admits 0).map (fun m => m.1.kind) = some 0
    ∧ (nextMove (admits.updLch 1 fun l => { l with state := .running, shares := [{ die := 0, next := 0, stop := 1, adm := true }] }) 0).map
        (fun m => m.1.kind) = some 1
    ∧ (nextMove (haltForSave world 0 |> fun s => saveBlock s 0) 0).map (fun m => m.1.kind) = some 2
    ∧ (let s := { world with clock := 80000 }.updBlk 0 fun b => { b with state := .placed }
       (spFind s.blocks 0).isSome = true ∧ (s.blk 0).state = .placed ∧ (s.blk 0).placedAt + 80000 ≤ s.clock)
    ∧ (let s := admits.updLch 1 fun l => { l with state := .refused }
       (spFind s.launches 1).isSome = true ∧ launchOver s (s.lch 1) 1 = true ∧ launchOver world (world.lch 0) 0 = false)
    ∧ deadlineDue world 0 = false ∧ leavesNow world 0 = false
    ∧ (let s := (world.updBlk 0 fun b => { b with saving := true }).updMe fun x => { x with halt := true }
       leavesNow s 0 = true ∧ (s.blk 0).flushing = false ∧ saveReady s 0 = true) := by decide +kernel
/-- Past the deadline, whatever the clocks' skew. -/
theorem witness_deadlineDue : deadlineDue ({ world with clock := 8 }.updLch 0 fun l => { l with deadline := 1 }) 0 = true := by
  have h : (1 : Nat) < ({ world with clock := 8 }.updLch 0 fun l => { l with deadline := 1 }).timeOf
      (({ world with clock := 8 }.updLch 0 fun l => { l with deadline := 1 }).lch 0).lead := by
    show 1 < 8 / 4 + _
    omega
  unfold deadlineDue
  simp only [Bool.and_eq_true, decide_eq_true_eq]
  exact ⟨⟨⟨by decide +kernel, by decide +kernel⟩, h⟩, by decide +kernel⟩
/-- Staging of range 0 of block 0, and a region of one core, whose accumulators block 0 holds: the head takes it. -/
theorem witness_staging_and_preemption :
    (let s := (put world [(0x5000, 1, 1), (0x5048, 4, 128)]).updLch 0 fun l =>
        { l with state := .running, lr := { l.lr with wsdecl := 0x5000 }, shares := [{ die := 0, next := 1, stop := 1, adm := true }] }
     stagingOk s 0 0 0 0 = true ∧ (let t := beginStaging 0 0 0 0 s
       t.stages.length = 1 ∧ (t.stages.all fun e => e.2.left = 1 && !e.2.stopped && stageServed t e.1 e.2) = true))
    ∧ (let s := put admits [(0x200002, 2, 0x18), (0x200008, 2, 1)]
       (headShare s 0 1).isSome = true ∧ (tryHead s 0 1 0).isSome = false ∧ (tryHead ((goingOut s).foldl discardBlock s) 0 1 0).isSome = false
       ∧ victimPrefix ((goingOut s).foldl discardBlock s) 0 1 0 [] (victimsOf s (victimFor s 0 1)) = some [0]) := by decide +kernel
/-- A multiplication with work left, one whose K-step has its passes, transfers; a copy of two rows; queries of each state. -/
theorem witness_EngineActResults :
    let m : MatOp := { kind := 2, block := 0, core := 0, g := 0, uid := 0, tile := 0, w64 := true, n := 1, s := 1 }
    let s (o : MatOp) : State := { world with matOps := [(3, o)] }
    ((nextGrant (s m) 0).map (·.1)) = some 3 ∧ (nextGrant world 0).isNone = true
    ∧ (let o := { m with passes := 1 }
       o.ready (s o) = true ∧ o.multiplies = true ∧ o.kstep < o.n ∧ o.passes = o.needed ∧ panelFull (s o) o = true)
    ∧ (let o : MatOp := { m with kind := 5 }
       o.ready (s o) = true ∧ o.multiplies = false ∧ imageFull (s o) o = true)
    ∧ (let c := { newCopy (fe (hu 0) 0x101 0x102 0) 1 { rank := 1, etype := 2, box := [4], dim := [4] } [] false 0 lane with toMem := false }
       rowReady { lane with copies := [(0, c)] } c 0 = true ∧ rowReady { lane with copies := [(0, c)] } c 1 = false
       ∧ promiseBroken lane { c with done := true } = false ∧ promiseBroken { lane with clock := 100000 } { c with promise := 0 } = true)
    ∧ (let q := newQuery lane .ray 0 0 0 (fe (hl 0) 2 0x100 0)
       q.state = .running ∧ q.open_ = 0 ∧ abandoned lane { q with state := .stopped, told := true } = true ∧ lane.qry 0 = none)
    ∧ (let q := { newQuery splitWorld .ray 0 0 0 (fe (hl 0) 2 0x100 0) with spawn := (splitWorld.bindOf 0 0).spawn }
       let s : State := { splitWorld with queries := [(0, q)], clock := 512 }
       spawnDue s 0 0 = true ∧ spawnDue lane 0 0 = false)
    ∧ (let x : SpawnGroup := { die := 0, block := 0, bind := 0, ctx := 0, region := 0, prio := 0, code := 0, launch := 0, recs := [5], vas := [0x4000],
                               cfg := { entry := 0, regs := 8, uregs := 8, planes := 1, sp := 0, ring := 0, param := 0, core := 0 } }
       (firstFormed { world with spawns := [(0, x)] } 0).map (·.1) = some 0 ∧ (spawnCore world x).isSome = true) := by decide +kernel
/-- Requests that come again and that a pavane quantum gathered; a continuation whose event has happened; a resume queue. -/
theorem witness_ServiceActResults :
    let o : FmtE := fe (hl 0) 2 0x100 0
    let w : Waiter := { slice := 0, header := 1024, parked := false, since := 0, what := .deq 0 0 [0] o }
    comesAgain { lane with clock := 1024 } w = true ∧ comesAgain { lane with clock := 1023 } w = false
    ∧ (let s : State := { lane with clock := 128, waiters := [(0, { w with gather := some (1, 0) })] }
       (quantumOpener s 0).any (fun w => decide (w.since + 128 ≤ s.clock) && (gathered s w).length = 1) = true)
    ∧ (let c : Cont := { va := 1024, ctx := 0, region := 0, launch := 0, die := 0, core := 0, block := some 0, queue := 4096, wk := 0, waddr := 0,
                         wval := 0, affine := true }
       let s := put (world.updBlk 0 fun b => { b with state := .affine }) [(1024 + 88, 8, contTag world 0 true)]
       c.wk = 0 ∧ c.released = false ∧ (s.blk 0).state = .affine ∧ contRoom s c 0 = true
       ∧ (match contRead s 0 1024 with | .ok bs => contOwn s c 0 bs | .error _ => false) = true)
    ∧ (let s := (put (world.updLch 0 fun l => { l with state := .running })
          [(4096, 8, 8192), (4104, 4, 2), (4112, 8, 1), (8192, 8, 1024), (1024 + 88, 8, contTag world 0 true)]).updDie 0 fun y =>
            { y with resumeQueues := [(0, 4096)] }
       ((s.die 0).resumeQueues.findSome? fun q => takeResume s 0 q.1 q.2).isSome = true ∧ dieRuns s 0 = true) := by decide +kernel
/-- A path at a node of each kind, at a misaligned node, at one that is not sound, and on a walk that has failed. -/
theorem witness_GraphActResults :
    let at_ (node : Nat) (failed : Bool) : State :=
      { put world [(64, 1, 1), (128, 1, 2), (192, 1, 3), (256, 1, 4), (260, 4, 1), (320, 1, 5)] with
        walks := [(0, { die := 0, ctx := 0, region := 0, done := 0, failed := failed })], paths := [(0, { walk := 0, node := node })] }
    (∀ k ∈ [1, 2, 3, 4, 5], ((pathWalk (at_ (64 * k) false) 0).map fun p => (p.1.node, p.1.waiting, p.2.failed)) = some (64 * k, none, false)
      ∧ (match readRange (at_ (64 * k) false) (xlCtx (at_ (64 * k) false) 0 needR) (64 * k) 64 with
         | .ok bs => nodeSound bs && nodeKind bs = k | .error _ => false) = true)
    ∧ ((pathWalk (at_ 65 false) 0).map fun p => p.1.node % 64) = some 1 ∧ forkFull (at_ 64 false) 0 = false ∧ ((pathWalk (at_ 64 true) 0).map fun p => p.2.failed) = some true
    ∧ (match readRange (at_ 0 false) (xlCtx (at_ 0 false) 0 needR) 0 64 with | .ok bs => nodeSound bs | .error _ => true) = false := by
  decide +kernel
/-- A packet that has a hop to go, one that finds no room, and one at its die. -/
theorem witness_RingActResults :
    let x : Packet := { ctx := 0, region := 0, uid := 0, msg := { die := 0, core := 0, tag := 0, data := [] }, src := 0, dst := 1, port := 0,
                        cls := 0, cw := true, at_ := 0, dest := 1 }
    let s : State := { world with packets := [(0, x)] }
    firstOut s 0 x = true ∧ dieServes s 1 = true ∧ (poolFor s x).isSome = true ∧ x.at_ ≠ x.dst ∧ x.fill s = none ∧ x.tail = []
    ∧ (({ x with at_ := 1, pool := 1, tail := [{ die := 0, pool := 1, n := 1 }] } : Packet).fill s).isSome = true
    ∧ firstOut s 0 { x with at_ := 1 } = true ∧ dieServes (machineCheck s 1) 1 = false
    ∧ (let y : Packet := { x with at_ := 1, cls := 7, pool := 3, uid := 9 }
       let full : State := { world with packets := (0, { x with cls := 7 }) :: (List.range 8).map fun i => (i + 1, y) }
       poolFor full { x with cls := 7 } = none ∧ firstOut full 0 { x with cls := 7 } = true) := by decide +kernel
/-- A frame without payload, of sequence number 1 in session 1. -/
def frame0 (kind : BitVec 8) : Frame :=
  { magic := 0xA55E, kind := kind, flags := 0, len := 0, sid := 1, seq := 1, ackb := 0, zero := 0, ackm := 0, payload := [], port := 0,
    src := 0, ver := 0, key := 0 }
/-- A sound frame of an open session, one of none, and one that is not sound; each timer of a session. -/
theorem witness_FrameResults :
    let x : Session := { port := 0, src := 0, ctx := 0, key := 0, ver := 0, window := 1 }
    let s : State := { world with sessions := [(1, x)], clock := 40000000000 }
    (∀ k ∈ [1, 2, 3, 4, 5, 7, 8], frameSound (frame0 (BitVec.ofNat 8 k)) = true) ∧ frameSound (frame0 9) = false ∧ (frame0 2).dport = s.udpPort
    ∧ ethPorts.contains 0 = true ∧ diePresent s 0 = true ∧ (sessionOf s (frame0 2)).isSome = true ∧ sessionOf world (frame0 2) = none
    ∧ (let u (n : Nat) : Sent := { frame := frame0 2, at_ := 0, times := n }
       (([u 1].find? fun u => u.frame.seq.toNat = 1).isSome = true) ∧ (u 1).at_ + 400000 ≤ s.clock ∧ (u 32).times < 33 ∧ 33 ≤ (u 33).times
       ∧ world.clock < (u 1).at_ + 400000)
    ∧ x.heard + 40000000000 ≤ s.clock ∧ world.clock < x.heard + 40000000000 ∧ x.ackDue = none := by decide +kernel

/-! ### Witnesses: frames, exceptions, steps, encoding -/

/-- The instruction completes: neither a trap nor a wait. -/
def doneB (i : Instr) (s : State) : Bool := s.cur.out == .done && match exec i s with | .next t => t.cur.out == .done | _ => false
theorem witness_LaneFrame : doneB (.add (fa 6)) lane = true ∧ doneB (.cmp { fa 6 with c := 0 }) lane = true
    ∧ doneB (.pmov { fa 2 with w := 1 }) lane = true ∧ doneB (.gred { fa 6 with b := 0, c := 0 }) lane = true
    ∧ wellFormed false (.gred { fa 6 with b := 0, c := 0 }) = true
    ∧ (∀ t ∈ participants lane (hl 6), (copyA lane (fa 6) t).h.rm = 0 ∧ (copyA lane (fa 6) t).h.t = 6) := by decide +kernel
/-- A load, a fence, a scratchpad store, a store, atomics, FADDW and its reads, REDIX, cache control: each completes. -/
theorem witness_AccessFrame :
    let m := fm true 0 2 0x148
    let bare := { m with a := 0x148, order := 3, scope := 4 }
    (∀ i ∈ [Instr.ld m, .st m, .st { m with space := 1 }, .fence bare, .opfence bare, .recfence bare, .tokwait bare, .tokpass bare,
            .atom { m with b := 0x103 }, .atomsc { m with b := 0x103 }, .cas { m with b := 0x103, c := 0x104 },
            .faddw { fm true 0 10 0x103 with d := 0 }, .wread (fm true 0 10 0x103), .wflush (fm true 0 10 0x103),
            .cflush { fm true 0 0 0x101 with d := 0 }, .cinv { fm true 0 0 0x101 with d := 0 }, .femark { fm true 1 0 0x201 with d := 0 },
            .fetest { fm true 1 0 0x201 with d := 0 }, .cresize { fm true 0 0 0x148 with d := 0x101 }], doneB i ctl = true)
    ∧ doneB (.redix { fm true 0 6 0x103 with c := 0x104 }) (homeWriteNat ctl 8 4 4) = true
    ∧ wellFormed false (.cresize { fm true 0 0 0x148 with d := 0x101 }) = true
    ∧ wellFormed false (.faddw { fm true 0 10 0x103 with d := 0, c := 0x148 }) = true := by decide +kernel
/-- Tables of welts with room for the one thread of that FADDW. -/
theorem witness_weltsFit : weltsFit (runners ctl (hu 10)).length ctl := by
  have h : ctl.welts = [] := by decide +kernel
  have hn : (runners ctl (hu 10)).length ≤ 4096 := by decide +kernel
  unfold weltsFit
  rw [h]
  exact ⟨rfl, fun _ he => absurd he List.not_mem_nil, fun _ => by simpa using hn⟩
theorem witness_ControlFrame :
    (∀ i ∈ [Instr.nop, .join (fc (hl 0) 0 0), .pln (fc (hl 0) 0x200 0), .plng (fc (hu 0) 0x200 0), .bara (fc (hu 0) 0 1),
            .bari (fc (hu 0) 0x205 1), .csrr (fs (hu 0) 1), .csrw (fs (hu 0) 1), .rdclk (fs (hu 0) 0), .rdtime (fs (hu 0) 0),
            .proghint (fs (hu 0) 0)], doneB i lane = true)
    ∧ (∀ i ∈ [Instr.bra (fc (hu 0) 0 0), .loop (fc (hu 0) 0x101 0)], doneB i coded = true)
    ∧ (∀ i ∈ [Instr.gstatr (fs (hu 0) 0), .halt (fs (hu 0) 0), .haltBlk (fs (hu 0) 0)], doneB i drained = true) := by decide +kernel
theorem witness_EngineFrame :
    let s := withK lane [(0, 2 ^ 56)]
    (∀ i ∈ [Instr.cpyq (fe (hu 0) 0 0x100 0), .cpyqAll (fe (hu 0) 0 0 16), .mwaitAll (fe (hu 0) 0 0 16), .cpyqTest (fe (hu 0) 0 0x100 8)], doneB i s = true)
    ∧ doneB (.cpy (fe (hu 0) 0x101 0x102 0)) records = true ∧ WF.kTok (fe (hu 0) 0x101 0x102 0) = true
    ∧ doneB (.slice (fe (hu 11) 0x101 0x102 (ef [(43, 0x103)]))) lane = true
    ∧ wellFormed false (.slice (fe (hu 11) 0x101 0x102 (ef [(43, 0x103)]))) = true
    ∧ doneB (.rq (fe (hl 0) 2 0x100 (ef [(38, 0x148)]))) bound = true ∧ efLog (fe (hl 0) 2 0x100 (ef [(38, 0x148)])) = false := by decide +kernel
/-- A group that is not halted, a control core, a queue with an entry, and a handler with and without an interrupted one. -/
theorem witness_ExceptionEntry :
    isControl lane.cur.g = false ∧ lane.me.halt = false ∧ lane.grpPavane lane.cur.g = false ∧ spSorted 0 lane.groups = true
    ∧ isControl ctl.cur.g = true ∧ diePresent ctl (coreDie (placeCore ctl.cur.g)) = true
    ∧ (((takeTrap lane { cause := 0x10, mask := 1 }).handler 0).queue.length = 1) ∧ (lane.handler 0).interrupted = none
    ∧ ((lane.updHandler 0 fun h => { h with interrupted := some 5 }).handler 0).interrupted = some 5 := by decide +kernel
theorem witness_PromenadeToken :
    (let s := pavane.updLch 0 fun l => { l with token := 1 }
     guardG s (hu 0) = true ∧ holdsToken s s.cur.g = false ∧ hasToken s s.cur.g = false)
    ∧ (pavane.updMe fun x => { x with refused := some 8 }).me.refused = some 8 ∧ hasToken pavane pavane.cur.g = true ∧ pavane.me.refused = none
    ∧ lane.grpPavane lane.cur.g = false ∧ guardG lane (hu 0) = true
    ∧ guardG pavane (hu 0) = true ∧ holdsToken pavane pavane.cur.g = true ∧ pavane.grpPavane pavane.cur.g = true := by decide +kernel
/-- A lane ADD and a uniform ADD. -/
def addWord (u : Bool) : Slot := (encode (.add (if u then { fa 6 with h := hu 6, d := 0x101, a := 0x102, b := 0x103, c := 0 } else { fa 6 with c := 0 }))).getD 0
def placed0 : State := State.reset.withFetchWord 96 (addWord false).toNat
theorem witness_StepRunsDecoded :
    placed0.agenda = [.issue 0]
    ∧ (let u : State := { placed0 with agenda := [] }
       let l := (spFind (u.grp 0).images 0).getD 0
       let w := lineSlot l ((u.grp 0).pc % 5)
       fetched u 0 0 l ∧ linePair l ((u.grp 0).pc % 5) = false ∧ issues u 0 ((u.grp 0).pc % 5) l (.add { fa 6 with c := 0 })
       ∧ noFaultNews u 0 { plane := 0, slot := w, instr := .add { fa 6 with c := 0 }, lane := none }
       ∧ doneB (.add { fa 6 with c := 0 }) (prepare u 0 0 (u.grp 0).pc (nextOffset (u.grp 0) (lineInl l) false)
           (issuesOnce (u.grp 0) ((u.grp 0).pc % 5) w) (if issuesOnce (u.grp 0) ((u.grp 0).pc % 5) w then [(0, w)] else []) (parsOf l)) = true) := by
  unfold fetched issues noFaultNews; decide +kernel
/-- A pair: a uniform ADD in slot 0 with the lane ADD of slot 1; and an event at the head of the agenda. -/
theorem witness_StepRunsDecoded_pair :
    let i : Instr := .add { fa 6 with h := hu 6, d := 0x101, a := 0x102, b := 0x103, c := 0 }
    let j : Instr := .add { fa 6 with c := 0 }
    let l : Line := BitVec.ofNat 512 ((addWord true).toNat + (addWord false).toNat * 2 ^ 96 + 2 ^ 485)
    let s := placed0.updGrp 0 fun x => { x with images := [(0, l)] }
    let u : State := { s with agenda := [] }
    let c : Copied := { plane := 0, slot := lineSlot l 0, instr := i, lane := some (lineSlot l 1, j) }
    let next := nextOffset (u.grp 0) (lineInl l) true
    let m := lineSlot l 1
    let once := issuesOnce (u.grp 0) 1 m
    let first := prepare u 0 0 (u.grp 0).pc next false [] (parsOf l)
    s.agenda = [.issue 0] ∧ (u.grp 0).pc % 5 = 0 ∧ fetched u 0 0 l ∧ linePair l 0 = true ∧ issuesOnce (u.grp 0) 0 (lineSlot l 0) = false
    ∧ issues u 0 0 l i ∧ issues u 0 1 l j ∧ noFaultNews u 0 c
    ∧ (match exec i first with
       | .next t => t.cur.out == .done
         && doneB j { t with cur := { (prepare u 0 0 (u.grp 0).pc next once (if once then [(0, m)] else []) (parsOf l)).cur with
                                      view := some (first.grp 0), moved := t.cur.moved } }
       | _ => false) = true
    ∧ ({ lane with agenda := [.event (.reset 0)] } : State).agenda = .event (.reset 0) :: [] := by
  unfold fetched issues noFaultNews; decide +kernel
/-- The state after reset has both canonical forms, and the machine steps from it. -/
theorem witness_TablesStayCanonical : Memory.wf State.reset.mem = true ∧ spSorted 0 State.reset.groups = true
    ∧ (match step placed0 with | .next t => Memory.wf t.mem && spSorted 0 t.groups | _ => false) = true := by decide +kernel
theorem witness_EncodeDecode : wellFormed false (.add { fa 6 with c := 0 }) = true ∧ (encode (.add { fa 6 with c := 0 })).isSome = true := by
  decide +kernel

/-! ### Values from the worked examples of spec/ -/

/-- What an instruction that completes leaves, as read by f. -/
def after (i : Instr) (s : State) (f : State → Nat) : Option Nat :=
  match exec i s with
  | .next t => if t.cur.out = .done then some (f t) else none
  | _ => none
/-- The ordinary group with four threads live and the vector registers listed: register, thread, value. -/
def vals (l : List (Nat × Nat × Nat)) : State :=
  lane.updMe fun x => { x with live := 15, resident := 15, vr := l.foldl (fun m e => spSet 0 m (e.1 * 64 + e.2.1) (BitVec.ofNat 32 e.2.2)) [] }
def v1 (s : State) : Nat := readV s.me 1 0
def ins (t : BitVec 4) (w : BitVec 32) : FmtA := { h := hl t, d := 1, a := 2, b := 3, c := 4, i := false, w := w }

/-- spec/05: the BFX example. -/
theorem test_bfx : after (.bfx { ins 6 0 with c := 0 }) (vals [(2, 0, 0xA50), (3, 0, 0x0C04)]) v1 = some 0xA5 := by decide +kernel
/-- spec/05, R119: LEA.b64.sx with b = 0xFFFF_FFFE and a = 0x1000. -/
theorem test_lea : after (.lea { ins 3 0x43 with d := 6, a := 0x102, c := 0 }) (withK (vals [(3, 0, 0xFFFFFFFE)]) [(2, 0x1000)])
    (fun s => readV s.me 6 0) = some 0xFF0 := by decide +kernel
/-- spec/05: BSHUF selectors 0x053 and 0xE0000. -/
theorem test_bshuf : after (.bshuf (ins 2 0)) (vals [(2, 0, 0x11223344), (4, 0, 0x053)]) v1 = some 0x44332211
    ∧ after (.bshuf (ins 2 0)) (vals [(2, 0, 0x80), (4, 0, 0xE0000)]) v1 = some 0xFFFFFF80 := by decide +kernel
/-- spec/05: CVT.s8.s32 of 300, with sat and without. -/
theorem test_cvt : after (.cvt { ins 4 0x04000006 with b := 0, c := 0 }) (vals [(2, 0, 300)]) v1 = some 127
    ∧ after (.cvt { ins 4 6 with b := 0, c := 0 }) (vals [(2, 0, 300)]) v1 = some 44 := by decide +kernel
/-- spec/05: F2I.s32.f64 of −2.5 under RNE. -/
theorem test_f2i : after (.f2i { ins 6 11 with b := 0, c := 0 }) (vals [(2, 0, 0), (3, 0, 0xC0040000)]) v1 = some 0xFFFFFFFE := by decide +kernel
/-- spec/05: FGETE.f64 of 3 · 2^−1060 gives −1,059. -/
theorem test_fgete : after (.fgete { ins 11 0 with b := 0, c := 0 }) (vals [(2, 0, 49152)]) v1 = some (2 ^ 32 - 1059) := by decide +kernel
/-- spec/05: FRCPA.f32 of 3.0. -/
theorem test_frcpa : after (.frcpa { ins 10 0 with b := 0, c := 0 }) (vals [(2, 0, 0x40400000)]) v1 = some 0x3EAAAA97 := by decide +kernel
/-- spec/05: FDOT2.f16 of (1.0, 2^−14) and (−1.0, 2^−10) with 2^−30. -/
theorem test_fdot2 : after (.fdot2 (ins 8 0)) (vals [(2, 0, 0x04003C00), (3, 0, 0x1400BC00), (4, 0, 0x30800000)]) v1 = some 0xBF7FFFFF := by
  decide +kernel
/-- spec/05: MXQ.s8.f32 of 3.0, −0.5 and 0.0078125: the first participant's result. -/
theorem test_mxq : after (.mxq { ins 4 10 with b := 0, c := 0 }) (vals [(2, 0, 0x40400000), (2, 1, 0xBF000000), (2, 2, 0x3C000000)]) v1
    = some 0x8060 := by decide +kernel
/-- spec/05: PACK.bf16.f32 of 1.0 and −3.0. -/
theorem test_pack : after (.pack { ins 9 10 with c := 0 }) (vals [(2, 0, 0x3F800000), (3, 0, 0xC0400000)]) v1 = some 0xC0403F80 := by
  decide +kernel
/-- spec/05: GRED.add.f64 of 2^53, 1, 1 and −2^53 gives every participant 1.0, and FSTAT gains nx. -/
theorem test_gred : after (.gred { ins 11 0 with d := 6, b := 0, c := 0 })
      (vals [(3, 0, 0x43400000), (3, 1, 0x3FF00000), (3, 2, 0x3FF00000), (3, 3, 0xC3400000)])
      (fun s => readV s.me 7 3 + readV s.me 6 3 * 2 ^ 32 + s.me.fstat.toNat * 2 ^ 64) = some (0x3FF00000 + 16 * 2 ^ 64) := by
  decide +kernel
/-- spec/05: POLL.count of the predicates true, false, true, true. -/
theorem test_poll : after (.poll { ins 2 0 with h := { hl 2 with rm := 4 }, a := 0, b := 0, c := 0 })
    ((vals []).updMe fun x => { x with pr := [(0, 13)] }) v1 = some 3 := by decide +kernel
/-- Table 4-4: 65,520 as an f16, by RNE with of and nx, by RTZ with nx; 464 and 470 as e4m3 (spec/04). -/
theorem test_rounding :
    roundTo (fmtOf 8) 1 (fpDecode (fmtOf 10) 0x477FF000) = (0x7C00, 0x14) ∧ roundTo (fmtOf 8) 2 (fpDecode (fmtOf 10) 0x477FF000) = (0x7BFF, 0x10)
    ∧ (convertTo (fmtOf 12) 1 false (fpDecode (fmtOf 10) 0x43E80000)).1 = 0x7E
    ∧ (convertTo (fmtOf 12) 1 false (fpDecode (fmtOf 10) 0x43EB0000)).1 = 0x7F
    ∧ (convertTo (fmtOf 12) 1 true (fpDecode (fmtOf 10) 0x43EB0000)).1 = 0x7E := by decide +kernel
/-- spec/06: τ = 1.0e−15 gives S = 8 in both modes, 1.0e−14 gives 8 and, in full mode, 7. -/
theorem test_slices : chooseSlices 0x3CD203AF9EE75616 false = (8, false) ∧ chooseSlices 0x3CD203AF9EE75616 true = (8, false)
    ∧ chooseSlices 0x3D06849B86A12B9B false = (8, false) ∧ chooseSlices 0x3D06849B86A12B9B true = (7, false) := by decide +kernel
/-- spec/07: HEAD and TAIL of 2^−70 with e = 1 and k = 8. -/
theorem test_slice : sliceBits 1 0x3B90000000000000 1 8 = 0 ∧ sliceBits 2 0x3B90000000000000 1 8 = 0x3B90000000000000 := by decide +kernel
/-- spec/09: byte 40 of row 5 with q = 16, xlo = 0, xn = 3, P = 128; the bank that refreshes when pos reads 15,000. -/
theorem test_memory : swizzleOffset 16 128 0 3 0 5 40 = 760
    ∧ refreshBank ({ lane with clock := 2 * 16000 }.updDie 0 fun d => { d with refcal := 1000 }) 0 = 7
    ∧ refreshBank ({ lane with clock := 2 * 17000 }.updDie 0 fun d => { d with refcal := 1000 }) 0 = 8 := by decide +kernel
/-- Table 14-2: P2's RCLAIM 3, and the RCLAIM 7 that fills the ring. -/
theorem test_rclaim :
    after (.rclaim (fe (hu 0) 0x104 0x100 (ef [(43, 0x203)]))) (withK (put ctl [(1024, 8, 0x8000), (1032, 4, 8), (1040, 8, 2)]) [(0, 1024)])
      (fun s => readK s.me 4 + homeNat s 1040 8 * 2 ^ 64) = some (2 + 5 * 2 ^ 64)
    ∧ after (.rclaim (fe (hu 0) 0x104 0x100 (ef [(43, 0x207)])))
        (withK (put ctl [(1024, 8, 0x8000), (1032, 4, 8), (1040, 8, 5), (1048, 8, 5), (1056, 8, 4), (1064, 8, 4)]) [(0, 1024)])
        (fun s => readK s.me 4 + homeNat s 1040 8 * 2 ^ 64) = some (5 + 12 * 2 ^ 64) := by decide +kernel
/-- Table 14-2: RCOMMIT 0, 2 with 2, 3 parked commits 5; RRETIRE 2, 2 is parked. -/
theorem test_rcommit :
    (let s := withK (put ctl [(1024, 8, 0x8000), (1032, 4, 8), (1040, 8, 5)]) [(0, 1024), (2, 0)]
     after (.rcommit (fe (hu 0) 0x104 0x100 (ef [(43, 0x102), (33, 0x202)])))
        { s with ringParks := [{ slice := sliceKey 1024, header := 1024, tail := false, s := 2, n := 3 }] }
        (fun s => readK s.me 4 + homeNat s 1048 8 * 2 ^ 64) = some (0 + 5 * 2 ^ 64))
    ∧ after (.rretire (fe (hu 0) 0x104 0x100 (ef [(43, 0x102), (33, 0x202)])))
        (withK (put ctl [(1024, 8, 0x8000), (1032, 4, 8), (1040, 8, 5), (1048, 8, 5), (1056, 8, 4)]) [(0, 1024), (2, 2)])
        (fun s => readK s.me 4 + homeNat s 1064 8 * 2 ^ 64) = some 1 := by decide +kernel
/-- A store of four bytes that ends at the last byte of the scratchpad, and a load that would pass it: a trap (R225). -/
theorem test_scratchpad_edge :
    (match exec (.st { fm true 1 2 0x148 with off := 4092 }) lane with | .next t => t.cur.out == .done | _ => false) = true
    ∧ (match exec (.ld { fm true 1 2 0x148 with off := 4096 }) lane with | .next t => t.cur.out != .done && t.me.halt && t.me.cause == 0x0C | _ => false) = true := by
  decide +kernel
/-- R387: a core uses the translation its TLB holds, another core the tables, and INVAL drops it. -/
theorem test_tlb :
    let s := { State.reset with tlb := [{ tlb := 0, ctx := 3, page := true, base := 8192, len := 8192, off := 4096, attr := 1 }] }
    translateAt s 0 3 8200 needR = .ok 12296 false ∧ translateAt s 0 3 8200 needW = .bad cProt
    ∧ translateAt s 1 3 8200 needR = .bad cPage ∧ translateAt (tlbInval s 3 16000 8) 0 3 8200 needR = .bad cPage := by decide +kernel

end Sys2Proof.Tests
end

section
/-! The package ring of R12. Positions and dies are inverse to each other, one hop of a clockwise
packet is one position further, and a walk from the source by hops gives the order, the hop count and the dateline. -/

namespace Sys2Proof.Machine

/-! ### Positions and dies -/

theorem ringPos_lt {d : Nat} (hd : d < 16) : ringPos d < 16 := by
  unfold ringPos
  split <;> omega

theorem ringDie_ringPos {d : Nat} (hd : d < 16) : ringDie (ringPos d) = d := by
  unfold ringDie ringPos
  by_cases hrow : d < 8
  · rw [if_pos hrow, if_pos hrow]
  · rw [if_neg hrow, if_neg (by omega)]
    omega

theorem ringPos_ringDie {p : Nat} (hp : p < 16) : ringPos (ringDie p) = p :=
  -- `ringPos` and `ringDie` are the same reflection of the second row
  ringDie_ringPos hp

/-- Die 8, where the dateline begins, stands at the last position. -/
theorem ringDie_eq_eight_iff {p : Nat} (hp : p < 16) : ringDie p = 8 ↔ p = 15 := by
  unfold ringDie
  split <;> omega

/-- The clockwise neighbour of a die is its row neighbour or, at the end of a row, the other end of a rung. -/
theorem ringDie_succ_adjacent {d : Nat} (hd : d < 16) :
    let e := ringDie ((ringPos d + 1) % 16)
    (d / 8 = e / 8 ∧ (d + 1 = e ∨ e + 1 = d)) ∨ (d = 7 ∧ e = 15) ∨ (d = 8 ∧ e = 0) := by
  unfold ringDie ringPos
  split <;> split <;> omega

/-- As many positions clockwise as the hop count from `a` to `b` lead from `a` to `b`. -/
theorem ringDie_add_hops {a b : Nat} (ha : a < 16) (hb : b < 16) :
    ringDie ((ringPos a + (ringPos b + 16 - ringPos a) % 16) % 16) = b := by
  have hpa := ringPos_lt ha
  have hpb := ringPos_lt hb
  have hpos : (ringPos a + (ringPos b + 16 - ringPos a) % 16) % 16 = ringPos b := by omega
  rw [hpos, ringDie_ringPos hb]

/-! ### A packet's walk -/

/-- A packet with its head at the next die on its way. -/
def Packet.hop (x : Packet) : Packet := { x with at_ := x.nextDie }

theorem Packet.clockwise_at_ (x : Packet) (d : Nat) : Packet.clockwise { x with at_ := d } = x.clockwise := rfl

theorem Packet.nextDie_of_clockwise {x : Packet} (hcw : x.clockwise = true) {p : Nat} (hp : p < 16) :
    Packet.nextDie { x with at_ := ringDie p } = ringDie ((p + 1) % 16) := by
  unfold Packet.nextDie
  rw [Packet.clockwise_at_, if_pos hcw, ringPos_ringDie hp]

/-- A clockwise packet that sets out from its source is `n` positions on after `n` hops, and only its place has changed. -/
theorem Packet.iterate_hop {x : Packet} (hsrc : x.src < 16) (hcw : x.clockwise = true) (n : Nat) :
    Nat.iterate Packet.hop n { x with at_ := x.src } = { x with at_ := ringDie ((ringPos x.src + n) % 16) } := by
  induction n with
  | zero => rw [Nat.add_zero, Nat.mod_eq_of_lt (ringPos_lt hsrc), ringDie_ringPos hsrc, Function.iterate_zero_apply]
  | succ n ih =>
    have hnext := Packet.nextDie_of_clockwise hcw (Nat.mod_lt (ringPos x.src + n) (by decide : 0 < 16))
    rw [Nat.mod_add_mod, Nat.add_assoc] at hnext
    rw [Function.iterate_succ_apply', ih, Packet.hop, hnext]

/-- A clockwise packet at position `p` has crossed the dateline by its next die exactly if that die comes before its source. -/
theorem Packet.crossed_of_clockwise {x : Packet} (hcw : x.clockwise = true) {p : Nat} (hp : p < 16) :
    Packet.crossed { x with at_ := ringDie p } = true ↔ (p + 1) % 16 < ringPos x.src := by
  unfold Packet.crossed
  rw [Packet.clockwise_at_, if_pos hcw, Packet.nextDie_of_clockwise hcw hp, decide_eq_true_iff,
    ringPos_ringDie (Nat.mod_lt _ (by decide))]

/-- On a walk of fewer than 16 links from position `p`, the link after `n` of them leads before `p` exactly if the walk has met the
last position by then. -/
theorem wraps_iff_met_last {p n : Nat} (hp : p < 16) (hn : n + 1 < 16) :
    ((p + n) % 16 + 1) % 16 < p ↔ ∃ m ≤ n, (p + m) % 16 = 15 := by
  constructor
  · intro hwrap
    exact ⟨15 - p, by omega, by omega⟩
  · rintro ⟨m, hm, hlast⟩
    omega

/-- A clockwise packet counts as having crossed the dateline once its walk has met die 8. -/
theorem Packet.crossed_iterate_hop {x : Packet} (hsrc : x.src < 16) (hcw : x.clockwise = true) {n : Nat} (hn : n + 1 < 16) :
    (Nat.iterate Packet.hop n { x with at_ := x.src }).crossed = true ↔ ∃ m ≤ n, ringDie ((ringPos x.src + m) % 16) = 8 := by
  rw [Packet.iterate_hop hsrc hcw, Packet.crossed_of_clockwise hcw (Nat.mod_lt _ (by decide)),
    wraps_iff_met_last (ringPos_lt hsrc) hn]
  simp only [ringDie_eq_eight_iff (Nat.mod_lt _ (by decide : 0 < 16))]

/-- R12's example: a packet for die 14 that sets out from die 6 goes clockwise, 6→7, 7→15, 15→14. -/
theorem Packet.walk_six_to_fourteen {x : Packet} (hsrc : x.src = 6) (hdst : x.dst = 14) :
    x.clockwise = true
    ∧ (List.range 4).map (fun n => (Nat.iterate Packet.hop n { x with at_ := x.src }).at_) = [6, 7, 15, 14] := by
  have hcw : x.clockwise = true := by
    unfold Packet.clockwise
    rw [hsrc, hdst]
    decide
  refine ⟨hcw, ?_⟩
  simp only [Packet.iterate_hop (hsrc ▸ by decide : x.src < 16) hcw]
  rw [hsrc]
  decide

/-! ### The obligation -/

/-- Settles O55: the walk by hops gives a packet's place, and the dateline is met at the last position. The spec's own example,
die 6 to die 14 by 3 links, meets the hypotheses on the packet (`Packet.walk_six_to_fourteen`). -/
theorem ringOrder : Obligations.RingOrder := by
  unfold Obligations.RingOrder
  refine ⟨by decide, fun d hd => ⟨ringPos_lt hd, ringDie_ringPos hd⟩, by decide, by decide,
    fun d hd => ringDie_succ_adjacent hd, ?place, ?crossed, fun a b ha hb => ringDie_add_hops ha hb⟩
  case place =>
    intro x n hsrc _ hcw _
    exact congrArg Packet.at_ (Packet.iterate_hop hsrc hcw n)
  case crossed =>
    intro x n hsrc _ hcw hn
    have hcount : n + 1 < 16 := by
      have := decide_eq_true_iff.mp hcw
      omega
    exact Packet.crossed_iterate_hop hsrc hcw hcount

end Sys2Proof.Machine
end

section
/-! Integer division (R118). The quotient and the remainder of two values of a type are values of that type, so that the sat bit
changes nothing; they are what R118 says; and an instruction whose results raise no flag leaves FSTAT as it is. -/

namespace Sys2Proof.Machine

open Claim

/-! ### Values of an integer type -/

/-- x is a value of the integer type. -/
def FitsType (ty : Nat) (x : Int) : Prop := intMin ty ≤ x ∧ x ≤ intMax ty

theorem satTo_of_fitsType {ty : Nat} {x : Int} (hx : FitsType ty x) : satTo ty x = x := by
  unfold satTo
  rw [min_eq_right hx.2, max_eq_right hx.1]

theorem intRes_of_fitsType {ty : Nat} {x : Int} (hx : FitsType ty x) (sat : Bool) : intRes ty sat x = intBits (tyWidth ty) x := by
  unfold intRes
  rw [satTo_of_fitsType hx, ite_self]

theorem tyWidth_pos_of_isSigned {ty : Nat} (hs : isSigned ty = true) : 0 < tyWidth ty := by
  have hty : 4 ≤ ty ∧ ty < 8 := by simpa [isSigned] using hs
  obtain ⟨hlo, hhi⟩ := hty
  interval_cases ty <;> decide

theorem intMin_of_isSigned {ty : Nat} (hs : isSigned ty = true) : intMin ty = -2 ^ (tyWidth ty - 1) := by
  simp [intMin, hs]

theorem intMax_of_isSigned {ty : Nat} (hs : isSigned ty = true) : intMax ty = 2 ^ (tyWidth ty - 1) - 1 := by
  simp [intMax, hs]

theorem intMin_of_not_isSigned {ty : Nat} (hs : isSigned ty = false) : intMin ty = 0 := by
  simp [intMin, hs]

theorem intMax_of_not_isSigned {ty : Nat} (hs : isSigned ty = false) : intMax ty = 2 ^ tyWidth ty - 1 := by
  simp [intMax, hs]

theorem intMin_nonpos (ty : Nat) : intMin ty ≤ 0 := by
  unfold intMin
  split
  · exact Int.neg_nonpos_of_nonneg (Int.natCast_nonneg _)
  · rfl

theorem intMax_nonneg (ty : Nat) : 0 ≤ intMax ty := by
  unfold intMax
  split <;> exact Int.sub_nonneg_of_le (by exact_mod_cast Nat.one_le_two_pow)

theorem signedNat_bounds {w : Nat} (hw : 0 < w) (x : Nat) :
    -2 ^ (w - 1) ≤ signedNat w x ∧ signedNat w x ≤ 2 ^ (w - 1) - 1 := by
  have hhalf : 2 * 2 ^ (w - 1) = 2 ^ w := mul_pow_sub_one hw.ne' 2
  have hlt : x % 2 ^ w < 2 ^ w := Nat.mod_lt _ (Nat.two_pow_pos w)
  have hcast : ((2 ^ (w - 1) : Nat) : Int) = 2 ^ (w - 1) := by norm_cast
  rw [← hcast]
  unfold signedNat
  dsimp only
  split <;> omega

/-- What an operand reads as is a value of the type. -/
theorem fitsType_intVal (ty bits : Nat) : FitsType ty (intVal ty bits) := by
  unfold FitsType intVal
  cases hs : isSigned ty with
  | true =>
    rw [intMin_of_isSigned hs, intMax_of_isSigned hs]
    exact signedNat_bounds (tyWidth_pos_of_isSigned hs) bits
  | false =>
    have hlt : bits % 2 ^ tyWidth ty < 2 ^ tyWidth ty := Nat.mod_lt _ (Nat.two_pow_pos _)
    have hcast : ((2 ^ tyWidth ty : Nat) : Int) = 2 ^ tyWidth ty := by norm_cast
    rw [intMin_of_not_isSigned hs, intMax_of_not_isSigned hs, ← hcast, if_neg Bool.false_ne_true]
    omega

/-! ### The quotient and the remainder of R118 -/

theorem idivQuot_zero (ty : Nat) (a : Int) : idivQuot ty a 0 = if isSigned ty then -1 else 2 ^ tyWidth ty - 1 := by
  cases hs : isSigned ty with
  | true => simp [idivQuot, hs]
  | false => simp [idivQuot, hs, intMax_of_not_isSigned hs]

theorem iremRem_zero (ty : Nat) (a : Int) : iremRem ty a 0 = a := by
  simp [iremRem]

theorem idivQuot_intMin_neg_one {ty : Nat} (hs : isSigned ty = true) : idivQuot ty (intMin ty) (-1) = intMin ty := by
  simp [idivQuot, hs]

theorem iremRem_intMin_neg_one {ty : Nat} (hs : isSigned ty = true) : iremRem ty (intMin ty) (-1) = 0 := by
  simp [iremRem, hs]

/-- a / b is neither of R118's two cases without a true quotient. -/
def HasQuotient (ty : Nat) (a b : Int) : Prop := b ≠ 0 ∧ ¬ (isSigned ty = true ∧ a = intMin ty ∧ b = -1)

theorem hasQuotient_of_ne_zero {ty : Nat} {a b : Int} (hb : b ≠ 0) (hover : isSigned ty = true → ¬ (a = -2 ^ (tyWidth ty - 1) ∧ b = -1)) :
    HasQuotient ty a b :=
  ⟨hb, fun ⟨hs, ha, hb1⟩ => hover hs ⟨ha.trans (intMin_of_isSigned hs), hb1⟩⟩

theorem idivQuot_of_hasQuotient {ty : Nat} {a b : Int} (h : HasQuotient ty a b) : idivQuot ty a b = a.tdiv b := by
  obtain ⟨hb, hover⟩ := h
  unfold idivQuot
  rw [if_neg hb, if_neg (by simpa [and_assoc] using hover)]

theorem iremRem_of_hasQuotient {ty : Nat} {a b : Int} (h : HasQuotient ty a b) : iremRem ty a b = a.tmod b := by
  obtain ⟨hb, hover⟩ := h
  unfold iremRem
  rw [if_neg hb, if_neg (by simpa [and_assoc] using hover)]

/-- Where there is no true quotient, the divisor is 0, or the least value of a signed type is divided by -1. -/
theorem not_hasQuotient {ty : Nat} {a b : Int} (h : ¬ HasQuotient ty a b) :
    b = 0 ∨ (isSigned ty = true ∧ a = intMin ty ∧ b = -1) := by
  unfold HasQuotient at h
  tauto

/-- q is a / b truncated toward zero and r the remainder: r is smaller than b and has the sign of a. -/
def TruncatedDivision (a b q r : Int) : Prop := a = b * q + r ∧ r.natAbs < b.natAbs ∧ (0 ≤ a → 0 ≤ r) ∧ (a ≤ 0 → r ≤ 0)

theorem tmod_nonpos_of_nonpos {a : Int} (b : Int) (ha : a ≤ 0) : a.tmod b ≤ 0 := by
  have hneg := Int.tmod_nonneg b (Int.neg_nonneg_of_nonpos ha)
  rw [Int.neg_tmod] at hneg
  omega

theorem truncatedDivision_tdiv_tmod {a b : Int} (hb : b ≠ 0) : TruncatedDivision a b (a.tdiv b) (a.tmod b) := by
  refine ⟨(Int.mul_tdiv_add_tmod a b).symm, ?_, Int.tmod_nonneg b, tmod_nonpos_of_nonpos b⟩
  rw [Int.natAbs_tmod]
  exact Nat.mod_lt _ (Int.natAbs_pos.mpr hb)

theorem truncatedDivision_idivQuot_iremRem {ty : Nat} {a b : Int} (h : HasQuotient ty a b) :
    TruncatedDivision a b (idivQuot ty a b) (iremRem ty a b) := by
  rw [idivQuot_of_hasQuotient h, iremRem_of_hasQuotient h]
  exact truncatedDivision_tdiv_tmod h.1

/-! ### Quotient and remainder are values of the type -/

/-- A divisor of magnitude 2 or more halves the magnitude at least. -/
theorem natAbs_tdiv_le_half {a b : Int} (hb : 2 ≤ b.natAbs) : (a.tdiv b).natAbs ≤ a.natAbs / 2 := by
  rw [Int.natAbs_tdiv]
  exact Nat.div_le_div_left hb (by decide)

/-- The quotient of a signed type leaves the type only where its least value is divided by -1. -/
theorem fitsType_tdiv_of_isSigned {ty : Nat} {a b : Int} (hs : isSigned ty = true) (ha : FitsType ty a) (h : HasQuotient ty a b) :
    FitsType ty (a.tdiv b) := by
  obtain ⟨hb, hover⟩ := h
  unfold FitsType at ha ⊢
  rw [intMin_of_isSigned hs] at ha hover ⊢
  rw [intMax_of_isSigned hs] at ha ⊢
  have hpos : (0 : Int) < 2 ^ (tyWidth ty - 1) := by positivity
  generalize (2 : Int) ^ (tyWidth ty - 1) = m at ha hover hpos ⊢
  rcases lt_or_ge b.natAbs 2 with hunit | hbig
  · obtain rfl | rfl : b = 1 ∨ b = -1 := by omega
    · rwa [Int.tdiv_one]
    · have hne : a ≠ -m := fun he => hover ⟨hs, he, rfl⟩
      rw [Int.tdiv_neg, Int.tdiv_one]
      omega
  · have hhalf := natAbs_tdiv_le_half (a := a) hbig
    omega

theorem fitsType_tdiv_of_not_isSigned {ty : Nat} {a b : Int} (hs : isSigned ty = false) (ha : FitsType ty a) (hb : FitsType ty b) :
    FitsType ty (a.tdiv b) := by
  unfold FitsType at ha hb ⊢
  rw [intMin_of_not_isSigned hs] at ha hb ⊢
  have hle := Int.natAbs_tdiv_le_natAbs a b
  have hnonneg := Int.tdiv_nonneg ha.1 hb.1
  omega

theorem fitsType_idivQuot {ty : Nat} {a b : Int} (ha : FitsType ty a) (hb : FitsType ty b) : FitsType ty (idivQuot ty a b) := by
  by_cases h : HasQuotient ty a b
  · rw [idivQuot_of_hasQuotient h]
    cases hs : isSigned ty with
    | true => exact fitsType_tdiv_of_isSigned hs ha h
    | false => exact fitsType_tdiv_of_not_isSigned hs ha hb
  · obtain rfl | ⟨hs, rfl, rfl⟩ := not_hasQuotient h
    · rw [idivQuot_zero]
      cases hs : isSigned ty with
      | true =>
        have hpos : (0 : Int) < 2 ^ (tyWidth ty - 1) := by positivity
        rw [if_pos rfl, FitsType, intMin_of_isSigned hs]
        exact ⟨by omega, by linarith [intMax_nonneg ty]⟩
      | false =>
        rw [if_neg Bool.false_ne_true, ← intMax_of_not_isSigned hs]
        exact ⟨(intMin_nonpos ty).trans (intMax_nonneg ty), le_rfl⟩
    · rwa [idivQuot_intMin_neg_one hs]

/-- The remainder lies between 0 and a. -/
theorem fitsType_tmod {ty : Nat} {a : Int} (b : Int) (ha : FitsType ty a) : FitsType ty (a.tmod b) := by
  have hle : (a.tmod b).natAbs ≤ a.natAbs := by
    rw [Int.natAbs_tmod]
    exact Nat.mod_le _ _
  have hmin := intMin_nonpos ty
  have hmax := intMax_nonneg ty
  obtain ⟨hlo, hhi⟩ := ha
  rcases le_total 0 a with hnonneg | hnonpos
  · have hr := Int.tmod_nonneg b hnonneg
    exact ⟨by omega, by omega⟩
  · have hr := tmod_nonpos_of_nonpos b hnonpos
    exact ⟨by omega, by omega⟩

theorem fitsType_iremRem {ty : Nat} {a : Int} (b : Int) (ha : FitsType ty a) : FitsType ty (iremRem ty a b) := by
  by_cases h : HasQuotient ty a b
  · rw [iremRem_of_hasQuotient h]
    exact fitsType_tmod b ha
  · obtain rfl | ⟨hs, rfl, rfl⟩ := not_hasQuotient h
    · rwa [iremRem_zero]
    · rw [iremRem_intMin_neg_one hs]
      exact ⟨intMin_nonpos ty, intMax_nonneg ty⟩

/-! ### Results that raise no flag -/

theorem flagsOf_eq_zero {rs : List (Nat × Res)} (h : ∀ r ∈ rs, r.2.flags = 0) : flagsOf rs = 0 := by
  unfold flagsOf
  induction rs with
  | nil => rfl
  | cons r rest ih =>
    rw [List.foldl_cons, h r List.mem_cons_self, Nat.or_zero]
    exact ih fun r hr => h r (List.mem_cons_of_mem _ hr)

theorem orFstat_zero (x : Group) : orFstat x 0 = x := by
  simp [orFstat]

/-- Writing results that raise no flag leaves FSTAT as it is. -/
theorem writeAll_fstat_of_quiet (o : Nat → FmtA) {rs : List (Nat × Res)} (s : State) (h : ∀ r ∈ rs, r.2.flags = 0) :
    (writeAll o rs s).me.fstat = s.me.fstat := by
  unfold writeAll
  rw [State.me_updMe, flagsOf_eq_zero h, orFstat_zero]
  exact foldl_keeps (fun x : Group => x.fstat = s.me.fstat) _ rs s.me (fun x r hx => (putRes_fstat _ x _ _).trans hx) rfl

theorem writeAll_cur (o : Nat → FmtA) (rs : List (Nat × Res)) (s : State) : (writeAll o rs s).cur = s.cur := rfl

/-! ### IDIV and IREM complete -/

/-- An instruction of exact integer results that are values of its type writes their bits, whatever its sat bit. -/
theorem exec_of_laneGives_intOf {i : Instr} {o : FmtA} {s : State} (x : State → Nat → Int)
    (hgives : laneGives i o fun s t => intOf o (x s t) none) (hfits : ∀ t, FitsType (tyA o) (x s t)) (hready : ready i o.h s) :
    exec i s = .next (writeAll (fun _ => o) ((runners s o.h).map fun t => (t, bitsOf o (intBits (wA o) (x s t)))) s) := by
  have hres : ∀ t, intOf o (x s t) none = bitsOf o (intBits (wA o) (x s t)) := fun t => by
    unfold intOf bitsOf
    rw [intRes_of_fitsType (hfits t), wA]
  rw [hgives s hready fun t _ => enabledFlags_zero s.me]
  simp only [hres]

theorem exec_idiv {o : FmtA} {s : State} (hready : ready (.idiv o) o.h s) :
    exec (.idiv o) s = .next (writeAll (fun _ => o)
      ((runners s o.h).map fun t => (t, bitsOf o (intBits (wA o) (idivQuot (tyA o) (intA s o t) (intB s o t))))) s) :=
  exec_of_laneGives_intOf (fun s t => idivQuot (tyA o) (intA s o t) (intB s o t))
    (laneGives_of (.idiv o) 0x1C o _ rfl fun _ => rfl) (fun _ => fitsType_idivQuot (fitsType_intVal ..) (fitsType_intVal ..)) hready

theorem exec_irem {o : FmtA} {s : State} (hready : ready (.irem o) o.h s) :
    exec (.irem o) s = .next (writeAll (fun _ => o)
      ((runners s o.h).map fun t => (t, bitsOf o (intBits (wA o) (iremRem (tyA o) (intA s o t) (intB s o t))))) s) :=
  exec_of_laneGives_intOf (fun s t => iremRem (tyA o) (intA s o t) (intB s o t))
    (laneGives_of (.irem o) 0x1D o _ rfl fun _ => rfl) (fun _ => fitsType_iremRem _ (fitsType_intVal ..)) hready

/-- An instruction that writes bits of its type keeps FSTAT, and neither traps nor waits. -/
theorem gives_quiet_of_exec {i : Instr} {o : FmtA} {s : State} {v : Nat → Nat}
    (h : exec i s = .next (writeAll (fun _ => o) ((runners s o.h).map fun t => (t, bitsOf o (v t))) s)) :
    gives i s fun t => t.me.fstat = s.me.fstat ∧ t.cur = s.cur := by
  refine ⟨_, h, writeAll_fstat_of_quiet _ s fun r hr => ?_, writeAll_cur _ _ s⟩
  obtain ⟨t, -, rfl⟩ := List.mem_map.mp hr
  rfl

/-! ### The obligation -/

/-- Settles O53: each result is R118's quotient or remainder, which is a value of the type, and raises no flag. The operands that
its cases speak of are read in `Tests.witness_divisors`. -/
theorem integerDivision : Obligations.IntegerDivision := by
  unfold Obligations.IntegerDivision
  intro o s
  refine ⟨fun hready => ⟨_, exec_idiv hready, fun t _ => ⟨?quotZero, ?quotLeast, ?quotTrue⟩⟩,
    fun hready => ⟨_, exec_irem hready, fun t _ => ⟨?remZero, ?remLeast, ?remTrue⟩⟩, ?quiet⟩
  case quotZero =>
    intro hb
    rw [hb]
    exact idivQuot_zero ..
  case quotLeast =>
    intro hs ha hb
    rw [ha, hb, wA, ← intMin_of_isSigned hs]
    exact idivQuot_intMin_neg_one hs
  case quotTrue =>
    exact fun hb hover => ⟨_, truncatedDivision_idivQuot_iremRem (hasQuotient_of_ne_zero hb hover)⟩
  case remZero =>
    intro hb
    rw [hb]
    exact iremRem_zero ..
  case remLeast =>
    intro hs ha hb
    rw [ha, hb, wA, ← intMin_of_isSigned hs]
    exact iremRem_intMin_neg_one hs
  case remTrue =>
    exact fun hb hover => ⟨_, truncatedDivision_idivQuot_iremRem (hasQuotient_of_ne_zero hb hover)⟩
  case quiet =>
    intro i hi hready
    obtain rfl | rfl : i = .idiv o ∨ i = .irem o := by simpa using hi
    · exact gives_quiet_of_exec (exec_idiv hready)
    · exact gives_quiet_of_exec (exec_irem hready)

end Sys2Proof.Machine
end

section
/-! The Promenade token (R265 to R267, R275). TOKWAIT completes, or makes its group wait for the token; TOKPASS passes the token,
reports a refused FADDW in its place, or does nothing. Each of these effects leaves the registers of every group as they were. -/

namespace Sys2Proof.Machine

open Claim

variable {s t u : State} {o : FmtM}

/-! ### Effects that write no register -/

/-- An effect that keeps every group's registers writes no register, whatever it records of how the issue ended. -/
theorem filesKept_of_filesAll {us : List FieldUse} {ps gs : List Nat} (h : filesAll s t) (hgroups : u.groups = t.groups)
    (hcur : u.cur.g = t.cur.g) : filesKept us ps gs s u := by
  obtain ⟨hfile, hsame, -, -⟩ := h
  exact filesKept_cur (filesKept_of us ps gs hsame hfile) hgroups hcur

theorem filesKept_refl (us : List FieldUse) (ps gs : List Nat) (s : State) : filesKept us ps gs s s :=
  filesKept_of_filesAll (filesAll_refl s) rfl rfl

theorem filesAll_setPc (s : State) (g off : Nat) : filesAll s (s.updGrp g fun x => { x with pc := off }) :=
  filesAll_updGrp s g _ ⟨rfl, rfl, rfl, rfl, rfl, rfl, rfl, rfl⟩ rfl

theorem filesAll_countCorrected (s : State) (d n : Nat) : filesAll s (countCorrected s d n) := by
  unfold countCorrected
  split
  · exact filesAll_refl s
  · exact filesAll_updDie s d _

theorem filesKept_waitHere (us : List FieldUse) (ps gs : List Nat) (w : Wait) (s : State) : filesKept us ps gs s (waitHere w s) :=
  have hblock : filesAll s (blockOn (s.updMe fun x => { x with pc := s.cur.off }) s.cur.g w) :=
    filesAll_trans (filesAll_setPc s s.cur.g s.cur.off) (filesAll_blockOn _ _ w)
  filesKept_of_filesAll hblock rfl rfl

theorem filesKept_takeTrap (us : List FieldUse) (ps gs : List Nat) (s : State) (x : Trap) : filesKept us ps gs s (takeTrap s x) :=
  filesKept_of_filesAll
    (filesAll_trans (filesAll_countCorrected s (coreDie (placeCore s.cur.g)) x.ecc)
      (filesAll_trans (filesAll_setPc _ s.cur.g s.cur.off) (filesAll_raiseAt _ s.cur.g s.cur.off x)))
    rfl rfl

theorem filesKept_passToken (us : List FieldUse) (ps gs : List Nat) (s : State) (l : Nat) : filesKept us ps gs s (passToken s l) :=
  (effR_of us ps gs (eff_passToken (fun _ => false) (fun _ => false) 0 s l)).2.2.1

/-! ### A group that waits -/

theorem waitHere_wait (w : Wait) (s : State) : (waitHere w s).me.wait = w := by
  obtain ⟨_, _, _, hme⟩ := waitHere_me w s
  rw [hme]

theorem waitHere_pc (w : Wait) (s : State) : (waitHere w s).me.pc = s.cur.off := by
  obtain ⟨_, _, _, hme⟩ := waitHere_me w s
  rw [hme]

theorem waitHere_out (w : Wait) (s : State) : (waitHere w s).cur.out = .stalled := rfl

/-! ### TOKWAIT -/

/-- TOKWAIT with the token, or where PROM has no effect, goes on at once. -/
theorem exec_tokwait_of_holdsToken (hholds : holdsToken s s.cur.g = true) : exec (.tokwait o) s = .next s :=
  finish_ok (tokwaitCore o) s s (by simp [tokwaitCore, hholds])

/-- TOKWAIT without the token waits for it. -/
theorem exec_tokwait_of_not_holdsToken (hguard : guardG s o.h = true) (hholds : holdsToken s s.cur.g = false) :
    exec (.tokwait o) s = .next (waitHere .tokwait s) :=
  finish_ok (tokwaitCore o) s _ (by simp [tokwaitCore, blockHere, hguard, hholds])

theorem tokwait_filesKept (hguard : guardG s o.h = true) : gives (.tokwait o) s fun t => filesKept [] [] [] s t := by
  cases hholds : holdsToken s s.cur.g with
  | true => exact ⟨s, exec_tokwait_of_holdsToken hholds, filesKept_refl ..⟩
  | false => exact ⟨_, exec_tokwait_of_not_holdsToken hguard hholds, filesKept_waitHere ..⟩

/-! ### TOKPASS -/

/-- A refused FADDW traps where a budget is checked, with the live threads in TMASK (R265; the mask is log 25's). -/
theorem weltBudget_trap {a : Nat} (h : s.me.refused = some a) :
    weltBudget s = .error (.trap { cause := 0x18, addr := a, mask := s.me.live }) := by
  simp [weltBudget, h]

/-- With the token in its block TOKPASS is a budget check and then the passing. -/
theorem tokpassCore_of_hasToken (hguard : guardG s o.h = true) (hpavane : s.grpPavane s.cur.g = true)
    (htoken : hasToken s s.cur.g = true) :
    tokpassCore o s = (weltBudget >>= fun _ => upd fun s => passToken s (s.grpBlk s.cur.g).launch) s := by
  simp [tokpassCore, hguard, hpavane, htoken]

theorem exec_tokpass_of_hasToken (hguard : guardG s o.h = true) (hpavane : s.grpPavane s.cur.g = true)
    (htoken : hasToken s s.cur.g = true) (hrefused : s.me.refused = none) :
    exec (.tokpass o) s = .next (passToken s (s.grpBlk s.cur.g).launch) := by
  apply finish_ok
  rw [tokpassCore_of_hasToken hguard hpavane htoken, M_bind_ok _ _ _ _ _ (weltBudget_ok s hrefused), M_upd]

theorem takes_tokpass_of_refused {a : Nat} (hguard : guardG s o.h = true) (hpavane : s.grpPavane s.cur.g = true)
    (htoken : hasToken s s.cur.g = true) (hrefused : s.me.refused = some a) :
    takes (.tokpass o) s { cause := 0x18, addr := a, mask := s.me.live } := by
  apply finish_trap
  rw [tokpassCore_of_hasToken hguard hpavane htoken, M_bind_error _ _ _ _ (weltBudget_trap hrefused)]

/-- TOKPASS outside a pavane launch, or without the token, does nothing. -/
theorem exec_tokpass_of_no_token (h : s.grpPavane s.cur.g = false ∨ hasToken s s.cur.g = false) : exec (.tokpass o) s = .next s := by
  apply finish_ok
  rcases h with hpavane | htoken
  · simp [tokpassCore, hpavane]
  · simp [tokpassCore, htoken]

theorem tokpass_filesKept (hguard : guardG s o.h = true) : gives (.tokpass o) s fun t => filesKept [] [] [] s t := by
  by_cases hno : s.grpPavane s.cur.g = false ∨ hasToken s s.cur.g = false
  · exact ⟨s, exec_tokpass_of_no_token hno, filesKept_refl ..⟩
  · obtain ⟨hpavane, htoken⟩ : s.grpPavane s.cur.g = true ∧ hasToken s s.cur.g = true := by simpa using hno
    cases hrefused : s.me.refused with
    | none => exact ⟨_, exec_tokpass_of_hasToken hguard hpavane htoken hrefused, filesKept_passToken ..⟩
    | some a => exact ⟨_, takes_tokpass_of_refused hguard hpavane htoken hrefused, filesKept_takeTrap ..⟩

/-! ### The obligation -/

/-- Settles O54: TOKWAIT by whether the block holds the token (R275, and R267 outside a pavane launch), TOKPASS by whether there is
a token to pass and no refused FADDW to report (R265); the next holder is R266's. States that meet the hypotheses of each clause are
in `Tests.witness_PromenadeToken`. -/
theorem promenadeToken : Obligations.PromenadeToken := by
  unfold Obligations.PromenadeToken
  intro o s hguard
  refine ⟨?waits, exec_tokwait_of_holdsToken, ?passes, exec_tokpass_of_no_token, ?reports, ?noRegister⟩
  case waits =>
    intro hholds
    exact ⟨_, exec_tokwait_of_not_holdsToken hguard hholds, waitHere_wait .tokwait s, waitHere_pc .tokwait s, waitHere_out .tokwait s⟩
  case passes =>
    intro l hpavane htoken hrefused
    exact ⟨exec_tokpass_of_hasToken hguard hpavane htoken hrefused, passToken_token s l⟩
  case reports =>
    intro a hpavane htoken hrefused
    exact takes_tokpass_of_refused hguard hpavane htoken hrefused
  case noRegister =>
    intro i hi
    obtain rfl | rfl : i = .tokwait o ∨ i = .tokpass o := by simpa using hi
    · exact tokwait_filesKept hguard
    · exact tokpass_filesKept hguard

end Sys2Proof.Machine
end

section
/-! The encoding, whole (R44 to R71): every instruction's own law gives one direction of the round trip, the decoder's rows the other. -/

namespace Sys2Proof.Laws.Encoded

/-- The slot of a well-formed instruction decodes to it: the law of each row of the opcode map, in the order of the constructors. -/
theorem statement_all : ∀ i, Statement i :=
  Instr.rec
    nop bra brx call callInd ret join exit sleep sleepTok yield pln plng trap brk loop add sub mul mulhi mad madhi addc subb
    min max abs neg idiv irem sad lea and or xor andn not logt shl shr shra rot fshf bfx bfi popc clz ctz brev mov movi movh
    sel bshuf clamp cmp fcmp plop pmov poll lxch gred gscan fadd fsub fmul ffma fmin fmax fabs fneg fdiv fsqrt frcpa frsqa
    fclass fscale fgete fgetm fcopys frnd fmed3 fclamp fex2 flg2 fsin fcos fdot2 fadd2 fmul2 ffma2 cvt i2f f2i mxq mxdq bfpq
    pack unpk ld st ldw pref cresize cflush cinv femark fetest atom cas atomsc faddw wread wflush fence opfence recfence
    bara barw barx bari tokwait tokpass redix cpy cpyi cpyg cpys cpyq cpyqTest cpyqAll cpyqStat cpyx wsstage wsdrop mms mmx
    mmi acz acld acst acrd mwait mwaitTest mwaitAll mstatr mdrain mrestore mresumeMatrix mresumeCopy mresumeQuery slice rq
    bq rqr hacc hrej spcfg cover triem bvhref rclaim rcommit rawaitTake rawaitAt rretire enq deq cont launch launchGraph
    signal publish send recvp recvw probe probeTok itrep csrr csrw csrwSet csrwClr rdclk rdtime gstatr gstatw gresume
    gresumeReplay halt haltBlk svc eret proghint invalid lineExecution loadDataArrival writePerformed trapDispatch
    machineCheck admission blockPlacement staging stagingLineLand dispatchTimeout quantum sleepWake launchCompletion
    preemptionRequest blockSave blockRestore passGrant kStepCommit transferComplete copyRowLand promiseMissed queryTraversal
    queryHeldResume queryComplete spawnGroupTimeout spawnGroupPlace waiterReissue parkReissue continuationRelease
    continuationResume graphLaunchNode graphCondNode graphWhileNode graphJoinNode graphSignalNode deadline messageArrival
    ringHop ackTimer retransmit sessionTimeout pavaneDeqQuantum wsRefreshWindow powerLimitThrottle regionPowerWindow
    thermalThrottle reset rlpHello rlpWrite rlpRead rlpAtomic rlpLaunch rlpAck mgmtCtxtab mgmtKey mgmtInval mgmtResume
    mgmtHalt mgmtKill mgmtPreempt mgmtCsrr mgmtCsrw mgmtAttest mgmtFwload mgmtSavepool mgmtPort mgmtStatus mgmtPhysw
    mgmtPhysr mgmtCharges mgmtReset modeWrite rwaysWrite refcalWrite pavaneWrite ringpoolWrite errcntWrite csrWrite
    unknownMgmtOperation

end Sys2Proof.Laws.Encoded

namespace Sys2Proof

/-- A decoded slot was read by the raw decoder and passed the field rules. -/
theorem decodeSlot_ok_iff (inl : Bool) (w : Slot) (i : Instr) :
    decodeSlot inl w = .ok i ↔ decodeRaw w = .ok i ∧ wellFormed inl i = true := by
  unfold decodeSlot
  cases hraw : decodeRaw w with
  | error e => simp
  | ok j =>
    by_cases hwf : wellFormed inl j = true
    · simp only [hwf, if_true, Except.ok.injEq]
      exact ⟨fun h => ⟨h, h ▸ hwf⟩, fun h => h.1⟩
    · simp only [hwf, Bool.false_eq_true, if_false, reduceCtorEq, Except.ok.injEq, false_iff, not_and]
      rintro rfl
      exact hwf

/-- Settles O59: one direction by the law of each instruction, the other by the rows of the decoder. -/
theorem encodeDecode : Obligations.EncodeDecode := by
  unfold Obligations.EncodeDecode
  intro inl w i
  refine ⟨Laws.Encoded.statement_all i inl w, fun h => ?_⟩
  obtain ⟨hraw, hwf⟩ := (decodeSlot_ok_iff inl w i).1 h
  exact ⟨decodeRaw_encode w i hraw, hwf⟩

end Sys2Proof
end

section
/-! Format A, thread by thread (R117 to R148): where the sources are good and no enabled flag is raised, each instruction completes
by the shared frame `runA`, at its own opcode, with the result that the statement names. -/

namespace Sys2Proof.Machine

open Claim

/-- Settles O1: each instruction is the shared frame at its opcode, and its result is the statement's. -/
theorem integerResults : Obligations.IntegerResults := by
  unfold Obligations.IntegerResults
  intro o
  exact ⟨laneGives_of _ 0x10 o _ rfl fun _ => rfl,
    laneGives_of _ 0x11 o _ rfl fun _ => rfl,
    laneGives_of _ 0x12 o _ rfl fun _ => rfl,
    laneGives_of _ 0x13 o _ rfl fun _ => rfl,
    laneGives_of _ 0x14 o _ rfl fun _ => rfl,
    laneGives_of _ 0x15 o _ rfl fun _ => rfl,
    laneGives_of _ 0x16 o _ rfl fun _ => rfl,
    laneGives_of _ 0x17 o _ rfl fun _ => rfl,
    laneGives_of _ 0x18 o _ rfl fun _ => rfl,
    laneGives_of _ 0x19 o _ rfl fun _ => rfl,
    laneGives_of _ 0x1A o _ rfl fun _ => rfl,
    laneGives_of _ 0x1B o _ rfl fun _ => rfl,
    laneGives_of _ 0x1C o _ rfl fun _ => rfl,
    laneGives_of _ 0x1D o _ rfl fun _ => rfl,
    laneGives_of _ 0x1E o _ rfl fun _ => rfl,
    laneGives_of _ 0x1F o _ rfl fun _ => rfl,
    laneGives_of _ 0x36 o _ rfl fun _ => rfl⟩

/-- Settles O2: each instruction is the shared frame at its opcode. -/
theorem logicResults : Obligations.LogicResults := by
  unfold Obligations.LogicResults
  intro o
  exact ⟨laneGives_of _ 0x20 o _ rfl fun _ => rfl,
    laneGives_of _ 0x21 o _ rfl fun _ => rfl,
    laneGives_of _ 0x22 o _ rfl fun _ => rfl,
    laneGives_of _ 0x23 o _ rfl fun _ => rfl,
    laneGives_of _ 0x24 o _ rfl fun _ => rfl,
    laneGives_of _ 0x25 o _ rfl fun _ => rfl,
    laneGives_of _ 0x26 o _ rfl fun _ => rfl,
    laneGives_of _ 0x27 o _ rfl fun _ => rfl,
    laneGives_of _ 0x28 o _ rfl fun _ => rfl,
    laneGives_of _ 0x29 o _ rfl fun _ => rfl,
    laneGives_of _ 0x2A o _ rfl fun _ => rfl,
    laneGives_of _ 0x2B o _ rfl fun _ => rfl,
    laneGives_of _ 0x2C o _ rfl fun _ => rfl,
    laneGives_of _ 0x2D o _ rfl fun _ => rfl,
    laneGives_of _ 0x2E o _ rfl fun _ => rfl,
    laneGives_of _ 0x2F o _ rfl fun _ => rfl,
    laneGives_of _ 0x30 o _ rfl fun _ => rfl⟩
end Sys2Proof.Machine
end

section
/-! Format A, thread by thread: moves, predicates, floating point, conversions. -/

namespace Sys2Proof.Machine

open Claim

/-- A result may be named by any equal function. -/
theorem laneGives_congr {i : Instr} {o : FmtA} {f g : State → Nat → Res} (h : laneGives i o f) (hfg : ∀ s t, f s t = g s t) :
    laneGives i o g := by
  obtain rfl : f = g := funext fun s => funext fun t => hfg s t
  exact h

/-! ### Moves and selects (R123 to R125) -/

/-- A MOV that is not a uniform one of a v register reads its own thread. -/
theorem laneGives_mov (o : FmtA) (hu : o.h.u = false) : laneGives (.mov o) o (fun s t => bitsOf o (opA s o t)) := by
  refine laneGives_of _ 0x31 o _ rfl fun s => ?_
  show execMov o s = _
  simp only [execMov, runA, movSource, hu, Bool.false_and, Bool.false_eq_true, if_false]
  rfl

theorem runners_uniform {s : State} {h : Hdr} (hu : h.u = true) (hg : guardG s h = true) : runners s h = [0] := by
  simp [runners, hu, hg]

/-- Results that raise no flag are all written. -/
theorem putAll_quiet (u : Bool) (o : Nat → FmtA) (ts : List Nat) (f : Nat → Res) (s : State) (hf : ∀ t ∈ ts, (f t).flags = 0) :
    putAll u o (ts.map fun t => (t, f t)) s = .ok ((), writeAll o (ts.map fun t => (t, f t)) s) := by
  refine putAll_ok u o _ s fun r hr => ?_
  obtain ⟨t, ht, rfl⟩ := List.mem_map.1 hr
  rw [hf t ht]
  exact enabledFlags_zero _

theorem exec_mov_of_thread {o : FmtA} {s : State} (hu : o.h.u = true) (hv : WF.isV o.a = true) (hg : guardG s o.h = true)
    (hclean : poisonAt s.seen (readsOf (.mov o)) (bitsNat (WF.fnv o) 5 0) = false) :
    exec (.mov o) s = .next (writeAll (fun _ => o) [(0, bitsOf o (opA s o (bitsNat (WF.fnv o) 5 0)))] s) := by
  have hclean : poisonAt s.seen (readsA 0x31 o) (bitsNat (WF.fnv o) 5 0) = false := hclean
  have hput := putAll_quiet true (fun _ => o) [0] (fun t => bitResult o (movSource s o t)) s fun _ _ => rfl
  have hsource : movSource s o 0 = opA s o (bitsNat (WF.fnv o) 5 0) := by simp [movSource, hu, hv]
  rw [List.map_singleton, hsource] at hput
  refine finish_ok _ s _ ?_
  simp only [M_get_bind, runners_uniform hu hg, hu, hv, Bool.and_self, if_true, hclean, Bool.and_false, Bool.not_false,
    M_need_bind, List.map_singleton, hsource]
  exact hput

/-- MOVH reads its destination, whose poison alone can stop it. -/
theorem exec_movh_of_clean {o : FmtA} {s : State}
    (hclean : ∀ t ∈ runners s o.h, poisonAt s.seen [(o.d, if WF.isV o.d then 2 else 1)] t = false) :
    exec (.movh o) s = .next (writeAll (fun _ => o)
      ((runners s o.h).map fun t => (t, bitsOf o (srcAs s o.h.u 3 o.d t % 2 ^ 32 + o.w.toNat * 2 ^ 32))) s) := by
  refine finish_ok _ s _ ?_
  rw [M_get_bind, M_bind_ok _ _ _ _ _ (checkPoison_ok _ _ _ s hclean)]
  exact putAll_quiet _ _ _ _ s fun _ _ => rfl

/-- Settles O3: the shared frame, but for the uniform MOV of a thread's entry and for MOVH. -/
theorem moveResults : Obligations.MoveResults := by
  unfold Obligations.MoveResults
  intro o
  exact ⟨laneGives_of _ 0x32 o _ rfl fun _ => rfl,
    laneGives_of _ 0x34 o _ rfl fun _ => rfl,
    laneGives_of _ 0x35 o _ rfl fun _ => rfl, laneGives_mov o,
    fun hu hv s => exec_mov_of_thread hu hv, fun s => exec_movh_of_clean⟩

/-! ### Predicates (R126 to R128) -/

theorem laneGives_pmov (o : FmtA) (hdir : (WF.fnv o).getLsbD 0 = false) :
    laneGives (.pmov o) o (fun s t => asType 2 (predSet s o.h.u t)) := by
  refine laneGives_of _ 0x43 o _ rfl fun s => ?_
  show execPmov o s = _
  simp only [execPmov, runA, hdir, Bool.false_eq_true, if_false]
  rfl

theorem exec_pmov_set {o : FmtA} {s : State} (hdir : (WF.fnv o).getLsbD 0 = true) (hready : ready (.pmov o) o.h s) :
    exec (.pmov o) s = .next (s.updMe fun x =>
      (runners s o.h).foldl (fun x t => setPreds o.h.u x t (bitsNat (WF.fnv o) 7 1) (opA s o t)) x) := by
  refine finish_ok _ s _ ?_
  rw [M_get_bind, M_bind_ok _ _ _ _ _ (checkSources_ok o.h.u (readsA 0x43 o) (runners s o.h) s hready), if_pos hdir]
  rfl

/-- Settles O4: the shared frame, but for the PMOV that sets predicates. -/
theorem predicateResults : Obligations.PredicateResults := by
  unfold Obligations.PredicateResults
  intro o
  exact ⟨laneGives_of _ 0x40 o _ rfl fun _ => rfl,
    laneGives_of _ 0x41 o _ rfl fun _ => rfl,
    laneGives_of _ 0x42 o _ rfl fun _ => rfl, laneGives_pmov o,
    fun hdir s => exec_pmov_set hdir⟩

/-! ### Floating point and conversions (R133 to R148) -/

/-- A sign bit put in, by the bit it replaces. -/
theorem withSign_not (o : FmtA) (v : Nat) (b : Bool) :
    withSign o v (!b) = v % 2 ^ (wA o - 1) + if b then 0 else 2 ^ (wA o - 1) := by
  cases b <;> rfl

theorem laneGives_fneg (o : FmtA) : laneGives (.fneg o) o (fun s t => bitsOf o
    (opA s o t % 2 ^ (wA o - 1) + if (opA s o t).testBit (wA o - 1) then 0 else 2 ^ (wA o - 1))) :=
  laneGives_congr (laneGives_of _ 0x57 o _ rfl fun _ => rfl) fun s t =>
    congrArg (bitsOf o) (withSign_not o (opA s o t) (signOf o (opA s o t)))

/-- Settles O5: each instruction is the shared frame at its opcode, with one rounding of the exact value. -/
theorem floatResults : Obligations.FloatResults := by
  unfold Obligations.FloatResults
  intro o
  exact ⟨laneGives_of _ 0x50 o _ rfl fun _ => rfl,
    laneGives_of _ 0x51 o _ rfl fun _ => rfl,
    laneGives_of _ 0x52 o _ rfl fun _ => rfl,
    laneGives_of _ 0x53 o _ rfl fun _ => rfl,
    laneGives_of _ 0x58 o _ rfl fun _ => rfl,
    laneGives_of _ 0x59 o _ rfl fun _ => rfl,
    laneGives_of _ 0x5D o _ rfl fun _ => rfl,
    laneGives_of _ 0x54 o _ rfl fun _ => rfl,
    laneGives_of _ 0x55 o _ rfl fun _ => rfl,
    laneGives_of _ 0x5F o _ rfl fun _ => rfl,
    laneGives_of _ 0x61 o _ rfl fun _ => rfl,
    laneGives_of _ 0x62 o _ rfl fun _ => rfl,
    laneGives_of _ 0x63 o _ rfl fun _ => rfl,
    laneGives_of _ 0x56 o _ rfl fun _ => rfl, laneGives_fneg o,
    laneGives_of _ 0x60 o _ rfl fun _ => rfl,
    laneGives_of _ 0x5C o _ rfl fun _ => rfl,
    laneGives_of _ 0x5E o _ rfl fun _ => rfl⟩

/-- Settles O6: as O5. -/
theorem approximationAndPairResults : Obligations.ApproximationAndPairResults := by
  unfold Obligations.ApproximationAndPairResults
  intro o
  exact ⟨laneGives_of _ 0x5A o _ rfl fun _ => rfl,
    laneGives_of _ 0x5B o _ rfl fun _ => rfl,
    laneGives_of _ 0x64 o _ rfl fun _ => rfl,
    laneGives_of _ 0x65 o _ rfl fun _ => rfl,
    laneGives_of _ 0x66 o _ rfl fun _ => rfl,
    laneGives_of _ 0x67 o _ rfl fun _ => rfl,
    laneGives_of _ 0x68 o _ rfl fun _ => rfl,
    laneGives_of _ 0x69 o _ rfl fun _ => rfl,
    laneGives_of _ 0x6A o _ rfl fun _ => rfl,
    laneGives_of _ 0x6B o _ rfl fun _ => rfl⟩

theorem laneGives_cvt_float (o : FmtA) (hfp : isFp (tyA o) = true) : laneGives (.cvt o) o (fun s t =>
    fpOf (tyA o) (convertTo (fmtA o) (modeA s o) (satA o) (fpDecode (fmtOf (srcTy o)) (convA s o t)))) :=
  laneGives_congr (laneGives_of _ 0x80 o _ rfl fun _ => rfl) fun _ _ => if_pos hfp

theorem laneGives_cvt_int (o : FmtA) (hfp : isFp (tyA o) = false) :
    laneGives (.cvt o) o (fun s t => intOf o (intVal (srcTy o) (convA s o t)) none) :=
  laneGives_congr (laneGives_of _ 0x80 o _ rfl fun _ => rfl) fun _ _ => if_neg (Bool.eq_false_iff.1 hfp)

/-- Settles O7: as O5, CVT by the kind of its destination type. -/
theorem conversionResults : Obligations.ConversionResults := by
  unfold Obligations.ConversionResults
  intro o
  exact ⟨laneGives_cvt_float o, laneGives_cvt_int o, laneGives_of _ 0x81 o _ rfl fun _ => rfl,
    laneGives_of _ 0x82 o _ rfl fun _ => rfl,
    laneGives_of _ 0x84 o _ rfl fun _ => rfl,
    laneGives_of _ 0x86 o _ rfl fun _ => rfl,
    laneGives_of _ 0x87 o _ rfl fun _ => rfl⟩

end Sys2Proof.Machine
end

section
/-! The instructions that span a group's threads (R129 to R132, R146): the shared frame of the participants, each read and written by
its own plane's copy (R115). -/

namespace Sys2Proof.Machine

open Claim

theorem checkCollective_ok {op : Nat} {o : FmtA} {s : State} (h : collectiveReady op o s) :
    checkCollective op o (participants s o.h) s = .ok ((), s) := by
  have hstale : (participants s o.h).filter (fun t => staleAt s.seen (readsA op (copyA s o t)) t) = [] := by
    simpa [List.filter_eq_nil_iff] using fun t ht => (h t ht).1
  have hpoison : (participants s o.h).filter (fun t => poisonAt s.seen (readsA op (copyA s o t)) t) = [] := by
    simpa [List.filter_eq_nil_iff] using fun t ht => (h t ht).2
  unfold checkCollective
  simp only [M_get_bind, hstale, hpoison, M_need_bind, decide_true, if_true]
  exact need_ok _ _ _ rfl

theorem putCollective_ok {o : FmtA} {ts : List Nat} {f : Nat → Res} {s : State} (hf : ∀ t ∈ ts, enabledFlags s.me (f t).flags = 0) :
    putCollective o (ts.map fun t => (t, f t)) s = .ok ((), writeAll (copyA s o) (ts.map fun t => (t, f t)) s) := by
  unfold putCollective
  rw [M_get_bind]
  exact putAll_ok _ _ _ s (by simpa using hf)

theorem collectiveGives_of (i : Instr) (op : Nat) (o : FmtA) (f : State → List Nat → Nat → Res)
    (he : ∀ s, exec i s = finish (runCollective op o f) s) : collectiveGives op i o f := by
  intro s hready hquiet
  rw [he]
  apply finish_ok
  unfold runCollective
  rw [M_get_bind, M_bind_ok _ _ _ _ _ (checkCollective_ok hready)]
  exact putCollective_ok hquiet

theorem collectiveGives_congr {op : Nat} {i : Instr} {o : FmtA} {f g : State → List Nat → Nat → Res} (h : collectiveGives op i o f)
    (hfg : ∀ s ts t, f s ts t = g s ts t) : collectiveGives op i o g := by
  obtain rfl : f = g := funext fun s => funext fun ts => funext fun t => hfg s ts t
  exact h

/-! ### LXCH and GSCAN -/

/-- LXCH takes the operand of the source thread where that one takes part, else its own. -/
theorem collectiveGives_lxch (o : FmtA) : collectiveGives 0x45 (.lxch o) o (fun s ts t =>
    let c := copyA s o t
    let r := lxchSource o.h.rm.toNat (2 ^ (6 - bitsNat (WF.fnv o) 2 0)) t (count32B s c t)
    let ok := r.2 && ts.contains r.1.toNat
    { ty := tyA o, val := if ok then opA s (copyA s o r.1.toNat) r.1.toNat else opA s c t, q := some ok }) := by
  refine collectiveGives_congr (collectiveGives_of _ 0x45 o _ fun _ => rfl) fun s ts t => ?_
  dsimp only
  generalize lxchSource o.h.rm.toNat (2 ^ (6 - bitsNat (WF.fnv o) 2 0)) t (count32B s (copyA s o t) t) = r
  cases r.2 && ts.contains r.1.toNat <;> rfl

/-- GSCAN gives the scan's value at the thread, or before it, and the operation's identity where there is none. -/
theorem collectiveGives_gscan (o : FmtA) : collectiveGives 0x47 (.gscan o) o (fun s ts t =>
    let val := scanAll o (modeA s o) (tids.map (redIn s o ts))
    let v := if !(WF.fnv o).getLsbD 3 then (val[t]?).getD none else if t = 0 then none else (val[t - 1]?).getD none
    fpOf (tyA o) ((v.map (·.1)).getD (redIdentity o),
      val.foldl (fun f v => match v with | some r => f ||| r.2 | none => f) 0)) := by
  refine collectiveGives_congr (collectiveGives_of _ 0x47 o _ fun _ => rfl) fun s ts t => ?_
  dsimp only
  generalize scanAll o (modeA s o) (tids.map (redIn s o ts)) = val
  cases (if !(WF.fnv o).getLsbD 3 then (val[t]?).getD none else if t = 0 then none else (val[t - 1]?).getD none) <;> rfl

/-! ### GRED and POLL -/

theorem exec_gred_of_some {o : FmtA} {s : State} {r : Nat × Flags} (hready : collectiveReady 0x46 o s)
    (hr : redTree o (modeA s o) (tids.map (redIn s o (participants s o.h))) = some r) (hquiet : enabledFlags s.me r.2 = 0) :
    exec (.gred o) s = .next (writeAll (copyA s o) ((participants s o.h).map fun t => (t, fpOf (tyA o) r)) s) := by
  refine finish_ok _ s _ ?_
  rw [M_get_bind, M_bind_ok _ _ _ _ _ (checkCollective_ok hready), hr]
  exact putCollective_ok fun _ _ => hquiet

theorem exec_gred_of_none {o : FmtA} {s : State} (hready : collectiveReady 0x46 o s)
    (hr : redTree o (modeA s o) (tids.map (redIn s o (participants s o.h))) = none) : exec (.gred o) s = .next s := by
  refine finish_ok _ s _ ?_
  rw [M_get_bind, M_bind_ok _ _ _ _ _ (checkCollective_ok hready), hr]
  rfl

theorem putCollective_quiet {o : FmtA} {ts : List Nat} {f : Nat → Res} {s : State} (hf : ∀ t ∈ ts, (f t).flags = 0) :
    putCollective o (ts.map fun t => (t, f t)) s = .ok ((), writeAll (copyA s o) (ts.map fun t => (t, f t)) s) :=
  putCollective_ok fun t ht => by rw [hf t ht]; exact enabledFlags_zero _

/-- POLL's truth goes to every participant, and with pdc to the g predicate too. -/
theorem exec_poll_truth {o : FmtA} {s : State} (hmode : o.h.rm.toNat ≤ 2) :
    let v := pollTruth o.h.rm.toNat ((participants s o.h).map (pollIn s o))
    let r := writeAll (copyA s o) ((participants s o.h).map fun t => (t, { pred := some v })) s
    exec (.poll o) s = .next (if WF.pdc o && !o.h.s then r.updMe fun x => setG x (o.d.toNat % 8) v else r) := by
  refine finish_ok _ s _ ?_
  rw [M_get_bind, if_pos hmode, M_bind_ok _ _ _ _ _ (putCollective_quiet fun _ _ => rfl)]
  cases hset : WF.pdc o && !o.h.s <;> rfl

theorem exec_poll_held {o : FmtA} {s : State} (hmode : 2 < o.h.rm.toNat) :
    let held := (participants s o.h).filter (pollIn s o)
    let v := if o.h.rm.toNat = 3 then (maskOf fun t => held.contains t).toNat else held.length
    exec (.poll o) s = .next (writeAll (copyA s o) ((participants s o.h).map fun t => (t, asType o.h.t.toNat v)) s) := by
  refine finish_ok _ s _ ?_
  rw [M_get_bind, if_neg (by omega)]
  exact putCollective_quiet fun _ _ => rfl

/-- Settles O8: the shared frame, but for GRED, whose result may be absent, and POLL, which checks no sources. -/
theorem collectiveResults : Obligations.CollectiveResults := by
  unfold Obligations.CollectiveResults
  intro o
  exact ⟨collectiveGives_lxch o, collectiveGives_gscan o, collectiveGives_of _ 0x83 o _ fun _ => rfl,
    collectiveGives_of _ 0x85 o _ fun _ => rfl, fun s r => exec_gred_of_some, fun s => exec_gred_of_none,
    fun s => exec_poll_truth, fun s => exec_poll_held⟩

end Sys2Proof.Machine
end

section
/-! Format M (R243 to R276): with good accesses the shared frame runs the instruction's body on every runner's place
(`runM_ok`), and the body's own checks go through where the state is as the statement says. -/

namespace Sys2Proof.Machine

open Claim

/-- With good accesses an instruction that adds no check completes as its body does. -/
theorem finish_runM {i : Instr} {o : FmtM} {indexed : Bool} {data : List FieldUse} {n al : Nat} {nd : Need}
    {extra : List Place → M Unit} {mk : State → Nat → Nat × Nat} {body : List (Place × Part) → M Unit} {s t : State}
    (hgood : accessGood o indexed data n al nd s) (hextra : extra ((placed o indexed nd mk s).map (·.1)) s = .ok ((), s))
    (hbody : body (placed o indexed nd mk s) s = .ok ((), t)) :
    finish (runM i o indexed data n al nd extra mk body) s = .next t :=
  finish_ok _ s t ((runM_ok i o indexed data n al nd extra mk body s hgood hextra).trans hbody)

/-! ### Loads and stores -/

/-- Settles O9: LD and LDW by the frame and the load's own checks; PREF has none. -/
theorem loadResults : Obligations.LoadResults := by
  unfold Obligations.LoadResults
  intro o s
  refine ⟨fun hgood hfull hready => ?_, fun hgood hfull hready => ?_, rfl⟩
  · exact finish_runM hgood rfl (loadBody_ok o false _ _ s hfull hready)
  · exact finish_runM hgood rfl (loadBody_ok o true _ _ s hfull hready)

/-- Check 4 of Table 9-2: the weight store may be written, or there is nothing to write. -/
theorem wsCheck_ok {o : FmtM} {ps : List (Place × Part)} {s : State}
    (h : o.space.toNat = 2 → (s.grpLch s.cur.g).flag 4 = true ∨ ps = []) : wsCheck o (ps.map (·.1)) s = .ok ((), s) := by
  unfold wsCheck
  rw [M_get_bind]
  refine need_ok _ _ _ ?_
  by_cases hws : o.space.toNat = 2
  · rcases h hws with hflag | rfl
    · simp [hflag]
    · simp
  · simp [hws]

theorem storeBody_ok {o : FmtM} {n : Nat} {ps : List (Place × Part)} {s : State} (htoken : tokenHeld ps s)
    (horder : ps ≠ [] → orderReady o s) : storeBody o n ps s = .ok ((), storeAll o n ps s) := by
  unfold storeBody
  rw [M_get_bind, if_neg (by simp [promWaits_false ps s htoken])]
  rw [ifM_ok _ weltBudget _ _ fun hc => ?budget, ifM_ok _ needReads _ _ fun hc => ?reads]
  · rfl
  case budget =>
    obtain ⟨hrel, hne⟩ : isRel o.order.toNat = true ∧ ps ≠ [] := by simpa using hc
    exact weltBudget_ok s ((horder hne).1 hrel)
  case reads =>
    obtain ⟨hcase, hne⟩ : (isRel o.order.toNat = true ∨ o.space.toNat = 2) ∧ ps ≠ [] := by simpa using hc
    exact needReads_ok s ((horder hne).2 (hcase.imp_right .inr))

/-- Settles O10: the frame, check 4, and the stores. -/
theorem storeResults : Obligations.StoreResults := by
  unfold Obligations.StoreResults
  intro o s ps hgood hws htoken horder
  exact finish_runM hgood (wsCheck_ok hws) (storeBody_ok htoken horder)

/-! ### Cache control -/

theorem exec_cresize_ok {o : FmtM} {s : State} (hg : guardG s o.h = true) (hgood : good s (use1 o.a) [0]) :
    exec (.cresize o) s = .next (resizeTo o (signedNat 64 (srcAs s true 7 o.a 0)) s) := by
  refine finish_ok (cresizeCore o) s _ ?_
  unfold cresizeCore
  rw [M_get_bind, if_neg (by simp [hg]), M_bind_ok _ _ _ _ _ (checkSources_ok true _ [0] s hgood)]
  rfl

theorem flushCore_ok {o : FmtM} {s : State} (drop : Bool) (hg : guardG s o.h = true) (hgood : good s (addressUses o true) [0]) :
    flushCore o drop s = .ok ((), flushLines drop (flushedLines s o) s) := by
  unfold flushCore
  rw [M_get_bind, if_neg (by simp [hg]), M_bind_ok _ _ _ _ _ (checkSources_ok true _ [0] s hgood)]
  rfl

theorem femarkCore_ok {o : FmtM} {s : State} (hg : guardG s o.h = true) (hgood : good s (addressUses o true) [0])
    (hin : lengthB s o ≠ 0 → 0 ≤ eaOf s { o with b := 0x148#10 } true 0
      ∧ (eaOf s { o with b := 0x148#10 } true 0 / 128 + lengthB s o) * 128 ≤ (s.blk s.me.block).spSize)
    (halign : eaOf s { o with b := 0x148#10 } true 0 % 128 = 0) :
    femarkCore o s = .ok ((), markLines (WF.bit79 o) s.me.block (eaOf s { o with b := 0x148#10 } true 0).toNat (lengthB s o) s) := by
  unfold femarkCore
  rw [M_get_bind, if_neg (by simp [hg]), M_bind_ok _ _ _ _ _ (checkStale_ok true _ [0] s fun t ht => (hgood t ht).1)]
  simp only [M_need_bind, halign, decide_true, if_true]
  rw [if_pos, M_bind_ok _ _ _ _ _ (checkPoison_ok true _ [0] s fun t ht => (hgood t ht).2)]
  · rfl
  · by_cases hn : lengthB s o = 0
    · simp [hn]
    · simpa [hn] using hin hn

/-- The lines that FETEST looks at lie in the scratchpad. -/
def testIn (o : FmtM) (s : State) (n : Nat) (t : Nat) : Prop :=
  n ≠ 0 → 0 ≤ eaOf s { o with b := 0x148#10 } true t ∧
    if o.h.u then (eaOf s { o with b := 0x148#10 } true t / 128 + n) * 128 ≤ (s.grpBlk s.cur.g).spSize
    else eaOf s { o with b := 0x148#10 } true t < (s.grpBlk s.cur.g).spSize

theorem fetestCore_ok {o : FmtM} {s : State} (hgood : good s (addressUses o o.h.u) (runners s o.h))
    (hin : ∀ t ∈ runners s o.h, testIn o s (if o.h.u then lengthB s o else 1) t) :
    fetestCore o s = .ok ((), putTest o ((runners s o.h).map fun t => (t, (List.range (if o.h.u then lengthB s o else 1)).all fun i =>
      lineFull (s.grpBlk s.cur.g) ((eaOf s { o with b := 0x148#10 } true t).toNat / 128 + i))) s) := by
  unfold fetestCore
  rw [M_get_bind, M_bind_ok _ _ _ _ _ (checkStale_ok o.h.u _ _ s fun t ht => (hgood t ht).1)]
  simp only [M_need_bind]
  rw [if_pos, M_bind_ok _ _ _ _ _ (checkPoison_ok o.h.u _ _ s fun t ht => (hgood t ht).2)]
  · simp only [M_upd, List.map_map]
    rfl
  · simp only [decide_eq_true_eq, List.filter_eq_nil_iff, List.mem_map]
    rintro e ⟨t, ht, rfl⟩
    have hin := hin t ht
    unfold testIn at hin
    by_cases hn : (if o.h.u then lengthB s o else 1) = 0
    · simp [hn]
    · obtain ⟨hlow, hhigh⟩ := hin hn
      cases hu : o.h.u
      · simp only [hu, Bool.false_eq_true, if_false] at hhigh ⊢
        simp; omega
      · simp only [hu, if_true] at hhigh hn ⊢
        simp; omega

/-- Settles O11: each goes through its checks; with a false guard none of the uniform four acts. -/
theorem cacheControlResults : Obligations.CacheControlResults := by
  unfold Obligations.CacheControlResults
  intro o s
  refine ⟨exec_cresize_ok, fun hg hgood => ⟨?flush, ?inv⟩, fun hg hgood hin halign => ?mark, fun hgood hin => ?test, fun hg i hi => ?off⟩
  case flush => exact finish_ok _ s _ (flushCore_ok false hg hgood)
  case inv => exact finish_ok _ s _ (flushCore_ok true hg hgood)
  case mark => exact finish_ok _ s _ (femarkCore_ok hg hgood hin halign)
  case test => exact finish_ok _ s _ (fetestCore_ok hgood hin)
  case off =>
    obtain rfl | rfl | rfl | rfl : i = .cresize o ∨ i = .cflush o ∨ i = .cinv o ∨ i = .femark o := by simpa using hi
    · exact finish_ok (cresizeCore o) s s (by simp [cresizeCore, hg])
    · exact finish_ok (flushCore o false) s s (by simp [flushCore, hg])
    · exact finish_ok (flushCore o true) s s (by simp [flushCore, hg])
    · exact finish_ok (femarkCore o) s s (by simp [femarkCore, hg])

end Sys2Proof.Machine
end

section
/-! Atomics, welt operations, REDIX and the fences (R258 to R276): the accesses are ordered (`ordered_ok`), and act where no line
is empty, the token is held, and the group's loads can be read. -/

namespace Sys2Proof.Machine

open Claim

/-! ### Atomics -/

/-- ATOM and CAS wait for no empty line: the accesses are ordered. -/
theorem atomBody_ok {o : FmtM} {f : Part → Nat → Option Nat} {ps : List (Place × Part)} {s : State} (hfull : linesFull o ps s)
    (htoken : tokenHeld ps s) (horder : ps ≠ [] → orderReady o s) :
    atomBody o f ps s = .ok ((), if ps = [] then s else around o (atomAll o f ps) s) := by
  unfold atomBody
  simp only [M_get_bind, beforeEmpty_none o ps s hfull]
  exact ordered_ok o ps true _ s hfull (fun _ => promWaits_false ps s htoken) horder

/-- Settles O12: the frame, then the ordered accesses. -/
theorem atomicResults : Obligations.AtomicResults := by
  unfold Obligations.AtomicResults
  intro o s
  refine ⟨?_, ?_, ?_⟩
  all_goals
    rintro ⟨hgood, hfull, htoken, horder⟩
    refine finish_runM hgood rfl ?_
  · exact atomBody_ok hfull htoken horder
  · exact atomBody_ok hfull htoken horder
  · exact ordered_ok o _ true _ s hfull (fun _ => promWaits_false _ s htoken) horder

/-! ### Welt operations -/

theorem weltReadBody_ok {o : FmtM} {free : Bool} {ps : List (Place × Part)} {s : State} (hspace : o.space.toNat = 0)
    (htoken : free = true → tokenHeld ps s) (horder : ps ≠ [] → orderReady o s ∧ s.me.refused = none) :
    weltReadBody o free ps s = .ok ((), if ps = [] then s else around o (weltReadAll o free ps) s) := by
  unfold weltReadBody
  rw [M_get_bind, if_neg, ifM_ok _ weltBudget _ _ fun hne => weltBudget_ok s (horder hne).2]
  · exact ordered_ok o ps false _ s (linesFull_memory o ps s hspace) (fun h => nomatch h) fun hne => (horder hne).1
  · cases free
    · simp
    · simp [promWaits_false ps s (htoken rfl)]

/-- Settles O13: the frame, then the ordered operations on the entries. -/
theorem weltResults : Obligations.WeltResults := by
  unfold Obligations.WeltResults
  intro o s hspace
  refine ⟨fun hgood horder => ?_, fun hgood horder => ?_, fun hgood horder htoken => ?_⟩
  all_goals refine finish_runM hgood rfl ?_
  · exact ordered_ok o _ false _ s (linesFull_memory o _ s hspace) (fun h => nomatch h) horder
  · exact weltReadBody_ok hspace (fun h => nomatch h) horder
  · exact weltReadBody_ok hspace (fun _ => htoken) horder

/-! ### REDIX -/

/-- Settles O14: the ordered contributions end with their results, or held. -/
theorem redixResults : Obligations.RedixResults := by
  unfold Obligations.RedixResults
  intro o s ps s1 r hspace hgood hne horder after
  have hrun : exec (.redix o) s = .next (around o (redixAll o ps) s) := by
    refine finish_runM hgood rfl ((ordered_ok o ps false _ s (linesFull_memory o ps s hspace) (fun h => nomatch h) fun _ => horder).trans ?_)
    rw [if_neg hne]
  rw [hrun]
  have hall : redixAll o ps s1 = if r.2.2 then putGot o 2 ps r.2.1 (holdNone r.1) else stalled (holdAt r.2.1 r.1) := rfl
  have haround (t : State) (ht : redixAll o ps s1 = t) : around o (redixAll o ps) s
      = if isAcq o.order.toNat then doAcquire (sampleAllOwn t s.cur.g) s.cur.g o.scope.toNat else t := by
    rw [← ht]; rfl
  refine ⟨fun hend => ?_, fun hheld => ?_⟩
  · rw [haround _ (hall.trans (if_pos hend))]
  · rw [haround _ (hall.trans (if_neg (by simp [hheld])))]

/-! ### Fences and the Promenade token -/

theorem fenceCore_ok {o : FmtM} {s : State} (hg : guardG s o.h = true) (hrel : isRel o.order.toNat = true → s.me.refused = none)
    (hreads : readsReady s) : fenceCore o s = .ok ((), around o id s) := by
  unfold fenceCore
  rw [M_get_bind, if_neg (by simp [hg]), ifM_ok _ weltBudget _ _ fun hc => weltBudget_ok s (hrel hc),
    M_bind_ok _ _ _ _ _ (needReads_ok s hreads)]
  rfl

theorem recfenceCore_ok {o : FmtM} {s : State} (hg : guardG s o.h = true) (hgood : good s (use1 o.a) [0]) :
    recfenceCore o s = .ok ((), (writeBackAll s (placeCore s.cur.g)).updCore (placeCore s.cur.g) fun x =>
      { x with records := if WF.un o.a then [] else x.records.filter fun r =>
          !(r.1 = s.ctxOf s.cur.g && (r.2.1 : Int) = eaOf s { o with space := 0 } false 0) }) := by
  unfold recfenceCore
  rw [M_get_bind, if_neg (by simp [hg]), M_bind_ok _ _ _ _ _ (checkSources_ok true _ [0] s hgood)]
  rfl

/-- Settles O15: each fence goes through its checks; the token instructions by whether the block holds the token. -/
theorem fenceResults : Obligations.FenceResults := by
  unfold Obligations.FenceResults
  intro o s
  refine ⟨fun hg hrel hreads => ?fence, fun hg => ?opfence, fun hg hgood => ?recfence, exec_tokwait_of_holdsToken,
    fun hg hpavane htoken hrefused => exec_tokpass_of_hasToken hg hpavane htoken hrefused, fun hg i hi => ?off⟩
  case fence => exact finish_ok _ s _ (fenceCore_ok hg hrel hreads)
  case opfence => exact finish_ok (opfenceCore o) s _ (by simp [opfenceCore, hg])
  case recfence => exact finish_ok _ s _ (recfenceCore_ok hg hgood)
  case off =>
    obtain rfl | rfl | rfl | rfl | rfl :
        i = .fence o ∨ i = .opfence o ∨ i = .recfence o ∨ i = .tokwait o ∨ i = .tokpass o := by simpa using hi
    · exact finish_ok (fenceCore o) s s (by simp [fenceCore, hg])
    · exact finish_ok (opfenceCore o) s s (by simp [opfenceCore, hg])
    · exact finish_ok (recfenceCore o) s s (by simp [recfenceCore, hg])
    · exact finish_ok (tokwaitCore o) s s (by simp [tokwaitCore, hg])
    · exact finish_ok (tokpassCore o) s s (by simp [tokpassCore, hg])

end Sys2Proof.Machine
end

section
/-! Control flow (R330 to R336): the check of a transfer's target moves only the dies' counts of corrected lines, so what follows it reads the
group as it stood; each form then takes the branch of its meaning that its clause names. -/

namespace Sys2Proof.Machine

open Claim

/-- Two states that differ in the dies alone read the same as the group being issued. -/
def sameIssue (s t : State) : Prop := ∃ ds, t = { s with dies := ds }

theorem sameIssue_trans {s t v : State} (h1 : sameIssue s t) (h2 : sameIssue t v) : sameIssue s v := by
  obtain ⟨ds1, rfl⟩ := h1
  obtain ⟨ds2, rfl⟩ := h2
  exact ⟨ds2, rfl⟩

/-- The check of a target changes the dies' counts alone. -/
theorem sameIssue_of_lands {s t : State} {u : Bool} {line : Int} {slot : Nat} (h : lands s u line slot t) : sameIssue s t := by
  obtain ⟨-, -, -, r, -, rfl⟩ := h
  unfold countCorrected
  split
  · exact ⟨s.dies, rfl⟩
  · exact ⟨_, rfl⟩

theorem sameIssue_of_convergenceLands {s t : State} {o : FmtC} (h : convergenceLands s o t) : sameIssue s t := by
  unfold convergenceLands at h
  split at h
  · exact sameIssue_of_lands h
  · exact ⟨s.dies, h⟩

section Reads
variable {s t : State} (h : sameIssue s t)
include h
theorem guardG_sameIssue (o : Hdr) : guardG t o = guardG s o := by obtain ⟨ds, rfl⟩ := h; rfl
theorem participantMask_sameIssue (o : Hdr) : participantMask t o = participantMask s o := by obtain ⟨ds, rfl⟩ := h; rfl
theorem me_sameIssue : t.me = s.me := by obtain ⟨ds, rfl⟩ := h; rfl
theorem offsetAt_sameIssue (l : BitVec 24) (n : BitVec 3) : offsetAt t l n = offsetAt s l n := by obtain ⟨ds, rfl⟩ := h; rfl
end Reads

/-- A transfer that splits the active threads, where it does, has a convergence target and room on the stack (checks 3 and 4 of R330). -/
theorem split_ok {o : FmtC} {n : Nat} {s : State} (c : Prop) [Decidable c] (m : Unit → M Unit)
    (h : c → rcOf o = true ∧ s.me.stack.length + n ≤ 64) :
    (if c then (do need (rcOf o) (convergenceTrap s false); needDepth n >>= m) else m ()) s = m () s := by
  split
  · rename_i hc
    rw [M_need_bind, if_pos (h hc).1, M_bind_ok _ _ _ _ _ (needDepth_ok n s (h hc).2)]
  · rfl

/-! ### BRA -/

section Bra
variable {o : FmtC} {s s1 s2 : State} (h1 : lands s o.h.u (lineAt s o.tline) o.tslot.toNat s1) (h2 : convergenceLands s1 o s2)
include h1 h2

theorem exec_bra_of_uniform (hu : o.h.u = true) :
    exec (.bra o) s = .next (if guardG s o.h then s2.updMe fun x => goTo x (offsetAt s o.tline o.tslot) else s2) := by
  refine finish_ok _ s _ (checkField_ok _ _ _ _ _ _ _ h1 (checkRc_ok o _ _ _ _ h2 ?_))
  have hs := sameIssue_trans (sameIssue_of_lands h1) (sameIssue_of_convergenceLands h2)
  rw [M_get_bind, if_pos hu, guardG_sameIssue hs, offsetAt_sameIssue hs]
  cases guardG s o.h <;> rfl

theorem exec_bra_of_none (hu : o.h.u = false) (htaken : participantMask s o.h = 0) : exec (.bra o) s = .next s2 := by
  refine finish_ok _ s _ (checkField_ok _ _ _ _ _ _ _ h1 (checkRc_ok o _ _ _ _ h2 ?_))
  have hs := sameIssue_trans (sameIssue_of_lands h1) (sameIssue_of_convergenceLands h2)
  rw [M_get_bind, if_neg (by simp [hu]), participantMask_sameIssue hs, if_pos htaken]
  rfl

theorem exec_bra_of_all (hu : o.h.u = false) (htaken : participantMask s o.h ≠ 0)
    (hfall : s.me.live &&& ~~~(participantMask s o.h) = 0) :
    exec (.bra o) s = .next (s2.updMe fun x => goTo x (offsetAt s o.tline o.tslot)) := by
  refine finish_ok _ s _ (checkField_ok _ _ _ _ _ _ _ h1 (checkRc_ok o _ _ _ _ h2 ?_))
  have hs := sameIssue_trans (sameIssue_of_lands h1) (sameIssue_of_convergenceLands h2)
  rw [M_get_bind, if_neg (by simp [hu]), participantMask_sameIssue hs, me_sameIssue hs, offsetAt_sameIssue hs, if_neg htaken, if_pos hfall]
  rfl

theorem exec_bra_of_split (hu : o.h.u = false) (htaken : participantMask s o.h ≠ 0)
    (hfall : s.me.live &&& ~~~(participantMask s o.h) ≠ 0) (hrc : rcOf o = true) (hdepth : s2.me.stack.length + 2 ≤ 64) :
    exec (.bra o) s = .next (s2.updMe fun x =>
      { x with stack := { offset := offsetAt s o.tline o.tslot, kind := .deferred, mask := participantMask s o.h }
                 :: { offset := offsetAt s o.cline o.cslot, kind := .rejoin, mask := x.live } :: x.stack,
               live := s.me.live &&& ~~~(participantMask s o.h) }) := by
  refine finish_ok _ s _ (checkField_ok _ _ _ _ _ _ _ h1 (checkRc_ok o _ _ _ _ h2 ?_))
  have hs := sameIssue_trans (sameIssue_of_lands h1) (sameIssue_of_convergenceLands h2)
  rw [M_get_bind, if_neg (by simp [hu]), participantMask_sameIssue hs, me_sameIssue hs, offsetAt_sameIssue hs, offsetAt_sameIssue hs,
    if_neg htaken, if_neg hfall, M_need_bind, if_pos hrc, M_bind_ok _ _ _ _ _ (needDepth_ok 2 s2 hdepth)]
  rfl

end Bra

/-! ### BRX and JOIN -/

section Brx
variable {o : FmtC} {s s1 s2 : State}

theorem exec_brx_of_guard (hu : o.h.u = true) (hg : guardG s o.h = true)
    (h1 : landsAt s true (readK s.seen (o.a.toNat - 0x100) % 2 ^ 27) s1) (h2 : convergenceLands s1 o s2) (hclean : clean s2 (use1 o.a)) :
    exec (.brx o) s = .next (s2.updMe fun x => goTo x (readK s.seen (o.a.toNat - 0x100) % 2 ^ 27)) := by
  refine finish_ok (brxCore o) s _ ?_
  unfold brxCore
  rw [M_get_bind, if_pos hu, if_pos hg]
  refine checkOffset_ok _ _ _ _ _ _ h1 (checkRc_ok o _ _ _ _ h2 ?_)
  rw [M_bind_ok _ _ _ _ _ (checkPoison_ok true _ [0] _ (clean_good _ _ hclean))]
  rfl

theorem exec_brx_of_off (hu : o.h.u = true) (h1 : convergenceLands s o s1) (hg : guardG s o.h = false) :
    exec (.brx o) s = .next s1 := by
  refine finish_ok (brxCore o) s _ ?_
  unfold brxCore
  rw [M_get_bind, if_pos hu, if_neg (by simp [hg])]
  exact checkRc_ok o _ _ _ _ h1 rfl

/-- The ascending targets of a BRX, without repeats. -/
def brxTargets (s : State) (o : FmtC) : List Nat :=
  (participants s o.h).foldl (fun l t => insertAsc (src32 s false (ownA s o t) t % 2 ^ 27) l) []

theorem exec_brx_of_threads (hu : o.h.u = false) (hclean : ∀ t ∈ participants s o.h, poisonAt s.seen (use1 (ownA s o t)) t = false)
    (h1 : ∀ t ∈ brxTargets s o, landsAt s false t s) (h2 : convergenceLands s o s)
    (hsplit : (brxTargets s o).length + (if s.me.live &&& ~~~(participantMask s o.h) = 0 then 0 else 1) ≤ 1
      ∨ (rcOf o = true ∧ s.me.stack.length + 1 + (brxTargets s o).length ≤ 64)) :
    exec (.brx o) s = .next (if participants s o.h = [] then s else s.updMe fun x =>
      brxPaths (brxTargets s o) (fun t => maskOf fun i => (participants s o.h).contains i && src32 s false (ownA s o i) i % 2 ^ 27 = t)
        (s.me.live &&& ~~~(participantMask s o.h)) (offsetAt s o.cline o.cslot) x) := by
  refine finish_ok (brxCore o) s _ ?_
  have hbad : ((participants s o.h).filter fun t => poisonAt s.seen (use1 (ownA s o t)) t) = [] := by
    simpa [List.filter_eq_nil_iff] using hclean
  unfold brxCore
  rw [M_get_bind, if_neg (by simp [hu])]
  refine checkOffsets_ok _ _ _ _ h1 (checkRc_ok o _ _ _ _ h2 ?_)
  by_cases hts : participants s o.h = []
  · rw [if_pos hts, if_pos hts]
    rfl
  · rw [if_neg hts, if_neg hts]
    refine (split_ok _ _ fun hmany => ?_).trans ?_
    · rcases hsplit with hone | ⟨hrc, hdepth⟩
      · exact absurd hmany (Nat.not_lt.mpr hone)
      · exact ⟨hrc, by rw [← Nat.add_assoc]; exact hdepth⟩
    · exact M_bind_ok _ _ s s () (need_ok _ _ s (decide_eq_true hbad))

theorem exec_join_of_pops {e : StackEntry} {rest : List StackEntry} (h : joinPops s.me.stack s.cur.off = true) (hs : s.me.stack = e :: rest) :
    exec (.join o) s
      = .next (resume (s.updMe fun x => goTo { x with stack := rest, live := e.mask &&& x.resident } e.offset) s.cur.g) :=
  finish_ok joinCore s _ (by rw [joinCore, M_upd, if_pos h, hs])

theorem exec_join_of_not_pops (h : joinPops s.me.stack s.cur.off = false) : exec (.join o) s = .next s :=
  finish_ok joinCore s s (by simp [joinCore, h])

end Brx

/-- Settles O16: each way a branch can go. -/
theorem branchResults : Obligations.BranchResults := by
  unfold Obligations.BranchResults
  intro o s s1 s2
  refine ⟨rfl, fun h1 h2 => ⟨exec_bra_of_uniform h1 h2, exec_bra_of_none h1 h2, exec_bra_of_all h1 h2, exec_bra_of_split h1 h2⟩,
    exec_brx_of_guard, exec_brx_of_off, exec_brx_of_threads, exec_join_of_not_pops, fun h e rest hs => exec_join_of_pops h hs⟩

end Sys2Proof.Machine
end

section
/-! Calls, exits, waits, planes and barriers (R334 to R345). -/

namespace Sys2Proof.Machine

open Claim

/-! ### CALL, RET, EXIT and LOOP -/

/-- The group as a call by the threads p to offset t leaves it. -/
def called (p : Mask) (t : Nat) (s : State) : State :=
  s.updMe fun x => goTo { x with stack := { offset := (s.cur.off + 1) % 2 ^ 27, kind := .call, mask := x.live } :: x.stack, live := p } t

theorem callTo_none (t : Nat) (k : List FieldUse) (s : State) : callTo 0 t k s = .ok ((), s) := rfl

theorem callTo_ok {p : Mask} {t : Nat} {k : List FieldUse} {s : State} (hp : p ≠ 0) (hclean : clean s k)
    (hdepth : s.me.stack.length + 1 ≤ 64) :
    callTo p t k s = .ok ((), called p t s) := by
  unfold callTo
  rw [if_neg hp, M_bind_ok _ _ _ _ _ (needDepth_ok 1 s hdepth), M_bind_ok _ _ _ _ _ (checkPoison_ok true k [0] s (clean_good s k hclean))]
  rfl

/-- Either no thread calls, or the call is made. -/
theorem callTo_both {p : Mask} {t : Nat} {k : List FieldUse} {s : State} (h : p ≠ 0 → clean s k ∧ s.me.stack.length + 1 ≤ 64) :
    callTo p t k s = .ok ((), if p = 0 then s else called p t s) := by
  by_cases hp : p = 0
  · rw [hp, if_pos rfl, callTo_none]
  · rw [if_neg hp, callTo_ok hp (h hp).1 (h hp).2]

variable {o : FmtC} {s s1 : State}

theorem exec_call_of_lands (h1 : lands s o.h.u (lineAt s o.tline) o.tslot.toNat s1)
    (hdepth : participantMask s o.h ≠ 0 → s1.me.stack.length + 1 ≤ 64) :
    exec (.call o) s = .next (if participantMask s o.h = 0 then s1
      else called (participantMask s o.h) (offsetAt s o.tline o.tslot) s1) := by
  refine finish_ok _ s _ (checkField_ok _ _ _ _ _ _ _ h1 ?_)
  have hs := sameIssue_of_lands h1
  rw [M_get_bind, participantMask_sameIssue hs, offsetAt_sameIssue hs]
  exact callTo_both fun hp => ⟨rfl, hdepth hp⟩

theorem exec_callInd_of_lands (h1 : landsAt s false (readK s.seen (o.a.toNat - 0x100) % 2 ^ 27) s1)
    (hready : participantMask s o.h ≠ 0 → clean s1 (use1 o.a) ∧ s1.me.stack.length + 1 ≤ 64) :
    exec (.callInd o) s = .next (if participantMask s o.h = 0 then s1
      else called (participantMask s o.h) (readK s.seen (o.a.toNat - 0x100) % 2 ^ 27) s1) := by
  refine finish_ok (callIndCore o) s _ ?_
  unfold callIndCore
  rw [M_get_bind]
  exact checkOffset_ok _ _ _ _ _ _ h1 (callTo_both hready)

theorem exitCore_none (hp : participantMask s o.h = 0) : exitCore o s = .ok ((), s) := by
  rw [exitCore, M_get_bind, if_pos hp]
  rfl

theorem exec_exit_of_none (hp : participantMask s o.h = 0) : exec (.exit o) s = .next s :=
  finish_ok (exitCore o) s s (exitCore_none hp)

theorem exec_ret_of_none (hp : participantMask s o.h = 0) : exec (.ret o) s = .next s :=
  finish_ok (retCore o) s s (by rw [retCore, M_get_bind, if_pos hp]; rfl)

/-- With no call entry RET is EXIT. -/
theorem exec_ret_of_no_call (h : (s.me.stack.findIdx? fun e => e.kind = .call) = none) : exec (.ret o) s = exec (.exit o) s := by
  by_cases hp : participantMask s o.h = 0
  · rw [exec_ret_of_none hp, exec_exit_of_none hp]
  · have hcore : retCore o s = exitCore o s := by rw [retCore, M_get_bind, if_neg hp, h]
    show finish (retCore o) s = finish (exitCore o) s
    rw [finish, hcore]
    rfl

theorem exec_ret_of_call {i : Nat} (hp : participantMask s o.h ≠ 0) (h : (s.me.stack.findIdx? fun e => e.kind = .call) = some i) :
    exec (.ret o) s = .next (afterLeave (s.updMe fun x =>
      { x with live := x.live &&& ~~~(participantMask s o.h),
               stack := dropMask (participantMask s o.h) (x.stack.take i) ++ x.stack.drop i })) :=
  finish_ok (retCore o) s _ (by rw [retCore, M_get_bind, if_neg hp, h]; rfl)

/-- EXIT leaves where no refused FADDW is to be reported and, of the last threads, no instruction stands in the operand log. -/
theorem exec_exit_of_ready (hp : participantMask s o.h ≠ 0) (hbudget : s.me.refused = none)
    (hreads : finishesAny s s.cur.g (maskTids (participantMask s o.h)) = true → readsReady s)
    (hlog : decide (s.me.resident &&& ~~~(participantMask s o.h) = 0) = true → ∀ e ∈ s.oplog, e.g ≠ s.cur.g ∨ e.uid ≠ s.me.uid) :
    exec (.exit o) s = .next (exitThreads (decide (s.me.resident &&& ~~~(participantMask s o.h) = 0)) (participantMask s o.h)
      (finishOf s s.cur.g (maskTids (participantMask s o.h)))) := by
  refine finish_ok (exitCore o) s _ ?_
  have hlast : (decide (s.me.resident &&& ~~~(participantMask s o.h) = 0) && s.oplog.any fun e => e.g = s.cur.g && e.uid = s.me.uid) = false := by
    rw [Bool.and_eq_false_imp]
    intro hl
    rw [List.any_eq_false]
    intro e he
    rcases hlog hl e he with h | h <;> simp [h]
  unfold exitCore
  rw [M_get_bind, if_neg hp, M_bind_ok _ _ _ _ _ (weltBudget_ok s hbudget), ifM_ok _ needReads _ _ fun hc => needReads_ok s (hreads hc),
    if_neg (by simpa using hlast)]
  rfl

theorem exec_loop_of_off (h1 : lands s true (lineAt s o.tline) o.tslot.toNat s1) (hg : guardG s o.h = false) :
    exec (.loop o) s = .next s1 := by
  refine finish_ok _ s _ (checkField_ok _ _ _ _ _ _ _ h1 ?_)
  rw [M_get_bind, guardG_sameIssue (sameIssue_of_lands h1), hg]
  rfl

theorem exec_loop_of_guard (h1 : lands s true (lineAt s o.tline) o.tslot.toNat s1) (hg : guardG s o.h = true) (hclean : clean s1 (use1 o.a)) :
    exec (.loop o) s = .next (s1.updMe fun x =>
      if (readK s1.seen (o.a.toNat - 0x100) + (2 ^ 64 - 1)) % 2 ^ 64 = 0
      then writeDest x o.h o.a 3 0 ((readK s1.seen (o.a.toNat - 0x100) + (2 ^ 64 - 1)) % 2 ^ 64)
      else goTo (writeDest x o.h o.a 3 0 ((readK s1.seen (o.a.toNat - 0x100) + (2 ^ 64 - 1)) % 2 ^ 64)) (offsetAt s1 o.tline o.tslot)) := by
  refine finish_ok _ s _ (checkField_ok _ _ _ _ _ _ _ h1 ?_)
  rw [M_get_bind, guardG_sameIssue (sameIssue_of_lands h1), hg]
  exact M_bind_ok _ _ s1 s1 () (checkPoison_ok true _ [0] s1 (clean_good _ _ hclean))

/-- Settles O17: each form, and RET without a call entry is EXIT. -/
theorem callResults : Obligations.CallResults := by
  unfold Obligations.CallResults
  intro o s s1
  refine ⟨exec_call_of_lands, exec_callInd_of_lands, fun hp => ⟨exec_ret_of_none hp, exec_exit_of_none hp⟩, fun i => exec_ret_of_call,
    exec_ret_of_no_call, exec_exit_of_ready, exec_loop_of_off, exec_loop_of_guard⟩

/-! ### Waits and planes -/

theorem exec_sleep_of_guard (hg : guardG s o.h = true) (hclean : clean s (use1 o.a)) :
    exec (.sleep o) s = .next (
      if min (2 ^ 32 - 1) (kOrImm s o.a) = 0 then s
      else if s.grpPavane s.cur.g then
        blockOn s s.cur.g (.sleepTurns ((s.core (placeCore s.cur.g)).turns + min (2 ^ 32 - 1) (kOrImm s o.a)))
      else blockOn s s.cur.g (.sleep (s.clock + min (2 ^ 32 - 1) (kOrImm s o.a)))) := by
  refine finish_ok (sleepCore o) s _ ?_
  unfold sleepCore
  rw [M_get_bind, if_neg (by simp [hg]), M_bind_ok _ _ _ _ _ (checkPoison_ok true _ [0] s (clean_good _ _ hclean))]
  by_cases ha : min (2 ^ 32 - 1) (kOrImm s o.a) = 0
  · rw [if_pos ha, if_pos ha]
    rfl
  · rw [if_neg ha, if_neg ha]
    cases s.grpPavane s.cur.g <;> rfl

/-- A copy whose promise has come, or that is complete, ends the sleep. -/
theorem exec_sleepTok_of_over (hg : guardG s o.h = true) (ht : tokenOk (readK s.seen (o.a.toNat - 0x100)) = true)
    (hclean : clean s (use1 o.a))
    (hover : ∀ e, copyOf s s.me.block (readK s.seen (o.a.toNat - 0x100)) = some e → e.2.complete = true ∨
      (copyWaitTrap s s.cur.g e.1 = none ∧ e.2.pavane = false
        ∧ reaches (cycleCount s (coreDie (placeCore s.cur.g))) e.2.promise = true)) :
    exec (.sleepTok o) s = .next s := by
  refine finish_ok (sleepTokCore o) s _ ?_
  unfold sleepTokCore
  rw [M_get_bind, if_neg (by simp [hg]), M_need_bind, if_pos ht, M_bind_ok _ _ _ _ _ (checkPoison_ok true _ [0] s (clean_good _ _ hclean))]
  cases he : copyOf s s.me.block (readK s.seen (o.a.toNat - 0x100)) with
  | none => rfl
  | some e =>
    rcases hover e he with hdone | ⟨hcalm, hpavane, hcycle⟩
    · simp [hdone]
    · have hraise : raiseCopyWait e.1 s = .ok ((), s) := by simp [raiseCopyWait, hcalm]
      cases hdone : e.2.complete <;> simp [hdone, M_bind_ok _ _ _ _ _ hraise, hpavane, hcycle]

theorem exec_yield_of_guard (hg : guardG s o.h = true) (hp : s.grpPavane s.cur.g = false) (hc : isControl s.cur.g = false) :
    exec (.yield o) s = .next (swapOut s s.cur.g) :=
  finish_ok (yieldCore o) s _ (by simp [yieldCore, hg, hp, hc])

theorem barrier_off (body : M Unit) (hg : guardG s o.h = false) : barrier o body s = .ok ((), s) := by simp [barrier, hg]

theorem barrier_ok (body : M Unit) (hg : guardG s o.h = true) : barrier o body s = body s := by simp [barrier, hg]

/-- With a false guard a wait, a plane instruction or a barrier does nothing. -/
theorem exec_wait_of_off (hg : guardG s o.h = false)
    (i : Instr) (hi : i ∈ [Instr.sleep o, .sleepTok o, .yield o, .plng o, .bara o, .barw o, .barx o, .bari o]) : exec i s = .next s := by
  obtain rfl | rfl | rfl | rfl | rfl | rfl | rfl | rfl := by simpa using hi
  · exact finish_ok (sleepCore o) s s (by simp [sleepCore, hg])
  · exact finish_ok (sleepTokCore o) s s (by simp [sleepTokCore, hg])
  · exact finish_ok (yieldCore o) s s (by simp [yieldCore, hg])
  · exact finish_ok (plngCore o) s s (by simp [plngCore, hg])
  · exact finish_ok _ s s (barrier_off _ hg)
  · exact finish_ok _ s s (barrier_off _ hg)
  · exact finish_ok _ s s (barrier_off _ hg)
  · exact finish_ok _ s s (barrier_off _ hg)

theorem exec_pln_of_planes (hplanes : ∀ t ∈ participants s o.h, src32 s false o.a t < s.me.np)
    (hclean : ∀ t ∈ participants s o.h, poisonAt s.seen (use1 o.a) t = false) :
    exec (.pln o) s = .next { s.updMe fun x => setPlanes x ((participants s o.h).map fun t => (t, src32 s false o.a t)) with
      cur := { s.cur with moved := s.cur.moved ||| participantMask s o.h } } := by
  refine finish_ok (plnCore o) s _ ?_
  have hbad : ((participants s o.h).filter fun t => s.me.np ≤ src32 s false o.a t) = [] := by
    simpa [List.filter_eq_nil_iff] using hplanes
  unfold plnCore
  rw [M_get_bind, M_need_bind, if_pos (decide_eq_true hbad), M_bind_ok _ _ _ _ _ (checkPoison_ok false _ _ s hclean)]
  rfl

theorem exec_plng_of_plane (hg : guardG s o.h = true) (hplane : kOrImm s o.a < s.me.np) (hclean : clean s (use1 o.a)) :
    exec (.plng o) s = .next (s.updMe fun x => setPlanes x ((maskTids x.resident).map fun t => (t, kOrImm s o.a))) := by
  refine finish_ok (plngCore o) s _ ?_
  unfold plngCore
  rw [M_get_bind, if_neg (by simp [hg]), M_need_bind, if_pos (decide_eq_true hplane),
    M_bind_ok _ _ _ _ _ (checkPoison_ok true _ [0] s (clean_good _ _ hclean))]
  rfl

/-- Settles O18: each wait ends or blocks by its own condition; the plane instructions by their bound. -/
theorem waitAndPlaneResults : Obligations.WaitAndPlaneResults := by
  unfold Obligations.WaitAndPlaneResults
  intro o s
  exact ⟨exec_sleep_of_guard, exec_sleepTok_of_over, exec_yield_of_guard, exec_wait_of_off, exec_pln_of_planes, exec_plng_of_plane⟩

/-! ### Barriers -/

theorem bariCore_ok (hclean : clean s (use1 o.a)) :
    bariCore o s = .ok ((), barChange s s.me.block (barNum o) fun r =>
      { r with mode := o.cfn.getLsbD 4, b := natBits (kOrImm s o.a) 63 32,
               e := if natBits (kOrImm s o.a) 4 0 = 0 then (s.blk s.me.block).ngroups else natBits (kOrImm s o.a) 4 0 }) := by
  unfold bariCore
  rw [M_get_bind, M_bind_ok _ _ _ _ _ (checkPoison_ok true _ [0] s (clean_good _ _ hclean))]
  rfl

/-- Settles O19: behind the guard each barrier instruction is its own release, wait or change of the barrier. -/
theorem barrierResults : Obligations.BarrierResults := by
  unfold Obligations.BarrierResults
  intro o s hg
  refine ⟨fun hr => ?_, fun hr => ?_, fun hr => ?_, fun hclean => ?_⟩
  · exact finish_ok _ s _ ((barrier_ok _ hg).trans (M_bind_ok _ _ _ _ _ (beforeRelease_ok s hr)))
  · exact finish_ok _ s _ ((barrier_ok _ hg).trans (M_bind_ok _ _ _ _ _ (needReads_ok s hr)))
  · exact finish_ok _ s _ ((barrier_ok _ hg).trans (M_bind_ok _ _ _ _ _ (beforeRelease_ok s hr)))
  · exact finish_ok _ s _ ((barrier_ok _ hg).trans (bariCore_ok hclean))

end Sys2Proof.Machine
end

section
/-! Traps by software, control registers and the control core's access to groups (R342, R416 to R421). Every Format S form stands behind its
guard (`guardedS`) or behind the privilege check and its guard (`privileged`). -/

namespace Sys2Proof.Machine

open Claim

/-! ### TRAP, BRK, SVC and the slot that is no instruction -/

theorem softTrap_trap {o : FmtC} {s : State} (cause : Nat) (h : runners s o.h ≠ []) :
    finish (softTrap o cause) s
      = .next (takeTrap s { cause := cause, code := o.cfn.toNat, mask := runnerMask s o.h.u (runners s o.h) }) := by
  refine finish_trap _ s _ ?_
  rw [softTrap, M_get_bind, if_neg h, M_trap]

theorem softTrap_off {o : FmtC} {s : State} (cause : Nat) (h : runners s o.h = []) : finish (softTrap o cause) s = .next s :=
  finish_ok _ s s (by rw [softTrap, M_get_bind, if_pos h, M_pure])

theorem guardedS_off {o : FmtS} {s : State} (body : M Unit) (hg : guardG s o.h = false) : finish (guardedS o body) s = .next s :=
  finish_ok _ s s (by simp [guardedS, hg])

/-- With the guard true the body's failure is the instruction's. -/
theorem guardedS_error {o : FmtS} {s : State} {e : Stop} (body : M Unit) (hg : guardG s o.h = true) (h : body s = .error e) :
    guardedS o body s = .error e := by
  rw [guardedS, M_get_bind, if_pos hg, h]

theorem takes_svc {o : FmtS} {s : State} (hg : guardG s o.h = true) (hclean : clean s (use1 o.a)) :
    takes (.svc o) s { cause := 0x1D, code := bitsNat o.sfn 7 0, addr := kOrImm64 s o.a, mask := s.me.resident } := by
  refine finish_trap _ s _ (guardedS_error _ hg ?_)
  rw [M_bind_ok _ _ _ _ _ (checkPoison_ok true _ [0] s (clean_good _ _ hclean)), M_get_bind, M_trap]

/-- Settles O20: each form's trap, taken where it runs. -/
theorem softwareTrapResults : Obligations.SoftwareTrapResults := by
  unfold Obligations.SoftwareTrapResults
  intro o f bits s
  exact ⟨fun h => ⟨softTrap_trap 0x10 h, softTrap_trap 0x0F h⟩, fun h => ⟨softTrap_off 0x10 h, softTrap_off 0x0F h⟩, takes_svc,
    guardedS_off _, rfl⟩

/-! ### Control registers -/

section Csr
variable {o : FmtS} {s : State}

theorem exec_csrr_of_reach (hg : guardG s o.h = true) (h : isControl s.cur.g = true ∨ o.csr.toNat < 0x400) :
    exec (.csrr o) s = .next (putS o (readCsr s s.cur.g o.csr.toNat) s) := by
  refine finish_ok (csrrCore o) s _ (guardedS_ok o _ s _ hg ?_)
  rw [M_get_bind, M_need_bind, if_pos (by simpa using h)]
  rfl

theorem takes_csrr (hg : guardG s o.h = true) (hc : isControl s.cur.g = false) (h : 0x400 ≤ o.csr.toNat) :
    takes (.csrr o) s (privTrap s) := by
  refine finish_trap (csrrCore o) s _ (guardedS_error _ hg ?_)
  rw [M_get_bind, M_need_bind, if_neg (by simp [hc, h])]

theorem finish_csrwCore (f : DWord → DWord → DWord) (hg : guardG s o.h = true) (h : isControl s.cur.g = true ∨ o.csr.toNat ≤ 2)
    (hclean : clean s (use1 o.a)) :
    finish (csrwCore o f) s
      = .next (csrwAll o (f (BitVec.ofNat 64 (readCsr s s.cur.g o.csr.toNat)) (BitVec.ofNat 64 (kOrImm64 s o.a))) s) := by
  refine finish_ok _ s _ (guardedS_ok o _ s _ hg ?_)
  rw [M_get_bind, M_need_bind, if_pos (by simpa using h), M_bind_ok _ _ _ _ _ (checkPoison_ok true _ [0] s (clean_good _ _ hclean))]
  rfl

theorem finish_csrwCore_trap (f : DWord → DWord → DWord) (hg : guardG s o.h = true) (hc : isControl s.cur.g = false)
    (h : 2 < o.csr.toNat) : finish (csrwCore o f) s = .next (takeTrap s (privTrap s)) := by
  refine finish_trap _ s _ (guardedS_error _ hg ?_)
  rw [M_get_bind, M_need_bind, if_neg (by simp [hc, h])]

theorem takes_csrw (hg : guardG s o.h = true) (hc : isControl s.cur.g = false) (h : 2 < o.csr.toNat) (i : Instr)
    (hi : i ∈ [Instr.csrw o, .csrwSet o, .csrwClr o]) : takes i s (privTrap s) := by
  obtain rfl | rfl | rfl := by simpa using hi
  · exact finish_csrwCore_trap _ hg hc h
  · exact finish_csrwCore_trap _ hg hc h
  · exact finish_csrwCore_trap _ hg hc h

theorem exec_proghint_of_guard (hg : guardG s o.h = true) (hclean : clean s (use1 o.a)) :
    exec (.proghint o) s = .next (s.updBlk s.me.block fun b => { b with hint := kOrImm64 s o.a % 2 ^ 32, hintAt := s.clock }) :=
  finish_ok _ s _ (guardedS_ok o _ s _ hg
    (M_bind_ok _ _ s s () (checkPoison_ok true _ [0] s (clean_good _ _ hclean))))

theorem exec_csr_of_off (hg : guardG s o.h = false) (i : Instr)
    (hi : i ∈ [Instr.csrr o, .csrw o, .csrwSet o, .csrwClr o, .rdclk o, .rdtime o, .proghint o]) : exec i s = .next s := by
  obtain rfl | rfl | rfl | rfl | rfl | rfl | rfl := by simpa using hi
  · exact guardedS_off _ hg
  · exact guardedS_off _ hg
  · exact guardedS_off _ hg
  · exact guardedS_off _ hg
  · exact guardedS_off _ hg
  · exact guardedS_off _ hg
  · exact guardedS_off _ hg

end Csr

/-- Settles O21: reads and writes where the register may be reached, and the trap where it may not. -/
theorem controlRegisterResults : Obligations.ControlRegisterResults := by
  unfold Obligations.ControlRegisterResults
  intro o s n v a
  refine ⟨fun hg => ⟨exec_csrr_of_reach hg, fun hr hclean => ⟨?_, ?_, ?_⟩, ?_, ?_, exec_proghint_of_guard hg, takes_csrr hg, takes_csrw hg⟩,
    exec_csr_of_off⟩
  · exact finish_csrwCore _ hg hr hclean
  · exact finish_csrwCore _ hg hr hclean
  · exact finish_csrwCore _ hg hr hclean
  · exact finish_ok _ s _ (guardedS_ok o _ s _ hg rfl)
  · exact finish_ok _ s _ (guardedS_ok o _ s _ hg rfl)

/-! ### The control core and a named group -/

/-- Outside a control core the privilege check takes its trap, whatever follows it. -/
theorem privileged_error {h : Hdr} {s : State} (body : M Unit) (hc : isControl s.cur.g = false) :
    privileged h body s = .error (.trap (privTrap s)) := by
  rw [privileged, M_get_bind, M_need_bind, if_neg (by simp [hc])]
  rfl

theorem privileged_trap {h : Hdr} {s : State} (body : M Unit) (hc : isControl s.cur.g = false) :
    finish (privileged h body) s = .next (takeTrap s (privTrap s)) := finish_trap _ s _ (privileged_error body hc)

theorem privileged_off {h : Hdr} {s : State} (body : M Unit) (hc : isControl s.cur.g = true) (hg : guardG s h = false) :
    finish (privileged h body) s = .next s := finish_ok _ s s (priv_neg h body s hc hg)

/-- A privileged instruction whose registers are clean is its effect. -/
theorem privileged_upd {h : Hdr} {s : State} {us : List FieldUse} (f : State → State) (hc : isControl s.cur.g = true)
    (hg : guardG s h = true) (hclean : clean s us) :
    finish (privileged h (do checkPoison true us [0]; upd f)) s = .next (f s) :=
  finish_ok _ s _ (priv_ok h _ s _ hc hg (M_bind_ok _ _ s s () (checkPoison_ok true us [0] s (clean_good s us hclean))))

section Access
variable {o : FmtS} {s : State}

theorem exec_groupAct_of_none (hc : isControl s.cur.g = true) (hg : guardG s o.h = true) (hclean : clean s (use1 o.a))
    (hnone : handleArg s o.a = none) (i : Instr) (hi : i ∈ [Instr.gresume o, .gresumeReplay o, .halt o, .haltBlk o]) :
    exec i s = .next s := by
  obtain rfl | rfl | rfl | rfl := by simpa using hi
  · exact (privileged_upd _ hc hg hclean).trans (by rw [hnone])
  · exact (privileged_upd _ hc hg hclean).trans (by rw [hnone])
  · exact (privileged_upd _ hc hg hclean).trans (by rw [hnone])
  · exact (privileged_upd _ hc hg hclean).trans (by rw [hnone])

theorem exec_groupAct_of_off (hc : isControl s.cur.g = true) (hg : guardG s o.h = false) (i : Instr)
    (hi : i ∈ [Instr.gstatr o, .gstatw o, .gresume o, .gresumeReplay o, .halt o, .haltBlk o, .eret o]) : exec i s = .next s := by
  obtain rfl | rfl | rfl | rfl | rfl | rfl | rfl := by simpa using hi
  · exact privileged_off _ hc hg
  · exact privileged_off _ hc hg
  · exact privileged_off _ hc hg
  · exact privileged_off _ hc hg
  · exact privileged_off _ hc hg
  · exact privileged_off _ hc hg
  · exact privileged_off _ hc hg

end Access

/-- Settles O22: on a control core each instruction acts on the group its handle names, or does nothing. -/
theorem groupAccessResults : Obligations.GroupAccessResults := by
  unfold Obligations.GroupAccessResults
  intro o s hc
  refine ⟨fun hg => ⟨?_, ?_, exec_groupAct_of_none hc hg, fun g hclean hh => ⟨?_, ?_, ?_, ?_⟩, ?_⟩, exec_groupAct_of_off hc⟩
  · exact fun hclean => privileged_upd _ hc hg hclean
  · exact fun hclean => privileged_upd _ hc hg hclean
  · exact (privileged_upd _ hc hg hclean).trans (by rw [hh])
  · exact (privileged_upd _ hc hg hclean).trans (by rw [hh])
  · exact (privileged_upd _ hc hg hclean).trans (by rw [hh]; rfl)
  · exact (privileged_upd _ hc hg hclean).trans (by rw [hh])
  · exact finish_ok _ s _ (priv_ok o.h _ s _ hc hg rfl)

/-- Settles O23: the privilege check comes before the guard. -/
theorem privilegedTraps : Obligations.PrivilegedTraps := by
  unfold Obligations.PrivilegedTraps
  intro o e s hc i hi
  obtain rfl | rfl | rfl | rfl | rfl | rfl | rfl | rfl | rfl | rfl | rfl | rfl := by simpa using hi
  · exact privileged_trap _ hc
  · exact privileged_trap _ hc
  · exact privileged_trap _ hc
  · exact privileged_trap _ hc
  · exact privileged_trap _ hc
  · exact privileged_trap _ hc
  · exact privileged_trap _ hc
  · exact privileged_trap _ hc
  · exact privileged_trap _ hc
  · exact finish_trap _ s _ (M_bind_error _ _ _ _ (privileged_error _ hc))
  · exact privileged_trap _ hc
  · exact privileged_trap _ hc

end Sys2Proof.Machine
end

section
/-! MDRAIN, MRESTORE and MRESUME (R407, R408, R422): behind the privilege check, the alignment and the registers, each is the case of its
meaning that the state selects. -/

namespace Sys2Proof.Machine

open Claim

section Restart
variable {o : FmtE} {s : State}

/-- With its address aligned and its registers clean, an instruction on a drain image goes on with its own part. -/
theorem image_ok {us : List FieldUse} {va : Nat} (body : M Unit) (hva : va % 64 = 0) (hclean : clean s us) :
    (do need (va % 64 = 0) (shapeAt s va); checkPoison true us [0]; body : M Unit) s = body s := by
  rw [M_need_bind, if_pos (decide_eq_true hva), M_bind_ok _ _ s s () (checkPoison_ok true _ [0] s (clean_good s _ hclean))]

variable (hc : isControl s.cur.g = true) (hg : guardG s o.h = true) (hclean : clean s (use1 o.a ++ use1 (WF.efF o 43)))
include hc hg hclean

/-! ### MRESUME -/

theorem mresume_ok {g : Nat} (body : Nat → Nat → State → State × Nat) (hh : handleE s o = some g) :
    mresume o body s = .ok ((), putK o 3 (body (readK s.seen (o.a.toNat - 0x100)) (s.grp g).block s).2
      (body (readK s.seen (o.a.toNat - 0x100)) (s.grp g).block s).1) := by
  refine priv_ok o.h _ s _ hc hg ?_
  rw [M_bind_ok _ _ s s () (checkPoison_ok true _ [0] s (clean_good s _ hclean)), M_upd, hh]

/-- Its answer and the state it leaves are the body's. -/
theorem mresume_of {g n : Nat} {t : State} (body : Nat → Nat → State → State × Nat) (hh : handleE s o = some g)
    (hb : body (readK s.seen (o.a.toNat - 0x100)) (s.grp g).block s = (t, n)) : mresume o body s = .ok ((), putK o 3 n t) := by
  rw [mresume_ok hc hg hclean body hh, hb]

theorem exec_mresumeMatrix_of_stopped {g : Nat} {e : Nat × MatOp} (hh : handleE s o = some g)
    (he : stoppedMat s (s.grp g).block (readK s.seen (o.a.toNat - 0x100)) = some e) (hwait : resumeWaits s o = false) :
    exec (.mresumeMatrix o) s = .next (putK o 3 0 (restartMat s e.1 e.2)) := by
  refine finish_ok _ s _ ((M_bind_ok _ _ s s () (priv_ok o.h _ s s hc hg ?_)).trans ((mresume_ok hc hg hclean _ hh).trans ?_))
  · rw [M_bind_ok _ _ s s () (checkPoison_ok true _ [0] s (clean_good s _ hclean)), M_get_bind, if_neg (by simp [hwait])]
    rfl
  · simp only [he]

theorem exec_mresumeCopy_of_fault {g : Nat} {e : Nat × Copy} (hh : handleE s o = some g)
    (he : copyOf s (s.grp g).block (readK s.seen (o.a.toNat - 0x100)) = some e) (hf : e.2.fault.isSome = true) :
    exec (.mresumeCopy o) s = .next (putK o 3 0 { s with copies := spPut s.copies e.1 { e.2 with fault := none } }) :=
  finish_ok _ s _ (mresume_of hc hg hclean _ hh (by simp only [he, hf, if_true]))

theorem exec_mresumeQuery_of_stopped {g : Nat} {e : Nat × Query} (hh : handleE s o = some g)
    (he : s.queries.find? (fun e => e.2.block = (s.grp g).block && e.2.serial = readK s.seen (o.a.toNat - 0x100)
      && e.2.state = .stopped) = some e) :
    exec (.mresumeQuery o) s = .next (
      if (e.2.fault.map fun f => f.cause) = some badStruct then putK o 3 2 s
      else putK o 3 0 (s.setQry e.1 { e.2 with state := .running, fault := none, told := false })) := by
  refine finish_ok _ s _ ((mresume_ok hc hg hclean _ hh).trans ?_)
  simp only [he]
  split <;> rfl

/-! ### MDRAIN and MRESTORE -/

variable (hva : readK s.seen (o.a.toNat - 0x100) % 64 = 0)
include hva

/-- With no handle that names a group, or with its block running, nothing is drained. -/
theorem exec_mdrain_of_running (h : ∀ g, handleE s o = some g → allHalted s (s.grp g).block = false) :
    exec (.mdrain o) s = .next (putK o 3 0 s) := by
  refine finish_ok (mdrainCore o) s _ (priv_ok o.h _ s _ hc hg ?_)
  rw [M_get_bind, image_ok _ hva hclean]
  cases hh : handleE s o with
  | none => rfl
  | some g => simp [h g hh]

theorem exec_mdrain_of_halted {g : Nat} {t : State} (hh : handleE s o = some g) (hhalt : allHalted s (s.grp g).block = true)
    (ht : writeRange s (xlGrp s s.cur.g needW) (readK s.seen (o.a.toNat - 0x100)) (drainImage s (s.grp g).block) = .ok t) :
    exec (.mdrain o) s = .next (putK o 3 (drainImage s (s.grp g).block).length (freezeMat (s.grp g).block
      ((drainBad s (s.grp g).block).foldl
        (fun t k => spoilAt t (xlGrp s s.cur.g needW) (readK s.seen (o.a.toNat - 0x100) + k)) t))) := by
  refine finish_ok (mdrainCore o) s _ (priv_ok o.h _ s _ hc hg ?_)
  rw [M_get_bind, image_ok _ hva hclean]
  simp [hh, hhalt, ht]

theorem exec_mrestore_of_running (h : ∀ g, handleE s o = some g → allHalted s (s.grp g).block = false)
    (hr : (readRange s (xlGrp s s.cur.g needR) (readK s.seen (o.a.toNat - 0x100)) 64).isOk = true) :
    exec (.mrestore o) s = .next (putK o 3 1 s) := by
  refine finish_ok (mrestoreCore o) s _ (priv_ok o.h _ s _ hc hg ?_)
  rw [M_get_bind, image_ok _ hva hclean]
  cases hrd : readRange s (xlGrp s s.cur.g needR) (readK s.seen (o.a.toNat - 0x100)) 64 with
  | error e => simp [hrd, Except.isOk, Except.toBool] at hr
  | ok hd =>
    cases hh : handleE s o with
    | none => simp
    | some g => simp [h g hh, hrd]

theorem exec_mrestore_of_image {g : Nat} {hd bs : List Byte} (hh : handleE s o = some g) (hhalt : allHalted s (s.grp g).block = true)
    (hhd : readRange s (xlGrp s s.cur.g needR) (readK s.seen (o.a.toNat - 0x100)) 64 = .ok hd)
    (hok : drainHeaderOk (s.blk (s.grp g).block) hd = true)
    (hbs : readRange s (xlGrp s s.cur.g needR) (readK s.seen (o.a.toNat - 0x100)) (drainSize hd) = .ok bs)
    (hops : ∀ x ∈ imageOps s (s.grp g).block g bs, x.isSome = true)
    (hroom : tablesHold s (s.grp g).block (s.blk (s.grp g).block).key ((imageOps s (s.grp g).block g bs).filterMap id) = true) :
    exec (.mrestore o) s = .next (putK o 3 0
      (restoreImage (s.grp g).block hd bs ((imageOps s (s.grp g).block g bs).filterMap id) s)) := by
  refine finish_ok (mrestoreCore o) s _ (priv_ok o.h _ s _ hc hg ?_)
  have hnone : (imageOps s (s.grp g).block g bs).any (·.isNone) = false := by
    rw [List.any_eq_false]
    intro x hx
    simp [Option.isSome_iff_ne_none.mp (hops x hx)]
  rw [M_get_bind, image_ok _ hva hclean]
  simp only [hh, hhd, hhalt, hok, hbs, hnone, hroom, Bool.not_true, Bool.false_eq_true, Bool.or_self, if_false, M_upd]

end Restart

theorem exec_restart_of_off {o : FmtE} {s : State} (hc : isControl s.cur.g = true) (hg : guardG s o.h = false) (i : Instr)
    (hi : i ∈ [Instr.mdrain o, .mrestore o, .mresumeMatrix o, .mresumeCopy o, .mresumeQuery o]) : exec i s = .next s := by
  obtain rfl | rfl | rfl | rfl | rfl := by simpa using hi
  · exact privileged_off _ hc hg
  · exact privileged_off _ hc hg
  · exact finish_ok _ s s ((M_bind_ok _ _ s s () (priv_neg o.h _ s hc hg)).trans (priv_neg o.h _ s hc hg))
  · exact privileged_off _ hc hg
  · exact privileged_off _ hc hg

/-- Settles O24: each restart instruction on a control core, by the group its handle names. -/
theorem restartResults : Obligations.RestartResults := by
  unfold Obligations.RestartResults
  intro o s hc va
  refine ⟨fun hg hclean => ⟨fun hva h => ⟨?_, fun hr => ?_⟩, fun g t hva hh hhalt ht => ?_, fun g hd bs hva hh hhalt hhd hok hbs hops hroom => ?_,
    fun g hh => ⟨fun e he hw => ?_, fun e he hf => ?_, fun e he => ?_⟩⟩, exec_restart_of_off hc⟩
  · exact exec_mdrain_of_running hc hg hclean hva h
  · exact exec_mrestore_of_running hc hg hclean hva h hr
  · exact exec_mdrain_of_halted hc hg hclean hva hh hhalt ht
  · exact exec_mrestore_of_image hc hg hclean hva hh hhalt hhd hok hbs hops hroom
  · exact exec_mresumeMatrix_of_stopped hc hg hclean hh he hw
  · exact exec_mresumeCopy_of_fault hc hg hclean hh he hf
  · exact exec_mresumeQuery_of_stopped hc hg hclean hh he

end Sys2Proof.Machine
end

section
/-! The copy engine and working sets (R282 to R298, R325). -/

namespace Sys2Proof.Machine

open Claim

variable {o : FmtE} {s : State}

/-- An optional step of the state. -/
theorem upd_if (c : Prop) [Decidable c] (f : State → State) (k : Unit → M Unit) (s : State) :
    (if c then (upd f >>= k) else k ()) s = k () (if c then f s else s) := by
  split <;> rfl

/-- The state once a copy's index array is settled. -/
def indexSettled (sk : Nat) (bs : List Byte) (s : State) : State :=
  if sk = 1 && (shapeOf bs).kind = 1 then
    settleRange s (xlGrp s s.cur.g needR) (shapeOf bs).idxptr (4 * min 32 ((shapeOf bs).box.getD 1 0)) else s

theorem copyCore_ok {kind sk : Nat} {bs : List Byte} {idx : List Int} {s0 s1 : State} (hg : guardG s o.h = true)
    (ha : copyRecord s o % 64 = 0) (hrec : recordBytes s (copyRecord s o) 192 = .ok (bs, s0)) (hs1 : indexSettled sk bs s0 = s1)
    (hidx : copyIndices s1 sk (shapeOf bs) = .ok idx) (hok : copyShapeOk s1 o sk bs = true)
    (hgood : copyGood o (newCopy o kind (copyShape s1 o (shapeOf bs)) idx false (copyRecord s o) s1) s1) :
    copyCore o kind sk s = .ok ((), queueCopy o (newCopy o kind (copyShape s1 o (shapeOf bs)) idx false (copyRecord s o) s1) s1) := by
  unfold copyCore
  rw [M_get_bind, if_neg (by simp [hg]), M_bind_ok _ _ _ _ _ (fetchRecord_ok _ s s0 bs ha hrec)]
  refine (upd_if _ _ _ s0).trans ((M_get_bind _ _).trans ?_)
  unfold indexSettled at hs1
  rw [hs1, hidx]
  simp only [M_need_bind, if_pos hok]
  exact issueCopy_ok o _ s1 hgood

theorem exec_cpyi_of_good (hg : guardG s o.h = true) (hok : cpyiOk s o = true) (hgood : copyGood o (newCopy o 2 (cpyiShape s o) [] true 0 s) s) :
    exec (.cpyi o) s = .next (queueCopy o (newCopy o 2 (cpyiShape s o) [] true 0 s) s) := by
  refine finish_ok (cpyiCore o) s _ ?_
  unfold cpyiCore
  rw [M_get_bind, if_neg (by simp [hg]), M_need_bind, if_pos hok]
  exact issueCopy_ok o _ s hgood

theorem exec_copy_of_off (hg : guardG s o.h = false) (i : Instr) (hi : i ∈ [Instr.cpy o, .cpyg o, .cpys o, .cpyi o]) :
    exec i s = .next s := by
  have hcore (kind sk : Nat) : copyCore o kind sk s = .ok ((), s) := by simp [copyCore, hg]
  obtain rfl | rfl | rfl | rfl := by simpa using hi
  · exact finish_ok _ s s (hcore 1 0)
  · exact finish_ok _ s s (hcore 3 1)
  · exact finish_ok _ s s (hcore 4 1)
  · exact finish_ok (cpyiCore o) s s (by simp [cpyiCore, hg])

/-- Settles O25: the record is read and checked, its indices too, and the copy is queued. -/
theorem copyResults : Obligations.CopyResults := by
  unfold Obligations.CopyResults
  intro o s
  refine ⟨fun hg => ⟨?_, exec_cpyi_of_good hg⟩, exec_copy_of_off⟩
  intro bs s0 idx i kind sk hi ha hrec s1 hidx hok hgood
  have hcore := copyCore_ok hg ha hrec rfl hidx hok hgood
  simp only [List.mem_cons, Prod.mk.injEq, List.not_mem_nil, or_false] at hi
  obtain ⟨rfl, rfl, rfl⟩ | ⟨rfl, rfl, rfl⟩ | ⟨rfl, rfl, rfl⟩ := hi
  · exact finish_ok _ s _ hcore
  · exact finish_ok _ s _ hcore
  · exact finish_ok _ s _ hcore

/-! ### CPYQ and CPYX -/

/-- A copy that is complete is not waited for. -/
theorem waitCopy_ok {e : Nat × Copy} (h : e.2.complete = true) : waitCopy e s = .ok ((), s) := by
  rw [waitCopy, if_pos h]
  rfl

theorem exec_cpyq_of_complete (hg : guardG s o.h = true) (ht : tokenOk (readK s.seen (o.a.toNat - 0x100)) = true) (hclean : clean s (use1 o.a))
    (h : ∀ e, copyOf s s.me.block (readK s.seen (o.a.toNat - 0x100)) = some e → e.2.complete = true) :
    exec (.cpyq o) s = .next s := by
  refine finish_ok _ s s (guarded_ok o _ s s hg ?_)
  rw [M_bind_ok _ _ _ _ _ (tokenArg_ok o s ht hclean), M_get_bind]
  cases he : copyOf s s.me.block (readK s.seen (o.a.toNat - 0x100)) with
  | none => rfl
  | some e => exact waitCopy_ok (h e he)

/-- A list of complete copies is not waited for. -/
theorem forM_waitCopy_ok (l : List (Nat × Copy)) (h : ∀ e ∈ l, e.2.complete = true) : l.forM waitCopy s = .ok (PUnit.unit, s) := by
  induction l with
  | nil => rfl
  | cons e r ih =>
    exact (M_bind_ok _ _ _ _ _ (waitCopy_ok (h e (List.mem_cons_self ..)))).trans (ih fun e he => h e (List.mem_cons_of_mem _ he))

theorem exec_cpyqAll_of_complete (hg : guardG s o.h = true)
    (h : ∀ e ∈ s.copies, e.2.g = s.cur.g → e.2.uid = s.me.uid → e.2.complete = true) : exec (.cpyqAll o) s = .next s := by
  refine finish_ok _ s s (guarded_ok o _ s s hg ?_)
  rw [M_get_bind]
  refine forM_waitCopy_ok _ fun e he => ?_
  obtain ⟨hmem, hown⟩ := List.mem_filter.mp he
  simp only [Bool.and_eq_true, decide_eq_true_eq] at hown
  exact h e hmem hown.1.1 hown.1.2

/-- An instruction that names a copy by a sound token goes on with it. -/
theorem finish_token {body : Nat → M Unit} {t : State} (hg : guardG s o.h = true) (ht : tokenOk (readK s.seen (o.a.toNat - 0x100)) = true)
    (hclean : clean s (use1 o.a)) (h : body (readK s.seen (o.a.toNat - 0x100)) s = .ok ((), t)) :
    finish (guarded o (tokenArg o >>= body)) s = .next t :=
  finish_ok _ s t (guarded_ok o _ s t hg ((M_bind_ok _ _ _ _ _ (tokenArg_ok o s ht hclean)).trans h))

theorem takes_badToken (hg : guardG s o.h = true) (ht : tokenOk (readK s.seen (o.a.toNat - 0x100)) = false) (i : Instr)
    (hi : i ∈ [Instr.cpyq o, .cpyqTest o, .cpyqStat o, .cpyx o]) :
    takes i s { cause := 0x0B, addr := readK s.seen (o.a.toNat - 0x100), mask := s.me.resident, tok := readK s.seen (o.a.toNat - 0x100) } := by
  obtain rfl | rfl | rfl | rfl := by simpa using hi
  · exact finish_trap _ s _ (guarded_error o _ _ s _ hg (tokenArg_bad o s ht))
  · exact finish_trap _ s _ (guarded_error o _ _ s _ hg (tokenArg_bad o s ht))
  · exact finish_trap _ s _ (guarded_error o _ _ s _ hg (tokenArg_bad o s ht))
  · exact finish_trap _ s _ (guarded_error o _ _ s _ hg (tokenArg_bad o s ht))

theorem exec_copyQuery_of_off (hg : guardG s o.h = false) (i : Instr) (hi : i ∈ [Instr.cpyq o, .cpyqAll o, .cpyqTest o, .cpyqStat o, .cpyx o]) :
    exec i s = .next s := by
  obtain rfl | rfl | rfl | rfl | rfl := by simpa using hi
  · exact finish_ok _ s s (guarded_off o _ s hg)
  · exact finish_ok _ s s (guarded_off o _ s hg)
  · exact finish_ok _ s s (guarded_off o _ s hg)
  · exact finish_ok _ s s (guarded_off o _ s hg)
  · exact finish_ok _ s s (guarded_off o _ s hg)

/-- Settles O26: behind the guard and the token's check, each form's answer. -/
theorem copyQueryResults : Obligations.CopyQueryResults := by
  unfold Obligations.CopyQueryResults
  intro o s t
  refine ⟨fun hg ht hclean => ⟨exec_cpyq_of_complete hg ht hclean, ?_, ?_, ?_⟩, exec_cpyqAll_of_complete, takes_badToken, exec_copyQuery_of_off⟩
  · exact finish_token hg ht hclean rfl
  · exact finish_token hg ht hclean rfl
  · exact finish_token hg ht hclean rfl

/-! ### WSSTAGE and WSDROP -/

/-- Settles O27: both by the frame that reads the working set's record. -/
theorem workingSetResults : Obligations.WorkingSetResults := by
  unfold Obligations.WorkingSetResults
  intro o s pa h r va s1 hs hh hok hr is
  exact ⟨finish_ok _ s _ (wsCore_ok o s pa h r _ hs hh hok hr), finish_ok _ s _ (wsCore_ok o s pa h r _ hs hh hok hr)⟩

end Sys2Proof.Machine
end

section
/-! The matrix engine and the accumulators (R171 to R190): the checks of Table 7-2 in their order, then the entry. -/

namespace Sys2Proof.Machine

open Claim

variable {o : FmtE} {s : State}

/-- A check that goes through. -/
theorem need_bind_ok {β : Type} {b : Bool} {t : Trap} {m : Unit → M β} (h : b = true) : (need b t >>= m) s = m () s := by
  rw [M_need_bind, if_pos h]

/-! ### MMS, MMX and MMI -/

/-- What a multiplication's checks ask of the state, the records' bytes `ab` and `bb` read on the way to `s2`. -/
structure MulReady (i : Instr) (kind : Nat) (op : MatOp) (s s1 s2 : State) (ab bb : List Byte) : Prop where
  tile : spFind (established s op.block) op.tile = some (kind != 1)
  free : tileReady s op true
  alignA : op.arec % 64 = 0
  alignB : op.brec % 64 = 0
  recA : recordBytes s op.arec 192 = .ok (ab, s1)
  recB : recordBytes s1 op.brec 192 = .ok (bb, s2)
  shapeA : (matShape ab (shapeOf ab) op.aspc && matType kind true (shapeOf ab).etype) = true
  shapeB : (matShape bb (shapeOf bb) op.bspc && matType kind false (shapeOf bb).etype) = true
  insideA : op.aspc = 1 → inScratchpad s2 (opdBytes (shapeOf ab) op.arow op.akp op.n)
  insideB : op.bspc = 1 → inScratchpad s2 (opdBytes (shapeOf bb) op.bcol op.bkp op.n)
  entry : entryReady i s2 { op with a := shapeOf ab, b := shapeOf bb }

theorem mmCore_ok {i : Instr} {kind : Nat} {s1 s2 : State} {ab bb : List Byte} (hg : guardG s o.h = true)
    (h : MulReady i kind (mmOf kind i o s) s s1 s2 ab bb) :
    mmCore kind i o s = .ok ((), queueMat o { mmOf kind i o s with a := shapeOf ab, b := shapeOf bb } s2) := by
  refine guarded_ok o _ s _ hg ?_
  rw [M_bind_ok _ _ _ _ _ (conv_okE s h.free.1), M_get_bind, need_bind_ok (decide_eq_true h.tile),
    M_bind_ok _ _ _ _ _ (owner_ok s true _ _ h.free.2), need_bind_ok (decide_eq_true h.alignA), need_bind_ok (decide_eq_true h.alignB),
    M_bind_ok _ _ _ _ _ (fetchRecord_ok _ s s1 ab h.alignA h.recA), M_bind_ok _ _ _ _ _ (fetchRecord_ok _ s1 s2 bb h.alignB h.recB),
    need_bind_ok h.shapeA, need_bind_ok h.shapeB]
  exact (ifSp_ok _ _ s2 h.insideA _).trans ((ifSp_ok _ _ s2 h.insideB _).trans (enterMat_ok i o _ s2 h.entry))

/-- Settles O28: the three multiplications by their common frame. -/
theorem multiplyResults : Obligations.MultiplyResults := by
  unfold Obligations.MultiplyResults
  intro o s s1 s2 ab bb i kind hi op ra rb hg h1 h2 h3 h4 h5 h6 h7 h8 h9 h10 h11
  have hcore := mmCore_ok hg ⟨h1, h2, h3, h4, h5, h6, h7, h8, h9, h10, h11⟩
  simp only [List.mem_cons, Prod.mk.injEq, List.not_mem_nil, or_false] at hi
  obtain ⟨rfl, rfl⟩ | ⟨rfl, rfl⟩ | ⟨rfl, rfl⟩ := hi
  · exact finish_ok _ s _ hcore
  · exact finish_ok _ s _ hcore
  · exact finish_ok _ s _ hcore

/-! ### ACZ, ACLD and ACST -/

theorem aczCore_ok (hg : guardG s o.h = true) (hfree : tileReady s (aczOf o s) false) (hentry : entryReady (.acz o) s (aczOf o s)) :
    aczCore o s = .ok ((), queueMat o (aczOf o s) s) := by
  refine guarded_ok o _ s _ hg ?_
  rw [M_bind_ok _ _ _ _ _ (conv_okE s hfree.1), M_get_bind, M_bind_ok _ _ _ _ _ (owner_ok s false _ _ hfree.2)]
  exact enterMat_ok _ o _ s hentry

theorem acldCore_ok {bs : List Byte} {s1 : State} (hg : guardG s o.h = true) (hfree : tileReady s (acldOf o s) false)
    (ha : (acldOf o s).arec % 64 = 0)
    (hopen : spaceOpen s (acldOf o s) (acldOf o s).aspc ((acldOf o s).arec + rawTrailer (acldOf o s).w64) 64 = true)
    (hs1 : spaceSettle s (acldOf o s) (acldOf o s).aspc ((acldOf o s).arec + rawTrailer (acldOf o s).w64) 64 = s1)
    (hread : spaceRead s1 (acldOf o s) (acldOf o s).aspc ((acldOf o s).arec + rawTrailer (acldOf o s).w64) 64 = .ok bs)
    (htrailer : trailerOk (acldOf o s).w64 bs = true)
    (hin : (acldOf o s).aspc = 1 → inScratchpad s1 ((List.range (rawSize (acldOf o s).w64)).map ((acldOf o s).arec + ·)))
    (hentry : entryReady (.acld o) s1 (acldOf o s)) : acldCore o s = .ok ((), queueMat o (acldOf o s) s1) := by
  refine guarded_ok o _ s _ hg ?_
  rw [M_bind_ok _ _ _ _ _ (conv_okE s hfree.1), M_get_bind, M_bind_ok _ _ _ _ _ (owner_ok s false _ _ hfree.2),
    need_bind_ok (decide_eq_true ha), if_neg (by simp [hopen])]
  simp only [M_upd_bind, M_get_bind, hs1, hread, M_pure_bind, M_need_bind, if_pos htrailer]
  exact (ifSp_ok _ _ s1 hin _).trans (enterMat_ok _ o _ s1 hentry)

/-- The weight store check of an ACST, where the launch may write it. -/
theorem checkWsWriter_ok {op : MatOp} (h : op.kind = 6 → op.aspc = 2 → (s.grpLch s.cur.g).flag 4 = true) : checkWsWriter op s = .ok ((), s) := by
  unfold checkWsWriter
  rw [M_get_bind]
  refine need_ok _ _ s ?_
  by_cases hw : op.kind = 6 ∧ op.aspc = 2
  · simp [h hw.1 hw.2]
  · simp only [Bool.or_eq_true, Bool.not_eq_true', Bool.and_eq_false_iff, decide_eq_false_iff_not]
    exact .inl (Decidable.not_and_iff_or_not.mp hw)

section Acst
variable {w64 : Bool} (hg : guardG s o.h = true) (htile : spFind (established s s.me.block) (WF.ef o 52 48) = some w64)
  (hconv : convergedGroup s.me = true) (ha : (acstOf o w64 s).arec % 64 = 0)
include hg htile hconv ha

/-- ACST of a raw image names no record. -/
theorem acstCore_raw (hws : (acstOf o w64 s).kind = 6 → (acstOf o w64 s).aspc = 2 → (s.grpLch s.cur.g).flag 4 = true)
    (hfmt : (acstOf o w64 s).fmt = 5)
    (hin : (acstOf o w64 s).aspc = 1 → inScratchpad s ((List.range (rawSize w64)).map ((acstOf o w64 s).arec + ·)))
    (hentry : entryReady (.acst o) s (acstOf o w64 s)) : acstCore o s = .ok ((), queueMat o (acstOf o w64 s) s) := by
  refine guarded_ok o _ s _ hg ?_
  rw [M_bind_ok _ _ _ _ _ (conv_okE s hconv), M_get_bind, htile]
  refine (need_bind_ok (decide_eq_true ha)).trans ?_
  rw [if_pos hfmt]
  exact (ifSp_ok _ _ s hin _).trans ((M_bind_ok _ _ _ _ _ (checkWsWriter_ok hws)).trans (enterMat_ok _ o _ s hentry))

theorem acstCore_record {bs : List Byte} {s1 : State} (hfmt : (acstOf o w64 s).fmt ≠ 5)
    (hrec : recordBytes s (acstOf o w64 s).arec 192 = .ok (bs, s1))
    (hshape : (matShape bs (shapeOf bs) (acstOf o w64 s).aspc && (shapeOf bs).etype = outType (acstOf o w64 s).fmt) = true)
    (hin : (acstOf o w64 s).aspc = 1 → inScratchpad s1 (outBytes (acstOf o w64 s) (shapeOf bs)))
    (hws : (acstOf o w64 s).kind = 6 → (acstOf o w64 s).aspc = 2 → (s1.grpLch s1.cur.g).flag 4 = true)
    (hentry : entryReady (.acst o) s1 { acstOf o w64 s with a := shapeOf bs }) :
    acstCore o s = .ok ((), queueMat o { acstOf o w64 s with a := shapeOf bs } s1) := by
  refine guarded_ok o _ s _ hg ?_
  rw [M_bind_ok _ _ _ _ _ (conv_okE s hconv), M_get_bind, htile]
  refine (need_bind_ok (decide_eq_true ha)).trans ?_
  rw [if_neg hfmt, M_bind_ok _ _ _ _ _ (fetchRecord_ok _ s s1 bs ha hrec)]
  refine (need_bind_ok hshape).trans ((ifSp_ok _ _ s1 hin _).trans ?_)
  exact (M_bind_ok _ _ _ _ _ (checkWsWriter_ok hws)).trans (enterMat_ok _ o _ s1 hentry)

end Acst

/-- Settles O29: the three transfers by their own checks. -/
theorem accumulatorResults : Obligations.AccumulatorResults := by
  unfold Obligations.AccumulatorResults
  intro o s hg
  refine ⟨?_, ?_, ?_⟩
  · intro op hfree hentry
    exact finish_ok _ s _ (aczCore_ok hg hfree hentry)
  · intro op s1 bs hfree ha hopen hread htrailer hin hentry
    exact finish_ok _ s _ (acldCore_ok hg hfree ha hopen rfl hread htrailer hin hentry)
  · intro w64 htile hconv op hws ha
    refine ⟨fun hfmt hin hentry => ?_, fun bs s1 hfmt hrec hshape hin hws1 hentry => ?_⟩
    · exact finish_ok _ s _ (acstCore_raw hg htile hconv ha hws hfmt hin hentry)
    · exact finish_ok _ s _ (acstCore_record hg htile hconv ha hfmt hrec hshape hin hws1 hentry)

/-! ### MWAIT, MSTATR, ACRD and SLICE -/

section Wait
variable (hg : guardG s o.h = true) (hclean : clean s (use1 o.a))
  (ht : (readK s.seen (o.a.toNat - 0x100) < 2 ^ 32 && natBits (readK s.seen (o.a.toNat - 0x100)) 7 5 ≠ 0
    && natBits (readK s.seen (o.a.toNat - 0x100)) 7 5 ≠ 7 && natBits (readK s.seen (o.a.toNat - 0x100)) 4 0 < (s.blk s.me.block).acc) = true)
include hg hclean ht

theorem exec_mwait_of_done (h : tokenOps s s.me.block (readK s.seen (o.a.toNat - 0x100)) = []) : exec (.mwait o) s = .next s := by
  refine finish_ok _ s s (guarded_ok o _ s s hg ((M_bind_ok _ _ _ _ _ (matToken_ok o s hclean ht)).trans ?_))
  rw [M_get_bind, h]
  rfl

theorem exec_mwaitTest_answer : exec (.mwaitTest o) s = .next (s.updMe fun x =>
    let x := latchRes x o.h 3 0 (if matTested s (readK s.seen (o.a.toNat - 0x100)) then 1 else 0)
    if o.h.s then x else setG x (WF.ef o 2 0) (matTested s (readK s.seen (o.a.toNat - 0x100)))) :=
  finish_ok _ s _ (guarded_ok o _ s _ hg (M_bind_ok _ _ _ _ _ (matToken_ok o s hclean ht)))

end Wait

theorem exec_mwaitAll_of_done (h : ownMat s = []) : exec (.mwaitAll o) s = .next s := by
  refine finish_ok _ s s ?_
  cases hg : guardG s o.h with
  | false => exact guarded_off o _ s hg
  | true =>
    refine guarded_ok o _ s s hg ?_
    rw [M_get_bind, h]
    rfl

/-- The tile named is established. -/
theorem needTile_ok {tile : Nat} {u : Bool} {ts : List Nat} (h : (spFind (established s (tileBlock s)) tile).isSome = true) :
    needTile tile u ts s = .ok ((), s) := by
  rw [needTile, M_get_bind]
  exact need_ok _ _ s h

theorem exec_mstatr_of_held (hg : guardG s o.h = true) (h : (spFind (established s (tileBlock s)) (WF.ef o 52 48)).isSome = true) :
    exec (.mstatr o) s = .next ((putK o 3 (tileStatus s (tileBlock s) (WF.ef o 52 48)) s).updMe fun y =>
      setK (setK y (WF.ef o 47 38 - 0x100) (tileAt s (tileBlock s) (WF.ef o 52 48)).tileBound) (WF.ef o 37 28 - 0x100)
        (tileAt s (tileBlock s) (WF.ef o 52 48)).sticky) :=
  finish_ok (mstatrCore o) s _ (guarded_ok o _ s _ hg (M_bind_ok _ _ s s () (needTile_ok h)))

section Acrd
variable (hheld : (spFind (established s (tileBlock s)) (WF.ef o 52 48)).isSome = true)
  (hgood : good s (use1 (WF.efF o 38)) (participants s o.h)) (hcoming : tileComing s (tileBlock s) (WF.ef o 52 48) = false)
include hheld hgood hcoming

/-- Past its checks an ACRD with participants asks of the poisoned elements alone. -/
theorem acrdCore_ok (hts : participants s o.h ≠ []) :
    acrdCore o s = (do
      need (acrdBad o s (participants s o.h) = []) { cause := cPoison, mask := maskOf fun t => (acrdBad o s (participants s o.h)).contains t }
      upd (readElems o (participants s o.h)) : M Unit) s := by
  unfold acrdCore
  rw [M_get_bind, if_neg hts, M_bind_ok _ _ _ _ _ (checkStale_ok false _ _ s fun t ht => (hgood t ht).1),
    M_bind_ok _ _ _ _ _ (needTile_ok hheld), M_bind_ok _ _ _ _ _ (checkPoison_ok false _ _ s fun t ht => (hgood t ht).2),
    if_neg (by simp [hcoming])]

theorem exec_acrd_of_sound (hbad : acrdBad o s (participants s o.h) = []) :
    exec (.acrd o) s = .next (if participants s o.h = [] then s else readElems o (participants s o.h) s) := by
  refine finish_ok (acrdCore o) s _ ?_
  by_cases hts : participants s o.h = []
  · rw [acrdCore, M_get_bind, if_pos hts, if_pos hts]
    rfl
  · rw [acrdCore_ok hheld hgood hcoming hts, need_bind_ok (decide_eq_true hbad), if_neg hts]
    rfl

theorem takes_acrd_poison (hbad : acrdBad o s (participants s o.h) ≠ []) :
    takes (.acrd o) s { cause := cPoison, mask := maskOf fun t => (acrdBad o s (participants s o.h)).contains t } := by
  refine finish_trap (acrdCore o) s _ ?_
  have hts : participants s o.h ≠ [] := fun h => hbad (by rw [h]; rfl)
  rw [acrdCore_ok hheld hgood hcoming hts, M_need_bind, if_neg (by simpa using hbad)]

end Acrd

theorem exec_slice_of_good (hgood : good s (use2 o.a ++ use1 (WF.efF o 43)) (runners s o.h)) :
    exec (.slice o) s = .next (putEach o (if o.h.rm.toNat = 0 then 6 else 11) ((runners s o.h).map fun t => (t, sliceVal o s t)) s) := by
  refine finish_ok (sliceCore o) s _ ?_
  unfold sliceCore
  rw [M_get_bind, M_bind_ok _ _ _ _ _ (checkSources_ok o.h.u _ _ s hgood)]
  rfl

theorem exec_matrix_of_off (hg : guardG s o.h = false) (i : Instr)
    (hi : i ∈ [Instr.mms o, .mmx o, .mmi o, .acz o, .acld o, .acst o, .mwait o, .mwaitTest o, .mwaitAll o, .mstatr o]) : exec i s = .next s := by
  obtain rfl | rfl | rfl | rfl | rfl | rfl | rfl | rfl | rfl | rfl := by simpa using hi
  · exact finish_ok (mmCore 1 (.mms o) o) s s (guarded_off o _ s hg)
  · exact finish_ok (mmCore 2 (.mmx o) o) s s (guarded_off o _ s hg)
  · exact finish_ok (mmCore 3 (.mmi o) o) s s (guarded_off o _ s hg)
  · exact finish_ok (aczCore o) s s (guarded_off o _ s hg)
  · exact finish_ok (acldCore o) s s (guarded_off o _ s hg)
  · exact finish_ok (acstCore o) s s (guarded_off o _ s hg)
  · exact finish_ok _ s s (guarded_off o _ s hg)
  · exact finish_ok _ s s (guarded_off o _ s hg)
  · exact finish_ok _ s s (guarded_off o _ s hg)
  · exact finish_ok (mstatrCore o) s s (guarded_off o _ s hg)

/-- Settles O30: what each reading of the engine answers, and the trap of a poisoned element. -/
theorem matrixReadResults : Obligations.MatrixReadResults := by
  unfold Obligations.MatrixReadResults
  intro o s t tile held
  exact ⟨fun hg hclean ht => ⟨exec_mwait_of_done hg hclean ht, exec_mwaitTest_answer hg hclean ht⟩, exec_mwaitAll_of_done, exec_mstatr_of_held,
    exec_acrd_of_sound, takes_acrd_poison, exec_slice_of_good, exec_matrix_of_off⟩

end Sys2Proof.Machine
end

section
/-! Rays, beams and coverage (R209 to R219): the checks of R214 in their order; an empty list of bad threads passes each. -/

namespace Sys2Proof.Machine

open Claim

variable {o : FmtE} {s : State}

/-- No thread fails a test that all of them pass. -/
theorem filter_not_eq_nil {ts : List Nat} {p : Nat → Bool} (h : ∀ t ∈ ts, p t = true) : (ts.filter fun t => !p t) = [] := by
  simpa [List.filter_eq_nil_iff] using h

/-! ### RQ, BQ and RQR -/

theorem queryTargets_nil (o : FmtE) (beam : Bool) (s : State) : queryTargets o beam s [] = [] := by
  simp [queryTargets]

theorem queryCore_ok {beam : Bool} (hgood : good s (queryUses o beam) (participants s o.h))
    (htargets : ∀ x ∈ queryTargets o beam s (participants s o.h), targetGood s x) (harrays : arraysAligned o beam s (participants s o.h))
    (hbeam : beam = true → ∀ t ∈ participants s o.h, beamOk (efCrs o) (queryRec o beam s t) = true)
    (hlog : efLog o = true → ∀ t ∈ participants s o.h, logFresh (structBytes s needRW (eAddr s (lsrcOf o) t) 64) = true)
    (hbind : bindingServes o s) :
    queryCore o beam s = .ok ((), startQueries o beam (participants s o.h) (settleTargets (queryTargets o beam s (participants s o.h)) s)) := by
  refine laneIssue_ok o _ _ s _ hgood ?_ fun hnone => ?_
  · rw [M_get_bind, M_bind_ok _ _ _ _ _ (alignTargets_ok false _ s (arrays_aligned o beam _ s _ harrays htargets)),
      M_bind_ok _ _ _ _ _ (readTargets_ok false _ s htargets)]
    refine (need_bind_ok (decide_eq_true (filter_unless_nil _ _ hbeam))).trans ?_
    refine (need_bind_ok (decide_eq_true (filter_unless_nil _ _ hlog))).trans ?_
    rw [M_bind_ok _ _ _ _ _ (bindChecks_ok o _ _ s hbind), M_bind_ok _ _ _ _ _ (spawnCheck_ok false _ s hbind.2),
      M_bind_ok _ _ _ _ _ (checkPoison_ok false _ _ s fun t ht => (hgood t ht).2)]
    rfl
  · rw [hnone, queryTargets_nil]
    rfl

theorem rqrCore_ok {beam : Bool} (hgood : good s (replayUses o beam) (participants s o.h))
    (hlogs : ∀ t ∈ participants s o.h, targetGood s (target s o.a 64 64 needR t)) (harrays : arraysAligned o beam s (participants s o.h))
    (hreplay : ∀ t ∈ participants s o.h, logReplayable beam (replayHdr o s t) = true)
    (hrecs : ∀ t ∈ participants s o.h, targetGood s (replayTarget o beam s t))
    (hbeam : beam = true → ∀ t ∈ participants s o.h, beamOk (replayCoarse o s t) (replayRec o beam s t) = true)
    (hbind : bindingServes o s) :
    rqrCore o beam s = .ok ((), startReplays o beam (participants s o.h)
      (settleTargets ((participants s o.h).map (target s o.a 64 64 needR) ++ (participants s o.h).map (replayTarget o beam s)) s)) := by
  have hlogs' : ∀ x ∈ (participants s o.h).map (target s o.a 64 64 needR), targetGood s x := by simpa using hlogs
  have hrecs' : ∀ x ∈ (participants s o.h).map (replayTarget o beam s), targetGood s x := by simpa using hrecs
  refine laneIssue_ok o _ _ s _ hgood ?_ fun hnone => ?_
  · rw [M_get_bind, M_bind_ok _ _ _ _ _ (alignTargets_ok false _ s (arrays_aligned o beam _ s _ harrays hlogs')),
      M_bind_ok _ _ _ _ _ (readTargets_ok false _ s hlogs')]
    refine (need_bind_ok (decide_eq_true (filter_not_eq_nil hreplay))).trans ?_
    rw [M_bind_ok _ _ _ _ _ (checkTargets_ok false _ s hrecs')]
    refine (need_bind_ok (decide_eq_true (filter_unless_nil _ _ hbeam))).trans ?_
    rw [M_bind_ok _ _ _ _ _ (bindChecks_ok o _ _ s hbind), M_bind_ok _ _ _ _ _ (spawnCheck_ok false _ s hbind.2),
      M_bind_ok _ _ _ _ _ (checkPoison_ok false _ _ s fun t ht => (hgood t ht).2)]
    rfl
  · rw [hnone]
    rfl

/-- Settles O31: queries and replays by their checks. -/
theorem queryResults : Obligations.QueryResults := by
  unfold Obligations.QueryResults
  intro o s ts
  refine ⟨fun i beam hi hgood htargets harrays hbeam hlog hbind => ?_, ?_⟩
  · have hcore := queryCore_ok hgood htargets harrays hbeam hlog hbind
    simp only [List.mem_cons, Prod.mk.injEq, List.not_mem_nil, or_false] at hi
    obtain ⟨rfl, rfl⟩ | ⟨rfl, rfl⟩ := hi
    · exact finish_ok _ s _ hcore
    · exact finish_ok _ s _ hcore
  · intro beam hgood hlogs harrays hreplay hrecs hbeam hbind
    exact finish_ok _ s _ (rqrCore_ok hgood hlogs harrays hreplay hrecs hbeam hbind)

/-! ### HACC and HREJ -/

/-- The records that the participants name, each by its position in a ring, as HACC and HREJ act on them. -/
def namedLive (o : FmtE) (s : State) : List (Nat × Option Nat) :=
  (participants s o.h).map fun t => (t, ((splitAt s (s.ctxOf s.cur.g) (eAddr s o.a t)).getD none).map (·.1))

theorem namedSplits_ok (h : ∀ t ∈ participants s o.h, (splitAt s (s.ctxOf s.cur.g) (eAddr s o.a t)).isSome = true) :
    namedSplits o (participants s o.h) s = .ok (namedLive o s, s) := by
  have hbad : ((((participants s o.h).map fun t => (t, splitAt s (s.ctxOf s.cur.g) (eAddr s o.a t))).filter fun x => x.2.isNone).map (·.1)) = [] := by
    rw [List.map_eq_nil_iff, List.filter_eq_nil_iff]
    rintro x hx
    obtain ⟨t, ht, rfl⟩ := List.mem_map.mp hx
    simp [Option.isSome_iff_ne_none.mp (h t ht)]
  unfold namedSplits
  rw [M_get_bind]
  refine (need_bind_ok (decide_eq_true hbad)).trans ?_
  simp [namedLive]

/-- The release before the records are finished, where any is live. -/
theorem releaseHits_ok {m : M Unit} (hrel : (∃ x ∈ namedLive o s, x.2.isSome = true) → releaseReady s) :
    (if (namedLive o s).any (fun x => x.2.isSome) then (beforeRelease >>= fun _ => m) else m) s = m s :=
  ifM_ok _ beforeRelease m s fun hany => beforeRelease_ok s (hrel (by simpa using hany))

section Hits
variable (hlive : ∀ t ∈ participants s o.h, (splitAt s (s.ctxOf s.cur.g) (eAddr s o.a t)).isSome = true)
  (hrel : (∃ x ∈ namedLive o s, x.2.isSome = true) → releaseReady s)
include hlive hrel

theorem exec_hacc_of_inside (hgood : good s (haccUses o) (participants s o.h))
    (hin : ∀ x ∈ namedLive o s, ∀ k, x.2 = some k → outsideBox s k (haccT o s x.1) = false) :
    exec (.hacc o) s = .next (acceptHits o (namedLive o s) s) := by
  have hout : (((namedLive o s).filter fun x => match x.2 with | some k => outsideBox s k (haccT o s x.1) | none => false).map (·.1)) = [] := by
    rw [List.map_eq_nil_iff, List.filter_eq_nil_iff]
    intro x hx
    cases hk : x.2 with
    | none => simp
    | some k => simp [hin x hx k hk]
  refine finish_ok _ s _ (laneIssue_ok o _ _ s _ hgood ?_ fun hnone => ?_)
  · rw [M_bind_ok _ _ _ _ _ (namedSplits_ok hlive), M_bind_ok _ _ _ _ _ (checkPoison_ok false _ _ s fun t ht => (hgood t ht).2), M_get_bind]
    exact (need_bind_ok (decide_eq_true hout)).trans (releaseHits_ok hrel)
  · rw [namedLive, hnone]
    rfl

theorem exec_hrej_of_good (hgood : good s (use2 o.a) (participants s o.h)) :
    exec (.hrej o) s = .next (rejectHits (namedLive o s) s) := by
  refine finish_ok _ s _ (laneIssue_ok o _ _ s _ hgood ?_ fun hnone => ?_)
  · rw [M_bind_ok _ _ _ _ _ (namedSplits_ok hlive), M_bind_ok _ _ _ _ _ (checkPoison_ok false _ _ s fun t ht => (hgood t ht).2)]
    exact releaseHits_ok hrel
  · rw [namedLive, hnone]
    rfl

end Hits

/-- Settles O32: the live records named are finished, after the release they ask for. -/
theorem hitResults : Obligations.HitResults := by
  unfold Obligations.HitResults
  intro o s ts xs hlive hrel
  exact ⟨exec_hacc_of_inside hlive hrel, exec_hrej_of_good hlive hrel⟩

/-! ### SPCFG, BVHREF, COVER and TRIEM -/

theorem checkRecord_ok {x : Target} (h : targetGood s x) : checkTargets true [x] s = .ok ((), s) :=
  checkTargets_ok true [x] s (by simpa using h)

theorem exec_spcfg_of_ready {core : Nat} (hrec : record64 o (use1 o.a) s) (hcfg : spawnCfgOk (structBytes s needR (eAddr s o.a 0) 64) = true)
    (hring : targetGood s (target64 (spawnCfg (structBytes s needR (eAddr s o.a 0) 64)).ring needRW))
    (hok : spawnRingOk s (spawnCfg (structBytes s needR (eAddr s o.a 0) 64)) = true)
    (hcore : spawnReserve s (efBind o) (spawnCfg (structBytes s needR (eAddr s o.a 0) 64)) = some core)
    (hquiet : bindQuiet s s.me.block (efBind o) = true) :
    exec (.spcfg o) s = .next (takeSpawn (efBind o) (spawnCfg (structBytes s needR (eAddr s o.a 0) 64)) core
      (settleTargets [target64 (eAddr s o.a 0) needR, target64 (spawnCfg (structBytes s needR (eAddr s o.a 0) 64)).ring needRW] s)) := by
  obtain ⟨hg, hgood, htarget⟩ := hrec
  refine finish_ok (spcfgCore o) s _ ?_
  unfold spcfgCore
  rw [M_get_bind, if_neg (by simp [hg]), M_bind_ok _ _ _ _ _ (checkStale_ok true _ _ s fun t ht => (hgood t ht).1),
    M_bind_ok _ _ _ _ _ (checkRecord_ok htarget), need_bind_ok hcfg, M_bind_ok _ _ _ _ _ (checkRecord_ok hring), need_bind_ok hok, hcore]
  refine (M_bind_ok _ _ s s () (checkPoison_ok true _ _ s fun t ht => (hgood t ht).2)).trans ?_
  rw [if_pos hquiet]
  rfl

theorem exec_bvhref_of_record (hrec : record64 o (use1 o.a) s) (hok : bvhOk (structBytes s needR (eAddr s o.a 0) 64) = true) :
    exec (.bvhref o) s = .next (
      let t := settleTargets [target64 (eAddr s o.a 0) needR] s
      setBind t t.me.block (efBind o) { t.bindOf t.me.block (efBind o) with bvh := some (bvhOf (structBytes s needR (eAddr s o.a 0) 64)) }) := by
  obtain ⟨hg, hgood, htarget⟩ := hrec
  refine finish_ok _ s _ ?_
  rw [M_get_bind, if_neg (by simp [hg]), M_bind_ok _ _ _ _ _ (checkStale_ok true _ _ s fun t ht => (hgood t ht).1),
    M_bind_ok _ _ _ _ _ (checkRecord_ok htarget), need_bind_ok hok,
    M_bind_ok _ _ _ _ _ (checkPoison_ok true _ _ s fun t ht => (hgood t ht).2)]
  rfl

theorem exec_cover_of_record (hrec : record64 o (use1 o.a ++ use1 (WF.efF o 28) ++ use1 (WF.efF o 18)) s)
    (hok : streamOk (structBytes s needR (eAddr s o.a 0) 64) = true) (hspawn : (s.bindOf s.me.block (efBind o)).spawn.isSome = true)
    (hin : inSpawn s = false) :
    exec (.cover o) s = .next (acceptQuery (settleTargets [target64 (eAddr s o.a 0) needR] s) (coverFor o s)) := by
  obtain ⟨hg, hgood, htarget⟩ := hrec
  refine finish_ok _ s _ ?_
  rw [M_get_bind, if_neg (by simp [hg]), M_bind_ok _ _ _ _ _ (checkStale_ok true _ _ s fun t ht => (hgood t ht).1),
    M_bind_ok _ _ _ _ _ (checkRecord_ok htarget), need_bind_ok (by rw [hok, hspawn]; rfl),
    M_bind_ok _ _ _ _ _ (spawnCheck_ok true _ s hin),
    M_bind_ok _ _ _ _ _ (checkPoison_ok true _ _ s fun t ht => (hgood t ht).2)]
  rfl

theorem exec_triem_of_streams (hgood : good s (triemUses o) (participants s o.h))
    (htargets : ∀ t ∈ participants s o.h, targetGood s (target s o.a 64 64 needRW t))
    (hok : ∀ t ∈ participants s o.h, streamOk (structBytes s needRW (eAddr s o.a t) 64) = true) :
    exec (.triem o) s = .next (if participants s o.h = [] then s else appendTris o (participants s o.h) s) := by
  refine finish_ok (triemCore o) s _ ?_
  by_cases hnone : participants s o.h = []
  · rw [if_pos hnone, triemCore, laneIssue, M_get_bind]
    exact congrFun (if_pos hnone) s
  · rw [if_neg hnone]
    refine laneIssue_ok o _ _ s _ hgood ?_ fun h => absurd h hnone
    rw [M_get_bind, M_bind_ok _ _ _ _ _ (checkTargets_ok false _ s (by simpa using htargets))]
    refine (need_bind_ok (decide_eq_true (filter_not_eq_nil hok))).trans ?_
    rw [M_bind_ok _ _ _ _ _ (checkPoison_ok false _ _ s fun t ht => (hgood t ht).2)]
    rfl

theorem exec_binding_of_off (hg : guardG s o.h = false) (i : Instr) (hi : i ∈ [Instr.spcfg o, .bvhref o, .cover o]) : exec i s = .next s := by
  obtain rfl | rfl | rfl := by simpa using hi
  · exact finish_ok (spcfgCore o) s s (by rw [spcfgCore, M_get_bind, if_pos (by simp [hg])]; rfl)
  · exact finish_ok _ s s (by rw [M_get_bind, if_pos (by simp [hg])]; rfl)
  · exact finish_ok _ s s (by rw [M_get_bind, if_pos (by simp [hg])]; rfl)

/-- Settles O33: a binding set, a coverage query begun, triangles appended. -/
theorem bindingResults : Obligations.BindingResults := by
  unfold Obligations.BindingResults
  intro o s va bs
  exact ⟨fun core => exec_spcfg_of_ready, exec_bvhref_of_record, exec_cover_of_record, exec_triem_of_streams, exec_binding_of_off⟩

end Sys2Proof.Machine
end

section
/-! Granule rings and hardware queues (R349 to R357): the header at its home slice answers an instruction (`onRing`), by its own state. -/

namespace Sys2Proof.Machine

open Claim

variable {o : FmtE} {s : State} {va pa : Nat}

section OnRing
variable {n no ty : Nat}

theorem onRing_ok {body : M Unit} (hbad : ringBad (settleLine s (lineOf pa)) pa = none)
    (hspawn : ringSpawn (ringHdr (settleLine s (lineOf pa)) pa) = false) (hn : countOk64 n = true) :
    onRing o va pa n no ty body s = body (settleLine s (lineOf pa)) := by
  unfold onRing atSlice
  rw [M_upd_bind, M_get_bind, hbad]
  exact congrFun (if_neg (by simp [hspawn, hn])) _

theorem onRing_refused {body : M Unit} (hbad : ringBad (settleLine s (lineOf pa)) pa = none)
    (h : ringSpawn (ringHdr (settleLine s (lineOf pa)) pa) = true ∨ countOk64 n = false) :
    onRing o va pa n no ty body s = .ok ((), putK o ty no (settleLine s (lineOf pa))) := by
  unfold onRing atSlice
  rw [M_upd_bind, M_get_bind, hbad]
  exact congrFun (if_pos (by simpa using h)) _

theorem onRing_bad {body : M Unit} {c : Nat} (hbad : ringBad (settleLine s (lineOf pa)) pa = some c) :
    onRing o va pa n no ty body s = .ok ((), putK o ty no (structFault (settleLine s (lineOf pa)) c va)) := by
  unfold onRing atSlice
  rw [M_upd_bind, M_get_bind, hbad]
  rfl

end OnRing

/-! ### RCLAIM -/

section Claim
variable (hgood : structGood o (use1 o.a ++ use1 (WF.efF o 43)) 64 64 needRW s pa)
include hgood

theorem exec_rclaim_of_ring (hbad : ringBad (settleLine s (lineOf pa)) pa = none)
    (hspawn : ringSpawn (ringHdr (settleLine s (lineOf pa)) pa) = false) (hn : countOk64 (eCount s (WF.efF o 43)) = true) :
    exec (.rclaim o) s = .next (eAcquire o (putK o 3 (claimRing (settleLine s (lineOf pa)) pa (eCount s (WF.efF o 43))).2
      (claimRing (settleLine s (lineOf pa)) pa (eCount s (WF.efF o 43))).1)) :=
  finish_ok _ s _ ((uniStruct_ok o _ 64 64 needRW _ s pa hgood).trans ((M_get_bind _ s).trans (onRing_ok hbad hspawn hn)))

theorem exec_rclaim_refused (hbad : ringBad (settleLine s (lineOf pa)) pa = none)
    (h : ringSpawn (ringHdr (settleLine s (lineOf pa)) pa) = true ∨ countOk64 (eCount s (WF.efF o 43)) = false) :
    exec (.rclaim o) s = .next (putK o 3 (2 ^ 63) (settleLine s (lineOf pa))) :=
  finish_ok _ s _ ((uniStruct_ok o _ 64 64 needRW _ s pa hgood).trans ((M_get_bind _ s).trans (onRing_refused hbad h)))

theorem exec_rclaim_bad {c : Nat} (hbad : ringBad (settleLine s (lineOf pa)) pa = some c) :
    exec (.rclaim o) s = .next (putK o 3 (2 ^ 63) (structFault (settleLine s (lineOf pa)) c (eAddr s o.a 0))) :=
  finish_ok _ s _ ((uniStruct_ok o _ 64 64 needRW _ s pa hgood).trans ((M_get_bind _ s).trans (onRing_bad hbad)))

end Claim

/-! ### RCOMMIT and RRETIRE -/

section Settle
variable (hgood : structGood o (use1 o.a ++ use1 (WF.efF o 43) ++ use1 (WF.efF o 33)) 64 64 needRW s pa)
include hgood

theorem settleCore_ok {tail : Bool} {r : State × Nat} (hbad : ringBad (settleLine s (lineOf pa)) pa = none)
    (hspawn : ringSpawn (ringHdr (settleLine s (lineOf pa)) pa) = false) (hn : countOk64 (eCount s (WF.efF o 33)) = true)
    (hrel : releaseReady (settleLine s (lineOf pa)))
    (hr : settle (eRelease o (settleLine s (lineOf pa))) pa tail (e64 s true (WF.efF o 43) 0) (eCount s (WF.efF o 33)) = some r) :
    settleCore o tail s = .ok ((), serveRing (putK o 2 r.2 r.1) pa) := by
  refine (uniStruct_ok o _ 64 64 needRW _ s pa hgood).trans ((M_get_bind _ s).trans ((onRing_ok hbad hspawn hn).trans ?_))
  rw [M_bind_ok _ _ _ _ _ (beforeRelease_ok _ hrel), M_upd_bind, M_get_bind, hr]
  rfl

theorem settleCore_refused {tail : Bool} (hbad : ringBad (settleLine s (lineOf pa)) pa = none)
    (h : ringSpawn (ringHdr (settleLine s (lineOf pa)) pa) = true ∨ countOk64 (eCount s (WF.efF o 33)) = false) :
    settleCore o tail s = .ok ((), putK o 2 2 (settleLine s (lineOf pa))) :=
  (uniStruct_ok o _ 64 64 needRW _ s pa hgood).trans ((M_get_bind _ s).trans (onRing_refused hbad h))

end Settle

/-! ### RAWAIT -/

section Await
variable (hgood : structGood o (use1 o.a ++ use1 (WF.efF o 43)) 64 64 needRW s pa)
  (hbad : ringBad (settleLine (blockOn s s.cur.g .rawait) (lineOf pa)) pa = none)
  (hspawn : ringSpawn (ringHdr (settleLine (blockOn s s.cur.g .rawait) (lineOf pa)) pa) = false)
include hgood hbad hspawn

theorem exec_rawaitTake_of_ring (hn : countOk64 (eCount s (WF.efF o 43)) = true) :
    exec (.rawaitTake o) s = .next (
      match tryTake (settleLine (blockOn s s.cur.g .rawait) (lineOf pa)) pa (eCount s (WF.efF o 43)) with
      | some r => makeReady (eAcquire o (replyK r.1 s.cur.g s.me.uid o r.2)) s.cur.g
      | none => addWaiter (settleLine (blockOn s s.cur.g .rawait) (lineOf pa)) pa (.take s.cur.g s.me.uid (eCount s (WF.efF o 43)) o)) := by
  refine finish_ok _ s _ ((uniStruct_ok o _ 64 64 needRW _ s pa hgood).trans ?_)
  unfold awaitOn atSlice
  rw [M_get_bind, M_upd_bind, M_upd_bind, M_get_bind, hbad]
  refine (congrFun (if_neg (by simp [hspawn, hn])) _).trans ?_
  cases tryTake (settleLine (blockOn s s.cur.g .rawait) (lineOf pa)) pa (eCount s (WF.efF o 43)) <;> rfl

theorem exec_rawaitAt_of_ring :
    exec (.rawaitAt o) s = .next (
      if e64 s true (WF.efF o 43) 0 ≤ (ringHdr (settleLine (blockOn s s.cur.g .rawait) (lineOf pa)) pa).committed
      then makeReady (eAcquire o (settleLine (blockOn s s.cur.g .rawait) (lineOf pa))) s.cur.g
      else addWaiter (settleLine (blockOn s s.cur.g .rawait) (lineOf pa)) pa
        (.at_ s.cur.g (settleLine (blockOn s s.cur.g .rawait) (lineOf pa)).me.uid (e64 s true (WF.efF o 43) 0) o)) := by
  refine finish_ok _ s _ ((uniStruct_ok o _ 64 64 needRW _ s pa hgood).trans ?_)
  unfold awaitOn atSlice
  rw [M_get_bind, M_upd_bind, M_upd_bind, M_get_bind, hbad]
  refine (congrFun (if_neg (by simp [hspawn])) _).trans ?_
  split <;> rfl

end Await

/-- Settles O34: each ring instruction by what its header is. -/
theorem ringResults : Obligations.RingResults := by
  unfold Obligations.RingResults
  intro o s pa va s1 fits
  refine ⟨fun hgood => ⟨?_, exec_rclaim_refused hgood, fun c => exec_rclaim_bad hgood⟩, fun hgood => ⟨?_, ?_, ?_⟩, ?_⟩
  · rintro ⟨hbad, hspawn, hn⟩
    exact exec_rclaim_of_ring hgood hbad hspawn hn
  · rintro r ⟨hbad, hspawn, hn⟩ hrel hr
    exact finish_ok _ s _ (settleCore_ok hgood hbad hspawn hn hrel hr)
  · rintro r ⟨hbad, hspawn, hn⟩ hrel hr
    exact finish_ok _ s _ (settleCore_ok hgood hbad hspawn hn hrel hr)
  · intro hbad h
    exact ⟨finish_ok _ s _ (settleCore_refused hgood hbad h), finish_ok _ s _ (settleCore_refused hgood hbad h)⟩
  · intro g s2 hgood hbad hspawn
    exact ⟨exec_rawaitTake_of_ring hgood hbad hspawn, exec_rawaitAt_of_ring hgood hbad hspawn⟩

/-! ### ENQ and DEQ -/

/-- Settles O35: one request for each structure, behind the release of ENQ. -/
theorem queueResults : Obligations.QueueResults := by
  unfold Obligations.QueueResults
  intro o s ps hne
  refine ⟨fun hgood hrel => ?_, fun hgood => ?_⟩
  · exact finish_ok _ s _ ((eachStruct_ok o _ 64 64 needRW _ s ps hgood hne).trans (M_bind_ok _ _ _ _ _ (beforeRelease_ok s hrel)))
  · exact finish_ok _ s _ (eachStruct_ok o _ 64 64 needRW _ s ps hgood hne)

end Sys2Proof.Machine
end

section
/-! Tasks, continuations and messages (R358 to R377): the structures named are in order, the registers good, the release may go on; then each
instruction is its effect. -/

namespace Sys2Proof.Machine

open Claim

variable {o : FmtE} {s : State} {pa : Nat} {ps : List Named}

/-! ### SIGNAL, PUBLISH, ITREP, LAUNCH and LAUNCH.graph -/

/-- A release that a lane form makes where it runs. -/
theorem releaseIf_ok {c : Prop} [Decidable c] {m : M Unit} (hrel : releaseReady s) :
    (if c then (beforeRelease >>= fun _ => m) else m) s = m s := ifM_ok c beforeRelease m s fun _ => beforeRelease_ok s hrel

theorem exec_signal_of_counts (hrel : releaseReady s) (hne : runners s o.h ≠ [])
    (hgood : structsGood o (use2 o.a ++ use1 (WF.efF o 43)) 64 64 needRW s ps) (hcount : ∀ t ∈ runners s o.h, sigCountOk o s t = true) :
    exec (.signal o) s = .next (signalEach o s ps s) := by
  refine finish_ok _ s _ ((M_get_bind _ s).trans ((need_bind_ok (decide_eq_true (filter_not_eq_nil hcount))).trans ?_))
  exact (eachStruct_ok o _ 64 64 needRW _ s ps hgood hne).trans (releaseIf_ok hrel)

theorem exec_signal_of_none (hnone : runners s o.h = []) : exec (.signal o) s = .next s := by
  refine finish_ok _ s _ ((M_get_bind _ s).trans ((need_bind_ok (decide_eq_true ?_)).trans (eachStruct_off o _ 64 64 needRW _ s hnone)))
  rw [hnone, List.filter_nil]

theorem exec_publish_of_struct (hrel : releaseReady s) (hgood : structGood o (use1 o.a ++ use1 (WF.efF o 43)) 64 64 needRW s pa) :
    exec (.publish o) s = .next (publishNow o (eAddr s o.a 0) pa s) :=
  finish_ok _ s _ ((uniStruct_ok o _ 64 64 needRW _ s pa hgood).trans (M_bind_ok _ _ _ _ _ (beforeRelease_ok s hrel)))

theorem exec_itrep_of_structs (hrel : releaseReady s) (hne : runners s o.h ≠ [])
    (hgood : structsGood o (use2 o.a ++ use2 (WF.efF o 43) ++ use2 (WF.efF o 33)) 32 32 needRW s ps) :
    exec (.itrep o) s = .next (ps.foldl (offerOne o s) (eRelease o s)) :=
  finish_ok _ s _ ((eachStruct_ok o _ 32 32 needRW _ s ps hgood hne).trans (releaseIf_ok hrel))

/-- The bytes of a range that reads well, and the state with its lines settled. -/
theorem readSettled_ok {t : State} {xl : Nat → Xlat} {va n : Nat} {bs : List Byte} (h : readRange t xl va n = .ok bs) :
    readSettled t xl va n = .ok (settleRange t xl va n, bs) := by
  rw [readSettled, h]
  rfl

theorem exec_launch_of_record {bs : List Byte} {t : State} (hrel : releaseReady s) (hgood : structGood o (use1 o.a) 64 128 needR s pa)
    (ht : doRelease s s.cur.g 4 = t) (hread : readRange t (xlGrp t t.cur.g needR) (eAddr s o.a 0) 128 = .ok bs) :
    exec (.launch o) s = .next (submitRecord o (eAddr s o.a 0) bs (settleRange t (xlGrp t t.cur.g needR) (eAddr s o.a 0) 128)) := by
  refine finish_ok _ s _ ((uniStruct_ok o _ 64 128 needR _ s pa hgood).trans ((M_bind_ok _ _ _ _ _ (beforeRelease_ok s hrel)).trans ?_))
  rw [M_upd_bind, M_get_bind, ht, readSettled_ok hread]
  rfl

theorem exec_launchGraph_of_room (hrel : releaseReady s) (hgood : structGood o (graphUses o) 64 64 needR s pa) (hdone : graphDone o s % 8 = 0)
    (hroom : pathsOn s (coreDie (placeCore s.cur.g)) < 256) :
    exec (.launchGraph o) s = .next (startWalk o (eAddr s o.a 0) (graphDone o s) s) := by
  refine finish_ok _ s _ ((uniStruct_ok o _ 64 64 needR _ s pa hgood).trans ?_)
  rw [M_get_bind, need_bind_ok (decide_eq_true hdone), if_neg (Nat.not_le.mpr hroom), M_bind_ok _ _ _ _ _ (beforeRelease_ok s hrel)]
  rfl

theorem exec_laneTask_of_none (hnone : runners s o.h = []) (i : Instr) (hi : i ∈ [Instr.signal o, .itrep o]) : exec i s = .next s := by
  obtain rfl | rfl := by simpa using hi
  · exact exec_signal_of_none hnone
  · exact finish_ok _ s s (eachStruct_off o _ 32 32 needRW _ s hnone)

theorem exec_uniTask_of_off (hg : guardG s o.h = false) (i : Instr) (hi : i ∈ [Instr.publish o, .launch o, .launchGraph o]) :
    exec i s = .next s := by
  obtain rfl | rfl | rfl := by simpa using hi
  · exact finish_ok _ s s (uniStruct_off o _ 64 64 needRW _ s hg)
  · exact finish_ok _ s s (uniStruct_off o _ 64 128 needR _ s hg)
  · exact finish_ok _ s s (uniStruct_off o _ 64 64 needR _ s hg)

/-- Settles O36: each instruction on a task record or the Caller, behind its release. -/
theorem taskResults : Obligations.TaskResults := by
  unfold Obligations.TaskResults
  intro o s pa ps va released hrel
  exact ⟨exec_signal_of_counts hrel, exec_publish_of_struct hrel, exec_itrep_of_structs hrel, fun bs hgood => exec_launch_of_record hrel hgood rfl,
    exec_launchGraph_of_room hrel, exec_laneTask_of_none, exec_uniTask_of_off⟩

/-! ### CONT -/

/-- The structure at the wait address: none for a continuation that does not wait. -/
theorem waitStruct_ok {wpa : Nat}
    (h : if contWk o = 0 then wpa = 0 else structAt s (contAlign o) (contAlign o) (contNeed o) (contWaddr o s) wpa) :
    ∃ ws : List Named, (∀ m : List Named → M Unit,
        (if contWk o = 0 then (pure [] >>= m)
          else (structs true false (contAlign o) (contAlign o) (contNeed o) [(0, contWaddr o s)] >>= m)) s = m ws s)
      ∧ (ws.head?.map (·.2)).getD 0 = wpa := by
  split at h
  · rename_i hw
    exact ⟨[], fun m => congrFun (if_pos hw) s, h.symm⟩
  · rename_i hw
    exact ⟨[(0, wpa)], fun m => (congrFun (if_neg hw) s).trans (M_bind_ok _ _ _ _ _ (structs1_ok true false _ _ _ _ wpa s h)), rfl⟩

theorem exec_cont_of_ready {t s1 : State} {qa wpa : Nat} (hg : guardG s o.h = true) (hallow : contAllowed s = true)
    (hgood : good s (readsOf (.cont o)) [0]) (hrec : structAt s 64 (contSize o) needW (eAddr s o.a 0) pa)
    (hqueue : structAt s 64 64 needRW (contQueue o s) qa)
    (hwait : if contWk o = 0 then wpa = 0 else structAt s (contAlign o) (contAlign o) (contNeed o) (contWaddr o s) wpa)
    (hrel : releaseReady s) (hs1 : doRelease s s.cur.g 4 = s1)
    (hwrite : writeRange s1 (xlGrp s1 s1.cur.g needW) (eAddr s o.a 0) (contRecord o s1) = .ok t) :
    exec (.cont o) s = .next (suspend o s1 (eAddr s o.a 0) wpa t) := by
  obtain ⟨ws, hws, hwpa⟩ := waitStruct_ok hwait
  refine finish_ok (contCore o) s _ ?_
  unfold contCore
  rw [M_get_bind, if_neg (by simp [hg]), need_bind_ok hallow, M_bind_ok _ _ _ _ _ (checkStale_ok true _ _ s fun t ht => (hgood t ht).1),
    M_bind_ok _ _ _ _ _ (structs1_ok true false _ _ _ _ pa s hrec), M_bind_ok _ _ _ _ _ (structs1_ok true false _ _ _ _ qa s hqueue), ← hwpa]
  refine (hws _).trans ((M_bind_ok _ _ s s () (checkPoison_ok true _ _ s fun t ht => (hgood t ht).2)).trans ?_)
  rw [M_bind_ok _ _ _ _ _ (beforeRelease_ok s hrel), M_upd_bind, M_get_bind, hs1, hwrite]
  rfl

theorem takes_cont (hg : guardG s o.h = true) (hallow : contAllowed s = false) :
    takes (.cont o) s { cause := 0x06, mask := s.me.resident } := by
  refine finish_trap (contCore o) s _ ?_
  rw [contCore, M_get_bind, if_neg (by simp [hg]), M_need_bind, if_neg (by simp [hallow])]

/-- Settles O37: CONT suspends, traps, or does nothing. -/
theorem continuationResults : Obligations.ContinuationResults := by
  unfold Obligations.ContinuationResults
  intro o s t pa qa wpa va s1
  refine ⟨fun hg hallow hgood hrec hqueue hwait hrel hwrite => ?_, takes_cont, fun hg => ?_⟩
  · exact exec_cont_of_ready hg hallow hgood hrec hqueue hwait hrel rfl hwrite
  · exact finish_ok (contCore o) s s (by rw [contCore, M_get_bind, if_pos (by simp [hg])]; rfl)

/-! ### SEND, RECVP, RECVW and PROBE -/

theorem exec_send_of_ready {bs : List Byte} {t : State} (hg : guardG s o.h = true) (hgood : good s (sendUses o) [0])
    (hlen : lenOk (sendLen o s) = true) (hdest : destOk s (sendDest o s) = true)
    (hstruct : structAt s 16 (sendLen o s) needR (sendAddr o s) pa) (hroom : sendFull s = false) (hrel : releaseReady s)
    (ht : settleRange (eRelease o s) (xlGrp (eRelease o s) (eRelease o s).cur.g needR) (sendAddr o s) (sendLen o s) = t)
    (hread : readRange t (xlGrp t t.cur.g needR) (sendAddr o s) (sendLen o s) = .ok bs) :
    exec (.send o) s = .next (sendPacket o bs t) := by
  refine finish_ok (sendCore o) s _ ?_
  unfold sendCore
  rw [M_get_bind, if_neg (by simp [hg]), M_bind_ok _ _ _ _ _ (checkStale_ok true _ _ s fun t ht => (hgood t ht).1), need_bind_ok hlen,
    need_bind_ok (decide_eq_true hstruct.1), need_bind_ok hdest, M_bind_ok _ _ _ _ _ (structs1_ok true false _ _ _ _ pa s hstruct),
    M_bind_ok _ _ _ _ _ (checkPoison_ok true _ _ s fun t ht => (hgood t ht).2), if_neg (by simp [hroom]),
    M_bind_ok _ _ _ _ _ (beforeRelease_ok s hrel), M_upd_bind, M_upd_bind, M_get_bind, ht, hread]
  rfl

theorem exec_recvp_of_ready (hg : guardG s o.h = true) (hgood : good s (recvUses o) [0]) (hport : recvPort o s ≤ 63)
    (hcap : lenOk (recvCap o s) = true) (hstruct : structAt s 16 (recvCap o s) needW (eAddr s o.a 0) pa)
    (hroom : recvFull s (ownPort s (recvPort o s)) = false) : exec (.recvp o) s = .next (postRecv o (eAddr s o.a 0) s) := by
  refine finish_ok (recvpCore o) s _ ?_
  unfold recvpCore
  rw [M_get_bind, if_neg (by simp [hg]), M_bind_ok _ _ _ _ _ (checkStale_ok true _ _ s fun t ht => (hgood t ht).1),
    need_bind_ok (by simp [hport, hcap]), M_bind_ok _ _ _ _ _ (structs1_ok true false _ _ _ _ pa s hstruct),
    M_bind_ok _ _ _ _ _ (checkPoison_ok true _ _ s fun t ht => (hgood t ht).2), if_neg (by simp [hroom])]
  rfl

/-- An instruction on a receive its token names goes on with it. -/
theorem recvToken_ok {r : Recv} {body : Recv → M Unit} (hg : guardG s o.h = true) (hgood : good s (use1 o.a) [0])
    (hr : recvOf s (readK s.seen (o.a.toNat - 0x100)) = some r) :
    (do if !guardG s o.h then pure ()
        else do checkStale true (use1 o.a) [0]; let r ← tokenRecv o; checkPoison true (use1 o.a) [0]; body r : M Unit) s = body r s := by
  rw [if_neg (by simp [hg]), M_bind_ok _ _ _ _ _ (checkStale_ok true _ _ s fun t ht => (hgood t ht).1), M_bind_ok _ _ _ _ _ (tokenRecv_ok o r s hr),
    M_bind_ok _ _ _ _ _ (checkPoison_ok true _ _ s fun t ht => (hgood t ht).2)]

theorem exec_recvw_of_done {r : Recv} (hg : guardG s o.h = true) (hgood : good s (use1 o.a) [0])
    (hr : recvOf s (readK s.seen (o.a.toNat - 0x100)) = some r) (hdone : r.status ≠ 0) :
    exec (.recvw o) s = .next (eAcquire o (putK o 3 r.status s)) :=
  finish_ok _ s _ ((M_get_bind _ s).trans ((recvToken_ok hg hgood hr).trans (congrFun (if_neg hdone) s)))

theorem exec_recvw_of_pending {r : Recv} (hg : guardG s o.h = true) (hgood : good s (use1 o.a) [0])
    (hr : recvOf s (readK s.seen (o.a.toNat - 0x100)) = some r) (hwait : r.status = 0) :
    exec (.recvw o) s = .next (waitHere (.recv (readK s.seen (o.a.toNat - 0x100))) s) :=
  finish_ok _ s _ ((M_get_bind _ s).trans ((recvToken_ok hg hgood hr).trans (congrFun (if_pos hwait) s)))

theorem exec_probeTok_of_recv {r : Recv} (hg : guardG s o.h = true) (hgood : good s (use1 o.a) [0])
    (hr : recvOf s (readK s.seen (o.a.toNat - 0x100)) = some r) :
    exec (.probeTok o) s = .next (putK o 3 r.status (s.updMe fun x => setG x (WF.ef o 18 16) (r.status ≠ 0))) :=
  finish_ok _ s _ ((M_get_bind _ s).trans (recvToken_ok hg hgood hr))

theorem exec_probe_of_port (hg : guardG s o.h = true) (hgood : good s (probeUses o) [0]) (hport : recvPort o s ≤ 63) :
    exec (.probe o) s = .next (probeAnswer o (probeFind o s) s) := by
  refine finish_ok _ s _ ?_
  rw [M_get_bind, if_neg (by simp [hg]), M_bind_ok _ _ _ _ _ (checkStale_ok true _ _ s fun t ht => (hgood t ht).1),
    need_bind_ok (decide_eq_true hport), M_bind_ok _ _ _ _ _ (checkPoison_ok true _ _ s fun t ht => (hgood t ht).2)]
  rfl

theorem exec_message_of_off (hg : guardG s o.h = false) (i : Instr) (hi : i ∈ [Instr.send o, .recvp o, .recvw o, .probe o, .probeTok o]) :
    exec i s = .next s := by
  obtain rfl | rfl | rfl | rfl | rfl := by simpa using hi
  · exact finish_ok (sendCore o) s s (by rw [sendCore, M_get_bind, if_pos (by simp [hg])]; rfl)
  · exact finish_ok (recvpCore o) s s (by rw [recvpCore, M_get_bind, if_pos (by simp [hg])]; rfl)
  · exact finish_ok _ s s (by rw [M_get_bind, if_pos (by simp [hg])]; rfl)
  · exact finish_ok _ s s (by rw [M_get_bind, if_pos (by simp [hg])]; rfl)
  · exact finish_ok _ s s (by rw [M_get_bind, if_pos (by simp [hg])]; rfl)

/-- Settles O38: each message instruction, behind its own checks. -/
theorem messageResults : Obligations.MessageResults := by
  unfold Obligations.MessageResults
  intro o s pa released
  refine ⟨fun bs hg hgood hlen hdest hstruct hroom hrel hread => ?_, exec_recvp_of_ready, fun r hg hgood hr => ⟨?_, ?_, ?_⟩, exec_probe_of_port,
    exec_message_of_off⟩
  · exact exec_send_of_ready hg hgood hlen hdest hstruct hroom hrel rfl hread
  · exact exec_recvw_of_done hg hgood hr
  · exact exec_recvw_of_pending hg hgood hr
  · exact exec_probeTok_of_recv hg hgood hr

end Sys2Proof.Machine
end

section
/-! Acts of the groups, of a die and of the Caller: an act runs where its condition holds and else changes nothing (`finish_onlyIf_true`,
`finish_onlyIf_false`). -/

namespace Sys2Proof.Machine

open Claim

variable {s : State}

/-- An act whose condition holds is what follows it. -/
theorem finish_onlyIf_true {b : Bool} {m : Unit → M Unit} (h : b = true) : finish (onlyIf b >>= m) s = finish (m ()) s := by
  simp only [finish, M_onlyIf_bind, if_pos h]

/-- An act whose condition fails changes nothing. -/
theorem finish_onlyIf_false {b : Bool} {m : Unit → M Unit} (h : b = false) : finish (onlyIf b >>= m) s = .next s :=
  finish_idle _ s (by rw [M_onlyIf_bind, if_neg (by simp [h])])

theorem finish_idleM : finish idleM s = .next s := rfl
theorem finish_upd (f : State → State) : finish (upd f) s = .next (f s) := rfl

/-- A condition, then one step of the state. -/
theorem finish_when {b : Bool} {f : State → State} (h : b = true) : finish (do onlyIf b; upd f) s = .next (f s) :=
  finish_onlyIf_true h

/-! ### Acts of the groups -/

section GroupActs
variable {g k : Nat}

theorem exec_lineExecution_of_line (hissue : canIssue s g = true) (hlive : (s.grp g).live ≠ 0) {r : List (Nat × Line) × Nat}
    (hr : checkLine s g ((s.grp g).pc / 5) ((s.grp g).pc % 5) false (s.grp g).entering false = .ok r) :
    exec (.lineExecution g) s = .next ((countCorrected { s with cur := { g := g, off := (s.grp g).pc } } (coreDie (placeCore g)) r.2).updGrp g
      fun x => beginLine x r.1 (idleImages { s with cur := { g := g, off := (s.grp g).pc } } g (x.pc / 5))) := by
  show execLineExecution g s = _
  unfold execLineExecution
  dsimp only
  rw [if_neg (by simpa [hissue] using hlive), hr]
  rfl

theorem exec_lineExecution_trap (hissue : canIssue s g = true) (hlive : (s.grp g).live ≠ 0) {t : Trap}
    (ht : checkLine s g ((s.grp g).pc / 5) ((s.grp g).pc % 5) false (s.grp g).entering false = .error t) :
    exec (.lineExecution g) s = .next (takeTrap { s with cur := { g := g, off := (s.grp g).pc } } t) := by
  show execLineExecution g s = _
  unfold execLineExecution
  dsimp only
  rw [if_neg (by simpa [hissue] using hlive), ht]
  rfl

theorem exec_lineExecution_off (hissue : canIssue s g = false) : exec (.lineExecution g) s = .next s := by
  show execLineExecution g s = _
  unfold execLineExecution
  exact if_pos (by simp [hissue])

theorem exec_loadDataArrival_of_load {l : Load} (hl : spFind s.loads k = some l) (hw : loadWaits s l = false) :
    exec (.loadDataArrival k) s = .next (completeLoad s k) := by
  show execLoadDataArrival k s = _
  simp [execLoadDataArrival, hl, hw]

theorem exec_loadDataArrival_of_none (hl : spFind s.loads k = none) : exec (.loadDataArrival k) s = .next s := by
  show execLoadDataArrival k s = _
  simp [execLoadDataArrival, hl]

theorem exec_writePerformed_of_first {w : PostedWrite} (hw : spFind s.posted k = some w)
    (hfirst : ((s.posted.find? fun e => e.2.line = w.line && (e.2.core = w.core || e.2.written)).map (·.1)) = some k) :
    exec (.writePerformed k) s = .next (
      if w.written then performTo (.near (w.invs.getD (s.fresh.1 % w.invs.length) 0)) s.fresh.2 k else performTo .home s k) := by
  show execWritePerformed k s = _
  unfold execWritePerformed
  rw [hw]
  dsimp only
  rw [if_neg (by simpa using hfirst)]
  split <;> rfl

theorem exec_writePerformed_of_none (hw : spFind s.posted k = none) : exec (.writePerformed k) s = .next s := by
  show execWritePerformed k s = _
  simp [execWritePerformed, hw]

theorem exec_quantum_of_tenure {core half : Nat} {e : Nat × Group} (he : longestHeld s core half = some e)
    (hready : (pickReady s core half fun _ => false).isSome = true) (htenure : 16384 ≤ e.2.tenure) (hp : s.grpPavane e.1 = false) :
    exec (.quantum core half) s = .next (swapOut s e.1) := by
  show execQuantum core half s = _
  unfold execQuantum
  rw [he]
  exact finish_when (by simp [hready, htenure, hp])

end GroupActs

/-- Settles O39: each act of a group, where its condition holds and where it does not. -/
theorem groupActResults : Obligations.GroupActResults := by
  unfold Obligations.GroupActResults
  intro s g k core half
  refine ⟨?_, fun l => exec_loadDataArrival_of_load, fun w => exec_writePerformed_of_first, fun hg hover => ?_, fun hg hpark hat => ?_,
    fun e => exec_quantum_of_tenure, exec_lineExecution_off, exec_loadDataArrival_of_none, exec_writePerformed_of_none⟩
  · intro x s0 hissue hlive
    exact ⟨fun r => exec_lineExecution_of_line hissue hlive, fun t => exec_lineExecution_trap hissue hlive⟩
  · exact finish_when (by simpa [hg] using hover)
  · exact finish_when (by simp [hg, hpark, hat])

/-! ### Acts of a die -/

section DieActs
variable {quad g d csr : Nat} {v : DWord}

theorem exec_trapDispatch_of_queued (hruns : dieRuns s (quad / 12) = true) (hrun : (s.handler quad).running = false)
    (hq : (s.handler quad).queue ≠ []) : exec (.trapDispatch quad) s = .next (takeOldest s quad) :=
  finish_when (by simp [hruns, hrun, hq])

theorem exec_trapDispatch_of_running (hrun : (s.handler quad).running = true) : exec (.trapDispatch quad) s = .next s :=
  finish_onlyIf_false (by simp [hrun])

theorem exec_machineCheck_of_present (hp : diePresent s d = true) (hm : (s.die d).mcheck = false) :
    exec (.machineCheck d) s = .next (machineCheck (countLost s d 7 none) d) := finish_when (by simp [hp, hm])

theorem exec_machineCheck_again (hm : (s.die d).mcheck = true) : exec (.machineCheck d) s = .next s := finish_onlyIf_false (by simp [hm])

theorem exec_csrWrite_of_own (hg : s.hasGrp g = true) (hcsr : csr = 1 ∨ csr = 2 ∨ (csr = 0x409 ∧ isControl g = true)) :
    exec (.csrWrite g csr v) s = .next (writeCsr s g csr v) := by
  show execCsrWrite g csr v s = _
  unfold execCsrWrite
  rw [if_pos]
  simpa [hg, or_assoc] using hcsr

theorem exec_dieWrite_of_absent (hp : diePresent s d = false) (i : Instr)
    (hi : i ∈ [Instr.rwaysWrite d v, .refcalWrite d v, .pavaneWrite d v, .ringpoolWrite d v, .errcntWrite d v]) : exec i s = .next s := by
  have hkeep (t : State) : (.next (if diePresent s d then t else s) : Host.Outcome State Fault Refusal) = .next s := by
    rw [if_neg (by simp [hp])]
  obtain rfl | rfl | rfl | rfl | rfl := by simpa using hi
  · exact hkeep _
  · exact hkeep _
  · exact hkeep _
  · exact hkeep _
  · exact hkeep _

/-- A region is throttled exactly where its power is capped and above its cap. -/
theorem throttled_contains (c : Prop) [Decidable c] (l : List (Nat × Nat × Nat)) (t : Nat × Nat × Nat) :
    (if c then (l.filter fun u => u ≠ t) ++ [t] else l.filter fun u => u ≠ t).contains t = decide c := by
  by_cases hc : c
  · rw [if_pos hc, decide_eq_true hc]
    simp
  · rw [if_neg hc, decide_eq_false hc]
    simp

end DieActs

/-- Settles O40: traps, machine checks, resets, register writes and the power events. -/
theorem dieActResults : Obligations.DieActResults := by
  unfold Obligations.DieActResults
  intro s quad g d csr v
  refine ⟨exec_trapDispatch_of_queued, exec_trapDispatch_of_running,
    fun hp => ⟨finish_when hp, exec_machineCheck_of_present hp, exec_machineCheck_again⟩,
    fun hg => ⟨congrArg _ (if_pos hg), exec_csrWrite_of_own hg⟩,
    fun hp => ⟨congrArg _ (if_pos hp), congrArg _ (if_pos hp), congrArg _ (if_pos hp), congrArg _ (if_pos hp), congrArg _ (if_pos hp)⟩,
    exec_dieWrite_of_absent, fun watts => rfl, fun c r watts => ⟨_, rfl, ?_⟩, fun out => rfl, rfl⟩
  have h := throttled_contains ((regionOf s c r).power ≠ 0 ∧ (regionOf s c r).power < watts) s.throttled (d, c, r)
  simpa using h

end Sys2Proof.Machine
end

section
/-! Acts of the Caller, of the engines and of the home slices. -/

namespace Sys2Proof.Machine

open Claim

variable {s : State}

/-! ### Acts of the Caller -/

section CallerActs
variable {d l k b : Nat}

theorem finish_moveOf_same {kind : Nat} {c : Cand} {t : State} (h : nextMove s d = some (c, t)) (hk : c.kind = kind) :
    finish (moveOf d kind) s = .next (refreshHeads t) := by
  refine finish_ok _ s _ ?_
  rw [moveOf, M_get_bind, h]
  dsimp only
  rw [if_pos hk]
  rfl

theorem finish_moveOf_other {kind : Nat} {c : Cand} {t : State} (h : nextMove s d = some (c, t)) (hk : c.kind ≠ kind) :
    finish (moveOf d kind) s = .next s := by
  refine finish_idle _ s ?_
  rw [moveOf, M_get_bind, h]
  dsimp only
  rw [if_neg hk]
  rfl

theorem exec_stagingLineLand_of_served {j : Stage} (hj : spFind s.stages k = some j) (hleft : 0 < j.left) (hstop : j.stopped = false)
    (hserved : stageServed s k j = true) : exec (.stagingLineLand k) s = .next (landLine s k j) := by
  show execStagingLineLand k s = _
  unfold execStagingLineLand
  rw [hj]
  dsimp only
  rw [if_pos (by simp [hleft, hstop, hserved])]
  rfl

theorem exec_dispatchTimeout_of_placed {b : Block} (hb : spFind s.blocks k = some b) (hplaced : b.state = .placed)
    (hold : b.placedAt + 80000 ≤ s.clock) : exec (.dispatchTimeout k) s = .next (dispatchBlock s k) := by
  have hblk : s.blk k = b := by simp [State.blk, hb]
  exact finish_when (by simp [hblk, hb, hplaced, hold])

theorem exec_preemptionRequest_of_victims {i : Nat} {vs : List Nat} (hi : headShare s d l = some i) (h1 : tryHead s d l i = none)
    (h2 : tryHead ((goingOut s).foldl discardBlock s) d l i = none)
    (hvs : victimPrefix ((goingOut s).foldl discardBlock s) d l i [] (victimsOf s (victimFor s d l)) = some vs) :
    exec (.preemptionRequest d l) s = .next (preemptAll (s.lch l) vs s) := by
  show execPreemptionRequest d l s = _
  unfold execPreemptionRequest
  rw [hi]
  dsimp only
  rw [if_neg (by simp [h1, h2]), hvs]
  rfl

theorem exec_blockSave_of_flush (hl : leavesNow s b = true) (hf : (s.blk b).flushing = true) :
    exec (.blockSave b) s = .next (flushBlock s b) := by
  refine (finish_onlyIf_true hl).trans ?_
  rw [if_pos hf]
  rfl

theorem exec_blockSave_of_ready (hl : leavesNow s b = true) (hf : (s.blk b).flushing = false) (hr : saveReady s b = true) :
    exec (.blockSave b) s = .next (saveBlock (haltForSave s b) b) := by
  refine (finish_onlyIf_true hl).trans ?_
  rw [if_neg (by simp [hf])]
  exact finish_when hr

end CallerActs

/-- Settles O41: each act of the Caller, where its condition holds and where it does not. -/
theorem callerActResults : Obligations.CallerActResults := by
  unfold Obligations.CallerActResults
  intro s d l bid range k b
  refine ⟨fun c t h => ⟨finish_moveOf_same h, finish_moveOf_same h, finish_moveOf_same h, finish_moveOf_other h, finish_moveOf_other h,
      finish_moveOf_other h⟩, finish_when, fun j => exec_stagingLineLand_of_served, fun b => exec_dispatchTimeout_of_placed, fun hs ho => ?_,
    finish_when, fun i vs => exec_preemptionRequest_of_victims, fun hl => ⟨exec_blockSave_of_flush hl, exec_blockSave_of_ready hl⟩,
    finish_onlyIf_false, finish_onlyIf_false, fun ho => finish_onlyIf_false (by simp [ho])⟩
  exact finish_when (by simp [hs, ho])

/-! ### Acts of the engines -/

section EngineActs
variable {quad k row : Nat}

theorem exec_passGrant_of_entry {e : Nat × MatOp} (he : nextGrant s quad = some e) : exec (.passGrant quad) s = .next (grantPass s quad e.1) := by
  show execPassGrant quad s = _
  unfold execPassGrant
  rw [he]
  rfl

theorem exec_passGrant_of_none (he : nextGrant s quad = none) : exec (.passGrant quad) s = .next s := by
  show execPassGrant quad s = _
  unfold execPassGrant
  rw [he]
  rfl

theorem exec_kStepCommit_of_passes {o : MatOp} (ho : spFind s.matOps k = some o) (hr : o.ready s = true) (hm : o.multiplies = true)
    (hk : o.kstep < o.n) (hp : o.passes = o.needed) (hf : panelFull s o = true) :
    exec (.kStepCommit k) s = .next (commitStep s k o) := by
  show execKStepCommit k s = _
  unfold execKStepCommit
  rw [ho]
  exact finish_when (by simp [hr, hm, hk, hp, hf])

theorem exec_transferComplete_of_ready {o : MatOp} (ho : spFind s.matOps k = some o) (hr : o.ready s = true) (hm : o.multiplies = false)
    (hf : o.kind ≠ 5 ∨ imageFull s o = true) : exec (.transferComplete k) s = .next (runTransfer s k o) := by
  show execTransferComplete k s = _
  unfold execTransferComplete
  rw [ho]
  exact finish_when (by simpa [hr, hm] using hf)

section Copies
variable {c : Copy} (hc : spFind s.copies k = some c)
include hc

theorem exec_copyRowLand_of_ready (hr : rowReady s c row = true) : exec (.copyRowLand k row) s = .next (landRow s k row) := by
  show execCopyRowLand k row s = _
  unfold execCopyRowLand
  rw [hc]
  exact finish_when hr

theorem exec_copyRowLand_of_not_ready (hr : rowReady s c row = false) : exec (.copyRowLand k row) s = .next s := by
  show execCopyRowLand k row s = _
  unfold execCopyRowLand
  rw [hc]
  exact finish_onlyIf_false hr

theorem exec_promiseMissed_of_broken (hb : promiseBroken s c = true) : exec (.promiseMissed k) s = .next (missPromise k c s) := by
  show execPromiseMissed k s = _
  unfold execPromiseMissed
  rw [hc]
  exact finish_when hb

theorem exec_promiseMissed_of_kept (hb : promiseBroken s c = false) : exec (.promiseMissed k) s = .next s := by
  show execPromiseMissed k s = _
  unfold execPromiseMissed
  rw [hc]
  exact finish_onlyIf_false hb

end Copies

section Queries
variable {q : Query} (hq : s.qry k = some q)
include hq

theorem exec_queryTraversal_of_running (hs : q.state = .running) : exec (.queryTraversal k) s = .next (stepQuery s k q) := by
  show execQueryTraversal k s = _
  unfold execQueryTraversal
  rw [hq]
  dsimp only
  rw [if_pos hs]
  rfl

theorem exec_queryHeldResume_of_held (hs : q.state = .held) :
    exec (.queryHeldResume k) s = .next (stepQuery s k { q with state := .running }) := by
  show execQueryHeldResume k s = _
  unfold execQueryHeldResume
  rw [hq]
  dsimp only
  rw [if_pos hs]
  rfl

theorem exec_queryComplete_of_over (hopen : q.open_ = 0) (hs : q.state = .ended ∨ abandoned s q = true) :
    exec (.queryComplete k) s = .next (completeQuery s k q) := by
  show execQueryComplete k s = _
  unfold execQueryComplete
  rw [hq]
  dsimp only
  rw [if_pos (by simpa [hopen] using hs)]
  rfl

end Queries

theorem exec_query_of_none (hq : s.qry k = none) (i : Instr) (hi : i ∈ [Instr.queryTraversal k, .queryHeldResume k, .queryComplete k]) :
    exec i s = .next s := by
  obtain rfl | rfl | rfl := by simpa using hi
  · show execQueryTraversal k s = _
    rw [execQueryTraversal, hq]
    rfl
  · show execQueryHeldResume k s = _
    rw [execQueryHeldResume, hq]
    rfl
  · show execQueryComplete k s = _
    rw [execQueryComplete, hq]
    rfl

theorem exec_spawnGroupPlace_of_core {d ck : Nat} {x : SpawnGroup} (hx : firstFormed s d = some (k, x)) (hck : spawnCore s x = some ck) :
    exec (.spawnGroupPlace d) s = .next (placeSpawn s k x ck) := by
  show execSpawnGroupPlace d s = _
  unfold execSpawnGroupPlace
  rw [hx]
  dsimp only
  rw [hck]
  rfl

end EngineActs

/-- Settles O42: each act of an engine on the entry it names. -/
theorem engineActResults : Obligations.EngineActResults := by
  unfold Obligations.EngineActResults
  intro s quad k row block bind
  exact ⟨fun e => exec_passGrant_of_entry, exec_passGrant_of_none,
    fun o ho hr => ⟨exec_kStepCommit_of_passes ho hr, exec_transferComplete_of_ready ho hr⟩,
    fun c hc => ⟨exec_copyRowLand_of_ready hc, exec_copyRowLand_of_not_ready hc, exec_promiseMissed_of_broken hc, exec_promiseMissed_of_kept hc⟩,
    fun q hq => ⟨exec_queryTraversal_of_running hq, exec_queryHeldResume_of_held hq, exec_queryComplete_of_over hq⟩,
    exec_query_of_none, finish_when, finish_onlyIf_false, fun d x ck => exec_spawnGroupPlace_of_core⟩

/-! ### Acts of the home slices -/

section ServiceActs
variable {k d slice : Nat}

theorem exec_waiterReissue_of_due {w : Waiter} (hw : spFind s.waiters k = some w) (hd : comesAgain s w = true) :
    exec (.waiterReissue k) s = .next (askAgain k w s) := by
  show execWaiterReissue k s = _
  unfold execWaiterReissue
  rw [hw]
  exact finish_when hd

theorem exec_pavaneDeqQuantum_of_opener {w : Waiter} (hw : quantumOpener s (d * 32 + slice) = some w) (hold : w.since + 128 ≤ s.clock) :
    exec (.pavaneDeqQuantum d slice) s = .next ((gathered s w).foldl gatherServe s) := by
  show execPavaneDeqQuantum d slice s = _
  unfold execPavaneDeqQuantum
  rw [hw]
  exact finish_when (by simpa using hold)

section Conts
variable {c : Cont} (hc : spFind s.conts k = some c)
include hc

theorem exec_continuationRelease_of_queue (hwk : c.wk = 0) (hrel : c.released = false) (hb : c.block = none) :
    exec (.continuationRelease k) s = .next (releaseCont k c s) := by
  show execContinuationRelease k s = _
  unfold execContinuationRelease
  rw [hc]
  refine (finish_onlyIf_true (by simp [hwk, hrel])).trans ?_
  rw [hb]
  rfl

theorem exec_continuationRelease_of_affine {b : Nat} {bs : List Byte} (hwk : c.wk = 0) (hrel : c.released = false) (hb : c.block = some b)
    (haff : (s.blk b).state = .affine) (hread : contRead s c.ctx c.va = .ok bs) (hown : contOwn s c b bs = true)
    (hroom : contRoom s c b = true) :
    exec (.continuationRelease k) s = .next (resumeAffine (settleRange s (xlCtx s c.ctx needR) c.va bs.length) k c b bs) := by
  show execContinuationRelease k s = _
  unfold execContinuationRelease
  rw [hc]
  refine (finish_onlyIf_true (by simp [hwk, hrel])).trans ?_
  rw [hb]
  refine (finish_onlyIf_true (by simp [haff])).trans ?_
  rw [hread]
  dsimp only
  rw [if_neg (by simp [hown])]
  exact finish_when hroom

theorem exec_continuationRelease_of_not_due (h : c.wk ≠ 0 ∨ c.released = true) : exec (.continuationRelease k) s = .next s := by
  show execContinuationRelease k s = _
  unfold execContinuationRelease
  rw [hc]
  refine finish_onlyIf_false ?_
  rcases h with h | h
  · simp [h]
  · simp [h]

end Conts

theorem exec_continuationResume_of_queue {t : State} (ht : ((s.die d).resumeQueues.findSome? fun q => takeResume s d q.1 q.2) = some t)
    (hd : dieRuns s d = true) : exec (.continuationResume d) s = .next t := by
  show execContinuationResume d s = _
  unfold execContinuationResume
  rw [ht]
  dsimp only
  rw [if_pos hd]
  rfl

end ServiceActs

/-- Settles O43: requests that come again, a quantum served, continuations released and resumed. -/
theorem serviceActResults : Obligations.ServiceActResults := by
  unfold Obligations.ServiceActResults
  intro s k d slice
  exact ⟨fun w => exec_waiterReissue_of_due, fun w => exec_pavaneDeqQuantum_of_opener,
    fun c hc hwk hrel => ⟨exec_continuationRelease_of_queue hc hwk hrel, fun b bs => exec_continuationRelease_of_affine hc hwk hrel⟩,
    fun c hc => exec_continuationRelease_of_not_due hc, fun t => exec_continuationResume_of_queue⟩

/-! ### Acts of the graph walker -/

section Nodes
variable {p kind : Nat} {f : Walk → List Byte → Nat → State → Option State} {x : Path} {w : Walk} (hx : pathWalk s p = some (x, w))
  (hwait : x.waiting = none)
include hx hwait

theorem atNode_of_failed (hf : w.failed = true) : atNode p kind f s = .next (endPath s p) := by
  unfold atNode
  rw [hx]
  refine (finish_onlyIf_true (by simp [hwait])).trans ?_
  rw [if_pos hf]
  rfl

theorem atNode_of_unaligned (hf : w.failed = false) (ha : x.node % 64 ≠ 0) : atNode p kind f s = .next (failWalk s p) := by
  unfold atNode
  rw [hx]
  refine (finish_onlyIf_true (by simp [hwait])).trans ?_
  rw [if_neg (by simp [hf]), if_neg ha]
  rfl

section Record
variable {bs : List Byte} (hf : w.failed = false) (ha : x.node % 64 = 0) (hbs : readRange s (xlCtx s w.ctx needR) x.node 64 = .ok bs)
include hf ha hbs

/-- At a node whose record reads well, what the act does depends on the record. -/
theorem atNode_of_record : atNode p kind f s = finish (
    if !nodeSound bs then upd fun s => failWalk s p
    else do
      onlyIf (nodeKind bs = kind)
      upd fun s0 => (f w bs x.node (settleRange s0 (xlCtx s0 w.ctx needR) x.node 64)).getD
        (failWalk (settleRange s0 (xlCtx s0 w.ctx needR) x.node 64) p)) s := by
  unfold atNode
  rw [hx]
  refine (finish_onlyIf_true (by simp [hwait])).trans ?_
  rw [if_neg (by simp [hf]), if_pos ha, hbs]

theorem atNode_of_unsound (hs : nodeSound bs = false) : atNode p kind f s = .next (failWalk s p) := by
  rw [atNode_of_record hx hwait hf ha hbs, if_pos (by simp [hs])]
  rfl

theorem atNode_of_kind (hs : nodeSound bs = true) (hk : nodeKind bs = kind) :
    atNode p kind f s = .next ((f w bs x.node (settleRange s (xlCtx s w.ctx needR) x.node 64)).getD
      (failWalk (settleRange s (xlCtx s w.ctx needR) x.node 64) p)) := by
  rw [atNode_of_record hx hwait hf ha hbs, if_neg (by simp [hs])]
  exact finish_when (decide_eq_true hk)

theorem atNode_of_other_kind (hs : nodeSound bs = true) (hk : nodeKind bs ≠ kind) : atNode p kind f s = .next s := by
  rw [atNode_of_record hx hwait hf ha hbs, if_neg (by simp [hs])]
  exact finish_onlyIf_false (decide_eq_false hk)

end Record

/-- What a walker's act does at its path's node, whichever kind of node it performs. -/
theorem atNode_does :
    (w.failed = true → atNode p kind f s = .next (endPath s p))
    ∧ (w.failed = false → x.node % 64 ≠ 0 → atNode p kind f s = .next (failWalk s p))
    ∧ (∀ bs, w.failed = false → x.node % 64 = 0 → readRange s (xlCtx s w.ctx needR) x.node 64 = .ok bs →
        (nodeSound bs = false → atNode p kind f s = .next (failWalk s p))
        ∧ (nodeSound bs = true → nodeKind bs = kind → (let t := settleRange s (xlCtx s w.ctx needR) x.node 64
          atNode p kind f s = .next ((f w bs x.node t).getD (failWalk t p))))
        ∧ (nodeSound bs = true → nodeKind bs ≠ kind → atNode p kind f s = .next s)) :=
  ⟨atNode_of_failed hx hwait, atNode_of_unaligned hx hwait, fun _ hf ha hbs =>
    ⟨atNode_of_unsound hx hwait hf ha hbs, atNode_of_kind hx hwait hf ha hbs, atNode_of_other_kind hx hwait hf ha hbs⟩⟩

end Nodes

/-- Settles O44: every kind of node by the walker's common act. -/
theorem graphActResults : Obligations.GraphActResults := by
  unfold Obligations.GraphActResults
  intro s p x w hx hwait does
  refine ⟨fun hfull => ?_, atNode_does hx hwait, atNode_does hx hwait, atNode_does hx hwait, atNode_does hx hwait⟩
  have hexec : exec (.graphLaunchNode p) s = atNode p 1 (launchNode p) s := if_neg (by simp [hfull])
  unfold does
  rw [hexec]
  exact atNode_does hx hwait

/-! ### Acts of the package ring -/

section Packets
variable {k : Nat} {x : Packet} (hx : spFind s.packets k = some x)
include hx

theorem exec_ringHop_of_fill {y : Packet} (hy : x.fill s = some y) :
    exec (.ringHop k) s = .next { s with packets := spPut s.packets k y } := by
  show execRingHop k s = _
  unfold execRingHop
  rw [hx]
  dsimp only
  rw [hy]
  rfl

/-- A head that is first on its way: dropped, moved, or held for want of room. -/
theorem exec_ringHop_of_first (hfill : x.fill s = none) (hfirst : firstOut s k x = true) (haway : x.at_ ≠ x.dst) :
    exec (.ringHop k) s = finish (if !dieServes s x.dst then upd fun s => dropPacket s k x
      else match poolFor s x with
        | none => idleM
        | some p => upd (hop k x p)) s := by
  show execRingHop k s = _
  unfold execRingHop
  rw [hx]
  dsimp only
  rw [hfill]
  exact finish_onlyIf_true (by simp [haway, hfirst])

theorem exec_messageArrival_of_tail (ht : x.tail ≠ []) : exec (.messageArrival k) s = .next s := by
  show execMessageArrival k s = _
  unfold execMessageArrival
  rw [hx]
  exact finish_onlyIf_false (by simp [ht])

theorem exec_messageArrival_of_whole (ht : x.tail = []) (hfirst : firstOut s k x = true) (hat : x.at_ = x.dst) :
    exec (.messageArrival k) s = finish (if !dieServes s x.dst then upd fun s => dropPacket s k x
      else upd fun s => deliver { s with packets := spDel s.packets k } x.dst x) s := by
  show execMessageArrival k s = _
  unfold execMessageArrival
  rw [hx]
  exact finish_onlyIf_true (by simp [hat, ht, hfirst])

end Packets

/-- Settles O45: each place a packet can stand. -/
theorem ringActResults : Obligations.RingActResults := by
  unfold Obligations.RingActResults
  intro s k x hx
  refine ⟨fun y => exec_ringHop_of_fill hx, exec_messageArrival_of_tail hx, fun hfill hfirst haway hserves => ⟨fun p hp => ?_, fun hp => ?_⟩,
    fun ht hfirst hat hserves => ?_, fun hserves hfirst => ⟨fun hfill haway => ?_, fun ht hat => ?_⟩⟩
  · rw [exec_ringHop_of_first hx hfill hfirst haway, if_neg (by simp [hserves]), hp]
    rfl
  · rw [exec_ringHop_of_first hx hfill hfirst haway, if_neg (by simp [hserves]), hp]
    rfl
  · rw [exec_messageArrival_of_whole hx ht hfirst hat, if_neg (by simp [hserves])]
    rfl
  · rw [exec_ringHop_of_first hx hfill hfirst haway, if_pos (by simp [hserves])]
    rfl
  · rw [exec_messageArrival_of_whole hx ht hfirst hat, if_pos (by simp [hserves])]
    rfl

end Sys2Proof.Machine
end

section
/-! Frames from the host (R395 to R398): every request and MGMT operation is `rlpIn` of its kind, and each timer of a session has its own
condition. -/

namespace Sys2Proof.Machine

open Claim

variable {f : Frame} {s : State}

/-! ### Frames received and dropped -/

section Arrives
variable {mine : Bool} (hport : f.dport = s.udpPort) (heth : ethPorts.contains f.port = true) (hdie : diePresent s f.port = true)
include hport heth hdie

/-- A frame that arrives at its port and is the event's own, or unsound, is answered by its soundness and its session. -/
theorem rlpIn_of_port (h : mine = true ∨ frameSound f = false) :
    rlpIn f mine s = finish (if !frameSound f then upd fun s => dropFrame s f.port
      else match sessionOf s f with
        | none => upd fun s => dropFrame s f.port
        | some x => upd fun s => receive s x f) s :=
  finish_onlyIf_true (by simpa [hport, hdie] using ⟨by simpa using heth, h⟩)

theorem rlpIn_of_session {x : Session} (hsound : frameSound f = true) (hx : sessionOf s f = some x) (hmine : mine = true) :
    rlpIn f mine s = .next (receive s x f) := by
  rw [rlpIn_of_port hport heth hdie (.inl hmine), if_neg (by simp [hsound]), hx]
  rfl

theorem rlpIn_of_no_session (hsound : frameSound f = true) (hx : sessionOf s f = none) (hmine : mine = true) :
    rlpIn f mine s = .next (dropFrame s f.port) := by
  rw [rlpIn_of_port hport heth hdie (.inl hmine), if_neg (by simp [hsound]), hx]
  rfl

theorem rlpIn_of_unsound (hsound : frameSound f = false) : rlpIn f mine s = .next (dropFrame s f.port) := by
  rw [rlpIn_of_port hport heth hdie (.inr hsound), if_pos (by simp [hsound])]
  rfl

theorem exec_rlpHello_of_hello (hsound : frameSound f = true) (hkind : f.kind = 1) : exec (.rlpHello f) s = .next (hello s f) := by
  refine (finish_onlyIf_true (by simpa [hport, hdie, hkind] using heth)).trans ?_
  rw [if_pos hsound]
  rfl

theorem exec_rlpHello_of_unsound (hsound : frameSound f = false) : exec (.rlpHello f) s = .next (dropFrame s f.port) := by
  refine (finish_onlyIf_true (by simpa [hport, hdie, hsound] using heth)).trans ?_
  rw [if_neg (by simp [hsound])]
  rfl

end Arrives

/-- The events of a frame with what makes a sound frame the event's own: the requests by their kind, MGMT by its operation. -/
noncomputable def frameEvents (f : Frame) : List (Instr × Bool) :=
  let op := arg f 0 2
  let mgmt (n : Nat) : Bool := f.kind = 7 && op = n
  [(.rlpWrite f, f.kind = 2), (.rlpRead f, f.kind = 3), (.rlpAtomic f, f.kind = 4), (.rlpLaunch f, f.kind = 5), (.rlpAck f, f.kind = 8),
   (.mgmtCtxtab f, mgmt 1), (.mgmtKey f, mgmt 2), (.mgmtInval f, mgmt 3), (.mgmtResume f, mgmt 4), (.mgmtHalt f, mgmt 5),
   (.mgmtKill f, mgmt 6), (.mgmtPreempt f, mgmt 7), (.mgmtCsrr f, mgmt 8), (.mgmtCsrw f, mgmt 9), (.mgmtAttest f, mgmt 10),
   (.mgmtFwload f, mgmt 11), (.mgmtSavepool f, mgmt 12), (.mgmtPort f, mgmt 13), (.mgmtStatus f, mgmt 14), (.mgmtPhysw f, mgmt 15),
   (.mgmtPhysr f, mgmt 16), (.mgmtCharges f, mgmt 17), (.mgmtReset f, mgmt 18),
   (.unknownMgmtOperation f, f.kind = 7 && (op = 0 || 18 < op))]

theorem exec_frameEvent : ∀ e ∈ frameEvents f, exec e.1 s = rlpIn f e.2 s := by
  simp only [frameEvents, List.forall_mem_cons]
  exact ⟨rfl, rfl, rfl, rfl, rfl, rfl, rfl, rfl, rfl, rfl, rfl, rfl, rfl, rfl, rfl, rfl, rfl, rfl, rfl, rfl, rfl, rfl, rfl, rfl,
    List.forall_mem_nil _⟩

/-! ### Timers of a session -/

section Timers
variable {sid seq : Nat} {x : Session} (hx : spFind s.sessions sid = some x)
include hx

theorem exec_ackTimer_of_due (hdue : x.ackDue.isSome = true) : exec (.ackTimer sid) s = .next (sendAck sid x s) := by
  show execAckTimer sid s = _
  unfold execAckTimer
  rw [hx]
  exact finish_when hdue

theorem exec_ackTimer_of_none (hdue : x.ackDue = none) : exec (.ackTimer sid) s = .next s := by
  show execAckTimer sid s = _
  unfold execAckTimer
  rw [hx]
  exact finish_onlyIf_false (by simp [hdue])

section Unacked
variable {u : Sent} (hu : (x.unacked.find? fun u => u.frame.seq.toNat = seq) = some u)
include hu

/-- A frame unacknowledged for 100 µs: sent again, or given up with its session. -/
theorem exec_retransmit_of_late (hlate : u.at_ + 400000 ≤ s.clock) :
    exec (.retransmit sid seq) s = finish (if 33 ≤ u.times then upd fun s => { s with sessions := spDel s.sessions sid }
      else upd (resend sid x u)) s := by
  show execRetransmit sid seq s = _
  unfold execRetransmit
  rw [hx]
  dsimp only
  rw [hu]
  exact finish_onlyIf_true (decide_eq_true hlate)

theorem exec_retransmit_of_early (hearly : s.clock < u.at_ + 400000) : exec (.retransmit sid seq) s = .next s := by
  show execRetransmit sid seq s = _
  unfold execRetransmit
  rw [hx]
  dsimp only
  rw [hu]
  exact finish_onlyIf_false (decide_eq_false (Nat.not_le.mpr hearly))

end Unacked

theorem exec_sessionTimeout_of_silent (h : x.heard + 40000000000 ≤ s.clock) :
    exec (.sessionTimeout sid) s = .next { s with sessions := spDel s.sessions sid } := by
  show execSessionTimeout sid s = _
  unfold execSessionTimeout
  rw [hx]
  exact finish_when (decide_eq_true h)

theorem exec_sessionTimeout_of_heard (h : s.clock < x.heard + 40000000000) : exec (.sessionTimeout sid) s = .next s := by
  show execSessionTimeout sid s = _
  unfold execSessionTimeout
  rw [hx]
  exact finish_onlyIf_false (decide_eq_false (Nat.not_le.mpr h))

end Timers

/-- Settles O46: frames by their soundness and their session, timers by their times. -/
theorem frameResults : Obligations.FrameResults := by
  unfold Obligations.FrameResults
  refine ⟨?_, ?_⟩
  · intro f s hport heth hdie op mgmt events
    refine ⟨fun hsound x hx e he hmine => ?_, fun hsound hx e he hmine => ?_, fun hsound e he => ?_, exec_rlpHello_of_hello hport heth hdie,
      exec_rlpHello_of_unsound hport heth hdie⟩
    · exact (exec_frameEvent e he).trans (rlpIn_of_session hport heth hdie hsound hx hmine)
    · exact (exec_frameEvent e he).trans (rlpIn_of_no_session hport heth hdie hsound hx hmine)
    · exact (exec_frameEvent e he).trans (rlpIn_of_unsound hport heth hdie hsound)
  · intro s sid seq x hx
    refine ⟨exec_ackTimer_of_due hx, exec_ackTimer_of_none hx, fun u hu => ⟨fun hlate htimes => ?_, fun hlate htimes => ?_,
      exec_retransmit_of_early hx hu⟩, exec_sessionTimeout_of_silent hx, exec_sessionTimeout_of_heard hx⟩
    · rw [exec_retransmit_of_late hx hu hlate, if_neg (Nat.not_le.mpr htimes)]
      rfl
    · rw [exec_retransmit_of_late hx hu hlate, if_pos htimes]
      rfl

end Sys2Proof.Machine
end

section
/-! Frames of Format A (R111 to R115): each instruction completes by the writes of its results, and what a result touches is what its
destination field spans at its type, its latch and its predicates. -/

namespace Sys2Proof.Machine

open Claim

/-! ### Instructions that work thread by thread -/

/-- The instruction changes what its fields name, where d says that D is a predicate. -/
def LaneFramed (o : FmtA) (s : State) (e : Instr × Bool) : Prop :=
  frame e.1 s (laneFrame (if o.h.s then [] else destsOf e.1) (predDestsP e.2 o) (predDestsG e.2 o) [o.h.l.toNat])

theorem inUs_unlessS {h : Hdr} {us : List FieldUse} {f : BitVec 10} {ty : Nat} (hs : h.s = false) (hus : inUs us f ty) :
    inUs (unlessS h us) f ty := by
  simpa [unlessS, hs] using hus

/-- A value result stays in the registers that D spans. -/
theorem laneFramed_value {i : Instr} {o : FmtA} {s : State} (op : Nat) {f : State → Nat → Res} (us : List FieldUse)
    (he : exec i s = finish (runA op o f) s) (hdest : destsOf i = unlessS o.h us) (hpred : ∀ t, (f s t).pred = none)
    (hin : ∀ t, inUs us o.d (f s t).ty) : LaneFramed o s (i, false) :=
  runA_frame i op o f _ false s he (fun t => by rw [hpred t]; rfl) fun t hs _ => by
    rw [hdest]
    exact inUs_unlessS hs (hin t)

/-- A result of the instruction's own type. -/
theorem laneFramed_typed {i : Instr} {o : FmtA} {s : State} (op : Nat) {f : State → Nat → Res}
    (he : exec i s = finish (runA op o f) s) (hdest : destsOf i = unlessS o.h (useTy o.h.t.toNat o.d))
    (hres : ∀ t, (f s t).pred = none ∧ (f s t).ty = o.h.t.toNat) : LaneFramed o s (i, false) :=
  laneFramed_value op _ he hdest (fun t => (hres t).1) fun t => by
    rw [(hres t).2]
    exact inUs_useTy ..

/-- A result of a type of 32 bits or less. -/
theorem laneFramed_word {i : Instr} {o : FmtA} {s : State} (op ty : Nat) {f : State → Nat → Res} (hty : tyWidth ty ≠ 64)
    (he : exec i s = finish (runA op o f) s) (hdest : destsOf i = unlessS o.h (use1 o.d))
    (hres : ∀ t, (f s t).pred = none ∧ (f s t).ty = ty) : LaneFramed o s (i, false) :=
  laneFramed_value op _ he hdest (fun t => (hres t).1) fun t => by
    rw [(hres t).2]
    exact inUs_use1 _ _ hty

/-- A predicate result. -/
theorem laneFramed_pred {i : Instr} {o : FmtA} {s : State} (op : Nat) {f : State → Nat → Res}
    (he : exec i s = finish (runA op o f) s) (hpred : ∀ t, (f s t).pred.isSome = true) : LaneFramed o s (i, true) :=
  runA_frame i op o f _ true s he hpred fun t _ hnone => by
    have hsome := hpred t
    rw [hnone] at hsome
    cases hsome

theorem laneFramed_integer (o : FmtA) (s : State) :
    ∀ e ∈ ([(.add o, false), (.sub o, false), (.mul o, false), (.mulhi o, false), (.mad o, false), (.madhi o, false), (.addc o, false),
      (.subb o, false), (.min o, false), (.max o, false), (.abs o, false), (.neg o, false), (.idiv o, false), (.irem o, false),
      (.sad o, false), (.lea o, false)] : List (Instr × Bool)), LaneFramed o s e := by
  simp only [List.forall_mem_cons]
  exact ⟨laneFramed_typed 0x10 rfl rfl fun _ => ⟨rfl, rfl⟩, laneFramed_typed 0x11 rfl rfl fun _ => ⟨rfl, rfl⟩,
    laneFramed_typed 0x12 rfl rfl fun _ => ⟨rfl, rfl⟩, laneFramed_typed 0x13 rfl rfl fun _ => ⟨rfl, rfl⟩,
    laneFramed_typed 0x14 rfl rfl fun _ => ⟨rfl, rfl⟩, laneFramed_typed 0x15 rfl rfl fun _ => ⟨rfl, rfl⟩,
    laneFramed_typed 0x16 rfl rfl fun _ => ⟨rfl, rfl⟩, laneFramed_typed 0x17 rfl rfl fun _ => ⟨rfl, rfl⟩,
    laneFramed_typed 0x18 rfl rfl fun _ => ⟨rfl, rfl⟩, laneFramed_typed 0x19 rfl rfl fun _ => ⟨rfl, rfl⟩,
    laneFramed_typed 0x1A rfl rfl fun _ => ⟨rfl, rfl⟩, laneFramed_typed 0x1B rfl rfl fun _ => ⟨rfl, rfl⟩,
    laneFramed_typed 0x1C rfl rfl fun _ => ⟨rfl, rfl⟩, laneFramed_typed 0x1D rfl rfl fun _ => ⟨rfl, rfl⟩,
    laneFramed_typed 0x1E rfl rfl fun _ => ⟨rfl, rfl⟩, laneFramed_typed 0x1F rfl rfl fun _ => ⟨rfl, rfl⟩, by simp⟩

theorem laneFramed_logic (o : FmtA) (s : State) :
    ∀ e ∈ ([(.and o, false), (.or o, false), (.xor o, false), (.andn o, false), (.not o, false), (.logt o, false),
      (.shl o, false), (.shr o, false), (.shra o, false), (.rot o, false), (.fshf o, false), (.bfx o, false),
      (.bfi o, false), (.popc o, false), (.clz o, false), (.ctz o, false), (.brev o, false)] : List (Instr × Bool)), LaneFramed o s e := by
  simp only [List.forall_mem_cons]
  exact ⟨laneFramed_typed 0x20 rfl rfl fun _ => ⟨rfl, rfl⟩, laneFramed_typed 0x21 rfl rfl fun _ => ⟨rfl, rfl⟩,
    laneFramed_typed 0x22 rfl rfl fun _ => ⟨rfl, rfl⟩, laneFramed_typed 0x23 rfl rfl fun _ => ⟨rfl, rfl⟩,
    laneFramed_typed 0x24 rfl rfl fun _ => ⟨rfl, rfl⟩, laneFramed_typed 0x25 rfl rfl fun _ => ⟨rfl, rfl⟩,
    laneFramed_typed 0x26 rfl rfl fun _ => ⟨rfl, rfl⟩, laneFramed_typed 0x27 rfl rfl fun _ => ⟨rfl, rfl⟩,
    laneFramed_typed 0x28 rfl rfl fun _ => ⟨rfl, rfl⟩, laneFramed_typed 0x29 rfl rfl fun _ => ⟨rfl, rfl⟩,
    laneFramed_typed 0x2A rfl rfl fun _ => ⟨rfl, rfl⟩, laneFramed_typed 0x2B rfl rfl fun _ => ⟨rfl, rfl⟩,
    laneFramed_typed 0x2C rfl rfl fun _ => ⟨rfl, rfl⟩, laneFramed_word 0x2D 2 (by decide) rfl rfl fun _ => ⟨rfl, rfl⟩,
    laneFramed_word 0x2E 2 (by decide) rfl rfl fun _ => ⟨rfl, rfl⟩, laneFramed_word 0x2F 2 (by decide) rfl rfl fun _ => ⟨rfl, rfl⟩,
    laneFramed_typed 0x30 rfl rfl fun _ => ⟨rfl, rfl⟩, by simp⟩

theorem frame_putAll {i : Instr} {o : FmtA} {s : State} {us : List FieldUse} {f : Nat → Res} {m : M Unit} (he : exec i s = finish m s)
    (hm : ∀ t, m s = .ok ((), t) → putAll o.h.u (fun _ => o) ((runners s o.h).map fun t => (t, f t)) s = .ok ((), t))
    (hpred : ∀ t, (f t).pred = none) (hin : ∀ t, o.h.s = false → inUs us o.d (f t).ty) :
    frame i s (laneFrame (if o.h.s then [] else us) (predDestsP false o) (predDestsG false o) [o.h.l.toNat]) :=
  frame_finish _ _ _ _ he (laneFrame_refl ..) fun t ht => by
    rw [putAll_inv (hm t ht)]
    exact writeAll_lane us false o s _ f (fun _ => runners_lt) (fun t => by rw [hpred t]; rfl) fun t hs _ => hin t hs

theorem laneFramed_mov (o : FmtA) (s : State) : LaneFramed o s (.mov o, false) := by
  refine frame_putAll (f := fun t => bitResult o (movSource s o t)) rfl (fun t ht => ?_) (fun _ => rfl) fun _ hs =>
    inUs_unlessS hs (inUs_useTy ..)
  rw [M_get_bind] at ht
  split at ht
  · obtain ⟨_, _, hneed, hput⟩ := bind_inv ht
    rwa [need_inv hneed] at hput
  · obtain ⟨_, _, hcheck, hput⟩ := bind_inv ht
    rwa [checkSources_inv hcheck] at hput

theorem laneFramed_movh (o : FmtA) (s : State) : LaneFramed o s (.movh o, false) := by
  refine frame_putAll (f := fun t => bitResult o (srcAs s o.h.u 3 o.d t % 2 ^ 32 + o.w.toNat * 2 ^ 32)) rfl (fun t ht => ?_)
    (fun _ => rfl) fun _ _ => inUs_use2 ..
  rw [M_get_bind] at ht
  obtain ⟨_, _, hcheck, hput⟩ := bind_inv ht
  rwa [checkPoison_inv hcheck] at hput

theorem laneFramed_move (o : FmtA) (s : State) :
    ∀ e ∈ ([(.mov o, false), (.movi o, false), (.movh o, false), (.sel o, false), (.bshuf o, false), (.clamp o, false),
      (.cmp o, true), (.fcmp o, true), (.plop o, true)] : List (Instr × Bool)), LaneFramed o s e := by
  simp only [List.forall_mem_cons]
  exact ⟨laneFramed_mov o s, laneFramed_typed 0x32 rfl rfl fun _ => ⟨rfl, rfl⟩,
    laneFramed_movh o s, laneFramed_typed 0x34 rfl rfl fun _ => ⟨rfl, rfl⟩,
    laneFramed_typed 0x35 rfl rfl fun _ => ⟨rfl, rfl⟩, laneFramed_typed 0x36 rfl rfl fun _ => ⟨rfl, rfl⟩,
    laneFramed_pred 0x40 rfl fun _ => rfl, laneFramed_pred 0x41 rfl fun _ => rfl,
    laneFramed_pred 0x42 rfl fun _ => rfl, by simp⟩

theorem laneFramed_float (o : FmtA) (s : State) :
    ∀ e ∈ ([(.fadd o, false), (.fsub o, false), (.fmul o, false), (.ffma o, false), (.fmin o, false), (.fmax o, false),
      (.fabs o, false), (.fneg o, false), (.fdiv o, false), (.fsqrt o, false), (.frcpa o, false), (.frsqa o, false),
      (.fclass o, false), (.fscale o, false), (.fgete o, false), (.fgetm o, false), (.fcopys o, false),
      (.frnd o, false), (.fmed3 o, false), (.fclamp o, false), (.fex2 o, false), (.flg2 o, false), (.fsin o, false),
      (.fcos o, false)] : List (Instr × Bool)), LaneFramed o s e := by
  simp only [List.forall_mem_cons]
  exact ⟨laneFramed_typed 0x50 rfl rfl fun _ => ⟨rfl, rfl⟩, laneFramed_typed 0x51 rfl rfl fun _ => ⟨rfl, rfl⟩,
    laneFramed_typed 0x52 rfl rfl fun _ => ⟨rfl, rfl⟩, laneFramed_typed 0x53 rfl rfl fun _ => ⟨rfl, rfl⟩,
    laneFramed_typed 0x54 rfl rfl fun _ => ⟨rfl, rfl⟩, laneFramed_typed 0x55 rfl rfl fun _ => ⟨rfl, rfl⟩,
    laneFramed_typed 0x56 rfl rfl fun _ => ⟨rfl, rfl⟩, laneFramed_typed 0x57 rfl rfl fun _ => ⟨rfl, rfl⟩,
    laneFramed_typed 0x58 rfl rfl fun _ => ⟨rfl, rfl⟩, laneFramed_typed 0x59 rfl rfl fun _ => ⟨rfl, rfl⟩,
    laneFramed_typed 0x5A rfl rfl fun _ => ⟨rfl, rfl⟩, laneFramed_typed 0x5B rfl rfl fun _ => ⟨rfl, rfl⟩,
    laneFramed_word 0x5C 2 (by decide) rfl rfl fun _ => ⟨rfl, rfl⟩, laneFramed_typed 0x5D rfl rfl fun _ => ⟨rfl, rfl⟩,
    laneFramed_word 0x5E 6 (by decide) rfl rfl fun _ => ⟨rfl, rfl⟩, laneFramed_typed 0x5F rfl rfl fun _ => ⟨rfl, rfl⟩,
    laneFramed_typed 0x60 rfl rfl fun _ => ⟨rfl, rfl⟩, laneFramed_typed 0x61 rfl rfl fun _ => ⟨rfl, rfl⟩,
    laneFramed_typed 0x62 rfl rfl fun _ => ⟨rfl, rfl⟩, laneFramed_typed 0x63 rfl rfl fun _ => ⟨rfl, rfl⟩,
    laneFramed_typed 0x64 rfl rfl fun _ => ⟨rfl, rfl⟩, laneFramed_typed 0x65 rfl rfl fun _ => ⟨rfl, rfl⟩,
    laneFramed_typed 0x66 rfl rfl fun _ => ⟨rfl, rfl⟩, laneFramed_typed 0x67 rfl rfl fun _ => ⟨rfl, rfl⟩, by simp⟩

theorem laneFramed_cvt (o : FmtA) (s : State) : LaneFramed o s (.cvt o, false) :=
  laneFramed_typed 0x80 rfl rfl fun _ => by split <;> exact ⟨rfl, rfl⟩

theorem laneFramed_convert (o : FmtA) (s : State) :
    ∀ e ∈ ([(.fdot2 o, false), (.fadd2 o, false), (.fmul2 o, false), (.ffma2 o, false), (.cvt o, false), (.i2f o, false),
      (.f2i o, false), (.mxdq o, false), (.pack o, false), (.unpk o, false)] : List (Instr × Bool)), LaneFramed o s e := by
  simp only [List.forall_mem_cons]
  exact ⟨laneFramed_word 0x68 10 (by decide) rfl rfl fun _ => ⟨rfl, rfl⟩, laneFramed_word 0x69 2 (by decide) rfl rfl fun _ => ⟨rfl, rfl⟩,
    laneFramed_word 0x6A 2 (by decide) rfl rfl fun _ => ⟨rfl, rfl⟩, laneFramed_word 0x6B 2 (by decide) rfl rfl fun _ => ⟨rfl, rfl⟩,
    laneFramed_cvt o s, laneFramed_typed 0x81 rfl rfl fun _ => ⟨rfl, rfl⟩,
    laneFramed_typed 0x82 rfl rfl fun _ => ⟨rfl, rfl⟩, laneFramed_typed 0x84 rfl rfl fun _ => ⟨rfl, rfl⟩,
    laneFramed_word 0x86 2 (by decide) rfl rfl fun _ => ⟨rfl, rfl⟩, laneFramed_value 0x87 _ rfl rfl (fun _ => rfl) fun _ => inUs_use2 .., by simp⟩

theorem laneFramed_of_mem {o : FmtA} (s : State) {e : Instr × Bool} (he : e ∈ laneInstrs o) : LaneFramed o s e := by
  simp only [laneInstrs, List.mem_append] at he
  obtain (((he | he) | he) | he) | he := he
  · exact laneFramed_integer o s e he
  · exact laneFramed_logic o s e he
  · exact laneFramed_move o s e he
  · exact laneFramed_float o s e he
  · exact laneFramed_convert o s e he

/-! ### PMOV -/

/-- The predicates that a PMOV that sets predicates names. -/
def pmovMask (o : FmtA) : List Nat := (List.range 7).filter fun p => (bitsNat (WF.fnv o) 7 1).testBit p

theorem frame_pmov_sets (o : FmtA) (s : State) (hsets : (WF.fnv o).getLsbD 0 = true) :
    frame (.pmov o) s (laneFrame [] (if !o.h.u then pmovMask o else predDestsP false o)
      (if o.h.u then pmovMask o else predDestsG false o) []) := by
  refine frame_finish _ _ _ _ rfl (laneFrame_refl ..) fun t ht => ?_
  rw [M_get_bind] at ht
  obtain ⟨_, _, hcheck, ht⟩ := bind_inv ht
  rw [checkSources_inv hcheck, if_pos hsets, M_upd] at ht
  cases ht
  refine laneFrame_updMe _ _ _ _ _ _ (gFrame_foldl _ _ _ _ _ _ _ fun x i hi => ?_)
  refine gFrame_mono (setPreds_frame [] [] o x i _ _ (runners_lt hi)) (fun _ h => h) (fun _ h => h) (fun p hp => ?_) (fun p hp => ?_)
    fun _ h => h
  · cases hu : o.h.u <;> simp_all [pmovMask]
  · cases hu : o.h.u <;> simp_all [pmovMask]

theorem inUs_useTy_word (f : BitVec 10) (ty wordTy : Nat) (hw : tyWidth wordTy ≠ 64) : inUs (useTy ty f) f wordTy := by
  unfold useTy
  split
  · exact inUs_use2 f wordTy
  · exact inUs_use1 f wordTy hw

theorem frame_pmov_reads (o : FmtA) (s : State) (hsets : (WF.fnv o).getLsbD 0 = false) :
    frame (.pmov o) s (laneFrame (destsOf (.pmov o)) (predDestsP false o) (predDestsG false o) [o.h.l.toNat]) := by
  have hdest : destsOf (.pmov o) = if o.h.s then [] else useTy o.h.t.toNat o.d := by
    have hfree : destsOf (.pmov o) = unlessS o.h (if (WF.fnv o).getLsbD 0 = true then [] else useTy o.h.t.toNat o.d) := rfl
    rw [hfree, hsets]
    rfl
  rw [hdest]
  refine frame_putAll (f := fun t => wordResult (predSet s o.h.u t)) rfl (fun t ht => ?_) (fun _ => rfl) fun _ _ =>
    inUs_useTy_word _ _ 2 (by decide)
  rw [M_get_bind] at ht
  obtain ⟨_, _, hcheck, hput⟩ := bind_inv ht
  rwa [checkSources_inv hcheck, hsets] at hput

/-! ### Instructions that span the group's threads -/

/-- A collective instruction, which changes what its participants' copies name; gs are further g predicates. -/
def CollectiveFramed (o : FmtA) (s : State) (i : Instr) (op : Nat) (d : Bool) (gs : List Nat) : Prop :=
  frame i s (laneFrame ((participants s o.h).flatMap fun t => destA op (copyA s o t))
    ((participants s o.h).flatMap fun t => predDestsP d (copyA s o t))
    (((participants s o.h).flatMap fun t => predDestsG d (copyA s o t)) ++ gs)
    ((participants s o.h).map fun t => (copyA s o t).h.l.toNat))

/-- The copies of the participants have the operation and the type of the instruction. -/
def SameKind (o : FmtA) (s : State) : Prop :=
  ∀ t ∈ participants s o.h, (copyA s o t).h.rm = o.h.rm ∧ (copyA s o t).h.t = o.h.t

theorem inUs_destA_typed {op : Nat} {o : FmtA} {ty : Nat} (hs : o.h.s = false)
    (hdest : destA op o = unlessS o.h (useTy o.h.t.toNat o.d)) (hty : ty = o.h.t.toNat) : inUs (destA op o) o.d ty := by
  rw [hdest, hty]
  exact inUs_unlessS hs (inUs_useTy ..)

theorem collectiveFramed_typed {i : Instr} {o : FmtA} {s : State} (op : Nat) {f : State → List Nat → Nat → Res}
    (hsame : SameKind o s) (he : exec i s = finish (runCollective op o f) s)
    (hdest : ∀ c : FmtA, destA op c = unlessS c.h (useTy c.h.t.toNat c.d))
    (hres : ∀ ts t, (f s ts t).pred = none ∧ (f s ts t).ty = o.h.t.toNat) : CollectiveFramed o s i op false [] :=
  coll_frame i op o f s false rfl he (fun ts t => by rw [(hres ts t).1]; rfl) [] fun ts t ht hs =>
    inUs_destA_typed hs (hdest _) (by rw [(hres ts t).2, (hsame t ht).2])

theorem quantise_word (o : FmtA) (q : Quant) (s : State) (ts : List Nat) (t : Nat) :
    (quantise o q s ts t).pred = none ∧ (quantise o q s ts t).ty = 2 := by
  unfold quantise
  dsimp only
  split <;> exact ⟨rfl, rfl⟩

theorem collectiveFramed_quantise {i : Instr} {o : FmtA} {s : State} (op : Nat) (q : Quant)
    (he : exec i s = finish (runCollective op o (quantise o q)) s) (hdest : ∀ c : FmtA, destA op c = unlessS c.h (use1 c.d)) :
    CollectiveFramed o s i op false [] :=
  coll_frame i op o _ s false rfl he (fun ts t => by rw [(quantise_word o q s ts t).1]; rfl) [] fun ts t _ hs => by
    rw [hdest, (quantise_word o q s ts t).2]
    exact inUs_unlessS hs (inUs_use1 _ _ (by decide))

theorem collectiveFramed_gred {o : FmtA} {s : State} (hsame : SameKind o s) : CollectiveFramed o s (.gred o) 0x46 false [] := by
  refine frame_finish _ _ _ _ rfl (laneFrame_refl ..) fun t ht => ?_
  rw [M_get_bind] at ht
  obtain ⟨_, _, hcheck, ht⟩ := bind_inv ht
  rw [checkCollective_inv hcheck] at ht
  cases hred : redTree o (modeA s o) (tids.map (redIn s o (participants s o.h))) with
  | none =>
    rw [hred] at ht
    cases ht
    exact laneFrame_refl ..
  | some r =>
    rw [hred] at ht
    rw [putCollective_inv ht]
    exact coll_write 0x46 o s (fun _ => bitsResult o r) false [] (fun _ => rfl) fun t ht hs _ =>
      inUs_destA_typed hs rfl (by rw [(hsame t ht).2]; rfl)

/-! #### POLL -/

theorem poll_type {o : FmtA} (hwf : WF.pollOk o = true) (htruth : ¬ o.h.rm.toNat ≤ 2) :
    o.h.t.toNat = if o.h.rm.toNat = 3 then 3 else 2 := by
  simp only [WF.pollOk, Bool.and_eq_true, if_neg htruth, decide_eq_true_eq] at hwf
  exact hwf.2.1.1

/-- A POLL for one truth also writes the g predicate that it names, once. -/
theorem collectiveFramed_poll_truth (o : FmtA) (s : State) (htruth : o.h.rm.toNat ≤ 2) :
    CollectiveFramed o s (.poll o) 0x44 true (if WF.pdc o && !o.h.s then [o.d.toNat % 8] else []) := by
  refine frame_finish _ _ _ _ rfl (laneFrame_refl ..) fun t ht => ?_
  rw [M_get_bind, if_pos htruth] at ht
  obtain ⟨_, u, hput, ht⟩ := bind_inv ht
  have hwrite := coll_write 0x44 o s
    (fun _ => { pred := some (pollTruth o.h.rm.toNat ((participants s o.h).map (pollIn s o))) }) true
    (if WF.pdc o && !o.h.s then [o.d.toNat % 8] else []) (fun _ => rfl) fun _ _ _ hnone => by cases hnone
  dsimp only at hwrite
  rw [← putCollective_inv hput] at hwrite
  split at ht
  · rename_i hg
    rw [M_upd] at ht
    cases ht
    refine laneFrame_trans _ _ _ _ _ _ _ (by rw [putCollective_inv hput]; rfl) hwrite (laneFrame_updMe _ _ _ _ _ _ ?_)
    exact gFrame_setG _ _ _ _ _ _ _ (List.mem_append_right _ (by simp [hg]))
  · cases ht
    exact hwrite

theorem destA_poll_mask {c : FmtA} (hrm : c.h.rm.toNat = 3) : destA 0x44 c = unlessS c.h (use2 c.d) := by
  simp [destA, hrm]

theorem destA_poll_count {c : FmtA} (htruth : ¬ c.h.rm.toNat ≤ 2) (hmask : c.h.rm.toNat ≠ 3) :
    destA 0x44 c = unlessS c.h (use1 c.d) := by
  simp [destA, hmask, htruth]

theorem inUs_poll {o c : FmtA} (hwf : WF.pollOk o = true) (htruth : ¬ o.h.rm.toNat ≤ 2) (hrm : c.h.rm = o.h.rm) (hs : c.h.s = false) :
    inUs (destA 0x44 c) c.d o.h.t.toNat := by
  by_cases hmask : o.h.rm.toNat = 3
  · rw [destA_poll_mask (hrm ▸ hmask)]
    exact inUs_unlessS hs (inUs_use2 ..)
  · rw [destA_poll_count (hrm ▸ htruth) (hrm ▸ hmask), poll_type hwf htruth, if_neg hmask]
    exact inUs_unlessS hs (inUs_use1 _ _ (by decide))

theorem collectiveFramed_poll_value {o : FmtA} {s : State} (hsame : SameKind o s) (hwf : WF.pollOk o = true)
    (htruth : ¬ o.h.rm.toNat ≤ 2) : CollectiveFramed o s (.poll o) 0x44 false [] := by
  refine frame_finish _ _ _ _ rfl (laneFrame_refl ..) fun t ht => ?_
  rw [M_get_bind, if_neg htruth] at ht
  rw [putCollective_inv ht]
  exact coll_write 0x44 o s (fun _ => { ty := o.h.t.toNat, val := _ }) false [] (fun _ => rfl) fun t ht hs _ =>
    inUs_poll hwf htruth (hsame t ht).1 hs

/-- Settles O47: what a result touches is named by its instruction, for a collective instruction by the participant's own copy. -/
theorem Frames.laneFrame : Obligations.LaneFrame := by
  unfold Obligations.LaneFrame
  intro o s
  refine ⟨fun e he => laneFramed_of_mem s he, ?pmov, fun hsame => ?collective⟩
  case pmov =>
    cases hsets : (WF.fnv o).getLsbD 0 with
    | false => exact frame_pmov_reads o s hsets
    | true =>
      have hframe := frame_pmov_sets o s hsets
      simpa only [pmovMask, Bool.true_and, if_true] using hframe
  case collective =>
    simp only [collectives, List.forall_mem_cons]
    refine ⟨fun hwf => ?poll, fun _ => ?lxch, fun _ => ?gred, fun _ => ?gscan, fun _ => ?mxq, fun _ => ?bfpq, by simp⟩
    case poll =>
      by_cases htruth : o.h.rm.toNat ≤ 2
      · simpa [CollectiveFramed, htruth] using collectiveFramed_poll_truth o s htruth
      · simpa [CollectiveFramed, htruth] using collectiveFramed_poll_value hsame hwf htruth
    case lxch => exact collectiveFramed_typed 0x45 hsame rfl (fun _ => rfl) fun _ _ => ⟨rfl, rfl⟩
    case gred => exact collectiveFramed_gred hsame
    case gscan => exact collectiveFramed_typed 0x47 hsame rfl (fun _ => rfl) fun _ _ => ⟨rfl, rfl⟩
    case mxq => exact collectiveFramed_quantise 0x83 _ rfl fun _ => rfl
    case bfpq => exact collectiveFramed_quantise 0x85 _ rfl fun _ => rfl

end Sys2Proof.Machine
end

section
/-! Frames of Format M (R225 to R276): what the body of an access may store to and write, then each instruction. -/

namespace Sys2Proof.Machine

open Claim

variable {s t u : State}

/-- The completed access leaves everything but the bytes of `ps` and the registers named. -/
theorem frame_access {i : Instr} {o : FmtM} {indexed : Bool} {data : List FieldUse} {n al : Nat} {nd : Need}
    {extra : List Place → M Unit} {mk : State → Nat → Nat × Nat} {body : List (Place × Part) → M Unit} {m : Nat}
    {ps : List (Place × Part)} {us : List FieldUse} {qs gs : List Nat}
    (he : exec i s = finish (runM i o indexed data n al nd extra mk body) s)
    (hextra : ∀ ps s t a, extra ps s = .ok (a, t) → t = s)
    (hbody : ∀ t, body (placed o indexed nd mk s) s = .ok ((), t) →
      done (effR (storedGl o m ps) (storedSp o m ps) s.me.block us qs gs) s t) :
    frame i s (accessFrame o m ps us qs gs) := by
  refine frame_done _ _ _ _ he (effR_access (effR_of _ _ _ (eff_refl ..))) fun t ht => ?_
  rcases runM_inv (storedGl o m ps) (storedSp o m ps) s.me.block hextra ht with hdefer | hrun
  · exact done_imp hdefer fun h => effR_access (effR_of _ _ _ h)
  · exact done_imp (hbody t hrun) effR_access

/-- As `frame_access`, for an instruction that takes no part in the frame of accesses. -/
theorem frame_quiet {i : Instr} {o : FmtM} {m : M Unit} (he : exec i s = finish m s)
    (hm : ∀ t, m s = .ok ((), t) → done (eff (storedGl o 0 []) (storedSp o 0 []) s.me.block) s t) :
    frame i s (accessFrame o 0 [] [] [] []) :=
  frame_done _ _ _ _ he (quiet_access (eff_refl ..)) fun t ht => done_imp (hm t ht) quiet_access

theorem noExtra_keeps (ps : List Place) (s t : State) (a : Unit) (h : noExtra ps s = .ok (a, t)) : t = s := by
  cases h
  rfl

theorem wsCheck_keeps (o : FmtM) (ps : List Place) (s t : State) (a : Unit) (h : wsCheck o ps s = .ok (a, t)) : t = s := by
  unfold wsCheck at h
  rw [M_get_bind] at h
  exact need_inv h

/-! ### Loads, stores and cache control -/

theorem frame_load {i : Instr} {o : FmtM} {wide : Bool} {n : Nat}
    (he : exec i s = finish (runM i o true [] n n needR noExtra noData (loadBody o wide n)) s) :
    frame i s (accessFrame o 0 [] [] [] []) :=
  frame_access he noExtra_keeps fun _ h => done_imp (loadBody_inv _ _ _ h) (effR_of _ _ _)

theorem frame_pref (o : FmtM) (s : State) : frame (.pref o) s (accessFrame o 0 [] [] [] []) := by
  intro t _ ht _
  cases ht
  exact quiet_access (eff_prefetch ..)

theorem frame_st (o : FmtM) (s : State) :
    frame (.st o) s (accessFrame o (moveBytes o) (placed o true needW (fun s t => (storeData s o t, 0)) s) [] [] []) :=
  frame_access rfl (wsCheck_keeps o) fun _ h => done_imp (st_body o _ _ h) (effR_of _ _ _)

/-- An instruction that does nothing with a false guard. -/
theorem guardM_inv {h : Hdr} {m : M Unit} (hrun : (if (!guardG s h) = true then pure () else m) s = .ok ((), t)) :
    t = s ∨ m s = .ok ((), t) := by
  split at hrun
  · cases hrun
    exact .inl rfl
  · exact .inr hrun

theorem frame_flush {i : Instr} {o : FmtM} {drop : Bool} (he : exec i s = finish (flushCore o drop) s) :
    frame i s (accessFrame o 0 [] [] [] []) := by
  refine frame_quiet he fun t ht => .inr ?_
  unfold flushCore at ht
  rw [M_get_bind] at ht
  rcases guardM_inv ht with rfl | ht
  · exact eff_refl ..
  · obtain ⟨_, _, hcheck, ht⟩ := bind_inv ht
    cases checkSources_inv hcheck
    cases upd_inv ht
    exact eff_flushLines ..

theorem eff_markLines (p q b) (full : Bool) (blk ea n : Nat) (s : State) : eff p q b s (markLines full blk ea n s) := by
  unfold markLines
  refine eff_foldl _ _ _ _ _ _ fun _ _ _ _ => ?_
  split
  · exact eff_setFull ..
  · exact eff_setEmpty ..

theorem frame_femark (o : FmtM) (s : State) : frame (.femark o) s (accessFrame o 0 [] [] [] []) := by
  refine frame_quiet rfl fun t ht => .inr ?_
  unfold femarkCore at ht
  rw [M_get_bind] at ht
  rcases guardM_inv ht with rfl | ht
  · exact eff_refl ..
  · obtain ⟨_, _, hstale, ht⟩ := bind_inv ht
    cases checkStale_inv hstale
    obtain ⟨_, _, hrange, ht⟩ := bind_inv ht
    cases need_inv hrange
    obtain ⟨_, _, halign, ht⟩ := bind_inv ht
    cases need_inv halign
    obtain ⟨_, _, hpoison, ht⟩ := bind_inv ht
    cases checkPoison_inv hpoison
    cases upd_inv ht
    exact eff_markLines ..

/-! ### Fences and the token -/

theorem frame_fence (o : FmtM) (s : State) : frame (.fence o) s (accessFrame o 0 [] [] [] []) := by
  refine frame_quiet rfl fun t ht => .inr ?_
  unfold fenceCore at ht
  rw [M_get_bind] at ht
  rcases guardM_inv ht with rfl | ht
  · exact eff_refl ..
  · obtain ⟨_, _, hreads, ht⟩ := bind_inv (ifBudget_inv ht)
    cases needReads_inv hreads
    cases upd_inv ht
    exact eff_around o id _ fun u _ => eff_refl ..

theorem frame_opfence (o : FmtM) (s : State) : frame (.opfence o) s (accessFrame o 0 [] [] [] []) := by
  refine frame_quiet rfl fun t ht => .inr ?_
  unfold opfenceCore at ht
  rw [M_get_bind] at ht
  rcases guardM_inv ht with rfl | ht
  · exact eff_refl ..
  · cases upd_inv ht
    exact eff_writeBackAll ..

theorem frame_recfence (o : FmtM) (s : State) : frame (.recfence o) s (accessFrame o 0 [] [] [] []) := by
  refine frame_quiet rfl fun t ht => .inr ?_
  unfold recfenceCore at ht
  rw [M_get_bind] at ht
  rcases guardM_inv ht with rfl | ht
  · exact eff_refl ..
  · obtain ⟨_, _, hcheck, ht⟩ := bind_inv ht
    cases checkSources_inv hcheck
    cases upd_inv ht
    exact eff_trans (eff_writeBackAll ..) (eff_updCore _ _ _ _ _ _ fun _ he => he)

theorem frame_tokwait (o : FmtM) (s : State) : frame (.tokwait o) s (accessFrame o 0 [] [] [] []) := by
  refine frame_quiet rfl fun t ht => ?_
  unfold tokwaitCore at ht
  rw [M_get_bind] at ht
  split at ht
  · exact .inl (blockHere_inv ht)
  · cases ht
    exact .inr (eff_refl ..)

theorem frame_tokpass (o : FmtM) (s : State) : frame (.tokpass o) s (accessFrame o 0 [] [] [] []) := by
  refine frame_quiet rfl fun t ht => .inr ?_
  unfold tokpassCore at ht
  rw [M_get_bind] at ht
  split at ht
  · obtain ⟨_, _, hbudget, ht⟩ := bind_inv ht
    cases weltBudget_inv hbudget
    cases upd_inv ht
    exact eff_passToken ..
  · cases ht
    exact eff_refl ..

/-! ### FETEST and CRESIZE -/

theorem latchRes_fstat (x : Group) (h : Hdr) (ty t b : Nat) : (latchRes x h ty t b).fstat = x.fstat := by
  unfold latchRes
  split <;> rfl

theorem setPred_fstat (x : Group) (g : Bool) (p t : Nat) (v : Bool) : (setPred x g p t v).fstat = x.fstat := by
  unfold setPred
  split
  · unfold setG
    split <;> rfl
  · unfold setP
    split <;> rfl

/-- What one runner's truth changes. -/
def testDestsP (o : FmtM) : List Nat := if o.h.s || o.h.u then [] else [o.d.toNat % 8]
def testDestsG (o : FmtM) : List Nat := if o.h.s || !o.h.u then [] else [o.d.toNat % 8]

theorem effR_putTest (p q b) (o : FmtM) (vs : List (Nat × Bool)) (s : State) (hvs : ∀ e ∈ vs, e.1 < 64) :
    effR p q b [] (testDestsP o) (testDestsG o) s (putTest o vs s) := by
  unfold putTest
  refine effR_updMe (ls := [o.h.l.toNat]) s _ (gFrame_foldl _ _ _ _ _ _ _ fun x e he => ?_) ?_
  · dsimp only
    have hlatch := gFrame_latchRes [] (testDestsP o) (testDestsG o) [o.h.l.toNat] x o.h 3 e.1 (if e.2 then 1 else 0) (hvs e he)
      (List.mem_singleton_self _)
    refine gFrame_trans hlatch ?_
    cases hs : o.h.s with
    | true => exact gFrame_refl ..
    | false =>
      exact gFrame_setPred _ _ _ _ _ _ _ _ _ (hvs e he) (fun hu => by simp [testDestsP, hs, hu])
        fun hu => by simp [testDestsG, hs, hu]
  · refine foldl_keeps (fun x : Group => x.fstat = s.me.fstat) _ _ _ (fun x e h => ?_) rfl
    dsimp only
    split
    · rw [latchRes_fstat, h]
    · rw [setPred_fstat, latchRes_fstat, h]

theorem frame_fetest (o : FmtM) (s : State) : frame (.fetest o) s (accessFrame o 0 [] [] (testDestsP o) (testDestsG o)) := by
  refine frame_finish _ _ _ _ rfl (effR_access (effR_of _ _ _ (eff_refl ..))) fun t ht => effR_access ?_
  unfold fetestCore at ht
  rw [M_get_bind] at ht
  obtain ⟨_, _, hstale, ht⟩ := bind_inv ht
  cases checkStale_inv hstale
  obtain ⟨_, _, hrange, ht⟩ := bind_inv ht
  cases need_inv hrange
  obtain ⟨_, _, hpoison, ht⟩ := bind_inv ht
  cases checkPoison_inv hpoison
  cases upd_inv ht
  refine effR_putTest _ _ _ o _ s fun e he => ?_
  simp only [List.mem_map] at he
  obtain ⟨_, ⟨r, hr, rfl⟩, rfl⟩ := he
  exact runners_lt hr

theorem inUs_use1_k {f : BitVec 10} (ty : Nat) (hk : WF.isK f = true) : inUs (use1 f) f ty := by
  simp only [WF.isK, Bool.and_eq_true, decide_eq_true_eq] at hk
  exact ⟨fun hv => absurd hv (by omega), fun hlo hhi => by simp [namesK, use1, WF.isK, hlo, hhi]⟩

theorem effR_resizeTo (p q b) (o : FmtM) (m : Int) (s : State) (hd : o.h.s = false → WF.isK o.d = true) :
    effR p q b (unlessS o.h (use1 o.d)) [] [] s (resizeTo o m s) := by
  unfold resizeTo
  dsimp only
  refine effR_trans (effR_of _ _ _ (eff_ite fun _ => eff_setWays ..)) (effR_updMe (ls := [o.h.l.toNat]) _ _ ?_ (writeDest_fstat ..))
  exact gFrame_writeDest _ _ _ _ _ _ _ _ _ _ (by decide) (List.mem_singleton_self _) fun hs =>
    inUs_unlessS hs (inUs_use1_k 3 (hd hs))

theorem frame_cresize (o : FmtM) (s : State) (hwf : WF.wfCresize o = true) :
    frame (.cresize o) s (accessFrame o 0 [] (unlessS o.h (use1 o.d)) [] []) := by
  have hd : o.h.s = false → WF.isK o.d = true := by
    simp only [WF.wfCresize, Bool.and_eq_true, Bool.or_eq_true] at hwf
    obtain ⟨⟨⟨⟨⟨⟨⟨-, hdest⟩, -⟩, -⟩, -⟩, -⟩, -⟩, -⟩ := hwf
    intro hs
    simpa [hs] using hdest
  refine frame_finish _ _ _ _ rfl (effR_access (effR_of _ _ _ (eff_refl ..))) fun t ht => effR_access ?_
  unfold cresizeCore at ht
  rw [M_get_bind] at ht
  rcases guardM_inv ht with rfl | ht
  · exact effR_of _ _ _ (eff_refl ..)
  · obtain ⟨_, _, hcheck, ht⟩ := bind_inv ht
    cases checkSources_inv hcheck
    cases upd_inv ht
    exact effR_resizeTo _ _ _ o _ s hd

/-! ### Atomics -/

/-- The accesses of an atomic are at its places, whichever threads have theirs already. -/
theorem eff_atomicFold {o : FmtM} {f : Part → Nat → Option Nat} {ps some_ : List (Place × Part)} {b : Nat} (got : List Got) (s : State)
    (hb : s.me.block = b) (hsome : ∀ x ∈ some_, x ∈ ps) :
    eff (storedGl o (atomBytes o) ps) (storedSp o (atomBytes o) ps) b s (some_.foldl (atomicAt o f) (s, got)).1 :=
  eff_foldAcc _ _ _ some_ _ s got fun acc hacc x hx => eff_atomicAt o f ps acc x (hsome x hx) b ((eff_block hacc).trans hb)

theorem effR_atomAll {o : FmtM} {f : Part → Nat → Option Nat} {ps : List (Place × Part)} (s : State) (hps : ∀ x ∈ ps, x.1.tid < 64) :
    effR (storedGl o (atomBytes o) ps) (storedSp o (atomBytes o) ps) s.me.block (unlessS o.h (useTy o.h.t.toNat o.d)) [] [] s
      (atomAll o f ps s) := by
  unfold atomAll
  dsimp only
  have hfold := eff_atomicFold (o := o) (f := f) (heldGot s) s rfl fun x (hx : x ∈ heldRest s ps) => heldRest_mem hx
  refine effR_trans (effR_of _ _ _ (eff_trans hfold (eff_holdNone ..)))
    (effR_putGot _ _ _ [o.h.l.toNat] o o.h.t.toNat ps _ _ (List.mem_singleton_self _) ?_)
  exact fold_tids (atomicAt o f) (·.2) (heldRest s ps) (s, heldGot s) (heldGot_lt s)
    (fun acc x _ => atomicAt_got o f acc x) fun x hx => hps x (heldRest_mem hx)

/-- A scratchpad atomic that is held has done a part of its accesses. -/
theorem eff_atomHeld {o : FmtM} {f : Part → Nat → Option Nat} {ps some_ : List (Place × Part)} (s : State)
    (hsome : ∀ x ∈ some_, x ∈ ps) :
    let v := if isRel o.order.toNat then doRelease s s.cur.g o.scope.toNat else s
    eff (storedGl o (atomBytes o) ps) (storedSp o (atomBytes o) ps) s.me.block s
      (holdAt (some_.foldl (atomicAt o f) (v, heldGot s)).2 (some_.foldl (atomicAt o f) (v, heldGot s)).1) := by
  intro v
  have hv : eff (storedGl o (atomBytes o) ps) (storedSp o (atomBytes o) ps) s.me.block s v := eff_ite fun _ => eff_doRelease ..
  exact eff_trans hv (eff_trans (eff_atomicFold _ _ (eff_block hv) hsome) (eff_holdAt ..))

theorem beforeEmpty_mem {s : State} {ps : List (Place × Part)} {x : Place × Part} (hx : x ∈ (beforeEmpty s (heldRest s ps)).1) : x ∈ ps :=
  heldRest_mem (List.takeWhile_sublist _ |>.subset hx)

theorem effR_ordered {o : FmtM} {ps : List (Place × Part)} {prom : Bool} {f : State → State} {p q b us qs gs}
    (hf : ∀ u, eff p q b s u → effR p q b us qs gs u (f u)) (hrun : ordered o ps prom f s = .ok ((), t)) :
    done (effR p q b us qs gs) s t := by
  rcases ordered_inv hrun with hstall | rfl | rfl
  · exact .inl hstall
  · exact .inr (effR_of _ _ _ (eff_refl ..))
  · exact .inr (effR_around o f s hf)

theorem done_atomBody {o : FmtM} {f : Part → Nat → Option Nat} {ps : List (Place × Part)} (hps : ∀ x ∈ ps, x.1.tid < 64)
    (hrun : atomBody o f ps s = .ok ((), t)) :
    done (effR (storedGl o (atomBytes o) ps) (storedSp o (atomBytes o) ps) s.me.block (unlessS o.h (useTy o.h.t.toNat o.d)) [] []) s t := by
  unfold atomBody at hrun
  rw [M_get_bind] at hrun
  cases hheld : (if o.space.toNat = 1 then (beforeEmpty s (heldRest s ps)).2 else none) with
  | some line =>
    rw [hheld] at hrun
    obtain ⟨_, _, hpart, hwait⟩ := bind_inv hrun
    cases upd_inv hpart
    refine (waitFull_inv hwait).imp id fun heq => ?_
    rw [heq]
    exact effR_of _ _ _ (eff_atomHeld s fun x hx => beforeEmpty_mem hx)
  | none =>
    rw [hheld] at hrun
    refine effR_ordered (fun u hu => ?_) hrun
    rw [← eff_block hu]
    exact effR_atomAll u hps

theorem frame_atomic {i : Instr} {o : FmtM} {data : List FieldUse} {f : Part → Nat → Option Nat}
    (he : exec i s = finish (runM i o false data (atomBytes o) (atomBytes o) needRW noExtra (dataBC o) (atomBody o f)) s) :
    frame i s (accessFrame o (atomBytes o) (placed o false needRW (dataBC o) s) (unlessS o.h (useTy o.h.t.toNat o.d)) [] []) :=
  frame_access he noExtra_keeps fun _ h => done_atomBody (fun _ hx => placed_tid hx) h

theorem eff_atomscOne {o : FmtM} {ps : List (Place × Part)} {b : Nat} (acc : State × List Got) (hb : acc.1.me.block = b)
    {x : Place × Part} (hx : x ∈ ps) :
    eff (storedGl o (atomBytes o) ps) (storedSp o (atomBytes o) ps) b acc.1 (atomscOne o acc x).1 := by
  unfold atomscOne
  split
  · exact eff_misc _ _ _ rfl rfl rfl rfl rfl rfl rfl rfl
  · have hticket := eff_takeTicket (storedGl o (atomBytes o) ps) (storedSp o (atomBytes o) ps) b o.scope.toNat acc.1 x
    exact eff_trans hticket (eff_atomicAt o _ ps (takeTicket o.scope.toNat acc.1 x, acc.2) x hx b ((eff_block hticket).trans hb))

theorem atomscOne_got (o : FmtM) (acc : State × List Got) (x : Place × Part) :
    ∀ r ∈ (atomscOne o acc x).2, r ∈ acc.2 ∨ r.1 = x.1.tid := by
  intro r hr
  unfold atomscOne at hr
  split at hr
  · simp only [List.mem_append, List.mem_singleton] at hr
    exact hr.imp id fun h => by rw [h]
  · exact atomicAt_got o (atomscNew o) (takeTicket o.scope.toNat acc.1 x, acc.2) x r hr

theorem effR_atomscAll {o : FmtM} {ps : List (Place × Part)} (s : State) (hps : ∀ x ∈ ps, x.1.tid < 64) :
    effR (storedGl o (atomBytes o) ps) (storedSp o (atomBytes o) ps) s.me.block (unlessS o.h (useTy o.h.t.toNat o.d)) [] [] s
      (atomscAll o ps s) := by
  have hfold : eff (storedGl o (atomBytes o) ps) (storedSp o (atomBytes o) ps) s.me.block s (ps.foldl (atomscOne o) (s, [])).1 :=
    eff_foldAcc _ _ _ ps _ s [] fun acc hacc x hx => eff_atomscOne acc (eff_block hacc) hx
  refine effR_trans (effR_of _ _ _ hfold) (effR_putGot _ _ _ [o.h.l.toNat] o o.h.t.toNat ps _ _ (List.mem_singleton_self _) ?_)
  exact fold_tids (atomscOne o) (·.2) ps (s, []) (by simp) (fun acc x _ => atomscOne_got o acc x) hps

theorem frame_atomsc (o : FmtM) (s : State) :
    frame (.atomsc o) s (accessFrame o (atomBytes o) (placed o false needRW (dataBC o) s) (unlessS o.h (useTy o.h.t.toNat o.d)) [] []) :=
  frame_access (body := atomscBody o) rfl noExtra_keeps fun _ h => effR_ordered (fun u hu => by
    rw [← eff_block hu]
    exact effR_atomscAll u fun _ hx => placed_tid hx) h

/-! ### Welt entries -/

theorem effR_weltReadAll (p q b) {o : FmtM} {free : Bool} {ps : List (Place × Part)} (s : State) (hps : ∀ x ∈ ps, x.1.tid < 64)
    (hfree : free = true → ∀ x ∈ ps, ∀ a, x.1.pa ≤ a → a < x.1.pa + atomBytes o → p a = true) :
    effR p q b (unlessS o.h (useTy o.h.t.toNat o.d)) [] [] s (weltReadAll o free ps s) := by
  have hfold : eff p q b s (ps.foldl (weltReadAt o free) (s, [])).1 :=
    eff_foldAcc _ _ _ ps _ s [] fun acc _ x hx => eff_weltReadAt p q b o free acc x fun hf => hfree hf x hx
  refine effR_trans (effR_of _ _ _ hfold) (effR_putGot _ _ _ [o.h.l.toNat] o o.h.t.toNat ps _ _ (List.mem_singleton_self _) ?_)
  exact fold_tids (weltReadAt o free) (·.2) ps (s, []) (by simp) (fun acc x _ => weltReadAt_got o free acc x) hps

theorem done_weltReadBody (p q b) {o : FmtM} {free : Bool} {ps : List (Place × Part)} (hps : ∀ x ∈ ps, x.1.tid < 64)
    (hfree : free = true → ∀ x ∈ ps, ∀ a, x.1.pa ≤ a → a < x.1.pa + atomBytes o → p a = true)
    (hrun : weltReadBody o free ps s = .ok ((), t)) : done (effR p q b (unlessS o.h (useTy o.h.t.toNat o.d)) [] []) s t := by
  rcases weltReadBody_inv hrun with hstall | hrun
  · exact .inl hstall
  · exact effR_ordered (fun u _ => effR_weltReadAll p q b u hps hfree) hrun

theorem frame_wread (o : FmtM) (s : State) :
    frame (.wread o) s (accessFrame o 0 [] (unlessS o.h (useTy o.h.t.toNat o.d)) [] []) :=
  frame_access rfl noExtra_keeps fun _ h => done_weltReadBody _ _ _ (fun _ hx => placed_tid hx) (fun hf => by cases hf) h

theorem frame_wflush (o : FmtM) (s : State) (hspace : o.space.toNat ≠ 1) :
    frame (.wflush o) s (accessFrame o (atomBytes o) (placed o false needRW noData s) (unlessS o.h (useTy o.h.t.toNat o.d)) [] []) :=
  frame_access rfl noExtra_keeps fun _ h =>
    done_weltReadBody _ _ _ (fun _ hx => placed_tid hx) (fun _ _ hx => storedGl_mem hx hspace) h

/-- FADDW between its release and its acquire, where the tables keep room for its entries through the release. -/
theorem eff_around_faddw (p q b) (o : FmtM) (f64 : Bool) (ps : List (Place × Part)) (s : State) (hroom : weltsFit ps.length s)
    (hbytes : ∀ x ∈ ps, ∀ a, x.1.pa ≤ a → a < x.1.pa + (if f64 then 8 else 4) → p a = true) :
    eff p q b s (around o (fun s => ps.foldl (faddwAt f64) s) s) := by
  unfold around
  dsimp only
  have hrel : eff p q b s (if isRel o.order.toNat = true then doRelease s s.cur.g o.scope.toNat else s) := eff_ite fun _ => eff_doRelease ..
  have hkept : weltsFit ps.length (if isRel o.order.toNat = true then doRelease s s.cur.g o.scope.toNat else s) := by
    split
    · exact roomKept_doRelease s _ _ _ hroom
    · exact hroom
  generalize (if isRel o.order.toNat = true then doRelease s s.cur.g o.scope.toNat else s) = v at hrel hkept
  refine eff_trans hrel (eff_trans (eff_faddwAll p q b f64 ps v hkept hbytes) (eff_ite fun _ => ?_))
  exact eff_trans (eff_sampleAllOwn ..) (eff_doAcquire ..)

theorem placed_length_le (o : FmtM) (indexed : Bool) (nd : Need) (mk : State → Nat → Nat × Nat) (s : State) :
    (placed o indexed nd mk s).length ≤ (runners s o.h).length :=
  List.length_filterMap_le ..

/-- FADDW adds at the width of its type, in global memory. -/
theorem faddw_of_wf {o : FmtM} (hwf : WF.wfFaddw o = true) :
    (if decide (o.h.t.toNat = 11) = true then 8 else 4) = atomBytes o ∧ o.space.toNat ≠ 1 := by
  simp only [WF.wfFaddw, WF.atomHead, WF.memHead, Bool.and_eq_true, decide_eq_true_eq, Bool.false_or, List.contains_eq_mem,
    List.mem_cons, List.not_mem_nil, or_false] at hwf
  obtain ⟨⟨⟨⟨⟨⟨⟨⟨⟨⟨⟨htype, -⟩, -⟩, -⟩, -⟩, -⟩, hspace⟩, -⟩, -⟩, -⟩, -⟩, -⟩ := hwf
  refine ⟨?_, by omega⟩
  rcases htype with h | h <;> simp [atomBytes, tyWidth, h]

theorem frame_faddw (o : FmtM) (s : State) (hwf : WF.wfFaddw o = true) (hroom : weltsFit (runners s o.h).length s) :
    frame (.faddw o) s (accessFrame o (atomBytes o) (placed o false needRW (dataBC o) s) [] [] []) := by
  obtain ⟨hbytes, hspace⟩ := faddw_of_wf hwf
  refine frame_access rfl noExtra_keeps fun t h => ?_
  rcases ordered_inv h with hstall | rfl | rfl
  · exact .inl hstall
  · exact .inr (effR_of _ _ _ (eff_refl ..))
  · refine .inr (effR_of _ _ _ (eff_around_faddw _ _ _ o _ _ s (weltsFit_mono hroom (placed_length_le ..)) fun x hx => ?_))
    rw [hbytes]
    exact storedGl_mem hx hspace

/-! ### REDIX -/

/-- REDIX at all its places, or held where the slice's park is full. -/
theorem effR_redixAll (p q b) {o : FmtM} {ps : List (Place × Part)} (s : State) (hps : ∀ x ∈ ps, x.1.tid < 64)
    (hbytes : ∀ x ∈ ps, ∀ a, x.1.pa ≤ a → a < x.1.pa + 16 → p a = true) :
    (redixAll o ps s).cur.out = .stalled ∨ effR p q b (unlessS o.h (use1 o.d)) [] [] s (redixAll o ps s) := by
  have hrun := redixRun_eff p q b o.h.t.toNat (heldRest s ps) s (heldGot s) fun x hx => hbytes x (heldRest_mem hx)
  have htids := redixRun_tids o.h.t.toNat (heldRest s ps) s (heldGot s) (heldGot_lt s) fun x hx => hps x (heldRest_mem hx)
  unfold redixAll
  dsimp only
  split
  · exact .inr (effR_trans (effR_of _ _ _ (eff_trans hrun (eff_holdNone ..)))
      (effR_putGot _ _ _ [o.h.l.toNat] o 2 ps _ _ (List.mem_singleton_self _) htids))
  · exact .inl rfl

theorem done_around {p q b us qs gs} (o : FmtM) (f : State → State) (s : State)
    (hf : ∀ u, eff p q b s u → (f u).cur.out = .stalled ∨ effR p q b us qs gs u (f u)) : done (effR p q b us qs gs) s (around o f s) := by
  unfold around
  dsimp only
  have hrel : eff p q b s (if isRel o.order.toNat = true then doRelease s s.cur.g o.scope.toNat else s) := eff_ite fun _ => eff_doRelease ..
  generalize (if isRel o.order.toNat = true then doRelease s s.cur.g o.scope.toNat else s) = v at hrel
  have hacq : eff p q b (f v) (if isAcq o.order.toNat = true then doAcquire (sampleAllOwn (f v) s.cur.g) s.cur.g o.scope.toNat else f v) :=
    eff_ite fun _ => eff_trans (eff_sampleAllOwn ..) (eff_doAcquire ..)
  rcases hf v hrel with hstall | heff
  · exact .inl ((congrArg Issue.out hacq.2.2.2.1).trans hstall)
  · exact .inr (effR_trans (effR_trans (effR_of _ _ _ hrel) heff) (effR_of _ _ _ hacq))

theorem frame_redix (o : FmtM) (s : State) (hspace : o.space.toNat ≠ 1) :
    frame (.redix o) s (accessFrame o 16
      (placed o false needRW (fun s t => (srcAs s o.h.u o.h.t.toNat o.b t, src32 s o.h.u o.c t)) s) (unlessS o.h (use1 o.d)) [] []) := by
  refine frame_access (body := redixBody o) rfl noExtra_keeps fun t h => ?_
  rcases ordered_inv h with hstall | rfl | rfl
  · exact .inl hstall
  · exact .inr (effR_of _ _ _ (eff_refl ..))
  · exact done_around o _ s fun u _ => effR_redixAll _ _ _ u (fun _ hx => placed_tid hx) fun _ hx => storedGl_mem hx hspace

/-- Settles O48: the bodies store at the places of their accesses and write their destinations. -/
theorem Frames.accessFrame : Obligations.AccessFrame := by
  unfold Obligations.AccessFrame
  intro o s
  refine ⟨?quiet, frame_fetest o s, frame_wread o s, frame_cresize o s, frame_st o s, ?atomics, frame_faddw o s, frame_wflush o s,
    frame_redix o s⟩
  case quiet =>
    simp only [List.forall_mem_cons]
    exact ⟨frame_load rfl, frame_load rfl, frame_pref o s, frame_flush rfl, frame_flush rfl, frame_femark o s, frame_fence o s,
      frame_opfence o s, frame_recfence o s, frame_tokwait o s, frame_tokpass o s, by simp⟩
  case atomics =>
    simp only [List.forall_mem_cons]
    exact ⟨frame_atomic rfl, frame_atomic rfl, frame_atomsc o s, by simp⟩

end Sys2Proof.Machine
end

section
/-! Frames of the control and system instructions (R330 to R346, R416 to R421): what each changes besides the registers it names is the
group's place in its program, its tracks and waits, barriers, and control registers. -/

namespace Sys2Proof.Machine

open Claim

variable {s t u : State}

/-! ### Control instructions -/

theorem frame_still {i : Instr} {m : M Unit} {us : List FieldUse} (he : exec i s = finish m s)
    (hm : ∀ t, m s = .ok ((), t) → done eff0 s t) : frame i s (stillFrame us [] []) :=
  frame_done _ _ _ _ he (still0 (eff_refl ..)) fun t ht => done_imp (hm t ht) still0

theorem eff0_goTo (off : Nat) (s : State) : eff0 s (s.updMe fun x => goTo x off) :=
  eff_goTo s _ ⟨rfl, rfl, rfl, rfl, rfl, rfl, rfl, rfl⟩ rfl

theorem need_bind_inv {b : Bool} {tr : Trap} {m : M Unit} (h : (need b tr >>= fun _ => m) s = .ok ((), t)) : m s = .ok ((), t) := by
  obtain ⟨_, _, hneed, h⟩ := bind_inv h
  rwa [need_inv hneed] at h

theorem needDepth_bind_inv {n : Nat} {m : M Unit} (h : (needDepth n >>= fun _ => m) s = .ok ((), t)) : m s = .ok ((), t) := by
  obtain ⟨_, _, hneed, h⟩ := bind_inv h
  rwa [needDepth_inv hneed] at h

theorem checkPoison_bind_inv {b : Bool} {us : List FieldUse} {ts : List Nat} {m : M Unit}
    (h : (checkPoison b us ts >>= fun _ => m) s = .ok ((), t)) : m s = .ok ((), t) := by
  obtain ⟨_, _, hcheck, h⟩ := bind_inv h
  rwa [checkPoison_inv hcheck] at h

theorem eff0_braCore (o : FmtC) (h : braCore o s = .ok ((), t)) : eff0 s t := by
  obtain ⟨v, htarget, h⟩ := checkField_inv h
  obtain ⟨w, hrc, h⟩ := checkRc_inv h
  refine eff_trans htarget (eff_trans hrc ?_)
  rw [M_get_bind] at h
  dsimp only at h
  split at h
  · split at h
    · rw [upd_inv h]
      exact eff0_goTo ..
    · cases h
      exact eff_refl ..
  · split at h
    · cases h
      exact eff_refl ..
    · split at h
      · rw [upd_inv h]
        exact eff0_goTo ..
      · rw [upd_inv (needDepth_bind_inv (need_bind_inv h))]
        exact eff_goTo _ _ ⟨rfl, rfl, rfl, rfl, rfl, rfl, rfl, rfl⟩ rfl

/-- The checks of a branch that splits its threads. -/
theorem splitChecks_inv {c : Prop} [Decidable c] {b : Bool} {tr : Trap} {n : Nat} {m : M Unit}
    (h : (if c then (need b tr >>= fun _ => needDepth n >>= fun _ => m) else m) s = .ok ((), t)) : m s = .ok ((), t) := by
  split at h
  · exact needDepth_bind_inv (need_bind_inv h)
  · exact h

theorem eff0_brxCore (o : FmtC) (h : brxCore o s = .ok ((), t)) : eff0 s t := by
  unfold brxCore at h
  rw [M_get_bind] at h
  split at h
  · split at h
    · obtain ⟨v, htarget, h⟩ := checkOffset_inv h
      obtain ⟨w, hrc, h⟩ := checkRc_inv h
      rw [upd_inv (checkPoison_bind_inv h)]
      exact eff_trans htarget (eff_trans hrc (eff0_goTo ..))
    · obtain ⟨w, hrc, h⟩ := checkRc_inv h
      cases h
      exact hrc
  · obtain ⟨v, htargets, h⟩ := checkOffsets_inv _ h
    obtain ⟨w, hrc, h⟩ := checkRc_inv h
    refine eff_trans htargets (eff_trans hrc ?_)
    split at h
    · cases h
      exact eff_refl ..
    · dsimp only at h
      rw [upd_inv (need_bind_inv (splitChecks_inv h))]
      exact eff_goTo _ _ (brxPaths_same ..).1 (brxPaths_same ..).2

theorem eff0_joinCore (h : joinCore s = .ok ((), t)) : eff0 s t := by
  rw [upd_inv h]
  split
  · cases hstack : s.me.stack with
    | nil => exact eff_refl ..
    | cons e rest => exact eff_trans (eff_goTo s _ ⟨rfl, rfl, rfl, rfl, rfl, rfl, rfl, rfl⟩ rfl) (eff_resume ..)
  · exact eff_refl ..

theorem eff0_callCore (o : FmtC) (h : callCore o s = .ok ((), t)) : eff0 s t := by
  obtain ⟨v, htarget, h⟩ := checkField_inv h
  rw [M_get_bind] at h
  exact eff_trans htarget (callTo_inv h)

theorem eff0_callIndCore (o : FmtC) (h : callIndCore o s = .ok ((), t)) : eff0 s t := by
  unfold callIndCore at h
  rw [M_get_bind] at h
  obtain ⟨v, htarget, h⟩ := checkOffset_inv h
  exact eff_trans htarget (callTo_inv h)

theorem frame_loop (o : FmtC) (s : State) (hk : WF.isK o.a = true) : frame (.loop o) s (stillFrame (use1 o.a) [] []) := by
  refine frame_finish _ _ _ _ rfl (still0 (eff_refl ..)) fun t h => still_of ?_
  obtain ⟨v, htarget, h⟩ := checkField_inv h
  refine effR_trans (effR_of _ _ _ htarget) ?_
  rw [M_get_bind] at h
  rcases guardM_inv h with rfl | h
  · exact effR_of _ _ _ (eff_refl ..)
  · rw [upd_inv (checkPoison_bind_inv h)]
    dsimp only
    generalize (readK v.seen (o.a.toNat - 0x100) + (2 ^ 64 - 1)) % 2 ^ 64 = n
    have hwrite : gFrame (use1 o.a) [] [] [o.h.l.toNat] v.me (writeDest v.me o.h o.a 3 0 n) :=
      gFrame_writeDest _ _ _ _ _ _ _ _ _ _ (by decide) (List.mem_singleton_self _) fun _ => inUs_use1_k 3 hk
    refine effR_updMe2 v _ _ hwrite ?_ (writeDest_fstat ..)
    split
    · exact sameFile_refl _
    · exact ⟨rfl, rfl, rfl, rfl, rfl, rfl, rfl, rfl⟩

/-! #### Planes and waits -/

theorem setPlanes_same (x : Group) (vs : List (Nat × Nat)) : sameFile x (setPlanes x vs) ∧ (setPlanes x vs).block = x.block := by
  unfold setPlanes
  dsimp only
  split <;> exact ⟨⟨rfl, rfl, rfl, rfl, rfl, rfl, rfl, rfl⟩, rfl⟩

theorem frame_pln (o : FmtC) (s : State) : frame (.pln o) s (stillFrame [] [] []) := by
  refine frame_finish _ _ _ _ rfl (still0 (eff_refl ..)) fun t h => ?_
  unfold plnCore at h
  rw [M_get_bind] at h
  rw [upd_inv (checkPoison_bind_inv (need_bind_inv h))]
  have hmoved (vs : List (Nat × Nat)) : stillFrame [] [] [] s (s.updMe fun x => setPlanes x vs) :=
    still0 (eff_goTo s _ (setPlanes_same ..).1 (setPlanes_same ..).2)
  exact hmoved _

theorem eff0_plngCore (o : FmtC) (h : plngCore o s = .ok ((), t)) : eff0 s t := by
  unfold plngCore at h
  rw [M_get_bind] at h
  rcases guardM_inv h with rfl | h
  · exact eff_refl ..
  · rw [upd_inv (checkPoison_bind_inv (need_bind_inv h))]
    exact eff_goTo _ _ (setPlanes_same ..).1 (setPlanes_same ..).2

theorem eff0_sleepCore (o : FmtC) (h : sleepCore o s = .ok ((), t)) : eff0 s t := by
  unfold sleepCore at h
  rw [M_get_bind] at h
  rcases guardM_inv h with rfl | h
  · exact eff_refl ..
  · have h := checkPoison_bind_inv h
    split at h
    · cases h
      exact eff_refl ..
    · split at h <;> rw [upd_inv h] <;> exact eff_blockOn ..

theorem done_sleepTokCore (o : FmtC) (h : sleepTokCore o s = .ok ((), t)) : done eff0 s t := by
  unfold sleepTokCore at h
  rw [M_get_bind] at h
  rcases guardM_inv h with rfl | h
  · exact .inr (eff_refl ..)
  · have h := checkPoison_bind_inv (need_bind_inv h)
    cases hcopy : copyOf s s.me.block (readK s.seen (o.a.toNat - 0x100)) with
    | none =>
      rw [hcopy] at h
      cases h
      exact .inr (eff_refl ..)
    | some e =>
      rw [hcopy] at h
      dsimp only at h
      split at h
      · cases h
        exact .inr (eff_refl ..)
      · obtain ⟨_, _, hraise, h⟩ := bind_inv h
        cases raiseCopyWait_inv hraise
        split at h
        · cases h
        · split at h
          · cases h
            exact .inr (eff_refl ..)
          · exact .inl (blockHere_inv h)

theorem eff0_yieldCore (o : FmtC) (h : yieldCore o s = .ok ((), t)) : eff0 s t := by
  unfold yieldCore at h
  rw [M_get_bind] at h
  split at h
  · rw [upd_inv h]
    exact eff_swapOut ..
  · cases h
    exact eff_refl ..

theorem frame_softTrap {i : Instr} (o : FmtC) (cause : Nat) (he : exec i s = finish (softTrap o cause) s) :
    frame i s (stillFrame [] [] []) :=
  frame_still he fun _ h => .inr (by rw [softTrap_inv h]; exact eff_refl ..)

/-! #### Barriers -/

theorem frame_barrier {i : Instr} {o : FmtC} {body : M Unit} (he : exec i s = finish (barrier o body) s)
    (hbody : ∀ t, body s = .ok ((), t) → eff0 s t) : frame i s (stillFrame [] [] []) :=
  frame_still he fun t h => .inr (by
    rcases barrier_inv h with rfl | h
    · exact eff_refl ..
    · exact hbody t h)

theorem frame_bara (o : FmtC) (s : State) : frame (.bara o) s (stillFrame [] [] []) :=
  frame_barrier rfl fun t h => by
    obtain ⟨_, _, hrel, h⟩ := bind_inv h
    cases beforeRelease_inv hrel
    rw [upd_inv h]
    exact eff_arrive ..

theorem frame_barw (o : FmtC) (s : State) : frame (.barw o) s (stillFrame [] [] []) :=
  frame_barrier rfl fun t h => by
    obtain ⟨_, _, hreads, h⟩ := bind_inv h
    cases needReads_inv hreads
    rw [upd_inv h]
    exact eff_await ..

theorem frame_barx (o : FmtC) (s : State) : frame (.barx o) s (stillFrame [] [] []) :=
  frame_barrier rfl fun t h => by
    obtain ⟨_, _, hrel, h⟩ := bind_inv h
    cases beforeRelease_inv hrel
    rw [upd_inv h]
    exact eff_trans (eff_arrive ..) (eff_await ..)

theorem frame_bari (o : FmtC) (s : State) : frame (.bari o) s (stillFrame [] [] []) :=
  frame_barrier rfl fun t h => by
    unfold bariCore at h
    rw [M_get_bind] at h
    rw [upd_inv (checkPoison_bind_inv h)]
    exact eff_barChange ..

theorem frame_controls (o : FmtC) (s : State) :
    ∀ i ∈ controls o, wellFormed false i = true → frame i s (stillFrame (destsOf i) [] []) := by
  have hloop (hwf : WF.wfLoop o = true) : WF.isK o.a = true := by
    simp only [WF.wfLoop, Bool.and_eq_true] at hwf
    exact hwf.1.1.2
  simp only [controls, List.forall_mem_cons]
  exact ⟨fun _ => frame_still rfl fun _ h => .inr (eff0_braCore o h), fun _ => frame_still rfl fun _ h => .inr (eff0_brxCore o h),
    fun _ => frame_still rfl fun _ h => .inr (eff0_joinCore h), fun _ => frame_still rfl fun _ h => .inr (eff0_callCore o h),
    fun _ => frame_still rfl fun _ h => .inr (eff0_callIndCore o h), fun hwf => frame_loop o s (hloop hwf), fun _ => frame_pln o s,
    fun _ => frame_still rfl fun _ h => .inr (eff0_plngCore o h), fun _ => frame_still rfl fun _ h => .inr (eff0_sleepCore o h),
    fun _ => frame_still rfl fun _ h => done_sleepTokCore o h, fun _ => frame_still rfl fun _ h => .inr (eff0_yieldCore o h),
    fun _ => frame_softTrap o 0x10 rfl, fun _ => frame_softTrap o 0x0F rfl, fun _ => frame_bara o s, fun _ => frame_barw o s,
    fun _ => frame_barx o s, fun _ => frame_bari o s, by simp⟩

/-! ### System instructions -/

theorem frame_guardedS {i : Instr} {o : FmtS} {body : M Unit} {us : List FieldUse} (he : exec i s = finish (guardedS o body) s)
    (hbody : ∀ t, body s = .ok ((), t) → effR noByte noByte 0 us [] [] s t) : frame i s (stillFrame us [] []) :=
  frame_finish _ _ _ _ he (still0 (eff_refl ..)) fun t h => still_of (by
    rcases guardedS_inv h with rfl | h
    · exact effR_of _ _ _ (eff_refl ..)
    · exact hbody t h)

theorem frame_privileged {i : Instr} {h : Hdr} {body : M Unit} {us : List FieldUse} {gs : List Nat}
    (he : exec i s = finish (privileged h body) s) (hbody : ∀ t, body s = .ok ((), t) → effR noByte noByte 0 us [] gs s t) :
    frame i s (stillFrame us [] gs) :=
  frame_finish _ _ _ _ he (still0 (eff_refl ..)) fun t hrun => still_of (by
    rcases privileged_inv hrun with rfl | hrun
    · exact effR_of _ _ _ (eff_refl ..)
    · exact hbody t hrun)

theorem frame_csrr (o : FmtS) (s : State) (hd : WF.kDst o = true) : frame (.csrr o) s (stillFrame (unlessS o.h (use1 o.d)) [] []) :=
  frame_guardedS rfl fun t h => by
    rw [M_get_bind] at h
    rw [upd_inv (need_bind_inv h)]
    exact effR_putS o _ s (kdst o hd)

theorem frame_read {i : Instr} (o : FmtS) (s : State) (v : State → Nat) (he : exec i s = finish (guardedS o (upd fun s => putS o (v s) s)) s)
    (hd : WF.kDst o = true) : frame i s (stillFrame (unlessS o.h (use1 o.d)) [] []) :=
  frame_guardedS he fun t h => by
    rw [upd_inv h]
    exact effR_putS o _ s (kdst o hd)

theorem frame_proghint (o : FmtS) (s : State) : frame (.proghint o) s (stillFrame [] [] []) :=
  frame_guardedS rfl fun t h => effR_of _ _ _ (by
    rw [upd_inv (checkPoison_bind_inv h)]
    exact eff_updBlkSp _ _ _ rfl)

theorem frame_svc (o : FmtS) (s : State) : frame (.svc o) s (stillFrame [] [] []) :=
  frame_guardedS rfl fun t h => by
    have h := checkPoison_bind_inv h
    cases h

theorem eff_updHandler (p q b) (s : State) (quad : Nat) (f : Handler → Handler) : eff p q b s (s.updHandler quad f) :=
  eff_misc _ _ _ rfl rfl rfl rfl rfl rfl rfl rfl

theorem eff_endHandler (p q b) (s : State) (quad : Nat) : eff p q b s (endHandler s quad) := by
  unfold endHandler
  dsimp only
  split <;> exact eff_trans (eff_updHandler ..) (eff_updGrp _ _ _ _ _ _ ⟨rfl, rfl, rfl, rfl, rfl, rfl, rfl, rfl⟩ rfl)

theorem frame_eret (o : FmtS) (s : State) : frame (.eret o) s (stillFrame [] [] []) :=
  frame_privileged rfl fun t h => effR_of _ _ _ (by
    rw [upd_inv h]
    exact eff_endHandler ..)

theorem frame_halt (o : FmtS) (s : State) : frame (.halt o) s (stillFrame [] [] []) :=
  frame_privileged rfl fun t h => effR_of _ _ _ (by
    rw [upd_inv (checkPoison_bind_inv h)]
    split
    · exact eff_haltOne ..
    · exact eff_refl ..)

theorem frame_haltBlk (o : FmtS) (s : State) : frame (.haltBlk o) s (stillFrame [] [] []) :=
  frame_privileged rfl fun t h => effR_of _ _ _ (by
    rw [upd_inv (checkPoison_bind_inv h)]
    split
    · exact eff_foldl _ _ _ _ _ _ fun _ _ _ _ => eff_haltOne ..
    · exact eff_refl ..)

/-- GSTATR also answers in g0 whether the group stood halted. -/
theorem frame_gstatr (o : FmtS) (s : State) (hd : WF.kDst o = true) :
    frame (.gstatr o) s (stillFrame (unlessS o.h (use1 o.d)) [] [0]) := by
  have hanswer (v : Nat) (halted : Bool) : effR noByte noByte 0 (unlessS o.h (use1 o.d)) [] [0] s
      ((putS o v s).updMe fun x => setG x 0 halted) :=
    effR_trans (effR_putS o v s (kdst o hd)) (effR_setG _ 0 halted (List.mem_singleton_self 0))
  refine frame_privileged rfl fun t h => ?_
  rw [upd_inv (checkPoison_bind_inv h)]
  split
  · split <;> exact hanswer _ _
  · exact hanswer _ _

theorem frame_csrw {i : Instr} (o : FmtS) (s : State) (f : DWord → DWord → DWord) (he : exec i s = finish (csrwCore o f) s)
    (hdest : destsOf i = unlessS o.h (if WF.isK o.d then use1 o.d else [])) : frame i s (csrFrame o.csr.toNat (destsOf i)) := by
  rw [hdest]
  refine frame_finish _ _ _ _ he (csr_of (effR_of _ _ _ (eff_refl ..))) fun t h => ?_
  unfold csrwCore at h
  rcases guardedS_inv h with rfl | h
  · exact csr_of (effR_of _ _ _ (eff_refl ..))
  · rw [M_get_bind] at h
    rw [upd_inv (checkPoison_bind_inv (need_bind_inv h))]
    unfold csrwAll
    dsimp only
    generalize f _ _ = v
    obtain ⟨hwrite, hcur⟩ := writeCsr_frame (unlessS o.h (if WF.isK o.d then use1 o.d else [])) s o.csr.toNat v
    by_cases hput : (o.h.s || WF.isK o.d) = true
    · rw [if_pos hput]
      refine csr_trans hcur hwrite ?_
      have hk : o.h.s = false → WF.isK o.d = true := fun hs => by simpa [hs] using hput
      have hus : unlessS o.h (if WF.isK o.d then use1 o.d else []) = unlessS o.h (use1 o.d) := by
        cases hs : o.h.s with
        | true => simp [unlessS, hs]
        | false => rw [if_pos (hk hs)]
      rw [hus]
      exact effR_putS o _ _ hk
    · rw [if_neg hput]
      exact hwrite

/-- Settles O49: the frame of each instruction. -/
theorem controlFrame : Obligations.ControlFrame := by
  unfold Obligations.ControlFrame
  refine ⟨fun s t _ ht _ => ?nop, frame_controls, fun o s => ⟨?system, fun hwf => ?gstatr, ?csrw⟩⟩
  case nop =>
    cases ht
    exact still0 (eff_refl ..)
  case system =>
    have hcsrr (hwf : WF.wfCsrr o = true) : WF.kDst o = true := by
      simp only [WF.wfCsrr, Bool.and_eq_true] at hwf
      exact hwf.1.1.1.2
    have hrd (hwf : WF.wfRd o = true) : WF.kDst o = true := by
      simp only [WF.wfRd, Bool.and_eq_true] at hwf
      exact hwf.1.1.1.2
    simp only [List.forall_mem_cons]
    exact ⟨fun hwf => frame_csrr o s (hcsrr hwf), fun hwf => frame_read o s _ rfl (hrd hwf), fun hwf => frame_read o s _ rfl (hrd hwf),
      fun _ => frame_proghint o s, fun _ => frame_svc o s, fun _ => frame_eret o s, fun _ => frame_halt o s, fun _ => frame_haltBlk o s,
      by simp⟩
  case gstatr =>
    have hd : WF.kDst o = true := by
      have hwf : WF.wfGstatr o = true := hwf
      simp only [WF.wfGstatr, Bool.and_eq_true] at hwf
      exact hwf.1.1.1.2
    exact frame_gstatr o s hd
  case csrw =>
    simp only [List.forall_mem_cons]
    exact ⟨fun _ => frame_csrw o s _ rfl rfl, fun _ => frame_csrw o s _ rfl rfl, fun _ => frame_csrw o s _ rfl rfl, by simp⟩

end Sys2Proof.Machine
end

section
/-! Frames of the engine instructions: what an issue changes besides the registers it names is the engine's own queue, record caches,
tiles' status and scratchpad marks; the engines' acts do the rest. -/

namespace Sys2Proof.Machine

open Claim

variable {s t u : State}

/-- The issue of an engine instruction changes the registers us and the g predicates gs, and stores nothing. -/
abbrev IssueKeeps (us : List FieldUse) (gs : List Nat) (s t : State) : Prop := effR noByte noByte 0 us [] gs s t

theorem issueKeeps_of (us : List FieldUse) (gs : List Nat) (h : eff0 s t) : IssueKeeps us gs s t := effR_of us [] gs h
theorem issueKeeps_refl (us : List FieldUse) (gs : List Nat) : IssueKeeps us gs s s := issueKeeps_of us gs (eff_refl ..)

theorem frame_issue {i : Instr} {m : M Unit} {us : List FieldUse} {gs : List Nat} (he : exec i s = finish m s)
    (hm : ∀ t, m s = .ok ((), t) → done (IssueKeeps us gs) s t) : frame i s (stillFrame us [] gs) :=
  frame_done _ _ _ _ he (still0 (eff_refl ..)) fun t ht => done_imp (hm t ht) still_of

theorem checkStale_bind_inv {b : Bool} {us : List FieldUse} {ts : List Nat} {m : M Unit}
    (h : (checkStale b us ts >>= fun _ => m) s = .ok ((), t)) : m s = .ok ((), t) := by
  obtain ⟨_, _, hcheck, h⟩ := bind_inv h
  rwa [checkStale_inv hcheck] at h

/-! ### Waits and tests -/

theorem frame_cpyq (o : FmtE) (s : State) : frame (.cpyq o) s (stillFrame [] [] []) :=
  frame_guarded _ o _ s _ _ _ rfl fun t _ h => by
    obtain ⟨n, _, htoken, h⟩ := bind_inv h
    cases tokenArg_inv htoken
    rw [M_get_bind] at h
    cases hcopy : copyOf s s.me.block n with
    | none =>
      rw [hcopy] at h
      exact refl0 (by cases h; rfl)
    | some e =>
      rw [hcopy] at h
      exact refl0 (waitCopy_inv h)

theorem frame_cpyqAll (o : FmtE) (s : State) : frame (.cpyqAll o) s (stillFrame [] [] []) :=
  frame_guarded _ o _ s _ _ _ rfl fun t _ h => by
    rw [M_get_bind] at h
    exact refl0 (forM_same _ _ h fun _ _ _ _ hwait => waitCopy_inv hwait)

theorem frame_mwait (o : FmtE) (s : State) : frame (.mwait o) s (stillFrame [] [] []) :=
  frame_guarded _ o _ s _ _ _ rfl fun t _ h => by
    obtain ⟨_, _, htoken, h⟩ := bind_inv h
    cases matToken_inv htoken
    rw [M_get_bind] at h
    exact refl0 (waitMat_inv h)

theorem frame_mwaitAll (o : FmtE) (s : State) : frame (.mwaitAll o) s (stillFrame [] [] []) :=
  frame_guarded _ o _ s _ _ _ rfl fun t _ h => by
    rw [M_get_bind] at h
    exact refl0 (waitMat_inv h)

theorem frame_cpyqTest (o : FmtE) (s : State) : frame (.cpyqTest o) s (stillFrame [] [] [WF.ef o 2 0]) :=
  frame_guarded _ o _ s _ _ _ rfl fun t _ h => by
    obtain ⟨_, _, htoken, h⟩ := bind_inv h
    cases tokenArg_inv htoken
    rw [upd_inv h]
    exact effR_tested ..

theorem frame_mwaitTest (o : FmtE) (s : State) : frame (.mwaitTest o) s (stillFrame [] [] [WF.ef o 2 0]) :=
  frame_guarded _ o _ s _ _ _ rfl fun t _ h => by
    obtain ⟨_, _, htoken, h⟩ := bind_inv h
    cases matToken_inv htoken
    rw [upd_inv h]
    exact effR_tested ..

/-! ### Queries and bindings -/

theorem eff_setBind (p q b) (s : State) (blk bind : Nat) (v : Binding) : eff p q b s (setBind s blk bind v) := eff_updBlkSp _ _ _ rfl

theorem frame_bvhref (o : FmtE) (s : State) : frame (.bvhref o) s (stillFrame [] [] []) := by
  refine frame_issue rfl fun t h => .inr (issueKeeps_of _ _ ?_)
  rw [M_get_bind] at h
  rcases guardM_inv h with rfl | h
  · exact eff_refl ..
  · obtain ⟨_, _, htargets, h⟩ := bind_inv (checkStale_bind_inv h)
    cases checkTargets_inv htargets
    rw [upd_inv (checkPoison_bind_inv (need_bind_inv h))]
    exact eff_trans (eff_settleTargets ..) (eff_setBind ..)

theorem bindChecks_inv {ts : List Nat} {bind va : Nat} {a : Unit} (h : bindChecks ts bind va s = .ok (a, t)) : t = s := by
  unfold bindChecks at h
  rw [M_get_bind] at h
  exact need_inv h

theorem spawnCheck_inv {b : Bool} {ts : List Nat} {a : Unit} (h : spawnCheck b ts s = .ok (a, t)) : t = s := by
  unfold spawnCheck at h
  rw [M_get_bind] at h
  exact need_inv h

theorem queryFor_log {o : FmtE} (hlog : efLog o = false) (beam : Bool) (s0 s : State) (thread : Nat) :
    (queryFor o beam s0 s thread).log = none := by
  show logOf s0 o thread = none
  unfold logOf
  rw [hlog]
  rfl

theorem eff0_startQueries {o : FmtE} (hlog : efLog o = false) (beam : Bool) (ts : List Nat) (s : State) :
    eff0 s (startQueries o beam ts s) :=
  eff_foldl _ _ _ _ _ _ fun _ _ _ _ => acceptQuery_eff _ _ _ _ _ (queryFor_log hlog ..)

theorem frame_query {i : Instr} {o : FmtE} {beam : Bool} (he : exec i s = finish (queryCore o beam) s) (hlog : efLog o = false) :
    frame i s (stillFrame [] [] []) := by
  refine frame_issue he fun t h => .inr (issueKeeps_of _ _ ?_)
  rcases laneIssue_inv h with rfl | h
  · exact eff_refl ..
  · rw [M_get_bind] at h
    obtain ⟨_, _, halign, h⟩ := bind_inv h
    cases alignTargets_inv halign
    obtain ⟨_, _, hread, h⟩ := bind_inv h
    cases readTargets_inv hread
    obtain ⟨_, _, hbind, h⟩ := bind_inv (need_bind_inv (need_bind_inv h))
    cases bindChecks_inv hbind
    obtain ⟨_, _, hspawn, h⟩ := bind_inv h
    cases spawnCheck_inv hspawn
    rw [upd_inv (checkPoison_bind_inv h)]
    exact eff_trans (eff_settleTargets ..) (eff0_startQueries hlog ..)

/-! ### Copies -/

/-- A step made under a condition, before the rest. -/
theorem updIf_inv {c : Prop} [Decidable c] {f : State → State} {m : M Unit}
    (h : (if c then (upd f >>= fun _ => m) else m) s = .ok ((), t)) : ∃ v, (v = s ∨ v = f s) ∧ m v = .ok ((), t) := by
  split at h
  · obtain ⟨_, v, hupd, h⟩ := bind_inv h
    exact ⟨v, .inr (upd_inv hupd), h⟩
  · exact ⟨s, .inl rfl, h⟩

theorem issueKeeps_copyCore {o : FmtE} (kind shapeKind : Nat) (hk : WF.kTok o = true) (h : copyCore o kind shapeKind s = .ok ((), t)) :
    IssueKeeps (unlessS o.h (use1 o.k)) [] s t := by
  unfold copyCore at h
  rw [M_get_bind] at h
  rcases guardM_inv h with rfl | h
  · exact issueKeeps_refl ..
  · obtain ⟨bs, v, hfetch, h⟩ := bind_inv h
    refine effR_trans (issueKeeps_of _ _ (fetchRecord_inv hfetch)) ?_
    dsimp only at h
    obtain ⟨w, hw, h⟩ := updIf_inv h
    have hsettle : eff0 v w := by
      rcases hw with rfl | rfl
      · exact eff_refl ..
      · exact eff_settleRange ..
    refine effR_trans (issueKeeps_of _ _ hsettle) ?_
    rw [M_get_bind] at h
    cases hidx : copyIndices w shapeKind (shapeOf bs) with
    | error e =>
      rw [hidx] at h
      exact (uniTrap_inv h).elim
    | ok idx =>
      rw [hidx] at h
      rw [issueCopy_inv (need_bind_inv h)]
      exact effR_queueCopy _ _ _ _ _ o _ w hk

theorem frame_copy {i : Instr} {o : FmtE} {kind shapeKind : Nat} (he : exec i s = finish (copyCore o kind shapeKind) s)
    (hk : WF.kTok o = true) : frame i s (stillFrame (unlessS o.h (use1 o.k)) [] []) :=
  frame_issue he fun _ h => .inr (issueKeeps_copyCore kind shapeKind hk h)

theorem frame_cpyi (o : FmtE) (s : State) (hk : WF.kTok o = true) : frame (.cpyi o) s (stillFrame (unlessS o.h (use1 o.k)) [] []) :=
  frame_issue rfl fun t h => .inr (by
    unfold cpyiCore at h
    rw [M_get_bind] at h
    rcases guardM_inv h with rfl | h
    · exact issueKeeps_refl ..
    · rw [issueCopy_inv (need_bind_inv h)]
      exact effR_queueCopy _ _ _ _ _ o _ s hk)

theorem frame_cpyqStat (o : FmtE) (s : State) (hk : WF.kTok o = true) :
    frame (.cpyqStat o) s (stillFrame (unlessS o.h (use1 o.k)) [] []) :=
  frame_guarded _ o _ s _ _ _ rfl fun t _ h => by
    obtain ⟨_, _, htoken, h⟩ := bind_inv h
    cases tokenArg_inv htoken
    rw [upd_inv h]
    exact effR_putK o _ s hk

/-! ### Matrix operations -/

theorem issueKeeps_enterMat {i : Instr} {o : FmtE} {op : MatOp} (hk : WF.kTok o = true) (h : enterMat i o op s = .ok ((), t)) :
    IssueKeeps (unlessS o.h (use1 o.k)) [] s t := by
  rw [enterMat_inv h]
  exact effR_queueMat _ _ _ _ _ o op s hk

theorem frame_multiply {i : Instr} {o : FmtE} {kind : Nat} (he : exec i s = finish (mmCore kind i o) s) (hk : WF.kTok o = true) :
    frame i s (stillFrame (unlessS o.h (use1 o.k)) [] []) :=
  frame_guarded _ o _ s _ _ _ he fun t _ h => by
    obtain ⟨_, _, hconv, h⟩ := bind_inv h
    cases converged_inv hconv
    rw [M_get_bind] at h
    obtain ⟨_, _, howner, h⟩ := bind_inv (need_bind_inv h)
    cases owner_inv howner
    obtain ⟨_, v, hfetchA, h⟩ := bind_inv (need_bind_inv (need_bind_inv h))
    obtain ⟨_, w, hfetchB, h⟩ := bind_inv h
    refine effR_trans (issueKeeps_of _ _ (eff_trans (fetchRecord_inv hfetchA) (fetchRecord_inv hfetchB))) ?_
    exact issueKeeps_enterMat hk (ifSp_inv (ifSp_inv (need_bind_inv (need_bind_inv h))))

theorem frame_acz (o : FmtE) (s : State) (hk : WF.kTok o = true) : frame (.acz o) s (stillFrame (unlessS o.h (use1 o.k)) [] []) :=
  frame_guarded _ o _ s _ _ _ rfl fun t _ h => by
    obtain ⟨_, _, hconv, h⟩ := bind_inv h
    cases converged_inv hconv
    rw [M_get_bind] at h
    obtain ⟨_, _, howner, h⟩ := bind_inv h
    cases owner_inv howner
    exact issueKeeps_enterMat hk h

theorem eff_spaceSettle (p q b) (s : State) (op : MatOp) (spc a n : Nat) : eff p q b s (spaceSettle s op spc a n) := by
  unfold spaceSettle
  split
  · exact eff_settleRange ..
  · exact eff_refl ..

/-- A wait under a condition, before the rest. -/
theorem stallIf_inv {c : Prop} [Decidable c] {m : M Unit} (h : (if c then ((stallM : M Unit) >>= fun _ => m) else m) s = .ok ((), t)) :
    m s = .ok ((), t) := by
  split at h
  · cases h
  · exact h

theorem frame_acld (o : FmtE) (s : State) (hk : WF.kTok o = true) : frame (.acld o) s (stillFrame (unlessS o.h (use1 o.k)) [] []) := by
  refine frame_guarded _ o _ s _ _ _ rfl fun t _ h => ?_
  obtain ⟨_, _, hconv, h⟩ := bind_inv h
  cases converged_inv hconv
  rw [M_get_bind] at h
  obtain ⟨_, _, howner, h⟩ := bind_inv h
  cases owner_inv howner
  have h := need_bind_inv h
  dsimp only at h
  have h := stallIf_inv h
  obtain ⟨_, v, hsettle, h⟩ := bind_inv h
  have hv : eff0 s v := by
    rw [upd_inv hsettle]
    exact eff_spaceSettle ..
  refine effR_trans (issueKeeps_of _ _ hv) ?_
  rw [M_get_bind] at h
  cases hread : spaceRead v (acldOf o s) (acldOf o s).aspc ((acldOf o s).arec + rawTrailer (acldOf o s).w64) 64 with
  | error e =>
    rw [hread] at h
    obtain ⟨_, _, htrap, _⟩ := bind_inv h
    exact (uniTrap_inv htrap).elim
  | ok bs =>
    rw [hread] at h
    obtain ⟨_, _, hbytes, h⟩ := bind_inv h
    cases hbytes
    exact issueKeeps_enterMat hk (ifSp_inv (need_bind_inv h))

theorem frame_acst (o : FmtE) (s : State) (hk : WF.kTok o = true) : frame (.acst o) s (stillFrame (unlessS o.h (use1 o.k)) [] []) := by
  refine frame_guarded _ o _ s _ _ _ rfl fun t _ h => ?_
  obtain ⟨_, _, hconv, h⟩ := bind_inv h
  cases converged_inv hconv
  rw [M_get_bind] at h
  cases hestablished : spFind (established s s.me.block) (WF.ef o 52 48) with
  | none =>
    rw [hestablished] at h
    cases h
  | some w64 =>
    rw [hestablished] at h
    have h := need_bind_inv h
    split at h
    · have h := ifSp_inv h
      obtain ⟨_, _, hws, h⟩ := bind_inv h
      cases ws_inv hws
      exact issueKeeps_enterMat hk h
    · obtain ⟨_, v, hfetch, h⟩ := bind_inv h
      refine effR_trans (issueKeeps_of _ _ (fetchRecord_inv hfetch)) ?_
      have h := ifSp_inv (need_bind_inv h)
      obtain ⟨_, _, hws, h⟩ := bind_inv h
      cases ws_inv hws
      exact issueKeeps_enterMat hk h

/-! ### SLICE -/

theorem effR_putEach (p q b) (o : FmtE) (ty : Nat) (rs : List (Nat × Nat)) (s : State) (us : List FieldUse)
    (hrs : ∀ r ∈ rs, r.1 < 64) (hus : inUs us o.k ty) : effR p q b (unlessS o.h us) [] [] s (putEach o ty rs s) := by
  unfold putEach
  refine effR_updMe (ls := [o.h.l.toNat]) s _ (gFrame_foldl _ _ _ _ _ _ _ fun x r hr => ?_) ?_
  · exact gFrame_writeDest _ _ _ _ _ _ _ _ _ _ (hrs r hr) (List.mem_singleton_self _) fun hs => inUs_unlessS hs hus
  · exact foldl_keeps (fun x : Group => x.fstat = s.me.fstat) _ _ _ (fun x r h => by rw [writeDest_fstat]; exact h) rfl

theorem frame_slice (o : FmtE) (s : State) :
    frame (.slice o) s (stillFrame (unlessS o.h (if o.h.rm.toNat = 0 then use1 o.k else use2 o.k)) [] []) := by
  have hdest : inUs (if o.h.rm.toNat = 0 then use1 o.k else use2 o.k) o.k (if o.h.rm.toNat = 0 then 6 else 11) := by
    split
    · exact inUs_use1 _ _ (by decide)
    · exact inUs_use2 ..
  refine frame_issue rfl fun t h => .inr ?_
  unfold sliceCore at h
  rw [M_get_bind] at h
  obtain ⟨_, _, hcheck, h⟩ := bind_inv h
  cases checkSources_inv hcheck
  rw [upd_inv h]
  refine effR_putEach _ _ _ o _ _ s _ (fun r hr => ?_) hdest
  obtain ⟨thread, hthread, rfl⟩ := List.mem_map.1 hr
  exact runners_lt hthread

/-! ### Messages -/

theorem frame_recvw (o : FmtE) (s : State) (hk : WF.kTok o = true) : frame (.recvw o) s (stillFrame (unlessS o.h (use1 o.k)) [] []) := by
  refine frame_issue rfl fun t h => ?_
  rw [M_get_bind] at h
  rcases guardM_inv h with rfl | h
  · exact .inr (issueKeeps_refl ..)
  · obtain ⟨r, _, htoken, h⟩ := bind_inv (checkStale_bind_inv h)
    cases tokenRecv_inv htoken
    have h := checkPoison_bind_inv h
    split at h
    · exact .inl (blockHere_inv h)
    · rw [upd_inv h]
      exact .inr (effR_trans (effR_putK o _ s hk) (issueKeeps_of _ _ (eff_trans (eff_sampleAllOwn ..) (eff_doAcquire ..))))

theorem effR_probeAnswer (p q b) (o : FmtE) (found : Option Msg) (s : State) (hk : WF.kTok o = true) :
    effR p q b (unlessS o.h (use1 o.k)) [] [WF.ef o 18 16] s (probeAnswer o found s) := by
  have hset : effR p q b (unlessS o.h (use1 o.k)) [] [WF.ef o 18 16] s (s.updMe fun x => setG x (WF.ef o 18 16) found.isSome) :=
    effR_setG s _ _ (List.mem_singleton_self _)
  refine effR_trans hset ?_
  cases found with
  | some m => exact effR_putK o _ _ hk
  | none =>
    have hfresh (v : State) : eff p q b v v.fresh.2 := eff_misc _ _ _ rfl rfl rfl rfl rfl rfl rfl rfl
    exact effR_trans (effR_of _ _ _ (hfresh _)) (effR_putK o _ _ hk)

theorem frame_probe (o : FmtE) (s : State) (hk : WF.kTok o = true) :
    frame (.probe o) s (stillFrame (unlessS o.h (use1 o.k)) [] [WF.ef o 18 16]) := by
  refine frame_issue rfl fun t h => .inr ?_
  rw [M_get_bind] at h
  rcases guardM_inv h with rfl | h
  · exact issueKeeps_refl ..
  · rw [upd_inv (checkPoison_bind_inv (need_bind_inv (checkStale_bind_inv h)))]
    exact effR_probeAnswer _ _ _ o _ s hk

theorem frame_probeTok (o : FmtE) (s : State) (hk : WF.kTok o = true) :
    frame (.probeTok o) s (stillFrame (unlessS o.h (use1 o.k)) [] [WF.ef o 18 16]) := by
  refine frame_issue rfl fun t h => .inr ?_
  rw [M_get_bind] at h
  rcases guardM_inv h with rfl | h
  · exact issueKeeps_refl ..
  · obtain ⟨r, _, htoken, h⟩ := bind_inv (checkStale_bind_inv h)
    cases tokenRecv_inv htoken
    rw [upd_inv (checkPoison_bind_inv h)]
    exact effR_trans (effR_setG s _ _ (List.mem_singleton_self _)) (effR_putK o _ _ hk)

/-- Settles O50: the frame of each instruction. -/
theorem engineFrame : Obligations.EngineFrame := by
  unfold Obligations.EngineFrame
  intro o s
  refine ⟨?waits, fun hlog => ?queries, ?tests, fun hk => ⟨?tokens, ?probes⟩, fun _ => frame_slice o s⟩
  case waits =>
    simp only [List.forall_mem_cons]
    exact ⟨frame_cpyq o s, frame_cpyqAll o s, frame_mwait o s, frame_mwaitAll o s, frame_bvhref o s, by simp⟩
  case queries =>
    simp only [List.forall_mem_cons]
    exact ⟨frame_query rfl hlog, frame_query rfl hlog, by simp⟩
  case tests =>
    simp only [List.forall_mem_cons]
    exact ⟨frame_cpyqTest o s, frame_mwaitTest o s, by simp⟩
  case tokens =>
    simp only [tokenIssuers, List.forall_mem_cons]
    exact ⟨frame_copy rfl hk, frame_copy rfl hk, frame_copy rfl hk, frame_cpyi o s hk, frame_cpyqStat o s hk, frame_multiply rfl hk,
      frame_multiply rfl hk, frame_multiply rfl hk, frame_acz o s hk, frame_acld o s hk, frame_acst o s hk, frame_recvw o s hk, by simp⟩
  case probes =>
    simp only [List.forall_mem_cons]
    exact ⟨frame_probe o s hk, frame_probeTok o s hk, by simp⟩

end Sys2Proof.Machine
end

section
/-! Where results land (R61, R111, R113): the writes of the other runners leave a thread's own entries, and a uniform instruction has
one runner. -/

namespace Sys2Proof.Machine

open Claim

/-- The group after every runner's writes, before the flags. -/
def putAllRes (o : FmtA) (f : Nat → Res) (rs : List Nat) (x : Group) : Group := rs.foldl (fun x i => putRes o x i (f i)) x

theorem writeAll_me (o : FmtA) (f : Nat → Res) (rs : List Nat) (s : State) :
    (writeAll (fun _ => o) (rs.map fun i => (i, f i)) s).me
      = orFstat (putAllRes o f rs s.me) (rs.foldl (fun a i => a ||| (f i).flags) 0) := by
  unfold writeAll putAllRes flagsOf
  rw [updMe_me, List.foldl_map, List.foldl_map]

theorem putAllRes_fstat (o : FmtA) (f : Nat → Res) (rs : List Nat) (x : Group) : (putAllRes o f rs x).fstat = x.fstat :=
  foldl_keeps (fun y : Group => y.fstat = x.fstat) _ _ _ (fun y i h => by rw [putRes_fstat]; exact h) rfl

theorem threadSame_putAllRes {o : FmtA} {f : Nat → Res} {rs : List Nat} {i : Nat} (hu : o.h.u = false) (hi : i < 64)
    (hlt : ∀ t ∈ rs, t < 64) (hne : i ∉ rs) (x : Group) : threadSame i x (putAllRes o f rs x) := by
  induction rs generalizing x with
  | nil => exact threadSame_refl ..
  | cons t rs ih =>
    obtain ⟨hti, hrest⟩ := not_or.1 (mt List.mem_cons.2 hne)
    exact threadSame_trans (threadSame_putRes o x t i (f t) hu (hlt t (List.mem_cons_self ..)) hi (Ne.symm hti))
      (ih (fun t ht => hlt t (List.mem_cons_of_mem _ ht)) hrest _)

/-- The runner's own write stands in the end, and is the last of a uniform instruction. -/
theorem putAllRes_self {o : FmtA} {f : Nat → Res} {s : State} {i : Nat} (hi : i ∈ runners s o.h) (x : Group) :
    ∃ y, threadSame i (putRes o y i (f i)) (putAllRes o f (runners s o.h) x)
      ∧ (o.h.u = true → putAllRes o f (runners s o.h) x = putRes o y i (f i)) := by
  cases hu : o.h.u with
  | true =>
    have hone : runners s o.h = [i] := by
      unfold runners at hi ⊢
      rw [if_pos hu] at hi ⊢
      split at hi
      · rw [List.mem_singleton.1 hi, if_pos ‹_›]
      · cases hi
    rw [hone]
    exact ⟨x, threadSame_refl .., fun _ => rfl⟩
  | false =>
    obtain ⟨before, after, hsplit⟩ := List.append_of_mem hi
    have hnodup := runners_nodup s o.h
    have hlt : ∀ t ∈ runners s o.h, t < 64 := fun t => runners_lt
    rw [hsplit] at hnodup hlt ⊢
    have hafter : i ∉ after := (List.nodup_cons.1 (List.nodup_append.1 hnodup).2.1).1
    refine ⟨putAllRes o f before x, ?_, fun h => by cases h⟩
    unfold putAllRes
    rw [List.foldl_append, List.foldl_cons]
    exact threadSame_putAllRes hu (runners_lt hi) (fun t ht => hlt t (by simp [ht])) hafter _

theorem threadSame_orFstat (i : Nat) (x : Group) (fl : Flags) : threadSame i x (orFstat x fl) :=
  ⟨fun _ => rfl, fun _ => ⟨rfl, rfl⟩, fun _ => rfl⟩

theorem readVPair_of_threadSame {i : Nat} {x y : Group} (h : threadSame i x y) (r : Nat) : readVPair y r i = readVPair x r i := by
  unfold readVPair
  rw [h.1, h.1]

/-- Settles O51: a runner's own write by `putRes_self`, which stands in the end. -/
theorem resultsLand : Obligations.ResultsLand := by
  unfold Obligations.ResultsLand
  intro o s f t
  have hme : t.me = orFstat (putAllRes o f (runners s o.h) s.me) ((runners s o.h).foldl (fun a i => a ||| (f i).flags) 0) :=
    writeAll_me o f _ s
  refine ⟨fun i hi hskip => ?lands, ?fstat⟩
  case fstat =>
    rw [hme]
    unfold orFstat
    rw [putAllRes_fstat]
  case lands =>
    obtain ⟨y, hsame, huni⟩ := putAllRes_self (f := f) hi s.me
    obtain ⟨hvalue, hpred, hq⟩ := putRes_self o y i (f i) (runners_lt hi) hskip
    have hthread : threadSame i (putRes o y i (f i)) t.me := by
      rw [hme]
      exact threadSame_trans hsame (threadSame_orFstat ..)
    have huniform (hu : o.h.u = true) : t.me = orFstat (putRes o y i (f i)) ((runners s o.h).foldl (fun a i => a ||| (f i).flags) 0) := by
      rw [hme, huni hu]
    refine ⟨fun hnone => ?_, fun v hv hs hp hother => ?_, fun v hv hqv hp => ?_⟩
    · obtain ⟨hregs, hk, hlatch, hlatches⟩ := hvalue hnone
      refine ⟨fun hs hd => ?_, fun hs hd hu => ?_, fun hu => ?_, fun hu j hj => ?_⟩
      · rw [hthread.1, readVPair_of_threadSame hthread]
        exact hregs hs hd
      · rw [huniform hu]
        exact hk hs hd
      · rw [(hthread.2.1 _).1, (hthread.2.1 _).2]
        exact hlatch hu
      · rw [huniform hu]
        exact hlatches hu j hj
    · obtain ⟨hp, hg⟩ := hpred v hv hs hp hother
      refine ⟨fun hpdc => ?_, fun hpdc hu => ?_⟩
      · rw [hthread.2.2]
        exact hp hpdc
      · rw [huniform hu]
        exact hg hpdc
    · obtain ⟨hp, hg⟩ := hq v hv hqv hp
      refine ⟨fun hpdc => ?_, fun hpdc hu => ?_⟩
      · rw [hthread.2.2]
        exact hp hpdc
      · rw [huniform hu]
        exact hg hpdc

end Sys2Proof.Machine
end

section
/-! Taking an exception (R400 to R402, R413, R421): what a trap leaves of its group and enters in the trap queue, the dispatch of
an entry, and the return from a handler. -/

namespace Sys2Proof.Machine

open Claim

variable {s : State} {t : Trap} {q : Nat}

/-! ### A trap of a lane group -/

/-- The state in which the group of a trapping issue is raised: its lines counted, its pc back at the instruction. -/
def trapStart (s : State) (t : Trap) : State :=
  (countCorrected s (coreDie (placeCore s.cur.g)) t.ecc).updGrp s.cur.g fun x => { x with pc := s.cur.off }

theorem countCorrected_parts (s : State) (d n : Nat) :
    (countCorrected s d n).groups = s.groups ∧ (countCorrected s d n).handlers = s.handlers
    ∧ (countCorrected s d n).blocks = s.blocks ∧ (countCorrected s d n).launches = s.launches
    ∧ (countCorrected s d n).mem = s.mem := by
  unfold countCorrected
  split <;> exact ⟨rfl, rfl, rfl, rfl, rfl⟩

theorem trapStart_grp (s : State) (t : Trap) : (trapStart s t).grp s.cur.g = { s.me with pc := s.cur.off } := by
  have hgroups := (countCorrected_parts s (coreDie (placeCore s.cur.g)) t.ecc).1
  rw [trapStart, updGrp_grp]
  unfold State.me State.grp
  rw [hgroups]

theorem trapStart_blocks (s : State) (t : Trap) : (trapStart s t).blocks = s.blocks :=
  (countCorrected_parts s _ _).2.2.1

theorem trapStart_launches (s : State) (t : Trap) : (trapStart s t).launches = s.launches :=
  (countCorrected_parts s _ _).2.2.2.1

theorem trapStart_handlers (s : State) (t : Trap) : (trapStart s t).handlers = s.handlers :=
  (countCorrected_parts s _ _).2.1

theorem trapStart_sorted (t : Trap) (h : spSorted 0 s.groups = true) : spSorted 0 (trapStart s t).groups = true :=
  updGrp_sorted _ _ _ ((countCorrected_parts s _ _).1 ▸ h)

theorem trapStart_grpLch (s : State) (t : Trap) : (trapStart s t).grpLch s.cur.g = s.grpLch s.cur.g := by
  unfold State.grpLch State.grpBlk State.blk State.lch
  rw [trapStart_grp, trapStart_blocks, trapStart_launches]
  rfl

theorem trapStart_pavane (s : State) (t : Trap) : (trapStart s t).grpPavane s.cur.g = s.grpPavane s.cur.g := by
  unfold State.grpPavane
  rw [trapStart_grpLch]

/-- The handle in the trap registers is the one the group had before the trap. -/
theorem trapStart_handle (s : State) (t : Trap) : handleOf (trapStart s t) s.cur.g = handleOf s s.cur.g := by
  unfold handleOf State.ctxOf State.blk
  rw [trapStart_grpLch, trapStart_grp, trapStart_blocks]
  rfl

theorem trapStart_halt (s : State) (t : Trap) : ((trapStart s t).grp s.cur.g).halt = s.me.halt := by rw [trapStart_grp]

/-- The effect of a trap: the group is raised, and what is recorded of the issue is how it ended. -/
theorem takeTrap_eq (s : State) (t : Trap) : takeTrap s t =
    { raiseAt (trapStart s t) s.cur.g s.cur.off t with
      cur := { (raiseAt (trapStart s t) s.cur.g s.cur.off t).cur with out := .trapped t } } := rfl

theorem filesAll_trapStart (s : State) (t : Trap) : filesAll s (trapStart s t) :=
  filesAll_trans (filesAll_countCorrected s _ _) (filesAll_setPc _ s.cur.g s.cur.off)

theorem takeTrap_sameFile (s : State) (t : Trap) (g : Nat) : sameFile (s.grp g) ((takeTrap s t).grp g) :=
  (filesAll_trans (filesAll_trapStart s t) (filesAll_raiseAt _ s.cur.g s.cur.off t)).1 g

theorem takeTrap_cur_g (s : State) (t : Trap) : (takeTrap s t).cur.g = s.cur.g := by
  have hcur : (raiseAt (trapStart s t) s.cur.g s.cur.off t).cur = s.cur :=
    (filesAll_trans (filesAll_trapStart s t) (filesAll_raiseAt _ s.cur.g s.cur.off t)).2.1
  rw [takeTrap_eq]
  dsimp only
  rw [hcur]

theorem takeTrap_me (s : State) (t : Trap) :
    (takeTrap s t).me = (raiseAt (trapStart s t) s.cur.g s.cur.off t).grp s.cur.g := by
  unfold State.me
  rw [takeTrap_cur_g]
  rfl

theorem takeTrap_mem (s : State) (t : Trap) : (takeTrap s t).mem = s.mem :=
  (mem5_raiseAt (trapStart s t) s.cur.g s.cur.off t).1.trans (countCorrected_parts s _ _).2.2.2.2

/-- The trapped group as it leaves its track: halted by its trap, its line execution ended. -/
def trapped (s : State) (t : Trap) : Group :=
  { endLine s.me with pc := s.cur.off, halt := true, byhalt := false, cause := t.cause,
                      refused := if t.cause = 0x18 then none else s.me.refused }

theorem trapFrom_grp (s : State) (t : Trap) :
    (trapFrom (trapStart s t) s.cur.g s.cur.off t).grp s.cur.g = trapped s t := by
  have hgroups := trapFrom_groups (trapStart s t) s.cur.g s.cur.off t
  have hgrp := updGrp_grp (trapStart s t) s.cur.g fun x =>
    { endLine x with halt := true, byhalt := false, cause := t.cause, refused := if t.cause = 0x18 then none else x.refused }
  unfold State.grp at hgrp ⊢
  rw [hgroups, hgrp]
  change (fun x : Group => { endLine x with
    halt := true, byhalt := false, cause := t.cause, refused := if t.cause = 0x18 then none else x.refused })
    ((trapStart s t).grp s.cur.g) = _
  rw [trapStart_grp]
  rfl

theorem trapFrom_sorted {s : State} (t : Trap) (h : spSorted 0 s.groups = true) :
    spSorted 0 (trapFrom (trapStart s t) s.cur.g s.cur.off t).groups = true := by
  rw [trapFrom_groups]
  exact updGrp_sorted _ _ _ (trapStart_sorted t h)

section

variable (hcontrol : isControl s.cur.g = false) (hlive : s.me.halt = false)
include hcontrol hlive

theorem raiseAt_trapStart (t : Trap) : raiseAt (trapStart s t) s.cur.g s.cur.off t
    = leaveTrack (trapFrom (trapStart s t) s.cur.g s.cur.off t) s.cur.g :=
  raiseAt_live _ _ _ t hcontrol ((trapStart_halt s t).trans hlive)

/-- A trapped group keeps all it has as it leaves its track but what says where it runs. -/
theorem takeTrap_tied (t : Trap) : tied (trapped s t) (takeTrap s t).me := by
  have htied := leaveTrack_tied (trapFrom (trapStart s t) s.cur.g s.cur.off t) s.cur.g
  have hline : waitLine (trapFrom (trapStart s t) s.cur.g s.cur.off t) s.cur.g = trapped s t := by
    unfold waitLine
    rw [trapFrom_grp]
    split <;> rfl
  rw [hline, ← raiseAt_trapStart hcontrol hlive t, ← takeTrap_me] at htied
  exact htied

theorem takeTrap_track (t : Trap) (hpavane : s.grpPavane s.cur.g = false) (hsorted : spSorted 0 s.groups = true) :
    (takeTrap s t).me.track = none := by
  have hready : readyPending { endLine (trapped s t) with track := none } = false := by simp [readyPending, endLine, trapped]
  rw [takeTrap_me, raiseAt_trapStart hcontrol hlive, leaveTrack_find _ _ (trapFrom_sorted t hsorted) _ hcontrol _]
  · rw [trapFrom_grp]; exact hready
  · rw [trapFrom_pavane, trapStart_pavane]; exact hpavane

/-- The trap's entry is the last of its quadrille's queue, with the trap registers of Table 16-2. -/
theorem takeTrap_queue (t : Trap) : ((takeTrap s t).handler (quadOf (placeCore s.cur.g))).queue
    = (s.handler (quadOf (placeCore s.cur.g))).queue
      ++ [{ group := some s.cur.g, regs := trapRegs (trapStart s t) (some s.cur.g) s.cur.off t }] := by
  have hhandlers : (takeTrap s t).handlers = (queueTrap (trapStart s t) (quadOf (placeCore s.cur.g)) (some s.cur.g)
      (trapRegs (trapStart s t) (some s.cur.g) s.cur.off t)).handlers := by
    rw [takeTrap_eq, raiseAt_trapStart hcontrol hlive]
    exact (leaveTrack_handlers _ _).trans (trapFrom_handlers ..)
  unfold State.handler
  rw [hhandlers, queueTrap]
  simp only [State.updHandler, State.handler, spFind_spPut_self, Option.getD_some, trapStart_handlers]

end

/-- A trap of a control core's own instruction is a machine check of its die (R413). -/
theorem takeTrap_mcheck (t : Trap) (hcontrol : isControl s.cur.g = true)
    (hpresent : diePresent s (coreDie (placeCore s.cur.g)) = true) :
    ((takeTrap s t).die (coreDie (placeCore s.cur.g))).mcheck = true := by
  have hraise : raiseAt (trapStart s t) s.cur.g s.cur.off t = machineCheck (trapStart s t) (coreDie (placeCore s.cur.g)) := by
    unfold raiseAt
    rw [if_pos hcontrol]
  have hdie : diePresent (trapStart s t) (coreDie (placeCore s.cur.g)) = true := by
    rw [← hpresent]
    unfold trapStart countCorrected
    split <;> rfl
  have hmcheck := machineCheck_mcheck (trapStart s t) _ hdie
  rw [← hraise] at hmcheck
  exact hmcheck

/-! ### The handler -/

theorem updHandler_handler (s : State) (q : Nat) (f : Handler → Handler) : (s.updHandler q f).handler q = f (s.handler q) := by
  simp [State.updHandler, State.handler]

/-- TRAP_DISPATCH takes the oldest entry and starts the control core at the cause's place in the handler table (R402). -/
theorem dispatchTrap_cons (s : State) (q : Nat) (e : TrapEntry) (rest : List TrapEntry) (hqueue : (s.handler q).queue = e :: rest) :
    dispatchTrap s q =
      ((s.updHandler q fun h => { h with
          running := true, now := e.group, queue := rest,
          regs := { e.regs with tvec := (s.handler q).regs.tvec, mcpc := (s.handler q).regs.mcpc } }).updGrp (controlPlace q) fun x =>
        { endLine x with
          halt := false, wait := .none,
          pc := (bitsNat (s.handler q).regs.tvec 26 0 + 5 * bitsNat e.regs.tcause 7 0) % 2 ^ 27 }) := by
  unfold dispatchTrap
  dsimp only
  rw [hqueue]

/-- ERET after a machine check goes back to the handler it interrupted (R421). -/
theorem endHandler_interrupted {pc : Nat} (h : (s.handler q).interrupted = some pc) :
    endHandler s q = (s.updHandler q fun h => { h with interrupted := none }).updGrp (controlPlace q) fun x =>
      { endLine x with pc := pc } := by
  unfold endHandler
  dsimp only
  rw [h]

theorem endHandler_last (h : (s.handler q).interrupted = none) :
    endHandler s q = (s.updHandler q fun h => { h with running := false, now := none }).updGrp (controlPlace q) fun x =>
      { endLine x with halt := true } := by
  unfold endHandler
  dsimp only
  rw [h]

theorem handler_updGrp (s : State) (g : Nat) (f : Group → Group) (q : Nat) : (s.updGrp g f).handler q = s.handler q := rfl

/-- Settles O52: a trap halts its group and enters the queue; the handler starts and returns. -/
theorem exceptionEntry : Obligations.ExceptionEntry := by
  unfold Obligations.ExceptionEntry
  refine ⟨fun s t hcontrol hlive => ?_, fun s t hcontrol hpresent => takeTrap_mcheck t hcontrol hpresent,
    fun s q e rest hqueue => ?_, fun s q => ⟨fun pc hint => ?_, fun hint => ?_⟩⟩
  · have htied : tied (trapped s t) (takeTrap s t).me := takeTrap_tied hcontrol hlive t
    unfold tied at htied
    obtain ⟨hcause, hmask, haddr, hpc, hhandle⟩ := trapRegs_parts (trapStart s t) s.cur.g s.cur.off t
    refine ⟨?_, ?_, ?_, ?_, ?_, takeTrap_track hcontrol hlive t, takeTrap_sameFile s t, takeTrap_mem s t,
      _, takeTrap_queue hcontrol hlive t, hcause, hmask, haddr, hpc, hhandle.trans ?_⟩
    iterate 5 exact (by rw [← htied]; rfl)
    rw [trapStart_handle]
  · rw [dispatchTrap_cons s q e rest hqueue]
    dsimp only
    rw [handler_updGrp, updHandler_handler, updGrp_grp]
    exact ⟨rfl, rfl, rfl, rfl, rfl, rfl⟩
  · rw [endHandler_interrupted hint, handler_updGrp, updHandler_handler, updGrp_grp]
    exact ⟨rfl, rfl⟩
  · rw [endHandler_last hint, handler_updGrp, updHandler_handler, updGrp_grp]
    exact ⟨rfl, rfl⟩

end Sys2Proof.Machine
end

section
/-! The machine's step, its reset state and words of the encoding tables: a step whose agenda begins with an event is that event's
act, and one whose agenda begins with a group's issue runs the instruction that its line decodes to (R24, R33, R37, R45). -/

namespace Sys2Proof.Machine

open Claim

variable {s u : State} {g p : Nat} {l : Line} {i j : Instr} {t v : State}

/-! ### The step -/

theorem step_event {rest : List Act} (h : s.agenda = .event i :: rest) : step s = exec i { s with agenda := rest } := by
  unfold step stepWith
  rw [h]
  rfl

theorem step_issue {rest : List Act} (h : s.agenda = .issue g :: rest) :
    step s = issueWith exec g { s with agenda := rest } := by
  unfold step stepWith
  rw [h]
  rfl

/-- An issue of one instruction runs it from the state prepared for it. -/
theorem issueWith_one (hfetched : fetched u g p l) (hpair : linePair l ((u.grp g).pc % 5) = false)
    (hissues : issues u g ((u.grp g).pc % 5) l i)
    (hquiet : noFaultNews u g { plane := p, slot := lineSlot l ((u.grp g).pc % 5), instr := i, lane := none })
    (hexec : exec i (prepare u g p (u.grp g).pc (nextOffset (u.grp g) (lineInl l) false)
      (issuesOnce (u.grp g) ((u.grp g).pc % 5) (lineSlot l ((u.grp g).pc % 5)))
      (if issuesOnce (u.grp g) ((u.grp g).pc % 5) (lineSlot l ((u.grp g).pc % 5)) then [(p, lineSlot l ((u.grp g).pc % 5))] else [])
      (parsOf l)) = .next t) :
    issueWith exec g u = .next (if t.cur.out = .done then
      issueDone u g 1 { plane := p, slot := lineSlot l ((u.grp g).pc % 5), instr := i, lane := none }
        (issuesOnce (u.grp g) ((u.grp g).pc % 5) (lineSlot l ((u.grp g).pc % 5))) t else t) := by
  obtain ⟨hdecode, hfree⟩ := hissues
  have hcopies := hfetched
  obtain ⟨-, -, -, hplane, himage⟩ := hcopies
  have hcopy := decodeCopy_one u g _ p l i hplane hpair hdecode
  have hplan := plan_one u g p l _ hplane himage hcopy rfl rfl
  exact issueWith_plan exec u g p l _ _ hfetched hplan rfl rfl hquiet hfree (by simp) t (.inl ⟨_, rfl, hexec⟩)

/-- An issue of a pair runs its uniform member, then its lane member with the group as it stood before the pair in view. -/
theorem issueWith_pair (hfetched : fetched u g p l) (hpair : linePair l ((u.grp g).pc % 5) = true)
    (hissues : issues u g ((u.grp g).pc % 5) l i) (hlane : issues u g ((u.grp g).pc % 5 + 1) l j) :
    let n := (u.grp g).pc % 5
    let pc := (u.grp g).pc
    let w := lineSlot l n
    let m := lineSlot l (n + 1)
    let c : Copied := { plane := p, slot := w, instr := i, lane := some (m, j) }
    let next := nextOffset (u.grp g) (lineInl l) true
    let one := issuesOnce (u.grp g) n w
    let once := issuesOnce (u.grp g) (n + 1) m
    let first := prepare u g p pc next one (if one then [(p, w)] else []) (parsOf l)
    noFaultNews u g c → exec i first = .next t → t.cur.out = .done →
    exec j { t with cur := { (prepare u g p pc next once (if once then [(p, m)] else []) (parsOf l)).cur with
                             view := some (first.grp g), moved := t.cur.moved } } = .next v → v.cur.out = .done →
      issueWith exec g u = .next (issueDone u g 2 c false v) := by
  intro n pc w m c next one once first hquiet hfirst hfirstDone hlast hlastDone
  obtain ⟨hdecode, hfree⟩ := hissues
  obtain ⟨hdecode', hfree'⟩ := hlane
  have hcopies := hfetched
  obtain ⟨-, -, -, hplane, himage⟩ := hcopies
  have hcopy := decodeCopy_pair u g _ p l i j hplane hpair hdecode hdecode'
  have hplan := plan_pair u g p l _ m j hplane himage hcopy rfl rfl
  have hruns := runAll_two exec u g next (parsOf l) { plane := p, instr := i, whole := one, snap := true, copies := if one then [(p, w)] else [] }
    { plane := p, instr := j, whole := once, lane := true, copies := if once then [(p, m)] else [] }
    (prepare u g 0 pc next false [] (parsOf l)) t v rfl rfl rfl rfl hfirst hfirstDone hlast hlastDone
  have hissue := issueWith_plan exec u g p l _ c hfetched hplan rfl rfl hquiet hfree
    (fun q hq => by cases hq; exact hfree') v (.inr ⟨_, _, rfl, hruns⟩)
  rw [if_pos hlastDone] at hissue
  exact hissue

/-- Settles O57: a step runs what its agenda begins with. -/
theorem stepRunsDecoded : Obligations.StepRunsDecoded := by
  unfold Obligations.StepRunsDecoded
  intro s rest u
  refine ⟨fun i h => step_event h, fun g p l hagenda hfetched => ⟨?_, ?_⟩⟩
  · intro i t hpair hissues _ _ hquiet hexec
    rw [step_issue hagenda]
    exact issueWith_one hfetched hpair hissues hquiet hexec
  · intro i j t v hpair hissues hlane
    rw [step_issue hagenda]
    exact issueWith_pair hfetched hpair hissues hlane

/-! ### Reset and the encoding -/

theorem retired_reset (g : Nat) : (State.reset.grp g).retired = 0 := by
  change (if isControl g then controlGroup else {}).retired = 0
  split <;> rfl

theorem clockOf_reset (g : Nat) : clockOf State.reset g = 0 := by
  have hcount : cycleCount State.reset (coreDie (placeCore g)) = 0 := rfl
  unfold clockOf
  rw [hcount, retired_reset, ite_self, Nat.zero_mod]

theorem timeOf_reset (d : Nat) : State.reset.timeOf d ≤ 20 := by
  have htime : State.reset.timeOf d = 0 / 4 + Config.timeSkew d % 21 := rfl
  omega

/-- A register of a die is read alike by every group of it. -/
theorem readCsr_die (s : State) (g : Nat) {csr : Nat} (h : 0x300 ≤ csr) (h' : csr < 0x400) :
    readCsr s g csr = dieCsr s (coreDie (placeCore g)) csr := by
  unfold readCsr
  dsimp only
  split
  case h_5 => exact if_neg (by omega)
  all_goals omega

theorem readCsr_trap (s : State) (g : Nat) {csr : Nat} (h : 0x400 ≤ csr) :
    readCsr s g csr = trapCsr s (quadOf (placeCore g)) csr := by
  unfold readCsr
  dsimp only
  split
  case h_5 => exact if_pos h
  all_goals omega

theorem readCsr_ways (s : State) (g : Nat) :
    readCsr s g 0x100 = (s.core (placeCore g)).ways + carveLines s (placeCore g) * 2 ^ 8 := by
  unfold readCsr
  rfl

theorem readCsr_ways_reset (g : Nat) : readCsr State.reset g 0x100 = 0 := by
  have hways : (State.reset.core (placeCore g)).ways = 0 := rfl
  have hcarve : carveLines State.reset (placeCore g) = 0 := rfl
  rw [readCsr_ways, hways, hcarve, Nat.zero_mul]

/-- The registers of a die after reset (Tables 9-5, 9-6, 12-6, 14-9, 16-7, 16-8, 16-11). -/
theorem dieCsr_reset (d : Nat) : dieCsr State.reset d 0x300 = 2 ∧ dieCsr State.reset d 0x301 = 0
    ∧ dieCsr State.reset d 0x302 = 1 ∧ dieCsr State.reset d 0x303 = 32 ∧ dieCsr State.reset d 0x304 = featOf State.reset
    ∧ dieCsr State.reset d 0x305 = 0 ∧ dieCsr State.reset d 0x306 = 0 := by
  have hdie : State.reset.die d = {} := rfl
  have hpavane : pavaneActive State.reset d = 0 := rfl
  have hclock : State.reset.clock = 0 := rfl
  unfold dieCsr
  simp [hdie, hpavane, hclock]

/-- The trap registers of a control core after reset (Table 16-2). -/
theorem trapCsr_reset (q : Nat) : trapCsr State.reset q 0x400 = 0 ∧ trapCsr State.reset q 0x401 = 0
    ∧ trapCsr State.reset q 0x408 = 0 ∧ trapCsr State.reset q 0x40A = 0 ∧ trapCsr State.reset q 0x40B = 0 := by
  have hhandler : State.reset.handler q = {} := rfl
  unfold trapCsr
  simp [hhandler]

theorem featOf_reset : featOf State.reset % 2 ^ 40 = 0x0001010001 ∧ featOf State.reset / 2 ^ 44 % 2 ^ 4 = 0 := by decide +kernel

/-- The control registers that a group reads after reset. -/
theorem readCsr_reset (g : Nat) : readCsr State.reset g 0x100 = 0 ∧ readCsr State.reset g 0x300 = 2
    ∧ readCsr State.reset g 0x301 = 0 ∧ readCsr State.reset g 0x302 = 1 ∧ readCsr State.reset g 0x303 = 32
    ∧ readCsr State.reset g 0x304 % 2 ^ 40 = 0x0001010001 ∧ readCsr State.reset g 0x304 / 2 ^ 44 % 2 ^ 4 = 0
    ∧ readCsr State.reset g 0x305 = 0 ∧ readCsr State.reset g 0x306 = 0 ∧ readCsr State.reset g 0x400 = 0
    ∧ readCsr State.reset g 0x401 = 0 ∧ readCsr State.reset g 0x408 = 0 ∧ readCsr State.reset g 0x40A = 0
    ∧ readCsr State.reset g 0x40B = 0 := by
  obtain ⟨h300, h301, h302, h303, h304, h305, h306⟩ := dieCsr_reset (coreDie (placeCore g))
  obtain ⟨h400, h401, h408, h40A, h40B⟩ := trapCsr_reset (quadOf (placeCore g))
  have hdie {csr v : Nat} (h : dieCsr State.reset (coreDie (placeCore g)) csr = v) (hlo : 0x300 ≤ csr) (hhi : csr < 0x400) :
      readCsr State.reset g csr = v := (readCsr_die _ g hlo hhi).trans h
  have htrap {csr v : Nat} (h : trapCsr State.reset (quadOf (placeCore g)) csr = v) (hlo : 0x400 ≤ csr) :
      readCsr State.reset g csr = v := (readCsr_trap _ g hlo).trans h
  have hfeat := hdie h304 (by decide) (by decide)
  refine ⟨readCsr_ways_reset g, hdie h300 ?_ ?_, hdie h301 ?_ ?_, hdie h302 ?_ ?_, hdie h303 ?_ ?_, ?_, ?_, hdie h305 ?_ ?_,
    hdie h306 ?_ ?_, htrap h400 ?_, htrap h401 ?_, htrap h408 ?_, htrap h40A ?_, htrap h40B ?_⟩
  case refine_9 => rw [hfeat]; exact featOf_reset.1
  case refine_10 => rw [hfeat]; exact featOf_reset.2
  all_goals decide

/-- Settles O56: the control registers have their reset values. -/
theorem resetState : Obligations.ResetState := by
  unfold Obligations.ResetState
  exact ⟨rfl, rfl, rfl, rfl, rfl, rfl, fun g d => ⟨clockOf_reset g, rfl, timeOf_reset d⟩, readCsr_reset⟩

/-- Settles O60: the words decode as the tables give them. -/
theorem decodedWords : Obligations.DecodedWords := by
  unfold Obligations.DecodedWords
  decide +kernel

end Sys2Proof.Machine
end

section
/-! The canonical forms of memory and of the table of groups, as one property of a state, and what keeps it: for each shape of
the model's code (a state with some fields replaced, a choice, a fold, a meaning of the monad, an outcome) one rule. -/

namespace Sys2Proof.Machine

variable {s t : State}

/-- Memory and the table of groups are in their canonical forms. -/
def Canon (s : State) : Prop := Memory.wf s.mem = true ∧ spSorted 0 s.groups = true

namespace Canon

theorem memWf (h : Canon s) : s.memWf := h.1
theorem sorted (h : Canon s) : spSorted 0 s.groups = true := h.2

/-- What is not memory and not the table of groups does not matter. -/
theorem of_eq (h : Canon s) (hmem : t.mem = s.mem) (hgroups : t.groups = s.groups) : Canon t :=
  ⟨hmem ▸ h.1, hgroups ▸ h.2⟩

theorem of_quiet (h : Canon s) (hquiet : quiet s t) (hmem : t.memWf) : Canon t := ⟨hmem, hquiet.1 ▸ h.2⟩

theorem setGroups {m : List (Nat × Group)} (h : Canon s) (hm : spSorted 0 m = true) :
    Canon { s with groups := m } := ⟨h.1, hm⟩

end Canon

theorem canon_ite {c : Prop} [Decidable c] (hs : Canon s) (ht : Canon t) : Canon (if c then s else t) := by
  split
  · exact hs
  · exact ht

theorem canon_foldl {α : Type} {f : State → α → State} {l : List α} (hf : ∀ s x, Canon s → Canon (f s x)) (h : Canon s) :
    Canon (l.foldl f s) := foldl_keeps Canon f l s hf h

theorem canon_foldlM {ε α : Type} {f : State → α → Except ε State} {l : List α}
    (hf : ∀ s x t, Canon s → f s x = .ok t → Canon t) (h : Canon s) (he : l.foldlM f s = .ok t) : Canon t := by
  induction l generalizing s with
  | nil =>
    cases he
    exact h
  | cons x l ih =>
    rw [List.foldlM_cons] at he
    cases hx : f s x with
    | error e =>
      rw [hx] at he
      cases he
    | ok u =>
      rw [hx] at he
      exact ih (hf s x u h hx) he

theorem canon_bind {o : Option State} {f : State → Option State} (ho : ∀ s, o = some s → Canon s)
    (hf : ∀ s t, Canon s → f s = some t → Canon t) : ∀ t, o.bind f = some t → Canon t := by
  intro t he
  obtain ⟨u, hu, hlast⟩ := Option.bind_eq_some_iff.mp he
  exact hf u t (ho u hu) hlast

theorem canon_foldlOption {α : Type} {f : Option State → α → Option State} {l : List α} {o : Option State}
    (hf : ∀ o x, (∀ s, o = some s → Canon s) → ∀ t, f o x = some t → Canon t) (ho : ∀ s, o = some s → Canon s) :
    ∀ t, l.foldl f o = some t → Canon t :=
  foldl_keeps (fun o => ∀ s, o = some s → Canon s) f l o hf ho

theorem spSorted_filter {α : Type} (p : Nat × α → Bool) (m : List (Nat × α)) (lo : Nat) (h : spSorted lo m = true) :
    spSorted lo (m.filter p) = true := by
  induction m generalizing lo with
  | nil => rfl
  | cons e m ih =>
    obtain ⟨i, v⟩ := e
    simp only [spSorted, Bool.and_eq_true, decide_eq_true_eq] at h
    rw [List.filter_cons]
    split
    · simp only [spSorted, Bool.and_eq_true, decide_eq_true_eq]
      exact ⟨h.1, ih _ h.2⟩
    · exact ih _ (spSorted_mono _ _ _ h.2 (by omega))

/-! ### Meanings and outcomes -/

theorem pair_eta {α β : Type} (p : α × β) : p = (p.1, p.2) := rfl
theorem triple_eta {α β γ : Type} (p : α × β × γ) : p = (p.1, p.2.1, p.2.2) := rfl

/-- A meaning that ends in a next state keeps the canonical forms. -/
def KeepsM {α : Type} (m : M α) : Prop := ∀ s a t, Canon s → m s = .ok (a, t) → Canon t

/-- The next state of an outcome has the canonical forms. -/
def KeepsO (o : Host.Outcome State Fault Refusal) : Prop := ∀ t, o = .next t → Canon t

section

variable {α β : Type}

theorem keeps_pure (a : α) : KeepsM (pure a : M α) := by
  intro s b t h he
  cases he
  exact h

theorem keeps_bind {m : M α} {k : α → M β} (hm : KeepsM m) (hk : ∀ a, KeepsM (k a)) : KeepsM (m >>= k) := by
  intro s b t h he
  obtain ⟨a, u, hfirst, hrest⟩ := bind_inv he
  exact hk a u b t (hm s a u h hfirst) hrest

theorem keeps_get {k : State → M β} (hk : ∀ s, Canon s → KeepsM (k s)) : KeepsM ((get : M State) >>= k) :=
  fun s b t h he => hk s h s b t h he

theorem keeps_set (h : Canon s) : KeepsM (set s : M PUnit) := by
  intro u b t _ he
  cases he
  exact h

theorem keeps_upd {f : State → State} (hf : ∀ s, Canon s → Canon (f s)) : KeepsM (upd f) := by
  intro s b t h he
  cases he
  exact hf s h

theorem keeps_ite {c : Prop} [Decidable c] {m n : M α} (hm : KeepsM m) (hn : KeepsM n) : KeepsM (if c then m else n) := by
  split
  · exact hm
  · exact hn

/-- A meaning that never ends in a next state. -/
theorem trapM_keeps {t : Trap} : KeepsM (trapM t : M α) := fun _ _ _ _ he => nomatch he
theorem stallM_keeps : KeepsM (stallM : M α) := fun _ _ _ _ he => nomatch he
theorem idleM_keeps : KeepsM (idleM : M α) := fun _ _ _ _ he => nomatch he

theorem need_keeps {b : Bool} {t : Trap} : KeepsM (need b t) := keeps_ite (keeps_pure _) trapM_keeps
theorem onlyIf_keeps {b : Bool} : KeepsM (onlyIf b) := keeps_ite (keeps_pure _) idleM_keeps

theorem keepCount_keeps {n : Nat} {m : M Unit} (hm : KeepsM m) : KeepsM (keepCount n m) := by
  intro s a t h he
  unfold keepCount at he
  split at he
  · cases he
  · exact hm s a t h he

theorem keeps_forM {l : List α} {f : α → M PUnit} (hf : ∀ x, KeepsM (f x)) : KeepsM (l.forM f) := by
  induction l with
  | nil => exact keeps_pure _
  | cons x l ih => exact keeps_bind (hf x) fun _ => ih

end

theorem toOption_ok {ε α : Type} {m : Except ε α} {a : α} (h : m.toOption = some a) : m = .ok a := by
  cases m with
  | error e => cases h
  | ok b => exact congrArg Except.ok (Option.some.inj h)

theorem exceptBind_inv {ε α β : Type} {m : Except ε α} {k : α → Except ε β} {b : β} (h : (m >>= k) = .ok b) :
    ∃ a, m = .ok a ∧ k a = .ok b := by
  cases m with
  | error e => cases h
  | ok a => exact ⟨a, rfl, h⟩

theorem next_keeps (h : Canon s) : KeepsO (.next s) := by
  intro t he
  cases he
  exact h

theorem keepsO_ite {c : Prop} [Decidable c] {o p : Host.Outcome State Fault Refusal} (ho : KeepsO o) (hp : KeepsO p) :
    KeepsO (if c then o else p) := by
  split
  · exact ho
  · exact hp

end Sys2Proof.Machine
end

section
/-! What keeps the canonical forms: state, tracks and traps. One lemma for each
operation of the model that gives a state, in the model's order; a lemma follows the branches of its operation. -/

namespace Sys2Proof.Machine

theorem State.setGrp_canon {s : State} {g : Nat} {x : Group} (h : Canon s) : Canon (s.setGrp g x) :=
  h.setGroups (spSorted_spPut _ 0 g x h.sorted (Nat.zero_le _))

theorem State.updGrp_canon {s : State} {g : Nat} {f : Group → Group} (h : Canon s) : Canon (s.updGrp g f) :=
  State.setGrp_canon h

theorem State.setBlk_canon {s : State} {b : Nat} {x : Block} (h : Canon s) : Canon (s.setBlk b x) := h.of_eq rfl rfl

theorem State.updBlk_canon {s : State} {b : Nat} {f : Block → Block} (h : Canon s) : Canon (s.updBlk b f) :=
  State.setBlk_canon h

theorem State.updLch_canon {s : State} {l : Nat} {f : Launch → Launch} (h : Canon s) : Canon (s.updLch l f) :=
  h.of_eq rfl rfl

theorem State.updDie_canon {s : State} {d : Nat} {f : Die → Die} (h : Canon s) : Canon (s.updDie d f) := h.of_eq rfl rfl

theorem State.updCore_canon {s : State} {c : Nat} {f : Core → Core} (h : Canon s) : Canon (s.updCore c f) := h.of_eq rfl rfl

theorem State.updHandler_canon {s : State} {q : Nat} {f : Handler → Handler} (h : Canon s) : Canon (s.updHandler q f) :=
  h.of_eq rfl rfl

theorem State.updMe_canon {s : State} {f : Group → Group} (h : Canon s) : Canon (s.updMe f) := State.updGrp_canon h

theorem State.fresh_canon {s t : State} {n : Nat} (h : Canon s) (he : s.fresh = (n, t)) : Canon t := by
  cases he
  exact h.of_eq rfl rfl

theorem flushWelts_canon {s : State} {pa n : Nat} (h : Canon s) : Canon (flushWelts s pa n) :=
  h.of_quiet (quiet_flushWelts s pa n) (flushWelts_memWf s pa n h.memWf)

theorem homeWrite_canon {s : State} {pa : Nat} {bs : List Byte} (h : Canon s) : Canon (homeWrite s pa bs) :=
  h.of_quiet (quiet_homeWrite s pa bs) (homeWrite_memWf s pa bs h.memWf)

theorem homeWriteBy_canon {s : State} {ck pa : Nat} {bs : List Byte} (h : Canon s) : Canon (homeWriteBy s ck pa bs) :=
  canon_ite (homeWrite_canon h) ((homeWrite_canon h).of_eq rfl rfl)

theorem homeWriteNat_canon {s : State} {pa n x : Nat} (h : Canon s) : Canon (homeWriteNat s pa n x) := homeWrite_canon h

theorem tlbPut_canon {s : State} {x : TlbEntry} (h : Canon s) : Canon (tlbPut s x) := h.of_eq rfl rfl

theorem tlbFill_canon {s : State} {tlb c va : Nat} (h : Canon s) : Canon (tlbFill s tlb c va) := by
  unfold tlbFill
  extract_lets -underBinder put
  have hput : ∀ x x1, Canon (put x x1) := fun _ _ => canon_ite h (tlbPut_canon h)
  split
  · exact hput _ _
  · extract_lets -underBinder rs
    split
    · exact hput _ _
    · split
      · exact hput _ _
      · exact h

theorem tlbInval_canon {s : State} {c va n : Nat} (h : Canon s) : Canon (tlbInval s c va n) := h.of_eq rfl rfl

theorem latchRegions_canon {s : State} {c l : Nat} (h : Canon s) : Canon (latchRegions s c l) := h.of_eq rfl rfl

theorem takeTrack_canon {s : State} {core half t g : Nat} {swap : Bool} (h : Canon s) :
    Canon (takeTrack s core half t g swap) := by
  refine h.setGroups ?_
  rw [spSorted_map]
  · exact h.sorted
  · intro e
    split
    · rfl
    · split <;> rfl

theorem fillTracks_canon {s : State} {core half k : Nat} (h : Canon s) : Canon (fillTracks s core half k) := by
  induction k generalizing s with
  | zero => exact h
  | succ k ih =>
    unfold fillTracks
    split
    · exact ih (takeTrack_canon h)
    · exact h

theorem fillCore_canon {s : State} {core : Nat} (h : Canon s) : Canon (fillCore s core) :=
  fillTracks_canon (fillTracks_canon h)

theorem leaveTrack_canon {s : State} {g : Nat} (h : Canon s) : Canon (leaveTrack s g) :=
  canon_ite (State.updGrp_canon h) (canon_ite h (fillCore_canon (State.updGrp_canon h)))

theorem blockOn_canon {s : State} {g : Nat} {w : Wait} (h : Canon s) : Canon (blockOn s g w) :=
  leaveTrack_canon (State.updGrp_canon h)

theorem makeReady_canon {s : State} {g : Nat} (h : Canon s) : Canon (makeReady s g) := fillCore_canon (State.updGrp_canon h)

theorem sendOn_canon {s : State} {sid kind flags : Nat} {payload : List Byte} (h : Canon s) :
    Canon (sendOn s sid kind flags payload) := by
  unfold sendOn
  split
  · exact h
  · exact h.of_eq rfl rfl

theorem sendEvent_canon {s : State} {e : EventRec} (h : Canon s) : Canon (sendEvent s e) :=
  canon_ite (State.updDie_canon h) (canon_foldl (fun _ _ hs1 => sendOn_canon hs1) h)

theorem queueTrap_canon {s : State} {quad : Nat} {g : Option Nat} {r : TrapRegs} (h : Canon s) :
    Canon (queueTrap s quad g r) :=
  State.updHandler_canon h

theorem machineCheck_canon {s : State} {d : Nat} (h : Canon s) : Canon (machineCheck s d) := by
  unfold machineCheck
  refine canon_ite h ?_
  extract_lets -underBinder s1 s2 s3 regs
  have hs1 : Canon s1 := State.updDie_canon h
  have hs2 : Canon s2 := canon_foldl (fun _ _ hs4 => State.updGrp_canon hs4) hs1
  have hs3 : Canon s3 := canon_foldl (fun _ _ hs4 => State.updGrp_canon (State.updHandler_canon hs4)) hs2
  exact hs3.of_eq rfl rfl

theorem haltGroup_canon {s : State} {g : Nat} (h : Canon s) : Canon (haltGroup s g) :=
  canon_ite (State.updGrp_canon (State.updGrp_canon h)) (fillCore_canon (State.updGrp_canon (State.updGrp_canon h)))

theorem raiseAt_canon {s : State} {g off : Nat} {t : Trap} (h : Canon s) : Canon (raiseAt s g off t) := by
  unfold raiseAt
  refine canon_ite (machineCheck_canon h) ?_
  extract_lets -underBinder x bit s1 s2 s3 s4
  have hs1 : Canon s1 := queueTrap_canon h
  have hs2 : Canon s2 := State.updGrp_canon hs1
  have hs3 : Canon s3 := by
    unfold s3
    split
    · exact hs2.of_eq rfl rfl
    · exact hs2
  have hs4 : Canon s4 := canon_ite hs3 (hs3.of_eq rfl rfl)
  exact canon_ite (State.updGrp_canon h) (leaveTrack_canon hs4)

theorem countCorrected_canon {s : State} {d n : Nat} (h : Canon s) : Canon (countCorrected s d n) :=
  canon_ite h (State.updDie_canon h)

theorem takeTrap_canon {s : State} {t : Trap} (h : Canon s) : Canon (takeTrap s t) :=
  (raiseAt_canon (State.updGrp_canon (countCorrected_canon h))).of_eq rfl rfl

theorem stalled_canon {s : State} (h : Canon s) : Canon (stalled s) := by
  have hpc : Canon (s.updMe fun x => { x with pc := s.cur.off }) := State.updMe_canon h
  exact hpc.of_eq rfl rfl

theorem finish_keeps {m : M Unit} {s : State} (hm : KeepsM m) (h : Canon s) : KeepsO (finish m s) := by
  unfold finish
  split
  next t ht => exact next_keeps (hm s _ t h ht)
  next t _ => exact next_keeps (takeTrap_canon h)
  · exact next_keeps (stalled_canon h)
  · exact next_keeps h

theorem dispatchTrap_canon {s : State} {quad : Nat} (h : Canon s) : Canon (dispatchTrap s quad) := by
  unfold dispatchTrap
  extract_lets -underBinder h1
  split
  · exact h
  · exact State.updGrp_canon (State.updHandler_canon h)

theorem endHandler_canon {s : State} {quad : Nat} (h : Canon s) : Canon (endHandler s quad) := by
  unfold endHandler
  extract_lets -underBinder h1
  split <;> exact State.updGrp_canon (State.updHandler_canon h)

theorem checkStale_keeps {u : Bool} {fs : List FieldUse} {ts : List Nat} : KeepsM (checkStale u fs ts) :=
  keeps_get fun _ _ => need_keeps

theorem checkPoison_keeps {u : Bool} {fs : List FieldUse} {ts : List Nat} : KeepsM (checkPoison u fs ts) :=
  keeps_get fun _ _ => need_keeps

theorem checkSources_keeps {u : Bool} {fs : List FieldUse} {ts : List Nat} : KeepsM (checkSources u fs ts) :=
  keeps_bind checkStale_keeps fun _ => checkPoison_keeps

theorem writeAll_canon {o : Nat → FmtA} {rs : List (Nat × Res)} {s : State} (h : Canon s) : Canon (writeAll o rs s) :=
  State.updMe_canon h

theorem putAll_keeps {u : Bool} {o : Nat → FmtA} {rs : List (Nat × Res)} : KeepsM (putAll u o rs) :=
  keeps_get fun _ _ => keeps_bind need_keeps fun _ => keeps_upd (fun _ hs1 => writeAll_canon hs1)

theorem runA_keeps {op : Nat} {o : FmtA} {f : State → Nat → Res} : KeepsM (runA op o f) :=
  keeps_get fun _ _ => keeps_bind checkSources_keeps fun _ => putAll_keeps

theorem checkTarget_keeps {u : Bool} {line : Int} {slot : Nat} : KeepsM (checkTarget u line slot) := by
  unfold checkTarget
  refine keeps_get fun _ hs => ?_
  extract_lets -underBinder g x off
  refine keeps_ite trapM_keeps ?_
  split
  · exact trapM_keeps
  · exact keeps_bind (keeps_set (countCorrected_canon hs)) fun _ => keeps_pure _

end Sys2Proof.Machine
end

section
/-! What keeps the canonical forms: memory operations, loads and stores. One lemma for each
operation of the model that gives a state, in the model's order; a lemma follows the branches of its operation. -/

namespace Sys2Proof.Machine

theorem awaitAcks_canon {s : State} {ck line : Nat} {ds : List Nat} (h : Canon s) : Canon (awaitAcks s ck line ds) :=
  h.of_quiet (quiet_awaitAcks s ck line ds) (awaitAcks_memWf s ck line ds h.memWf)

theorem commitLine_canon {r : Reach} {s : State} {ck line : Nat} {mask : BitVec 128} {data : BitVec 1024} (h : Canon s) :
    Canon (commitLine r s ck line mask data) :=
  h.of_quiet (quiet_commitLine r s ck line mask data) (commitLine_memWf r s ck line mask data h.memWf)

theorem spoil_canon {bad : Bool} {s : State} {line : Nat} (h : Canon s) : Canon (spoil bad s line) := h.of_eq rfl rfl

theorem performTo_canon {r : Reach} {s : State} {k : Nat} (h : Canon s) : Canon (performTo r s k) :=
  h.of_quiet (quiet_performTo r s k) (performTo_memWf r s k h.memWf)

theorem performAll_canon {r : Reach} {s : State} {p : PostedWrite → Bool} (h : Canon s) : Canon (performAll r s p) :=
  h.of_quiet (quiet_performAll r s p) (performAll_memWf r s p h.memWf)

theorem performWhere_canon {s : State} {p : PostedWrite → Bool} (h : Canon s) : Canon (performWhere s p) :=
  h.of_quiet (quiet_performWhere s p) (performWhere_memWf s p h.memWf)

theorem settleLine_canon {s : State} {line : Nat} (h : Canon s) : Canon (settleLine s line) :=
  h.of_quiet (quiet_settleLine s line) (settleLine_memWf s line h.memWf)

theorem postWrite_canon {s : State} {ck line : Nat} {mask : BitVec 128} {data : BitVec 1024} {bad : Bool} (h : Canon s) :
    Canon (postWrite s ck line mask data bad) := h.of_eq rfl rfl

theorem l1Put_canon {s : State} {ck line : Nat} {x : L1Line} (h : Canon s) : Canon (l1Put s ck line x) :=
  State.updCore_canon h

theorem l1Drop_canon {s : State} {ck line : Nat} (h : Canon s) : Canon (l1Drop s ck line) := State.updCore_canon h

theorem writeBackTo_canon {r : Reach} {s : State} {ck line : Nat} (h : Canon s) : Canon (writeBackTo r s ck line) :=
  h.of_quiet (quiet_writeBackTo r s ck line) (writeBackTo_memWf r s ck line h.memWf)

theorem evictLine_canon {s : State} {ck line : Nat} (h : Canon s) : Canon (evictLine s ck line) :=
  h.of_quiet (quiet_evictLine s ck line) (evictLine_memWf s ck line h.memWf)

theorem evictFree_canon {s : State} {ck line : Nat} (h : Canon s) : Canon (evictFree s ck line) :=
  canon_ite (evictLine_canon h) h

theorem l1Room_canon {s : State} {ck line : Nat} {t : State} {n : Nat} (h : Canon s) (he : l1Room s ck line = (t, n)) :
    Canon t := by
  unfold l1Room at he
  extract_lets -underBinder ls at he
  split at he
  · cases he
    exact h
  · extract_lets -underBinder r at he
    have hr : Canon r.2 := State.fresh_canon h (pair_eta _)
    split at he
    · exact (Prod.mk.inj he).1 ▸ (evictLine_canon hr)
    · exact (Prod.mk.inj he).1 ▸ hr

theorem l1Alloc_canon {s : State} {ck line : Nat} {f : L1Line → L1Line} (h : Canon s) : Canon (l1Alloc s ck line f) := by
  unfold l1Alloc
  split
  · exact l1Put_canon h
  · exact l1Put_canon (l1Room_canon h (pair_eta _))

theorem flushLine_canon {s : State} {ck line : Nat} (h : Canon s) : Canon (flushLine s ck line) :=
  h.of_quiet (quiet_flushLine s ck line) (flushLine_memWf s ck line h.memWf)

theorem writeBackAll_canon {s : State} {ck : Nat} (h : Canon s) : Canon (writeBackAll s ck) :=
  h.of_quiet (quiet_writeBackAll s ck) (writeBackAll_memWf s ck h.memWf)

theorem invalidateClean_canon {s : State} {ck : Nat} (h : Canon s) : Canon (invalidateClean s ck) := State.updCore_canon h

theorem weltRoom_canon {s t : State} {slice : Nat} (h : Canon s) (he : weltRoom s slice = some t) : Canon t :=
  h.of_quiet (quiet_weltRoom s t slice he) (weltRoom_memWf s t slice h.memWf he)

theorem weltFetch_canon {s : State} {pa : Nat} (h : Canon s) : Canon (weltFetch s pa) :=
  h.of_quiet (quiet_weltFetch s pa) (weltFetch_memWf s pa h.memWf)

theorem loadBytes_canon {s t : State} {ck pa n hint : Nat} {x : List Byte} {b : Bool} (h : Canon s)
    (he : loadBytes s ck pa n hint = (x, b, t)) : Canon t := by
  have hlast := h.of_quiet (quiet_loadBytes s ck pa n hint) (loadBytes_memWf s ck pa n hint h.memWf)
  rwa [he] at hlast

theorem storeL1_canon {s : State} {ck pa : Nat} {bs : List Byte} {hint : Nat} (h : Canon s) :
    Canon (storeL1 s ck pa bs hint) :=
  l1Alloc_canon h

theorem storeNoL1_canon {s : State} {ck pa : Nat} {bs : List Byte} (h : Canon s) : Canon (storeNoL1 s ck pa bs) := by
  unfold storeNoL1
  extract_lets -underBinder m d s1
  have hs1 : Canon s1 := by
    unfold s1
    split
    · exact l1Put_canon h
    · exact h
  exact postWrite_canon hs1

theorem storeWs_canon {s : State} {ck pa : Nat} {bs : List Byte} (h : Canon s) : Canon (storeWs s ck pa bs) := by
  unfold storeWs
  extract_lets -underBinder m s1
  have hs1 : Canon s1 := by
    unfold s1
    split
    · exact l1Put_canon h
    · exact h
  exact homeWrite_canon hs1

theorem raiseCopyWait_keeps {k : Nat} : KeepsM (raiseCopyWait k) := by
  unfold raiseCopyWait
  refine keeps_get fun _ _ => ?_
  split
  · exact trapM_keeps
  · exact keeps_pure _

theorem waitHere_canon {w : Wait} {s : State} (h : Canon s) : Canon (waitHere w s) :=
  (blockOn_canon (State.updMe_canon h)).of_eq rfl rfl

theorem blockHere_keeps {w : Wait} : KeepsM (blockHere w) := keeps_upd (fun _ hs => waitHere_canon hs)

theorem sampleLoad_canon {s : State} {k : Nat} {q : Part → Bool} (h : Canon s) : Canon (sampleLoad s k q) :=
  h.of_quiet (quiet_sampleLoad s k q) (sampleLoad_memWf s k q h.memWf)

theorem sampleOwn_canon {s : State} {g pa n : Nat} (h : Canon s) : Canon (sampleOwn s g pa n) :=
  h.of_quiet (quiet_sampleOwn s g pa n) (sampleOwn_memWf s g pa n h.memWf)

theorem sampleAllOwn_canon {s : State} {g : Nat} (h : Canon s) : Canon (sampleAllOwn s g) :=
  h.of_quiet (quiet_sampleAllOwn s g) (sampleAllOwn_memWf s g h.memWf)

theorem doRelease_canon {s : State} {g scope : Nat} (h : Canon s) : Canon (doRelease s g scope) :=
  h.of_quiet (quiet_doRelease s g scope) (doRelease_memWf s g scope h.memWf)

theorem doAcquire_canon {s : State} {g scope : Nat} (h : Canon s) : Canon (doAcquire s g scope) :=
  h.of_quiet (quiet_doAcquire s g scope) (doAcquire_memWf s g scope h.memWf)

theorem needReads_keeps : KeepsM needReads := keeps_get fun _ _ => keeps_ite stallM_keeps (keeps_pure _)

theorem weltBudget_keeps : KeepsM weltBudget := by
  unfold weltBudget
  refine keeps_get fun _ _ => ?_
  split
  · exact trapM_keeps
  · exact keeps_pure _

theorem beforeRelease_keeps : KeepsM beforeRelease := keeps_bind weltBudget_keeps fun _ => needReads_keeps

theorem checkAccess_keeps {o : FmtM} {eas : List (Nat × Int)} {n al : Nat} {nd : Need} : KeepsM (checkAccess o eas n al nd) := by
  unfold checkAccess
  refine keeps_get fun _ _ => ?_
  extract_lets -underBinder u out
  refine keeps_bind need_keeps fun _ => ?_
  extract_lets -underBinder mis
  refine keeps_bind need_keeps fun _ => ?_
  exact keeps_bind need_keeps fun _ => keeps_bind need_keeps fun _ => keeps_ite (keeps_pure _) (keeps_pure _)

theorem deferAccess_keeps {i : Instr} {t : Trap} {parts : List Part} : KeepsM (deferAccess i t parts) := by
  unfold deferAccess
  refine keeps_get fun _ _ => ?_
  exact keeps_ite trapM_keeps (keeps_ite blockHere_keeps (keeps_upd (fun _ hs1 => queueTrap_canon (hs1.of_eq rfl rfl))))

theorem completeLoad_canon {s : State} {k : Nat} (h : Canon s) : Canon (completeLoad s k) := by
  unfold completeLoad
  split
  · exact h
  · extract_lets -underBinder s1 l1 s2 latch s3 bad m ea
    have hs1 : Canon s1 := sampleLoad_canon h
    have hs2 : Canon s2 := hs1.of_eq rfl rfl
    have hs3 : Canon s3 := State.updGrp_canon hs2
    exact canon_ite hs2 (canon_ite hs3 (raiseAt_canon hs3))

theorem wakeLine_canon {s : State} {b line : Nat} (h : Canon s) : Canon (wakeLine s b line) :=
  canon_foldl (fun _ _ hs1 => makeReady_canon hs1) h

theorem setFull_canon {s : State} {b line : Nat} (h : Canon s) : Canon (setFull s b line) :=
  wakeLine_canon (State.updBlk_canon h)

theorem setEmpty_canon {s : State} {b line : Nat} (h : Canon s) : Canon (setEmpty s b line) := State.updBlk_canon h

theorem waitFull_keeps {line : Nat} : KeepsM (waitFull line) := by
  unfold waitFull
  refine keeps_get fun _ _ => ?_
  extract_lets -underBinder b
  split
  · exact keeps_pure _
  next x _ _ =>
    extract_lets -underBinder rest
    have hrest : ∀ x, KeepsM (rest x) := fun _ => keeps_ite blockHere_keeps (keeps_upd (fun _ hs1 => stalled_canon hs1))
    refine keeps_ite (keeps_bind raiseCopyWait_keeps fun _ => hrest ()) ?_
    split
    · exact keeps_bind trapM_keeps fun _ => hrest ()
    · exact hrest ()

theorem holdAt_canon {got : List Got} {s : State} (h : Canon s) : Canon (holdAt got s) := State.updMe_canon h

theorem holdNone_canon {s : State} (h : Canon s) : Canon (holdNone s) := State.updMe_canon h

theorem runM_keeps {i : Instr} {o : FmtM} {indexed : Bool} {data : List FieldUse} {n al : Nat} {nd : Need}
    {extra : List Place → M Unit}
    {mk : State → Nat → Nat × Nat} {body : List (Place × Part) → M Unit} (hextra : ∀ x, KeepsM (extra x))
    (hbody : ∀ x, KeepsM (body x)) : KeepsM (runM i o indexed data n al nd extra mk body) := by
  unfold runM
  refine keeps_get fun _ _ => ?_
  extract_lets -underBinder ts us
  refine keeps_bind checkStale_keeps fun _ => ?_
  extract_lets -underBinder eas part
  refine keeps_bind checkAccess_keeps fun _ => ?_
  split
  · exact deferAccess_keeps
  · exact keeps_bind (hextra _) fun _ => keeps_bind checkPoison_keeps fun _ => hbody _

theorem noExtra_keepsM {a : List Place} : KeepsM (noExtra a) := keeps_pure _

theorem startLoad_canon {o : FmtM} {isWide : Bool} {n : Nat} {ps : List (Place × Part)} {s : State} (h : Canon s) :
    Canon (startLoad o isWide n ps s) := by
  unfold startLoad
  extract_lets -underBinder g s1 k l s2
  have hs1 : Canon s1 := canon_ite h (canon_foldl (fun _ _ hs3 => sampleOwn_canon hs3) h)
  have hs2 : Canon s2 := holdNone_canon (hs1.of_eq rfl rfl)
  exact canon_ite (doAcquire_canon (sampleLoad_canon (sampleAllOwn_canon hs2))) (canon_ite (sampleLoad_canon hs2) hs2)

theorem loadBanks_keeps {o : FmtM} {ps : List (Place × Part)} : KeepsM (loadBanks o ps) := by
  unfold loadBanks
  refine keeps_get fun _ _ => ?_
  exact keeps_ite (keeps_bind needReads_keeps fun _ => keeps_ite stallM_keeps (keeps_pure _)) (keeps_ite stallM_keeps
    (keeps_pure _))

theorem loadBody_keeps {o : FmtM} {isWide : Bool} {n : Nat} {ps : List (Place × Part)} : KeepsM (loadBody o isWide n ps) := by
  unfold loadBody
  refine keeps_get fun _ _ => ?_
  extract_lets -underBinder r
  split
  · exact keeps_bind (keeps_upd (fun _ hs1 => holdAt_canon hs1)) fun _ => waitFull_keeps
  · exact keeps_ite (keeps_pure _) (keeps_bind loadBanks_keeps fun _ => keeps_upd (fun _ hs1 => startLoad_canon hs1))

theorem ldCore_keeps {o : FmtM} : KeepsM (ldCore o) := runM_keeps (fun _ => noExtra_keepsM) (fun _ => loadBody_keeps)

theorem storeAt_canon {o : FmtM} {n : Nat} {s : State} {p : Place × Part} (h : Canon s) : Canon (storeAt o n s p) := by
  unfold storeAt
  extract_lets -underBinder g ck bs
  split
  · exact canon_ite (storeNoL1_canon (sampleOwn_canon h)) (storeL1_canon (sampleOwn_canon h))
  · exact State.updBlk_canon h
  · exact storeWs_canon (sampleOwn_canon h)

theorem storeAll_canon {o : FmtM} {n : Nat} {ps : List (Place × Part)} {s : State} (h : Canon s) :
    Canon (storeAll o n ps s) := by
  unfold storeAll
  extract_lets -underBinder g rel s1 s2
  have hs1 : Canon s1 := canon_ite (doRelease_canon h) h
  have hs2 : Canon s2 := canon_foldl (fun _ _ hs3 => storeAt_canon hs3) hs1
  exact canon_ite (doRelease_canon hs2) hs2

theorem storeBody_keeps {o : FmtM} {n : Nat} {ps : List (Place × Part)} : KeepsM (storeBody o n ps) := by
  unfold storeBody
  refine keeps_get fun _ _ => ?_
  refine keeps_ite blockHere_keeps ?_
  extract_lets -underBinder rest
  have hrest : ∀ x, KeepsM (rest x) := fun x => by
    unfold rest
    extract_lets -underBinder rest1
    have hrest1 : ∀ x, KeepsM (rest1 x) := fun _ => keeps_upd (fun _ hs1 => storeAll_canon hs1)
    exact keeps_ite (keeps_bind needReads_keeps fun _ => hrest1 ()) (hrest1 ())
  exact keeps_ite (keeps_bind weltBudget_keeps fun _ => hrest ()) (hrest ())

theorem wsCheck_keepsM {o : FmtM} {ps : List Place} : KeepsM (wsCheck o ps) := keeps_get fun _ _ => need_keeps

theorem stCore_keeps {o : FmtM} : KeepsM (stCore o) := runM_keeps (fun _ => wsCheck_keepsM) (fun _ => storeBody_keeps)

theorem ldwCore_keeps {o : FmtM} : KeepsM (ldwCore o) := runM_keeps (fun _ => noExtra_keepsM) (fun _ => loadBody_keeps)

theorem prefetchLine_canon {o : FmtM} {s : State} {t : Nat} (h : Canon s) : Canon (prefetchLine o s t) := by
  unfold prefetchLine
  extract_lets -underBinder ck ea r
  have hr : Canon r.2 := State.fresh_canon h (pair_eta _)
  refine canon_ite hr ?_
  split
  · exact hr
  · exact canon_ite hr (loadBytes_canon hr (triple_eta _))

theorem prefetch_canon {o : FmtM} {s : State} (h : Canon s) : Canon (prefetch o s) :=
  canon_foldl (fun _ _ hs1 => prefetchLine_canon hs1) h

theorem setWays_canon {s : State} {ck m : Nat} (h : Canon s) : Canon (setWays s ck m) :=
  State.updCore_canon (canon_foldl (fun _ _ hs1 => l1Drop_canon (writeBackTo_canon hs1)) h)

theorem resizeTo_canon {o : FmtM} {m : Int} {s : State} (h : Canon s) : Canon (resizeTo o m s) :=
  State.updMe_canon (canon_ite (setWays_canon h) h)

theorem cresizeCore_keeps {o : FmtM} : KeepsM (cresizeCore o) := by
  unfold cresizeCore
  refine keeps_get fun _ _ => ?_
  exact keeps_ite (keeps_pure _) (keeps_bind checkSources_keeps fun _ => keeps_upd (fun _ hs1 => resizeTo_canon hs1))

theorem flushLines_canon {drop : Bool} {ls : List Nat} {s : State} (h : Canon s) : Canon (flushLines drop ls s) := by
  unfold flushLines
  extract_lets -underBinder ck s1
  have hs1 : Canon s1 := canon_foldl (fun _ _ hs2 => performAll_canon hs2) h
  exact canon_foldl (fun _ _ hs2 => canon_ite (l1Drop_canon (writeBackTo_canon hs2)) (writeBackTo_canon hs2)) hs1

theorem flushCore_keeps {o : FmtM} {drop : Bool} : KeepsM (flushCore o drop) := by
  unfold flushCore
  refine keeps_get fun _ _ => ?_
  exact keeps_ite (keeps_pure _) (keeps_bind checkSources_keeps fun _ => keeps_upd (fun _ hs1 => flushLines_canon hs1))

theorem markLines_canon {full : Bool} {b ea n : Nat} {s : State} (h : Canon s) : Canon (markLines full b ea n s) :=
  canon_foldl (fun _ _ hs1 => canon_ite (setFull_canon hs1) (setEmpty_canon hs1)) h

theorem femarkCore_keeps {o : FmtM} : KeepsM (femarkCore o) := by
  unfold femarkCore
  refine keeps_get fun _ _ => ?_
  refine keeps_ite (keeps_pure _) ?_
  refine keeps_bind checkStale_keeps fun _ => ?_
  extract_lets -underBinder n ea b
  refine keeps_bind need_keeps fun _ => ?_
  refine keeps_bind need_keeps fun _ => ?_
  exact keeps_bind checkPoison_keeps fun _ => keeps_upd (fun _ hs1 => markLines_canon hs1)

theorem putTest_canon {o : FmtM} {vs : List (Nat × Bool)} {s : State} (h : Canon s) : Canon (putTest o vs s) :=
  State.updMe_canon h

theorem fetestCore_keeps {o : FmtM} : KeepsM (fetestCore o) := by
  unfold fetestCore
  refine keeps_get fun _ _ => ?_
  extract_lets -underBinder ts
  refine keeps_bind checkStale_keeps fun _ => ?_
  extract_lets -underBinder b n eas bad
  refine keeps_bind need_keeps fun _ => ?_
  exact keeps_bind checkPoison_keeps fun _ => keeps_upd (fun _ hs1 => putTest_canon hs1)

theorem execLoadDataArrival_keeps {load : Nat} {s : State} (h : Canon s) : KeepsO (execLoadDataArrival load s) := by
  unfold execLoadDataArrival
  split
  · exact next_keeps h
  · exact keepsO_ite (next_keeps h) (next_keeps (completeLoad_canon h))

theorem execWritePerformed_keeps {write : Nat} {s : State} (h : Canon s) : KeepsO (execWritePerformed write s) := by
  unfold execWritePerformed
  split
  · exact next_keeps h
  · extract_lets -underBinder first
    exact keepsO_ite (next_keeps h) (keepsO_ite (next_keeps (performTo_canon (State.fresh_canon h (pair_eta _))))
      (next_keeps (performTo_canon h)))

end Sys2Proof.Machine
end

section
/-! What keeps the canonical forms: atomics and protection domains. One lemma for each
operation of the model that gives a state, in the model's order; a lemma follows the branches of its operation. -/

namespace Sys2Proof.Machine

theorem atHome_canon {s : State} {pa n : Nat} (h : Canon s) : Canon (atHome s pa n) :=
  h.of_quiet (quiet_atHome s pa n) (atHome_memWf s pa n h.memWf)

theorem homeWriteMe_canon {s : State} {pa n v : Nat} (h : Canon s) : Canon (homeWriteMe s pa n v) := homeWriteBy_canon h

theorem atomicAt_canon {o : FmtM} {f : Part → Nat → Option Nat} {acc : State × List Got} {p : Place × Part} {t : State}
    {l : List Got}
    (h : Canon acc.1) (he : atomicAt o f acc p = (t, l)) : Canon t := by
  unfold atomicAt at he
  extract_lets -underBinder n s b old s1 s2 s3 old1 s4 at he
  have hs : Canon s := h
  have hs1 : Canon s1 := by
    unfold s1
    split
    · exact State.updBlk_canon hs
    · exact hs
  have hs2 : Canon s2 := atHome_canon hs
  have hs3 : Canon s3 := flushWelts_canon hs2
  have hs4 : Canon s4 := by
    unfold s4
    split
    · exact homeWriteMe_canon hs3
    · exact hs3
  split at he
  · split at he
    · exact (Prod.mk.inj he).1 ▸ hs
    · exact (Prod.mk.inj he).1 ▸ hs1
  · split at he
    · refine (Prod.mk.inj he).1 ▸ ?_
      split
      · exact canon_ite hs2 (homeWriteNat_canon hs2)
      · exact hs2
    · exact (Prod.mk.inj he).1 ▸ hs4

theorem putGot_canon {o : FmtM} {ty : Nat} {ps : List (Place × Part)} {rs : List Got} {s : State} (h : Canon s) :
    Canon (putGot o ty ps rs s) := canon_ite (State.updMe_canon h) (raiseAt_canon (State.updMe_canon h))

theorem around_canon {o : FmtM} {f : State → State} {s : State} (hf : ∀ s, Canon s → Canon (f s)) (h : Canon s) :
    Canon (around o f s) := by
  unfold around
  extract_lets -underBinder g s1 s2
  have hs1 : Canon s1 := canon_ite (doRelease_canon h) h
  have hs2 : Canon s2 := hf _ hs1
  exact canon_ite (doAcquire_canon (sampleAllOwn_canon hs2)) hs2

theorem ordered_keeps {o : FmtM} {ps : List (Place × Part)} {prom : Bool} {f : State → State}
    (hf : ∀ s, Canon s → Canon (f s)) : KeepsM (ordered o ps prom f) := by
  unfold ordered
  refine keeps_get fun _ _ => ?_
  split
  · exact waitFull_keeps
  · refine keeps_ite blockHere_keeps ?_
    refine keeps_ite (keeps_pure _) ?_
    extract_lets -underBinder rest
    have hrest : ∀ x, KeepsM (rest x) := fun x => by
      unfold rest
      extract_lets -underBinder rest1
      have hrest1 : ∀ x, KeepsM (rest1 x) := fun _ => keeps_upd (fun _ hs1 => around_canon (fun _ ha => hf _ ha) hs1)
      exact keeps_ite (keeps_bind needReads_keeps fun _ => hrest1 ()) (hrest1 ())
    exact keeps_ite (keeps_bind weltBudget_keeps fun _ => hrest ()) (hrest ())

theorem atomAll_canon {o : FmtM} {f : Part → Nat → Option Nat} {ps : List (Place × Part)} {s : State} (h : Canon s) :
    Canon (atomAll o f ps s) := by
  unfold atomAll
  extract_lets -underBinder r
  have hr : Canon r.1 :=
    foldl_keeps (fun p : State × List Got => Canon p.1) _ _ _ (fun _ _ hacc => atomicAt_canon hacc (pair_eta _)) h
  exact putGot_canon (holdNone_canon hr)

theorem atomBody_keeps {o : FmtM} {f : Part → Nat → Option Nat} {ps : List (Place × Part)} : KeepsM (atomBody o f ps) := by
  unfold atomBody
  refine keeps_get fun _ _ => ?_
  extract_lets -underBinder r
  split
  · refine keeps_bind ?_ fun _ => ?_
    · refine keeps_upd (fun _ hs1 => ?_)
      extract_lets -underBinder a
      have ha : Canon a.1 :=
        foldl_keeps (fun p : State × List Got => Canon p.1) _ _ _ (fun _ _ hacc => atomicAt_canon hacc (pair_eta _))
        (canon_ite (doRelease_canon hs1) hs1)
      exact holdAt_canon ha
    · exact waitFull_keeps
  · exact ordered_keeps (fun _ hs1 => atomAll_canon hs1)

theorem atomCore_keeps {o : FmtM} : KeepsM (atomCore o) := runM_keeps (fun _ => noExtra_keepsM) (fun _ => atomBody_keeps)

theorem casCore_keeps {o : FmtM} : KeepsM (casCore o) := runM_keeps (fun _ => noExtra_keepsM) (fun _ => atomBody_keeps)

theorem takeTicket_canon {scope : Nat} {s : State} {p : Place × Part} (h : Canon s) : Canon (takeTicket scope s p) :=
  canon_ite (State.updDie_canon h) (State.updDie_canon h)

theorem atomscOne_canon {o : FmtM} {acc : State × List Got} {p : Place × Part} {t : State} {l : List Got}
    (h : Canon acc.1) (he : atomscOne o acc p = (t, l)) : Canon t := by
  unfold atomscOne at he
  split at he
  · cases he
    exact State.updDie_canon h
  · exact atomicAt_canon (takeTicket_canon h) he

theorem atomscAll_canon {o : FmtM} {ps : List (Place × Part)} {s : State} (h : Canon s) : Canon (atomscAll o ps s) :=
  putGot_canon (foldl_keeps (fun p : State × List Got => Canon p.1) _ _ _ (fun _ _ hacc => atomscOne_canon hacc (pair_eta _)) h)

theorem atomscBody_keeps {o : FmtM} {ps : List (Place × Part)} : KeepsM (atomscBody o ps) :=
  ordered_keeps (fun _ hs => atomscAll_canon hs)

theorem atomscCore_keeps {o : FmtM} : KeepsM (atomscCore o) :=
  runM_keeps (fun _ => noExtra_keepsM) (fun _ => atomscBody_keeps)

theorem faddwAt_canon {f64 : Bool} {s : State} {p : Place × Part} (h : Canon s) : Canon (faddwAt f64 s p) := by
  unfold faddwAt
  extract_lets -underBinder n pa s1 stamp same x s2
  have hs1 : Canon s1 := weltFetch_canon (atHome_canon h)
  have hs2 : Canon s2 := flushWelts_canon hs1
  refine canon_ite (State.updDie_canon hs1) ?_
  refine canon_ite (hs1.of_eq rfl rfl) ?_
  refine canon_ite hs1 ?_
  split
  · exact State.updMe_canon hs2
  next s3 hx =>
    have hs3 : Canon s3 := weltRoom_canon hs2 hx
    exact (awaitAcks_canon hs3).of_eq rfl rfl

theorem faddwBody_keeps {o : FmtM} {ps : List (Place × Part)} : KeepsM (faddwBody o ps) :=
  ordered_keeps (fun _ hs => canon_foldl (fun _ _ hs1 => faddwAt_canon hs1) hs)

theorem faddwCore_keeps {o : FmtM} : KeepsM (faddwCore o) :=
  runM_keeps (fun _ => noExtra_keepsM) (fun _ => faddwBody_keeps)

theorem weltReadAt_canon {o : FmtM} {free : Bool} {acc : State × List Got} {p : Place × Part} {t : State} {l : List Got}
    (h : Canon acc.1) (he : weltReadAt o free acc p = (t, l)) : Canon t := by
  unfold weltReadAt at he
  extract_lets -underBinder n s v live s1 at he
  have hs : Canon s := weltFetch_canon (atHome_canon h)
  have hs1 : Canon s1 := canon_ite (homeWriteMe_canon hs) hs
  split at he
  · exact (Prod.mk.inj he).1 ▸ hs
  · exact (Prod.mk.inj he).1 ▸ hs1

theorem weltReadAll_canon {o : FmtM} {free : Bool} {ps : List (Place × Part)} {s : State} (h : Canon s) :
    Canon (weltReadAll o free ps s) := by
  unfold weltReadAll
  exact putGot_canon (foldl_keeps (fun p : State × List Got => Canon p.1) _ _ _ (fun _ _ hacc => weltReadAt_canon hacc
    (pair_eta _)) h)

theorem weltReadBody_keeps {o : FmtM} {free : Bool} {ps : List (Place × Part)} : KeepsM (weltReadBody o free ps) := by
  unfold weltReadBody
  refine keeps_get fun _ _ => ?_
  refine keeps_ite blockHere_keeps ?_
  extract_lets -underBinder rest
  have hrest : ∀ x, KeepsM (rest x) := fun _ => ordered_keeps (fun _ hs1 => weltReadAll_canon hs1)
  exact keeps_ite (keeps_bind weltBudget_keeps fun _ => hrest ()) (hrest ())

theorem wreadCore_keeps {o : FmtM} : KeepsM (wreadCore o) :=
  runM_keeps (fun _ => noExtra_keepsM) (fun _ => weltReadBody_keeps)

theorem wflushCore_keeps {o : FmtM} : KeepsM (wflushCore o) :=
  runM_keeps (fun _ => noExtra_keepsM) (fun _ => weltReadBody_keeps)

theorem fenceCore_keeps {o : FmtM} : KeepsM (fenceCore o) := by
  have hfence : KeepsM (do needReads; upd (around o id)) :=
    keeps_bind needReads_keeps fun _ => keeps_upd fun _ hs => around_canon (fun _ ht => ht) hs
  unfold fenceCore
  refine keeps_get fun s _ => keeps_ite (keeps_pure _) ?_
  exact keeps_ite (keeps_bind weltBudget_keeps fun _ => hfence) hfence

theorem opfenceCore_keeps {o : FmtM} : KeepsM (opfenceCore o) :=
  keeps_get fun _ _ => keeps_ite (keeps_pure _) (keeps_upd (fun _ hs1 => writeBackAll_canon hs1))

theorem recfenceCore_keeps {o : FmtM} : KeepsM (recfenceCore o) := by
  unfold recfenceCore
  refine keeps_get fun _ _ => ?_
  exact keeps_ite (keeps_pure _) (keeps_bind checkSources_keeps fun _ => keeps_upd (fun _ hs1 => State.updCore_canon
    (writeBackAll_canon hs1)))

theorem wakeToken_canon {s : State} {b : Nat} (h : Canon s) : Canon (wakeToken s b) :=
  canon_foldl (fun _ _ hs1 => makeReady_canon hs1) h

theorem receiveToken_canon {s : State} {l : Nat} (h : Canon s) : Canon (receiveToken s l) := by
  unfold receiveToken
  split
  · exact wakeToken_canon (invalidateClean_canon h)
  · exact h

theorem passToken_canon {s : State} {l : Nat} (h : Canon s) : Canon (passToken s l) := by
  unfold passToken
  extract_lets -underBinder x s1 n
  have hs1 : Canon s1 := by
    unfold s1
    split
    · exact writeBackAll_canon h
    · exact h
  exact receiveToken_canon (State.updLch_canon hs1)

theorem tokwaitCore_keeps {o : FmtM} : KeepsM (tokwaitCore o) :=
  keeps_get fun _ _ => keeps_ite blockHere_keeps (keeps_pure _)

theorem tokpassCore_keeps {o : FmtM} : KeepsM (tokpassCore o) := by
  unfold tokpassCore
  refine keeps_get fun _ _ => ?_
  exact keeps_ite (keeps_bind weltBudget_keeps fun _ => keeps_upd (fun _ hs1 => passToken_canon hs1)) (keeps_pure _)

theorem redApply_canon {s : State} {slot ty b : Nat} (h : Canon s) : Canon (redApply s slot ty b) :=
  homeWriteMe_canon (homeWriteMe_canon h)

theorem redDrain_canon {s : State} {slot k : Nat} (h : Canon s) : Canon (redDrain s slot k) := by
  induction k generalizing s with
  | zero => exact h
  | succ k ih =>
    unfold redDrain
    dsimp only
    split
    · refine ih (redApply_canon ?_)
      exact h.of_eq rfl rfl
    · exact h

theorem redOffer_canon {s : State} {slot ty index b : Nat} {t : State} {n : Nat} (h : Canon s)
    (he : redOffer s slot ty index b = some (t, n)) : Canon t := by
  unfold redOffer at he
  extract_lets -underBinder s1 next at he
  have hs1 : Canon s1 := flushWelts_canon h
  split at he
  · replace he := Option.some.inj he
    exact (Prod.mk.inj he).1 ▸ hs1
  · split at he
    · replace he := Option.some.inj he
      exact (Prod.mk.inj he).1 ▸ (redDrain_canon (redApply_canon hs1))
    · split at he
      · cases he
      · replace he := Option.some.inj he
        exact (Prod.mk.inj he).1 ▸ (hs1.of_eq rfl rfl)

theorem redixRun_canon {ty : Nat} {s t : State} {ps : List (Place × Part)} {rs l : List Got} {b : Bool} (h : Canon s)
    (he : redixRun ty s ps rs = (t, l, b)) : Canon t := by
  induction ps generalizing s rs with
  | nil =>
    cases he
    exact h
  | cons p r ih =>
    unfold redixRun at he
    dsimp only at he
    split at he
    · exact ih (atHome_canon h) he
    · split at he
      next x hx => exact ih (redOffer_canon (atHome_canon h) hx) he
      · cases he
        exact atHome_canon h

theorem redixAll_canon {o : FmtM} {ps : List (Place × Part)} {s : State} (h : Canon s) : Canon (redixAll o ps s) := by
  unfold redixAll
  extract_lets -underBinder r
  have hr : Canon r.1 := redixRun_canon h (triple_eta _)
  exact canon_ite (putGot_canon (holdNone_canon hr)) (stalled_canon (holdAt_canon hr))

theorem redixBody_keeps {o : FmtM} {ps : List (Place × Part)} : KeepsM (redixBody o ps) :=
  ordered_keeps (fun _ hs => redixAll_canon hs)

theorem redixCore_keeps {o : FmtM} : KeepsM (redixCore o) :=
  runM_keeps (fun _ => noExtra_keepsM) (fun _ => redixBody_keeps)

theorem loggedRun_keeps {e : LogEntry} {ps : List (Place × Part)} : KeepsM (loggedRun e ps) := by
  unfold loggedRun
  split
  · exact loadBody_keeps
  · exact loadBody_keeps
  · exact storeBody_keeps
  · exact atomBody_keeps
  · exact atomBody_keeps
  · exact atomscBody_keeps
  · exact faddwBody_keeps
  · exact weltReadBody_keeps
  · exact weltReadBody_keeps
  · exact redixBody_keeps
  · exact keeps_pure _

theorem replayEntry_keeps {e : LogEntry} : KeepsM (replayEntry e) := by
  unfold replayEntry
  split
  · exact keeps_pure _
  · extract_lets -underBinder eas
    refine keeps_bind checkAccess_keeps fun _ => ?_
    split
    · exact deferAccess_keeps
    · exact loggedRun_keeps

theorem replayOne_canon {s t : State} {g : Nat} {e : LogEntry} {b : Bool} (h : Canon s)
    (he : replayOne s g e = (t, b)) : Canon t := by
  have hentry : Canon { s with oplog := s.oplog.filter (· ≠ e), cur := { g := g, plane := e.plane, off := e.off } } :=
    h.of_eq rfl rfl
  have hfirst : Canon (replayOne s g e).1 := by
    unfold replayOne
    dsimp only
    split
    next u hu =>
      split
      · exact (replayEntry_keeps _ _ _ hentry hu).of_eq rfl rfl
      · exact h.of_eq rfl rfl
    next t' _ =>
      have hraise : Canon (raiseAt s g e.off t') := raiseAt_canon h
      exact hraise.of_eq rfl rfl
    · exact h
  rwa [he] at hfirst

theorem replayLog_canon {s : State} {g : Nat} (h : Canon s) : Canon (replayLog s g) := by
  unfold replayLog
  dsimp only
  refine canon_foldl (fun _ _ hs => makeReady_canon hs) ?_
  refine foldl_keeps (fun p : State × Bool => Canon p.1) _ _ _ (fun p e hp => ?_) (State.updGrp_canon h)
  split
  · exact replayOne_canon hp (pair_eta _)
  · exact hp

theorem settleRange_canon {s : State} {xl : Nat → Xlat} {va n : Nat} (h : Canon s) : Canon (settleRange s xl va n) := by
  unfold settleRange
  split
  · exact canon_foldl (fun _ _ hs1 => settleLine_canon hs1) h
  · exact h

theorem readSettled_canon {s : State} {xl : Nat → Xlat} {va n : Nat} {t : State} {l : List Byte} (h : Canon s)
    (he : readSettled s xl va n = .ok (t, l)) : Canon t := by
  unfold readSettled at he
  obtain ⟨_, -, he⟩ := exceptBind_inv he
  cases he
  exact settleRange_canon h

theorem writeParts_canon {s : State} {ps : List (Nat × Nat)} {bs : List Byte} (h : Canon s) :
    Canon (writeParts s ps bs) := by
  induction ps generalizing s bs with
  | nil => exact h
  | cons p r ih => exact ih (homeWrite_canon h)

theorem writeRange_canon {s : State} {xl : Nat → Xlat} {va : Nat} {bs : List Byte} {t : State} (h : Canon s)
    (he : writeRange s xl va bs = .ok t) : Canon t := by
  unfold writeRange at he
  obtain ⟨_, -, he⟩ := exceptBind_inv he
  cases he
  exact writeParts_canon h

theorem discardBlock_canon {s : State} {b : Nat} (h : Canon s) : Canon (discardBlock s b) :=
  fillCore_canon (⟨h.memWf, spSorted_filter _ _ 0 h.sorted⟩)

theorem setShare_canon {s : State} {l i : Nat} {f : Share → Share} (h : Canon s) : Canon (setShare s l i f) :=
  State.updLch_canon h

theorem refreshHeads_canon {s : State} (h : Canon s) : Canon (refreshHeads s) := by
  unfold refreshHeads
  refine canon_foldl (fun _ _ hs1 => ?_) h
  refine canon_foldl (fun _ _ hs2 => ?_) hs1
  split
  · exact setShare_canon hs2
  · exact hs2

theorem killLaunch_canon {s : State} {l reason : Nat} (h : Canon s) : Canon (killLaunch s l reason) :=
  refreshHeads_canon ((canon_foldl (fun _ _ hs1 => discardBlock_canon hs1) h).of_eq rfl rfl)

theorem haltLaunch_canon {s : State} {l : Nat} (h : Canon s) : Canon (haltLaunch s l) :=
  canon_foldl (fun _ _ hs1 => canon_ite hs1 (haltGroup_canon hs1)) (State.updLch_canon h)

theorem report_canon {s : State} {e : EventRec} (h : Canon s) : Canon (report s e) :=
  sendEvent_canon (canon_foldl (fun _ _ hs1 => writeBackAll_canon hs1) h)

theorem policyActs_canon {s : State} {c r cause : Nat} (h : Canon s) : Canon (policyActs s c r cause) := by
  unfold policyActs
  split
  · exact canon_foldl (fun _ _ hs1 => haltLaunch_canon hs1) h
  · exact canon_foldl (fun _ _ hs1 => killLaunch_canon hs1) h
  · exact h

theorem applyPolicy_canon {s : State} {c r d quad : Nat} {regs : TrapRegs} (h : Canon s) :
    Canon (applyPolicy s c r d quad regs) := policyActs_canon (report_canon h)

theorem tellMachineCheck_canon {s : State} {d c r : Nat} (h : Canon s) : Canon (tellMachineCheck s d c r) :=
  policyActs_canon (report_canon h)

theorem domFaultAt_canon {s : State} {ck c r : Nat} {t : Trap} (h : Canon s) : Canon (domFaultAt s ck c r t) :=
  State.updHandler_canon h

theorem domFault_canon {s : State} {d c r : Nat} {t : Trap} (h : Canon s) : Canon (domFault s d c r t) :=
  applyPolicy_canon h

theorem domFaultOf_canon {s : State} {g : Nat} {t : Trap} (h : Canon s) : Canon (domFaultOf s g t) :=
  canon_ite (machineCheck_canon h) (domFaultAt_canon h)

theorem forwardTrap_canon {s : State} {quad : Nat} (h : Canon s) : Canon (forwardTrap s quad) := by
  unfold forwardTrap
  extract_lets -underBinder h1 regs cause d
  split
  · exact h
  · exact canon_ite h (canon_ite (report_canon (State.updHandler_canon h)) (applyPolicy_canon (State.updHandler_canon h)))

theorem countError_canon {s : State} {d lo width : Nat} (h : Canon s) : Canon (countError s d lo width) :=
  State.updDie_canon h

theorem countLost_canon {s : State} {d src : Nat} {pa : Option Nat} (h : Canon s) : Canon (countLost s d src pa) :=
  State.updDie_canon (countError_canon h)

theorem errorAt_canon {s : State} {e : ErrorAt} (h : Canon s) : Canon (errorAt s e) := by
  unfold errorAt
  split
  · exact canon_ite (countError_canon h) h
  · exact canon_ite (countLost_canon (h.of_eq rfl rfl)) h
  · exact canon_ite (countLost_canon (State.updGrp_canon h)) h
  · exact canon_ite (countLost_canon (State.updGrp_canon h)) h
  · exact canon_ite (countLost_canon (State.updBlk_canon h)) h
  · split
    · exact h
    · exact countLost_canon (l1Put_canon h)
  · split
    · exact h
    · exact countLost_canon (State.updBlk_canon h)
  · exact State.updCore_canon h

theorem barComplete_canon {s : State} {b n : Nat} (h : Canon s) : Canon (barComplete s b n) := by
  unfold barComplete
  extract_lets -underBinder x r e k r1 s1
  have hs1 : Canon s1 := State.updBlk_canon h
  refine canon_ite h ?_
  refine canon_foldl (fun _ _ hs2 => ?_) hs1
  split
  · exact canon_ite (makeReady_canon hs2) hs2
  · exact hs2

theorem barChange_canon {s : State} {b n : Nat} {f : Bar → Bar} (h : Canon s) : Canon (barChange s b n f) :=
  barComplete_canon (State.updBlk_canon h)

theorem barBytes_canon {s : State} {b n k : Nat} (h : Canon s) : Canon (barBytes s b n k) := canon_ite (barChange_canon h) h

theorem settleBlock_canon {s : State} {b : Nat} (h : Canon s) : Canon (settleBlock s b) :=
  canon_ite (discardBlock_canon h) h

theorem retireBlock_canon {s : State} {b : Nat} (h : Canon s) : Canon (retireBlock s b) := by
  unfold retireBlock
  extract_lets -underBinder x s1 s2 l s3 s4
  have hs1 : Canon s1 := h.of_eq rfl rfl
  have hs2 : Canon s2 := State.setBlk_canon hs1
  have hs3 : Canon s3 := canon_ite (passToken_canon (State.updLch_canon hs2)) (State.updLch_canon hs2)
  have hs4 : Canon s4 := canon_ite hs2 (State.updLch_canon hs3)
  exact settleBlock_canon hs4

theorem tellRetired_canon {s : State} {g : Nat} (h : Canon s) : Canon (tellRetired s g) := by
  unfold tellRetired
  extract_lets -underBinder x tell s1 s2
  have htell : ∀ s t ipc, Canon s → Canon (tell s t ipc) := fun _ _ _ hs => domFaultAt_canon hs
  have hs1 : Canon s1 := by
    refine canon_foldl (fun s e hs => canon_ite ?_ hs) h
    split
    · exact htell _ _ _ hs
    · exact hs
  have hs2 : Canon s2 := by
    refine canon_foldl (fun s e hs => canon_ite ?_ hs) hs1
    split
    · exact htell _ _ _ hs
    · exact hs
  refine canon_foldl (fun s e hs => canon_ite ?_ hs) hs2
  split
  next f _ =>
    have htold : Canon (tell s { cause := 0x13, addr := f.addr, rec_ := e.2.rec_, prog := e.2.visits, tok :=
      e.2.serial } e.2.ipc) :=
      htell _ _ _ hs
    exact htold.of_eq rfl rfl
  · exact hs

theorem retireGroup_canon {s : State} {g : Nat} (h : Canon s) : Canon (retireGroup s g) := by
  unfold retireGroup
  extract_lets -underBinder b ck s1 s2 s3 s4
  have hs1 : Canon s1 := tellRetired_canon h
  have hs2 : Canon s2 := ⟨hs1.memWf, spSorted_spDel _ 0 _ hs1.sorted⟩
  have hs3 : Canon s3 := canon_foldl (fun _ _ hs5 => barComplete_canon hs5) hs2
  have hs4 : Canon s4 := canon_ite (retireBlock_canon hs3) hs3
  exact fillCore_canon hs4

end Sys2Proof.Machine
end

section
/-! What keeps the canonical forms: rings, places and copies. One lemma for each
operation of the model that gives a state, in the model's order; a lemma follows the branches of its operation. -/

namespace Sys2Proof.Machine

theorem structs_keeps {u perThread : Bool} {al n : Nat} {nd : Need} {xs : List Named} :
    KeepsM (structs u perThread al n nd xs) := by
  unfold structs
  refine keeps_get fun _ _ => ?_
  extract_lets -underBinder lo bad mis
  refine keeps_bind need_keeps fun _ => ?_
  exact keeps_bind need_keeps fun _ => keeps_bind need_keeps fun _ => keeps_bind need_keeps fun _ => keeps_pure _

theorem uniStruct_keeps {o : FmtE} {uses : List FieldUse} {al n : Nat} {nd : Need} {body : Nat → Nat → M Unit}
    (hbody : ∀ x x1, KeepsM (body x x1)) : KeepsM (uniStruct o uses al n nd body) := by
  unfold uniStruct
  refine keeps_get fun _ _ => ?_
  refine keeps_ite (keeps_pure _) ?_
  refine keeps_bind checkStale_keeps fun _ => ?_
  exact keeps_bind structs_keeps fun _ => keeps_bind checkPoison_keeps fun _ => hbody _ _

theorem eachStruct_keeps {o : FmtE} {uses : List FieldUse} {al n : Nat} {nd : Need} {body : List Named → M Unit}
    (hbody : ∀ x, KeepsM (body x)) : KeepsM (eachStruct o uses al n nd body) := by
  unfold eachStruct
  refine keeps_get fun _ _ => ?_
  extract_lets -underBinder ts
  refine keeps_ite (keeps_pure _) ?_
  refine keeps_bind checkStale_keeps fun _ => ?_
  exact keeps_bind structs_keeps fun _ => keeps_bind checkPoison_keeps fun _ => hbody _

theorem putK_canon {o : FmtE} {ty v : Nat} {s : State} (h : Canon s) : Canon (putK o ty v s) := State.updMe_canon h

theorem putEach_canon {o : FmtE} {ty : Nat} {rs : List (Nat × Nat)} {s : State} (h : Canon s) : Canon (putEach o ty rs s) :=
  State.updMe_canon h

theorem structFault_canon {s : State} {cause va : Nat} (h : Canon s) : Canon (structFault s cause va) := domFaultOf_canon h

theorem eRelease_canon {o : FmtE} {s : State} (h : Canon s) : Canon (eRelease o s) := doRelease_canon h

theorem eAcquire_canon {o : FmtE} {s : State} (h : Canon s) : Canon (eAcquire o s) :=
  doAcquire_canon (sampleAllOwn_canon h)

theorem unparkFrom_canon {s t : State} {pa : Nat} {tail : Bool} {k c n : Nat} (h : Canon s)
    (he : unparkFrom s pa tail k c = (t, n)) : Canon t := by
  induction k generalizing s c with
  | zero =>
    cases he
    exact h
  | succ k ih =>
    unfold unparkFrom at he
    split at he
    · refine ih ?_ he
      exact h.of_eq rfl rfl
    · cases he
      exact h

theorem settle_canon {s : State} {pa : Nat} {tail : Bool} {i n : Nat} {t : State} {n1 : Nat} (h : Canon s)
    (he : settle s pa tail i n = some (t, n1)) : Canon t := by
  unfold settle at he
  extract_lets -underBinder h1 ctr lim mine r at he
  have hr : Canon r.1 := unparkFrom_canon h (pair_eta _)
  split at he
  · cases he
    exact h
  · split at he
    · split at he
      · cases he
      · cases he
        exact h.of_eq rfl rfl
    · replace he := Option.some.inj he
      exact (Prod.mk.inj he).1 ▸ (homeWriteNat_canon hr)

theorem addWaiter_canon {s : State} {pa : Nat} {w : WaitFor} (h : Canon s) : Canon (addWaiter s pa w) := h.of_eq rfl rfl

theorem endWait_canon {s : State} {k g uid scope : Nat} (h : Canon s) : Canon (endWait s k g uid scope) :=
  canon_ite (h.of_eq rfl rfl) (makeReady_canon (doAcquire_canon (sampleAllOwn_canon (h.of_eq rfl rfl))))

theorem tryTake_canon {s : State} {pa n : Nat} {t : State} {n1 : Nat} (h : Canon s) (he : tryTake s pa n = some (t, n1)) :
    Canon t := by
  unfold tryTake at he
  extract_lets -underBinder h1 at he
  split at he
  · cases he
  · replace he := Option.some.inj he
    exact (Prod.mk.inj he).1 ▸ (homeWriteNat_canon h)

theorem replyK_canon {s : State} {g uid : Nat} {o : FmtE} {v : Nat} (h : Canon s) : Canon (replyK s g uid o v) :=
  canon_ite (State.updGrp_canon h) h

theorem serveRingOne_canon {s : State} {k : Nat} (h : Canon s) : Canon (serveRingOne s k) := by
  unfold serveRingOne
  split
  · exact h
  · split
    · split
      next x3 hx2 =>
        have hx3 : Canon x3.1 := tryTake_canon h hx2
        exact endWait_canon (replyK_canon hx3)
      · exact h
    · exact canon_ite (endWait_canon h) h
    · split
      · exact canon_ite (h.of_eq rfl rfl) h
      · exact h.of_eq rfl rfl
    · exact h

theorem serveRing_canon {s : State} {pa : Nat} (h : Canon s) : Canon (serveRing s pa) :=
  canon_foldl (fun _ _ hs1 => serveRingOne_canon hs1) h

theorem claimRing_canon {s : State} {pa n : Nat} {t : State} {n1 : Nat} (h : Canon s) (he : claimRing s pa n = (t, n1)) :
    Canon t := by
  unfold claimRing at he
  extract_lets -underBinder h1 at he
  split at he
  · exact (Prod.mk.inj he).1 ▸ (homeWriteNat_canon h)
  · exact (Prod.mk.inj he).1 ▸ h

theorem atSlice_keeps {pa : Nat} : KeepsM (atSlice pa) := keeps_upd (fun _ hs => settleLine_canon hs)

theorem onRing_keeps {o : FmtE} {va pa n no ty : Nat} {body : M Unit} (hbody : KeepsM body) :
    KeepsM (onRing o va pa n no ty body) := by
  unfold onRing
  refine keeps_bind atSlice_keeps fun _ => ?_
  refine keeps_get fun _ _ => ?_
  split
  · exact keeps_upd (fun _ hs1 => putK_canon (structFault_canon hs1))
  · exact keeps_ite (keeps_upd (fun _ hs1 => putK_canon hs1)) hbody

theorem execRclaim_keeps {o : FmtE} {s : State} (h : Canon s) : KeepsO (execRclaim o s) := by
  unfold execRclaim
  refine finish_keeps ?_ h
  refine uniStruct_keeps (fun _ _ => ?_)
  refine keeps_get fun _ _ => ?_
  exact onRing_keeps (keeps_upd (fun _ hs2 => eAcquire_canon (putK_canon (claimRing_canon hs2 (pair_eta _)))))

theorem settleCore_keeps {o : FmtE} {tail : Bool} : KeepsM (settleCore o tail) := by
  unfold settleCore
  refine uniStruct_keeps fun va pa => keeps_get fun s _ => ?_
  dsimp only
  refine onRing_keeps (keeps_bind beforeRelease_keeps fun _ => ?_)
  refine keeps_bind (keeps_upd fun _ hs => eRelease_canon hs) fun _ => keeps_get fun u hu => ?_
  split
  · exact keeps_upd fun _ hs => stalled_canon (State.updMe_canon hs)
  next r hr => exact keeps_set (serveRing_canon (putK_canon (settle_canon hu hr)))

theorem awaitOn_keeps {w : Wait} : KeepsM (awaitOn w) := keeps_upd (fun _ hs => blockOn_canon hs)

theorem execRawaitTake_keeps {o : FmtE} {s : State} (h : Canon s) : KeepsO (execRawaitTake o s) := by
  unfold execRawaitTake
  refine finish_keeps ?_ h
  refine uniStruct_keeps (fun _ _ => ?_)
  refine keeps_get fun _ _ => ?_
  extract_lets -underBinder g uid n
  refine keeps_bind awaitOn_keeps fun _ => ?_
  refine keeps_bind atSlice_keeps fun _ => ?_
  refine keeps_get fun _ hs2 => ?_
  split
  · exact keeps_upd (fun _ hs3 => makeReady_canon (replyK_canon (structFault_canon hs3)))
  · refine keeps_ite (keeps_upd (fun _ hs3 => makeReady_canon (replyK_canon hs3))) ?_
    split
    next x3 hx1 =>
      have hx3 : Canon x3.1 := tryTake_canon hs2 hx1
      exact keeps_set (makeReady_canon (eAcquire_canon (replyK_canon hx3)))
    · exact keeps_upd (fun _ hs3 => addWaiter_canon hs3)

theorem execRawaitAt_keeps {o : FmtE} {s : State} (h : Canon s) : KeepsO (execRawaitAt o s) := by
  unfold execRawaitAt
  refine finish_keeps ?_ h
  refine uniStruct_keeps (fun _ _ => ?_)
  refine keeps_get fun _ _ => ?_
  extract_lets -underBinder g n
  refine keeps_bind awaitOn_keeps fun _ => ?_
  refine keeps_bind atSlice_keeps fun _ => ?_
  refine keeps_get fun _ _ => ?_
  split
  · exact keeps_upd (fun _ hs3 => makeReady_canon (structFault_canon hs3))
  · refine keeps_ite (keeps_upd (fun _ hs3 => makeReady_canon hs3)) ?_
    exact keeps_ite (keeps_upd (fun _ hs3 => makeReady_canon (eAcquire_canon hs3))) (keeps_upd (fun _ hs3 => addWaiter_canon hs3))

theorem pushItems_canon {s t : State} {xl : Nat → Xlat} {pa : Nat} {items : List Nat} (h : Canon s)
    (he : pushItems s xl pa items = .ok t) : Canon t := by
  unfold pushItems at he
  obtain ⟨u, hu, he⟩ := exceptBind_inv he
  cases he
  exact homeWriteNat_canon (canon_foldlM (fun _ _ _ hs he => writeRange_canon hs he) h hu)

theorem popItems_canon {s : State} {xl : Nat → Xlat} {pa k : Nat} {t : State} {l : List Nat} (h : Canon s)
    (he : popItems s xl pa k = .ok (t, l)) : Canon t := by
  unfold popItems at he
  extract_lets -underBinder h1 s1 at he
  have hs1 : Canon s1 := canon_foldl (fun _ _ hs2 => settleRange_canon hs2) h
  obtain ⟨_, -, he⟩ := exceptBind_inv he
  replace he := Except.ok.inj he
  exact (Prod.mk.inj he).1 ▸ (homeWriteNat_canon hs1)

theorem deqGive_canon {s : State} {g pa : Nat} {tids_ : List Nat} {o : FmtE} {lat : Bool} {t : State} (h : Canon s)
    (he : deqGive s g pa tids_ o lat = .ok t) : Canon t := by
  unfold deqGive at he
  extract_lets -underBinder h1 k at he
  obtain ⟨_, hr, he⟩ := exceptBind_inv he
  cases he
  exact State.updGrp_canon ((popItems_canon h hr))

theorem serveDeqOne_canon {s : State} {k : Nat} (h : Canon s) : Canon (serveDeqOne s k) := by
  unfold serveDeqOne
  split
  · exact h
  · split
    · extract_lets -underBinder h1
      refine canon_ite h ?_
      refine canon_ite (h.of_eq rfl rfl) ?_
      split
      next s1 hx2 =>
        have hs1 : Canon s1 := deqGive_canon h hx2
        exact endWait_canon hs1
      · exact endWait_canon (domFaultOf_canon (State.updGrp_canon h))
    · exact h

theorem serveQueue_canon {s : State} {pa : Nat} (h : Canon s) : Canon (serveQueue s pa) :=
  canon_foldl (fun _ _ hs1 => serveDeqOne_canon hs1) h

theorem enqOne_canon {o : FmtE} {view s : State} {r : Nat × List Nat} (hs : Canon s) : Canon (enqOne o view s r) := by
  unfold enqOne
  extract_lets -underBinder pa s1 item all va
  have hs1 : Canon s1 := settleLine_canon hs
  have hall : ∀ x s1, Canon s1 → Canon (all x s1) := fun _ _ hs2 => putEach_canon hs2
  split
  · exact hall _ _ (structFault_canon hs1)
  · extract_lets -underBinder h1
    refine canon_ite (hall _ _ hs1) ?_
    split
    next s2 hx1 =>
      have hs2 : Canon s2 := pushItems_canon hs1 hx1
      exact serveQueue_canon (hall _ _ hs2)
    · exact hall _ _ (structFault_canon hs1)

theorem execEnq_keeps {o : FmtE} {s : State} (h : Canon s) : KeepsO (execEnq o s) := by
  unfold execEnq
  refine finish_keeps ?_ h
  refine eachStruct_keeps (fun _ => ?_)
  refine keeps_bind beforeRelease_keeps fun _ => ?_
  exact keeps_upd (fun _ hs1 => canon_foldl (fun _ _ hs2 => enqOne_canon hs2) (eRelease_canon hs1))

theorem deqOne_canon {o : FmtE} {acc : State × Bool} {r : Nat × List Nat} {t : State} {b : Bool} (h : Canon acc.1)
    (he : deqOne o acc r = (t, b)) : Canon t := by
  unfold deqOne at he
  extract_lets -underBinder s g uid pa none_ at he
  have hs : Canon s := settleLine_canon h
  have hnone_ : ∀ s, Canon s → Canon (none_ s) := fun _ hs1 => State.updMe_canon hs1
  split at he
  · exact (Prod.mk.inj he).1 ▸ (hnone_ _ (structFault_canon hs))
  · extract_lets -underBinder h1 w at he
    split at he
    · exact (Prod.mk.inj he).1 ▸ (hs.of_eq rfl rfl)
    · split at he
      · split at he
        · exact (Prod.mk.inj he).1 ▸ (hnone_ _ hs)
        · exact (Prod.mk.inj he).1 ▸ (addWaiter_canon hs)
      · split at he
        next s1 hx1 =>
          have hs1 : Canon s1 := deqGive_canon hs hx1
          cases he
          exact hs1
        · exact (Prod.mk.inj he).1 ▸ (hnone_ _ (structFault_canon hs))

theorem execDeq_keeps {o : FmtE} {s : State} (h : Canon s) : KeepsO (execDeq o s) := by
  unfold execDeq
  refine finish_keeps ?_ h
  refine eachStruct_keeps (fun _ => ?_)
  refine keeps_upd (fun _ hs1 => ?_)
  extract_lets -underBinder r
  have hr : Canon r.1 :=
    foldl_keeps (fun p : State × Bool => Canon p.1) _ _ _ (fun _ _ hacc => deqOne_canon hacc (pair_eta _)) hs1
  exact canon_ite (blockOn_canon hr) (eAcquire_canon hr)

theorem askAgain_canon {k : Nat} {w : Waiter} {s : State} (h : Canon s) : Canon (askAgain k w s) := by
  unfold askAgain
  extract_lets -underBinder s1 room k2 s2
  have hs1 : Canon s1 := h.of_eq rfl rfl
  have hs2 : Canon s2 := hs1.of_eq rfl rfl
  split
  · exact serveDeqOne_canon hs2
  · exact serveRingOne_canon hs2

theorem execWaiterReissue_keeps {k : Nat} {s : State} (h : Canon s) : KeepsO (execWaiterReissue k s) := by
  unfold execWaiterReissue
  refine finish_keeps ?_ h
  split
  · exact idleM_keeps
  · exact keeps_bind onlyIf_keeps fun _ => keeps_upd (fun _ hs1 => askAgain_canon hs1)

theorem execParkReissue_keeps {g : Nat} {s : State} (h : Canon s) : KeepsO (execParkReissue g s) :=
  finish_keeps (keeps_bind onlyIf_keeps fun _ => keeps_upd (fun _ hs1 => State.updGrp_canon hs1)) h

theorem gatherServe_canon {s : State} {e : Nat × Waiter} (h : Canon s) : Canon (gatherServe s e) := by
  unfold gatherServe
  extract_lets -underBinder pa h1
  split
  · exact canon_ite (serveDeqOne_canon h) (canon_ite (endWait_canon (canon_ite (State.updGrp_canon h) h))
      (addWaiter_canon (h.of_eq rfl rfl)))
  · exact h

theorem execPavaneDeqQuantum_keeps {die slice : Nat} {s : State} (h : Canon s) :
    KeepsO (execPavaneDeqQuantum die slice s) := by
  unfold execPavaneDeqQuantum
  refine finish_keeps ?_ h
  split
  · exact idleM_keeps
  · refine keeps_bind onlyIf_keeps fun _ => ?_
    exact keeps_upd (fun _ hs1 => canon_foldl (fun _ _ hs2 => gatherServe_canon hs2) hs1)

theorem addGroup_canon {s : State} {ck : Nat} {x : Group} (h : Canon s) : Canon (addGroup s ck x) :=
  (State.setGrp_canon h).of_eq rfl rfl

theorem dispatchBlock_canon {s : State} {b : Nat} (h : Canon s) : Canon (dispatchBlock s b) :=
  fillCore_canon (canon_foldl (fun _ _ hs1 => addGroup_canon hs1) (invalidateClean_canon (State.setBlk_canon h)))

theorem growWays_canon {s : State} {ck : Nat} (h : Canon s) : Canon (growWays s ck) := canon_ite (setWays_canon h) h

theorem placeRec_canon {s : State} {l : Nat} {r : LaunchRec} {bid ck : Nat} {t : State} {n : Nat} (h : Canon s)
    (he : placeRec s l r bid ck = (t, n)) : Canon t := by
  unfold placeRec at he
  extract_lets -underBinder b x x1 at he
  have hx1 : Canon x1 := State.setBlk_canon h
  exact (Prod.mk.inj he).1 ▸ (growWays_canon (hx1.of_eq rfl rfl))

theorem placeOn_canon {s : State} {l bid ck : Nat} {t : State} {n : Nat} (h : Canon s) (he : placeOn s l bid ck = (t, n)) :
    Canon t := by
  unfold placeOn at he
  exact placeRec_canon h he

theorem recordBytes_canon {s t : State} {va n : Nat} {bs : List Byte} (h : Canon s)
    (he : recordBytes s va n = .ok (bs, t)) : Canon t := by
  unfold recordBytes at he
  obtain ⟨-, -, he⟩ := exceptBind_inv he
  split at he
  · cases he
    exact h
  · obtain ⟨ds, -, he⟩ := exceptBind_inv he
    cases he
    exact State.updCore_canon (settleRange_canon h)

theorem uniTrap_keeps {cause addr : Nat} : KeepsM (uniTrap cause addr) := keeps_get fun _ _ => trapM_keeps

theorem fetchRecord_keeps {va : Nat} : KeepsM (fetchRecord va) := by
  unfold fetchRecord
  extract_lets -underBinder rest
  have hrest : ∀ x, KeepsM (rest x) := fun _ => by
    unfold rest
    refine keeps_get fun _ hs => ?_
    split
    next r hx =>
      have hr : Canon r.2 := recordBytes_canon hs hx
      exact keeps_bind (keeps_set hr) fun _ => keeps_pure _
    · exact keeps_bind uniTrap_keeps fun _ => keeps_pure _
  exact keeps_ite (keeps_bind uniTrap_keeps fun _ => hrest ()) (hrest ())

theorem dropL1Line_canon {s : State} {ck line : Nat} (h : Canon s) : Canon (dropL1Line s ck line) :=
  flushLine_canon (performWhere_canon h)

theorem dropL1Range_canon {s : State} {ck : Nat} {ps : List (Nat × Nat)} (h : Canon s) : Canon (dropL1Range s ck ps) :=
  canon_foldl (fun _ _ hs1 => dropL1Line_canon hs1) h

theorem stopCopy_canon {s : State} {k : Nat} {c : Copy} {cause addr : Nat} (h : Canon s) :
    Canon (stopCopy s k c cause addr) :=
  canon_ite (makeReady_canon (h.of_eq rfl rfl)) (canon_ite (h.of_eq rfl rfl) (domFaultAt_canon (h.of_eq rfl rfl)))

theorem fillLine_canon {s : State} {k : Nat} {c : Copy} {line : Nat} (h : Canon s) : Canon (fillLine s k c line) := by
  unfold fillLine
  extract_lets -underBinder rows s1 s2
  have hs1 : Canon s1 := canon_foldl (fun _ _ hs3 => canon_foldl (fun _ _ hs4 => canon_ite (State.updBlk_canon hs4) hs4) hs3) h
  have hs2 : Canon s2 := State.updBlk_canon hs1
  exact canon_ite h (setFull_canon hs2)

theorem rowDone_canon {s : State} {k : Nat} (h : Canon s) : Canon (rowDone s k) := by
  unfold rowDone
  split
  · exact h
  · extract_lets -underBinder feed counts w s1 c1 s2 s3
    have hfeed : ∀ s x1, Canon s → Canon (feed s x1) := fun _ _ hs4 => by
      unfold feed
      split
      · exact canon_ite hs4 (barBytes_canon hs4)
      · exact hs4
    have hs1 : Canon s1 := hfeed _ _ h
    have hs2 : Canon s2 := hfeed _ _ hs1
    have hs3 : Canon s3 := performWhere_canon hs2
    exact canon_ite (hs1.of_eq rfl rfl) (settleBlock_canon (hs3.of_eq rfl rfl))

theorem Copy.storeLine_canon {s : State} {c : Copy} {ps : List (Nat × List Byte)} {pa : Nat} (h : Canon s) :
    Canon (c.storeLine s ps pa) := by
  unfold Copy.storeLine
  dsimp only
  exact commitLine_canon (dropL1Line_canon h)

theorem landRow_canon {s : State} {k r : Nat} (h : Canon s) : Canon (landRow s k r) := by
  unfold landRow
  split
  · exact h
  next c _ =>
    refine canon_ite h (canon_ite ?_ ?_)
    · extract_lets -underBinder bs x
      split
      · exact stopCopy_canon h
      · exact stopCopy_canon h
      next ls _ _ =>
        have hstore : Canon (ls.foldl (fun s l => x.storeLine s l.1 l.2) s) :=
          canon_foldl (fun _ _ hs => Copy.storeLine_canon hs) h
        exact rowDone_canon (hstore.of_eq rfl rfl)
    · extract_lets -underBinder base got
      cases got with
      | error e => exact stopCopy_canon h
      | ok bs =>
        have hland : ∀ u, Canon u → ∀ x : Copy, Canon (rowDone
            ((x.linesOf r).foldl (fun s l => fillLine s k x l) { u with copies := spPut u.copies k x }) k) :=
          fun u hu x => rowDone_canon (canon_foldl (fun _ _ hs => fillLine_canon hs) (hu.of_eq rfl rfl))
        refine hland _ ?_ _
        split
        · exact canon_ite h (settleRange_canon h)
        · exact h

theorem execCopyRowLand_keeps {copy row : Nat} {s : State} (h : Canon s) : KeepsO (execCopyRowLand copy row s) := by
  unfold execCopyRowLand
  refine finish_keeps ?_ h
  split
  · exact idleM_keeps
  · exact keeps_bind onlyIf_keeps fun _ => keeps_upd (fun _ hs1 => landRow_canon hs1)

theorem missPromise_canon {copy : Nat} {c : Copy} {s : State} (h : Canon s) : Canon (missPromise copy c s) := by
  unfold missPromise
  extract_lets -underBinder s1 s2
  have hs1 : Canon s1 := h.of_eq rfl rfl
  have hs2 : Canon s2 := State.updGrp_canon hs1
  exact canon_ite hs1 (canon_ite (makeReady_canon hs2) hs2)

theorem missPromises_canon {s : State} (h : Canon s) : Canon (missPromises s) :=
  canon_foldl (fun _ _ hs1 => missPromise_canon hs1) h

theorem execPromiseMissed_keeps {copy : Nat} {s : State} (h : Canon s) : KeepsO (execPromiseMissed copy s) := by
  unfold execPromiseMissed
  refine finish_keeps ?_ h
  split
  · exact idleM_keeps
  · exact keeps_bind onlyIf_keeps fun _ => keeps_upd (fun _ hs1 => missPromise_canon hs1)

theorem queueCopy_canon {o : FmtE} {c : Copy} {s : State} (h : Canon s) : Canon (queueCopy o c s) := by
  unfold queueCopy
  extract_lets -underBinder k f s1 promise token s2 s3
  have hf : Canon f.2 := State.fresh_canon h (pair_eta _)
  have hs1 : Canon s1 := hf
  have hs2 : Canon s2 := State.updBlk_canon hs1
  have hs3 : Canon s3 := canon_ite hs2 (canon_foldl (fun _ _ hs4 => State.updBlk_canon hs4) hs2)
  exact putK_canon (hs3.of_eq rfl rfl)

theorem issueCopy_keeps {o : FmtE} {c : Copy} : KeepsM (issueCopy o c) := by
  unfold issueCopy
  refine keeps_get fun _ _ => ?_
  extract_lets -underBinder rest
  have hrest : ∀ x, KeepsM (rest x) := fun x => by
    unfold rest
    extract_lets -underBinder rest1
    have hrest1 : ∀ x, KeepsM (rest1 x) := fun _ => by
      unfold rest1
      extract_lets -underBinder rest2
      have hrest2 : ∀ x, KeepsM (rest2 x) := fun _ => by
        unfold rest2
        extract_lets -underBinder rest3
        have hrest3 : ∀ x, KeepsM (rest3 x) :=
          fun _ => keeps_bind checkPoison_keeps fun _ => keeps_ite stallM_keeps (keeps_upd (fun _ hs1 => queueCopy_canon hs1))
        exact keeps_ite (keeps_bind uniTrap_keeps fun _ => hrest3 ()) (hrest3 ())
      split
      · exact keeps_bind uniTrap_keeps fun _ => hrest2 ()
      · exact hrest2 ()
    split
    · exact keeps_bind uniTrap_keeps fun _ => hrest1 ()
    · exact hrest1 ()
  exact keeps_ite (keeps_bind uniTrap_keeps fun _ => hrest ()) (hrest ())

theorem copyCore_keeps {o : FmtE} {kind shapeKind : Nat} : KeepsM (copyCore o kind shapeKind) := by
  unfold copyCore
  refine keeps_get fun _ _ => ?_
  refine keeps_ite (keeps_pure _) ?_
  extract_lets -underBinder va
  refine keeps_bind fetchRecord_keeps fun _ => ?_
  extract_lets -underBinder rest
  have hrest : ∀ x, KeepsM (rest x) := fun _ => by
    unfold rest
    refine keeps_get fun _ _ => ?_
    split
    · exact uniTrap_keeps
    · exact keeps_bind need_keeps fun _ => issueCopy_keeps
  exact keeps_ite (keeps_bind (keeps_upd (fun _ hs1 => settleRange_canon hs1)) fun _ => hrest ()) (hrest ())

theorem cpyiCore_keeps {o : FmtE} : KeepsM (cpyiCore o) :=
  keeps_get fun _ _ => keeps_ite (keeps_pure _) (keeps_bind need_keeps fun _ => issueCopy_keeps)

theorem tokenArg_keeps {o : FmtE} : KeepsM (tokenArg o) :=
  keeps_get fun _ _ => keeps_bind need_keeps fun _ => keeps_bind checkPoison_keeps fun _ => keeps_pure _

theorem waitCopy_keeps {e : Nat × Copy} : KeepsM (waitCopy e) :=
  keeps_ite (keeps_pure _) (keeps_bind raiseCopyWait_keeps fun _ => stallM_keeps)

theorem guarded_keeps {o : FmtE} {body : M Unit} (hbody : KeepsM body) : KeepsM (guarded o body) :=
  keeps_get fun _ _ => keeps_ite hbody (keeps_pure _)

theorem execCpyq_keeps {o : FmtE} {s : State} (h : Canon s) : KeepsO (execCpyq o s) := by
  unfold execCpyq
  refine finish_keeps ?_ h
  refine guarded_keeps ?_
  refine keeps_bind tokenArg_keeps fun _ => ?_
  refine keeps_get fun _ _ => ?_
  split
  · exact waitCopy_keeps
  · exact keeps_pure _

theorem execCpyqAll_keeps {o : FmtE} {s : State} (h : Canon s) : KeepsO (execCpyqAll o s) :=
  finish_keeps (guarded_keeps (keeps_get fun _ _ => keeps_forM fun _ => waitCopy_keeps)) h

theorem execCpyqTest_keeps {o : FmtE} {s : State} (h : Canon s) : KeepsO (execCpyqTest o s) :=
  finish_keeps (guarded_keeps (keeps_bind tokenArg_keeps fun _ => keeps_upd (fun _ hs1 => State.updMe_canon hs1))) h

theorem execCpyqStat_keeps {o : FmtE} {s : State} (h : Canon s) : KeepsO (execCpyqStat o s) :=
  finish_keeps (guarded_keeps (keeps_bind tokenArg_keeps fun _ => keeps_upd (fun _ hs1 => putK_canon hs1))) h

/-- The copy that a token names is looked up behind a definition, whose number the kernel would otherwise count down. -/
theorem cancelCopy_canon {t : Nat} {s : State} (h : Canon s) : Canon (cancelCopy t s) := by
  obtain ⟨f, hf⟩ : ∃ f, f = cancelCopy := ⟨_, rfl⟩
  rw [← hf]
  delta cancelCopy at hf
  rw [hf]
  beta_reduce
  cases copyOf s s.me.block t with
  | none => exact h
  | some e => exact canon_ite h (settleBlock_canon (h.of_eq rfl rfl))

theorem execCpyx_keeps {o : FmtE} {s : State} (h : Canon s) : KeepsO (execCpyx o s) :=
  finish_keeps (guarded_keeps (keeps_bind tokenArg_keeps fun _ => keeps_upd (fun _ hs1 => cancelCopy_canon hs1))) h

theorem setPc_canon {s : State} {g off : Nat} (h : Canon s) : Canon (setPc s g off) := State.updGrp_canon h

theorem prepare_canon {s : State} {g plane off next : Nat} {whole : Bool} {copies : List (Nat × Slot)} {par : Option (List Slot)}
    (h : Canon s) :
    Canon (prepare s g plane off next whole copies par) := setPc_canon (h.of_eq rfl rfl)

theorem haltForSave_canon {s : State} {b : Nat} (h : Canon s) : Canon (haltForSave s b) :=
  canon_foldl (fun _ _ hs1 => haltGroup_canon hs1) (State.updBlk_canon h)

theorem turnEnds_canon {s : State} {ck : Nat} (h : Canon s) : Canon (turnEnds s ck) :=
  canon_foldl (fun _ _ hs1 => haltForSave_canon hs1) h

theorem passTurn_canon {s : State} {ck pos : Nat} (h : Canon s) : Canon (passTurn s ck pos) :=
  canon_ite (State.updCore_canon h) (turnEnds_canon (State.updCore_canon (State.updCore_canon h)))

theorem retireIssue_canon {s : State} {g uid slots cycles : Nat} {turn : Option Nat} (h : Canon s) :
    Canon (retireIssue s g uid slots cycles turn) := by
  unfold retireIssue
  extract_lets -underBinder s1
  have hs1 : Canon s1 := canon_ite (State.updGrp_canon h) h
  split
  · exact passTurn_canon hs1
  · exact hs1

theorem heldPair_canon {before s : State} {g : Nat} (hs : Canon s) : Canon (heldPair before s g) := State.updGrp_canon hs

theorem tellQuery_canon {s : State} {k : Nat} (h : Canon s) : Canon (tellQuery s k) := by
  unfold tellQuery
  split
  · exact canon_ite (h.of_eq rfl rfl) (h.of_eq rfl rfl)
  · exact h

theorem runAll_keeps {ex : Meaning} {s₀ s : State} {g next : Nat} {par : Option (List Slot)} {rs : List Run} {view : Option Group}
    (hex : ∀ i s, Canon s → KeepsO (ex i s)) (h₀ : Canon s₀) (h : Canon s) :
    KeepsO (runAll ex s₀ g next par rs view s) := by
  induction rs generalizing s view with
  | nil => exact next_keeps h
  | cons r rest ih =>
    unfold runAll
    extract_lets -underBinder before seen
    have hbefore : Canon before := prepare_canon h₀
    split
    next t ht =>
      have hfrom : Canon { s with cur := { before.cur with view := if r.lane then seen else none, moved := s.cur.moved } } :=
        h.of_eq rfl rfl
      have hrun : Canon t := hex _ _ hfrom t ht
      split
      · exact ih hrun
      · refine keepsO_ite (next_keeps (heldPair_canon hrun)) (keepsO_ite (next_keeps (stalled_canon hbefore)) ?_)
        exact next_keeps (blockOn_canon (stalled_canon hbefore))
      · exact next_keeps (takeTrap_canon hbefore)
    next o hnot => exact fun t ht => absurd ht (hnot t)

theorem issueWith_keeps {ex : Meaning} {g : Nat} {s : State} (hex : ∀ i s, Canon s → KeepsO (ex i s)) (h : Canon s) :
    KeepsO (issueWith ex g s) := by
  unfold issueWith
  extract_lets -underBinder x at_
  have hat : Canon at_ := h.of_eq rfl rfl
  refine keepsO_ite (next_keeps h) (keepsO_ite (next_keeps (State.updGrp_canon h)) (keepsO_ite (hex _ _ h) ?_))
  split
  · exact next_keeps (takeTrap_canon hat)
  next plan _ =>
    extract_lets -underBinder image par pair next is
    split
    · exact next_keeps (takeTrap_canon (tellQuery_canon hat))
    refine keepsO_ite (next_keeps (stalled_canon hat)) ?_
    extract_lets -underBinder done
    have hdone : ∀ s, Canon s → Canon (done s) := fun s hs =>
      canon_ite (retireIssue_canon (canon_foldl (fun _ _ ht => tellQuery_canon ht) hs)) hs
    have hend : ∀ o, KeepsO o → KeepsO (match o with | .next t => .next (done t) | o => o) := by
      intro o ho
      split
      next t => exact next_keeps (hdone t (ho t rfl))
      · exact ho
    split
    · exact next_keeps h
    · exact hend _ (hex _ _ (prepare_canon h))
    · exact hend _ (runAll_keeps hex h (prepare_canon h))

end Sys2Proof.Machine
end

section
/-! What keeps the canonical forms: rays and beams. One lemma for each
operation of the model that gives a state, in the model's order; a lemma follows the branches of its operation. -/

namespace Sys2Proof.Machine

theorem State.setQry_canon {s : State} {k : Nat} {q : Query} (h : Canon s) : Canon (s.setQry k q) := h.of_eq rfl rfl

theorem retireSplits_canon {s : State} {ring k : Nat} (h : Canon s) : Canon (retireSplits s ring k) := by
  induction k generalizing s with
  | zero => exact h
  | succ k ih =>
    unfold retireSplits
    dsimp only
    split
    · split
      · have hret : Canon (homeWriteNat s (ring + 40) 8 (homeNat s (ring + 40) 8 + 2)) := homeWriteNat_canon h
        exact ih (hret.of_eq rfl rfl)
      · exact h
    · exact h

theorem finishSplit_canon {s : State} {g k : Nat} (h : Canon s) : Canon (finishSplit s g k) := by
  unfold finishSplit
  split
  · exact h
  · refine canon_ite h ?_
    extract_lets -underBinder s1 s2 s3
    have hs1 : Canon s1 := doRelease_canon h
    have hs2 : Canon s2 := hs1.of_eq rfl rfl
    have hs3 : Canon s3 := by
      unfold s3
      split
      · exact State.setQry_canon hs2
      · exact hs2
    exact retireSplits_canon hs3

theorem finishOf_canon {s : State} {g : Nat} {ts : List Nat} (h : Canon s) : Canon (finishOf s g ts) :=
  canon_foldl (fun _ _ hs1 => finishSplit_canon hs1) h

theorem formRing_canon {s : State} {ring : Nat} (h : Canon s) : Canon (formRing s ring) := by
  unfold formRing
  split
  · exact h
  · split
    · exact h
    · exact retireSplits_canon ((homeWriteNat_canon h).of_eq rfl rfl)

theorem formGroup_canon {s : State} {block bind : Nat} (h : Canon s) : Canon (formGroup s block bind) := by
  unfold formGroup
  split
  · exact formRing_canon h
  · exact h

theorem logWrite_canon {s t : State} {q q' : Query} {off : Nat} {bs : List Byte} (h : Canon s)
    (he : logWrite s q off bs = (t, q')) : Canon t := by
  unfold logWrite at he
  split at he
  · cases he
    exact h
  · split at he
    next u hu =>
      cases he
      exact writeRange_canon h hu
    · cases he
      exact h

theorem logAppend_canon {s : State} {q : Query} {es : List (List Byte)} {t : State} {q' : Query} (h : Canon s)
    (he : logAppend s q es = (t, q')) : Canon t := by
  unfold logAppend at he
  split at he
  · cases he
    exact h
  · split at he
    · cases he
      exact h
    · split at he
      · cases he
        exact h
      · extract_lets -underBinder r x1 at he
        have hr : Canon r.1 := logWrite_canon h (pair_eta _)
        exact (Prod.mk.inj he).1 ▸ hr

theorem visitNode_canon {s : State} {q : Query} {v : Bvh} {n depth inst a0 a1 b0 b1 : Nat} {t : State} {q' : Query}
    {ws : List Work}
    (h : Canon s) (he : visitNode s q v n depth inst a0 a1 b0 b1 = .done t q' ws) : Canon t := by
  unfold visitNode at he
  extract_lets -underBinder va at he
  split at he
  · cases he
  · split at he
    · cases he
    · split at he
      · cases he
      · extract_lets -underBinder q1 cs code word r keyed at he
        have hr : Canon r.1 := logAppend_canon h (pair_eta _)
        obtain ⟨rfl, -, -⟩ := Went.done.inj he
        exact hr

theorem visitChild_canon {s : State} {q : Query} {cw depth inst : Nat} {box : List Nat} {a0 a1 b0 b1 : Nat} {t : State}
    {q' : Query} {ws : List Work}
    (h : Canon s) (he : visitChild s q cw depth inst box a0 a1 b0 b1 = .done t q' ws) : Canon t := by
  unfold visitChild at he
  extract_lets -underBinder c at he
  split at he
  · cases he
    exact h
  · obtain ⟨rfl, -, -⟩ := Went.done.inj he
    exact h

theorem visitLeaf_canon {s : State} {q : Query} {cw inst : Nat} {box is : List Nat} {t : State} {q' : Query} {ws : List Work}
    (h : Canon s) (he : visitLeaf s q cw inst box is = .done t q' ws) : Canon t := by
  unfold visitLeaf at he
  extract_lets -underBinder hit x at he
  obtain ⟨rfl, -, -⟩ := Went.done.inj he
  exact h

theorem visitTri_canon {s : State} {q : Query} {v : Bvh} {i inst sample stop : Nat} {t : State} {q' : Query} {ws : List Work}
    (h : Canon s) (he : visitTri s q v i inst sample stop = .done t q' ws) : Canon t := by
  unfold visitTri at he
  split at he
  · cases he
  · cases he
    exact h
  · extract_lets -underBinder rest at he
    split at he
    · obtain ⟨rfl, -, -⟩ := Went.done.inj he
      exact h
    · extract_lets -underBinder q1 r x4 at he
      have hr : Canon r.1 := logAppend_canon h (pair_eta _)
      split at he
      · obtain ⟨rfl, -, -⟩ := Went.done.inj he
        exact hr
      · obtain ⟨rfl, -, -⟩ := Went.done.inj he
        exact hr

theorem writeSplit_canon {s t : State} {k : Nat} {q q' : Query} {c : SpawnCfg} {x : Split} {bs : List Byte}
    {rest : List (Split × List Byte)} {ws : List Work} (h : Canon s) (he : writeSplit s k q c x bs rest = .done t q' ws) :
    Canon t := by
  unfold writeSplit at he
  split at he
  · cases he
  split at he
  · cases he
  split at he
  · cases he
  dsimp only at he
  split at he
  · cases he
  split at he
  · cases he
  next u hu =>
    obtain ⟨v, hv, hu⟩ := exceptBind_inv hu
    have hheads : Canon u := writeRange_canon (writeRange_canon h hv) hu
    obtain ⟨rfl, -, -⟩ := Went.done.inj he
    refine serveRing_canon ?_
    generalize hw : homeWriteNat (homeWriteNat u _ 8 _) _ 8 _ = w
    have hcounts : Canon w := hw ▸ homeWriteNat_canon (homeWriteNat_canon hheads)
    split
    · refine formRing_canon ?_
      exact hcounts.of_eq rfl rfl
    · exact hcounts.of_eq rfl rfl

theorem emitSplit_canon {s : State} {q : Query} {bs : List Byte} {x : Split} {t : State} {q' : Query} {ws : List Work}
    (h : Canon s) (he : emitSplit s q bs x = .done t q' ws) : Canon t := by
  unfold emitSplit at he
  split at he
  · cases he
  · split at he
    · cases he
    · cases he
      exact h

theorem emitCall_canon {s : State} {k : Nat} {q : Query} {v : Bvh} {kind c inst sample tlo thi : Nat} {log : Bool}
    {t : State} {q' : Query} {ws : List Work}
    (h : Canon s) (he : emitCall s k q v kind c inst sample tlo thi log = .done t q' ws) : Canon t := by
  unfold emitCall at he
  split at he
  · cases he
  · cases he
    exact h
  · extract_lets -underBinder sp at he
    split at he
    next s1 _ _ hx2 =>
      have hs1 : Canon s1 := emitSplit_canon h hx2
      split at he
      · extract_lets -underBinder r at he
        have hr : Canon r.1 := logAppend_canon hs1 (pair_eta _)
        obtain ⟨rfl, -, -⟩ := Went.done.inj he
        exact hr
      · cases he
        exact hs1
    · exact emitSplit_canon h he

theorem visitCover_canon {s : State} {q : Query} {i : Nat} {t : State} {q' : Query} {ws : List Work} (h : Canon s)
    (he : visitCover s q i = .done t q' ws) : Canon t := by
  unfold visitCover at he
  split at he
  · cases he
  · split at he
    · extract_lets -underBinder next at he
      split at he
      · obtain ⟨rfl, -, -⟩ := Went.done.inj he
        exact h
      · extract_lets -underBinder pix at he
        obtain ⟨rfl, -, -⟩ := Went.done.inj he
        exact h

theorem visitFrag_canon {s : State} {k : Nat} {q : Query} {i p : Nat} {t : State} {q' : Query} {ws : List Work}
    (h : Canon s) (he : visitFrag s k q i p = .done t q' ws) : Canon t := by
  unfold visitFrag at he
  split at he
  · cases he
  · split at he
    · extract_lets -underBinder px py at he
      split at he
      · cases he
        exact h
      · extract_lets -underBinder head rec_ sp at he
        exact emitSplit_canon h he

theorem visitReplay_canon {s t : State} {k : Nat} {q q' : Query} {v : Bvh} {i : Nat} {ws : List Work} (h : Canon s)
    (he : visitReplay s k q v i = .done t q' ws) : Canon t := by
  unfold visitReplay at he
  split at he
  · cases he
    exact h
  split at he
  · cases he
    exact h
  split at he
  · cases he
  dsimp only at he
  split at he
  · split at he
    · cases he
    · cases he
      exact h
    · split at he
      · cases he
        exact h
      · cases he
        exact h
  · split at he
    · cases he
    · split at he
      next u _ _ hcall =>
        obtain ⟨rfl, -, -⟩ := Went.done.inj he
        exact emitCall_canon h hcall
      next hnot => exact absurd he (hnot t q' ws)
  · cases he
    exact h

theorem runWork_canon {s : State} {k : Nat} {q : Query} {w : Work} {t : State} {q' : Query} {ws : List Work}
    (h : Canon s) (he : runWork s k q w = .done t q' ws) : Canon t := by
  unfold runWork at he
  extract_lets -underBinder v at he
  split at he
  · exact visitNode_canon h he
  · exact visitChild_canon h he
  · exact visitLeaf_canon h he
  · exact visitTri_canon h he
  · extract_lets -underBinder x1 at he
    exact emitCall_canon h he
  · exact visitReplay_canon h he
  · exact visitCover_canon h he
  · exact visitFrag_canon h he
  · cases he
    exact h

theorem settleWork_canon {s : State} {q : Query} {w : Work} (h : Canon s) : Canon (settleWork s q w) := by
  unfold settleWork
  extract_lets -underBinder s1
  have hs1 : Canon s1 := by
    unfold s1
    split
    · exact settleRange_canon h
    · exact h
  split
  · exact settleRange_canon hs1
  · exact hs1

theorem lookAhead_canon {s : State} {k : Nat} (h : Canon s) : Canon (lookAhead s k) := by
  unfold lookAhead
  split
  · exact h
  · split
    · exact h
    · extract_lets -underBinder s1
      have hs1 : Canon s1 := settleWork_canon h
      split
      · exact hs1
      · split
        · split
          · exact canon_ite (State.setQry_canon (State.fresh_canon hs1 (pair_eta _))) (State.setQry_canon hs1)
          · exact State.setQry_canon hs1
        · exact hs1

theorem stopQuery_canon {s : State} {k : Nat} {q : Query} {cause addr : Nat} (h : Canon s) :
    Canon (stopQuery s k q cause addr) := State.setQry_canon h

theorem afterStep_canon {s : State} {k : Nat} {q : Query} (h : Canon s) : Canon (afterStep s k q) := State.setQry_canon h

theorem stepQuery_canon {s : State} {k : Nat} {q : Query} (h : Canon s) : Canon (stepQuery s k q) := by
  unfold stepQuery
  split
  · split
    next s1 _ _ hx3 =>
      have hs1 : Canon s1 := writeSplit_canon h hx3
      exact afterStep_canon hs1
    · exact State.setQry_canon h
    · exact h
    · exact stopQuery_canon h
  · split
    · exact afterStep_canon h
    · split
      next s1 _ _ hx2 =>
        have hs1 : Canon s1 := runWork_canon (settleWork_canon h) hx2
        exact afterStep_canon hs1
      · exact State.setQry_canon h
      · exact h
      · exact canon_ite (stopQuery_canon h) h

theorem logEnd_canon {s t : State} {q q' : Query} {failed : Bool} (h : Canon s) (he : logEnd s q failed = (t, q')) :
    Canon t := by
  unfold logEnd at he
  split at he
  · cases he
    exact h
  dsimp only at he
  generalize hlog : (if failed then (s, q) else _) = r at he
  have hr : Canon r.1 := by
    rw [← hlog]
    split
    · exact h
    · exact foldl_keeps (fun p : State × Query => Canon p.1) _ _ _ (fun _ _ hp => logAppend_canon hp (pair_eta _)) h
  split at he
  · rw [he] at hr
    exact hr
  · exact logWrite_canon hr he

theorem writeHits_canon {s t : State} {q q' : Query} {failed : Bool} {l : List (Sample × Nat)} (h : Canon s)
    (he : writeHits s q failed l = (t, q')) : Canon t := by
  induction l generalizing s with
  | nil =>
    cases he
    exact h
  | cons e r ih =>
    unfold writeHits at he
    split at he
    · cases he
      exact h
    · split at he
      next u hu => exact ih (writeRange_canon h hu) he
      · cases he
        exact h

theorem writeResult_canon {s : State} {q : Query} {failed : Bool} (h : Canon s) : Canon (writeResult s q failed) :=
  canon_ite h (State.updGrp_canon (invalidateClean_canon h))

theorem completeQuery_canon {s : State} {k : Nat} {q : Query} (h : Canon s) : Canon (completeQuery s k q) := by
  unfold completeQuery
  extract_lets -underBinder failed q1 r r1 s1 x q2 gone s2 s3
  have hr : Canon r.1 := logEnd_canon h (pair_eta _)
  have hr1 : Canon r1.1 := by
    unfold r1
    split
    · exact writeHits_canon hr (pair_eta _)
    · exact hr
  have hs1 : Canon s1 := writeResult_canon hr1
  have hs2 : Canon s2 := canon_ite (domFaultAt_canon hs1) hs1
  have hs3 : Canon s3 := canon_ite (hs2.of_eq rfl rfl) (State.setQry_canon hs2)
  exact settleBlock_canon hs3

theorem execQueryTraversal_keeps {k : Nat} {s : State} (h : Canon s) : KeepsO (execQueryTraversal k s) := by
  unfold execQueryTraversal
  refine finish_keeps ?_ h
  split
  · exact keeps_ite (keeps_upd (fun _ hs1 => stepQuery_canon hs1)) idleM_keeps
  · exact idleM_keeps

theorem execQueryHeldResume_keeps {k : Nat} {s : State} (h : Canon s) : KeepsO (execQueryHeldResume k s) := by
  unfold execQueryHeldResume
  refine finish_keeps ?_ h
  split
  · exact keeps_ite (keeps_upd (fun _ hs1 => stepQuery_canon hs1)) idleM_keeps
  · exact idleM_keeps

theorem execQueryComplete_keeps {k : Nat} {s : State} (h : Canon s) : KeepsO (execQueryComplete k s) := by
  unfold execQueryComplete
  refine finish_keeps ?_ h
  split
  · exact keeps_ite (keeps_upd (fun _ hs1 => completeQuery_canon hs1)) idleM_keeps
  · exact idleM_keeps

theorem execSpawnGroupTimeout_keeps {block bind : Nat} {s : State} (h : Canon s) :
    KeepsO (execSpawnGroupTimeout block bind s) :=
  finish_keeps (keeps_bind onlyIf_keeps fun _ => keeps_upd (fun _ hs1 => formGroup_canon hs1)) h

theorem placeSpawn_canon {s : State} {k : Nat} {x : SpawnGroup} {ck : Nat} (h : Canon s) : Canon (placeSpawn s k x ck) := by
  unfold placeSpawn
  extract_lets -underBinder b blk placed s1 n uid g0 va g1 halted s2 owned
  have hs1 : Canon s1 := growWays_canon (h.of_eq rfl rfl)
  have hs2 : Canon s2 := addGroup_canon hs1
  exact fillCore_canon (hs2.of_eq rfl rfl)

theorem execSpawnGroupPlace_keeps {d : Nat} {s : State} (h : Canon s) : KeepsO (execSpawnGroupPlace d s) := by
  unfold execSpawnGroupPlace
  refine finish_keeps ?_ h
  split
  · exact idleM_keeps
  · split
    · exact idleM_keeps
    · exact keeps_upd (fun _ hs1 => placeSpawn_canon hs1)

theorem alignTargets_keeps {u : Bool} {xs : List Target} : KeepsM (alignTargets u xs) :=
  keeps_get fun _ _ => keeps_bind need_keeps fun _ => need_keeps

theorem readTargets_keeps {u : Bool} {xs : List Target} : KeepsM (readTargets u xs) :=
  keeps_get fun _ _ => keeps_bind need_keeps fun _ => keeps_bind need_keeps fun _ => need_keeps

theorem checkTargets_keeps {u : Bool} {xs : List Target} : KeepsM (checkTargets u xs) :=
  keeps_bind alignTargets_keeps fun _ => readTargets_keeps

theorem settleTargets_canon {xs : List Target} {s : State} (h : Canon s) : Canon (settleTargets xs s) :=
  canon_foldl (fun _ _ hs1 => settleRange_canon hs1) h

theorem setBind_canon {s : State} {b i : Nat} {x : Binding} (h : Canon s) : Canon (setBind s b i x) := State.updBlk_canon h

theorem acceptQuery_canon {s : State} {q : Query} (h : Canon s) : Canon (acceptQuery s q) := by
  unfold acceptQuery
  extract_lets -underBinder b serial s1 k q1 r
  have hs1 : Canon s1 := setBind_canon h
  have hr : Canon r.1 := by
    unfold r
    split
    · exact hs1
    · exact logWrite_canon hs1 (pair_eta _)
  exact State.updGrp_canon (State.setQry_canon hr)

theorem laneIssue_keeps {o : FmtE} {uses : List FieldUse} {body : List Nat → M Unit} (hbody : ∀ x, KeepsM (body x)) :
    KeepsM (laneIssue o uses body) :=
  keeps_get fun _ _ => keeps_ite (keeps_pure _) (keeps_bind checkStale_keeps fun _ => hbody _)

theorem bindChecks_keeps {ts : List Nat} {bind va : Nat} : KeepsM (bindChecks ts bind va) := keeps_get fun _ _ => need_keeps

theorem spawnCheck_keeps {u : Bool} {ts : List Nat} : KeepsM (spawnCheck u ts) := keeps_get fun _ _ => need_keeps

theorem startQueries_canon {o : FmtE} {beam : Bool} {ts : List Nat} {s0 : State} (h : Canon s0) :
    Canon (startQueries o beam ts s0) := canon_foldl (fun _ _ hs => acceptQuery_canon hs) h

theorem queryCore_keeps {o : FmtE} {beam : Bool} : KeepsM (queryCore o beam) := by
  unfold queryCore
  refine laneIssue_keeps (fun _ => ?_)
  refine keeps_get fun _ _ => ?_
  refine keeps_bind alignTargets_keeps fun _ => ?_
  refine keeps_bind readTargets_keeps fun _ => ?_
  extract_lets -underBinder badRec
  refine keeps_bind need_keeps fun _ => ?_
  extract_lets -underBinder badLog
  refine keeps_bind need_keeps fun _ => ?_
  refine keeps_bind bindChecks_keeps fun _ => ?_
  refine keeps_bind spawnCheck_keeps fun _ => ?_
  exact keeps_bind checkPoison_keeps fun _ => keeps_upd (fun _ hs0 => startQueries_canon (settleTargets_canon hs0))

theorem startReplays_canon {o : FmtE} {beam : Bool} {ts : List Nat} {s0 : State} (h : Canon s0) :
    Canon (startReplays o beam ts s0) := canon_foldl (fun _ _ hs => acceptQuery_canon hs) h

theorem rqrCore_keeps {o : FmtE} {beam : Bool} : KeepsM (rqrCore o beam) := by
  unfold rqrCore
  refine laneIssue_keeps (fun _ => ?_)
  refine keeps_get fun _ _ => ?_
  refine keeps_bind alignTargets_keeps fun _ => ?_
  refine keeps_bind readTargets_keeps fun _ => ?_
  extract_lets -underBinder badLog
  refine keeps_bind need_keeps fun _ => ?_
  refine keeps_bind checkTargets_keeps fun _ => ?_
  extract_lets -underBinder badRec
  refine keeps_bind need_keeps fun _ => ?_
  refine keeps_bind bindChecks_keeps fun _ => ?_
  refine keeps_bind spawnCheck_keeps fun _ => ?_
  exact keeps_bind checkPoison_keeps fun _ => keeps_upd (fun _ hs0 => startReplays_canon (settleTargets_canon hs0))

theorem acceptHit_canon {s : State} {g k t attr : Nat} (h : Canon s) : Canon (acceptHit s g k t attr) := by
  unfold acceptHit
  split
  · exact h
  · refine canon_ite h ?_
    extract_lets -underBinder s1
    have hs1 : Canon s1 := by
      unfold s1
      split
      · exact h
      · exact canon_ite (State.setQry_canon h) (canon_ite (State.setQry_canon h) h)
    exact finishSplit_canon hs1

theorem namedSplits_keeps {o : FmtE} {ts : List Nat} : KeepsM (namedSplits o ts) :=
  keeps_get fun _ _ => keeps_bind need_keeps fun _ => keeps_pure _

theorem acceptHits_canon {o : FmtE} {xs : List (Nat × Option Nat)} {s0 : State} (h : Canon s0) :
    Canon (acceptHits o xs s0) := by
  unfold acceptHits
  refine canon_foldl (fun _ _ hs => ?_) h
  split
  · exact acceptHit_canon hs
  · exact hs

theorem rejectHits_canon {xs : List (Nat × Option Nat)} {s : State} (h : Canon s) : Canon (rejectHits xs s) := by
  unfold rejectHits
  refine canon_foldl (fun _ _ hs1 => ?_) h
  split
  · exact finishSplit_canon hs1
  · exact hs1

theorem execHacc_keeps {o : FmtE} {s : State} (h : Canon s) : KeepsO (execHacc o s) := by
  unfold execHacc
  refine finish_keeps ?_ h
  refine laneIssue_keeps (fun _ => ?_)
  refine keeps_bind namedSplits_keeps fun _ => ?_
  refine keeps_bind checkPoison_keeps fun _ => ?_
  refine keeps_get fun _ _ => ?_
  extract_lets -underBinder out
  refine keeps_bind need_keeps fun _ => ?_
  extract_lets -underBinder rest
  have hrest : ∀ x, KeepsM (rest x) := fun _ => keeps_upd (fun _ hs0 => acceptHits_canon hs0)
  exact keeps_ite (keeps_bind beforeRelease_keeps fun _ => hrest ()) (hrest ())

theorem execHrej_keeps {o : FmtE} {s : State} (h : Canon s) : KeepsO (execHrej o s) := by
  unfold execHrej
  refine finish_keeps ?_ h
  refine laneIssue_keeps (fun _ => ?_)
  refine keeps_bind namedSplits_keeps fun _ => ?_
  refine keeps_bind checkPoison_keeps fun _ => ?_
  extract_lets -underBinder rest
  have hrest : ∀ x, KeepsM (rest x) := fun _ => keeps_upd (fun _ hs1 => rejectHits_canon hs1)
  exact keeps_ite (keeps_bind beforeRelease_keeps fun _ => hrest ()) (hrest ())

theorem takeSpawn_canon {i : Nat} {c : SpawnCfg} {core : Nat} {s : State} (h : Canon s) : Canon (takeSpawn i c core s) :=
  homeWriteNat_canon (setBind_canon h)

theorem spcfgCore_keeps {o : FmtE} : KeepsM (spcfgCore o) := by
  unfold spcfgCore
  refine keeps_get fun _ _ => ?_
  refine keeps_ite (keeps_pure _) ?_
  refine keeps_bind checkStale_keeps fun _ => ?_
  extract_lets -underBinder va
  refine keeps_bind checkTargets_keeps fun _ => ?_
  extract_lets -underBinder bs
  refine keeps_bind need_keeps fun _ => ?_
  extract_lets -underBinder c
  refine keeps_bind checkTargets_keeps fun _ => ?_
  refine keeps_bind need_keeps fun _ => ?_
  split
  · exact trapM_keeps
  · refine keeps_bind checkPoison_keeps fun _ => ?_
    exact keeps_ite (keeps_upd (fun _ hs0 => takeSpawn_canon (settleTargets_canon hs0))) stallM_keeps

theorem execBvhref_keeps {o : FmtE} {s : State} (h : Canon s) : KeepsO (execBvhref o s) := by
  unfold execBvhref
  refine finish_keeps ?_ h
  refine keeps_get fun _ _ => ?_
  refine keeps_ite (keeps_pure _) ?_
  refine keeps_bind checkStale_keeps fun _ => ?_
  extract_lets -underBinder va
  refine keeps_bind checkTargets_keeps fun _ => ?_
  extract_lets -underBinder bs
  refine keeps_bind need_keeps fun _ => ?_
  exact keeps_bind checkPoison_keeps fun _ => keeps_upd (fun _ hs0 => setBind_canon (settleTargets_canon hs0))

theorem execCover_keeps {o : FmtE} {s : State} (h : Canon s) : KeepsO (execCover o s) := by
  unfold execCover
  refine finish_keeps ?_ h
  refine keeps_get fun _ _ => ?_
  extract_lets -underBinder uses
  refine keeps_ite (keeps_pure _) ?_
  refine keeps_bind checkStale_keeps fun _ => ?_
  extract_lets -underBinder va
  refine keeps_bind checkTargets_keeps fun _ => ?_
  extract_lets -underBinder bs
  refine keeps_bind need_keeps fun _ => ?_
  refine keeps_bind spawnCheck_keeps fun _ => ?_
  exact keeps_bind checkPoison_keeps fun _ => keeps_upd (fun _ hs2 => acceptQuery_canon (settleTargets_canon hs2))

theorem triemOne_canon {s t : State} {va pa : Nat} {entry : Option (List Byte)} {n : Nat} (h : Canon s)
    (he : triemOne s va pa entry = (t, n)) : Canon t := by
  have hfirst : Canon (triemOne s va pa entry).1 := by
    unfold triemOne
    extract_lets -underBinder u cap cnt drop
    have hu : Canon u := settleLine_canon h
    have hdrop : ∀ s, Canon s → Canon (drop s).1 := fun _ hs => homeWriteNat_canon hs
    split
    · exact hdrop u hu
    · split
      · exact hdrop u hu
      · split
        next w hw => exact homeWriteNat_canon (writeRange_canon hu hw)
        · exact hdrop _ (structFault_canon hu)
  rwa [he] at hfirst

theorem appendTris_canon {o : FmtE} {ts : List Nat} {s : State} (h : Canon s) : Canon (appendTris o ts s) := by
  unfold appendTris
  dsimp only
  refine putEach_canon (foldl_keeps (fun p : State × List (Nat × Nat) => Canon p.1) _ _ _ (fun p t hp => ?_) h)
  split
  · exact triemOne_canon hp (pair_eta _)
  · exact hp

theorem triemCore_keeps {o : FmtE} : KeepsM (triemCore o) := by
  unfold triemCore
  refine laneIssue_keeps (fun _ => ?_)
  refine keeps_get fun _ _ => ?_
  refine keeps_bind checkTargets_keeps fun _ => ?_
  extract_lets -underBinder bad
  refine keeps_bind need_keeps fun _ => ?_
  exact keeps_bind checkPoison_keeps fun _ => keeps_upd (fun _ hs0 => appendTris_canon hs0)

end Sys2Proof.Machine
end

section
/-! What keeps the canonical forms: control flow, the matrix engine and messages. One lemma for each
operation of the model that gives a state, in the model's order; a lemma follows the branches of its operation. -/

namespace Sys2Proof.Machine

theorem checkField_keeps {u : Bool} {l : BitVec 24} {slot : BitVec 3} {rest : M Unit} (hrest : KeepsM rest) :
    KeepsM (checkField u l slot rest) := keeps_get fun _ _ => keeps_bind checkTarget_keeps fun _ => keepCount_keeps hrest

theorem checkOffset_keeps {u : Bool} {off : Nat} {rest : M Unit} (hrest : KeepsM rest) : KeepsM (checkOffset u off rest) :=
  keeps_bind checkTarget_keeps fun _ => keepCount_keeps hrest

theorem checkRc_keeps {o : FmtC} {rest : M Unit} (hrest : KeepsM rest) : KeepsM (checkRc o rest) :=
  keeps_ite (checkField_keeps hrest) hrest

theorem needDepth_keeps {n : Nat} : KeepsM (needDepth n) := keeps_get fun _ _ => need_keeps

theorem resume_canon {s : State} {g : Nat} (h : Canon s) : Canon (resume s g) := State.updGrp_canon h

theorem braCore_keeps {o : FmtC} : KeepsM (braCore o) := by
  unfold braCore
  refine checkField_keeps ?_
  refine checkRc_keeps ?_
  refine keeps_get fun _ _ => ?_
  extract_lets -underBinder t taken fall
  refine keeps_ite (keeps_ite (keeps_upd (fun _ hs1 => State.updMe_canon hs1)) (keeps_pure _)) ?_
  refine keeps_ite (keeps_pure _) ?_
  refine keeps_ite (keeps_upd (fun _ hs1 => State.updMe_canon hs1)) ?_
  refine keeps_bind need_keeps fun _ => ?_
  exact keeps_bind needDepth_keeps fun _ => keeps_upd (fun _ hs1 => State.updMe_canon hs1)

theorem brxCore_keeps {o : FmtC} : KeepsM (brxCore o) := by
  have hgo : ∀ f : State → Group → Group, KeepsM (upd fun s => s.updMe (f s)) :=
    fun _ => keeps_upd fun _ hs => State.updMe_canon hs
  have htargets : ∀ (l : List Nat) (m : M Unit), KeepsM m → KeepsM (l.foldr (checkOffset false) m) := fun l m hm => by
    induction l with
    | nil => exact hm
    | cons n l ih => exact checkOffset_keeps ih
  unfold brxCore
  refine keeps_get fun s _ => keeps_ite (keeps_ite ?_ (checkRc_keeps (keeps_pure _))) (htargets _ _ (checkRc_keeps ?_))
  · exact checkOffset_keeps (checkRc_keeps (keeps_bind checkPoison_keeps fun _ => hgo _))
  · refine keeps_ite (keeps_pure _) (keeps_ite ?_ (keeps_bind need_keeps fun _ => hgo _))
    exact keeps_bind need_keeps fun _ => keeps_bind needDepth_keeps fun _ => keeps_bind need_keeps fun _ => hgo _

theorem joinCore_keeps : KeepsM joinCore := by
  unfold joinCore
  refine keeps_upd (fun _ hs => ?_)
  refine canon_ite ?_ hs
  split
  · exact resume_canon (State.updMe_canon hs)
  · exact hs

theorem afterLeave_canon {s : State} (h : Canon s) : Canon (afterLeave s) := resume_canon h

theorem exitThreads_canon {last : Bool} {p : Mask} {s : State} (h : Canon s) : Canon (exitThreads last p s) :=
  canon_ite (retireGroup_canon h) (afterLeave_canon (State.updMe_canon h))

theorem exitCore_keeps {o : FmtC} : KeepsM (exitCore o) := by
  unfold exitCore
  refine keeps_get fun _ _ => ?_
  extract_lets -underBinder p
  refine keeps_ite (keeps_pure _) ?_
  refine keeps_bind weltBudget_keeps fun _ => ?_
  extract_lets -underBinder rest
  have hrest : ∀ x, KeepsM (rest x) :=
    fun _ => keeps_ite stallM_keeps (keeps_upd (fun _ hs1 => exitThreads_canon (finishOf_canon hs1)))
  exact keeps_ite (keeps_bind needReads_keeps fun _ => hrest ()) (hrest ())

theorem callTo_keeps {p : Mask} {t : Nat} {k : List FieldUse} : KeepsM (callTo p t k) := by
  unfold callTo
  refine keeps_ite (keeps_pure _) ?_
  refine keeps_bind needDepth_keeps fun _ => ?_
  exact keeps_bind checkPoison_keeps fun _ => keeps_upd (fun _ hs => State.updMe_canon hs)

theorem callCore_keeps {o : FmtC} : KeepsM (callCore o) := checkField_keeps (keeps_get fun _ _ => callTo_keeps)

theorem callIndCore_keeps {o : FmtC} : KeepsM (callIndCore o) := keeps_get fun _ _ => checkOffset_keeps callTo_keeps

theorem retCore_keeps {o : FmtC} : KeepsM (retCore o) := by
  unfold retCore
  refine keeps_get fun _ _ => ?_
  extract_lets -underBinder p
  refine keeps_ite (keeps_pure _) ?_
  split
  · exact exitCore_keeps
  · exact keeps_upd (fun _ hs1 => afterLeave_canon (State.updMe_canon hs1))

theorem loopCore_keeps {o : FmtC} : KeepsM (loopCore o) := by
  unfold loopCore
  refine checkField_keeps ?_
  refine keeps_get fun _ _ => ?_
  exact keeps_ite (keeps_pure _) (keeps_bind checkPoison_keeps fun _ => keeps_upd (fun _ hs1 => State.updMe_canon hs1))

theorem plnCore_keeps {o : FmtC} : KeepsM (plnCore o) := by
  unfold plnCore
  refine keeps_get fun s _ => ?_
  extract_lets -underBinder ts v bad
  refine keeps_bind need_keeps fun _ => keeps_bind checkPoison_keeps fun _ => keeps_upd fun s hs => ?_
  have hplanes : Canon (s.updMe fun x => setPlanes x (ts.map fun t => (t, v t))) := State.updMe_canon hs
  exact hplanes.of_eq rfl rfl

theorem plngCore_keeps {o : FmtC} : KeepsM (plngCore o) := by
  unfold plngCore
  refine keeps_get fun _ _ => ?_
  refine keeps_ite (keeps_pure _) ?_
  extract_lets -underBinder v
  refine keeps_bind need_keeps fun _ => ?_
  exact keeps_bind checkPoison_keeps fun _ => keeps_upd (fun _ hs1 => State.updMe_canon hs1)

theorem blockDone_keeps {w : Wait} : KeepsM (blockDone w) := keeps_upd (fun _ hs => blockOn_canon hs)

theorem sleepCore_keeps {o : FmtC} : KeepsM (sleepCore o) := by
  unfold sleepCore
  refine keeps_get fun _ _ => ?_
  exact keeps_ite (keeps_pure _) (keeps_bind checkPoison_keeps fun _ => keeps_ite (keeps_pure _)
    (keeps_ite blockDone_keeps blockDone_keeps))

theorem sleepTokCore_keeps {o : FmtC} : KeepsM (sleepTokCore o) := by
  unfold sleepTokCore
  refine keeps_get fun _ _ => ?_
  refine keeps_ite (keeps_pure _) ?_
  extract_lets -underBinder t
  refine keeps_bind need_keeps fun _ => ?_
  refine keeps_bind checkPoison_keeps fun _ => ?_
  split
  · exact keeps_pure _
  · exact keeps_ite (keeps_pure _) (keeps_bind raiseCopyWait_keeps fun _ => keeps_ite stallM_keeps (keeps_ite
      (keeps_pure _) blockHere_keeps))

theorem swapOut_canon {s : State} {g : Nat} (h : Canon s) : Canon (swapOut s g) := by
  unfold swapOut
  extract_lets -underBinder x
  split
  · exact State.updGrp_canon (takeTrack_canon (State.updGrp_canon h))
  · exact h

theorem yieldCore_keeps {o : FmtC} : KeepsM (yieldCore o) :=
  keeps_get fun _ _ => keeps_ite (keeps_upd (fun _ hs1 => swapOut_canon hs1)) (keeps_pure _)

theorem softTrap_keeps {o : FmtC} {cause : Nat} : KeepsM (softTrap o cause) :=
  keeps_get fun _ _ => keeps_ite (keeps_pure _) trapM_keeps

theorem arrive_canon {s : State} {n : Nat} (h : Canon s) : Canon (arrive s n) := by
  unfold arrive
  exact barChange_canon (State.updMe_canon (doRelease_canon h))

theorem await_canon {s : State} {n : Nat} (h : Canon s) : Canon (await s n) := by
  unfold await
  extract_lets -underBinder g x phase pend target s1 s2 s3 l
  have hs1 : Canon s1 := State.updMe_canon h
  have hs2 : Canon s2 := doAcquire_canon (sampleAllOwn_canon hs1)
  have hs3 : Canon s3 := blockOn_canon hs2
  exact canon_ite hs2 (canon_ite (passToken_canon hs3) hs3)

theorem barrier_keeps {o : FmtC} {body : M Unit} (hbody : KeepsM body) : KeepsM (barrier o body) :=
  keeps_get fun _ _ => keeps_ite hbody (keeps_pure _)

theorem execBara_keeps {o : FmtC} {s : State} (h : Canon s) : KeepsO (execBara o s) :=
  finish_keeps (barrier_keeps (keeps_bind beforeRelease_keeps fun _ => keeps_upd (fun _ hs1 => arrive_canon hs1))) h

theorem execBarw_keeps {o : FmtC} {s : State} (h : Canon s) : KeepsO (execBarw o s) :=
  finish_keeps (barrier_keeps (keeps_bind needReads_keeps fun _ => keeps_upd (fun _ hs1 => await_canon hs1))) h

theorem execBarx_keeps {o : FmtC} {s : State} (h : Canon s) : KeepsO (execBarx o s) :=
  finish_keeps (barrier_keeps (keeps_bind beforeRelease_keeps fun _ => keeps_upd (fun _ hs1 => await_canon (arrive_canon hs1)))) h

theorem bariCore_keeps {o : FmtC} : KeepsM (bariCore o) :=
  keeps_get fun _ _ => keeps_bind checkPoison_keeps fun _ => keeps_upd (fun _ hs1 => barChange_canon hs1)

theorem State.setMat_canon {s : State} {k : Nat} {o : MatOp} (h : Canon s) : Canon (s.setMat k o) := h.of_eq rfl rfl

theorem matToken_keeps {o : FmtE} : KeepsM (matToken o) :=
  keeps_get fun _ _ => keeps_bind need_keeps fun _ => keeps_bind checkPoison_keeps fun _ => keeps_pure _

theorem waitMat_keeps {l : List (Nat × MatOp)} : KeepsM (waitMat l) := by
  unfold waitMat
  refine keeps_get fun _ _ => ?_
  split
  · exact trapM_keeps
  · exact keeps_ite (keeps_pure _) stallM_keeps

theorem execMwait_keeps {o : FmtE} {s : State} (h : Canon s) : KeepsO (execMwait o s) :=
  finish_keeps (guarded_keeps (keeps_bind matToken_keeps fun _ => keeps_get fun _ _ => waitMat_keeps)) h

theorem execMwaitTest_keeps {o : FmtE} {s : State} (h : Canon s) : KeepsO (execMwaitTest o s) :=
  finish_keeps (guarded_keeps (keeps_bind matToken_keeps fun _ => keeps_upd (fun _ hs1 => State.updMe_canon hs1))) h

theorem matDone_canon {s : State} {k : Nat} {o : MatOp} (h : Canon s) : Canon (matDone s k o) :=
  canon_ite (h.of_eq rfl rfl) (State.updBlk_canon (h.of_eq rfl rfl))

theorem settleEmpty_canon {s : State} {b k : Nat} (h : Canon s) : Canon (settleEmpty s b k) := by
  induction k generalizing s with
  | zero => exact h
  | succ k ih =>
    unfold settleEmpty
    split
    · exact ih (matDone_canon h)
    · exact h

theorem completeMat_canon {s : State} {k : Nat} {o : MatOp} (h : Canon s) : Canon (completeMat s k o) :=
  settleBlock_canon (settleEmpty_canon (matDone_canon h))

theorem stopMat_canon {s : State} {k : Nat} {o : MatOp} {row : Nat} {f : Fail} (h : Canon s) : Canon (stopMat s k o row f) :=
  canon_ite (State.setMat_canon h) (domFaultAt_canon (State.setMat_canon h))

theorem spaceSettle_canon {s : State} {o : MatOp} {spc a n : Nat} (h : Canon s) : Canon (spaceSettle s o spc a n) :=
  canon_ite (settleRange_canon h) h

theorem spaceWrite_canon {s : State} {o : MatOp} {spc a : Nat} {bs : List Byte} {t : State} (h : Canon s)
    (he : spaceWrite s o spc a bs = .ok t) : Canon t := by
  unfold spaceWrite at he
  split at he
  · cases he
    exact State.updBlk_canon h
  · obtain ⟨_, -, he⟩ := exceptBind_inv he
    cases he
    exact writeParts_canon (dropL1Range_canon h)
  · extract_lets -underBinder r ps at he
    split at he
    · cases he
    · replace he := Except.ok.inj he
      obtain rfl := he
      exact writeParts_canon (dropL1Range_canon h)

theorem fetchInto_canon {s : State} {op k : Nat} (h : Canon s) : Canon (fetchInto s op k) := by
  unfold fetchInto
  split
  · exact h
  · refine canon_ite h ?_
    extract_lets -underBinder s1
    have hs1 : Canon s1 := canon_foldl (fun _ _ hs2 => spaceSettle_canon hs2) h
    split
    · exact hs1
    · split
      · exact State.setMat_canon hs1
      · exact State.setMat_canon (State.fresh_canon hs1 (pair_eta _))

theorem engineConverged_keeps : KeepsM engineConverged := keeps_get fun _ _ => need_keeps

theorem checkOwner_keeps {multiplies : Bool} {tile : Nat} {w64 : Bool} : KeepsM (checkOwner multiplies tile w64) :=
  keeps_get fun _ _ => need_keeps

theorem checkSp_keeps {bytes : List Nat} : KeepsM (checkSp bytes) := by
  unfold checkSp
  refine keeps_get fun _ _ => ?_
  split
  · exact uniTrap_keeps
  · exact keeps_pure _

theorem checkWsWriter_keeps {o : MatOp} : KeepsM (checkWsWriter o) := keeps_get fun _ _ => need_keeps

theorem enterTable_canon {s : State} {o : MatOp} (h : Canon s) : Canon (enterTable s o) := State.setMat_canon h

theorem queueMat_canon {e : FmtE} {o : MatOp} {s : State} (h : Canon s) : Canon (queueMat e o s) :=
  settleEmpty_canon (putK_canon (enterTable_canon (State.updBlk_canon h)))

theorem enterMat_keeps {i : Instr} {e : FmtE} {o : MatOp} : KeepsM (enterMat i e o) := by
  unfold enterMat
  refine keeps_get fun _ _ => ?_
  exact keeps_bind checkPoison_keeps fun _ => keeps_ite (keeps_upd (fun _ hs1 => queueMat_canon hs1)) stallM_keeps

theorem mmCore_keeps {kind : Nat} {i : Instr} {o : FmtE} : KeepsM (mmCore kind i o) := by
  unfold mmCore
  refine guarded_keeps ?_
  refine keeps_bind engineConverged_keeps fun _ => ?_
  refine keeps_get fun _ _ => ?_
  extract_lets -underBinder op
  refine keeps_bind need_keeps fun _ => ?_
  refine keeps_bind checkOwner_keeps fun _ => ?_
  refine keeps_bind need_keeps fun _ => ?_
  refine keeps_bind need_keeps fun _ => ?_
  refine keeps_bind fetchRecord_keeps fun _ => ?_
  refine keeps_bind fetchRecord_keeps fun _ => ?_
  extract_lets -underBinder ra rb
  refine keeps_bind need_keeps fun _ => ?_
  refine keeps_bind need_keeps fun _ => ?_
  extract_lets -underBinder rest
  have hrest : ∀ x, KeepsM (rest x) := fun _ => keeps_ite (keeps_bind checkSp_keeps fun _ => enterMat_keeps) enterMat_keeps
  exact keeps_ite (keeps_bind checkSp_keeps fun _ => hrest ()) (hrest ())

theorem aczCore_keeps {o : FmtE} : KeepsM (aczCore o) := by
  unfold aczCore
  refine guarded_keeps ?_
  refine keeps_bind engineConverged_keeps fun _ => ?_
  exact keeps_get fun _ _ => keeps_bind checkOwner_keeps fun _ => enterMat_keeps

theorem acldCore_keeps {o : FmtE} : KeepsM (acldCore o) := by
  unfold acldCore
  refine guarded_keeps ?_
  refine keeps_bind engineConverged_keeps fun _ => ?_
  refine keeps_get fun _ _ => ?_
  extract_lets -underBinder op
  refine keeps_bind checkOwner_keeps fun _ => ?_
  refine keeps_bind need_keeps fun _ => ?_
  extract_lets -underBinder tr rest
  have hrest : ∀ x, KeepsM (rest x) := fun _ => by
    unfold rest
    refine keeps_bind (keeps_upd (fun _ hs1 => spaceSettle_canon hs1)) fun _ => ?_
    refine keeps_get fun _ _ => ?_
    extract_lets -underBinder rest1
    have hrest1 : ∀ x, KeepsM (rest1 x) :=
      fun _ => keeps_bind need_keeps fun _ => keeps_ite (keeps_bind checkSp_keeps fun _ => enterMat_keeps) enterMat_keeps
    split
    · exact keeps_bind (keeps_pure _) fun _ => hrest1 _
    · exact keeps_bind uniTrap_keeps fun _ => keeps_bind (keeps_pure _) fun _ => hrest1 _
  exact keeps_ite (keeps_bind stallM_keeps fun _ => hrest ()) (hrest ())

theorem acstCore_keeps {o : FmtE} : KeepsM (acstCore o) := by
  unfold acstCore
  refine guarded_keeps ?_
  refine keeps_bind engineConverged_keeps fun _ => ?_
  refine keeps_get fun _ _ => ?_
  split
  · exact trapM_keeps
  · extract_lets -underBinder op
    refine keeps_bind need_keeps fun _ => ?_
    refine keeps_ite ?_ ?_
    · extract_lets -underBinder rest
      have hrest : ∀ x, KeepsM (rest x) := fun _ => keeps_bind checkWsWriter_keeps fun _ => enterMat_keeps
      exact keeps_ite (keeps_bind checkSp_keeps fun _ => hrest ()) (hrest ())
    · refine keeps_bind fetchRecord_keeps fun _ => ?_
      extract_lets -underBinder r
      refine keeps_bind need_keeps fun _ => ?_
      extract_lets -underBinder rest
      have hrest : ∀ x, KeepsM (rest x) := fun _ => keeps_bind checkWsWriter_keeps fun _ => enterMat_keeps
      exact keeps_ite (keeps_bind checkSp_keeps fun _ => hrest ()) (hrest ())

theorem needTile_keeps {tile : Nat} {u : Bool} {ts : List Nat} : KeepsM (needTile tile u ts) :=
  keeps_get fun _ _ => need_keeps

theorem mstatrCore_keeps {o : FmtE} : KeepsM (mstatrCore o) :=
  guarded_keeps (keeps_bind needTile_keeps fun _ => keeps_upd (fun _ hs => State.updMe_canon (putK_canon hs)))

theorem readElems_canon {o : FmtE} {ts : List Nat} {s : State} (h : Canon s) : Canon (readElems o ts s) :=
  State.updMe_canon h

theorem acrdCore_keeps {o : FmtE} : KeepsM (acrdCore o) := by
  unfold acrdCore
  refine keeps_get fun _ _ => ?_
  extract_lets -underBinder ts vi tile
  refine keeps_ite (keeps_pure _) ?_
  refine keeps_bind checkStale_keeps fun _ => ?_
  refine keeps_bind needTile_keeps fun _ => ?_
  refine keeps_bind checkPoison_keeps fun _ => ?_
  exact keeps_ite stallM_keeps (keeps_bind need_keeps fun _ => keeps_upd (fun _ hs1 => readElems_canon hs1))

theorem sliceCore_keeps {o : FmtE} : KeepsM (sliceCore o) :=
  keeps_get fun _ _ => keeps_bind checkSources_keeps fun _ => keeps_upd (fun _ hs1 => putEach_canon hs1)

theorem grantPass_canon {s : State} {quad k : Nat} (h : Canon s) : Canon (grantPass s quad k) := h.of_eq rfl rfl

theorem execPassGrant_keeps {quad : Nat} {s : State} (h : Canon s) : KeepsO (execPassGrant quad s) := by
  unfold execPassGrant
  refine finish_keeps ?_ h
  split
  · exact idleM_keeps
  · exact keeps_upd (fun _ hs1 => grantPass_canon hs1)

theorem commitStep_canon {s : State} {k : Nat} {o : MatOp} (h : Canon s) : Canon (commitStep s k o) := by
  unfold commitStep
  extract_lets -underBinder s1 r
  have hs1 : Canon s1 := canon_foldl (fun _ _ hs2 => canon_foldl (fun _ _ hs3 => spaceSettle_canon hs3) hs2) h
  split
  · exact stopMat_canon hs1
  · extract_lets -underBinder t
    split
    · exact stopMat_canon hs1
    · exact canon_ite (State.setMat_canon (State.updBlk_canon hs1)) (completeMat_canon (State.updBlk_canon hs1))

theorem execKStepCommit_keeps {op : Nat} {s : State} (h : Canon s) : KeepsO (execKStepCommit op s) := by
  unfold execKStepCommit
  refine finish_keeps ?_ h
  split
  · exact idleM_keeps
  · exact keeps_bind onlyIf_keeps fun _ => keeps_upd (fun _ hs1 => commitStep_canon hs1)

theorem setTile_canon {s : State} {b tile : Nat} {t : Tile} (h : Canon s) : Canon (setTile s b tile t) :=
  State.updBlk_canon h

theorem writeOut_canon {s t : State} {o : MatOp} {ps : List OutPart} {i : Nat} {x : Option (Nat × OutStop)} (h : Canon s)
    (he : writeOut s o ps i = (t, x)) : Canon t := by
  induction ps generalizing s i with
  | nil =>
    cases he
    exact h
  | cons p r ih =>
    unfold writeOut at he
    split at he
    · cases he
      exact h
    · split at he
      · cases he
        exact h
      · split at he
        next u hu => exact ih (canon_foldlM (fun _ _ _ hs he => spaceWrite_canon hs he) h hu) he
        · cases he
          exact h

theorem stopAssist_canon {s : State} {k : Nat} {o : MatOp} (h : Canon s) : Canon (stopAssist s k o) :=
  queueTrap_canon (State.setMat_canon h)

theorem runTransfer_canon {s : State} {k : Nat} {o : MatOp} (h : Canon s) : Canon (runTransfer s k o) := by
  unfold runTransfer
  split
  · exact completeMat_canon (setTile_canon h)
  · extract_lets -underBinder s1
    have hs1 : Canon s1 := spaceSettle_canon h
    split
    · exact completeMat_canon (setTile_canon hs1)
    · exact stopMat_canon (State.updBlk_canon hs1)
  · extract_lets -underBinder r
    have hr : Canon r.1 := writeOut_canon h (pair_eta _)
    split
    · exact completeMat_canon hr
    · exact stopAssist_canon hr
    · exact stopMat_canon hr

theorem finishAssist_canon {s : State} {quad : Nat} (h : Canon s) : Canon (finishAssist s quad) := by
  unfold finishAssist
  split
  · exact h
  · split
    next u hu =>
      exact State.setMat_canon (canon_foldlM (fun _ _ _ hs he => spaceWrite_canon hs he) h hu)
    · exact stopMat_canon h

theorem execTransferComplete_keeps {op : Nat} {s : State} (h : Canon s) : KeepsO (execTransferComplete op s) := by
  unfold execTransferComplete
  refine finish_keeps ?_ h
  split
  · exact idleM_keeps
  · exact keeps_bind onlyIf_keeps fun _ => keeps_upd (fun _ hs1 => runTransfer_canon hs1)

theorem State.setPort_canon {s : State} {k : Nat} {p : Port} (h : Canon s) : Canon (s.setPort k p) := h.of_eq rfl rfl

theorem wakeRecv_canon {s : State} {tok : Nat} (h : Canon s) : Canon (wakeRecv s tok) :=
  canon_foldl (fun _ _ hs1 => makeReady_canon hs1) h

theorem completeRecv_canon {s : State} {k die port : Nat} {r : Recv} {m : Msg} (h : Canon s) :
    Canon (completeRecv s k die port r m) := by
  unfold completeRecv
  extract_lets -underBinder u p w
  have hu : Canon u := by
    unfold u
    split
    next v hv => exact writeRange_canon h hv
    · exact domFault_canon h
  exact wakeRecv_canon (State.setPort_canon hu)

theorem deliver_canon {s : State} {die : Nat} {x : Packet} (h : Canon s) : Canon (deliver s die x) := by
  unfold deliver
  extract_lets -underBinder k p
  split
  · exact completeRecv_canon h
  · exact canon_ite (domFault_canon h) (State.setPort_canon h)

theorem sendPacket_canon {o : FmtE} {bs : List Byte} {s : State} (h : Canon s) : Canon (sendPacket o bs s) :=
  h.of_eq rfl rfl

theorem sendCore_keeps {o : FmtE} : KeepsM (sendCore o) := by
  unfold sendCore
  refine keeps_get fun _ _ => ?_
  refine keeps_ite (keeps_pure _) ?_
  refine keeps_bind checkStale_keeps fun _ => ?_
  extract_lets -underBinder dest va n
  refine keeps_bind need_keeps fun _ => ?_
  refine keeps_bind need_keeps fun _ => ?_
  refine keeps_bind need_keeps fun _ => ?_
  refine keeps_bind structs_keeps fun _ => ?_
  refine keeps_bind checkPoison_keeps fun _ => ?_
  refine keeps_ite stallM_keeps ?_
  refine keeps_bind beforeRelease_keeps fun _ => ?_
  refine keeps_bind (keeps_upd (fun _ hs1 => eRelease_canon hs1)) fun _ => ?_
  refine keeps_bind (keeps_upd (fun _ hs1 => settleRange_canon hs1)) fun _ => ?_
  refine keeps_get fun _ _ => ?_
  split
  · exact trapM_keeps
  · exact keeps_upd (fun _ hs2 => sendPacket_canon hs2)

theorem postRecv_canon {o : FmtE} {va : Nat} {s : State} (h : Canon s) : Canon (postRecv o va s) := by
  unfold postRecv
  extract_lets -underBinder d port k p r m left u v
  have hu : Canon u := State.setPort_canon h
  have hv : Canon v := by
    unfold v
    cases m with
    | none => exact hu
    | some m => exact completeRecv_canon hu
  exact putK_canon hv

theorem recvpCore_keeps {o : FmtE} : KeepsM (recvpCore o) := by
  unfold recvpCore
  refine keeps_get fun _ _ => ?_
  refine keeps_ite (keeps_pure _) ?_
  refine keeps_bind checkStale_keeps fun _ => ?_
  extract_lets -underBinder va
  refine keeps_bind need_keeps fun _ => ?_
  refine keeps_bind structs_keeps fun _ => ?_
  exact keeps_bind checkPoison_keeps fun _ => keeps_ite stallM_keeps (keeps_upd (fun _ hs1 => postRecv_canon hs1))

theorem tokenRecv_keeps {o : FmtE} : KeepsM (tokenRecv o) := by
  unfold tokenRecv
  refine keeps_get fun _ _ => ?_
  extract_lets -underBinder t
  split
  · exact keeps_pure _
  · exact trapM_keeps

theorem execRecvw_keeps {o : FmtE} {s : State} (h : Canon s) : KeepsO (execRecvw o s) := by
  unfold execRecvw
  refine finish_keeps ?_ h
  refine keeps_get fun _ _ => ?_
  refine keeps_ite (keeps_pure _) ?_
  refine keeps_bind checkStale_keeps fun _ => ?_
  refine keeps_bind tokenRecv_keeps fun _ => ?_
  refine keeps_bind checkPoison_keeps fun _ => ?_
  exact keeps_ite blockHere_keeps (keeps_upd (fun _ hs2 => eAcquire_canon (putK_canon hs2)))

theorem probeAnswer_canon {o : FmtE} {found : Option Msg} {s : State} (h : Canon s) : Canon (probeAnswer o found s) := by
  unfold probeAnswer
  extract_lets -underBinder s1
  have hs1 : Canon s1 := State.updMe_canon h
  split
  · exact putK_canon (State.updMe_canon h)
  · exact putK_canon (State.fresh_canon (State.updMe_canon h) (pair_eta _))

theorem execProbe_keeps {o : FmtE} {s : State} (h : Canon s) : KeepsO (execProbe o s) := by
  unfold execProbe
  refine finish_keeps ?_ h
  refine keeps_get fun _ _ => ?_
  refine keeps_ite (keeps_pure _) ?_
  refine keeps_bind checkStale_keeps fun _ => ?_
  refine keeps_bind need_keeps fun _ => ?_
  exact keeps_bind checkPoison_keeps fun _ => keeps_upd (fun _ hs2 => probeAnswer_canon hs2)

theorem execProbeTok_keeps {o : FmtE} {s : State} (h : Canon s) : KeepsO (execProbeTok o s) := by
  unfold execProbeTok
  refine finish_keeps ?_ h
  refine keeps_get fun _ _ => ?_
  refine keeps_ite (keeps_pure _) ?_
  refine keeps_bind checkStale_keeps fun _ => ?_
  refine keeps_bind tokenRecv_keeps fun _ => ?_
  exact keeps_bind checkPoison_keeps fun _ => keeps_upd (fun _ hs2 => putK_canon (State.updMe_canon hs2))

theorem dropPacket_canon {s : State} {k : Nat} {x : Packet} (h : Canon s) : Canon (dropPacket s k x) :=
  domFault_canon (State.updDie_canon (h.of_eq rfl rfl))

theorem hop_canon {k : Nat} {x : Packet} {p : Nat} {s : State} (h : Canon s) : Canon (hop k x p s) := h.of_eq rfl rfl

theorem execRingHop_keeps {packet : Nat} {s : State} (h : Canon s) : KeepsO (execRingHop packet s) := by
  unfold execRingHop
  refine finish_keeps ?_ h
  split
  · exact idleM_keeps
  · split
    · exact keeps_upd (fun _ hs1 => hs1.of_eq rfl rfl)
    · refine keeps_bind onlyIf_keeps fun _ => ?_
      refine keeps_ite (keeps_upd (fun _ hs1 => dropPacket_canon hs1)) ?_
      split
      · exact idleM_keeps
      · exact keeps_upd (fun _ hs1 => hop_canon hs1)

theorem execMessageArrival_keeps {packet : Nat} {s : State} (h : Canon s) : KeepsO (execMessageArrival packet s) := by
  unfold execMessageArrival
  refine finish_keeps ?_ h
  split
  · exact idleM_keeps
  · refine keeps_bind onlyIf_keeps fun _ => ?_
    exact keeps_ite (keeps_upd (fun _ hs1 => dropPacket_canon hs1)) (keeps_upd (fun _ hs1 => deliver_canon (hs1.of_eq rfl rfl)))

end Sys2Proof.Machine
end

section
/-! What keeps the canonical forms: system instructions, scheduling and pre-emption. One lemma for each
operation of the model that gives a state, in the model's order; a lemma follows the branches of its operation. -/

namespace Sys2Proof.Machine

theorem writeRways_canon {s : State} {d : Nat} {v : DWord} (h : Canon s) : Canon (writeRways s d v) :=
  canon_ite h (State.updDie_canon (canon_ite (h.of_eq rfl rfl) h))

theorem writeRefcal_canon {s : State} {d : Nat} {v : DWord} (h : Canon s) : Canon (writeRefcal s d v) :=
  canon_ite h (State.updDie_canon h)

theorem writePavane_canon {s : State} {d : Nat} {v : DWord} (h : Canon s) : Canon (writePavane s d v) :=
  State.updDie_canon h

theorem writeRingpool_canon {s : State} {d : Nat} {v : DWord} (h : Canon s) : Canon (writeRingpool s d v) :=
  canon_ite h (State.updDie_canon h)

theorem writeErrcnt_canon {s : State} {d : Nat} {v : DWord} (h : Canon s) : Canon (writeErrcnt s d v) :=
  State.updDie_canon h

theorem writeDieCsr_canon {s : State} {d csr : Nat} {v : DWord} (h : Canon s) : Canon (writeDieCsr s d csr v) := by
  unfold writeDieCsr
  split
  · exact writeRways_canon h
  · exact writeRefcal_canon h
  · exact writePavane_canon h
  · exact writeRingpool_canon h
  · exact writeErrcnt_canon h
  · exact h

theorem writeCsr_canon {s : State} {g csr : Nat} {v : DWord} (h : Canon s) : Canon (writeCsr s g csr v) :=
  canon_ite (State.updGrp_canon h) (canon_ite (State.updHandler_canon h) (canon_ite h (writeDieCsr_canon h)))

theorem putS_canon {o : FmtS} {v : Nat} {s : State} (h : Canon s) : Canon (putS o v s) := State.updMe_canon h

theorem guardedS_keeps {o : FmtS} {body : M Unit} (hbody : KeepsM body) : KeepsM (guardedS o body) :=
  keeps_get fun _ _ => keeps_ite hbody (keeps_pure _)

theorem privileged_keeps {h : Hdr} {body : M Unit} (hbody : KeepsM body) : KeepsM (privileged h body) :=
  keeps_get fun _ _ => keeps_bind need_keeps fun _ => keeps_ite hbody (keeps_pure _)

theorem csrrCore_keeps {o : FmtS} : KeepsM (csrrCore o) :=
  guardedS_keeps (keeps_get fun _ _ => keeps_bind need_keeps fun _ => keeps_upd (fun _ hs1 => putS_canon hs1))

theorem csrwAll_canon {o : FmtS} {v : DWord} {s : State} (h : Canon s) : Canon (csrwAll o v s) :=
  canon_ite (putS_canon (writeCsr_canon h)) (writeCsr_canon h)

theorem csrwCore_keeps {o : FmtS} {f : DWord → DWord → DWord} : KeepsM (csrwCore o f) := by
  unfold csrwCore
  refine guardedS_keeps ?_
  refine keeps_get fun _ _ => ?_
  extract_lets -underBinder n
  refine keeps_bind need_keeps fun _ => ?_
  exact keeps_bind checkPoison_keeps fun _ => keeps_upd (fun _ hs1 => csrwAll_canon hs1)

theorem execProghint_keeps {o : FmtS} {s : State} (h : Canon s) : KeepsO (execProghint o s) :=
  finish_keeps (guardedS_keeps (keeps_bind checkPoison_keeps fun _ => keeps_upd (fun _ hs1 => State.updBlk_canon hs1))) h

theorem execSvc_keeps {o : FmtS} {s : State} (h : Canon s) : KeepsO (execSvc o s) :=
  finish_keeps (guardedS_keeps (keeps_bind checkPoison_keeps fun _ => keeps_get fun _ _ => trapM_keeps)) h

theorem execEret_keeps {o : FmtS} {s : State} (h : Canon s) : KeepsO (execEret o s) :=
  finish_keeps (privileged_keeps (keeps_upd (fun _ hs1 => endHandler_canon hs1))) h

theorem gstatrCore_keeps {o : FmtS} : KeepsM (gstatrCore o) := by
  unfold gstatrCore
  refine privileged_keeps ?_
  refine keeps_bind checkPoison_keeps fun _ => ?_
  refine keeps_upd (fun _ hs => ?_)
  split
  · exact canon_ite (State.updMe_canon (putS_canon hs)) (State.updMe_canon (putS_canon hs))
  · exact State.updMe_canon (putS_canon hs)

theorem gstatwCore_keeps {o : FmtS} : KeepsM (gstatwCore o) := by
  unfold gstatwCore
  refine privileged_keeps ?_
  refine keeps_bind checkPoison_keeps fun _ => ?_
  refine keeps_upd (fun _ hs => ?_)
  extract_lets -underBinder v
  split
  · exact canon_ite (State.updMe_canon (State.updGrp_canon hs)) (State.updMe_canon hs)
  · exact State.updMe_canon hs

theorem unqueue_canon {s : State} {g : Nat} (h : Canon s) : Canon (unqueue s g) := State.updHandler_canon h

theorem resumeGroup_canon {s : State} {g : Nat} (h : Canon s) : Canon (resumeGroup s g) := by
  unfold resumeGroup
  extract_lets -underBinder x s1
  have hs1 : Canon s1 := unqueue_canon h
  refine canon_ite h ?_
  split
  · exact raiseAt_canon (State.updGrp_canon hs1)
  · exact canon_ite (retireGroup_canon hs1) (fillCore_canon (State.updGrp_canon hs1))

theorem execGresume_keeps {o : FmtS} {s : State} (h : Canon s) : KeepsO (execGresume o s) := by
  unfold execGresume
  refine finish_keeps ?_ h
  refine privileged_keeps ?_
  refine keeps_bind checkPoison_keeps fun _ => ?_
  refine keeps_upd (fun _ hs1 => ?_)
  split
  · exact resumeGroup_canon hs1
  · exact hs1

theorem replayGroup_canon {s : State} {g : Nat} (h : Canon s) : Canon (replayGroup s g) := by
  unfold replayGroup
  refine canon_ite ?_ (replayLog_canon h)
  extract_lets -underBinder x s1
  have hs1 : Canon s1 := replayLog_canon (unqueue_canon (State.updGrp_canon h))
  exact canon_ite hs1 (resumeGroup_canon (State.updGrp_canon hs1))

theorem execGresumeReplay_keeps {o : FmtS} {s : State} (h : Canon s) : KeepsO (execGresumeReplay o s) := by
  unfold execGresumeReplay
  refine finish_keeps ?_ h
  refine privileged_keeps ?_
  refine keeps_bind checkPoison_keeps fun _ => ?_
  refine keeps_upd (fun _ hs1 => ?_)
  split
  · exact replayGroup_canon hs1
  · exact hs1

theorem haltOne_canon {s : State} {g : Nat} (h : Canon s) : Canon (haltOne s g) := canon_ite h (haltGroup_canon h)

theorem execHalt_keeps {o : FmtS} {s : State} (h : Canon s) : KeepsO (execHalt o s) := by
  unfold execHalt
  refine finish_keeps ?_ h
  refine privileged_keeps ?_
  refine keeps_bind checkPoison_keeps fun _ => ?_
  refine keeps_upd (fun _ hs1 => ?_)
  split
  · exact haltOne_canon hs1
  · exact hs1

theorem execHaltBlk_keeps {o : FmtS} {s : State} (h : Canon s) : KeepsO (execHaltBlk o s) := by
  unfold execHaltBlk
  refine finish_keeps ?_ h
  refine privileged_keeps ?_
  refine keeps_bind checkPoison_keeps fun _ => ?_
  refine keeps_upd (fun _ hs1 => ?_)
  split
  · exact canon_foldl (fun _ _ hs2 => haltOne_canon hs2) hs1
  · exact hs1

theorem spoilAt_canon {s : State} {xl : Nat → Xlat} {va : Nat} (h : Canon s) : Canon (spoilAt s xl va) := by
  unfold spoilAt
  split
  · exact spoil_canon h
  · exact h

theorem freezeMat_canon {b : Nat} {s : State} (h : Canon s) : Canon (freezeMat b s) := h.of_eq rfl rfl

theorem mdrainCore_keeps {o : FmtE} : KeepsM (mdrainCore o) := by
  unfold mdrainCore
  refine privileged_keeps (keeps_get fun s hs => ?_)
  dsimp only
  refine keeps_bind need_keeps fun _ => keeps_bind checkPoison_keeps fun _ => ?_
  have hput : ∀ v, KeepsM (upd (putK o 3 v)) := fun _ => keeps_upd fun _ hu => putK_canon hu
  split
  · exact hput 0
  · refine keeps_ite (hput 0) ?_
    split
    · exact uniTrap_keeps
    next t ht =>
      refine keeps_bind (keeps_set (freezeMat_canon ?_)) fun _ => hput _
      exact canon_foldl (fun _ _ hu => spoilAt_canon hu) (writeRange_canon hs ht)

theorem restoreImage_canon {b : Nat} {hd bs : List Byte} {ops : List MatOp} {s : State} (h : Canon s) :
    Canon (restoreImage b hd bs ops s) :=
  canon_foldl (fun _ _ hs1 => enterTable_canon hs1) (State.updBlk_canon (h.of_eq rfl rfl))

theorem mrestoreCore_keeps {o : FmtE} : KeepsM (mrestoreCore o) := by
  unfold mrestoreCore
  refine privileged_keeps ?_
  refine keeps_get fun _ _ => ?_
  extract_lets -underBinder va
  refine keeps_bind need_keeps fun _ => ?_
  refine keeps_bind checkPoison_keeps fun _ => ?_
  extract_lets -underBinder rd
  split
  · exact keeps_upd (fun _ hs1 => putK_canon hs1)
  · exact uniTrap_keeps
  · extract_lets -underBinder b
    refine keeps_ite (keeps_upd (fun _ hs1 => putK_canon hs1)) ?_
    split
    · exact uniTrap_keeps
    · exact keeps_ite (keeps_upd (fun _ hs1 => putK_canon hs1)) (keeps_ite stallM_keeps (keeps_upd
        (fun _ hs1 => putK_canon (restoreImage_canon hs1))))

theorem mresume_keeps {o : FmtE} {body : Nat → Nat → State → State × Nat}
    (hbody : ∀ {a b s t n}, Canon s → body a b s = (t, n) → Canon t) : KeepsM (mresume o body) := by
  unfold mresume
  refine privileged_keeps (keeps_bind checkPoison_keeps fun _ => keeps_upd fun s hs => ?_)
  split
  · exact putK_canon hs
  · exact putK_canon (hbody hs (pair_eta _))

theorem restartMat_canon {s : State} {k : Nat} {o : MatOp} (h : Canon s) : Canon (restartMat s k o) :=
  canon_ite (State.setMat_canon h) (State.setMat_canon h)

theorem execMresumeMatrix_keeps {o : FmtE} {s : State} (h : Canon s) : KeepsO (execMresumeMatrix o s) := by
  refine finish_keeps (keeps_bind (privileged_keeps ?_) fun _ => mresume_keeps fun hs he => ?_) h
  · exact keeps_bind checkPoison_keeps fun _ => keeps_get fun _ _ => keeps_ite stallM_keeps (keeps_pure _)
  · split at he
    · cases he
      exact restartMat_canon hs
    · cases he
      exact hs

theorem execMresumeCopy_keeps {o : FmtE} {s : State} (h : Canon s) : KeepsO (execMresumeCopy o s) := by
  refine finish_keeps (mresume_keeps fun {tok b s t n} hs he => ?_) h
  cases hcopy : copyOf s b tok with
  | none =>
    rw [hcopy] at he
    exact (Prod.mk.inj he).1 ▸ hs
  | some e =>
    rw [hcopy] at he
    dsimp only at he
    split at he
    · refine (Prod.mk.inj he).1 ▸ ?_
      exact hs.of_eq rfl rfl
    · exact (Prod.mk.inj he).1 ▸ hs

theorem execMresumeQuery_keeps {o : FmtE} {s : State} (h : Canon s) : KeepsO (execMresumeQuery o s) := by
  refine finish_keeps (mresume_keeps fun hs he => ?_) h
  split at he
  · split at he
    · cases he
      exact hs
    · cases he
      exact State.setQry_canon hs
  · cases he
    exact hs

theorem takeOldest_canon {s : State} {quad : Nat} (h : Canon s) : Canon (takeOldest s quad) := by
  unfold takeOldest
  split
  · exact h
  · extract_lets -underBinder s1
    have hs1 : Canon s1 := dispatchTrap_canon h
    split
    · exact applyPolicy_canon hs1
    · exact hs1

theorem execTrapDispatch_keeps {quad : Nat} {s : State} (h : Canon s) : KeepsO (execTrapDispatch quad s) :=
  finish_keeps (keeps_bind onlyIf_keeps fun _ => keeps_upd (fun _ hs1 => takeOldest_canon hs1)) h

theorem execMachineCheck_keeps {d : Nat} {s : State} (h : Canon s) : KeepsO (execMachineCheck d s) :=
  finish_keeps (keeps_bind onlyIf_keeps fun _ => keeps_upd (fun _ hs1 => machineCheck_canon (countLost_canon hs1))) h

theorem enqueue_canon {s : State} {d c va : Nat} {bs : List Byte} {issuer path : Option Nat} {deadline : Nat}
    {t : State} {n : Nat} {n1 : Nat}
    (h : Canon s) (he : enqueue s d c va bs issuer path deadline = (t, n, n1)) : Canon t := by
  unfold enqueue at he
  extract_lets -underBinder k reason x s1 reg at he
  have hs1 : Canon s1 := h.of_eq rfl rfl
  split at he
  · exact (Prod.mk.inj he).1 ▸ (refreshHeads_canon (h.of_eq rfl rfl))
  · exact (Prod.mk.inj he).1 ▸ (canon_ite (domFault_canon hs1) hs1)

theorem tryDispatch_canon {s : State} {b : Nat} (h : Canon s) : Canon (tryDispatch s b) :=
  canon_ite (dispatchBlock_canon h) h

theorem startBlock_canon {s : State} {b : Nat} (h : Canon s) : Canon (startBlock s b) := tryDispatch_canon (h.of_eq rfl rfl)

theorem stopStage_canon {s : State} {k b sp : Nat} {j : Stage} (h : Canon s) : Canon (stopStage s k b sp j) :=
  canon_foldl (fun _ _ hs1 => wakeLine_canon hs1) (h.of_eq rfl rfl)

theorem beginStaging_canon {die launch bid range : Nat} {s : State} (h : Canon s) :
    Canon (beginStaging die launch bid range s) := h.of_eq rfl rfl

theorem execStaging_keeps {die launch bid range : Nat} {s : State} (h : Canon s) :
    KeepsO (execStaging die launch bid range s) :=
  finish_keeps (keeps_bind onlyIf_keeps fun _ => keeps_upd (fun _ hs1 => beginStaging_canon hs1)) h

theorem landLine_canon {s : State} {k : Nat} {j : Stage} (h : Canon s) : Canon (landLine s k j) := by
  unfold landLine
  extract_lets -underBinder a next went
  have hwent : ∀ s, Canon s → Canon (went s) := fun _ hs1 => hs1.of_eq rfl rfl
  split
  · split
    · exact stopStage_canon h
    · extract_lets -underBinder s1 r s2 s3
      have hs1 : Canon s1 := canon_ite (settleLine_canon h) h
      have hs2 : Canon s2 := State.updBlk_canon hs1
      have hs3 : Canon s3 := hwent _ (setFull_canon hs2)
      exact canon_ite (stopStage_canon hs1) (canon_ite (tryDispatch_canon hs3) hs3)
  · exact canon_ite (tryDispatch_canon (hwent _ h)) (hwent _ h)
  · exact canon_ite (h.of_eq rfl rfl) (hwent _ h)

theorem execStagingLineLand_keeps {job : Nat} {s : State} (h : Canon s) : KeepsO (execStagingLineLand job s) := by
  unfold execStagingLineLand
  refine finish_keeps ?_ h
  split
  · exact keeps_ite (keeps_upd (fun _ hs1 => landLine_canon hs1)) idleM_keeps
  · exact idleM_keeps

theorem execDispatchTimeout_keeps {b : Nat} {s : State} (h : Canon s) : KeepsO (execDispatchTimeout b s) :=
  finish_keeps (keeps_bind onlyIf_keeps fun _ => keeps_upd (fun _ hs1 => dispatchBlock_canon hs1)) h

theorem wsCore_keeps {o : FmtE} {body : List Byte → Nat → List Nat → State → State}
    (hbody : ∀ x x1 x2 s3, Canon s3 → Canon (body x x1 x2 s3)) : KeepsM (wsCore o body) := by
  unfold wsCore
  refine uniStruct_keeps (fun _ _ => ?_)
  refine keeps_bind (keeps_upd (fun _ hs => settleRange_canon hs)) fun _ => ?_
  refine keeps_get fun _ _ => ?_
  split
  · exact uniTrap_keeps
  · refine keeps_bind need_keeps fun _ => ?_
    split
    · exact uniTrap_keeps
    · exact keeps_upd (fun _ ha => hbody _ _ _ _ ha)

theorem stageRanges_canon {demand : Bool} {bs : List Byte} {b : Nat} {is : List Nat} {s : State} (h : Canon s) :
    Canon (stageRanges demand bs b is s) := canon_foldl (fun _ _ hs1 => hs1.of_eq rfl rfl) h

theorem dropRanges_canon {bs : List Byte} {b : Nat} {is : List Nat} {s : State} (h : Canon s) :
    Canon (dropRanges bs b is s) :=
  h.of_eq rfl rfl

theorem placeBid_canon {s : State} {l i bid ck : Nat} (h : Canon s) : Canon (placeBid s l i bid ck) :=
  startBlock_canon (placeOn_canon (setShare_canon (canon_ite (State.updLch_canon h) (setShare_canon h))) (pair_eta _))

theorem placeNext_canon {s t : State} {l i : Nat} (h : Canon s) (he : placeNext s l i = some t) : Canon t := by
  unfold placeNext at he
  dsimp only at he
  split at he
  · split at he
    · split at he
      · cases he
        exact placeBid_canon h
      · cases he
    · obtain ⟨ck, _, rfl⟩ := Option.map_eq_some_iff.mp he
      exact placeBid_canon h
  · cases he

theorem beginRunning_canon {s : State} {l : Nat} (h : Canon s) : Canon (beginRunning s l) := canon_ite (h.of_eq rfl rfl) h

theorem placeWhole_canon {s t : State} {l : Nat} (h : Canon s) (he : placeWhole s l = some t) : Canon t :=
  canon_foldlOption (fun _ _ ho => canon_foldlOption (fun _ _ hp => canon_bind hp fun _ _ hs he => placeNext_canon hs he) ho)
    (fun _ hs => Option.some.inj hs ▸ beginRunning_canon h) t he

theorem placePavane_canon {s t : State} {l : Nat} (h : Canon s) (he : placePavane s l = some t) : Canon t := by
  unfold placePavane at he
  dsimp only at he
  split at he
  · cases he
  · exact canon_foldlOption (fun _ _ hp => canon_bind hp fun _ _ hs he => placeNext_canon hs he)
      (fun _ hs => Option.some.inj hs ▸ State.updLch_canon (beginRunning_canon h)) t he

theorem tryHead_canon {s t : State} {d l i : Nat} (h : Canon s) (he : tryHead s d l i = some t) : Canon t := by
  unfold tryHead at he
  extract_lets -underBinder x u at he
  have hu : Canon u := canon_ite (latchRegions_canon h) h
  split at he
  · exact Option.some.inj he ▸ State.updLch_canon hu
  generalize (!if x.whole then x.dies.all (wsFree u l) else wsFree u l d) = taken at he
  split at he
  · cases he
  split at he
  · exact placePavane_canon hu he
  split at he
  · exact placeWhole_canon hu he
  · obtain ⟨v, hv, rfl⟩ := Option.map_eq_some_iff.mp he
    exact beginRunning_canon (placeNext_canon hu hv)

theorem saveBlock_canon {s : State} {b : Nat} (h : Canon s) : Canon (saveBlock s b) := by
  unfold saveBlock
  extract_lets -underBinder x ck gs own s1 s2 turns groups mine waits ours traps frz unlog y s3 s4 s5
  have hs1 : Canon s1 := canon_foldl (fun _ _ hs6 => completeLoad_canon hs6) h
  have hs2 : Canon s2 := writeBackAll_canon hs1
  have hs3 : Canon s3 := State.setBlk_canon hs2
  have hs4 : Canon s4 := State.updHandler_canon hs3
  have hs5 : Canon s5 := ⟨hs4.memWf, spSorted_filter _ _ 0 hs4.sorted⟩
  exact fillCore_canon hs5

theorem remake_canon {s : State} {header : Nat} {w : WaitFor} (h : Canon s) : Canon (remake s header w) := by
  unfold remake
  extract_lets -underBinder k
  split
  · exact canon_ite (h.of_eq rfl rfl) (serveDeqOne_canon (addWaiter_canon h))
  · exact serveRingOne_canon (addWaiter_canon h)

theorem reenter_canon {s : State} {b : Nat} (h : Canon s) : Canon (reenter s b) :=
  canon_foldl (fun _ _ hs1 => State.setMat_canon hs1) h

theorem restoreBlock_canon {s : State} {b ck : Nat} (h : Canon s) : Canon (restoreBlock s b ck) := by
  unfold restoreBlock
  extract_lets -underBinder x d s1 s2 turns r s3 now was cp mo qu lg wt s4 s5 s6 s7 s8 s9 s10 s11
  have hs1 : Canon s1 := invalidateClean_canon h
  have hs2 : Canon s2 := growWays_canon (State.setBlk_canon hs1)
  have hr : Canon r.1 :=
    foldl_keeps (fun p : State × List (Nat × Nat) => Canon p.1) _ _ _ (fun _ _ hacc => State.setGrp_canon hacc) hs2
  have hs3 : Canon s3 := hr
  have hs4 : Canon s4 := hs3.of_eq rfl rfl
  have hs5 : Canon s5 := reenter_canon hs4
  have hs6 : Canon s6 := by
    unfold s6
    refine canon_foldl (fun _ _ hs12 => ?_) hs5
    split
    · exact setBind_canon hs12
    · exact hs12
  have hs7 : Canon s7 := canon_ite (State.updCore_canon hs6) hs6
  have hs8 : Canon s8 := canon_ite (State.updLch_canon hs7) hs6
  have hs9 : Canon s9 := canon_foldl (fun _ _ hs12 => queueTrap_canon hs12) hs8
  have hs10 : Canon s10 := canon_foldl (fun _ _ hs12 => remake_canon hs12) hs9
  have hs11 : Canon s11 := canon_foldl (fun _ _ hs12 => canon_ite (resumeGroup_canon hs12) hs12) hs10
  exact fillCore_canon hs11

theorem tryCand_canon {s t : State} {d : Nat} {c : Cand} (h : Canon s) (he : tryCand s d c = some t) : Canon t := by
  unfold tryCand at he
  split at he
  · exact tryHead_canon h he
  · exact placeNext_canon h he
  · obtain ⟨ck, -, rfl⟩ := Option.map_eq_some_iff.mp he
    exact setShare_canon (restoreBlock_canon h)

theorem firstFit_canon {s t : State} {d : Nat} {cs : List Cand} {hold : Option Nat} {c : Cand} (h : Canon s)
    (he : firstFit s d cs hold = some (c, t)) : Canon t := by
  induction cs generalizing hold with
  | nil => cases he
  | cons x r ih =>
    unfold firstFit at he
    split at he
    · exact ih he
    · split at he
      next u hu =>
        cases he
        exact tryCand_canon h hu
      · exact ih he

theorem nextMove_canon {s : State} {d : Nat} {x : Cand} {t : State} (h : Canon s) (he : nextMove s d = some (x, t)) :
    Canon t := by
  unfold nextMove at he
  exact firstFit_canon h he

theorem moveOf_keeps {d kind : Nat} : KeepsM (moveOf d kind) := by
  unfold moveOf
  refine keeps_get fun s hs => ?_
  split
  next c t ht => exact keeps_ite (keeps_set (refreshHeads_canon (nextMove_canon hs ht))) idleM_keeps
  · exact idleM_keeps

theorem execQuantum_keeps {core half : Nat} {s : State} (h : Canon s) : KeepsO (execQuantum core half s) := by
  unfold execQuantum
  refine finish_keeps ?_ h
  split
  · exact keeps_bind onlyIf_keeps fun _ => keeps_upd (fun _ hs1 => swapOut_canon hs1)
  · exact idleM_keeps

theorem execSleepWake_keeps {g : Nat} {s : State} (h : Canon s) : KeepsO (execSleepWake g s) :=
  finish_keeps (keeps_bind onlyIf_keeps fun _ => keeps_upd (fun _ hs1 => makeReady_canon (State.updCore_canon hs1))) h

theorem writeDone_canon {s : State} {d c region va w : Nat} (h : Canon s) : Canon (writeDone s d c region va w) := by
  unfold writeDone
  refine canon_ite h ?_
  split
  · exact domFault_canon h
  · exact canon_ite (domFault_canon h) (writeParts_canon h)

theorem endPath_canon {s : State} {p : Nat} (h : Canon s) : Canon (endPath s p) := by
  unfold endPath
  split
  · exact h
  · extract_lets -underBinder s1
    have hs1 : Canon s1 := h.of_eq rfl rfl
    refine canon_ite hs1 ?_
    split
    · exact hs1
    · exact writeDone_canon (hs1.of_eq rfl rfl)

theorem pathsGoOn_canon {s : State} {l : Nat} {completed : Bool} (h : Canon s) : Canon (pathsGoOn s l completed) := by
  unfold pathsGoOn
  refine canon_foldl (fun s e hs => ?_) h
  split
  · exact hs
  next w _ =>
    extract_lets -underBinder u
    have hu : Canon u := canon_ite (hs.of_eq rfl rfl) hs
    exact canon_ite (endPath_canon hu) (hu.of_eq rfl rfl)

theorem endLaunch_canon {s : State} {k : Nat} (h : Canon s) : Canon (endLaunch s k) := by
  unfold endLaunch
  extract_lets -underBinder l cores s1 r inWs s2 st s3 s4
  have hs1 : Canon s1 := canon_foldl (fun _ _ hs5 => writeBackAll_canon hs5) h
  have hs2 : Canon s2 := canon_ite hs1 (canon_foldl (fun _ _ hs5 => State.updCore_canon hs5) hs1)
  have hs3 : Canon s3 := State.updLch_canon hs2
  have hs4 : Canon s4 := writeDone_canon hs3
  exact pathsGoOn_canon hs4

theorem execLaunchCompletion_keeps {launch : Nat} {s : State} (h : Canon s) : KeepsO (execLaunchCompletion launch s) :=
  finish_keeps (keeps_bind onlyIf_keeps fun _ => keeps_upd (fun _ hs1 => endLaunch_canon hs1)) h

theorem execDeadline_keeps {launch : Nat} {s : State} (h : Canon s) : KeepsO (execDeadline launch s) := by
  unfold execDeadline
  refine finish_keeps ?_ h
  refine keeps_bind onlyIf_keeps fun _ => ?_
  exact keeps_upd (fun _ hs1 => canon_foldl (fun _ _ hs2 => raiseAt_canon hs2) (State.updLch_canon hs1))

theorem measureStage_canon {s : State} {stage : Nat} {image : List Byte} (h : Canon s) :
    Canon (measureStage s stage image) :=
  h.of_eq rfl rfl

theorem bootFrom_canon {s : State} {d i : Nat} {l : List (List Byte)} (h : Canon s) : Canon (bootFrom s d i l) := by
  induction l generalizing s i with
  | nil => exact h
  | cons image rest ih =>
    unfold bootFrom
    split
    · exact ih (canon_ite (measureStage_canon h) h)
    · exact State.updDie_canon h

theorem bootDie_canon {s : State} {d : Nat} (h : Canon s) : Canon (bootDie s d) :=
  canon_ite (bootFrom_canon (State.updDie_canon h)) h

theorem flushBlock_canon {s : State} {b : Nat} (h : Canon s) : Canon (flushBlock s b) := by
  unfold flushBlock
  extract_lets -underBinder x l
  split
  · exact State.updLch_canon (discardBlock_canon h)
  · exact (discardBlock_canon h).of_eq rfl rfl

theorem stopBlock_canon {s : State} {b : Nat} {flush : Bool} (h : Canon s) : Canon (stopBlock s b flush) :=
  canon_ite (haltForSave_canon (State.setBlk_canon h)) (State.setBlk_canon h)

theorem boundMissed_canon {s : State} {d c r boundNs : Nat} (h : Canon s) : Canon (boundMissed s d c r boundNs) :=
  report_canon h

theorem preemptBlock_canon {s t : State} {b boundNs c r : Nat} {ch : Choice} (h : Canon s)
    (he : preemptBlock s b boundNs c r = (t, ch)) : Canon t := by
  have hfirst : Canon (preemptBlock s b boundNs c r).1 := by
    unfold preemptBlock
    dsimp only
    split
    · exact State.updLch_canon (discardBlock_canon h)
    · exact State.setBlk_canon h
    · exact stopBlock_canon h
    · exact canon_ite (stopBlock_canon h) (flushBlock_canon h)
    · exact boundMissed_canon (stopBlock_canon h)
  rwa [he] at hfirst

theorem preemptAll_canon {l : Launch} {vs : List Nat} {s : State} (h : Canon s) : Canon (preemptAll l vs s) :=
  canon_foldl (fun _ _ hs1 => preemptBlock_canon hs1 (pair_eta _)) h

theorem switchContext_canon {s : State} {die ctx boundNs : Nat} (h : Canon s) : Canon (switchContext s die ctx boundNs) :=
  canon_ite h (canon_foldl (fun _ _ hs1 => preemptBlock_canon hs1 (pair_eta _)) h)

theorem execPreemptionRequest_keeps {die launch : Nat} {s : State} (h : Canon s) :
    KeepsO (execPreemptionRequest die launch s) := by
  unfold execPreemptionRequest
  refine finish_keeps ?_ h
  split
  · exact idleM_keeps
  · extract_lets -underBinder rest
    have hrest : Canon rest := canon_foldl (fun _ _ hs1 => discardBlock_canon hs1) h
    refine keeps_ite idleM_keeps ?_
    split
    · exact idleM_keeps
    · exact keeps_upd (fun _ hs1 => preemptAll_canon hs1)

theorem execBlockSave_keeps {b : Nat} {s : State} (h : Canon s) : KeepsO (execBlockSave b s) := by
  unfold execBlockSave
  refine finish_keeps ?_ h
  refine keeps_bind onlyIf_keeps fun _ => ?_
  refine keeps_ite (keeps_upd (fun _ hs1 => flushBlock_canon hs1)) ?_
  exact keeps_bind onlyIf_keeps fun _ => keeps_upd (fun _ hs1 => saveBlock_canon (haltForSave_canon hs1))

theorem passTime_canon {s : State} {n : Nat} (h : Canon s) : Canon (passTime s n) := by
  unfold passTime
  refine missPromises_canon ⟨h.memWf, ?_⟩
  dsimp only
  rw [spSorted_map]
  · exact h.sorted
  · intro e
    split <;> rfl

theorem runAct_keeps {ex : Meaning} {a : Act} {s : State} (hex : ∀ i s, Canon s → KeepsO (ex i s)) (h : Canon s) :
    KeepsO (runAct ex a s) := by
  cases a with
  | issue g => exact issueWith_keeps hex h
  | event i => exact hex i s h
  | tick n => exact next_keeps (passTime_canon h)
  | evict c l => exact next_keeps (evictFree_canon h)
  | forward q => exact next_keeps (forwardTrap_canon h)
  | tlbFill t c va => exact next_keeps (tlbFill_canon h)
  | tlbDrop i => exact next_keeps (h.of_eq rfl rfl)
  | error e => exact next_keeps (errorAt_canon h)
  | tell d c r => exact next_keeps (tellMachineCheck_canon h)
  | assist q => exact next_keeps (finishAssist_canon h)
  | fetch op row => exact next_keeps (fetchInto_canon h)
  | look q => exact next_keeps (lookAhead_canon h)
  | boot d => exact next_keeps (bootDie_canon h)
  | switch d c b => exact next_keeps (switchContext_canon h)

theorem stepWith_keeps {ex : Meaning} {s : State} (hex : ∀ i s, Canon s → KeepsO (ex i s)) (h : Canon s) :
    KeepsO (stepWith ex s) := by
  unfold stepWith
  split
  · exact runAct_keeps hex (h.of_eq rfl rfl)
  · exact runAct_keeps hex (h.of_eq rfl rfl)

end Sys2Proof.Machine
end

section
/-! What keeps the canonical forms: lane instructions, fetch and frames. One lemma for each
operation of the model that gives a state, in the model's order; a lemma follows the branches of its operation. -/

namespace Sys2Proof.Machine

theorem execMov_keeps {o : FmtA} {s : State} (h : Canon s) : KeepsO (execMov o s) := by
  unfold execMov
  refine finish_keeps ?_ h
  refine keeps_get fun _ _ => ?_
  exact keeps_ite (keeps_bind need_keeps fun _ => putAll_keeps) (keeps_bind checkSources_keeps fun _ => putAll_keeps)

theorem execMovh_keeps {o : FmtA} {s : State} (h : Canon s) : KeepsO (execMovh o s) :=
  finish_keeps (keeps_get fun _ _ => keeps_bind checkPoison_keeps fun _ => putAll_keeps) h

theorem execPmov_keeps {o : FmtA} {s : State} (h : Canon s) : KeepsO (execPmov o s) := by
  unfold execPmov
  refine finish_keeps ?_ h
  refine keeps_get fun _ _ => ?_
  extract_lets -underBinder ts
  refine keeps_bind checkSources_keeps fun _ => ?_
  exact keeps_ite (keeps_upd (fun _ hs' => State.updMe_canon hs')) putAll_keeps

theorem checkCollective_keeps {op : Nat} {o : FmtA} {ts : List Nat} : KeepsM (checkCollective op o ts) :=
  keeps_get fun _ _ => keeps_bind need_keeps fun _ => need_keeps

theorem putCollective_keeps {o : FmtA} {rs : List (Nat × Res)} : KeepsM (putCollective o rs) :=
  keeps_get fun _ _ => putAll_keeps

theorem runCollective_keeps {op : Nat} {o : FmtA} {f : State → List Nat → Nat → Res} : KeepsM (runCollective op o f) :=
  keeps_get fun _ _ => keeps_bind checkCollective_keeps fun _ => putCollective_keeps

theorem execPoll_keeps {o : FmtA} {s : State} (h : Canon s) : KeepsO (execPoll o s) := by
  unfold execPoll
  refine finish_keeps ?_ h
  refine keeps_get fun _ _ => ?_
  extract_lets -underBinder ts ps v held v1
  refine keeps_ite ?_ putCollective_keeps
  refine keeps_bind putCollective_keeps fun _ => ?_
  exact keeps_ite (keeps_upd (fun _ hs2 => State.updMe_canon hs2)) (keeps_pure _)

theorem execGred_keeps {o : FmtA} {s : State} (h : Canon s) : KeepsO (execGred o s) := by
  unfold execGred
  refine finish_keeps ?_ h
  refine keeps_get fun _ _ => ?_
  extract_lets -underBinder ts
  refine keeps_bind checkCollective_keeps fun _ => ?_
  split
  · exact keeps_pure _
  · exact putCollective_keeps

theorem execLineExecution_keeps {g : Nat} {s : State} (h : Canon s) : KeepsO (execLineExecution g s) := by
  unfold execLineExecution
  extract_lets -underBinder x
  refine keepsO_ite (next_keeps h) ?_
  refine finish_keeps ?_ (h.of_eq rfl rfl)
  split
  · exact trapM_keeps
  · exact keeps_upd (fun _ hs1 => State.updGrp_canon (countCorrected_canon hs1))

theorem dropFrame_canon {s : State} {port : Nat} (h : Canon s) : Canon (dropFrame s port) := h.of_eq rfl rfl

theorem takeAcks_canon {s : State} {sid : Nat} {x : Session} {f : Frame} (h : Canon s) : Canon (takeAcks s sid x f) :=
  h.of_eq rfl rfl

theorem replyParts_canon {s : State} {sid kind seq status k : Nat} {data : List Byte} (h : Canon s) :
    Canon (replyParts s sid kind seq status k data) := by
  induction k generalizing s data with
  | zero => exact h
  | succ k ih =>
    unfold replyParts
    dsimp only
    split
    · exact sendOn_canon h
    · exact ih (sendOn_canon h)

theorem reply_canon {s : State} {sid : Nat} {f : Frame} {status : Nat} {data : List Byte} (h : Canon s) :
    Canon (reply s sid f status data) := replyParts_canon h

theorem doWrite_canon {s : State} {sid : Nat} {x : Session} {f : Frame} (h : Canon s) : Canon (doWrite s sid x f) := by
  unfold doWrite
  extract_lets -underBinder n room
  refine canon_ite (reply_canon h) ?_
  split
  next s1 hx =>
    have hs1 : Canon s1 := writeRange_canon h hx
    exact reply_canon hs1
  · exact reply_canon h

theorem doRead_canon {s : State} {sid : Nat} {x : Session} {f : Frame} (h : Canon s) : Canon (doRead s sid x f) := by
  unfold doRead
  extract_lets -underBinder n va
  refine canon_ite (reply_canon h) ?_
  split
  next r hx =>
    have hr : Canon r.1 := readSettled_canon h hx
    exact reply_canon hr
  · exact reply_canon h

theorem doAtomic_canon {s : State} {sid : Nat} {x : Session} {f : Frame} (h : Canon s) : Canon (doAtomic s sid x f) := by
  unfold doAtomic
  extract_lets -underBinder op ty n va
  refine canon_ite (reply_canon h) ?_
  split
  · exact reply_canon h
  · exact canon_ite (reply_canon (settleLine_canon h)) (reply_canon (homeWriteNat_canon (settleLine_canon h)))

theorem doLaunch_canon {s : State} {sid : Nat} {x : Session} {f : Frame} (h : Canon s) : Canon (doLaunch s sid x f) :=
  canon_ite (reply_canon h) (reply_canon (enqueue_canon h (triple_eta _)))

theorem resetDie_canon {s : State} {d : Nat} (h : Canon s) : Canon (resetDie s d) := by
  unfold resetDie
  extract_lets -underBinder mine ls s1 at_ walks unpark s2
  have hs1 : Canon s1 := canon_foldl (fun _ _ hs3 => killLaunch_canon hs3) h
  have hs2 : Canon s2 := ⟨hs1.memWf, spSorted_filter _ _ 0 hs1.sorted⟩
  exact bootDie_canon (State.updDie_canon hs2)

theorem drainAccesses_canon {s : State} (h : Canon s) : Canon (drainAccesses s) :=
  performWhere_canon (canon_foldl (fun _ _ hs1 => writeBackAll_canon hs1) (canon_foldl (fun _ _ hs1 => sampleLoad_canon hs1) h))

theorem resumeOne_canon {s : State} {g : Nat} (h : Canon s) : Canon (resumeOne s g) := canon_ite (replayGroup_canon h) h

theorem resumeRegion_canon {s : State} {c r : Nat} (h : Canon s) : Canon (resumeRegion s c r) :=
  canon_foldl (fun _ _ hs1 => resumeOne_canon hs1) (canon_foldl (fun _ _ hs1 => State.updLch_canon hs1) h)

theorem preemptRegion_canon {s t : State} {c r bound : Nat} {l : List Choice} (h : Canon s)
    (he : preemptRegion s c r bound = (t, l)) : Canon t := by
  have hfirst : Canon (preemptRegion s c r bound).1 :=
    foldl_keeps (fun p : State × List Choice => Canon p.1) _ _ _ (fun _ _ hp => preemptBlock_canon hp (pair_eta _)) h
  rwa [he] at hfirst

theorem loadFirmware_canon {s : State} {stage pa : Nat} {image : List Byte} (h : Canon s) :
    Canon (loadFirmware s stage pa image) := canon_foldl (fun _ _ hs1 => State.updDie_canon hs1) (h.of_eq rfl rfl)

theorem refuseFirmware_canon {s : State} (h : Canon s) : Canon (refuseFirmware s) :=
  canon_foldl (fun _ _ hs1 => State.updDie_canon hs1) h

theorem settlePhys_canon {s : State} {pa n : Nat} (h : Canon s) : Canon (settlePhys s pa n) :=
  canon_foldl (fun _ _ hs1 => settleLine_canon hs1) h

theorem mgmtDo_canon {s : State} {f : Frame} {op d : Nat} {t : State} {n : Nat} {l : List Byte} (h : Canon s)
    (he : mgmtDo s f op d = (t, n, l)) : Canon t := by
  unfold mgmtDo at he
  extract_lets -underBinder c r at he
  split at he
  · cases he
    exact h.of_eq rfl rfl
  · exact (Prod.mk.inj he).1 ▸ (h.of_eq rfl rfl)
  · exact (Prod.mk.inj he).1 ▸ (drainAccesses_canon (tlbInval_canon h))
  · split at he
    · exact (Prod.mk.inj he).1 ▸ (resumeRegion_canon h)
    · extract_lets -underBinder hs at he
      exact (Prod.mk.inj he).1 ▸ (canon_foldl (fun _ _ hs1 => resumeOne_canon hs1) h)
  · exact (Prod.mk.inj he).1 ▸ (canon_foldl (fun _ _ hs1 => haltLaunch_canon hs1) h)
  · exact (Prod.mk.inj he).1 ▸ (canon_foldl (fun _ _ hs1 => killLaunch_canon hs1) h)
  · extract_lets -underBinder t1 n1 at he
    have ht1 : Canon t1.1 := preemptRegion_canon h (pair_eta _)
    exact (Prod.mk.inj he).1 ▸ ht1
  · split at he
    · exact (Prod.mk.inj he).1 ▸ h
    · cases he
      exact h
  · split at he
    · exact (Prod.mk.inj he).1 ▸ (canon_foldl (fun _ _ hs1 => writeDieCsr_canon hs1) h)
    · cases he
      exact h
  · cases he
    exact h
  · extract_lets -underBinder stage pa n1 s1 image at he
    have hs1 : Canon s1 := settlePhys_canon h
    split at he
    · cases he
      exact h
    · split at he
      · cases he
        exact h
      · split at he
        · exact (Prod.mk.inj he).1 ▸ (loadFirmware_canon hs1)
        · exact (Prod.mk.inj he).1 ▸ (refuseFirmware_canon hs1)
  · cases he
    exact h.of_eq rfl rfl
  · exact (Prod.mk.inj he).1 ▸ (h.of_eq rfl rfl)
  · cases he
    exact h
  · extract_lets -underBinder pa n1 at he
    split at he
    · cases he
      exact h
    · split at he
      · cases he
        exact h
      · exact (Prod.mk.inj he).1 ▸ (writeParts_canon h)
  · extract_lets -underBinder pa n1 at he
    split at he
    · cases he
      exact h
    · split at he
      · cases he
        exact h
      · exact (Prod.mk.inj he).1 ▸ (settlePhys_canon h)
  · exact (Prod.mk.inj he).1 ▸ h
  · cases he
    exact canon_foldl (fun _ _ hs1 => resetDie_canon hs1) h

theorem doMgmt_canon {s : State} {sid : Nat} {x : Session} {f : Frame} (h : Canon s) : Canon (doMgmt s sid x f) := by
  unfold doMgmt
  extract_lets -underBinder op d r
  have hr : Canon r.1 := mgmtDo_canon h (triple_eta _)
  refine canon_ite (reply_canon h) ?_
  exact canon_ite (reply_canon h) (canon_ite (reply_canon h) (canon_ite (reply_canon h) (canon_ite (reply_canon h)
    (reply_canon hr))))

theorem perform_canon {s : State} {sid : Nat} {f : Frame} (h : Canon s) : Canon (perform s sid f) := by
  unfold perform
  split
  · exact h
  · extract_lets -underBinder out
    split
    · exact canon_ite (reply_canon h) (doWrite_canon h)
    · exact canon_ite (reply_canon h) (doRead_canon h)
    · exact canon_ite (reply_canon h) (doAtomic_canon h)
    · exact canon_ite (reply_canon h) (doLaunch_canon h)
    · exact doMgmt_canon h
    · exact h

theorem performHeld_canon {s : State} {sid k : Nat} (h : Canon s) : Canon (performHeld s sid k) := by
  induction k generalizing s with
  | zero => exact h
  | succ k ih =>
    unfold performHeld
    split
    · exact h
    · split
      · exact h
      · refine ih (perform_canon ?_)
        exact h.of_eq rfl rfl

theorem receive_canon {s : State} {x : Session} {f : Frame} (h : Canon s) : Canon (receive s x f) := by
  unfold receive
  extract_lets -underBinder sid n s1
  have hs1 : Canon s1 := takeAcks_canon h
  refine canon_ite hs1 ?_
  refine canon_ite (dropFrame_canon hs1) ?_
  split
  · exact hs1
  · exact performHeld_canon (hs1.of_eq rfl rfl)

theorem rlpIn_keeps {f : Frame} {mine : Bool} {s : State} (h : Canon s) : KeepsO (rlpIn f mine s) := by
  unfold rlpIn
  refine finish_keeps ?_ h
  refine keeps_bind onlyIf_keeps fun _ => ?_
  refine keeps_ite (keeps_upd (fun _ hs1 => dropFrame_canon hs1)) ?_
  split
  · exact keeps_upd (fun _ hs1 => dropFrame_canon hs1)
  · exact keeps_upd (fun _ hs1 => receive_canon hs1)

theorem helloRefused_canon {s : State} {f : Frame} {status : Nat} (h : Canon s) : Canon (helloRefused s f status) :=
  h.of_eq rfl rfl

theorem sendKept_canon {s : State} {sid c : Nat} (h : Canon s) : Canon (sendKept s sid c) :=
  canon_foldl (fun _ _ hs1 => canon_foldl (fun _ _ hs2 => sendOn_canon hs2) (State.updDie_canon hs1)) h

theorem openSession_canon {s : State} {f : Frame} {c window : Nat} (h : Canon s) : Canon (openSession s f c window) :=
  sendKept_canon (reply_canon (h.of_eq rfl rfl))

theorem hello_canon {s : State} {f : Frame} (h : Canon s) : Canon (hello s f) := by
  unfold hello
  extract_lets -underBinder c w
  refine canon_ite (dropFrame_canon h) ?_
  refine canon_ite (helloRefused_canon h) ?_
  refine canon_ite (helloRefused_canon h) ?_
  exact canon_ite (helloRefused_canon h) (canon_ite (helloRefused_canon h) (canon_ite (helloRefused_canon h)
    (openSession_canon h)))

theorem execRlpHello_keeps {f : Frame} {s : State} (h : Canon s) : KeepsO (execRlpHello f s) := by
  unfold execRlpHello
  refine finish_keeps ?_ h
  refine keeps_bind onlyIf_keeps fun _ => ?_
  exact keeps_ite (keeps_upd (fun _ hs1 => hello_canon hs1)) (keeps_upd (fun _ hs1 => dropFrame_canon hs1))

theorem mgmtIn_keeps {f : Frame} {op : Nat} {s : State} (h : Canon s) : KeepsO (mgmtIn f op s) := rlpIn_keeps h

theorem sendAck_canon {sid : Nat} {x : Session} {s : State} (h : Canon s) : Canon (sendAck sid x s) := h.of_eq rfl rfl

theorem resend_canon {sid : Nat} {x : Session} {u : Sent} {s : State} (h : Canon s) : Canon (resend sid x u s) :=
  h.of_eq rfl rfl

theorem execAckTimer_keeps {sid : Nat} {s : State} (h : Canon s) : KeepsO (execAckTimer sid s) := by
  unfold execAckTimer
  refine finish_keeps ?_ h
  split
  · exact idleM_keeps
  · exact keeps_bind onlyIf_keeps fun _ => keeps_upd (fun _ hs1 => sendAck_canon hs1)

theorem execRetransmit_keeps {sid seq : Nat} {s : State} (h : Canon s) : KeepsO (execRetransmit sid seq s) := by
  unfold execRetransmit
  refine finish_keeps ?_ h
  split
  · exact idleM_keeps
  · split
    · exact idleM_keeps
    · refine keeps_bind onlyIf_keeps fun _ => ?_
      exact keeps_ite (keeps_upd (fun _ hs1 => hs1.of_eq rfl rfl)) (keeps_upd (fun _ hs1 => resend_canon hs1))

theorem execSessionTimeout_keeps {sid : Nat} {s : State} (h : Canon s) : KeepsO (execSessionTimeout sid s) := by
  unfold execSessionTimeout
  refine finish_keeps ?_ h
  split
  · exact idleM_keeps
  · exact keeps_bind onlyIf_keeps fun _ => keeps_upd (fun _ hs1 => hs1.of_eq rfl rfl)

theorem execReset_keeps {die : Nat} {s : State} (h : Canon s) : KeepsO (execReset die s) :=
  finish_keeps (keeps_bind onlyIf_keeps fun _ => keeps_upd (fun _ hs1 => resetDie_canon hs1)) h

end Sys2Proof.Machine
end

section
/-! What keeps the canonical forms: tasks, graphs and continuations. One lemma for each
operation of the model that gives a state, in the model's order; a lemma follows the branches of its operation. -/

namespace Sys2Proof.Machine

theorem submitAt_canon {s : State} {d c va issuer : Nat} {path : Option Nat} {deadline : Nat} {t : State} {n : Nat} {n1 : Nat}
    (h : Canon s) (he : submitAt s d c va issuer path deadline = .ok (t, n, n1)) : Canon t := by
  unfold submitAt at he
  obtain ⟨_, hr, he⟩ := exceptBind_inv he
  exact enqueue_canon ((readSettled_canon h hr)) (Except.ok.inj he)

theorem releaseWaiters_canon {s : State} {pa : Nat} (h : Canon s) : Canon (releaseWaiters s pa) := h.of_eq rfl rfl

theorem fireTask_canon {s : State} {pa c r : Nat} {t : State} {l : List Sig} (h : Canon s)
    (he : fireTask s pa c r = (t, l)) : Canon t := by
  unfold fireTask at he
  extract_lets -underBinder d s1 act s2 at he
  have hs1 : Canon s1 := homeWriteNat_canon h
  have hs2 : Canon s2 := by
    unfold s2
    refine canon_ite hs1 ?_
    split
    next t1 hx =>
      have ht1 : Canon t1.1 := submitAt_canon hs1 hx
      exact ht1
    · exact domFault_canon hs1
  exact (Prod.mk.inj he).1 ▸ hs2

theorem signalOne_canon {s t : State} {pa va n c r : Nat} {l : List Sig} (h : Canon s)
    (he : signalOne s pa va n c r = (t, l)) : Canon t := by
  unfold signalOne at he
  cases hbad : taskBad s pa with
  | some cause =>
    rw [hbad] at he
    exact (Prod.mk.inj he).1 ▸ domFault_canon h
  | none =>
    rw [hbad] at he
    dsimp only at he
    split at he
    · exact (Prod.mk.inj he).1 ▸ h
    split at he
    · split at he
      · exact (Prod.mk.inj he).1 ▸ domFault_canon h
      · refine (Prod.mk.inj he).1 ▸ ?_
        exact h.of_eq rfl rfl
    generalize ((taskCount s pa - n) % 2 ^ 32).toNat = k at he
    have hset : Canon (homeWriteNat s pa 4 k) := homeWriteNat_canon h
    split at he
    · exact fireTask_canon hset he
    · exact (Prod.mk.inj he).1 ▸ hset

theorem runSignals_canon {c r k : Nat} {l : List Sig} {s : State} (h : Canon s) : Canon (runSignals c r k l s) := by
  induction k generalizing l s with
  | zero => exact h
  | succ k ih =>
    match l with
    | [] => exact h
    | .release pa :: rest => exact ih (releaseWaiters_canon h)
    | .signal va pa n :: rest =>
      unfold runSignals
      dsimp only
      split
      · exact ih (domFault_canon h)
      · exact ih (signalOne_canon (settleLine_canon h) (pair_eta _))

theorem signals_canon {s : State} {c r : Nat} {l : List Sig} (h : Canon s) : Canon (signals s c r l) := runSignals_canon h

theorem publishAt_canon {s : State} {pa va n c r : Nat} (h : Canon s) : Canon (publishAt s pa va n c r) := by
  unfold publishAt
  split
  · exact domFault_canon h
  · exact canon_ite h (signals_canon (canon_foldl (fun _ _ hs1 => signals_canon hs1) ((homeWriteNat_canon
      (homeWriteNat_canon h)).of_eq rfl rfl)))

theorem signalEach_canon {o : FmtE} {v : State} {ps : List Named} {s : State} (hs : Canon s) :
    Canon (signalEach o v ps s) := canon_foldl (fun _ _ ht => signals_canon ht) (eRelease_canon hs)

theorem execSignal_keeps {o : FmtE} {s : State} (h : Canon s) : KeepsO (execSignal o s) := by
  unfold execSignal
  refine finish_keeps ?_ h
  refine keeps_get fun _ _ => ?_
  extract_lets -underBinder bad
  refine keeps_bind need_keeps fun _ => ?_
  refine eachStruct_keeps (fun _ => ?_)
  extract_lets -underBinder rest
  have hrest : ∀ x, KeepsM (rest x) := fun _ => keeps_upd (fun _ hs2 => signalEach_canon hs2)
  exact keeps_ite (keeps_bind beforeRelease_keeps fun _ => hrest ()) (hrest ())

theorem publishNow_canon {o : FmtE} {va pa : Nat} {v : State} (h : Canon v) : Canon (publishNow o va pa v) :=
  publishAt_canon (settleLine_canon (eRelease_canon h))

theorem execPublish_keeps {o : FmtE} {s : State} (h : Canon s) : KeepsO (execPublish o s) :=
  finish_keeps (uniStruct_keeps (fun _ _ => keeps_bind beforeRelease_keeps fun _ => keeps_upd
    (fun _ hv => publishNow_canon hv))) h

theorem offer_canon {s : State} {pa m i : Nat} (h : Canon s) : Canon (offer s pa m i) :=
  canon_ite (homeWriteNat_canon (homeWriteNat_canon (homeWriteNat_canon h))) (homeWriteNat_canon h)

theorem offerOne_canon {o : FmtE} {v s : State} {p : Named} (hs : Canon s) : Canon (offerOne o v s p) := by
  unfold offerOne
  extract_lets -underBinder s1 va
  have hs1 : Canon s1 := settleLine_canon hs
  exact canon_ite (structFault_canon hs1) (canon_ite (structFault_canon hs1) (offer_canon hs1))

theorem execItrep_keeps {o : FmtE} {s : State} (h : Canon s) : KeepsO (execItrep o s) := by
  unfold execItrep
  refine finish_keeps ?_ h
  refine eachStruct_keeps (fun _ => ?_)
  extract_lets -underBinder rest
  have hrest : ∀ x, KeepsM (rest x) :=
    fun _ => keeps_upd (fun _ hs1 => canon_foldl (fun _ _ hs2 => offerOne_canon hs2) (eRelease_canon hs1))
  exact keeps_ite (keeps_bind beforeRelease_keeps fun _ => hrest ()) (hrest ())

theorem submitRecord_canon {o : FmtE} {va : Nat} {bs : List Byte} {s : State} (h : Canon s) :
    Canon (submitRecord o va bs s) := putK_canon (enqueue_canon h (triple_eta _))

theorem execLaunch_keeps {o : FmtE} {s : State} (h : Canon s) : KeepsO (execLaunch o s) := by
  unfold execLaunch
  refine finish_keeps ?_ h
  refine uniStruct_keeps (fun _ _ => ?_)
  refine keeps_bind beforeRelease_keeps fun _ => ?_
  refine keeps_bind (keeps_upd (fun _ hs1 => doRelease_canon hs1)) fun _ => ?_
  refine keeps_get fun _ hs1 => ?_
  split
  · exact uniTrap_keeps
  next r hx =>
    have hr : Canon r.1 := readSettled_canon hs1 hx
    exact keeps_set (submitRecord_canon hr)

theorem startWalk_canon {o : FmtE} {va done : Nat} {s : State} (h : Canon s) : Canon (startWalk o va done s) :=
  putK_canon ((doRelease_canon h).of_eq rfl rfl)

theorem execLaunchGraph_keeps {o : FmtE} {s : State} (h : Canon s) : KeepsO (execLaunchGraph o s) := by
  unfold execLaunchGraph
  refine finish_keeps ?_ h
  refine uniStruct_keeps (fun _ _ => ?_)
  refine keeps_get fun _ _ => ?_
  extract_lets -underBinder done
  refine keeps_bind need_keeps fun _ => ?_
  exact keeps_ite stallM_keeps (keeps_bind beforeRelease_keeps fun _ => keeps_upd (fun _ hs2 => startWalk_canon hs2))

theorem walkTo_canon {s : State} {p n : Nat} (h : Canon s) : Canon (walkTo s p n) := by
  unfold walkTo
  refine canon_ite (endPath_canon h) ?_
  split
  · exact h.of_eq rfl rfl
  · exact h

theorem failWalk_canon {s : State} {p : Nat} (h : Canon s) : Canon (failWalk s p) := by
  unfold failWalk
  split
  · exact endPath_canon (h.of_eq rfl rfl)
  · exact h

theorem atNode_keeps {p kind : Nat} {f : Walk → List Byte → Nat → State → Option State} {s : State} (h : Canon s)
    (hf : ∀ w bs n s t, Canon s → f w bs n s = some t → Canon t) : KeepsO (atNode p kind f s) := by
  refine finish_keeps (keeps_get fun s _ => ?_) h
  split
  · exact idleM_keeps
  next x w _ =>
    refine keeps_bind onlyIf_keeps fun _ => keeps_ite (keeps_upd fun _ hs => endPath_canon hs) ?_
    split
    · exact keeps_upd fun _ hs => failWalk_canon hs
    next bs _ =>
      refine keeps_ite (keeps_upd fun _ hs => failWalk_canon hs) (keeps_bind onlyIf_keeps fun _ => keeps_upd fun u hu => ?_)
      dsimp only
      have hset : Canon (settleRange u (xlCtx u w.ctx needR) x.node 64) := settleRange_canon hu
      cases hnode : f w bs x.node (settleRange u (xlCtx u w.ctx needR) x.node 64) with
      | some t => exact hf _ _ _ _ t hset hnode
      | none => exact failWalk_canon hset

theorem launchNode_canon {path : Nat} {w : Walk} {bs : List Byte} {x : Nat} {s : State} {t : State} (h : Canon s)
    (he : launchNode path w bs x s = some t) : Canon t := by
  unfold launchNode at he
  split at he
  · cases he
  next s1 _ _ hx =>
    have hs1 : Canon s1 := submitAt_canon h hx
    split at he
    · cases he
      exact hs1
    · split at he
      · extract_lets -underBinder s2 at he
        have hs2 : Canon s2 := hs1.of_eq rfl rfl
        replace he := Option.some.inj he
        obtain rfl := he
        exact walkTo_canon hs2
      · cases he
        exact hs1.of_eq rfl rfl

theorem execGraphLaunchNode_keeps {path : Nat} {s : State} (h : Canon s) : KeepsO (execGraphLaunchNode path s) :=
  keepsO_ite (next_keeps h) (atNode_keeps h fun _ _ _ _ _ hs he => launchNode_canon hs he)

theorem condWord_canon {s : State} {c va : Nat} {t : State} {n : Nat} (h : Canon s) (he : condWord s c va = some (t, n)) :
    Canon t := by
  unfold condWord at he
  split at he
  next r hx =>
    have hr : Canon r.1 := readSettled_canon h hx
    cases he
    exact hr
  · cases he

theorem condNode_canon {path : Nat} {w : Walk} {bs : List Byte} {n : Nat} {s t : State} (h : Canon s)
    (he : condNode path w bs n s = some t) : Canon t := by
  obtain ⟨v, hv, rfl⟩ := Option.map_eq_some_iff.mp he
  exact walkTo_canon (condWord_canon h hv)

theorem whileNode_canon {path : Nat} {w : Walk} {bs : List Byte} {n : Nat} {s t : State} (h : Canon s)
    (he : whileNode path w bs n s = some t) : Canon t := by
  unfold whileNode at he
  split at he
  · cases he
  next u v hu =>
    have hcond : Canon u := condWord_canon h hu
    extract_lets -underBinder late write at he
    have hwrite : ∀ {va k x s t}, Canon s → write va k x s = some t → Canon t := fun hs ht => writeRange_canon hs (toOption_ok ht)
    split at he
    · cases he
      exact walkTo_canon hcond
    split at he
    · obtain ⟨z, hz, rfl⟩ := Option.map_eq_some_iff.mp he
      exact walkTo_canon (hwrite hcond hz)
    split at he
    · cases he
      exact walkTo_canon hcond
    split at he
    · cases he
    next r hr =>
      obtain ⟨z, hz, rfl⟩ := Option.map_eq_some_iff.mp he
      exact walkTo_canon (hwrite (readSettled_canon hcond hr) hz)

theorem joinNode_canon {path : Nat} {w : Walk} {bs : List Byte} {n : Nat} {s t : State} (h : Canon s)
    (he : joinNode path w bs n s = some t) : Canon t := by
  obtain ⟨u, hu, rfl⟩ := Option.map_eq_some_iff.mp he
  have hwrite : Canon u := writeRange_canon h (toOption_ok hu)
  exact canon_ite (walkTo_canon hwrite) (endPath_canon hwrite)

theorem signalNode_canon {path : Nat} {w : Walk} {bs : List Byte} {x : Nat} {s : State} {t : State} (h : Canon s)
    (he : signalNode path w bs x s = some t) : Canon t := by
  unfold signalNode at he
  split at he
  · cases he
  · cases he
    exact walkTo_canon (signals_canon h)

theorem keepCont_canon {s : State} {c : Cont} (h : Canon s) : Canon (keepCont s c) := by
  unfold keepCont
  extract_lets -underBinder k s1 n s2 w
  have hs1 : Canon s1 := canon_ite h (settleLine_canon h)
  have hs2 : Canon s2 := by
    unfold s2
    split
    · exact domFault_canon hs1
    · exact hs1
  exact canon_ite (hs2.of_eq rfl rfl) (canon_ite (hs2.of_eq rfl rfl) (hs2.of_eq rfl rfl))

theorem contLeave_canon {s : State} {g : Nat} {affine : Bool} (h : Canon s) : Canon (contLeave s g affine) := by
  unfold contLeave
  extract_lets -underBinder b x s1 s2 s3
  have hs1 : Canon s1 := canon_ite h (tellRetired_canon h)
  have hs2 : Canon s2 := ⟨hs1.memWf, spSorted_spDel _ 0 _ hs1.sorted⟩
  have hs3 : Canon s3 := canon_ite (passToken_canon hs2) hs2
  exact canon_ite (fillCore_canon (State.setBlk_canon hs2)) (discardBlock_canon hs3)

theorem suspend_canon {o : FmtE} {v : State} {va wpa : Nat} {s : State} (hs : Canon s) : Canon (suspend o v va wpa s) :=
  keepCont_canon (canon_foldl (fun _ _ hs1 => State.updDie_canon hs1) (contLeave_canon hs))

theorem contCore_keeps {o : FmtE} : KeepsM (contCore o) := by
  unfold contCore
  refine keeps_get fun s _ => keeps_ite (keeps_pure _) (keeps_bind need_keeps fun _ => keeps_bind checkStale_keeps fun _ => ?_)
  generalize eAddr s o.a 0 = va
  refine keeps_bind structs_keeps fun _ => keeps_bind structs_keeps fun _ => ?_
  generalize readsOf (.cont o) = uses
  refine keeps_ite (keeps_bind (keeps_pure _) fun ws => ?_) (keeps_bind structs_keeps fun ws => ?_)
  all_goals
    refine keeps_bind checkPoison_keeps fun _ => keeps_bind beforeRelease_keeps fun _ => ?_
    refine keeps_bind (keeps_upd fun _ hs => doRelease_canon hs) fun _ => keeps_get fun u hu => ?_
    split
    · exact uniTrap_keeps
    next t ht => exact keeps_set (suspend_canon (writeRange_canon hu ht))

theorem resumeAffine_canon {s : State} {k : Nat} {c : Cont} {b : Nat} {bs : List Byte} (h : Canon s) :
    Canon (resumeAffine s k c b bs) := by
  unfold resumeAffine
  extract_lets -underBinder x ck g halted base y s1 cp mo qu
  have hs1 : Canon s1 := invalidateClean_canon (State.setBlk_canon (State.setGrp_canon h))
  exact fillCore_canon (hs1.of_eq rfl rfl)

theorem contFault_canon {s : State} {c : Cont} {cause va : Nat} (h : Canon s) : Canon (contFault s c cause va) :=
  domFault_canon h

theorem releaseCont_canon {k : Nat} {c : Cont} {s : State} (h : Canon s) : Canon (releaseCont k c s) := by
  unfold releaseCont
  extract_lets -underBinder s1
  have hs1 : Canon s1 := h.of_eq rfl rfl
  split
  · exact contFault_canon hs1
  · extract_lets -underBinder s2
    have hs2 : Canon s2 := settleLine_canon hs1
    split
    · exact contFault_canon hs2
    · extract_lets -underBinder h1
      refine canon_ite (contFault_canon hs2) ?_
      split
      next s3 hx2 =>
        have hs3 : Canon s3 := pushItems_canon hs2 hx2
        exact serveQueue_canon hs3
      · exact contFault_canon hs2

theorem execContinuationRelease_keeps {cont : Nat} {s : State} (h : Canon s) : KeepsO (execContinuationRelease cont s) := by
  unfold execContinuationRelease
  refine finish_keeps ?_ h
  split
  · exact idleM_keeps
  · refine keeps_bind onlyIf_keeps fun _ => ?_
    split
    · refine keeps_bind onlyIf_keeps fun _ => ?_
      split
      · exact keeps_upd (fun _ hs1 => contFault_canon (hs1.of_eq rfl rfl))
      · refine keeps_ite ?_ ?_
        · exact keeps_upd (fun _ hs1 => contFault_canon (hs1.of_eq rfl rfl))
        · exact keeps_bind onlyIf_keeps fun _ => keeps_upd (fun _ hs1 => resumeAffine_canon (settleRange_canon hs1))
    · exact keeps_upd (fun _ hs1 => releaseCont_canon hs1)

theorem takeResume_canon {s t : State} {d l qva : Nat} (h : Canon s) (he : takeResume s d l qva = some t) : Canon t := by
  unfold takeResume at he
  dsimp only at he
  split at he
  · cases he
  split at he
  · cases he
  split at he
  · cases he
  next u items hu =>
    have hpop : Canon u := popItems_canon h hu
    generalize items.headD 0 % 2 ^ 64 = va at he
    split at he
    · exact Option.some.inj he ▸ domFault_canon hpop
    next k c _ =>
      split at he
      · exact Option.some.inj he ▸ domFault_canon hpop
      next bs _ =>
        split at he
        · exact Option.some.inj he ▸ domFault_canon hpop
        obtain ⟨ck, -, rfl⟩ := Option.map_eq_some_iff.mp he
        refine fillCore_canon (addGroup_canon (invalidateClean_canon (State.updBlk_canon (placeRec_canon ?_ (pair_eta _)))))
        have hset : Canon (settleRange u (xlCtx u c.ctx needR) va bs.length) := settleRange_canon hpop
        exact hset.of_eq rfl rfl

theorem execContinuationResume_keeps {die : Nat} {s : State} (h : Canon s) : KeepsO (execContinuationResume die s) := by
  refine finish_keeps ?_ h
  split
  next t ht =>
    obtain ⟨q, -, hq⟩ := List.exists_of_findSome?_eq_some ht
    exact keeps_ite (keeps_set (takeResume_canon h hq)) idleM_keeps
  · exact idleM_keeps

end Sys2Proof.Machine
end

section
/-! Every step keeps the canonical forms: each instruction and event does, so an issue does, and so does the machine's step. -/

namespace Sys2Proof.Machine

/-- Every instruction, and every event, keeps the canonical forms. -/
theorem exec_keeps {i : Instr} {s : State} (h : Canon s) : KeepsO (exec i s) := by
  cases i with
  | nop => exact next_keeps h
  | bra _ => exact finish_keeps braCore_keeps h
  | brx _ => exact finish_keeps brxCore_keeps h
  | call _ => exact finish_keeps callCore_keeps h
  | callInd _ => exact finish_keeps callIndCore_keeps h
  | ret _ => exact finish_keeps retCore_keeps h
  | join _ => exact finish_keeps joinCore_keeps h
  | exit _ => exact finish_keeps exitCore_keeps h
  | sleep _ => exact finish_keeps sleepCore_keeps h
  | sleepTok _ => exact finish_keeps sleepTokCore_keeps h
  | yield _ => exact finish_keeps yieldCore_keeps h
  | pln _ => exact finish_keeps plnCore_keeps h
  | plng _ => exact finish_keeps plngCore_keeps h
  | trap _ => exact finish_keeps softTrap_keeps h
  | brk _ => exact finish_keeps softTrap_keeps h
  | loop _ => exact finish_keeps loopCore_keeps h
  | add _ => exact finish_keeps runA_keeps h
  | sub _ => exact finish_keeps runA_keeps h
  | mul _ => exact finish_keeps runA_keeps h
  | mulhi _ => exact finish_keeps runA_keeps h
  | mad _ => exact finish_keeps runA_keeps h
  | madhi _ => exact finish_keeps runA_keeps h
  | addc _ => exact finish_keeps runA_keeps h
  | subb _ => exact finish_keeps runA_keeps h
  | min _ => exact finish_keeps runA_keeps h
  | max _ => exact finish_keeps runA_keeps h
  | abs _ => exact finish_keeps runA_keeps h
  | neg _ => exact finish_keeps runA_keeps h
  | idiv _ => exact finish_keeps runA_keeps h
  | irem _ => exact finish_keeps runA_keeps h
  | sad _ => exact finish_keeps runA_keeps h
  | lea _ => exact finish_keeps runA_keeps h
  | and _ => exact finish_keeps runA_keeps h
  | or _ => exact finish_keeps runA_keeps h
  | xor _ => exact finish_keeps runA_keeps h
  | andn _ => exact finish_keeps runA_keeps h
  | not _ => exact finish_keeps runA_keeps h
  | logt _ => exact finish_keeps runA_keeps h
  | shl _ => exact finish_keeps runA_keeps h
  | shr _ => exact finish_keeps runA_keeps h
  | shra _ => exact finish_keeps runA_keeps h
  | rot _ => exact finish_keeps runA_keeps h
  | fshf _ => exact finish_keeps runA_keeps h
  | bfx _ => exact finish_keeps runA_keeps h
  | bfi _ => exact finish_keeps runA_keeps h
  | popc _ => exact finish_keeps runA_keeps h
  | clz _ => exact finish_keeps runA_keeps h
  | ctz _ => exact finish_keeps runA_keeps h
  | brev _ => exact finish_keeps runA_keeps h
  | mov _ => exact execMov_keeps h
  | movi _ => exact finish_keeps runA_keeps h
  | movh _ => exact execMovh_keeps h
  | sel _ => exact finish_keeps runA_keeps h
  | bshuf _ => exact finish_keeps runA_keeps h
  | clamp _ => exact finish_keeps runA_keeps h
  | cmp _ => exact finish_keeps runA_keeps h
  | fcmp _ => exact finish_keeps runA_keeps h
  | plop _ => exact finish_keeps runA_keeps h
  | pmov _ => exact execPmov_keeps h
  | poll _ => exact execPoll_keeps h
  | lxch _ => exact finish_keeps runCollective_keeps h
  | gred _ => exact execGred_keeps h
  | gscan _ => exact finish_keeps runCollective_keeps h
  | fadd _ => exact finish_keeps runA_keeps h
  | fsub _ => exact finish_keeps runA_keeps h
  | fmul _ => exact finish_keeps runA_keeps h
  | ffma _ => exact finish_keeps runA_keeps h
  | fmin _ => exact finish_keeps runA_keeps h
  | fmax _ => exact finish_keeps runA_keeps h
  | fabs _ => exact finish_keeps runA_keeps h
  | fneg _ => exact finish_keeps runA_keeps h
  | fdiv _ => exact finish_keeps runA_keeps h
  | fsqrt _ => exact finish_keeps runA_keeps h
  | frcpa _ => exact finish_keeps runA_keeps h
  | frsqa _ => exact finish_keeps runA_keeps h
  | fclass _ => exact finish_keeps runA_keeps h
  | fscale _ => exact finish_keeps runA_keeps h
  | fgete _ => exact finish_keeps runA_keeps h
  | fgetm _ => exact finish_keeps runA_keeps h
  | fcopys _ => exact finish_keeps runA_keeps h
  | frnd _ => exact finish_keeps runA_keeps h
  | fmed3 _ => exact finish_keeps runA_keeps h
  | fclamp _ => exact finish_keeps runA_keeps h
  | fex2 _ => exact finish_keeps runA_keeps h
  | flg2 _ => exact finish_keeps runA_keeps h
  | fsin _ => exact finish_keeps runA_keeps h
  | fcos _ => exact finish_keeps runA_keeps h
  | fdot2 _ => exact finish_keeps runA_keeps h
  | fadd2 _ => exact finish_keeps runA_keeps h
  | fmul2 _ => exact finish_keeps runA_keeps h
  | ffma2 _ => exact finish_keeps runA_keeps h
  | cvt _ => exact finish_keeps runA_keeps h
  | i2f _ => exact finish_keeps runA_keeps h
  | f2i _ => exact finish_keeps runA_keeps h
  | mxq _ => exact finish_keeps runCollective_keeps h
  | mxdq _ => exact finish_keeps runA_keeps h
  | bfpq _ => exact finish_keeps runCollective_keeps h
  | pack _ => exact finish_keeps runA_keeps h
  | unpk _ => exact finish_keeps runA_keeps h
  | ld _ => exact finish_keeps ldCore_keeps h
  | st _ => exact finish_keeps stCore_keeps h
  | ldw _ => exact finish_keeps ldwCore_keeps h
  | pref _ => exact next_keeps (prefetch_canon h)
  | cresize _ => exact finish_keeps cresizeCore_keeps h
  | cflush _ => exact finish_keeps flushCore_keeps h
  | cinv _ => exact finish_keeps flushCore_keeps h
  | femark _ => exact finish_keeps femarkCore_keeps h
  | fetest _ => exact finish_keeps fetestCore_keeps h
  | atom _ => exact finish_keeps atomCore_keeps h
  | cas _ => exact finish_keeps casCore_keeps h
  | atomsc _ => exact finish_keeps atomscCore_keeps h
  | faddw _ => exact finish_keeps faddwCore_keeps h
  | wread _ => exact finish_keeps wreadCore_keeps h
  | wflush _ => exact finish_keeps wflushCore_keeps h
  | fence _ => exact finish_keeps fenceCore_keeps h
  | opfence _ => exact finish_keeps opfenceCore_keeps h
  | recfence _ => exact finish_keeps recfenceCore_keeps h
  | bara _ => exact execBara_keeps h
  | barw _ => exact execBarw_keeps h
  | barx _ => exact execBarx_keeps h
  | bari _ => exact finish_keeps (barrier_keeps bariCore_keeps) h
  | tokwait _ => exact finish_keeps tokwaitCore_keeps h
  | tokpass _ => exact finish_keeps tokpassCore_keeps h
  | redix _ => exact finish_keeps redixCore_keeps h
  | cpy _ => exact finish_keeps copyCore_keeps h
  | cpyi _ => exact finish_keeps cpyiCore_keeps h
  | cpyg _ => exact finish_keeps copyCore_keeps h
  | cpys _ => exact finish_keeps copyCore_keeps h
  | cpyq _ => exact execCpyq_keeps h
  | cpyqTest _ => exact execCpyqTest_keeps h
  | cpyqAll _ => exact execCpyqAll_keeps h
  | cpyqStat _ => exact execCpyqStat_keeps h
  | cpyx _ => exact execCpyx_keeps h
  | wsstage _ => exact finish_keeps (wsCore_keeps (fun _ _ _ _ hs1 => stageRanges_canon hs1)) h
  | wsdrop _ => exact finish_keeps (wsCore_keeps (fun _ _ _ _ hs1 => dropRanges_canon hs1)) h
  | mms _ => exact finish_keeps mmCore_keeps h
  | mmx _ => exact finish_keeps mmCore_keeps h
  | mmi _ => exact finish_keeps mmCore_keeps h
  | acz _ => exact finish_keeps aczCore_keeps h
  | acld _ => exact finish_keeps acldCore_keeps h
  | acst _ => exact finish_keeps acstCore_keeps h
  | acrd _ => exact finish_keeps acrdCore_keeps h
  | mwait _ => exact execMwait_keeps h
  | mwaitTest _ => exact execMwaitTest_keeps h
  | mwaitAll _ => exact finish_keeps (guarded_keeps (keeps_get fun _ _ => waitMat_keeps)) h
  | mstatr _ => exact finish_keeps mstatrCore_keeps h
  | mdrain _ => exact finish_keeps mdrainCore_keeps h
  | mrestore _ => exact finish_keeps mrestoreCore_keeps h
  | mresumeMatrix _ => exact execMresumeMatrix_keeps h
  | mresumeCopy _ => exact execMresumeCopy_keeps h
  | mresumeQuery _ => exact execMresumeQuery_keeps h
  | slice _ => exact finish_keeps sliceCore_keeps h
  | rq _ => exact finish_keeps queryCore_keeps h
  | bq _ => exact finish_keeps queryCore_keeps h
  | rqr _ => exact finish_keeps rqrCore_keeps h
  | hacc _ => exact execHacc_keeps h
  | hrej _ => exact execHrej_keeps h
  | spcfg _ => exact finish_keeps spcfgCore_keeps h
  | cover _ => exact execCover_keeps h
  | triem _ => exact finish_keeps triemCore_keeps h
  | bvhref _ => exact execBvhref_keeps h
  | rclaim _ => exact execRclaim_keeps h
  | rcommit _ => exact finish_keeps settleCore_keeps h
  | rawaitTake _ => exact execRawaitTake_keeps h
  | rawaitAt _ => exact execRawaitAt_keeps h
  | rretire _ => exact finish_keeps settleCore_keeps h
  | enq _ => exact execEnq_keeps h
  | deq _ => exact execDeq_keeps h
  | cont _ => exact finish_keeps contCore_keeps h
  | launch _ => exact execLaunch_keeps h
  | launchGraph _ => exact execLaunchGraph_keeps h
  | signal _ => exact execSignal_keeps h
  | publish _ => exact execPublish_keeps h
  | send _ => exact finish_keeps sendCore_keeps h
  | recvp _ => exact finish_keeps recvpCore_keeps h
  | recvw _ => exact execRecvw_keeps h
  | probe _ => exact execProbe_keeps h
  | probeTok _ => exact execProbeTok_keeps h
  | itrep _ => exact execItrep_keeps h
  | csrr _ => exact finish_keeps csrrCore_keeps h
  | csrw _ => exact finish_keeps csrwCore_keeps h
  | csrwSet _ => exact finish_keeps csrwCore_keeps h
  | csrwClr _ => exact finish_keeps csrwCore_keeps h
  | rdclk _ => exact finish_keeps (guardedS_keeps (keeps_upd (fun _ hs1 => putS_canon hs1))) h
  | rdtime _ => exact finish_keeps (guardedS_keeps (keeps_upd (fun _ hs1 => putS_canon hs1))) h
  | gstatr _ => exact finish_keeps gstatrCore_keeps h
  | gstatw _ => exact finish_keeps gstatwCore_keeps h
  | gresume _ => exact execGresume_keeps h
  | gresumeReplay _ => exact execGresumeReplay_keeps h
  | halt _ => exact execHalt_keeps h
  | haltBlk _ => exact execHaltBlk_keeps h
  | svc _ => exact execSvc_keeps h
  | eret _ => exact execEret_keeps h
  | proghint _ => exact execProghint_keeps h
  | invalid _ => exact finish_keeps trapM_keeps h
  | lineExecution _ => exact execLineExecution_keeps h
  | loadDataArrival _ => exact execLoadDataArrival_keeps h
  | writePerformed _ => exact execWritePerformed_keeps h
  | trapDispatch _ => exact execTrapDispatch_keeps h
  | machineCheck _ => exact execMachineCheck_keeps h
  | admission _ => exact finish_keeps moveOf_keeps h
  | blockPlacement _ => exact finish_keeps moveOf_keeps h
  | staging _ _ _ _ => exact execStaging_keeps h
  | stagingLineLand _ => exact execStagingLineLand_keeps h
  | dispatchTimeout _ => exact execDispatchTimeout_keeps h
  | quantum _ _ => exact execQuantum_keeps h
  | sleepWake _ => exact execSleepWake_keeps h
  | launchCompletion _ => exact execLaunchCompletion_keeps h
  | preemptionRequest _ _ => exact execPreemptionRequest_keeps h
  | blockSave _ => exact execBlockSave_keeps h
  | blockRestore _ => exact finish_keeps moveOf_keeps h
  | passGrant _ => exact execPassGrant_keeps h
  | kStepCommit _ => exact execKStepCommit_keeps h
  | transferComplete _ => exact execTransferComplete_keeps h
  | copyRowLand _ _ => exact execCopyRowLand_keeps h
  | promiseMissed _ => exact execPromiseMissed_keeps h
  | queryTraversal _ => exact execQueryTraversal_keeps h
  | queryHeldResume _ => exact execQueryHeldResume_keeps h
  | queryComplete _ => exact execQueryComplete_keeps h
  | spawnGroupTimeout _ _ => exact execSpawnGroupTimeout_keeps h
  | spawnGroupPlace _ => exact execSpawnGroupPlace_keeps h
  | waiterReissue _ => exact execWaiterReissue_keeps h
  | parkReissue _ => exact execParkReissue_keeps h
  | continuationRelease _ => exact execContinuationRelease_keeps h
  | continuationResume _ => exact execContinuationResume_keeps h
  | graphLaunchNode _ => exact execGraphLaunchNode_keeps h
  | graphCondNode _ => exact atNode_keeps h fun _ _ _ _ _ hs he => condNode_canon hs he
  | graphWhileNode _ => exact atNode_keeps h fun _ _ _ _ _ hs he => whileNode_canon hs he
  | graphJoinNode _ => exact atNode_keeps h fun _ _ _ _ _ hs he => joinNode_canon hs he
  | graphSignalNode _ => exact atNode_keeps h fun _ _ _ _ _ hs he => signalNode_canon hs he
  | deadline _ => exact execDeadline_keeps h
  | messageArrival _ => exact execMessageArrival_keeps h
  | ringHop _ => exact execRingHop_keeps h
  | wsRefreshWindow _ => exact next_keeps h
  | powerLimitThrottle _ => exact next_keeps (h.of_eq rfl rfl)
  | regionPowerWindow _ _ _ _ => exact next_keeps (h.of_eq rfl rfl)
  | thermalThrottle _ => exact next_keeps (h.of_eq rfl rfl)
  | reset _ => exact execReset_keeps h
  | rlpHello _ => exact execRlpHello_keeps h
  | rlpWrite _ => exact rlpIn_keeps h
  | rlpRead _ => exact rlpIn_keeps h
  | rlpAtomic _ => exact rlpIn_keeps h
  | rlpLaunch _ => exact rlpIn_keeps h
  | rlpAck _ => exact rlpIn_keeps h
  | ackTimer _ => exact execAckTimer_keeps h
  | retransmit _ _ => exact execRetransmit_keeps h
  | sessionTimeout _ => exact execSessionTimeout_keeps h
  | mgmtCtxtab _ => exact mgmtIn_keeps h
  | mgmtKey _ => exact mgmtIn_keeps h
  | mgmtInval _ => exact mgmtIn_keeps h
  | mgmtResume _ => exact mgmtIn_keeps h
  | mgmtHalt _ => exact mgmtIn_keeps h
  | mgmtKill _ => exact mgmtIn_keeps h
  | mgmtPreempt _ => exact mgmtIn_keeps h
  | mgmtCsrr _ => exact mgmtIn_keeps h
  | mgmtCsrw _ => exact mgmtIn_keeps h
  | mgmtAttest _ => exact mgmtIn_keeps h
  | mgmtFwload _ => exact mgmtIn_keeps h
  | mgmtSavepool _ => exact mgmtIn_keeps h
  | mgmtPort _ => exact mgmtIn_keeps h
  | mgmtStatus _ => exact mgmtIn_keeps h
  | mgmtPhysw _ => exact mgmtIn_keeps h
  | mgmtPhysr _ => exact mgmtIn_keeps h
  | mgmtCharges _ => exact mgmtIn_keeps h
  | mgmtReset _ => exact mgmtIn_keeps h
  | modeWrite _ _ => exact next_keeps (canon_ite (writeCsr_canon h) h)
  | rwaysWrite _ _ => exact next_keeps (canon_ite (writeRways_canon h) h)
  | refcalWrite _ _ => exact next_keeps (canon_ite (writeRefcal_canon h) h)
  | pavaneWrite _ _ => exact next_keeps (canon_ite (writePavane_canon h) h)
  | ringpoolWrite _ _ => exact next_keeps (canon_ite (writeRingpool_canon h) h)
  | errcntWrite _ _ => exact next_keeps (canon_ite (writeErrcnt_canon h) h)
  | csrWrite _ _ _ => exact next_keeps (canon_ite (writeCsr_canon h) h)
  | pavaneDeqQuantum _ _ => exact execPavaneDeqQuantum_keeps h
  | unknownMgmtOperation _ => exact rlpIn_keeps h

/-- Settles O58: every step keeps memory and the table of groups canonical. -/
theorem tablesStayCanonical : Obligations.TablesStayCanonical := by
  unfold Obligations.TablesStayCanonical
  intro s t hmem hgroups hstep
  have hkeeps : KeepsO (step s) := stepWith_keeps (fun _ _ h => exec_keeps h) ⟨hmem, hgroups⟩
  exact hkeeps t hstep

end Sys2Proof.Machine
end
